-- ==== Sys2Proof/Word.lean ====
section
/-! DEFINITION. The plain words of the UC2410: stations, tags, ask ids, time, and the keyed tables. -/

namespace Sys2Proof

/-- A byte of a frame payload. -/
abbrev Byte := BitVec 8

/-- A station number as frames carry it: 0 to 14 name stations, 15 in a destination means all stations (spec/00 Terms). -/
abbrev Station := BitVec 4

/-- An ask id, 0 to 255, wrapping (R91). -/
abbrev AskId := BitVec 8

/-- A 32-bit count or serial of an epoch (8.1). -/
abbrev Word32 := BitVec 32

/-- Time in bit times of the shelf link, 0.25 microseconds each (9.1). Log entry 4. -/
abbrev Time := Nat

/-- A table of records by number, listed by rising number; a number not listed holds the record's resting value. -/
abbrev Table (α : Type) := List (Nat × α)

/-- The destination that means all stations (spec/00 Terms). -/
def broadcast : Station := 15

/-- The quotient rounded up. -/
def ceilDiv (a b : Nat) : Nat := (a + b - 1) / b

/-- The nearest value of a range (spec/00 "Saturation and clamping"). -/
def clampNat (lo hi v : Nat) : Nat := if v < lo then lo else if hi < v then hi else v

end Sys2Proof
end

