-- ==== Sys2Proof/Syntax.lean ====
section
/-! DEFINITION. The commands the UC2410 takes from outside, one for each row of spec/opcode_table.json, and what they carry. -/

namespace Sys2Proof

/-- A frame as it is read on the shelf link (R144): the fields from the arbitration field to the CRC. The length field is the number of
payload bytes, so it is not written a second time. -/
structure RawFrame where
  cls : BitVec 3
  sub : BitVec 5
  source : Station
  dest : Station
  kind : BitVec 5
  payload : List Byte
  crc : BitVec 16
  deriving DecidableEq, Repr

/-- What becomes of a map memory write (R4, R12): it completes, it fails, or it is still in progress when the event is over and
MAP_MEMORY_WRITE_COMPLETION ends it later. Log entry 6. -/
inductive WriteFate where
  | completes
  | fails
  | staysInProgress
  deriving DecidableEq, Repr

/-- What every event brings from outside: the station's time at it, and what becomes of the map memory writes it makes, in their
order (a write beyond the list completes). Log entries 4 and 6. -/
structure Moment where
  time : Time
  writes : List WriteFate
  deriving DecidableEq, Repr

/-- Kind of a station in a HAIL (R155). -/
inductive HailKind where
  | shelf
  | requester
  deriving DecidableEq, Repr

/-- Condition field of a HAIL (R140, R155). -/
inductive HailCondition where
  | ready
  | notReady
  | drain
  | leaving
  deriving DecidableEq, Repr

/-- Reason field of a GIVEBACK (R123, R155). -/
inductive GivebackReason where
  | trimmed
  | unused
  | rollback
  deriving DecidableEq, Repr

/-- One record of a GRANT (R119, R155). -/
structure GrantRecord where
  loan : Nat
  bay : Nat
  grain : Nat
  deriving DecidableEq, Repr

/-- The fields of a HAIL (R140, R155). Identity: 0 no part of an epoch, 1 the unit serial, 2 serial and format count. -/
structure HailBody where
  kind : HailKind
  identity : Byte
  serial : Word32
  formatCount : Word32
  restartCount : BitVec 16
  cause : Byte
  cond : HailCondition
  q : Nat
  deriving DecidableEq, Repr

/-- The values the serial profile ROM gives (R1, R51, R64, R75, R88, R133, R157, R169). The same record holds them after clamping. -/
structure Profile where
  bayCount : Nat
  grainCounts : List Nat
  grainSizeCode : Nat
  lowPermille : Nat
  highPermille : Nat
  /-- Milliseconds (R51). -/
  holdTime : Nat
  /-- Microseconds (R64). -/
  walkerPeriod : Nat
  /-- K (R64). -/
  walkerVisits : Nat
  /-- rp (R75). -/
  reservePermille : Nat
  /-- ew (R75). -/
  exposureWeight : Nat
  maxLoan : Nat
  spareTarget : Nat
  /-- Milliseconds (R88). -/
  backoffBase : Nat
  /-- Seconds (R88). -/
  backoffCap : Nat
  /-- Milliseconds (R133). -/
  presenceInterval : Nat
  /-- Service sensitivity: true is EDGE, false is LEVEL (R157). -/
  serviceEdge : Bool
  /-- Service polarity (R157). -/
  serviceActiveHigh : Bool
  /-- Seconds (R157). -/
  drainLimit : Nat
  serial : Word32
  /-- One alert enable for each fault flag (R169). -/
  alertEnables : BitVec 13
  deriving DecidableEq, Repr

/-- The profile ROM as a full start reads it (R157): its contents as pairs of bytes, most significant first, and the values they
spell. The manual does not give the layout of the contents, so the values stand beside them. Log entry 10. -/
structure ProfileRom where
  contents : List (Byte × Byte)
  values : Profile
  deriving DecidableEq, Repr

/-- The pins a full start samples (R157, R15, R162): the station-number strap, the FORMAT strap (true when held), the levels of the
24 bay lines (1 is high) and of the service input (true is high). -/
structure StartPins where
  strap : BitVec 4
  formatHeld : Bool
  bayLines : BitVec 24
  serviceHigh : Bool
  deriving DecidableEq, Repr

/-- The commands, in the order of the table. `takes` of a start or a loss of supply says whether a write then in progress takes effect
(R157). -/
inductive Instr where
  | powerOn (pins : StartPins) (rom : Option ProfileRom) (takes : Bool) (m : Moment)
  | resetPin (lowFor : Time) (pins : StartPins) (rom : Option ProfileRom) (takes : Bool) (m : Moment)
  | bayAbsent (bay : Fin 24) (heldFor : Time) (m : Moment)
  | bayPresent (bay : Fin 24) (heldFor : Time) (m : Moment)
  | serviceAsserted (heldFor : Time) (m : Moment)
  | serviceReleased (heldFor : Time) (bayLines : BitVec 24) (m : Moment)
  | requestFrameReceived (f : RawFrame) (m : Moment)
  | lookupRead (m : Moment)
  | lookupWrite (m : Moment)
  | commit (m : Moment)
  | trim (m : Moment)
  | volumeCreate (m : Moment)
  | volumeDelete (m : Moment)
  | volumeGrow (m : Moment)
  | statusPage0 (m : Moment)
  | statusPage1 (m : Moment)
  | clear (m : Moment)
  | ask (source : Station) (askId : AskId) (wanted : Byte) (m : Moment)
  | offer (source : Station) (askId : AskId) (asker : Station) (count : Byte) (d : BitVec 5) (m : Moment)
  | take (source dest : Station) (askId : AskId) (count : Byte) (m : Moment)
  | grant (source dest : Station) (askId : AskId) (records : List GrantRecord) (m : Moment)
  | giveback (source dest : Station) (reason : GivebackReason) (loans : List Nat) (m : Moment)
  | hail (source : Station) (h : HailBody) (m : Moment)
  | frameHeard (f : RawFrame) (m : Moment)
  | attemptStart (m : Moment)
  | arbitrationLost (m : Moment)
  | frameEnded (m : Moment)
  | attemptFailed (m : Moment)
  | holdExpiry (m : Moment)
  | walkerPeriod (m : Moment)
  | offerWindowExpiry (m : Moment)
  | grantWaitExpiry (m : Moment)
  | backoffExpiry (m : Moment)
  | offerTimerExpiry (m : Moment)
  | takeWaitExpiry (m : Moment)
  | returnStep (m : Moment)
  | peerAgeExpiry (station : Station) (m : Moment)
  | hailTimerExpiry (m : Moment)
  | joinTimerExpiry (m : Moment)
  | drainTimerExpiry (m : Moment)
  | powerLoss (takes : Bool)
  | malformedRequest (m : Moment)
  | mapMemoryWriteCompletion (ok : Bool) (m : Moment)
  deriving DecidableEq, Repr

end Sys2Proof
end

