-- ==== Sys2Proof/Decode.lean ====
section
/-! DEFINITION. The command a word of the opcode table spells. The table of this block gives no row any bits (spec/98: no row with
fixed bits or fields), so no word spells a command. -/

namespace Sys2Proof

/-- The command spelt by a word of the table's bits: none, because no row of this table has bits. -/
def decodeTableWord (_nbits _w : Nat) : Option Instr := none

end Sys2Proof
end

