-- ==== Sys2Proof/Config.lean ====
section
/-! DEFINITION. What the part fixes once and for all: its limits, its time units, its waits; and the free values, which the manual
leaves open. -/

namespace Sys2Proof.Config

/-- Outbound queue places (R149). -/
def outboundPlaces : Nat := 32
/-- Places REPLY and ALERT frames may occupy together (R149). -/
def replyPlaces : Nat := 24
/-- Request buffer frames (R148). -/
def bufferPlaces : Nat := 16
/-- Pending list records (R50). -/
def pendingPlaces : Nat := 128
/-- Trim queue ranges (R58). -/
def trimPlaces : Nat := 8
/-- Spare list records (R101). -/
def sparePlaces : Nat := 32
/-- Loan numbers (R120). -/
def loanNumbers : Nat := 65536
/-- Chunk map entries (R32). -/
def mapPlaces : Nat := 33554432
/-- Largest nominal size of a volume, in chunks (R18). -/
def maxVolume : Nat := 16777216
/-- Largest grain count of a bay (R1). -/
def maxGrains : Nat := 1048576
/-- Top of a 16-bit saturating counter (R169, R160). -/
def counterTop : Nat := 65535
/-- Top of the consecutive-failure count (R89). -/
def failureTop : Nat := 255
/-- Most records of a GRANT, a GIVEBACK or a return step (R84, R104, R123). -/
def frameLoans : Nat := 8
/-- Failed attempts a frame may make before its last one (R150). -/
def lastRetry : Nat := 7
/-- Longest payload of a frame, in bytes (R144). -/
def maxPayload : Nat := 48

/-- One slot is 64 bit times (9.1). -/
def slot : Time := 64
/-- One microsecond is 4 bit times (9.1). -/
def microsecond : Time := 4
/-- One millisecond is 4,000 bit times. -/
def millisecond : Time := 4000
/-- One second is 1,000 milliseconds. -/
def second : Time := 4000000

/-- The offer window, from the end of the ASK (R92). -/
def offerWindow : Time := 40 * slot
/-- The GRANT wait, from the end of the TAKE (R95). -/
def grantWait : Time := 256 * slot
/-- The TAKE wait, from the end of the OFFER (R115). -/
def takeWait : Time := 128 * slot
/-- How long a bay line or the service input must hold a level for a change to be taken (R5, R162). -/
def lineHold : Time := 20 * millisecond
/-- How long the reset pin must be held low to be taken (R157). -/
def resetHold : Time := 10 * microsecond
/-! Free values: the manual gives the answer these stand in and does not say what they are. Nothing fixes them. Each is read at the
number of free values used before it (log entries 15 and 16). -/

/-- The volume in the answer to a LOOKUP, COMMIT or TRIM whose payload is too short to hold one. Log entry 16. -/
opaque unnamedVolume : Nat → BitVec 8
/-- The chunk index in the answer to a LOOKUP, COMMIT or TRIM whose payload is too short to hold one. Log entry 16. -/
opaque unnamedChunk : Nat → BitVec 24
/-- The spare count of page 0 while the spare list has not been read. Log entry 15. -/
opaque unreadSpares : Nat → BitVec 8
/-- The loan record count of page 0 while the loan table has not been read. Log entry 15. -/
opaque unreadLoans : Nat → BitVec 24
/-- The pending count of page 0 while the pending list has not been read. Log entry 15. -/
opaque unreadPendings : Nat → BitVec 8
/-- The trim queue depth of page 0 while the trim queue has not been read. Log entry 15. -/
opaque unreadTrims : Nat → BitVec 8

/-- Own presence intervals of silence after which a peer is LOST (R133). -/
def agingIntervals : Nat := 3

end Sys2Proof.Config
end

