-- ==== Sys2Proof/Machine/State.lean ====
section
/-! DEFINITION. Every piece of state the manual gives the UC2410, as plain data, and the station right after reset. -/

namespace Sys2Proof.Machine

/-- An epoch: unit serial and format count (8.1). -/
structure Epoch where
  serial : Word32
  formatCount : Word32
  deriving DecidableEq, Repr

/-- The station's condition (R156). -/
inductive Condition where
  | start
  | join
  | ready
  | drain
  | quiet
  | halted
  | mute
  deriving DecidableEq, Repr

/-- Why the station last started (R157, R159, R166). -/
inductive RestartCause where
  | power
  | pin
  | resume
  | format
  deriving DecidableEq, Repr

/-- What a start left to be entered at the end of JOIN (R161). -/
inductive StartOutcome where
  | ready
  | halted
  deriving DecidableEq, Repr

/-! ## The grain pool and the map -/

/-- The free set of one bay (R3): the grain numbers below `count` that are not `held`. `held` is strictly rising. Log entry 9. -/
structure FreeSet where
  count : Nat
  held : List Nat
  deriving DecidableEq, Repr

/-- State of a volume (R18). -/
inductive VolumeState where
  | free
  | active
  | retiring
  deriving DecidableEq, Repr

/-- A volume record (R18). -/
structure Volume where
  state : VolumeState
  size : Nat
  count : Nat
  deriving DecidableEq, Repr

/-- Where an entry's grain lies (R31). -/
inductive Place where
  | here (bay grain : Nat)
  | remote (lender : Station) (loan bay grain : Nat) (epoch : Epoch)
  deriving DecidableEq, Repr

/-- State of an entry with its pending part or its last commit (R31). -/
inductive EntryState where
  | pending (requester : Station) (tag : Nat) (expiry : Time)
  | mapped (requester : Station) (tag : Nat)
  deriving DecidableEq, Repr

/-- A chunk map entry (R31). Its volume and chunk index are its key in the map. -/
structure Entry where
  state : EntryState
  place : Place
  shield : Nat
  deriving DecidableEq, Repr

/-- A pending list record (R50). -/
structure PendingRecord where
  volume : Nat
  chunk : Nat
  requester : Station
  tag : Nat
  expiry : Time
  deriving DecidableEq, Repr

/-- The request a range came from (R58). -/
inductive RangeOrigin where
  | trim
  | delete
  deriving DecidableEq, Repr

/-- A range of the trim queue (R58). -/
structure TrimRange where
  volume : Nat
  first : Nat
  last : Nat
  cursor : Nat
  origin : RangeOrigin
  requester : Station
  tag : Nat
  deriving DecidableEq, Repr

/-- A loan record; its loan number is its key in the loan table (R120). -/
structure Loan where
  borrower : Station
  epoch : Epoch
  bay : Nat
  grain : Nat
  deriving DecidableEq, Repr

/-- A spare list record (R101). -/
structure Spare where
  lender : Station
  loan : Nat
  bay : Nat
  grain : Nat
  epoch : Epoch
  deriving DecidableEq, Repr

/-- A peer capacity record (R106). -/
structure PeerCapacity where
  known : Option Epoch
  inUse : Nat
  spare : Nat
  deriving DecidableEq, Repr

/-- The map memory header (R158). The check's making is not in the manual: `checkGood` is its result. Log entry 29. -/
structure Header where
  serial : Word32
  formatCount : Word32
  restartCount : Nat
  checkGood : Bool
  deriving DecidableEq, Repr

/-- The geometry record (R2). -/
structure Geometry where
  bayCount : Nat
  grainCounts : List Nat
  grainSizeCode : Nat
  deriving DecidableEq, Repr

/-- Map memory: the persistent structures (spec/00). `none` for the header or the geometry record is one that cannot be read. -/
structure MapMemory where
  header : Option Header
  geometry : Option Geometry
  freeSets : List FreeSet
  volumes : Table Volume
  chunks : Table Entry
  pendings : List PendingRecord
  trims : List TrimRange
  loans : Table Loan
  spares : List Spare
  peers : Table PeerCapacity
  deriving DecidableEq, Repr

/-! ## The roster and the loan unit -/

/-- State of a roster record (R131). -/
inductive PeerState where
  | silent
  | present
  | lost
  deriving DecidableEq, Repr

/-- A roster record (R131). -/
structure RosterRecord where
  state : PeerState
  kind : Option HailKind
  epoch : Option Epoch
  lastHeard : Option Time
  deriving DecidableEq, Repr

/-- A roster event (R139). -/
inductive RosterEvent where
  | peerPresent
  | peerLost
  | peerNewEpoch
  deriving DecidableEq, Repr

/-- State of the ask machine (R89). -/
inductive AskState where
  | idle
  | calling
  | taking
  | backoff
  deriving DecidableEq, Repr

/-- The ask machine with what it remembers (R89). The timer is the window in CALLING, the GRANT wait in TAKING, the backoff in
BACKOFF. -/
structure AskMachine where
  state : AskState
  askId : AskId
  failures : Nat
  timer : Option Time
  lender : Option Station
  offerCount : Nat
  wanted : Nat
  lastAccepted : Option (Station × AskId)
  deriving DecidableEq, Repr

/-- State of the offer machine (R111). -/
inductive OfferState where
  | idle
  | armed
  | queued
  | waiting
  deriving DecidableEq, Repr

/-- The open offer (R111). -/
structure OpenOffer where
  asker : Station
  askId : AskId
  n : Nat
  d : Nat
  deriving DecidableEq, Repr

/-- The offer machine (R111). `endsAtReport` holds after a refused withdrawal that ends the offer when the link reports the OFFER's
end or drop (R112, R117). -/
structure OfferMachine where
  state : OfferState
  current : Option OpenOffer
  timer : Option Time
  endsAtReport : Bool
  deriving DecidableEq, Repr

/-- A last-grant record; a station without one has an empty record (R121). -/
structure LastGrant where
  askId : AskId
  records : List GrantRecord
  deriving DecidableEq, Repr

/-! ## Frames, faults and the link -/

/-- The fault flags (R169). -/
inductive Flag where
  | profileAbsent
  | profileClamped
  | mapMem
  | duplicate
  | frameDropped
  | grantUndelivered
  | givebackUndelivered
  | staleGiveback
  | dataLost
  | noSpace
  | mapFull
  | drainForced
  | bayChange
  deriving DecidableEq, Repr

/-- The counters of the fault record (R169). -/
inductive Counter where
  | framesDropped
  | staleGivebacks
  | askFailures
  | noSpaceAnswers
  deriving DecidableEq, Repr

/-- The values of the four counters (R169). -/
structure Counts where
  framesDropped : Nat
  staleGivebacks : Nat
  askFailures : Nat
  noSpaceAnswers : Nat
  deriving DecidableEq, Repr

/-- The fault record (R169). -/
structure FaultRecord where
  flags : BitVec 13
  counts : Counts
  enables : BitVec 13
  deriving DecidableEq, Repr

/-- REPLY statuses (R155). -/
inductive Status where
  | ok
  | zero
  | fresh
  | held
  | noSpace
  | noVol
  | range
  | bayOff
  | unreachable
  | lost
  | done
  | late
  | queued
  | trimmed
  | busy
  | exists
  | notReady
  | quiesced
  | mapFull
  | badReq
  deriving DecidableEq, Repr

/-- The figures of STATUS page 0 (R171). -/
structure PageZero where
  condition : Nat
  cause : Nat
  restartCount : Nat
  identity : Nat
  serial : Word32
  formatCount : Word32
  p : Nat
  f : Nat
  spares : Nat
  loans : Nat
  pendings : Nat
  trims : Nat
  q : Nat
  deriving DecidableEq, Repr

/-- The part a REPLY carries (R155). -/
inductive ReplyPart where
  | none
  | place (station : Station) (bay grain : Nat)
  | size (n : Nat)
  | pageZero (p : PageZero)
  | pageOne (flags : BitVec 13) (counts : Counts)
  deriving DecidableEq, Repr

/-- A REPLY (R155). -/
structure Reply where
  tag : Nat
  status : Status
  volume : Nat
  chunk : Nat
  part : ReplyPart
  deriving DecidableEq, Repr

/-- What a frame of the station's own says (R155). -/
inductive FrameBody where
  | reply (r : Reply)
  | take (askId : AskId) (count : Nat)
  | grant (askId : AskId) (records : List GrantRecord)
  | giveback (reason : GivebackReason) (loans : List Nat)
  | offer (askId : AskId) (asker : Station) (n d : Nat)
  | ask (askId : AskId) (wanted : Nat)
  | hail (h : HailBody)
  | alert (flag : Flag) (condition : Nat)
  deriving DecidableEq, Repr

/-- A frame of the outbound queue (R149). Its source is always the station's own number. -/
structure OutFrame where
  dest : Station
  body : FrameBody
  deriving DecidableEq, Repr

/-- The frame in hand (R150): its retry count, and the frame being driven while an attempt is on the link. -/
structure Hand where
  frame : OutFrame
  retries : Nat
  driving : Option RawFrame
  deriving DecidableEq, Repr

/-- The sending side of the link interface (R149, R150). The frame in hand is kept beside the queue and counts as one of its places. -/
structure Link where
  queue : List OutFrame
  hand : Option Hand
  reservedReplies : Nat
  reservedOthers : Nat
  deriving DecidableEq, Repr

/-! ## Events still to be taken -/

/-- Which pending records a rollback takes (R51, R53, R165). -/
inductive RollbackOf where
  | expiry (at_ : Time)
  | requester (st : Station)
  | forced
  deriving DecidableEq, Repr

/-- An event, or a part of one, that a block still has to take: what follows a map memory write, or what waits until the port is free.
Log entries 6 and 7. -/
inductive Task where
  -- frames and reports
  | reply (dest : Station) (r : Reply)
  | releaseReply
  | releaseOther
  | giveback (reserved : Bool) (lender : Station) (reason : GivebackReason) (loans : List Nat)
  | report (flag : Flag)
  | count (c : Counter)
  | mapMemError
  -- loan unit
  | startAsk
  | judgeAsk
  | askSucceeded (lender : Station) (askId : AskId)
  | failAskOf (lender : Station)
  | granted (borrower : Station) (askId : AskId) (records : List GrantRecord)
  | endOfferOf (asker : Station) (askId : AskId)
  | emptyLastGrants (loans : List Nat)
  | emptyLastGrantOf (st : Station)
  | takeHeard (source : Station) (askId : AskId) (count : Nat)
  | grantHeard (source : Station) (askId : AskId) (records : List GrantRecord)
  | givebackHeard (source : Station) (loans : List Nat)
  | returnStep
  | borrowerEvent (ev : RosterEvent) (st : Station)
  | lenderEvent (ev : RosterEvent) (st : Station)
  -- map engine and trim walker
  | lookupWrite (source : Station) (volume chunk tag : Nat)
  | commit (source : Station) (volume chunk tag : Nat)
  | trim (source : Station) (volume first count tag : Nat)
  | volumeCreate (source : Station) (volume size tag : Nat)
  | volumeDelete (source : Station) (volume tag : Nat)
  | volumeGrow (source : Station) (volume size tag : Nat)
  | mapEvent (ev : RosterEvent) (st : Station)
  | rollback (which : RollbackOf)
  | walk (visits : Nat)
  | freeVolume (r : TrimRange)
  -- condition control
  | judgeQuiet
  | endForcedDrain
  | resume
  | formatHeader
  | formatContents
  | formatFailed
  | raiseRestartCount
  | raisePool
  | startRollback (handbacks : List (Station × Nat))
  | sweepRetiring
  | startDone
  | startFailed
  deriving DecidableEq, Repr

/-- A map memory write (R4): the image of map memory and the rotor it makes, what follows it at once when it has completed, what the
event goes on with after the judgements its changes call for, and what follows when it has failed. -/
structure MapWrite where
  image : MapMemory
  rotor : Nat
  /-- Whether it takes a grain of the pool or changes the spare list by an allocation or a GRANT: R90 is then judged when it has completed,
  even where the same write gives as much back (R8, R46, R96, R103). -/
  takes : Bool
  onDone : List Task
  goOn : List Task
  onFail : List Task
  deriving DecidableEq, Repr

/-! ## The station -/

/-- The UC2410. -/
structure State where
  /-- Commands waiting, first in first out (log entry 3). -/
  pending : List Instr
  /-- Whether the supply is on (R156). -/
  powered : Bool
  /-- The station's time (log entry 4). -/
  now : Time
  cond : Condition
  /-- The station's own number (R157). -/
  own : Station
  profile : Profile
  /-- The profile was read at the last full start (R140). -/
  profileRead : Bool
  /-- The header was read and found valid at the last start, and the map engine has its tables (R30, R140). -/
  headerRead : Bool
  /-- The pool has been set up: it has a geometry, and its figures and those of the volume table stand (R15 to R17, R30). -/
  poolUp : Bool
  /-- The loan unit has its persistent structures (R110, R129). -/
  loanUp : Bool
  cause : RestartCause
  outcome : StartOutcome
  joinTimer : Option Time
  drainTimer : Option Time
  /-- The drain has ended and QUIET is awaited (R164). -/
  drainEnded : Bool
  /-- Level of the service input as it was last told, however long it has held, true is high (R162; log entry 27). -/
  serviceLine : Bool
  /-- Filtered level of the service input, true is high (R162). -/
  servicePin : Bool
  /-- Levels of the bay lines as they were last told, however long they have held, 1 is high (R5, R15; log entry 27). -/
  bayLines : BitVec 24
  /-- Presence of each bay below the bay count, true is PRESENT; empty while the pool is empty (R5, R17). -/
  presence : List Bool
  rotor : Nat
  mm : MapMemory
  roster : Table RosterRecord
  hailTimer : Option Time
  ask : AskMachine
  offer : OfferMachine
  lastGrants : Table LastGrant
  walkerTimer : Option Time
  link : Link
  /-- The request buffer (R148). -/
  buffer : List RawFrame
  /-- What the station drove in the acknowledge slot of the last frame heard: true is dominant (R148, log entry 28). -/
  ackDriven : Bool
  faults : FaultRecord
  /-- The ATTENTION pin, true is asserted (R170). -/
  attention : Bool
  /-- The map memory write in progress (log entry 6). -/
  inflight : Option MapWrite
  /-- Events still to be taken (log entry 6). -/
  tasks : List Task
  /-- How many free values have been used: the model's own field (log entries 15 and 16). -/
  fresh : Nat
  deriving DecidableEq, Repr

/-- Reasons a step can stop with a fault. No meaning of this block raises one: every command has an effect or changes nothing in every
state, which is safe (log entry 3). -/
inductive Fault where
  /-- Raised by no meaning; it keeps the type inhabited. Safe. -/
  | neverRaised
  deriving DecidableEq, Repr

/-- Reasons a step can be refused. -/
inductive Refusal where
  /-- Raised by an arm of exec for a command that has no meaning yet. Safe. No arm of this model raises it. -/
  | notModelled (mnemonic : String)
  deriving DecidableEq, Repr

/-! ## Resting values -/

/-- The record of a volume number under which no volume exists (R18). -/
def Volume.none : Volume := { state := .free, size := 0, count := 0 }

/-- A peer capacity record before the first GRANT of that peer (R106, R110). -/
def PeerCapacity.none : PeerCapacity := { known := Option.none, inUse := 0, spare := 0 }

/-- A roster record after a start (R131). -/
def RosterRecord.none : RosterRecord :=
  { state := .silent, kind := Option.none, epoch := Option.none, lastHeard := Option.none }

/-- The ask machine after a start (R89). -/
def AskMachine.reset : AskMachine :=
  { state := .idle, askId := 0, failures := 0, timer := none, lender := none, offerCount := 0, wanted := 0, lastAccepted := none }

/-- The offer machine after a start (R111). -/
def OfferMachine.reset : OfferMachine := { state := .idle, current := none, timer := none, endsAtReport := false }

/-- The link interface after a start (R154). -/
def Link.reset : Link := { queue := [], hand := none, reservedReplies := 0, reservedOthers := 0 }

/-- The fault record after stage 1 of a full start (R157, R169). -/
def FaultRecord.reset : FaultRecord :=
  { flags := 0, counts := { framesDropped := 0, staleGivebacks := 0, askFailures := 0, noSpaceAnswers := 0 },
    enables := BitVec.allOnes 13 }

/-- Map memory that nothing has written (log entry 2). -/
def MapMemory.blank : MapMemory :=
  { header := none, geometry := none, freeSets := [], volumes := [], chunks := [], pendings := [], trims := [], loans := [],
    spares := [], peers := [] }

/-- The profile values while the profile is absent: rp 0, ew 0, MaxLoan 1, a presence interval of 100 ms, the service input LEVEL and
active low, all alert enables on (R75, R157, R169). The manual says nothing of the others, which a station without a profile does not
use; they stand at the low end of their ranges. Log entry 11. -/
def Profile.absent : Profile :=
  { bayCount := 1, grainCounts := [1], grainSizeCode := 0, lowPermille := 0, highPermille := 0, holdTime := 5, walkerPeriod := 50,
    walkerVisits := 1, reservePermille := 0, exposureWeight := 0, maxLoan := 1, spareTarget := 1, backoffBase := 10, backoffCap := 1,
    presenceInterval := 100, serviceEdge := false, serviceActiveHigh := false, drainLimit := 1, serial := 0,
    alertEnables := BitVec.allOnes 13 }

/-- The station right after reset: in START with every volatile structure as a start leaves it, the pins, the profile and map memory
not yet read, map memory never written. Log entries 1 and 2. -/
def State.reset : State :=
  { pending := [], powered := true, now := 0, cond := .start, own := 0, profile := Profile.absent, profileRead := false,
    headerRead := false, poolUp := false, loanUp := false, cause := .power, outcome := .halted, joinTimer := none,
    drainTimer := none, drainEnded := false, serviceLine := true, servicePin := true, bayLines := BitVec.allOnes 24, presence := [],
    rotor := 0, mm := MapMemory.blank, roster := [], hailTimer := none, ask := AskMachine.reset, offer := OfferMachine.reset, lastGrants := [],
    walkerTimer := none, link := Link.reset, buffer := [], ackDriven := false, faults := FaultRecord.reset, attention := false,
    inflight := none, tasks := [], fresh := 0 }

end Sys2Proof.Machine
end

