-- ==== Sys2Proof/Machine/Tables.lean ====
section
/-! DEFINITION. Keyed tables in one canonical form: keys strictly rising, and no record listed that holds the resting value. -/

namespace Sys2Proof.Machine

/-- The record under a number, if it is listed. -/
def tableFind {α : Type} (t : Table α) (k : Nat) : Option α :=
  match t with
  | [] => none
  | (k', v) :: rest => if k' = k then some v else tableFind rest k

/-- The record under a number, with the resting value for a number not listed. -/
def tableGet {α : Type} (d : α) (t : Table α) (k : Nat) : α := (tableFind t k).getD d

/-- List a record under a number, in its place. -/
def tablePut {α : Type} (t : Table α) (k : Nat) (v : α) : Table α :=
  match t with
  | [] => [(k, v)]
  | (k', v') :: rest =>
    if k < k' then (k, v) :: (k', v') :: rest
    else if k = k' then (k, v) :: rest
    else (k', v') :: tablePut rest k v

/-- Take a number out of the table. -/
def tableErase {α : Type} (t : Table α) (k : Nat) : Table α :=
  match t with
  | [] => []
  | (k', v') :: rest => if k' = k then rest else (k', v') :: tableErase rest k

/-- Set the record under a number: the resting value is kept by listing nothing. -/
def tableSet {α : Type} [DecidableEq α] (d : α) (t : Table α) (k : Nat) (v : α) : Table α :=
  if v = d then tableErase t k else tablePut t k v

/-- The numbers listed. -/
def tableKeys {α : Type} (t : Table α) : List Nat := t.map Prod.fst

/-- A list of numbers in strictly rising order. -/
def rising (l : List Nat) : Prop := l.Pairwise (· < ·)

/-- The canonical form of a table without a resting value. -/
def tableWf {α : Type} (t : Table α) : Prop := rising (tableKeys t)

/-- The canonical form of a table with a resting value. -/
def tableWfRest {α : Type} (d : α) (t : Table α) : Prop := tableWf t ∧ ∀ p ∈ t, p.2 ≠ d

/-- Put a number into a rising list. -/
def insertRising (l : List Nat) (g : Nat) : List Nat :=
  match l with
  | [] => [g]
  | x :: rest => if g < x then g :: x :: rest else if g = x then x :: rest else x :: insertRising rest g

/-- The lowest number from n on that a rising list of numbers from n on leaves out. -/
def lowestMissing (n : Nat) (l : List Nat) : Nat :=
  match l with
  | [] => n
  | x :: rest => if x = n then lowestMissing (n + 1) rest else n

end Sys2Proof.Machine
end

