-- ==== Sys2Proof/Machine/Pool.lean ====
section
/-! DEFINITION. The grain pool: geometry, free sets, the figures P and F, the rotor and the marks (spec/01). -/

namespace Sys2Proof.Machine

/-! ## Profile values and geometry (R1) -/

/-- Every profile value replaced by the nearest end of its range (R1, R51, R64, R75, R88, R133, R157). Grain counts of bays at or above
the bay count are not read. -/
def clampProfile (p : Profile) : Profile :=
  let bays := clampNat 1 24 p.bayCount
  { p with
    bayCount := bays
    grainCounts := (List.range bays).map fun b => clampNat 1 Config.maxGrains (p.grainCounts.getD b 0)
    grainSizeCode := clampNat 0 3 p.grainSizeCode
    lowPermille := clampNat 0 1000 p.lowPermille
    highPermille := clampNat 0 1000 p.highPermille
    holdTime := clampNat 5 2000 p.holdTime
    walkerPeriod := clampNat 50 10000 p.walkerPeriod
    walkerVisits := clampNat 1 64 p.walkerVisits
    reservePermille := clampNat 0 500 p.reservePermille
    exposureWeight := clampNat 0 1000 p.exposureWeight
    maxLoan := clampNat 1 8 p.maxLoan
    spareTarget := clampNat 1 32 p.spareTarget
    backoffBase := clampNat 10 1000 p.backoffBase
    backoffCap := clampNat 1 60 p.backoffCap
    presenceInterval := clampNat 10 1000 p.presenceInterval
    drainLimit := clampNat 1 120 p.drainLimit }

/-- Whether clamping changed a value that is read (R1: grain counts at or above the bay count are not). -/
def profileClamped (p : Profile) : Bool :=
  let c := clampProfile p
  decide (c ≠ { p with grainCounts := (List.range c.bayCount).map fun b => p.grainCounts.getD b 0 })

/-- The geometry a clamped profile gives (R1, R2). -/
def geometryOf (p : Profile) : Geometry :=
  { bayCount := p.bayCount, grainCounts := p.grainCounts, grainSizeCode := p.grainSizeCode }

/-! ## Free sets (R3) -/

/-- Whether a grain is in the free set. -/
def FreeSet.has (s : FreeSet) (g : Nat) : Bool := g < s.count && !s.held.contains g

/-- How many grains the free set holds. -/
def FreeSet.size (s : FreeSet) : Nat := s.count - s.held.length

/-- The lowest-numbered grain of the set (R9). -/
def FreeSet.lowest (s : FreeSet) : Option Nat :=
  let g := lowestMissing 0 s.held
  if g < s.count then some g else none

/-- The set without a grain. -/
def FreeSet.take (s : FreeSet) (g : Nat) : FreeSet := { s with held := insertRising s.held g }

/-- The set with a grain added; adding one already present changes nothing (R3). -/
def FreeSet.give (s : FreeSet) (g : Nat) : FreeSet := { s with held := s.held.filter (· != g) }

/-- A set with every grain of its bay free (R16, format). -/
def FreeSet.full (count : Nat) : FreeSet := { count := count, held := [] }

/-- The canonical form: the grains not free stand in rising order and are grains of the bay. -/
def FreeSet.wf (s : FreeSet) : Prop := rising s.held ∧ ∀ g ∈ s.held, g < s.count

/-- Return a grain to the free set of its bay, whatever the bay's presence (R11). -/
def giveGrain (sets : List FreeSet) (bay grain : Nat) : List FreeSet :=
  sets.modify bay (·.give grain)

/-! ## P, F and the marks (R8, R13, R14) -/

/-- The sum over the PRESENT bays of a figure of their free sets. -/
def sumPresent (f : FreeSet → Nat) (presence : List Bool) (sets : List FreeSet) : Nat :=
  (List.zipWith (fun p s => if p then f s else 0) presence sets).sum

/-- P, the sum of the grain counts of the PRESENT bays (R8). -/
def poolSize (presence : List Bool) (sets : List FreeSet) : Nat := sumPresent (·.count) presence sets

/-- F, the number of free grains of the PRESENT bays (R8). -/
def poolFree (presence : List Bool) (sets : List FreeSet) : Nat := sumPresent FreeSet.size presence sets

/-- The effective high permille (R13). -/
def effectiveHigh (low high : Nat) : Nat := if low < high then high else min 1000 (low + 50)

/-- The low mark (R13). -/
def lowMark (p low : Nat) : Nat := ceilDiv (p * low) 1000

/-- The high mark (R13). -/
def highMark (p low high : Nat) : Nat := ceilDiv (p * effectiveHigh low high) 1000

/-- Short: F below the low mark (R14). -/
def isShort (p f low : Nat) : Bool := f < lowMark p low

/-- Flush: F above the high mark (R14). -/
def isFlush (p f low high : Nat) : Bool := highMark p low high < f

/-! ## Choosing grains (R9, R10) -/

/-- The bays in the order a search tries them: from the rotor on, wrapping (R9). -/
def searchOrder (bays rotor : Nat) : List Nat := (List.range bays).map fun i => (rotor + i) % bays

/-- The lowest free grain of a bay, when the bay is PRESENT. -/
def bayOffers (presence : List Bool) (sets : List FreeSet) (bay : Nat) : Option Nat :=
  if presence.getD bay false then (sets[bay]?).bind FreeSet.lowest else none

/-- The first bay of the search with a grain to give, and that grain. -/
def firstOffer (presence : List Bool) (sets : List FreeSet) : List Nat → Option (Nat × Nat)
  | [] => none
  | b :: rest =>
    match bayOffers presence sets b with
    | some g => some (b, g)
    | none => firstOffer presence sets rest

/-- What the pool has handed out and how it stands afterwards. -/
structure Taken where
  grains : List (Nat × Nat)
  sets : List FreeSet
  rotor : Nat
  deriving DecidableEq, Repr

/-- A request for n grains: n searches one after another, each from the rotor as the last choice left it, ending at the first search that
finds none (R9 with n of 1, R10). -/
def takeGrains (presence : List Bool) (n : Nat) (sets : List FreeSet) (rotor : Nat) : Taken :=
  match n with
  | 0 => { grains := [], sets := sets, rotor := rotor }
  | n + 1 =>
    match firstOffer presence sets (searchOrder presence.length rotor) with
    | none => { grains := [], sets := sets, rotor := rotor }
    | some (b, g) =>
      let rest := takeGrains presence n (sets.modify b (·.take g)) ((b + 1) % presence.length)
      { rest with grains := (b, g) :: rest.grains }

end Sys2Proof.Machine
end

