-- ==== Sys2Proof/Machine/Capacity.lean ====
section
/-! DEFINITION. The capacity arithmetic (spec/05), exact as R77 asks. -/

namespace Sys2Proof.Machine

/-- The figures a computation reads (R76). -/
structure Figures where
  p : Nat
  f : Nat
  e : Nat
  freeLoans : Nat
  rp : Nat
  ew : Nat
  maxLoan : Nat
  deriving DecidableEq, Repr

/-- RF, the reserve floor (R78). -/
def reserveFloor (x : Figures) : Nat := ceilDiv (x.p * x.rp) 1000

/-- EH, the exposure hold (R78). -/
def exposureHold (x : Figures) : Nat := ceilDiv (x.e * x.ew) 1000

/-- H, the headroom, signed (R79). -/
def headroom (x : Figures) : Int := (x.f : Int) - reserveFloor x - exposureHold x

/-- The lendable count (R79). -/
def lendable (x : Figures) : Nat := (headroom x).toNat

/-- q, the lendable share in permille (R80). -/
def lendableShare (x : Figures) : Nat := if x.p = 0 then 0 else lendable x * 1000 / x.p

/-- d, the offer delay in slots (R81). -/
def offerDelay (x : Figures) : Nat := (1000 - lendableShare x) * 31 / 1000

/-- w, the wanted field after clamping (R82). -/
def clampWanted (wanted : Nat) : Nat := clampNat 1 8 wanted

/-- n, the offer count (R82): 0 means no offer. -/
def offerCount (x : Figures) (wanted : Nat) : Nat :=
  if x.p = 0 ∨ lendable x = 0 then 0
  else min (min (clampWanted wanted) (lendable x)) (min x.maxLoan x.freeLoans)

/-- g, the grant count (R84). -/
def grantCount (x : Figures) (asked offered : Nat) : Nat :=
  min (min (clampNat 0 8 asked) offered) (min (lendable x) x.freeLoans)

/-- The backoff delay in milliseconds after the given number of consecutive failures (R98). -/
def backoffDelay (base cap failures : Nat) : Nat := min (base * 2 ^ (failures - 1)) (cap * 1000)

/-- The wanted count of the station's own ASK, from MaxLoan, the spare target and the records the spare list holds (R91). -/
def ownWanted (maxLoan target spares : Nat) : Nat :=
  min maxLoan (min (Config.sparePlaces - spares) (max 1 (target - spares)))

end Sys2Proof.Machine
end

