-- ==== Sys2Proof/Machine/MapRules.lean ====
section
/-! DEFINITION. What the rules do to the persistent structures: volumes, entries, places, pending records, ranges, spares, peer
capacity records and loans. Each function is the change one map memory write carries. -/

namespace Sys2Proof.Machine

/-! ## Records by number -/

/-- The volume record of a number (R18). -/
def volumeOf (mm : MapMemory) (v : Nat) : Volume := tableGet Volume.none mm.volumes v

/-- Set a volume record. -/
def setVolume (mm : MapMemory) (v : Nat) (r : Volume) : MapMemory := { mm with volumes := tableSet Volume.none mm.volumes v r }

/-- The key of a chunk in the chunk map: volumes in order, and chunks in order within a volume (R32). Log entry
35. -/
def chunkKey (v c : Nat) : Nat := v * Config.maxVolume + c

/-- The entry of a chunk (R31). -/
def entryOf (mm : MapMemory) (v c : Nat) : Option Entry := tableFind mm.chunks (chunkKey v c)

/-- The peer capacity record of a station (R106). -/
def peerOf (mm : MapMemory) (st : Station) : PeerCapacity := tableGet PeerCapacity.none mm.peers st.toNat

/-- Set a peer capacity record. -/
def setPeer (mm : MapMemory) (st : Station) (r : PeerCapacity) : MapMemory :=
  { mm with peers := tableSet PeerCapacity.none mm.peers st.toNat r }

/-- The roster record of a station (R131). -/
def rosterOf (roster : Table RosterRecord) (st : Station) : RosterRecord := tableGet RosterRecord.none roster st.toNat

/-- Whether a station's record is PRESENT. -/
def isPresent (roster : Table RosterRecord) (st : Station) : Bool := decide ((rosterOf roster st).state = .present)

/-- Whether a station's record is PRESENT with kind shelf (R90, R93, R112). -/
def isPresentShelf (roster : Table RosterRecord) (st : Station) : Bool :=
  isPresent roster st && decide ((rosterOf roster st).kind = some .shelf)

/-- Whether some record is PRESENT with kind shelf (R47, R90). -/
def anyShelfPresent (roster : Table RosterRecord) : Bool :=
  roster.any fun p => decide (p.2.state = .present) && decide (p.2.kind = some .shelf)

/-! ## Exposure (R21) -/

/-- The exposure of one volume. -/
def Volume.exposure (v : Volume) : Nat := if v.state = .active then v.size - v.count else 0

/-- E, the station exposure. -/
def exposure (mm : MapMemory) : Nat := (mm.volumes.map fun p => p.2.exposure).sum

/-! ## Entries and their counts (R20) -/

/-- Add an entry and raise its volume's count. -/
def addEntry (mm : MapMemory) (v c : Nat) (e : Entry) : MapMemory :=
  let r := volumeOf mm v
  setVolume { mm with chunks := tablePut mm.chunks (chunkKey v c) e } v { r with count := r.count + 1 }

/-- Change an entry without adding one. -/
def putEntry (mm : MapMemory) (v c : Nat) (e : Entry) : MapMemory := { mm with chunks := tablePut mm.chunks (chunkKey v c) e }

/-- Remove an entry and lower its volume's count. -/
def removeEntry (mm : MapMemory) (v c : Nat) : MapMemory :=
  let r := volumeOf mm v
  setVolume { mm with chunks := tableErase mm.chunks (chunkKey v c) } v { r with count := r.count - 1 }

/-- Take a chunk's record out of the pending list (R50). -/
def removePending (mm : MapMemory) (v c : Nat) : MapMemory :=
  { mm with pendings := mm.pendings.filter fun r => !(r.volume == v && r.chunk == c) }

/-- Add a record to the pending list: in order of expiry, after those of equal expiry (R50). -/
def insertPending (l : List PendingRecord) (r : PendingRecord) : List PendingRecord :=
  match l with
  | [] => [r]
  | x :: rest => if r.expiry < x.expiry then r :: x :: rest else x :: insertPending rest r

/-! ## Places (R33) -/

/-- What a place is judged to be. -/
inductive Judgement where
  | usable
  | bayOff
  | lost
  | unreachable
  deriving DecidableEq, Repr

/-- A place judged against the pool and the roster as they stand (R33). -/
def judgePlace (roster : Table RosterRecord) (presence : List Bool) : Place → Judgement
  | .here bay _ => if presence.getD bay false then .usable else .bayOff
  | .remote lender _ _ _ epoch =>
    let r := rosterOf roster lender
    if r.state = .present then (if r.epoch = some epoch then .usable else .lost) else .unreachable

/-! ## Coverage (R61) -/

/-- Whether a range covers a chunk. -/
def covers (v c : Nat) (r : TrimRange) : Bool := r.volume == v && r.first ≤ c && c ≤ r.last && r.cursor ≤ c

/-- k, the covering count of a chunk. -/
def coveringCount (mm : MapMemory) (v c : Nat) : Nat := mm.trims.countP (covers v c)

/-- Whether an entry is logically trimmed: its shield count is below k (R38, R62). -/
def isTrimmed (mm : MapMemory) (v c : Nat) (e : Entry) : Bool := e.shield < coveringCount mm v c

/-! ## What a removal does with the grain (R52, R67 to R69) -/

/-- A loan to be given back after the write. -/
structure Handback where
  lender : Station
  loan : Nat
  reason : GivebackReason
  deriving DecidableEq, Repr

/-- Map memory after a removal, and the loan it hands back, if any. -/
structure Removal where
  mm : MapMemory
  handback : Option Handback
  deriving DecidableEq, Repr

/-- One grain fewer in use of a lender. A count of 0, which the manual does not expect here, stays 0: the model's choice (log entry 43). -/
def lowerInUse (mm : MapMemory) (st : Station) : MapMemory :=
  let p := peerOf mm st
  setPeer mm st { p with inUse := p.inUse - 1 }

/-- What becomes of the grain of a rolled-back entry (R52). A REMOTE place that is lost, or whose epoch is not the known epoch of its
lender's record, is dropped. An in-use count of 0 stays 0 (log entry 43). -/
def rollbackGrain (roster : Table RosterRecord) (presence : List Bool) (mm : MapMemory) : Place → Removal
  | .here bay grain => { mm := { mm with freeSets := giveGrain mm.freeSets bay grain }, handback := none }
  | .remote lender loan bay grain epoch =>
    if judgePlace roster presence (.remote lender loan bay grain epoch) = .lost ∨ (peerOf mm lender).known ≠ some epoch then
      { mm := mm, handback := none }
    else if mm.spares.length < Config.sparePlaces then
      let p := peerOf mm lender
      { mm := setPeer { mm with spares := { lender := lender, loan := loan, bay := bay, grain := grain, epoch := epoch } :: mm.spares }
                lender { p with inUse := p.inUse - 1, spare := p.spare + 1 }
        handback := none }
    else { mm := lowerInUse mm lender, handback := some { lender := lender, loan := loan, reason := .rollback } }

/-- Roll back the pending record of a chunk: the record and the entry go, and the grain goes where its place says (R52). -/
def rollbackChunk (roster : Table RosterRecord) (presence : List Bool) (mm : MapMemory) (v c : Nat) : Removal :=
  match entryOf mm v c with
  | none => { mm := removePending mm v c, handback := none }
  | some e => rollbackGrain roster presence (removeEntry (removePending mm v c) v c) e.place

/-- What becomes of the grain of a MAPPED entry the walker removes (R68, R69). -/
def freeGrain (roster : Table RosterRecord) (presence : List Bool) (mm : MapMemory) : Place → Removal
  | .here bay grain => { mm := { mm with freeSets := giveGrain mm.freeSets bay grain }, handback := none }
  | .remote lender loan bay grain epoch =>
    match judgePlace roster presence (.remote lender loan bay grain epoch) with
    | .lost => { mm := mm, handback := none }
    | .unreachable =>
      { mm := if (peerOf mm lender).known = some epoch then lowerInUse mm lender else mm
        handback := some { lender := lender, loan := loan, reason := .trimmed } }
    | _ => { mm := lowerInUse mm lender, handback := some { lender := lender, loan := loan, reason := .trimmed } }

/-- Dispose of an entry as a visit disposes of one it does not shield (R63, R67 to R69). -/
def disposeEntry (roster : Table RosterRecord) (presence : List Bool) (mm : MapMemory) (v c : Nat) (e : Entry) : Removal :=
  match e.state with
  | .pending _ _ _ => rollbackChunk roster presence mm v c
  | .mapped _ _ => freeGrain roster presence (removeEntry mm v c) e.place

/-- Discard a lost entry: no GIVEBACK, no spare, the lender's record as it is (R41). -/
def discardEntry (mm : MapMemory) (v c : Nat) (e : Entry) : MapMemory :=
  match e.state with
  | .pending _ _ _ => removeEntry (removePending mm v c) v c
  | .mapped _ _ => removeEntry mm v c

/-! ## The spare list (R101, R102, R104) -/

/-- Whether a spare's lender is PRESENT with the spare's epoch (R102). -/
def spareUsable (roster : Table RosterRecord) (s : Spare) : Bool :=
  isPresent roster s.lender && decide ((rosterOf roster s.lender).epoch = some s.epoch)

/-- Give the front-most usable spare to a chunk: it leaves the list, and its lender's record moves one from spare to in-use (R46). -/
def takeSpare (roster : Table RosterRecord) (mm : MapMemory) : Option (Spare × MapMemory) :=
  match mm.spares.find? (spareUsable roster) with
  | none => none
  | some s =>
    let p := peerOf mm s.lender
    some (s, setPeer { mm with spares := mm.spares.eraseP (spareUsable roster) } s.lender
      { p with inUse := p.inUse + 1, spare := p.spare - 1 })

/-- The place a spare becomes (R46). -/
def Spare.place (s : Spare) : Place := .remote s.lender s.loan s.bay s.grain s.epoch

/-- The first n members of a list that a test picks, and the rest in order. -/
def pickFirst {α : Type} (test : α → Bool) (n : Nat) : List α → List α × List α
  | [] => ([], [])
  | x :: rest =>
    match n with
    | 0 => ([], x :: rest)
    | k + 1 =>
      if test x then let (a, b) := pickFirst test k rest; (x :: a, b)
      else let (a, b) := pickFirst test (k + 1) rest; (a, x :: b)

/-- One return step: the back-most usable record and further usable ones of its lender, from the back, up to 8 (R104). -/
structure ReturnStep where
  lender : Station
  loans : List Nat
  mm : MapMemory
  deriving DecidableEq, Repr

/-- The return step the spare list gives, if it holds a usable record (R104). -/
def returnStepOf (roster : Table RosterRecord) (mm : MapMemory) : Option ReturnStep :=
  match mm.spares.reverse.find? (spareUsable roster) with
  | none => none
  | some s =>
    let (out, kept) := pickFirst (fun x => spareUsable roster x && x.lender == s.lender) Config.frameLoans mm.spares.reverse
    let p := peerOf mm s.lender
    some { lender := s.lender, loans := out.map (·.loan)
           mm := setPeer { mm with spares := kept.reverse } s.lender { p with spare := p.spare - out.length } }

/-- Whether a (lender, loan number) pair stands in the spare list or in a REMOTE entry (R96, R101). -/
def pairStands (mm : MapMemory) (lender : Station) (loan : Nat) : Bool :=
  mm.spares.any (fun s => s.lender == lender && s.loan == loan)
    || mm.chunks.any fun p =>
      match p.2.place with
      | .remote l n _ _ _ => l == lender && n == loan
      | .here _ _ => false

/-- The effect of a lender's other epoch on the borrowing records (R108 steps 2 and 3): spares of another epoch go, the counts are 0, the
known epoch is the new one. -/
def dropOldSpares (mm : MapMemory) (st : Station) (epoch : Epoch) : MapMemory :=
  setPeer { mm with spares := mm.spares.filter fun s => !(s.lender == st && s.epoch != epoch) } st
    { known := some epoch, inUse := 0, spare := 0 }

/-- The records of a GRANT judged in list order: those that join the spare list and those that find it full (R96). -/
structure GrantJudged where
  spares : List Spare
  joined : Nat
  full : List Nat
  deriving DecidableEq, Repr

/-- Judge the records of an accepted GRANT (R96). Log entry 21. -/
def judgeGrant (mm : MapMemory) (lender : Station) (epoch : Epoch) (spares : List Spare) : List GrantRecord → GrantJudged
  | [] => { spares := spares, joined := 0, full := [] }
  | r :: rest =>
    if pairStands { mm with spares := spares } lender r.loan then judgeGrant mm lender epoch spares rest
    else if spares.length < Config.sparePlaces then
      let j := judgeGrant mm lender epoch
        (spares ++ [{ lender := lender, loan := r.loan, bay := r.bay, grain := r.grain, epoch := epoch }]) rest
      { j with joined := j.joined + 1 }
    else
      let j := judgeGrant mm lender epoch spares rest
      { j with full := r.loan :: j.full }

/-- The loan numbers of a GRANT that do not stand yet (R99). -/
def newLoans (mm : MapMemory) (lender : Station) (rs : List GrantRecord) : List Nat :=
  (rs.filter fun r => !pairStands mm lender r.loan).map (·.loan)

/-- Map memory after an accepted GRANT that added spares: R108 steps 2 and 3 first where the known epoch differs, then the known epoch
and the spare count (R96). -/
def acceptGrant (mm : MapMemory) (lender : Station) (epoch : Epoch) (j : GrantJudged) : MapMemory :=
  let joined := { mm with spares := j.spares }
  let cleared :=
    if (peerOf mm lender).known ≠ none ∧ (peerOf mm lender).known ≠ some epoch then dropOldSpares joined lender epoch else joined
  let p := peerOf cleared lender
  setPeer cleared lender { p with known := some epoch, spare := p.spare + j.joined }

/-! ## The loan table (R119, R120, R123 to R125) -/

/-- The lowest free loan number (R119). -/
def lowestLoan (t : Table Loan) : Nat := lowestMissing 0 (tableKeys t)

/-- Pair grains, in order, with the lowest free loan numbers (R119). -/
def makeLoans (borrower : Station) (epoch : Epoch) (t : Table Loan) : List (Nat × Nat) → Table Loan × List GrantRecord
  | [] => (t, [])
  | (bay, grain) :: rest =>
    let n := lowestLoan t
    let (t', rs) := makeLoans borrower epoch
      (tablePut t n { borrower := borrower, epoch := epoch, bay := bay, grain := grain }) rest
    (t', { loan := n, bay := bay, grain := grain } :: rs)

/-- The loan numbers of a GIVEBACK judged in order (R123, R124). -/
structure GivebackJudged where
  mm : MapMemory
  removed : List Nat
  stale : Nat
  deriving DecidableEq, Repr

/-- Judge the loan numbers of a GIVEBACK: a number with a record of the sender is valid, any other is stale (R123, R124). -/
def judgeGiveback (sender : Station) (mm : MapMemory) : List Nat → GivebackJudged
  | [] => { mm := mm, removed := [], stale := 0 }
  | n :: rest =>
    match tableFind mm.loans n with
    | some l =>
      if l.borrower = sender then
        let j := judgeGiveback sender
          { mm with loans := tableErase mm.loans n, freeSets := giveGrain mm.freeSets l.bay l.grain } rest
        { j with removed := n :: j.removed }
      else
        let j := judgeGiveback sender mm rest
        { j with stale := j.stale + 1 }
    | none =>
      let j := judgeGiveback sender mm rest
      { j with stale := j.stale + 1 }

/-- Whether a loan record is of a borrower under another epoch (R125). -/
def isOldLoan (st : Station) (epoch : Epoch) (l : Loan) : Bool := l.borrower == st && l.epoch != epoch

/-- Reclaim a borrower's loans of another epoch (R125). -/
def reclaimLoans (mm : MapMemory) (st : Station) (epoch : Epoch) : MapMemory :=
  { mm with
    loans := mm.loans.filter fun p => !isOldLoan st epoch p.2
    freeSets := (mm.loans.filter fun p => isOldLoan st epoch p.2).foldl (fun fs p => giveGrain fs p.2.bay p.2.grain) mm.freeSets }

/-! ## Ranges (R65) -/

/-- The entry a visit finds: the lowest chunk of the range's volume not below the cursor and not above the last chunk (R65). -/
def nextEntry (mm : MapMemory) (r : TrimRange) : Option (Nat × Entry) :=
  (mm.chunks.find? fun p => chunkKey r.volume r.cursor ≤ p.1 && p.1 ≤ chunkKey r.volume r.last).map
    fun p => (p.1 - chunkKey r.volume 0, p.2)

/-- The head range's cursor moved past a chunk (R65). -/
def moveCursor (mm : MapMemory) (chunk : Nat) : MapMemory :=
  match mm.trims with
  | [] => mm
  | r :: rest => { mm with trims := { r with cursor := chunk + 1 } :: rest }

/-! ## Starts (R16, R29, R159) -/

/-- RETIRING volumes left without a DELETE range become FREE (R29). -/
def sweepVolumes (mm : MapMemory) : MapMemory :=
  { mm with
    volumes := mm.volumes.filter fun p =>
      !(decide (p.2.state = .retiring) && !mm.trims.any fun r => r.volume == p.1 && decide (r.origin = .delete)) }

/-- The geometry record and the structures as a format leaves them (R2, R16, R30, R57, R74, R110, R129). -/
def formatContents (mm : MapMemory) (p : Profile) : MapMemory :=
  { mm with
    geometry := some (geometryOf p), freeSets := p.grainCounts.map FreeSet.full, volumes := [], chunks := [], pendings := [],
    trims := [], loans := [], spares := [], peers := [] }

end Sys2Proof.Machine
end

