-- ==== Sys2Proof/Machine/Flags.lean ====
section
/-! DEFINITION. The flags and counters of the fault record and the ATTENTION judgement (R169, R170, R172). -/

namespace Sys2Proof.Machine

/-- The number of a flag (R155, R169). -/
def Flag.number : Flag → Nat
  | .profileAbsent => 0
  | .profileClamped => 1
  | .mapMem => 2
  | .duplicate => 3
  | .frameDropped => 4
  | .grantUndelivered => 5
  | .givebackUndelivered => 6
  | .staleGiveback => 7
  | .dataLost => 8
  | .noSpace => 9
  | .mapFull => 10
  | .drainForced => 11
  | .bayChange => 12

/-- The bit of a flag in the flag fields (R155). -/
def Flag.bit (f : Flag) : BitVec 13 := BitVec.twoPow 13 f.number

/-- Whether a flag is set. -/
def FaultRecord.has (r : FaultRecord) (f : Flag) : Bool := r.flags.getLsbD f.number

/-- Whether a flag's alert enable is on. -/
def FaultRecord.enabled (r : FaultRecord) (f : Flag) : Bool := r.enables.getLsbD f.number

/-- Set a flag (R169). -/
def FaultRecord.set (r : FaultRecord) (f : Flag) : FaultRecord := { r with flags := r.flags ||| f.bit }

/-- A 16-bit counter raised by one, holding at its top (R169). -/
def saturate (n : Nat) : Nat := if n < Config.counterTop then n + 1 else n

/-- Raise one counter (R169). -/
def Counts.raise (c : Counts) : Counter → Counts
  | .framesDropped => { c with framesDropped := saturate c.framesDropped }
  | .staleGivebacks => { c with staleGivebacks := saturate c.staleGivebacks }
  | .askFailures => { c with askFailures := saturate c.askFailures }
  | .noSpaceAnswers => { c with noSpaceAnswers := saturate c.noSpaceAnswers }

/-- All four counters at 0. -/
def Counts.zero : Counts := { framesDropped := 0, staleGivebacks := 0, askFailures := 0, noSpaceAnswers := 0 }

/-- Clear the named flags and, if asked, the counters (R172). -/
def FaultRecord.clear (r : FaultRecord) (named : BitVec 13) (zero : Bool) : FaultRecord :=
  { r with flags := r.flags &&& ~~~named, counts := if zero then Counts.zero else r.counts }

/-- ATTENTION holds while a set flag is enabled, and is released throughout START (R170). -/
def attentionOf (cond : Condition) (r : FaultRecord) : Bool :=
  decide (cond ≠ .start) && decide (r.flags &&& r.enables ≠ 0)

/-- The condition as STATUS page 0 and ALERT code it (R155). QUIET and MUTE are in no frame: R155 does not use 3 and 6. -/
def Condition.code : Condition → Nat
  | .ready => 0
  | .drain => 1
  | .halted => 2
  | .quiet => 3
  | .join => 4
  | .start => 5
  | .mute => 6

/-- The restart cause as HAIL and STATUS page 0 code it (R155). -/
def RestartCause.code : RestartCause → Nat
  | .power => 0
  | .pin => 1
  | .resume => 2
  | .format => 3

end Sys2Proof.Machine
end

