-- ==== Sys2Proof/Machine/Operands.lean ====
section
/-! DEFINITION. Frames as bits: layouts, CRC, what the station sends and how it reads what it hears (R144, R147, R155). -/

namespace Sys2Proof.Machine

/-! ## Fields, most significant bit first (R144, R155) -/

/-- The low w bits of a number, most significant first. -/
def bitsOf (w n : Nat) : List Bool :=
  match w with
  | 0 => []
  | w + 1 => n.testBit w :: bitsOf w n

/-- The number spelt by bits, most significant first. -/
def numberOf (bits : List Bool) : Nat := bits.foldl (fun n b => 2 * n + b.toNat) 0

/-- The bits of the fields, given as (width, value), one after another without padding (R155). -/
def fieldBits (fs : List (Nat × Nat)) : List Bool := fs.flatMap fun f => bitsOf f.1 f.2

/-- n bytes from bits, the last filled with zero bits (R155). -/
def packBytes (n : Nat) (bits : List Bool) : List Byte :=
  match n with
  | 0 => []
  | n + 1 => BitVec.ofNat 8 (numberOf ((bits.take 8 ++ List.replicate 8 false).take 8)) :: packBytes n (bits.drop 8)

/-- The payload of the fields: their bits, then zero bits up to a whole byte (R155). -/
def encodeFields (fs : List (Nat × Nat)) : List Byte :=
  let bits := fieldBits fs
  packBytes ((bits.length + 7) / 8) bits

/-- The bits of bytes. -/
def bytesBits (p : List Byte) : List Bool := p.flatMap fun b => bitsOf 8 b.toNat

/-- The values of fields of the given widths, when zero bits alone follow the last. -/
def readFields (ws : List Nat) (bits : List Bool) : Option (List Nat) :=
  match ws with
  | [] => if bits.all (!·) then some [] else none
  | w :: rest => (readFields rest (bits.drop w)).map (numberOf (bits.take w) :: ·)

/-- The values of the fields of a layout, given by its widths: the payload has as many bytes as the fields take, and the bits after the
last field are zero (R155). -/
def parseFields (ws : List Nat) (p : List Byte) : Option (List Nat) :=
  if p.length = (ws.sum + 7) / 8 then readFields ws (bytesBits p) else none

/-! ## The CRC (R144) -/

/-- One bit through the division by x^16 + x^12 + x^5 + 1. -/
def crcStep (r : BitVec 16) (b : Bool) : BitVec 16 :=
  if r.msb != b then (r <<< 1) ^^^ 0x1021 else r <<< 1

/-- The remainder of the bits, the register starting at all ones (R144). -/
def crc16 (bits : List Bool) : BitVec 16 := bits.foldl crcStep 0xFFFF

/-- The bits the CRC covers: arbitration field, destination, kind, length, payload (R144). -/
def coveredBits (f : RawFrame) : List Bool :=
  fieldBits [(3, f.cls.toNat), (5, f.sub.toNat), (4, f.source.toNat), (4, f.dest.toNat), (5, f.kind.toNat), (6, f.payload.length)]
    ++ bytesBits f.payload

/-- Whether the CRC of a frame checks (R146). -/
def crcGood (f : RawFrame) : Bool := f.crc == crc16 (coveredBits f)

/-- A frame with its CRC. -/
def sealFrame (f : RawFrame) : RawFrame := { f with crc := crc16 (coveredBits f) }

/-! ## Codes (R155) -/

/-- Code of a REPLY status. -/
def Status.code : Status → Nat
  | .ok => 0
  | .zero => 1
  | .fresh => 2
  | .held => 3
  | .noSpace => 4
  | .noVol => 5
  | .range => 6
  | .bayOff => 7
  | .unreachable => 8
  | .lost => 9
  | .done => 10
  | .late => 11
  | .queued => 12
  | .trimmed => 13
  | .busy => 14
  | .exists => 15
  | .notReady => 16
  | .quiesced => 17
  | .mapFull => 18
  | .badReq => 19

/-- Code of a GIVEBACK reason. -/
def reasonCode : GivebackReason → Nat
  | .trimmed => 0
  | .unused => 1
  | .rollback => 2

/-- Code of a HAIL kind. -/
def hailKindCode : HailKind → Nat
  | .shelf => 0
  | .requester => 1

/-- Code of a HAIL condition. -/
def hailConditionCode : HailCondition → Nat
  | .ready => 0
  | .notReady => 1
  | .drain => 2
  | .leaving => 3

/-- The GIVEBACK reason of a code. -/
def reasonOf (n : Nat) : Option GivebackReason :=
  if n = 0 then some .trimmed else if n = 1 then some .unused else if n = 2 then some .rollback else none

/-- The HAIL kind of a code. -/
def hailKindOf (n : Nat) : Option HailKind := if n = 0 then some .shelf else if n = 1 then some .requester else none

/-- The HAIL condition of a code. -/
def hailConditionOf (n : Nat) : Option HailCondition :=
  if n = 0 then some .ready else if n = 1 then some .notReady else if n = 2 then some .drain
  else if n = 3 then some .leaving else none

/-! ## What the station sends (R145, R155) -/

/-- Kind code of a frame of the station's own (R155). -/
def FrameBody.kind : FrameBody → Nat
  | .reply _ => 1
  | .take _ _ => 2
  | .grant _ _ => 3
  | .giveback _ _ => 4
  | .offer _ _ _ _ => 5
  | .ask _ _ => 6
  | .hail _ => 13
  | .alert _ _ => 14

/-- Class of a frame (R145). -/
def FrameBody.cls : FrameBody → Nat
  | .reply _ => 0
  | .take _ _ => 1
  | .grant _ _ => 1
  | .giveback _ _ => 1
  | .offer _ _ _ _ => 2
  | .ask _ _ => 3
  | .hail _ => 5
  | .alert _ _ => 6

/-- Sub-priority of a frame: the offer delay of an OFFER, else 0 (R145). -/
def FrameBody.sub : FrameBody → Nat
  | .offer _ _ _ d => d
  | _ => 0

/-- The fields of the part of a REPLY (R155). -/
def ReplyPart.fields : ReplyPart → List (Nat × Nat)
  | .none => []
  | .place st bay grain => [(8, st.toNat), (8, bay), (24, grain)]
  | .size n => [(32, n)]
  | .pageZero p =>
    [(8, p.condition), (8, p.cause), (16, p.restartCount), (8, p.identity), (32, p.serial.toNat), (32, p.formatCount.toNat),
      (32, p.p), (32, p.f), (8, p.spares), (24, p.loans), (8, p.pendings), (8, p.trims), (16, p.q)]
  | .pageOne flags c =>
    [(16, flags.toNat), (16, c.framesDropped), (16, c.staleGivebacks), (16, c.askFailures), (16, c.noSpaceAnswers)]

/-- The parts code of a REPLY (R155). -/
def ReplyPart.code : ReplyPart → Nat
  | .none => 0
  | .place _ _ _ => 1
  | .size _ => 2
  | .pageZero _ => 3
  | .pageOne _ _ => 4

/-- The fields of a REPLY (R155). -/
def Reply.fields (r : Reply) : List (Nat × Nat) :=
  [(16, r.tag), (8, r.status.code), (8, r.volume), (24, r.chunk), (8, r.part.code)] ++ r.part.fields

/-- The fields of a HAIL (R155). -/
def hailFields (h : HailBody) : List (Nat × Nat) :=
  [(8, hailKindCode h.kind), (8, h.identity.toNat), (32, h.serial.toNat), (32, h.formatCount.toNat), (16, h.restartCount.toNat),
    (8, h.cause.toNat), (8, hailConditionCode h.cond), (16, h.q)]

/-- The fields of GRANT records (R155). -/
def grantFields (rs : List GrantRecord) : List (Nat × Nat) := rs.flatMap fun r => [(16, r.loan), (5, r.bay), (20, r.grain)]

/-- The fields of a frame's payload (R155). -/
def FrameBody.fields : FrameBody → List (Nat × Nat)
  | .reply r => r.fields
  | .take askId count => [(8, askId.toNat), (8, count)]
  | .grant askId rs => [(8, askId.toNat), (8, rs.length)] ++ grantFields rs
  | .giveback reason loans => [(8, reasonCode reason), (8, loans.length)] ++ loans.map fun l => (16, l)
  | .offer askId asker n d => [(8, askId.toNat), (8, asker.toNat), (8, n), (8, d)]
  | .ask askId wanted => [(8, askId.toNat), (8, wanted)]
  | .hail h => hailFields h
  | .alert flag condition => [(8, flag.number), (8, condition)]

/-- The frame as the station drives it, with its own number as source (R144, R145). -/
def OutFrame.raw (own : Station) (f : OutFrame) : RawFrame :=
  sealFrame
    { cls := BitVec.ofNat 3 f.body.cls, sub := BitVec.ofNat 5 f.body.sub, source := own, dest := f.dest,
      kind := BitVec.ofNat 5 f.body.kind, payload := encodeFields f.body.fields, crc := 0 }

/-- The arbitration field read as a number, without the source, which is the same for all of the station's frames (R145, R149). -/
def OutFrame.rank (f : OutFrame) : Nat := f.body.cls * 512 + f.body.sub * 16

/-- Whether a frame is a REPLY or an ALERT (R149). -/
def OutFrame.isReplyOrAlert (f : OutFrame) : Bool :=
  match f.body with
  | .reply _ => true
  | .alert _ _ => true
  | _ => false

/-- Whether HALTED transmits the frame: a HAIL, or a REPLY with status NOTREADY (R153). -/
def OutFrame.sentInHalted (f : OutFrame) : Bool :=
  match f.body with
  | .hail _ => true
  | .reply r => decide (r.status = .notReady)
  | _ => false

/-! ## Requests (R36, R147, R155) -/

/-- Whether a frame is of one of the six requester kinds (R155). -/
def isRequesterFrame (f : RawFrame) : Bool := 7 ≤ f.kind.toNat && f.kind.toNat ≤ 12

/-- A request as the map engine reads it from the buffer. `malformed` carries the volume, chunk and tag that its answer names. -/
inductive Request where
  | lookup (write : Bool) (volume chunk tag : Nat)
  | commit (volume chunk tag : Nat)
  | trim (volume first count tag : Nat)
  | create (volume size tag : Nat)
  | delete (volume tag : Nat)
  | grow (volume size tag : Nat)
  | pageZero (tag : Nat)
  | pageOne (tag : Nat)
  | clear (flags : BitVec 13) (zero : Bool) (tag : Nat)
  /-- A VOLUME request whose action is none of the three; its layout fits (R23). -/
  | unknownAction (volume tag : Nat)
  | malformed (volume chunk tag : Nat)
  deriving DecidableEq, Repr

/-- A whole number of bytes at a position of a payload, 0 when the payload is too short to hold it (R36). -/
def bytesAt (p : List Byte) (pos len : Nat) : Nat :=
  if pos + len ≤ p.length then numberOf (bytesBits ((p.drop pos).take len)) else 0

/-- The volume a LOOKUP, COMMIT or TRIM payload names, a free value when it is too short to hold one (log entry 16). -/
def namedVolume (fresh : Nat) (p : List Byte) : Nat :=
  if 1 ≤ p.length then bytesAt p 0 1 else (Config.unnamedVolume fresh).toNat

/-- The chunk index a LOOKUP, COMMIT or TRIM payload names, a free value when it is too short to hold one (log entry 16). -/
def namedChunk (fresh : Nat) (p : List Byte) : Nat :=
  if 4 ≤ p.length then bytesAt p 1 3 else (Config.unnamedChunk fresh).toNat

/-- The answer names of a malformed request: the tag from its position in the kind's layout, the volume of a VOLUME likewise, the volume
and chunk of a LOOKUP, COMMIT or TRIM as named (R23, R35, R36, R59; log entry 16). -/
def malformedRequest (fresh kind : Nat) (p : List Byte) : Request :=
  if kind = 7 then .malformed (namedVolume fresh p) (namedChunk fresh p) (bytesAt p 5 2)
  else if kind = 8 then .malformed (namedVolume fresh p) (namedChunk fresh p) (bytesAt p 4 2)
  else if kind = 9 then .malformed (namedVolume fresh p) (namedChunk fresh p) (bytesAt p 8 2)
  else if kind = 10 then .malformed (bytesAt p 1 1) 0 (bytesAt p 6 2)
  else if kind = 11 then .malformed 0 0 (bytesAt p 1 2)
  else .malformed 0 0 (bytesAt p 3 2)

/-- The request a payload of a requester kind spells, if it matches the kind's layout (R155). -/
def requestOf (kind : Nat) (p : List Byte) : Option Request :=
  if kind = 7 then
    match parseFields [8, 24, 8, 16] p with
    | some [v, c, a, t] => if a = 0 then some (.lookup false v c t) else if a = 1 then some (.lookup true v c t) else none
    | _ => none
  else if kind = 8 then
    match parseFields [8, 24, 16] p with
    | some [v, c, t] => some (.commit v c t)
    | _ => none
  else if kind = 9 then
    match parseFields [8, 24, 32, 16] p with
    | some [v, c, n, t] => some (.trim v c n t)
    | _ => none
  else if kind = 10 then
    match parseFields [8, 8, 32, 16] p with
    | some [a, v, n, t] =>
      if a = 1 then some (.create v n t) else if a = 2 then some (.delete v t) else if a = 3 then some (.grow v n t)
      else some (.unknownAction v t)
    | _ => none
  else if kind = 11 then
    match parseFields [8, 16] p with
    | some [page, t] => if page = 0 then some (.pageZero t) else if page = 1 then some (.pageOne t) else none
    | _ => none
  else if kind = 12 then
    match parseFields [16, 8, 16] p with
    | some [flags, z, t] =>
      if flags < 8192 ∧ z ≤ 1 then some (.clear (BitVec.ofNat 13 flags) (z = 1) t) else none
    | _ => none
  else none

/-- The request of a buffered frame. A frame whose class does not match its kind, or that is too long, is malformed (R147). That it is then
answered as a payload off its layout is, a VOLUME without a size part, is the model's choice (log entry 46). -/
def parseRequest (fresh : Nat) (f : RawFrame) : Request :=
  if f.cls.toNat = 4 ∧ f.payload.length ≤ Config.maxPayload then
    (requestOf f.kind.toNat f.payload).getD (malformedRequest fresh f.kind.toNat f.payload)
  else malformedRequest fresh f.kind.toNat f.payload

/-! ## Other frames heard (R146, R147, R155) -/

/-- A frame heard that is not of a requester kind, as the blocks receive it. `unowned` is a well-formed REPLY or ALERT. -/
inductive Heard where
  | ask (askId : AskId) (wanted : Nat)
  | offer (askId : AskId) (asker : Station) (count d : Nat)
  | take (askId : AskId) (count : Nat)
  | grant (askId : AskId) (records : List GrantRecord)
  | giveback (reason : GivebackReason) (loans : List Nat)
  | hail (h : HailBody)
  | unowned
  | malformed
  deriving DecidableEq, Repr

/-- The records of GRANT fields read one after another. -/
def grantRecords : List Nat → List GrantRecord
  | l :: b :: g :: rest => { loan := l, bay := b, grain := g } :: grantRecords rest
  | _ => []

/-- Byte lengths a REPLY part takes beside the 8 bytes before it (R155). -/
def partLength (code : Nat) : Option Nat :=
  if code = 0 then some 0 else if code = 1 then some 5 else if code = 2 then some 4
  else if code = 3 then some 29 else if code = 4 then some 10 else none

/-- Whether a REPLY payload matches its layout (R155). -/
def replyFits (p : List Byte) : Bool :=
  bytesAt p 2 1 ≤ 19 && (partLength (bytesAt p 7 1)).any fun n => p.length == 8 + n

/-- The frame a payload of a kind that is not a requester's spells, the layout and the field values checked (R155). The bay of a GRANT record
may be any 5 bits (log entry 40). -/
def heardOf (kind sub : Nat) (p : List Byte) : Heard :=
  if kind = 1 then (if replyFits p then .unowned else .malformed)
  else if kind = 2 then
    match parseFields [8, 8] p with
    | some [i, c] => .take (BitVec.ofNat 8 i) c
    | _ => .malformed
  else if kind = 3 then
    match parseFields ([8, 8] ++ (List.replicate (bytesAt p 1 1) [16, 5, 20]).flatten) p with
    | some (i :: n :: rest) => if n ≤ Config.frameLoans then .grant (BitVec.ofNat 8 i) (grantRecords rest) else .malformed
    | _ => .malformed
  else if kind = 4 then
    match parseFields ([8, 8] ++ List.replicate (bytesAt p 1 1) 16) p with
    | some (r :: n :: loans) =>
      match reasonOf r with
      | some reason => if 1 ≤ n ∧ n ≤ Config.frameLoans then .giveback reason loans else .malformed
      | none => .malformed
    | _ => .malformed
  else if kind = 5 then
    match parseFields [8, 8, 8, 8] p with
    | some [i, a, n, d] => if a ≤ 14 ∧ d = sub then .offer (BitVec.ofNat 8 i) (BitVec.ofNat 4 a) n d else .malformed
    | _ => .malformed
  else if kind = 6 then
    match parseFields [8, 8] p with
    | some [i, w] => .ask (BitVec.ofNat 8 i) w
    | _ => .malformed
  else if kind = 13 then
    match parseFields [8, 8, 32, 32, 16, 8, 8, 16] p with
    | some [k, i, s, f, rc, cs, c, q] =>
      match hailKindOf k, hailConditionOf c with
      | some kind, some cond =>
        if q ≤ 1000 then
          .hail { kind := kind, identity := BitVec.ofNat 8 i, serial := BitVec.ofNat 32 s, formatCount := BitVec.ofNat 32 f,
                  restartCount := BitVec.ofNat 16 rc, cause := BitVec.ofNat 8 cs, cond := cond, q := q }
        else .malformed
      | _, _ => .malformed
    | _ => .malformed
  else if kind = 14 then
    match parseFields [8, 8] p with
    | some [n, _] => if n ≤ 12 then .unowned else .malformed
    | _ => .malformed
  else .malformed

/-- The class a kind that is not a requester's must have (R145, R147). -/
def classOf (kind : Nat) : Nat :=
  if kind = 1 then 0 else if kind ≤ 4 then 1 else if kind = 5 then 2 else if kind = 6 then 3 else if kind = 13 then 5 else 6

/-- Whether the destination keeps the rule of the kind: HAIL, ASK, OFFER and ALERT name 15, the others a station (R147). -/
def destFits (kind : Nat) (dest : Station) : Bool :=
  if kind = 5 ∨ kind = 6 ∨ kind = 13 ∨ kind = 14 then dest == broadcast else dest != broadcast

/-- A frame that is not of a requester kind, as R147 judges it. -/
def hearFrame (f : RawFrame) : Heard :=
  if f.payload.length ≤ Config.maxPayload ∧ f.cls.toNat = classOf f.kind.toNat ∧ destFits f.kind.toNat f.dest = true then
    heardOf f.kind.toNat f.sub.toNat f.payload
  else .malformed

end Sys2Proof.Machine
end

