-- ==== Sys2Proof/Machine/Ops.lean ====
section
/-! DEFINITION. The operations the blocks share: time, the outbound queue, reports, the ask and offer machines, the station's condition
and the starts. -/

namespace Sys2Proof.Machine

/-! ## Time -/

/-- The station's time brought to an event's (log entry 4). -/
def advance (t : Time) (s : State) : State := { s with now := max s.now t }

/-- A time some milliseconds from now. -/
def msFromNow (s : State) (n : Nat) : Time := s.now + n * Config.millisecond

/-- Whether a timer runs and has reached its time. -/
def isDue (timer : Option Time) (now : Time) : Bool := timer.any (· ≤ now)

/-- Whether a map memory write is in progress or events wait for one (log entry 7). -/
def isBusy (s : State) : Bool := s.inflight.isSome || !s.tasks.isEmpty

/-- The events still to be taken replaced (log entry 6). -/
def withTasks (ts : List Task) (s : State) : State := { s with tasks := ts }

/-! ## Figures -/

/-- P (R8): 0 while the pool is empty (R17). -/
def State.p (s : State) : Nat := if s.poolUp then poolSize s.presence s.mm.freeSets else 0

/-- F (R8): 0 while the pool is empty (R17). -/
def State.f (s : State) : Nat := if s.poolUp then poolFree s.presence s.mm.freeSets else 0

/-- E (R21): 0 while the volume table has not been read (R30). -/
def State.e (s : State) : Nat := if s.poolUp then exposure s.mm else 0

/-- Short (R14). -/
def State.short (s : State) : Bool := isShort s.p s.f s.profile.lowPermille

/-- Flush (R14). -/
def State.flush (s : State) : Bool := isFlush s.p s.f s.profile.lowPermille s.profile.highPermille

/-- The figures of the capacity arithmetic as they stand (R76). -/
def State.figures (s : State) : Figures :=
  { p := s.p, f := s.f, e := s.e, freeLoans := Config.loanNumbers - s.mm.loans.length, rp := s.profile.reservePermille,
    ew := s.profile.exposureWeight, maxLoan := s.profile.maxLoan }

/-- A place judged now (R33). -/
def State.judge (s : State) (pl : Place) : Judgement := judgePlace s.roster s.presence pl

/-! ## The outbound queue (R149 to R153) -/

/-- Places taken: queued, in hand, reserved (R149). -/
def Link.occupied (l : Link) : Nat := l.queue.length + (if l.hand.isSome then 1 else 0) + l.reservedReplies + l.reservedOthers

/-- Places REPLY and ALERT frames take, reserved ones with them (R149). -/
def Link.replies (l : Link) : Nat :=
  l.queue.countP OutFrame.isReplyOrAlert + (if l.hand.any fun h => h.frame.isReplyOrAlert then 1 else 0) + l.reservedReplies

/-- Whether a place is free (R149). -/
def hasPlace (s : State) : Bool := s.link.occupied < Config.outboundPlaces

/-- Whether a REPLY or ALERT finds room (R149). -/
def hasReplyPlace (s : State) : Bool := hasPlace s && s.link.replies < Config.replyPlaces

/-- A frame put in its place in the queue: by arbitration field, then by age (R149). -/
def insertFrame (q : List OutFrame) (f : OutFrame) : List OutFrame :=
  match q with
  | [] => [f]
  | x :: rest => if f.rank < x.rank then f :: x :: rest else x :: insertFrame rest f

/-- Put a frame into the queue. -/
def pushFrame (f : OutFrame) (s : State) : State := { s with link := { s.link with queue := insertFrame s.link.queue f } }

/-- Whether the condition refuses a frame: QUIET and MUTE any, HALTED all but HAIL and REPLY(NOTREADY) (R153; log entry 26). -/
def refuses (cond : Condition) (f : OutFrame) : Bool :=
  match cond with
  | .quiet => true
  | .mute => true
  | .halted => !f.sentInHalted
  | _ => false

/-- Offer a frame to the queue: none when it is refused or finds no room (R149, R151). -/
def offerFrame (f : OutFrame) (s : State) : Option State :=
  if refuses s.cond f then none
  else if f.isReplyOrAlert then (if hasReplyPlace s then some (pushFrame f s) else none)
  else if hasPlace s then some (pushFrame f s) else none

/-- Reserve a place for a REPLY (R149). -/
def reserveReply (s : State) : State := { s with link := { s.link with reservedReplies := s.link.reservedReplies + 1 } }

/-- Release a REPLY's reserved place (R149). -/
def releaseReply (s : State) : State := { s with link := { s.link with reservedReplies := s.link.reservedReplies - 1 } }

/-- Reserve a place for a frame of another kind (R149). -/
def reserveOther (s : State) : State := { s with link := { s.link with reservedOthers := s.link.reservedOthers + 1 } }

/-- Release another kind's reserved place (R149). -/
def releaseOther (s : State) : State := { s with link := { s.link with reservedOthers := s.link.reservedOthers - 1 } }

/-- Queue the REPLY of a request that needed no write (R35): its room was found when the request was taken (R34). Any
source is answered alike. Log entry 30. -/
def answer (dest : Station) (r : Reply) (s : State) : State := (offerFrame { dest := dest, body := .reply r } s).getD s

/-- Queue a REPLY into its reserved place: the place is released and the frame takes it (R35, R149). -/
def fillReply (dest : Station) (r : Reply) (s : State) : State := answer dest r (releaseReply s)

/-- Take the frames a test picks out of the queue, and out of hand between attempts (R152). -/
def withdraw (test : FrameBody → Bool) (s : State) : State :=
  { s with
    link := { s.link with
      queue := s.link.queue.filter fun f => !test f.body
      hand := s.link.hand.filter fun h => h.driving.isSome || !test h.frame.body } }

/-- Whether a frame a test picks has an attempt on the link, so that a withdrawal is refused (R152). -/
def isDriving (test : FrameBody → Bool) (s : State) : Bool := s.link.hand.any fun h => h.driving.isSome && test h.frame.body

/-! ## Reports (R169, R170) -/

/-- ATTENTION judged again (R170). -/
def judgeAttention (s : State) : State := { s with attention := attentionOf s.cond s.faults }

/-- Report a flag: it is set; if it was clear and is enabled, one ALERT is offered and skipped if refused; ATTENTION is judged (R169,
R170). -/
def report (f : Flag) (s : State) : State :=
  let marked := { s with faults := s.faults.set f }
  judgeAttention <|
    if !s.faults.has f && s.faults.enabled f then
      (offerFrame { dest := broadcast, body := .alert f s.cond.code } marked).getD marked
    else marked

/-- Raise a counter of the fault record (R169). -/
def countUp (c : Counter) (s : State) : State := { s with faults := { s.faults with counts := s.faults.counts.raise c } }

/-- Offer a GIVEBACK; one that finds no room is undelivered (R99, R151). -/
def sendGiveback (lender : Station) (reason : GivebackReason) (loans : List Nat) (s : State) : State :=
  (offerFrame { dest := lender, body := .giveback reason loans } s).getD (report .givebackUndelivered s)

/-! ## The offer machine's ends (R112 to R117) -/

/-- End the open offer (R111). -/
def endOffer (s : State) : State := { s with offer := OfferMachine.reset }

/-- The OFFER frame of an open offer. -/
def isOfferOf (o : OpenOffer) (b : FrameBody) : Bool :=
  match b with
  | .offer askId asker _ _ => askId == o.askId && asker == o.asker
  | _ => false

/-- Whether the machine's own OFFER has an attempt on the link. -/
def offerDriving (s : State) : Bool := s.offer.current.any fun o => isDriving (isOfferOf o) s

/-- Withdraw a QUEUED offer. If the OFFER is on the link it cannot be withdrawn: the offer stays, and `endsLater` says whether it then ends
at the link's report (R112, R114, R117). -/
def withdrawOffer (endsLater : Bool) (s : State) : State :=
  if offerDriving s then { s with offer := { s.offer with endsAtReport := s.offer.endsAtReport || endsLater } }
  else
    match s.offer.current with
    | some o => endOffer (withdraw (isOfferOf o) s)
    | none => endOffer s

/-- The rows of R117 that leave a WAITING offer open: an own ask starts, DRAIN is entered. -/
def yieldOffer (s : State) : State :=
  match s.offer.state with
  | .armed => endOffer s
  | .queued => withdrawOffer false s
  | _ => s

/-- The rows of R117 that end an offer in every state: HALTED, QUIET or MUTE entered, the asking station lost or changed. -/
def stopOffer (s : State) : State :=
  match s.offer.state with
  | .idle => s
  | .queued => withdrawOffer true s
  | _ => endOffer s

/-! ## The ask machine (R89 to R100) -/

/-- An ask fails (R98). -/
def failAsk (s : State) : State :=
  let n := if s.ask.failures < Config.failureTop then s.ask.failures + 1 else s.ask.failures
  countUp .askFailures
    { s with
      ask := { s.ask with
        state := .backoff, failures := n, lender := none, offerCount := 0, wanted := 0,
        timer := some (msFromNow s (backoffDelay s.profile.backoffBase s.profile.backoffCap n)) } }

/-- Whether an ask is in flight (R89). -/
def askInFlight (s : State) : Bool := decide (s.ask.state = .calling) || decide (s.ask.state = .taking)

/-- Start an ask from IDLE, in READY alone (R90, R91, R163): the ask id is raised, the ASK queued, CALLING entered; without room in the spare
list or the queue the attempt fails at once. The open offer yields (R117). Log entry 22. -/
def startAsk (s : State) : State :=
  if s.cond ≠ .ready ∨ s.ask.state ≠ .idle then s
  else
    let askId := s.ask.askId + 1
    let wanted := ownWanted s.profile.maxLoan s.profile.spareTarget s.mm.spares.length
    let calling := { s with
      ask := { s.ask with state := .calling, askId := askId, wanted := wanted, timer := none, lender := none, offerCount := 0 } }
    yieldOffer <|
      if Config.sparePlaces ≤ s.mm.spares.length then failAsk calling
      else (offerFrame { dest := broadcast, body := .ask askId wanted } calling).getD (failAsk calling)

/-- Judge whether an ask should start (R90). -/
def judgeAsk (s : State) : State :=
  if s.cond = .ready ∧ s.short = true ∧ s.mm.spares.length < s.profile.spareTarget ∧ s.ask.state = .idle
      ∧ anyShelfPresent s.roster = true then startAsk s
  else s

/-- The ask machine as HALTED, QUIET and MUTE leave it: IDLE, its timer cancelled, the failure count kept (R100). -/
def AskMachine.stopped (a : AskMachine) : AskMachine := 
  { a with state := .idle, timer := none, lender := none, offerCount := 0, wanted := 0 }

/-! ## Owners of frames (R151) -/

/-- Whether an accepted GRANT is being written. The GRANT was taken first, so the ask waits for nothing but the write: what becomes of
its TAKE on the link changes nothing any more (R95, R96). Log entry 38. -/
def grantAccepted (s : State) : Bool :=
  s.inflight.any fun w => w.onDone.any fun t =>
    match t with
    | .askSucceeded _ _ => true
    | _ => false

/-- What the owner of a frame does when the frame is dropped or removed, the HAIL(LEAVING) apart (R92, R95, R115, R127, R151). -/
def toldDropped (b : FrameBody) (s : State) : State :=
  match b with
  | .ask askId _ => if s.ask.state = .calling ∧ s.ask.askId = askId then failAsk s else s
  | .take askId _ => if s.ask.state = .taking ∧ s.ask.askId = askId ∧ grantAccepted s = false then failAsk s else s
  | .offer _ _ _ _ => if s.offer.state = .queued ∧ s.offer.current.any (isOfferOf · b) = true then endOffer s else s
  | .grant _ _ => report .grantUndelivered s
  | .giveback _ _ => report .givebackUndelivered s
  | .reply _ => s
  | .hail _ => s
  | .alert _ _ => s

/-- Tell the owners of frames removed together (R153). -/
def toldRemoved (fs : List OutFrame) (s : State) : State := fs.foldl (fun s f => toldDropped f.body s) s

/-! ## Conditions (R153, R156, R163, R164, R167, R168) -/

/-- Identity field of the station's HAIL and page 0: the parts of an epoch it can name (R140, R155). -/
def State.identity (s : State) : Nat := if !s.profileRead then 0 else if s.headerRead && s.mm.header.isSome then 2 else 1

/-- The unit serial the station names, zeros when it names none (R140, R155). -/
def State.serial (s : State) : Word32 := if s.profileRead then s.profile.serial else 0

/-- The format count the station names, zeros when it names none (R140, R155). -/
def State.formatCount (s : State) : Word32 :=
  if s.identity = 2 then (s.mm.header.map (·.formatCount)).getD 0 else 0

/-- The restart count, 0 when the header was not read (R140, R171). -/
def State.restartCount (s : State) : Nat := if s.headerRead then (s.mm.header.map (·.restartCount)).getD 0 else 0

/-- The station's own HAIL, built now (R86, R140). -/
def buildHail (cond : HailCondition) (s : State) : OutFrame :=
  { dest := broadcast
    body := .hail
      { kind := .shelf, identity := BitVec.ofNat 8 s.identity, serial := s.serial, formatCount := s.formatCount,
        restartCount := BitVec.ofNat 16 s.restartCount, cause := BitVec.ofNat 8 s.cause.code, cond := cond,
        q := lendableShare s.figures } }

/-- The condition field of a HAIL built in a condition (R140). -/
def hailConditionIn : Condition → HailCondition
  | .drain => .drain
  | .halted => .notReady
  | _ => .ready

/-- Build and queue the station's HAIL; without room it is skipped (R141). -/
def queueHail (s : State) : State := (offerFrame (buildHail (hailConditionIn s.cond) s) s).getD s

/-- A time one presence interval from now (R133, R141, R161). -/
def presenceDeadline (s : State) : Time := msFromNow s s.profile.presenceInterval

/-- The frames in hand and queued. -/
def Link.frames (l : Link) : List OutFrame := (l.hand.map (·.frame)).toList ++ l.queue

/-- Silence: the attempt on the link is cut off, every frame is removed and told to its owner, the request buffer is emptied, both machines
are IDLE and the HAIL, walker, join and drain timers are off. QUIET and MUTE are entered through it (R100, R117, R153, R164, R168). -/
def enterSilence (cond : Condition) (s : State) : State :=
  toldRemoved s.link.frames
    { s with
      cond := cond, joinTimer := none, drainTimer := none, drainEnded := false, hailTimer := none, walkerTimer := none, buffer := [],
      ask := s.ask.stopped, offer := OfferMachine.reset, link := { s.link with queue := [], hand := none } }

/-- Whether the filtered level of the service input counts as asserted (R162). -/
def serviceAsserted (s : State) : Bool := s.servicePin == s.profile.serviceActiveHigh

/-- Enter QUIET. A LEVEL input that is already released resumes the station at once, that is when this event and a map memory write in
progress are over (R162, R164, R166). Log entry 7. -/
def enterQuiet (s : State) : State :=
  let resumes := !s.profile.serviceEdge && !serviceAsserted s
  let s := enterSilence .quiet s
  { s with tasks := s.tasks ++ (if resumes then [.resume] else []) }

/-- A duplicate station number: DUPLICATE is reported and MUTE entered (R143, R168). -/
def duplicateHeard (s : State) : State :=
  let s := report .duplicate s
  if s.cond = .mute then s else enterSilence .mute s

/-- Enter HALTED: both machines stop, every frame HALTED does not send is removed but for an attempt on the link, and the owners are told
(R100, R117, R127, R153). -/
def enterHalted (s : State) : State :=
  let stopped := stopOffer { s with cond := .halted, drainTimer := none, drainEnded := false, walkerTimer := none, ask := s.ask.stopped }
  let stays (h : Hand) : Bool := h.driving.isSome || h.frame.sentInHalted
  toldRemoved (((stopped.link.hand.filter fun h => !stays h).map (·.frame)).toList
      ++ stopped.link.queue.filter fun f => !f.sentInHalted)
    { stopped with
      link := { stopped.link with
        queue := stopped.link.queue.filter OutFrame.sentInHalted
        hand := stopped.link.hand.filter stays } }

/-- A map memory write failed (R167). -/
def mapMemError (s : State) : State :=
  let s := report .mapMem s
  match s.cond with
  | .start => { s with outcome := .halted }
  | .join => { s with outcome := .halted }
  | .ready => enterHalted s
  | .drain => enterHalted s
  | .quiet =>
    let s := enterHalted s
    queueHail { s with hailTimer := some (presenceDeadline s) }
  | .halted => s
  | .mute => s

/-- The drain ends: request taking and the walker stop, one HAIL(LEAVING) is queued, or QUIET is entered for want of room (R142, R164). -/
def endDrain (s : State) : State :=
  let s := { s with drainEnded := true, drainTimer := none, walkerTimer := none }
  match offerFrame (buildHail .leaving s) s with
  | some s' => s'
  | none => enterQuiet s

/-- The quiet condition (R163). -/
def quietCondition (s : State) : Bool :=
  s.mm.pendings.isEmpty && s.mm.trims.isEmpty
    && s.roster.all fun p =>
      decide (p.2.state ≠ .present) || decide ((tableGet PeerCapacity.none s.mm.peers p.1).spare = 0)

/-- Judge the quiet condition; a forced drain is past judging, its timer being off (R163, R165). -/
def judgeQuiet (s : State) : State :=
  if s.cond = .drain ∧ s.drainEnded = false ∧ s.drainTimer.isSome = true ∧ quietCondition s = true then endDrain s else s

/-- Enter DRAIN: the drain timer starts, the offer yields, and the quiet condition is judged at once, a map memory write in progress or
not (R117, R163). -/
def enterDrain (s : State) : State :=
  judgeQuiet (yieldOffer
    { s with cond := .drain, drainEnded := false, drainTimer := some (s.now + s.profile.drainLimit * Config.second) })

/-- READY has been entered: a LEVEL input that is already asserted takes the station on to DRAIN (R162). -/
def judgeService (s : State) : State := if !s.profile.serviceEdge && serviceAsserted s then enterDrain s else s

/-! ## Starts (R156 to R161, R166) -/

/-- The presence states the line levels give (R15). -/
def presenceFrom (lines : BitVec 24) (bays : Nat) : List Bool := (List.range bays).map fun b => !lines.getLsbD b

/-- START is over: JOIN is entered with the outcome the start left, the service input's filtered level is its level now, with no edge, and
ATTENTION is judged (R161, R162, R170). -/
def enterJoin (o : StartOutcome) (s : State) : State :=
  judgeAttention
    { s with cond := .join, outcome := o, joinTimer := some (presenceDeadline s), servicePin := s.serviceLine }

/-- Whether the header and the geometry record are valid (R2, R158). -/
def headerValid (p : Profile) (mm : MapMemory) : Bool :=
  mm.header.any (fun h => h.checkGood && h.serial == p.serial) && decide (mm.geometry = some (geometryOf p))

/-- The header check of a start and what follows, in the order of R160: the restart count, the pool set up, the rollback, the sweep (R158,
R160). -/
def checkHeader (s : State) : State :=
  if headerValid s.profile s.mm then
    { s with headerRead := true, tasks := [.raiseRestartCount, .raisePool, .startRollback [], .sweepRetiring, .startDone] }
  else enterJoin .halted (report .mapMem s)

/-- Whether the sum of the ROM's 16-bit words, carries discarded, is 0 (R157). -/
def romSumGood (contents : List (Byte × Byte)) : Bool :=
  contents.foldl (fun (sum : BitVec 16) w => sum + (w.1 ++ w.2 : BitVec 16)) 0 == 0

/-- The state a full start begins from: everything volatile as a start leaves it, map memory kept (R157). -/
def blankStart (cause : RestartCause) (pins : StartPins) (s : State) : State :=
  { State.reset with
    pending := s.pending, now := s.now, mm := s.mm, fresh := s.fresh, cause := cause,
    own := if pins.strap = 15 then 14 else pins.strap, bayLines := pins.bayLines, serviceLine := pins.serviceHigh,
    servicePin := pins.serviceHigh }

/-- Report PROFILE-CLAMPED when the condition holds. -/
def reportClamped (clamped : Bool) (s : State) : State := if clamped then report .profileClamped s else s

/-- A full start, to the first map memory write it makes (R157). Log entry 12. -/
def fullStart (cause : RestartCause) (pins : StartPins) (rom : Option ProfileRom) (s : State) : State :=
  let s := blankStart cause pins s
  let strapClamped := decide (pins.strap = 15)
  match rom.filter fun r => romSumGood r.contents with
  | none => enterJoin .halted (report .profileAbsent (reportClamped strapClamped s))
  | some r =>
    let p := clampProfile r.values
    let s := reportClamped (strapClamped || profileClamped r.values)
      { s with profile := p, profileRead := true, faults := { s.faults with enables := p.alertEnables } }
    if pins.formatHeld then
      { s with cause := .format, tasks := [.formatHeader, .formatContents, .raisePool, .startDone] }
    else checkHeader s

/-- A resume start, to the first map memory write it makes (R166): the profile values, the station number and the fault record stand, the
rest of the volatile state is set up afresh, the bays from the levels of their lines now (R15). -/
def resumeStart (s : State) : State :=
  checkHeader
    { State.reset with
      pending := s.pending, now := s.now, mm := s.mm, fresh := s.fresh, cause := .resume, own := s.own, profile := s.profile,
      profileRead := s.profileRead, faults := s.faults, bayLines := s.bayLines, serviceLine := s.serviceLine,
      servicePin := s.servicePin }

end Sys2Proof.Machine
end

