-- ==== Sys2Proof/Machine/MapEngine.lean ====
section
/-! DEFINITION. The map engine: volumes, lookups, allocation, commit, trims taken and rollbacks (spec/02, spec/03, spec/04). Each function
takes one event up to the map memory write it makes, if it makes one. -/

namespace Sys2Proof.Machine

/-- What taking an event comes to: the state it leaves at once, and the map memory write it makes, if any. -/
abbrev Taking := State × Option MapWrite

/-- An event that makes no write. -/
def noWrite (s : State) : Taking := (s, none)

/-- A write that takes no grain of the pool and no spare, and leaves the rotor as it is. -/
def writing (s : State) (image : MapMemory) (onDone goOn onFail : List Task) : Taking :=
  (s, some { image := image, rotor := s.rotor, takes := false, onDone := onDone, goOn := goOn, onFail := onFail })

/-! ## Answers (R35, R36) -/

/-- A REPLY without a part. -/
def plainReply (tag : Nat) (status : Status) (volume chunk : Nat) : Reply :=
  { tag := tag, status := status, volume := volume, chunk := chunk, part := .none }

/-- The place part of a place (R35). -/
def placePart (own : Station) : Place → ReplyPart
  | .here bay grain => .place own bay grain
  | .remote lender _ bay grain _ => .place lender bay grain

/-- A REPLY with the part of a place, if one is given. -/
def placeReply (own : Station) (tag : Nat) (status : Status) (volume chunk : Nat) (pl : Option Place) : Reply :=
  { tag := tag, status := status, volume := volume, chunk := chunk, part := (pl.map (placePart own)).getD .none }

/-- What a request does when its write has failed: the station halts and the answer is NOTREADY without a part (R28, R55, R60). -/
def failedRequest (source : Station) (tag volume chunk : Nat) : List Task :=
  [.mapMemError, .reply source (plainReply tag .notReady volume chunk)]

/-- The checks of R36 that look at the state, in order: HALTED, the volume, the range. -/
def checkChunk (s : State) (v c : Nat) : Option Status :=
  if s.cond = .halted then some .notReady
  else if (volumeOf s.mm v).state ≠ .active then some .noVol
  else if (volumeOf s.mm v).size ≤ c then some .range
  else none

/-! ## READ lookups (R38, R39) -/

/-- The status and place a READ lookup is answered with (R39). -/
def readAnswer (s : State) (v c : Nat) : Status × Option Place :=
  match checkChunk s v c with
  | some st => (st, none)
  | none =>
    match entryOf s.mm v c with
    | none => (.zero, none)
    | some e =>
      if isTrimmed s.mm v c e then (.zero, none)
      else
        match e.state with
        | .pending _ _ _ => (.zero, none)
        | .mapped _ _ =>
          match s.judge e.place with
          | .usable => (.ok, some e.place)
          | .bayOff => (.bayOff, none)
          | .unreachable => (.unreachable, some e.place)
          | .lost => (.lost, some e.place)

/-! ## WRITE lookups (R38, R40 to R48) -/

/-- What a WRITE lookup comes to before any grain is sought: an answer, or an allocation with what became of an old entry. -/
inductive WriteDecision where
  | answered (status : Status) (place : Option Place)
  /-- No entry: allocate. -/
  | allocates
  /-- A lost entry is discarded first (R41), or a logically trimmed one disposed of (R44, R63). -/
  | replaces (old : Removal)
  deriving DecidableEq, Repr

/-- The answer to an owner or to a MAPPED entry whose place is not lost: the given status when it is usable (R40, R42). -/
def placeAnswer (usable : Status) (pl : Place) : Judgement → WriteDecision
  | .usable => .answered usable (some pl)
  | .bayOff => .answered .bayOff none
  | _ => .answered .unreachable (some pl)

/-- The decision of a WRITE lookup on the entry of its chunk (R38, R40 to R44). -/
def decideWrite (s : State) (source : Station) (v c tag : Nat) : WriteDecision :=
  match checkChunk s v c with
  | some st => .answered st none
  | none =>
    match entryOf s.mm v c with
    | none => .allocates
    | some e =>
      if isTrimmed s.mm v c e then .replaces (disposeEntry s.roster s.presence s.mm v c e)
      else if s.judge e.place = .lost then .replaces { mm := discardEntry s.mm v c e, handback := none }
      else
        match e.state with
        | .mapped _ _ => placeAnswer .ok e.place (s.judge e.place)
        | .pending requester t _ =>
          if requester = source ∧ t = tag then placeAnswer .fresh e.place (s.judge e.place) else .answered .held none

/-- What seeking a grain comes to. -/
structure Sought where
  mm : MapMemory
  rotor : Nat
  status : Status
  place : Option Place
  /-- What the answer brings with it: an ask started, a report. -/
  also : List Task
  deriving DecidableEq, Repr

/-- Make the new entry, its pending record and its count, at a place (R48). -/
def makeEntry (s : State) (source : Station) (v c tag : Nat) (mm : MapMemory) (pl : Place) : MapMemory :=
  let expiry := msFromNow s s.profile.holdTime
  let added := addEntry mm v c { state := .pending source tag expiry, place := pl, shield := coveringCount mm v c }
  { added with
    pendings := insertPending added.pendings { volume := v, chunk := c, requester := source, tag := tag, expiry := expiry } }

/-- No grain is found: the answer the ask machine and the roster give as they stand when the request is taken (R47). -/
def noGrain (s : State) (mm : MapMemory) : Sought :=
  if askInFlight s then { mm := mm, rotor := s.rotor, status := .held, place := none, also := [] }
  else if s.ask.state = .idle ∧ anyShelfPresent s.roster = true then
    { mm := mm, rotor := s.rotor, status := .held, place := none, also := [.startAsk] }
  else { mm := mm, rotor := s.rotor, status := .noSpace, place := none, also := [.report .noSpace, .count .noSpaceAnswers] }

/-- Steps 3 to 5 of an allocation: the map's room, the pending list's, then a grain of the pool, a spare, or none (R44 to R48). -/
def seekGrain (s : State) (source : Station) (v c tag : Nat) (mm : MapMemory) : Sought :=
  if Config.mapPlaces ≤ mm.chunks.length then
    { mm := mm, rotor := s.rotor, status := .mapFull, place := none, also := [.report .mapFull] }
  else if Config.pendingPlaces ≤ mm.pendings.length then { mm := mm, rotor := s.rotor, status := .held, place := none, also := [] }
  else
    let t := takeGrains s.presence 1 mm.freeSets s.rotor
    match t.grains with
    | (bay, grain) :: _ =>
      { mm := makeEntry s source v c tag { mm with freeSets := t.sets } (.here bay grain), rotor := t.rotor, status := .fresh,
        place := some (.here bay grain), also := [] }
    | [] =>
      match takeSpare s.roster mm with
      | some (sp, mm') =>
        { mm := makeEntry s source v c tag mm' sp.place, rotor := s.rotor, status := .fresh, place := some sp.place, also := [] }
      | none => noGrain s mm

/-- The task that queues a removal's GIVEBACK into its reserved place. -/
def handbackTasks (reserved : Bool) : Option Handback → List Task
  | none => []
  | some h => [.giveback reserved h.lender h.reason [h.loan]]

/-- The release of a GIVEBACK's reserved place when its write has failed. -/
def releaseTasks : Option Handback → List Task
  | none => []
  | some _ => [.releaseOther]

/-- Reserve a place for a removal's GIVEBACK, if it has one. -/
def reserveHandback (h : Option Handback) (s : State) : State := if h.isSome then reserveOther s else s

/-- A request whose place is reserved is answered without a write, with what goes with the answer taken after it. -/
def answerReserved (source : Station) (r : Reply) (also : List Task) (s : State) : Taking :=
  noWrite { s with tasks := also ++ .reply source r :: s.tasks }

/-- An allocation (R44): refused in DRAIN; held when a disposal's GIVEBACK has no place beyond the REPLY's; else a grain is sought, and the
disposal and its outcome are one write. An ask that R47 asks for beside a disposal is started after that write, if the station is then still
in READY: the model's choice (log entry 36). -/
def allocate (source : Station) (v c tag : Nat) (old : Option Removal) (s : State) : Taking :=
  let handback := old.bind (·.handback)
  if s.cond = .drain then answerReserved source (plainReply tag .quiesced v c) [] s
  else if handback.isSome && !hasPlace s then answerReserved source (plainReply tag .held v c) [] s
  else
    let got := seekGrain s source v c tag ((old.map (·.mm)).getD s.mm)
    let r := placeReply s.own tag got.status v c got.place
    if old.isNone && got.place.isNone then answerReserved source r got.also s
    else
      (reserveHandback handback s,
        some
          { image := got.mm, rotor := got.rotor, takes := got.place.isSome
            onDone := handbackTasks true handback ++ got.also ++ [.reply source r]
            goOn := []
            onFail := releaseTasks handback ++ failedRequest source tag v c })

/-- A WRITE lookup, its REPLY's place reserved (R44). -/
def takeLookupWrite (source : Station) (v c tag : Nat) (s : State) : Taking :=
  match decideWrite s source v c tag with
  | .answered st pl => answerReserved source (placeReply s.own tag st v c pl) [] s
  | .allocates => allocate source v c tag none s
  | .replaces old => allocate source v c tag (some old) s

/-! ## COMMIT (R49) -/

/-- What a COMMIT comes to: the status, and the map memory it makes if it changes the entry. -/
def decideCommit (s : State) (source : Station) (v c tag : Nat) : Status × Option MapMemory :=
  match checkChunk s v c with
  | some st => (st, none)
  | none =>
    match entryOf s.mm v c with
    | none => (.late, none)
    | some e =>
      match e.state with
      | .pending requester t _ =>
        if requester = source ∧ t = tag then
          (.done, some (removePending (putEntry s.mm v c { e with state := .mapped source tag }) v c))
        else (.late, none)
      | .mapped requester t => if requester = source ∧ t = tag then (.done, none) else (.late, none)

/-- A COMMIT, its REPLY's place reserved (R49). -/
def takeCommit (source : Station) (v c tag : Nat) (s : State) : Taking :=
  match decideCommit s source v c tag with
  | (st, none) => answerReserved source (plainReply tag st v c) [] s
  | (st, some mm) => writing s mm [.reply source (plainReply tag st v c)] [] (failedRequest source tag v c)

/-! ## TRIM (R59, R60) -/

/-- The first check of R59 a TRIM fails, if any. -/
def checkTrim (s : State) (v first count : Nat) : Option Status :=
  if s.cond = .halted then some .notReady
  else if count = 0 then some .badReq
  else if (volumeOf s.mm v).state ≠ .active then some .noVol
  else if (volumeOf s.mm v).size ≤ first then some .range
  else if Config.trimPlaces ≤ s.mm.trims.length then some .busy
  else none

/-- The range a TRIM makes, its last chunk clamped to the volume (R59, R60). -/
def trimRangeOf (mm : MapMemory) (source : Station) (v first count tag : Nat) : TrimRange :=
  { volume := v, first := first, last := min (first + count - 1) ((volumeOf mm v).size - 1), cursor := first, origin := .trim,
    requester := source, tag := tag }

/-- A TRIM, its REPLY's place reserved (R59, R60). -/
def takeTrim (source : Station) (v first count tag : Nat) (s : State) : Taking :=
  match checkTrim s v first count with
  | some st => answerReserved source (plainReply tag st v first) [] s
  | none =>
    writing s { s.mm with trims := s.mm.trims ++ [trimRangeOf s.mm source v first count tag] }
      [.reply source (plainReply tag .queued v first)] [] (failedRequest source tag v first)

/-! ## VOLUME (R23 to R28) -/

/-- Whether the map engine has the volume table: in HALTED it has not where the start did not read it (R30). -/
def volumesRead (s : State) : Bool := decide (s.cond ≠ .halted) || s.headerRead

/-- The REPLY to a VOLUME request over a volume table that was read: a size part when the volume is ACTIVE (R23, R30; log entry 16). -/
def volumeReply (read : Bool) (mm : MapMemory) (tag : Nat) (status : Status) (v : Nat) : Reply :=
  let r := volumeOf mm v
  { tag := tag, status := status, volume := v, chunk := 0
    part := if read = true ∧ r.state = .active then .size r.size else .none }

/-- What a VOLUME action comes to: the status, and the map memory it makes if it changes anything. -/
abbrev VolumeDecision := Status × Option MapMemory

/-- A size clamped to the largest nominal size (R24, R25). -/
def clampSize (n : Nat) : Nat := min n Config.maxVolume

/-- CREATE (R24). -/
def decideCreate (s : State) (v size : Nat) : VolumeDecision :=
  if s.cond = .halted then (.notReady, none)
  else
    match (volumeOf s.mm v).state with
    | .active => (.exists, none)
    | .retiring => (.busy, none)
    | .free =>
      if size = 0 then (.badReq, none)
      else (.ok, some (setVolume s.mm v { state := .active, size := clampSize size, count := 0 }))

/-- GROW (R25). -/
def decideGrow (s : State) (v size : Nat) : VolumeDecision :=
  let r := volumeOf s.mm v
  if s.cond = .halted then (.notReady, none)
  else if r.state ≠ .active then (.noVol, none)
  else if clampSize size < r.size then (.badReq, none)
  else if clampSize size = r.size then (.ok, none)
  else (.ok, some (setVolume s.mm v { r with size := clampSize size }))

/-- DELETE (R26). -/
def decideDelete (s : State) (source : Station) (v tag : Nat) : VolumeDecision :=
  let r := volumeOf s.mm v
  if s.cond = .halted then (.notReady, none)
  else if r.state ≠ .active then (.noVol, none)
  else if Config.trimPlaces ≤ s.mm.trims.length then (.busy, none)
  else
    (.queued, some
      (setVolume
        { s.mm with
          trims := s.mm.trims ++
            [{ volume := v, first := 0, last := r.size - 1, cursor := 0, origin := .delete, requester := source, tag := tag }] }
        v { r with state := .retiring }))

/-- A VOLUME action, its REPLY's place reserved: one write when it changes anything, then the REPLY (R23). -/
def takeVolume (source : Station) (v tag : Nat) (d : VolumeDecision) (s : State) : Taking :=
  match d with
  | (st, none) => answerReserved source (volumeReply (volumesRead s) s.mm tag st v) [] s
  | (st, some mm) =>
    writing s mm [.reply source (volumeReply (volumesRead s) mm tag st v)] [] (failedRequest source tag v 0)

/-! ## Rollbacks (R51 to R53, R165) -/

/-- Whether a rollback takes a record. -/
def RollbackOf.takes : RollbackOf → PendingRecord → Bool
  | .expiry t, r => r.expiry == t
  | .requester st, r => r.requester == st
  | .forced, _ => true

/-- The conditions in which the map engine makes a rollback (R51, R53, R165; log entry 18). -/
def RollbackOf.allowedIn : RollbackOf → Condition → Bool
  | .expiry _, c => c == .ready || c == .drain
  | .requester _, c => c == .ready || c == .drain || c == .quiet
  | .forced, c => c == .drain

/-- Roll back the first record of those to be rolled back, each with a write of its own, and go on with the rest (R52, R53). -/
def takeRollback (which : RollbackOf) (s : State) : Taking :=
  if which.allowedIn s.cond then
    match s.mm.pendings.find? which.takes with
    | none => noWrite s
    | some r =>
      let d := rollbackChunk s.roster s.presence s.mm r.volume r.chunk
      writing s d.mm (handbackTasks false d.handback) [.rollback which] [.mapMemError]
  else noWrite s

/-- A roster event at the map engine: PEER-LOST and PEER-NEW-EPOCH roll back the station's pending records (R53, R139). -/
def takeMapEvent (ev : RosterEvent) (st : Station) (s : State) : Taking :=
  match ev with
  | .peerPresent => noWrite s
  | .peerLost => noWrite { s with tasks := .rollback (.requester st) :: s.tasks }
  | .peerNewEpoch => noWrite { s with tasks := .rollback (.requester st) :: s.tasks }

end Sys2Proof.Machine
end

