-- ==== Sys2Proof/Machine/LoanUnit.lean ====
section
/-! DEFINITION. The loan unit: asks and offers heard, grants made and received, givebacks, return steps, roster events (spec/06, spec/07). -/

namespace Sys2Proof.Machine

/-- Whether peer-addressed frames are acted on: READY and DRAIN (R146, R148). -/
def actsOnPeers (s : State) : Bool := decide (s.cond = .ready) || decide (s.cond = .drain)

/-! ## Offers (R112 to R118) -/

/-- An ASK judged from IDLE: the offer of R82 is taken up when every condition of R112 holds. -/
def judgeOffer (source : Station) (askId : AskId) (wanted : Nat) (s : State) : State :=
  let n := offerCount s.figures wanted
  let d := offerDelay s.figures
  if s.cond = .ready ∧ askInFlight s = false ∧ s.short = false ∧ isPresentShelf s.roster source = true ∧ 1 ≤ n then
    { s with
      offer := { state := .armed, current := some { asker := source, askId := askId, n := n, d := d },
                 timer := some (s.now + d * Config.slot), endsAtReport := false } }
  else s

/-- An ASK at the offer machine (R112). -/
def hearAsk (source : Station) (askId : AskId) (wanted : Nat) (s : State) : State :=
  match s.offer.current with
  | none => judgeOffer source askId wanted s
  | some o =>
    if o.asker ≠ source ∨ o.askId = askId then s
    else
      let ended := if s.offer.state = .queued then withdrawOffer true s else endOffer s
      if ended.offer.current.isNone then judgeOffer source askId wanted ended else ended

/-- Whether an OFFER is one the ask machine takes (R93); the window must be open. Log entry 20. -/
def offerMatches (source : Station) (askId : AskId) (asker : Station) (count : Nat) (s : State) : Bool :=
  decide (s.ask.state = .calling) && s.ask.timer.isSome && asker == s.own && askId == s.ask.askId
    && isPresentShelf s.roster source && 1 ≤ count

/-- Take an OFFER: a TAKE is queued to its source and TAKING entered; without a place the ask fails (R93). -/
def takeOffer (source : Station) (count : Nat) (s : State) : State :=
  let n := min count Config.frameLoans
  let taking := { s with ask := { s.ask with state := .taking, lender := some source, offerCount := n, timer := none } }
  (offerFrame { dest := source, body := .take s.ask.askId n } taking).getD (failAsk taking)

/-- Another station's OFFER at the offer machine (R114). -/
def rivalOffer (source : Station) (askId : AskId) (asker : Station) (s : State) : State :=
  if source ≠ s.own ∧ s.offer.current.any (fun o => o.asker == asker && o.askId == askId) = true then
    match s.offer.state with
    | .armed => endOffer s
    | .queued => withdrawOffer false s
    | _ => s
  else s

/-- An OFFER heard: first the ask machine, then the offer machine (R93, R114). -/
def hearOffer (source : Station) (askId : AskId) (asker : Station) (count : Nat) (s : State) : State :=
  rivalOffer source askId asker (if offerMatches source askId asker count s then takeOffer source count s else s)

/-- A TAKE addressed to another station ends a WAITING offer to the same ask (R116). -/
def hearTakeElsewhere (source : Station) (askId : AskId) (s : State) : State :=
  if s.offer.state = .waiting ∧ s.offer.current.any (fun o => o.asker == source && o.askId == askId) = true then endOffer s else s

/-! ## Grants made (R118 to R122) -/

/-- Whether a TAKE to this station answers the open offer (R118). -/
def takeMatches (source : Station) (askId : AskId) (s : State) : Option OpenOffer :=
  if s.offer.state = .queued ∨ s.offer.state = .waiting then
    s.offer.current.filter fun o => o.asker == source && o.askId == askId
  else none

/-- g for a matching TAKE (R84, R118). -/
def grantCountFor (source : Station) (count : Nat) (o : OpenOffer) (s : State) : Nat :=
  if s.cond = .ready ∧ isPresent s.roster source = true then grantCount s.figures count o.n else 0

/-- Whether the matching TAKE of the open offer has been taken and its grant is being written (R118, R119). Log entry 47. -/
def grantStanding (s : State) : Bool :=
  s.inflight.any fun w => w.onDone.any fun t =>
    match t with
    | .granted borrower askId _ => s.offer.current.any fun o => o.asker == borrower && o.askId == askId
    | _ => false

/-- The last-grant record of a station set (R121). -/
def setLastGrant (st : Station) (askId : AskId) (rs : List GrantRecord) (s : State) : State :=
  { s with lastGrants := tablePut s.lastGrants st.toNat { askId := askId, records := rs } }

/-- End the open offer if it is still the one named. -/
def endOfferOf (asker : Station) (askId : AskId) (s : State) : State :=
  if s.offer.current.any (fun o => o.asker == asker && o.askId == askId) then endOffer s else s

/-- A GRANT queued in its reserved place, the last-grant record set, the offer ended (R119). A GRANT the condition no longer lets out is
undelivered (R127). Log entry 8. -/
def sendGranted (borrower : Station) (askId : AskId) (rs : List GrantRecord) (s : State) : State :=
  let s := releaseOther s
  let s := (offerFrame { dest := borrower, body := .grant askId rs } s).getD (report .grantUndelivered s)
  endOfferOf borrower askId (setLastGrant borrower askId rs s)

/-- A TAKE addressed to this station (R118, R119, R121, R122). -/
def takeTake (source : Station) (askId : AskId) (count : Nat) (s : State) : Taking :=
  if actsOnPeers s then
    match takeMatches source askId s with
    | some o =>
      if hasPlace s then
        let taken := takeGrains s.presence (grantCountFor source count o s) s.mm.freeSets s.rotor
        match taken.grains, (rosterOf s.roster source).epoch with
        | g :: gs, some epoch =>
          let (loans, rs) := makeLoans source epoch s.mm.loans (g :: gs)
          (reserveOther s,
            some
              { image := { s.mm with freeSets := taken.sets, loans := loans }, rotor := taken.rotor, takes := true
                onDone := [.granted source askId rs], goOn := []
                onFail := [.releaseOther, .endOfferOf source askId, .mapMemError] })
        | _, _ => noWrite (endOffer (setLastGrant source askId [] (pushFrame { dest := source, body := .grant askId [] } s)))
      else noWrite (endOffer s)
    | none =>
      match tableFind s.lastGrants source.toNat with
      | some last =>
        if last.askId = askId then
          noWrite ((offerFrame { dest := source, body := .grant askId last.records } s).getD s)
        else noWrite s
      | none => noWrite s
  else noWrite s

/-- Empty every last-grant record that names one of the loans (R121, R123). -/
def emptyLastGrants (loans : List Nat) (s : State) : State :=
  { s with lastGrants := s.lastGrants.filter fun p => !p.2.records.any fun r => loans.contains r.loan }

/-- Empty the last-grant record of a station (R125). -/
def emptyLastGrantOf (st : Station) (s : State) : State := { s with lastGrants := tableErase s.lastGrants st.toNat }

/-! ## Grants received (R96, R97, R99) -/

/-- A GIVEBACK(UNUSED) of loan numbers, none for an empty list. -/
def unusedTasks (lender : Station) (loans : List Nat) : List Task :=
  if loans.isEmpty then [] else [.giveback false lender .unused loans]

/-- A stale GRANT: ignored whole if it repeats the last accepted one, else its new records are handed back (R99). -/
def takeStaleGrant (source : Station) (askId : AskId) (rs : List GrantRecord) (s : State) : Taking :=
  if s.ask.lastAccepted = some (source, askId) then noWrite s
  else noWrite { s with tasks := unusedTasks source (newLoans s.mm source rs) ++ s.tasks }

/-- DATA-LOST is reported when a lender's grains are in use and its epoch is another than the known one (R108 step 1). -/
def reportDataLost (st : Station) (epoch : Epoch) (s : State) : State :=
  let p := peerOf s.mm st
  if p.known ≠ none ∧ p.known ≠ some epoch ∧ 0 < p.inUse then report .dataLost s else s

/-- A GRANT addressed to this station (R96, R97, R99). From its acceptance to the end of its write the machine stays in TAKING with no wait
running. Log entries 19, 21 and 38. -/
def takeGrant (source : Station) (askId : AskId) (rs : List GrantRecord) (s : State) : Taking :=
  if actsOnPeers s then
    match (rosterOf s.roster source).epoch with
    | some epoch =>
      if s.ask.state = .taking ∧ s.ask.lender = some source ∧ s.ask.askId = askId then
        let j := judgeGrant s.mm source epoch s.mm.spares (rs.take s.ask.offerCount)
        let handed := unusedTasks source j.full
          ++ unusedTasks source (newLoans { s.mm with spares := j.spares } source (rs.drop s.ask.offerCount))
        if j.joined = 0 then noWrite { failAsk s with tasks := handed ++ s.tasks }
        else
          (reportDataLost source epoch { s with ask := { s.ask with timer := none } },
            some
              { image := acceptGrant s.mm source epoch j, rotor := s.rotor, takes := true
                onDone := .askSucceeded source askId :: handed, goOn := [], onFail := [.mapMemError] })
      else takeStaleGrant source askId rs s
    | none => takeStaleGrant source askId rs s
  else noWrite s

/-- The ask has succeeded: IDLE, no failures, the GRANT remembered (R96). -/
def askSucceeded (lender : Station) (askId : AskId) (s : State) : State :=
  { s with ask := { s.ask.stopped with failures := 0, lastAccepted := some (lender, askId) } }

/-! ## Givebacks and return steps (R104, R123, R124) -/

/-- Report stale loan numbers, one report and one count each (R124). -/
def reportStale : Nat → State → State
  | 0, s => s
  | n + 1, s => reportStale n (countUp .staleGivebacks (report .staleGiveback s))

/-- A GIVEBACK addressed to this station (R123, R124). Its stale numbers are reported before its write is made: the model's choice (log entry
41). -/
def takeGiveback (source : Station) (loans : List Nat) (s : State) : Taking :=
  if actsOnPeers s then
    let j := judgeGiveback source s.mm loans
    let s := reportStale j.stale s
    if j.removed.isEmpty then noWrite s else writing s j.mm [.emptyLastGrants j.removed] [] [.mapMemError]
  else noWrite s

/-- Whether a return step is due: flush in READY, or a drain not yet ended (R104). -/
def returnDue (s : State) : Bool :=
  (decide (s.cond = .ready) && s.flush) || (decide (s.cond = .drain) && !s.drainEnded)

/-- A return step (R104). Log entry 8. -/
def takeReturnStep (s : State) : Taking :=
  if returnDue s && hasPlace s then
    match returnStepOf s.roster s.mm with
    | none => noWrite s
    | some r => writing (reserveOther s) r.mm [.giveback true r.lender .unused r.loans] [] [.releaseOther, .mapMemError]
  else noWrite s

/-! ## Roster events (R100, R107, R108, R117, R125, R126) -/

/-- Fail an ask in TAKING to a lender (R100). -/
def failAskOf (st : Station) (s : State) : State :=
  if s.ask.state = .taking ∧ s.ask.lender = some st then failAsk s else s

/-- The judgement of R90 that PEER-PRESENT of a shelf station brings. -/
def presentTasks (ev : RosterEvent) (st : Station) (s : State) : List Task :=
  if ev = .peerPresent ∧ isPresentShelf s.roster st = true then [.judgeAsk] else []

/-- A roster event at the borrower's side (R100, R107, R108). That it waits for a map memory write in progress is the model's choice (log entry
48). -/
def takeBorrowerEvent (ev : RosterEvent) (st : Station) (s : State) : Taking :=
  match ev with
  | .peerLost => noWrite (failAskOf st s)
  | _ =>
    if s.loanUp then
      match (peerOf s.mm st).known, (rosterOf s.roster st).epoch with
      | some known, some epoch =>
        if known = epoch then
          noWrite
            { (if ev = .peerNewEpoch then failAskOf st s else s) with tasks := presentTasks ev st s ++ s.tasks }
        else
          writing (reportDataLost st epoch s) (dropOldSpares s.mm st epoch) [.failAskOf st] (presentTasks ev st s) [.mapMemError]
      | _, _ =>
        noWrite { (if ev = .peerNewEpoch then failAskOf st s else s) with tasks := presentTasks ev st s ++ s.tasks }
    else noWrite s

/-- An offer open to a station ends (R117). -/
def stopOfferTo (st : Station) (s : State) : State :=
  if s.offer.current.any (fun o => o.asker == st) then stopOffer s else s

/-- A roster event at the lender's side (R117, R125, R126). That the open offer's end, which needs no map memory, waits for a map memory write
in progress is the model's choice (log entry 48). -/
def takeLenderEvent (ev : RosterEvent) (st : Station) (s : State) : Taking :=
  match ev with
  | .peerLost => noWrite (stopOfferTo st s)
  | _ =>
    let ended := if ev = .peerNewEpoch then stopOfferTo st s else s
    let emptied := if ev = .peerNewEpoch then emptyLastGrantOf st ended else ended
    match (rosterOf s.roster st).epoch with
    | some epoch =>
      if s.loanUp && s.mm.loans.any fun p => isOldLoan st epoch p.2 then
        writing ended (reclaimLoans s.mm st epoch) [.emptyLastGrantOf st] [] [.mapMemError]
      else noWrite emptied
    | none => noWrite emptied

end Sys2Proof.Machine
end

