-- ==== Sys2Proof/Machine/StartStages.lean ====
section
/-! DEFINITION. The stages of a start that write map memory, and its end (R56, R159, R160). -/

namespace Sys2Proof.Machine

/-- The format count a format writes (R159). -/
def nextFormatCount (mm : MapMemory) : Word32 :=
  match mm.header with
  | some h => if h.checkGood then h.formatCount + 1 else 1
  | none => 1

/-- The header of a format (R159). Log entry 13. -/
def takeFormatHeader (s : State) : Taking :=
  writing s
    { s.mm with
      header := some { serial := s.profile.serial, formatCount := nextFormatCount s.mm, restartCount := 0, checkGood := true } }
    [] [] [.formatFailed]

/-- The geometry record and the structures emptied by their owners, in one write: the free sets never stand beside another geometry or
beside the old holders of their grains (R2, R4, R157, R159). Log entry 13. -/
def takeFormatContents (s : State) : Taking := writing s (formatContents s.mm s.profile) [] [] [.formatFailed]

/-- The pool set up over the free sets (R15, R16, R160). That a start senses the bays after it has written the restart count, and a format
after its writes, is the model's choice (log entry 42). -/
def raisePool (s : State) : State :=
  { s with
    headerRead := true, poolUp := true, rotor := 0, presence := presenceFrom s.bayLines s.profile.bayCount }

/-- The start has ended well: the loan unit has its structures and JOIN is entered (R160). -/
def endStart (s : State) : State := enterJoin .ready { s with loanUp := true }

/-- A write of a start failed: MAPMEM is reported, no further stage runs, and JOIN is entered with the outcome HALTED (R160, R167). A pool
that was set up before the write keeps its figures and goes on following the bay lines (R12, R15); one that was not is empty: the model's
reading of R12 beside R86 (log entry 14). -/
def failStart (s : State) : State := enterJoin .halted (report .mapMem { s with tasks := [] })

/-- A format write failed: as any write of a start, and the station then names no format count (R159, R140). Log entry
13. -/
def failFormat (s : State) : State := failStart { s with headerRead := false }

/-- The restart count raised in the header (R160). -/
def takeRestartCount (s : State) : Taking :=
  writing s { s.mm with header := s.mm.header.map fun h => { h with restartCount := saturate h.restartCount } } [] [] [.startFailed]

/-- Add a loan to be handed back to its lender's, lenders in the order they first came (R56; log entry 23). -/
def gatherLoan (acc : List (Station × List Nat)) (x : Station × Nat) : List (Station × List Nat) :=
  match acc with
  | [] => [(x.1, [x.2])]
  | (st, ls) :: rest => if st = x.1 then (st, ls ++ [x.2]) :: rest else (st, ls) :: gatherLoan rest x

/-- A list cut into pieces of up to 8 (R56); `n` bounds the pieces. -/
def cutEights (n : Nat) (l : List Nat) : List (List Nat) :=
  match n with
  | 0 => []
  | n + 1 => if l.isEmpty then [] else l.take Config.frameLoans :: cutEights n (l.drop Config.frameLoans)

/-- The GIVEBACK(ROLLBACK) frames of a start's rollback: for each lender, up to 8 loan numbers a frame (R56). -/
def handbackFrames (hs : List (Station × Nat)) : List Task :=
  (hs.foldl gatherLoan []).flatMap fun p => (cutEights p.2.length p.2).map fun ls => Task.giveback false p.1 .rollback ls

/-- The start's rollback: the first pending record, a write of its own, then the rest; at the end the gathered handbacks are queued (R56). -/
def takeStartRollback (hs : List (Station × Nat)) (s : State) : Taking :=
  match s.mm.pendings with
  | [] => noWrite { s with tasks := handbackFrames hs ++ s.tasks }
  | r :: _ =>
    let d := rollbackChunk s.roster s.presence s.mm r.volume r.chunk
    writing s d.mm [] [.startRollback (hs ++ (d.handback.map fun h => (h.lender, h.loan)).toList)] [.startFailed]

/-- RETIRING volumes without a DELETE range made FREE (R29). -/
def takeSweep (s : State) : Taking :=
  if sweepVolumes s.mm = s.mm then noWrite s else writing s (sweepVolumes s.mm) [] [] [.startFailed]

end Sys2Proof.Machine
end

