-- ==== Sys2Proof/Machine/TrimWalker.lean ====
section
/-! DEFINITION. The trim walker's visits and the end of a range (spec/04). -/

namespace Sys2Proof.Machine

/-- Whether the walker works: READY, or DRAIN before its end (R64, R164). -/
def walkerWorks (s : State) : Bool :=
  decide (s.cond = .ready) || (decide (s.cond = .drain) && !s.drainEnded)

/-- A visit that finds an entry: the shield is lowered, or the entry is disposed of, whatever its shield in a DELETE range (R66 to R69, R71). -/
def visitEntry (r : TrimRange) (c : Nat) (e : Entry) (mm : MapMemory) (s : State) : Removal :=
  if r.origin = .trim ∧ 0 < e.shield then
    { mm := moveCursor (putEntry mm r.volume c { e with shield := e.shield - 1 }) c, handback := none }
  else
    let d := disposeEntry s.roster s.presence mm r.volume c e
    { d with mm := moveCursor d.mm c }

/-- What follows the removal of a range: the volume of a DELETE range is made FREE first, then TRIMMED is queued (R27, R70). -/
def rangeEndTasks (r : TrimRange) : List Task :=
  match r.origin with
  | .trim => [.reply r.requester (plainReply r.tag .trimmed r.volume r.first)]
  | .delete => [.freeVolume r]

/-- One visit, then the visits left of the period; a visit without the room its frames need is not made, and the period is over (R64, R65,
R70). -/
def takeWalk (visits : Nat) (s : State) : Taking :=
  match visits with
  | 0 => noWrite s
  | left + 1 =>
    if walkerWorks s then
      match s.mm.trims with
      | [] => noWrite s
      | r :: rest =>
        match nextEntry s.mm r with
        | some (c, e) =>
          let d := visitEntry r c e s.mm s
          if d.handback.isSome && !hasPlace s then noWrite s
          else
            writing (reserveHandback d.handback s) d.mm (handbackTasks true d.handback) [.walk left]
              (releaseTasks d.handback ++ [.mapMemError])
        | none =>
          if hasReplyPlace s then
            writing (reserveReply s) { s.mm with trims := rest } (rangeEndTasks r) [.walk left] [.releaseReply, .mapMemError]
          else noWrite s
    else noWrite s

/-- The end of a DELETE range: the volume is made FREE, then TRIMMED is queued (R27, R28). -/
def takeFreeVolume (r : TrimRange) (s : State) : Taking :=
  writing s (setVolume s.mm r.volume Volume.none) [.reply r.requester (plainReply r.tag .trimmed r.volume 0)] []
    [.releaseReply, .mapMemError]

end Sys2Proof.Machine
end

