-- ==== Sys2Proof/Machine/Work.lean ====
section
/-! DEFINITION. How an event is carried through: its parts taken one after another, each map memory write completing, failing or staying in
progress (R4, R12; log entries 6 and 7). -/

namespace Sys2Proof.Machine

/-- One event, or part of one, taken by the block that owns it. -/
def takeTask (t : Task) (s : State) : Taking :=
  match t with
  | .reply dest r => noWrite (fillReply dest r s)
  | .releaseReply => noWrite (releaseReply s)
  | .releaseOther => noWrite (releaseOther s)
  | .giveback reserved lender reason loans =>
    noWrite (sendGiveback lender reason loans (if reserved then releaseOther s else s))
  | .report flag => noWrite (report flag s)
  | .count c => noWrite (countUp c s)
  | .mapMemError => noWrite (mapMemError s)
  | .startAsk => noWrite (startAsk s)
  | .judgeAsk => noWrite (judgeAsk s)
  | .askSucceeded lender askId => noWrite (askSucceeded lender askId s)
  | .failAskOf lender => noWrite (failAskOf lender s)
  | .granted borrower askId rs => noWrite (sendGranted borrower askId rs s)
  | .endOfferOf asker askId => noWrite (endOfferOf asker askId s)
  | .emptyLastGrants loans => noWrite (emptyLastGrants loans s)
  | .emptyLastGrantOf st => noWrite (emptyLastGrantOf st s)
  | .takeHeard source askId count => takeTake source askId count s
  | .grantHeard source askId rs => takeGrant source askId rs s
  | .givebackHeard source loans => takeGiveback source loans s
  | .returnStep => takeReturnStep s
  | .borrowerEvent ev st => takeBorrowerEvent ev st s
  | .lenderEvent ev st => takeLenderEvent ev st s
  | .lookupWrite source v c tag => takeLookupWrite source v c tag s
  | .commit source v c tag => takeCommit source v c tag s
  | .trim source v first count tag => takeTrim source v first count tag s
  | .volumeCreate source v size tag => takeVolume source v tag (decideCreate s v size) s
  | .volumeDelete source v tag => takeVolume source v tag (decideDelete s source v tag) s
  | .volumeGrow source v size tag => takeVolume source v tag (decideGrow s v size) s
  | .mapEvent ev st => takeMapEvent ev st s
  | .rollback which => takeRollback which s
  | .walk visits => takeWalk visits s
  | .freeVolume r => takeFreeVolume r s
  | .judgeQuiet => noWrite (judgeQuiet s)
  | .endForcedDrain => noWrite (if s.cond = .drain then endDrain (report .drainForced s) else s)
  | .resume => noWrite (if s.cond = .quiet then resumeStart s else s)
  | .formatHeader => takeFormatHeader s
  | .formatContents => takeFormatContents s
  | .formatFailed => noWrite (if s.cond = .start then failFormat s else s)
  | .raiseRestartCount => takeRestartCount s
  | .raisePool => noWrite (if s.cond = .start then raisePool s else s)
  | .startRollback hs => takeStartRollback hs s
  | .sweepRetiring => takeSweep s
  | .startDone => noWrite (if s.cond = .start then endStart s else s)
  | .startFailed => noWrite (if s.cond = .start then failStart s else s)

/-- The free sets of the PRESENT bays: a change of one changes F (R8). -/
def presentSets (s : State) : List (Option FreeSet) :=
  List.zipWith (fun p x => if p then some x else none) s.presence s.mm.freeSets

/-- The judgements the changes of a write call for: R90 when it takes a grain or a spare, or a PRESENT bay's free set or the spare count has
changed (R8, R46, R96, R101, R103), the quiet condition when the pending list, the trim queue or the spare list has (R163). R90 is judged once
for a write, on the figures it leaves: the model's choice (log entry 39). -/
def judgements (takes : Bool) (before after : State) : List Task :=
  (if takes = true ∨ presentSets before ≠ presentSets after ∨ before.mm.spares.length ≠ after.mm.spares.length then [.judgeAsk] else [])
    ++ (if before.mm.pendings ≠ after.mm.pendings ∨ before.mm.trims ≠ after.mm.trims ∨ before.mm.spares ≠ after.mm.spares then
          [.judgeQuiet]
        else [])

/-- A write completes: its image takes effect whole, and what follows it comes before what waited (R4). -/
def completeWrite (w : MapWrite) (s : State) : State :=
  let after := { s with mm := w.image, rotor := w.rotor, inflight := none }
  { after with tasks := w.onDone ++ judgements w.takes s after ++ w.goOn ++ s.tasks }

/-- A write fails: none of it takes effect (R12). -/
def failWrite (w : MapWrite) (s : State) : State := { s with inflight := none, tasks := w.onFail ++ s.tasks }

/-- What is still to be taken, one after another, until nothing is left or a write stays in progress. The number bounds the events taken;
log entry 33. -/
def work : Nat → List WriteFate → State → State
  | 0, _, s => s
  | n + 1, fates, s =>
    if s.inflight.isSome then s
    else
      match s.tasks with
      | [] => s
      | t :: rest =>
        match takeTask t (withTasks rest s) with
        | (s', none) => work n fates s'
        | (s', some w) =>
          match fates with
          | [] => work n [] (completeWrite w s')
          | .completes :: fs => work n fs (completeWrite w s')
          | .fails :: fs => work n fs (failWrite w s')
          | .staysInProgress :: _ => { s' with inflight := some w }

/-- More events than any event of a working station calls for (log entry 33). -/
def workBound : Nat := 1048576

/-- Take what is still to be taken. -/
def settle (m : Moment) (s : State) : State := work workBound m.writes s

/-- Add events to what is still to be taken, and take it: at once, or when a map memory write in progress is over (log entries 7, 48). -/
def perform (m : Moment) (ts : List Task) (s : State) : State := settle m (withTasks (s.tasks ++ ts) s)

end Sys2Proof.Machine
end

