-- ==== Sys2Proof/Machine/Control.lean ====
section
/-! DEFINITION. The commands of the supply, the pins, condition control and the map memory port (spec/10, R5 to R7, R4). -/

namespace Sys2Proof.Machine

/-- What a command answers. -/
abbrev Result := Host.Outcome State Fault Refusal

/-- A command that acts only while the supply is on, at its time. -/
def whenOn (m : Moment) (f : State → State) (s : State) : Result :=
  .next (if s.powered then f (advance m.time s) else s)

/-- Map memory at a reset or a loss of supply: the write in progress takes effect whole or not at all (R157). -/
def settleMemory (takes : Bool) (s : State) : MapMemory :=
  match s.inflight with
  | some w => if takes then w.image else s.mm
  | none => s.mm

/-- POWER_ON (R157): a full start with cause POWER. Log entry 34. -/
def execPowerOn (pins : StartPins) (rom : Option ProfileRom) (takes : Bool) (m : Moment) (s : State) : Result :=
  .next (settle m (fullStart .power pins rom { advance m.time s with mm := settleMemory takes s }))

/-- RESET_PIN (R157): a full start with cause PIN, from any condition, when the pin was held low long enough. -/
def execResetPin (lowFor : Time) (pins : StartPins) (rom : Option ProfileRom) (takes : Bool) (m : Moment) (s : State) : Result :=
  whenOn m
    (fun s =>
      if Config.resetHold ≤ lowFor then settle m (fullStart .pin pins rom { s with mm := settleMemory takes s }) else s)
    s

/-- POWER_LOSS (R157): the volatile state is lost, map memory is kept. -/
def execPowerLoss (takes : Bool) (s : State) : Result :=
  .next { State.reset with powered := false, pending := s.pending, now := s.now, fresh := s.fresh, mm := settleMemory takes s }

/-- The level of one bay line set. -/
def setLine (lines : BitVec 24) (bay : Nat) (high : Bool) : BitVec 24 :=
  if high then lines ||| BitVec.twoPow 24 bay else lines &&& ~~~(BitVec.twoPow 24 bay)

/-- The level of a bay line told. The bay's own state follows only a level that has held (R5, R15). -/
def tellLine (bay : Nat) (high : Bool) (s : State) : State := { s with bayLines := setLine s.bayLines bay high }

/-- A bay's change of presence: the state follows its line, BAY-CHANGE is reported, and the new figures are handed to the loan unit, which
judges R90 (R6, R7). During a map memory write that judgement waits behind the write and reads the figures that then stand: the model's
choice (log entry 7). -/
def changeBay (bay : Nat) (present : Bool) (m : Moment) (s : State) : State :=
  if s.poolUp && s.presence[bay]? == some (!present) then
    perform m [.judgeAsk] (report .bayChange { s with presence := s.presence.set bay present })
  else s

/-- BAY_ABSENT (R5, R6, R17): the line is high, and has been for the time given; 20 ms of it make the bay ABSENT. Log entry 27. -/
def execBayAbsent (bay : Fin 24) (heldFor : Time) (m : Moment) (s : State) : Result :=
  whenOn m
    (fun s =>
      let s := tellLine bay true s
      if Config.lineHold ≤ heldFor then changeBay bay false m s else s)
    s

/-- BAY_PRESENT (R5, R7, R17): the line is low, and has been for the time given; 20 ms of it make the bay PRESENT. Log entry 27. -/
def execBayPresent (bay : Fin 24) (heldFor : Time) (m : Moment) (s : State) : Result :=
  whenOn m
    (fun s =>
      let s := tellLine bay false s
      if Config.lineHold ≤ heldFor then changeBay bay true m s else s)
    s

/-- The level of the service input told. Its filtered level follows only a level that has held, or the end of START (R162). -/
def tellService (high : Bool) (s : State) : State := { s with serviceLine := high }

/-- SERVICE_ASSERTED (R162, R163): the input is asserted, and has been for the time given; a change held for 20 ms is taken, and in READY
it enters DRAIN. Log entry 27. -/
def execServiceAsserted (heldFor : Time) (m : Moment) (s : State) : Result :=
  whenOn m
    (fun s =>
      let s := tellService s.profile.serviceActiveHigh s
      if Config.lineHold ≤ heldFor ∧ serviceAsserted s = false then
        let s := { s with servicePin := s.profile.serviceActiveHigh }
        if s.cond = .ready then settle m (enterDrain s) else s
      else s)
    s

/-- SERVICE_RELEASED (R162, R166): the input is released, and has been for the time given; a change held for 20 ms is taken, and in QUIET
it makes a resume start, the bay lines then being at the given levels. Log entry 27. -/
def execServiceReleased (heldFor : Time) (bayLines : BitVec 24) (m : Moment) (s : State) : Result :=
  whenOn m
    (fun s =>
      let s := tellService (!s.profile.serviceActiveHigh) s
      if Config.lineHold ≤ heldFor ∧ serviceAsserted s = true then
        let s := { s with servicePin := !s.profile.serviceActiveHigh }
        if s.cond = .quiet then perform m [.resume] { s with bayLines := bayLines } else s
      else s)
    s

/-- JOIN_TIMER_EXPIRY (R141, R161): the outcome is entered, the first HAIL queued, the HAIL timer started; in READY the walker's timer
starts, R90 is judged, and then the service input, both at once: that order is the model's choice (log entry 45). -/
def execJoinTimerExpiry (m : Moment) (s : State) : Result :=
  whenOn m
    (fun s =>
      if s.cond = .join ∧ isDue s.joinTimer s.now = true then
        let s := { s with joinTimer := none, hailTimer := some (presenceDeadline s) }
        match s.outcome with
        | .ready =>
          settle m <| judgeService <| judgeAsk <|
            queueHail { s with cond := .ready, walkerTimer := some (s.now + s.profile.walkerPeriod * Config.microsecond) }
        | .halted => settle m (queueHail (enterHalted s))
      else s)
    s

/-- DRAIN_TIMER_EXPIRY (R163, R165): the drain is forced. -/
def execDrainTimerExpiry (m : Moment) (s : State) : Result :=
  whenOn m
    (fun s =>
      if s.cond = .drain ∧ s.drainEnded = false ∧ isDue s.drainTimer s.now = true then
        perform m [.rollback .forced, .endForcedDrain] { s with drainTimer := none }
      else s)
    s

/-- MAP_MEMORY_WRITE_COMPLETION (R4, R12, R149): the write in progress takes effect whole, or none of it does, and what follows it is
taken. -/
def execMapMemoryWriteCompletion (ok : Bool) (m : Moment) (s : State) : Result :=
  whenOn m
    (fun s =>
      match s.inflight with
      | none => s
      | some w => settle m (if ok then completeWrite w s else failWrite w s))
    s

end Sys2Proof.Machine
end

