-- ==== Sys2Proof/Machine/Expiries.lean ====
section
/-! DEFINITION. The commands of the timers of the map engine, the walker, the loan unit and the roster, and the return step. -/

namespace Sys2Proof.Machine

/-- HOLD_EXPIRY (R51): the front pending record's expiry time has come; it is rolled back, and the records that expire with it.
Log entry 24. -/
def execHoldExpiry (m : Moment) (s : State) : Result :=
  whenOn m
    (fun s =>
      match s.mm.pendings with
      | [] => s
      | r :: _ =>
        if (s.cond = .ready ∨ s.cond = .drain) ∧ r.expiry ≤ s.now then perform m [.rollback (.expiry r.expiry)] s else s)
    s

/-- WALKER_PERIOD (R64): the timer restarts, and up to K visits are made. -/
def execWalkerPeriod (m : Moment) (s : State) : Result :=
  whenOn m
    (fun s =>
      if walkerWorks s = true ∧ isDue s.walkerTimer s.now = true then
        perform m [.walk s.profile.walkerVisits]
          { s with walkerTimer := some (s.now + s.profile.walkerPeriod * Config.microsecond) }
      else s)
    s

/-- OFFER_WINDOW_EXPIRY (R94). -/
def execOfferWindowExpiry (m : Moment) (s : State) : Result :=
  whenOn m (fun s => if s.ask.state = .calling ∧ isDue s.ask.timer s.now = true then failAsk s else s) s

/-- GRANT_WAIT_EXPIRY (R95). -/
def execGrantWaitExpiry (m : Moment) (s : State) : Result :=
  whenOn m (fun s => if s.ask.state = .taking ∧ isDue s.ask.timer s.now = true then failAsk s else s) s

/-- BACKOFF_EXPIRY (R98): IDLE, the failure count kept, and R90 judged. -/
def execBackoffExpiry (m : Moment) (s : State) : Result :=
  whenOn m
    (fun s =>
      if s.ask.state = .backoff ∧ isDue s.ask.timer s.now = true then
        perform m [.judgeAsk] { s with ask := { s.ask with state := .idle, timer := none } }
      else s)
    s

/-- OFFER_TIMER_EXPIRY (R113): the OFFER is queued, or the offer ends for want of room. -/
def execOfferTimerExpiry (m : Moment) (s : State) : Result :=
  whenOn m
    (fun s =>
      match s.offer.current with
      | none => s
      | some o =>
        if s.offer.state = .armed ∧ isDue s.offer.timer s.now = true then
          match offerFrame { dest := broadcast, body := .offer o.askId o.asker o.n o.d } s with
          | some s' => { s' with offer := { s'.offer with state := .queued, timer := none } }
          | none => endOffer s
        else s)
    s

/-- TAKE_WAIT_EXPIRY (R116): the wait has run out with no matching TAKE; a TAKE already taken ends the offer by its GRANT instead (R118; log
entry 47). -/
def execTakeWaitExpiry (m : Moment) (s : State) : Result :=
  whenOn m
    (fun s => if s.offer.state = .waiting ∧ isDue s.offer.timer s.now = true ∧ grantStanding s = false then endOffer s else s)
    s

/-- RETURN_STEP (R104). -/
def execReturnStep (m : Moment) (s : State) : Result := whenOn m (perform m [.returnStep]) s

/-- HAIL_TIMER_EXPIRY (R141): the timer restarts, and a HAIL is built and queued; none after HAIL(LEAVING) (R142; log entry 25). -/
def execHailTimerExpiry (m : Moment) (s : State) : Result :=
  whenOn m
    (fun s =>
      if isDue s.hailTimer s.now = true ∧ (s.cond = .ready ∨ s.cond = .drain ∨ s.cond = .halted) then
        let s := { s with hailTimer := some (presenceDeadline s) }
        if s.drainEnded then s else queueHail s
      else s)
    s

end Sys2Proof.Machine
end

