-- ==== Sys2Proof/WellFormed.lean ====
section
/-! DEFINITION. The checks a command meets when what it carries can stand on the link or at the pins as the manual says. -/

namespace Sys2Proof

/-- A frame read on the link has at most 63 payload bytes: its length field has 6 bits (R144). -/
def RawFrame.wf (f : RawFrame) : Bool := f.payload.length ≤ 63

/-- A GRANT record fits its fields (R155). A bay of 24 to 31 fits its 5 bits and is accepted as named: the model's choice (log entry 40). -/
def GrantRecord.wf (r : GrantRecord) : Bool := r.loan < 65536 && r.bay < 32 && r.grain < 1048576

/-- A HAIL fits its layout: q is 0 to 1,000 (R155). -/
def HailBody.wf (h : HailBody) : Bool := h.q ≤ 1000

/-- The profile ROM gives a grain count for each of the 24 bay positions (R1). -/
def ProfileRom.wf (r : ProfileRom) : Bool := r.values.grainCounts.length == 24

/-- A GRANT fits its layout: a named destination, at most 8 records (R147, R155). -/
def wfGrant (dest : Station) (records : List GrantRecord) : Bool :=
  dest != broadcast && records.length ≤ Config.frameLoans && records.all (·.wf)

/-- A GIVEBACK fits its layout: a named destination, 1 to 8 loan numbers of 16 bits (R147, R155). -/
def wfGiveback (dest : Station) (loans : List Nat) : Bool :=
  dest != broadcast && 1 ≤ loans.length && loans.length ≤ Config.frameLoans && loans.all (· < 65536)

/-- An OFFER fits its layout: the asking station is 0 to 14 (R155). -/
def wfOffer (asker : Station) : Bool := asker != broadcast

/-- A TAKE fits its layout: a named destination (R147). -/
def wfTake (dest : Station) : Bool := dest != broadcast

/-- The checks of a command. A command that fails one spells a frame that is malformed (R147) or that the link cannot carry. -/
def Instr.wf : Instr → Bool
  | .powerOn _ rom _ _ => rom.all (·.wf)
  | .resetPin _ _ rom _ _ => rom.all (·.wf)
  | .requestFrameReceived f _ => f.wf
  | .offer _ _ asker _ _ _ => wfOffer asker
  | .take _ dest _ _ _ => wfTake dest
  | .grant _ dest _ records _ => wfGrant dest records
  | .giveback _ dest _ loans _ => wfGiveback dest loans
  | .hail _ h _ => h.wf
  | .frameHeard f _ => f.wf
  | .bayAbsent _ _ _ => true
  | .bayPresent _ _ _ => true
  | .serviceAsserted _ _ => true
  | .serviceReleased _ _ _ => true
  | .lookupRead _ => true
  | .lookupWrite _ => true
  | .commit _ => true
  | .trim _ => true
  | .volumeCreate _ => true
  | .volumeDelete _ => true
  | .volumeGrow _ => true
  | .statusPage0 _ => true
  | .statusPage1 _ => true
  | .clear _ => true
  | .ask _ _ _ _ => true
  | .attemptStart _ => true
  | .arbitrationLost _ => true
  | .frameEnded _ => true
  | .attemptFailed _ => true
  | .holdExpiry _ => true
  | .walkerPeriod _ => true
  | .offerWindowExpiry _ => true
  | .grantWaitExpiry _ => true
  | .backoffExpiry _ => true
  | .offerTimerExpiry _ => true
  | .takeWaitExpiry _ => true
  | .returnStep _ => true
  | .peerAgeExpiry _ _ => true
  | .hailTimerExpiry _ => true
  | .joinTimerExpiry _ => true
  | .drainTimerExpiry _ => true
  | .powerLoss _ => true
  | .malformedRequest _ => true
  | .mapMemoryWriteCompletion _ _ => true

end Sys2Proof
end

