-- ==== Sys2Proof/Machine/Hearing.lean ====
section
/-! DEFINITION. The commands of frames heard on the link (R132 to R143, R146 to R148) and the aging of peers (R133). -/

namespace Sys2Proof.Machine

/-! ## Hearing (R132, R146, R148) -/

/-- The conditions in which frames are handed to blocks beyond the roster (R146), and in which broadcasts are acknowledged (R148). -/
def handsOn (s : State) : Bool := decide (s.cond = .ready) || decide (s.cond = .drain) || decide (s.cond = .halted)

/-- A frame's source noted by the roster: its last heard becomes now (R132). -/
def noteSource (source : Station) (s : State) : State :=
  if source = broadcast ∨ source = s.own then s
  else
    { s with
      roster := tableSet RosterRecord.none s.roster source.toNat { rosterOf s.roster source with lastHeard := some s.now } }

/-- A frame with a good CRC and a class other than 7: its acknowledge slot driven or not, its source handed to the roster, and the frame
handed on. In START nothing is heard (R132, R146, R148). -/
def hear (source : Station) (acks : Bool) (handOn : State → State) (s : State) : State :=
  if s.cond = .start then { s with ackDriven := false }
  else handOn (noteSource source { s with ackDriven := acks })

/-- Whether a frame addressed to one station is acknowledged as a TAKE, GRANT or GIVEBACK is (R148). -/
def acksPeer (dest : Station) (s : State) : Bool := dest == s.own && actsOnPeers s

/-- A malformed frame that is not of a requester kind addressed to this station: acknowledged when it is for this station or for all, then
discarded (R147). Log entry 31. -/
def hearMalformed (source dest : Station) (s : State) : State :=
  hear source ((dest == s.own || dest == broadcast) && handsOn s) id s

/-! ## The roster (R134 to R137, R139, R143) -/

/-- The epoch a HAIL carries: identity 2 alone carries one (R155; log entry 17). -/
def hailEpoch (h : HailBody) : Option Epoch :=
  if h.identity = 2 then some { serial := h.serial, formatCount := h.formatCount } else none

/-- A record moved by a HAIL, and the events it raises (R134 to R137). -/
def hailRecord (r : RosterRecord) (h : HailBody) : RosterRecord × List RosterEvent :=
  match hailEpoch h with
  | none =>
    ({ r with kind := some h.kind, state := .lost }, if r.state = .present then [.peerLost] else [])
  | some e =>
    let changed : List RosterEvent := if r.epoch.any (· != e) then [.peerNewEpoch] else []
    if h.cond = .leaving then
      ({ r with kind := some h.kind, state := .lost, epoch := some e },
        (if r.state = .present then [.peerLost] else []) ++ changed)
    else
      ({ r with kind := some h.kind, state := .present, epoch := some e },
        (if r.state = .present then [] else [.peerPresent]) ++ changed)

/-- A roster event handed to the map engine and to both sides of the loan unit, each of which takes it as an event of its own; the quiet
condition is judged at PEER-LOST and PEER-NEW-EPOCH (R139, R163). The order of the three is the model's choice (log entry 37). -/
def eventTasks (st : Station) (ev : RosterEvent) : List Task :=
  [.mapEvent ev st, .borrowerEvent ev st, .lenderEvent ev st] ++ (if ev = .peerPresent then [] else [.judgeQuiet])

/-- Whether a HAIL bearing the station's own number shows another station (R143). -/
def isDuplicate (h : HailBody) (s : State) : Bool :=
  !(s.profileRead && (h.identity == 1 || h.identity == 2)) || h.serial != s.profile.serial

/-- A HAIL at the roster (R134 to R137, R143). -/
def hearHail (source : Station) (h : HailBody) (m : Moment) (s : State) : State :=
  if source = s.own then (if isDuplicate h s then duplicateHeard s else s)
  else if source = broadcast then s
  else
    let moved := hailRecord (rosterOf s.roster source) h
    perform m (moved.2.flatMap (eventTasks source))
      { s with roster := tableSet RosterRecord.none s.roster source.toNat moved.1 }

/-! ## Frames by kind (R146, R148) -/

/-- An ASK heard. -/
def hearAskFrame (source : Station) (askId : AskId) (wanted : Nat) (s : State) : State :=
  hear source (handsOn s) (fun s => if handsOn s then hearAsk source askId wanted s else s) s

/-- An OFFER heard. -/
def hearOfferFrame (source : Station) (askId : AskId) (asker : Station) (count : Nat) (s : State) : State :=
  hear source (handsOn s) (fun s => if handsOn s then hearOffer source askId asker count s else s) s

/-- A TAKE heard, whatever its destination. -/
def hearTakeFrame (source dest : Station) (askId : AskId) (count : Nat) (m : Moment) (s : State) : State :=
  hear source (acksPeer dest s)
    (fun s =>
      if actsOnPeers s then
        if dest = s.own then perform m [.takeHeard source askId count] s else hearTakeElsewhere source askId s
      else s)
    s

/-- A GRANT heard. -/
def hearGrantFrame (source dest : Station) (askId : AskId) (records : List GrantRecord) (m : Moment) (s : State) : State :=
  hear source (acksPeer dest s)
    (fun s => if actsOnPeers s && dest == s.own then perform m [.grantHeard source askId records] s else s) s

/-- A GIVEBACK heard. -/
def hearGivebackFrame (source dest : Station) (loans : List Nat) (m : Moment) (s : State) : State :=
  hear source (acksPeer dest s)
    (fun s => if actsOnPeers s && dest == s.own then perform m [.givebackHeard source loans] s else s) s

/-- A HAIL heard. -/
def hearHailFrame (source : Station) (h : HailBody) (m : Moment) (s : State) : State :=
  hear source (handsOn s) (hearHail source h m) s

/-- Whether a requester frame joins the request buffer: it is for this station, the condition allows it and there is room (R148). -/
def bufferTakes (f : RawFrame) (s : State) : Bool :=
  f.dest == s.own && handsOn s && s.buffer.length < Config.bufferPlaces

/-- A requester frame heard, malformed or not (R147, R148). -/
def hearRequester (f : RawFrame) (s : State) : State :=
  if f.dest = broadcast then hearMalformed f.source f.dest s
  else
    hear f.source (bufferTakes f s) (fun s => if bufferTakes f s then { s with buffer := s.buffer ++ [f] } else s) s

/-- Any frame read on the link that the station does not send itself (R146). Log entries 31 and 32. -/
def hearRaw (f : RawFrame) (m : Moment) (s : State) : State :=
  if !crcGood f || f.cls.toNat == 7 then { s with ackDriven := false }
  else if isRequesterFrame f then hearRequester f s
  else
    match hearFrame f with
    | .ask askId wanted => hearAskFrame f.source askId wanted s
    | .offer askId asker count _ => hearOfferFrame f.source askId asker count s
    | .take askId count => hearTakeFrame f.source f.dest askId count m s
    | .grant askId records => hearGrantFrame f.source f.dest askId records m s
    | .giveback _ loans => hearGivebackFrame f.source f.dest loans m s
    | .hail h => hearHailFrame f.source h m s
    | .unowned => hear f.source (f.dest == broadcast && handsOn s) id s
    | .malformed => hearMalformed f.source f.dest s

/-! ## The commands -/

/-- REQUEST_FRAME_RECEIVED (R147, R148): a requester frame; a frame of another kind is not this event. -/
def execRequestFrameReceived (f : RawFrame) (m : Moment) (s : State) : Result :=
  whenOn m
    (fun s =>
      if !crcGood f || f.cls.toNat == 7 then { s with ackDriven := false }
      else if isRequesterFrame f then hearRequester f s
      else s)
    s

/-- ASK (R112, R146). -/
def execAsk (source : Station) (askId : AskId) (wanted : Byte) (m : Moment) (s : State) : Result :=
  whenOn m (hearAskFrame source askId wanted.toNat) s

/-- OFFER (R93, R114, R146); one that does not fit its layout is malformed (R147). -/
def execOffer (source : Station) (askId : AskId) (asker : Station) (count : Byte) (_d : BitVec 5) (m : Moment) (s : State) : Result :=
  whenOn m
    (if wfOffer asker then hearOfferFrame source askId asker count.toNat else hearMalformed source broadcast) s

/-- TAKE (R116, R118, R146); one that does not fit its layout is malformed (R147). -/
def execTake (source dest : Station) (askId : AskId) (count : Byte) (m : Moment) (s : State) : Result :=
  whenOn m (if wfTake dest then hearTakeFrame source dest askId count.toNat m else hearMalformed source dest) s

/-- GRANT (R96, R99, R146); one that does not fit its layout is malformed (R147). -/
def execGrant (source dest : Station) (askId : AskId) (records : List GrantRecord) (m : Moment) (s : State) : Result :=
  whenOn m
    (if wfGrant dest records then hearGrantFrame source dest askId records m else hearMalformed source dest) s

/-- GIVEBACK (R123, R124, R146): the three reasons are treated alike; one that does not fit its layout is malformed (R147). -/
def execGiveback (source dest : Station) (_reason : GivebackReason) (loans : List Nat) (m : Moment) (s : State) : Result :=
  whenOn m
    (if wfGiveback dest loans then hearGivebackFrame source dest loans m else hearMalformed source dest) s

/-- HAIL (R134 to R137, R143, R146); one that does not fit its layout is malformed (R138). -/
def execHail (source : Station) (h : HailBody) (m : Moment) (s : State) : Result :=
  whenOn m (if h.wf then hearHailFrame source h m else hearMalformed source broadcast) s

/-- FRAME_HEARD (R132, R146, R147): any frame read on the link, judged from its bits. -/
def execFrameHeard (f : RawFrame) (m : Moment) (s : State) : Result := whenOn m (hearRaw f m) s

/-- PEER_AGE_EXPIRY (R133): three own presence intervals without a frame from a PRESENT station make it LOST. -/
def execPeerAgeExpiry (station : Station) (m : Moment) (s : State) : Result :=
  whenOn m
    (fun s =>
      let r := rosterOf s.roster station
      if s.cond ≠ .start ∧ r.state = .present
          ∧ isDue (r.lastHeard.map (· + Config.agingIntervals * s.profile.presenceInterval * Config.millisecond)) s.now = true then
        perform m (eventTasks station .peerLost)
          { s with roster := tableSet RosterRecord.none s.roster station.toNat { r with state := .lost } }
      else s)
    s

end Sys2Proof.Machine
end

