-- ==== Sys2Proof/Machine/LinkEvents.lean ====
section
/-! DEFINITION. The commands of an attempt on the link: its start and the ways it ends (R145, R150, R151, R153). -/

namespace Sys2Proof.Machine

/-- Whether the condition lets the station transmit at all (R153). -/
def transmits (s : State) : Bool := decide (s.cond = .ready) || decide (s.cond = .drain) || decide (s.cond = .halted)

/-- The frame in hand driven on the link (R144, R150). -/
def drive (own : Station) (h : Hand) : Hand := { h with driving := some (h.frame.raw own) }

/-- An attempt begins: with the frame in hand, or with the front frame, which becomes the frame in hand (R150). -/
def beginAttempt (s : State) : State :=
  match s.link.hand with
  | some h =>
    if h.driving.isNone && (decide (s.cond ≠ .halted) || h.frame.sentInHalted) then
      { s with link := { s.link with hand := some (drive s.own h) } }
    else s
  | none =>
    match s.link.queue with
    | [] => s
    | f :: rest =>
      if decide (s.cond ≠ .halted) || f.sentInHalted then
        { s with link := { s.link with queue := rest, hand := some (drive s.own { frame := f, retries := 0, driving := none }) } }
      else s

/-- The end or drop of a HAIL(LEAVING) takes a drained station to QUIET (R164). -/
def leavingGone (b : FrameBody) (s : State) : State :=
  match b with
  | .hail h => if h.cond = .leaving ∧ s.cond = .drain ∧ s.drainEnded = true then enterQuiet s else s
  | _ => s

/-- What the owner of a frame does when it has ended (R92, R95, R115). Log entry 38. -/
def toldEnded (b : FrameBody) (s : State) : State :=
  match b with
  | .ask askId _ =>
    if s.ask.state = .calling ∧ s.ask.askId = askId then { s with ask := { s.ask with timer := some (s.now + Config.offerWindow) } }
    else s
  | .take askId _ =>
    if s.ask.state = .taking ∧ s.ask.askId = askId ∧ grantAccepted s = false then
      { s with ask := { s.ask with timer := some (s.now + Config.grantWait) } }
    else s
  | .offer _ _ _ _ =>
    if s.offer.state = .queued ∧ s.offer.current.any (isOfferOf · b) = true then
      if s.offer.endsAtReport then endOffer s
      else { s with offer := { s.offer with state := .waiting, timer := some (s.now + Config.takeWait) } }
    else s
  | _ => leavingGone b s

/-- The frame in hand gone from its place. -/
def clearHand (s : State) : State := { s with link := { s.link with hand := none } }

/-- A frame in hand that HALTED does not send is removed once its attempt is over (R153). A HAIL or a REPLY(NOTREADY) in hand, which HALTED does
send, stays for further attempts under R150 when its attempt fails: the model's choice (log entry 44). -/
def removedByHalt (h : Hand) (s : State) : Bool := decide (s.cond = .halted) && !h.frame.sentInHalted

/-- A frame dropped after its attempts: FRAME-DROPPED is reported and counted, and the owner told (R150, R151). -/
def dropFrame (h : Hand) (s : State) : State :=
  leavingGone h.frame.body (toldDropped h.frame.body (countUp .framesDropped (report .frameDropped (clearHand s))))

/-- An attempt on the link that has failed (R150). -/
def failAttempt (h : Hand) (s : State) : State :=
  if removedByHalt h s then toldDropped h.frame.body (clearHand s)
  else if h.retries < Config.lastRetry then
    { s with link := { s.link with hand := some { h with retries := h.retries + 1, driving := none } } }
  else dropFrame h s

/-- An attempt on the link that has lost arbitration (R145, R150). -/
def loseArbitration (h : Hand) (s : State) : State :=
  if removedByHalt h s then toldDropped h.frame.body (clearHand s)
  else { s with link := { s.link with hand := some { h with driving := none } } }

/-- Act on the frame in hand when an attempt of it is on the link; else nothing happens (log entry 3). -/
def withAttempt (f : Hand → State → State) (s : State) : State :=
  match s.link.hand with
  | some h => if h.driving.isSome then f h s else s
  | none => s

/-- ATTEMPT_START (R145, R150, R153). -/
def execAttemptStart (m : Moment) (s : State) : Result :=
  whenOn m (fun s => if transmits s then beginAttempt s else s) s

/-- ARBITRATION_LOST (R145, R150). -/
def execArbitrationLost (m : Moment) (s : State) : Result := whenOn m (withAttempt loseArbitration) s

/-- FRAME_ENDED (R150): the frame leaves and its owner is told, its end being the time of the event. -/
def execFrameEnded (m : Moment) (s : State) : Result :=
  whenOn m (withAttempt fun h s => settle m (toldEnded h.frame.body (clearHand s))) s

/-- ATTEMPT_FAILED (R150). -/
def execAttemptFailed (m : Moment) (s : State) : Result := whenOn m (withAttempt fun h s => settle m (failAttempt h s)) s

end Sys2Proof.Machine
end

