-- ==== Sys2Proof/Machine/Requests.lean ====
section
/-! DEFINITION. The commands that take a request from the request buffer (spec/02, spec/03, spec/04, spec/11). -/

namespace Sys2Proof.Machine

/-- Whether the map engine takes a request now: nothing is being handled, there is room for the answer, and the condition lets it (R34,
R64, R164, R168). -/
def canTake (s : State) : Bool :=
  !isBusy s && hasReplyPlace s
    && (decide (s.cond = .ready) || (decide (s.cond = .drain) && !s.drainEnded) || decide (s.cond = .halted))

/-- Take the oldest request, when the map engine can and the request is one that `handle` handles; else nothing happens (R34; log entry
3). -/
def takeRequest (handle : Station → Request → State → Option State) (m : Moment) (s : State) : State :=
  if canTake s then
    match s.buffer with
    | [] => s
    | f :: rest =>
      match handle f.source (parseRequest s.fresh f) { s with buffer := rest } with
      | some s' => settle m s'
      | none => s
  else s

/-- The free values of one answer used up (log entries 15 and 16). -/
def useFresh (s : State) : State := { s with fresh := s.fresh + 1 }

/-- Begin a request that may write map memory: the REPLY's place is reserved (R149). -/
def beginRequest (t : Task) (s : State) : State := { reserveReply s with tasks := [t] }

/-- LOOKUP_READ (R36, R38, R39). -/
def execLookupRead (m : Moment) (s : State) : Result :=
  whenOn m
    (takeRequest
      (fun source req s =>
        match req with
        | .lookup false v c tag =>
          let a := readAnswer s v c
          some (answer source (placeReply s.own tag a.1 v c a.2) s)
        | _ => none)
      m)
    s

/-- LOOKUP_WRITE (R36, R38, R40 to R48). -/
def execLookupWrite (m : Moment) (s : State) : Result :=
  whenOn m
    (takeRequest
      (fun source req s =>
        match req with
        | .lookup true v c tag => some (beginRequest (.lookupWrite source v c tag) s)
        | _ => none)
      m)
    s

/-- COMMIT (R36, R49). -/
def execCommit (m : Moment) (s : State) : Result :=
  whenOn m
    (takeRequest
      (fun source req s =>
        match req with
        | .commit v c tag => some (beginRequest (.commit source v c tag) s)
        | _ => none)
      m)
    s

/-- TRIM (R59, R60). -/
def execTrim (m : Moment) (s : State) : Result :=
  whenOn m
    (takeRequest
      (fun source req s =>
        match req with
        | .trim v first count tag => some (beginRequest (.trim source v first count tag) s)
        | _ => none)
      m)
    s

/-- VOLUME_CREATE (R23, R24, R28). -/
def execVolumeCreate (m : Moment) (s : State) : Result :=
  whenOn m
    (takeRequest
      (fun source req s =>
        match req with
        | .create v size tag => some (beginRequest (.volumeCreate source v size tag) s)
        | _ => none)
      m)
    s

/-- VOLUME_DELETE (R23, R26, R28). -/
def execVolumeDelete (m : Moment) (s : State) : Result :=
  whenOn m
    (takeRequest
      (fun source req s =>
        match req with
        | .delete v tag => some (beginRequest (.volumeDelete source v tag) s)
        | _ => none)
      m)
    s

/-- VOLUME_GROW (R23, R25, R28). -/
def execVolumeGrow (m : Moment) (s : State) : Result :=
  whenOn m
    (takeRequest
      (fun source req s =>
        match req with
        | .grow v size tag => some (beginRequest (.volumeGrow source v size tag) s)
        | _ => none)
      m)
    s

/-- The status of a STATUS or CLEAR answer: NOTREADY in HALTED (R37, R171, R172). -/
def recordStatus (cond : Condition) : Status := if cond = .halted then .notReady else .ok

/-- The figures of page 0 as they stand (R171); the count of a structure that was not read is free within its range (log entry 15). -/
def pageZeroOf (s : State) : PageZero :=
  { condition := s.cond.code, cause := s.cause.code, restartCount := s.restartCount, identity := s.identity, serial := s.serial,
    formatCount := s.formatCount, p := s.p, f := s.f,
    spares := if s.loanUp then s.mm.spares.length else min (Config.unreadSpares s.fresh).toNat Config.sparePlaces
    loans := if s.loanUp then s.mm.loans.length else min (Config.unreadLoans s.fresh).toNat Config.loanNumbers
    pendings := if s.headerRead then s.mm.pendings.length else min (Config.unreadPendings s.fresh).toNat Config.pendingPlaces
    trims := if s.headerRead then s.mm.trims.length else min (Config.unreadTrims s.fresh).toNat Config.trimPlaces
    q := lendableShare s.figures }

/-- The page 1 part as the record stands (R171). -/
def pageOneOf (s : State) : ReplyPart := .pageOne s.faults.flags s.faults.counts

/-- A STATUS or CLEAR answer with its page (R35, R171, R172). -/
def recordReply (s : State) (tag : Nat) (part : ReplyPart) : Reply :=
  { tag := tag, status := recordStatus s.cond, volume := 0, chunk := 0, part := part }

/-- STATUS_PAGE_0 (R37, R171). -/
def execStatusPage0 (m : Moment) (s : State) : Result :=
  whenOn m
    (takeRequest
      (fun source req s =>
        match req with
        | .pageZero tag => some (answer source (recordReply s tag (.pageZero (pageZeroOf s))) (useFresh s))
        | _ => none)
      m)
    s

/-- STATUS_PAGE_1 (R37, R171). -/
def execStatusPage1 (m : Moment) (s : State) : Result :=
  whenOn m
    (takeRequest
      (fun source req s =>
        match req with
        | .pageOne tag => some (answer source (recordReply s tag (pageOneOf s)) s)
        | _ => none)
      m)
    s

/-- CLEAR (R37, R172): the flags and counters go, ATTENTION is judged, and the answer shows page 1 after it. -/
def execClear (m : Moment) (s : State) : Result :=
  whenOn m
    (takeRequest
      (fun source req s =>
        match req with
        | .clear named zero tag =>
          let s := judgeAttention { s with faults := s.faults.clear named zero }
          some (answer source (recordReply s tag (pageOneOf s)) s)
        | _ => none)
      m)
    s

/-- The status of a request that is not carried out: NOTREADY in HALTED, BADREQ elsewhere (R23, R36, R59, R171, R172). -/
def refusalStatus (cond : Condition) : Status := if cond = .halted then .notReady else .badReq

/-- MALFORMED_REQUEST (R23, R36, R147, R171, R172): BADREQ, or NOTREADY in HALTED. A payload off its layout is answered with no part; an
unknown VOLUME action as every VOLUME request is, with the size of an ACTIVE volume (R23; log entries 16, 46). -/
def execMalformedRequest (m : Moment) (s : State) : Result :=
  whenOn m
    (takeRequest
      (fun source req s =>
        match req with
        | .malformed v c tag => some (answer source (plainReply tag (refusalStatus s.cond) v c) (useFresh s))
        | .unknownAction v tag => some (answer source (volumeReply (volumesRead s) s.mm tag (refusalStatus s.cond) v) s)
        | _ => none)
      m)
    s

end Sys2Proof.Machine
end

