-- ==== Sys2Proof/Machine/Dispatch.lean ====
section
/-! DEFINITION. The meaning of each command: one arm, one call. -/

namespace Sys2Proof.Machine

def exec (i : Instr) (s : State) : Host.Outcome State Fault Refusal :=
  match i with
  | .powerOn pins rom takes m => Sys2Proof.Machine.execPowerOn pins rom takes m s
  | .resetPin lowFor pins rom takes m => Sys2Proof.Machine.execResetPin lowFor pins rom takes m s
  | .bayAbsent bay heldFor m => Sys2Proof.Machine.execBayAbsent bay heldFor m s
  | .bayPresent bay heldFor m => Sys2Proof.Machine.execBayPresent bay heldFor m s
  | .serviceAsserted heldFor m => Sys2Proof.Machine.execServiceAsserted heldFor m s
  | .serviceReleased heldFor bayLines m => Sys2Proof.Machine.execServiceReleased heldFor bayLines m s
  | .requestFrameReceived f m => Sys2Proof.Machine.execRequestFrameReceived f m s
  | .lookupRead m => Sys2Proof.Machine.execLookupRead m s
  | .lookupWrite m => Sys2Proof.Machine.execLookupWrite m s
  | .commit m => Sys2Proof.Machine.execCommit m s
  | .trim m => Sys2Proof.Machine.execTrim m s
  | .volumeCreate m => Sys2Proof.Machine.execVolumeCreate m s
  | .volumeDelete m => Sys2Proof.Machine.execVolumeDelete m s
  | .volumeGrow m => Sys2Proof.Machine.execVolumeGrow m s
  | .statusPage0 m => Sys2Proof.Machine.execStatusPage0 m s
  | .statusPage1 m => Sys2Proof.Machine.execStatusPage1 m s
  | .clear m => Sys2Proof.Machine.execClear m s
  | .ask source askId wanted m => Sys2Proof.Machine.execAsk source askId wanted m s
  | .offer source askId asker count d m => Sys2Proof.Machine.execOffer source askId asker count d m s
  | .take source dest askId count m => Sys2Proof.Machine.execTake source dest askId count m s
  | .grant source dest askId records m => Sys2Proof.Machine.execGrant source dest askId records m s
  | .giveback source dest reason loans m => Sys2Proof.Machine.execGiveback source dest reason loans m s
  | .hail source h m => Sys2Proof.Machine.execHail source h m s
  | .frameHeard f m => Sys2Proof.Machine.execFrameHeard f m s
  | .attemptStart m => Sys2Proof.Machine.execAttemptStart m s
  | .arbitrationLost m => Sys2Proof.Machine.execArbitrationLost m s
  | .frameEnded m => Sys2Proof.Machine.execFrameEnded m s
  | .attemptFailed m => Sys2Proof.Machine.execAttemptFailed m s
  | .holdExpiry m => Sys2Proof.Machine.execHoldExpiry m s
  | .walkerPeriod m => Sys2Proof.Machine.execWalkerPeriod m s
  | .offerWindowExpiry m => Sys2Proof.Machine.execOfferWindowExpiry m s
  | .grantWaitExpiry m => Sys2Proof.Machine.execGrantWaitExpiry m s
  | .backoffExpiry m => Sys2Proof.Machine.execBackoffExpiry m s
  | .offerTimerExpiry m => Sys2Proof.Machine.execOfferTimerExpiry m s
  | .takeWaitExpiry m => Sys2Proof.Machine.execTakeWaitExpiry m s
  | .returnStep m => Sys2Proof.Machine.execReturnStep m s
  | .peerAgeExpiry station m => Sys2Proof.Machine.execPeerAgeExpiry station m s
  | .hailTimerExpiry m => Sys2Proof.Machine.execHailTimerExpiry m s
  | .joinTimerExpiry m => Sys2Proof.Machine.execJoinTimerExpiry m s
  | .drainTimerExpiry m => Sys2Proof.Machine.execDrainTimerExpiry m s
  | .powerLoss takes => Sys2Proof.Machine.execPowerLoss takes s
  | .malformedRequest m => Sys2Proof.Machine.execMalformedRequest m s
  | .mapMemoryWriteCompletion ok m => Sys2Proof.Machine.execMapMemoryWriteCompletion ok m s

end Sys2Proof.Machine
end

