-- ==== Sys2Proof/Safety.lean ====
section
/-! DEFINITION. What a sound UC2410 keeps: the laws the manual states over the whole station, as properties of its state. -/

namespace Sys2Proof.Machine

/-- The supply is on, no map memory write is in progress and no event waits for one. -/
def AtRest (s : State) : Prop := s.powered = true ∧ s.inflight = none ∧ s.tasks = []

/-- `u` is the station `s`, its supply on, at the time of an event. -/
def OnAt (m : Moment) (s u : State) : Prop := s.powered = true ∧ u = advance m.time s

/-- `u` is the station `s`, at rest, at the time of an event. -/
def RestAt (m : Moment) (s u : State) : Prop := AtRest s ∧ u = advance m.time s

/-- The conditions in which requests are taken: READY, HALTED, and DRAIN before its end (R64, R164). -/
def servesRequests (s : State) : Prop := s.cond = .ready ∨ (s.cond = .drain ∧ s.drainEnded = false) ∨ s.cond = .halted

/-- `u` is the station `s` at an event at which the map engine takes `f`, the oldest request of the buffer (R34). -/
structure Takes (m : Moment) (s u : State) (f : RawFrame) (rest : List RawFrame) : Prop where
  calm : RestAt m s u
  buffer : s.buffer = f :: rest
  room : hasReplyPlace s = true
  serves : servesRequests s

/-- The station with the oldest request taken and its answer queued, and nothing else changed. -/
def withAnswer (f : RawFrame) (rest : List RawFrame) (r : Reply) (s : State) : State :=
  pushFrame { dest := f.source, body := .reply r } { s with buffer := rest }

/-- The station with a frame heard noted: its source's last heard is now, and the acknowledge slot is driven or not (R132, R148). -/
def withHeard (source : Station) (acks : Bool) (s : State) : State := { noteSource source s with ackDriven := acks }

/-- `t` is the station a full start of `s` at `m` leaves, whatever the start came to: JOIN has been entered and every volatile structure
holds what a start leaves in it (R131, R154, R156, R157, R161, R169). -/
structure StartedAfresh (m : Moment) (s : State) (pins : StartPins) (t : State) : Prop where
  on : t.powered = true
  queue : t.pending = s.pending
  now : t.now = max s.now m.time
  cond : t.cond = .join
  own : t.own = if pins.strap = 15 then 14 else pins.strap
  joinTimer : t.joinTimer = some (t.now + t.profile.presenceInterval * Config.millisecond)
  otherTimers : t.drainTimer = none ∧ t.hailTimer = none ∧ t.walkerTimer = none
  pins : t.bayLines = pins.bayLines ∧ t.serviceLine = pins.serviceHigh ∧ t.servicePin = pins.serviceHigh
  rotor : t.rotor = 0
  roster : t.roster = []
  ask : t.ask = AskMachine.reset
  offer : t.offer = OfferMachine.reset
  lastGrants : t.lastGrants = []
  link : t.link.hand = none ∧ t.link.reservedReplies = 0 ∧ t.link.reservedOthers = 0
  buffer : t.buffer = []
  counts : t.faults.counts = Counts.zero
  attention : t.attention = attentionOf .join t.faults
  rest : t.inflight = none ∧ t.tasks = []

/-! ## The link, the pins and the machines -/

/-- No attempt is on the link. -/
def notDriving (s : State) : Prop := ∀ h, s.link.hand = some h → h.driving = none

/-- The conditions in which a station transmits no frame (R156). -/
def isSilent (c : Condition) : Prop := c = .start ∨ c = .join ∨ c = .quiet ∨ c = .mute

/-- A station in START, JOIN, MUTE or QUIET transmits no frame (R156). -/
def SilentLaw (s : State) : Prop := isSilent s.cond → notDriving s

/-- ATTENTION is asserted while a set flag is enabled, and released throughout START (R170). -/
def AttentionLaw (s : State) : Prop := s.attention = attentionOf s.cond s.faults

/-- The bounds and the order of the outbound queue, and the bound of the request buffer (R148, R149, R150). -/
structure QueueLaw (s : State) : Prop where
  places : s.link.occupied ≤ Config.outboundPlaces
  replies : s.link.replies ≤ Config.replyPlaces
  order : s.link.queue.Pairwise fun a b => a.rank ≤ b.rank
  retries : ∀ h, s.link.hand = some h → h.retries ≤ Config.lastRetry
  buffer : s.buffer.length ≤ Config.bufferPlaces

/-- The timers and the offer stand as the states of the two machines say, and no offer is ARMED while an ask is in flight (R89, R111,
R113). -/
structure MachineLaw (s : State) : Prop where
  askIdle : s.ask.state = .idle → s.ask.timer = none
  askBackoff : s.ask.state = .backoff → s.ask.timer ≠ none
  askFailures : s.ask.failures ≤ Config.failureTop
  offerIdle : s.offer.state = .idle ↔ s.offer.current = none
  offerIdleTimer : s.offer.state = .idle → s.offer.timer = none
  offerArmed : s.offer.state = .armed → s.offer.timer ≠ none
  offerQueued : s.offer.state = .queued → s.offer.timer = none
  offerWaiting : s.offer.state = .waiting → s.offer.timer ≠ none
  offered : ∀ o, s.offer.current = some o → 1 ≤ o.n ∧ o.n ≤ 8 ∧ o.d ≤ 31
  apart : s.offer.state = .armed → askInFlight s = false

/-- The roster's records stand under the numbers 0 to 14, and a PRESENT record always holds a kind and an epoch, and when it was last
heard (R131, R132). -/
structure RosterLaw (s : State) : Prop where
  canonical : tableWfRest RosterRecord.none s.roster
  numbers : ∀ p ∈ s.roster, p.1 < 15
  present : ∀ p ∈ s.roster, p.2.state = .present → p.2.kind ≠ none ∧ p.2.epoch ≠ none ∧ p.2.lastHeard ≠ none

/-- The fault record's counters stay within 16 bits (R169). -/
def CounterLaw (s : State) : Prop :=
  s.faults.counts.framesDropped ≤ Config.counterTop ∧ s.faults.counts.staleGivebacks ≤ Config.counterTop
    ∧ s.faults.counts.askFailures ≤ Config.counterTop ∧ s.faults.counts.noSpaceAnswers ≤ Config.counterTop

/-! ## Map memory -/

/-- A law of map memory holds, and the write in progress keeps it. -/
def memoryHolds (law : MapMemory → Prop) (s : State) : Prop := law s.mm ∧ ∀ w, s.inflight = some w → law w.image

/-- Every structure of map memory stands in its canonical form, so that there is at most one record under a number (R3, R18, R32, R106,
R120). -/
structure Canonical (mm : MapMemory) : Prop where
  volumes : tableWfRest Volume.none mm.volumes
  chunks : tableWf mm.chunks
  loans : tableWf mm.loans
  peers : tableWfRest PeerCapacity.none mm.peers
  freeSets : ∀ x ∈ mm.freeSets, x.wf

/-- Every structure of map memory is within its capacity (R18, R32, R50, R58, R101, R120). -/
structure Fits (mm : MapMemory) : Prop where
  sizes : ∀ p ∈ mm.volumes, p.2.size ≤ Config.maxVolume
  chunks : mm.chunks.length ≤ Config.mapPlaces
  pendings : mm.pendings.length ≤ Config.pendingPlaces
  pendingChunks : ∀ r ∈ mm.pendings, r.chunk < Config.maxVolume
  trims : mm.trims.length ≤ Config.trimPlaces
  ranges : ∀ r ∈ mm.trims, r.last < Config.maxVolume
  loans : mm.loans.length ≤ Config.loanNumbers
  spares : mm.spares.length ≤ Config.sparePlaces

/-- How many LOCAL entries hold a grain. -/
def localCount (mm : MapMemory) (bay grain : Nat) : Nat := mm.chunks.countP fun p => p.2.place == .here bay grain

/-- How many loan records hold a grain. -/
def loanCount (mm : MapMemory) (bay grain : Nat) : Nat := mm.loans.countP fun p => p.2.bay == bay && p.2.grain == grain

/-- A grain of the shelf is free, or it has exactly one holder (R4): a grain that is not in its bay's free set is in one LOCAL entry or
one loan record, and a free one is in none. The free sets are those of the bays of the geometry record, each over its bay's grain count. -/
structure GrainLaw (mm : MapMemory) : Prop where
  geometry : ∀ g, mm.geometry = some g → mm.freeSets.map (·.count) = g.grainCounts
  holders : ∀ bay fs, mm.freeSets[bay]? = some fs →
    ∀ grain, localCount mm bay grain + loanCount mm bay grain = if grain ∈ fs.held then 1 else 0

/-- How many LOCAL entries lie on a bay. -/
def localOn (mm : MapMemory) (bay : Nat) : Nat :=
  mm.chunks.countP fun p =>
    match p.2.place with
    | .here b _ => b == bay
    | .remote _ _ _ _ _ => false

/-- How many loan records lie on a bay. -/
def loansOn (mm : MapMemory) (bay : Nat) : Nat := mm.loans.countP fun p => p.2.bay == bay

/-- The pending list is in order of expiry, and it names each PENDING entry once and nothing else (R50). -/
structure PendingLaw (mm : MapMemory) : Prop where
  named : ∀ r ∈ mm.pendings,
    ∃ e, entryOf mm r.volume r.chunk = some e ∧ e.state = .pending r.requester r.tag r.expiry
  listed : ∀ v c e requester tag expiry, c < Config.maxVolume → entryOf mm v c = some e →
    e.state = .pending requester tag expiry →
    { volume := v, chunk := c, requester := requester, tag := tag, expiry := expiry } ∈ mm.pendings
  once : (mm.pendings.map fun r => (r.volume, r.chunk)).Nodup
  order : mm.pendings.Pairwise fun a b => a.expiry ≤ b.expiry

/-- No entry's shield count exceeds the covering count of its chunk (R62). -/
def ShieldLaw (mm : MapMemory) : Prop :=
  ∀ v c e, c < Config.maxVolume → entryOf mm v c = some e → e.shield ≤ coveringCount mm v c

/-- The (lender, loan number) pairs of the spare list and of the REMOTE entries (R101). -/
def loanPairs (mm : MapMemory) : List (Station × Nat) :=
  mm.spares.map (fun x => (x.lender, x.loan))
    ++ mm.chunks.filterMap fun p =>
      match p.2.place with
      | .remote lender loan _ _ _ => some (lender, loan)
      | .here _ _ => none

/-- No (lender, loan number) pair stands twice among the spares and the REMOTE entries (R101). -/
def PairLaw (mm : MapMemory) : Prop := (loanPairs mm).Nodup

/-- A volume's count is the number of its entries, and every entry lies below the nominal size of an ACTIVE or RETIRING volume (R18, R20). A
RETIRING volume's entries all lie in what its one DELETE range still has to visit, and a DELETE range is of a RETIRING volume (R26, R27). -/
structure VolumeLaw (mm : MapMemory) : Prop where
  counts : ∀ v, (volumeOf mm v).count = mm.chunks.countP fun p => p.1 / Config.maxVolume == v
  placed : ∀ p ∈ mm.chunks, (volumeOf mm (p.1 / Config.maxVolume)).state ≠ .free
    ∧ p.1 % Config.maxVolume < (volumeOf mm (p.1 / Config.maxVolume)).size
  retiring : ∀ p ∈ mm.chunks, (volumeOf mm (p.1 / Config.maxVolume)).state = .retiring →
    ∃ r ∈ mm.trims, r.volume = p.1 / Config.maxVolume ∧ r.origin = .delete
      ∧ r.cursor ≤ p.1 % Config.maxVolume ∧ p.1 % Config.maxVolume ≤ r.last
  deletes : ∀ r ∈ mm.trims, r.origin = .delete → (volumeOf mm r.volume).state = .retiring
  once : ((mm.trims.filter fun r => r.origin = .delete).map (·.volume)).Nodup

/-- A RETIRING volume whose DELETE range is over: it has no entry and no DELETE range (R27). -/
structure Emptied (mm : MapMemory) (v : Nat) : Prop where
  state : (volumeOf mm v).state = .retiring
  entries : ∀ p ∈ mm.chunks, p.1 / Config.maxVolume ≠ v
  ranges : ∀ r ∈ mm.trims, r.origin = .delete → r.volume ≠ v

/-- Whether an event still to be taken makes a volume FREE. -/
def isFreeing (t : Task) : Bool :=
  match t with
  | .freeVolume _ => true
  | _ => false

/-- A volume is made FREE only after the end of its DELETE range (R27): the event that does it is the next one to be taken, or follows at
once the write in progress, and the volume is then emptied. -/
structure FreeLaw (s : State) : Prop where
  next : (s.tasks.drop 1).all (fun t => !isFreeing t) = true
  head : ∀ r rest, s.tasks = .freeVolume r :: rest → s.inflight = none ∧ Emptied s.mm r.volume
  write : ∀ w, s.inflight = some w → (w.onDone.drop 1 ++ w.goOn ++ w.onFail).all (fun t => !isFreeing t) = true
    ∧ ∀ r rest, w.onDone = .freeVolume r :: rest → Emptied w.image r.volume

/-- Every spare is under its lender's known epoch, and a lender's spare count is the number of its spares (R101, R106). -/
structure SpareLaw (mm : MapMemory) : Prop where
  epochs : ∀ x ∈ mm.spares, (peerOf mm x.lender).known = some x.epoch
  counts : ∀ st : Station, (peerOf mm st).spare = mm.spares.countP fun x => x.lender == st

/-- A drain that is neither ended nor forced has something to wait for, or its quiet condition is still to be judged (R163, R164). -/
def DrainLaw (s : State) : Prop :=
  s.cond = .drain → s.drainEnded = false → s.drainTimer ≠ none → quietCondition s = false ∨ Task.judgeQuiet ∈ s.tasks

/-- The epoch a header holds (R130). -/
def Header.epoch (h : Header) : Epoch := { serial := h.serial, formatCount := h.formatCount }

end Sys2Proof.Machine
end

