-- ==== Sys2Proof/Certificates/Slice0/Obligations.lean ====
section
/-! DEFINITION. The statements: what the manual's rules say of the station, one statement for each definition.

In the statements of requests `Takes m s u f rest` says that the station s, at rest and with room for a REPLY, takes the request f at m, u being
s at that time; `withAnswer` is u with f taken and the REPLY queued, and nothing else changed. In those of frames heard `withHeard source acks u`
is u with the source's last-heard time noted and the acknowledge slot driven or not (R132, R148). -/

section

open Sys2Proof Sys2Proof.Machine

/-! ## The queue of commands, the station after reset, and what every step keeps -/

/-- A step runs the command at the front of the queue with the queue's rest; on an empty queue the station idles. The queue of commands and
the idling are the model's (log entries 3 and 5). -/
def Obligations.StepTakesFrontCommand : Prop :=
  (∀ c rest s, s.pending = c :: rest → step s = exec c { s with pending := rest })
    ∧ ∀ s, s.pending = [] → step s = .next s

/-- Every command answers a next state, which leaves the waiting commands alone and does not go back in time (log entries 3 and 4). -/
def Obligations.CommandsComplete : Prop :=
  ∀ c s, ∃ t, exec c s = .next t ∧ t.pending = s.pending ∧ s.now ≤ t.now

/-- Every law of Safety.lean holds of the station right after reset. -/
def Obligations.ResetSound : Prop :=
  AtRest State.reset ∧ SilentLaw State.reset ∧ AttentionLaw State.reset ∧ QueueLaw State.reset ∧ MachineLaw State.reset
    ∧ RosterLaw State.reset ∧ CounterLaw State.reset ∧ FreeLaw State.reset ∧ DrainLaw State.reset
    ∧ memoryHolds
        (fun mm => Canonical mm ∧ Fits mm ∧ VolumeLaw mm ∧ GrainLaw mm ∧ PendingLaw mm ∧ ShieldLaw mm ∧ PairLaw mm ∧ SpareLaw mm)
        State.reset

/-- A station in START, JOIN, MUTE or QUIET has no attempt on the link (R156). ATTENTION always stands as the set flags, their enables and
START say, and the four counters stay within 16 bits (R169, R170). The outbound queue and the request buffer stay within their bounds and in
order (R148, R149, R150). -/
def Obligations.LinkAndFaultsKept : Prop :=
  (∀ s t, SilentLaw s → step s = .next t → SilentLaw t)
  ∧ (∀ s t, AttentionLaw s → step s = .next t → AttentionLaw t)
  ∧ (∀ s t, CounterLaw s → step s = .next t → CounterLaw t)
  ∧ (∀ s t, QueueLaw s → step s = .next t → QueueLaw t)

/-- The timers of the ask and offer machines stand as their states say, and no offer is ARMED while an ask is in flight (R89, R111, R113). A
PRESENT roster record always holds a kind, an epoch and when it was last heard (R131, R132). -/
def Obligations.MachinesAndRosterKept : Prop :=
  (∀ s t, MachineLaw s → step s = .next t → MachineLaw t)
  ∧ (∀ s t, RosterLaw s → step s = .next t → RosterLaw t)

/-- Map memory stays in its canonical form and within the capacities of its structures (R3, R18, R32, R50, R58, R101, R120). -/
def Obligations.MemoryKept : Prop :=
  ∀ s t, memoryHolds (fun mm => Canonical mm ∧ Fits mm) s → step s = .next t → memoryHolds (fun mm => Canonical mm ∧ Fits mm) t

/-- Every volume's count is the number of its entries, and every entry lies below the nominal size of an ACTIVE or RETIRING volume; a
RETIRING volume's entries all lie where its one DELETE range has still to go, and it is made FREE only once it has none (R18, R20, R26, R27,
R29). -/
def Obligations.VolumesKept : Prop :=
  ∀ s t, memoryHolds (fun mm => Canonical mm ∧ Fits mm ∧ VolumeLaw mm) s → FreeLaw s → step s = .next t →
    memoryHolds (fun mm => Canonical mm ∧ Fits mm ∧ VolumeLaw mm) t ∧ FreeLaw t

/-- A grain is free, in one LOCAL entry or in one loan record, and never in two of these (R4). -/
def Obligations.GrainsKept : Prop :=
  ∀ s t, memoryHolds (fun mm => Canonical mm ∧ Fits mm ∧ GrainLaw mm) s → step s = .next t →
    memoryHolds (fun mm => Canonical mm ∧ Fits mm ∧ GrainLaw mm) t

/-- The pending list names each PENDING entry once and nothing else, in order of expiry (R50). -/
def Obligations.PendingsKept : Prop :=
  ∀ s t, memoryHolds (fun mm => Canonical mm ∧ Fits mm ∧ PendingLaw mm) s → step s = .next t →
    memoryHolds (fun mm => Canonical mm ∧ Fits mm ∧ PendingLaw mm) t

/-- No entry's shield count exceeds the covering count of its chunk (R62). -/
def Obligations.ShieldsKept : Prop :=
  ∀ s t, memoryHolds (fun mm => Canonical mm ∧ Fits mm ∧ ShieldLaw mm) s → step s = .next t →
    memoryHolds (fun mm => Canonical mm ∧ Fits mm ∧ ShieldLaw mm) t

/-- No loan of a lender stands twice among the spares and the REMOTE entries (R101); every spare is under its lender's known epoch, and a
lender's spare count is the number of its spares (R101, R106). -/
def Obligations.PairsKept : Prop :=
  (∀ s t, memoryHolds (fun mm => Canonical mm ∧ Fits mm ∧ PairLaw mm) s → step s = .next t →
    memoryHolds (fun mm => Canonical mm ∧ Fits mm ∧ PairLaw mm) t)
  ∧ (∀ s t, memoryHolds (fun mm => Canonical mm ∧ Fits mm ∧ SpareLaw mm) s → step s = .next t →
    memoryHolds (fun mm => Canonical mm ∧ Fits mm ∧ SpareLaw mm) t)

/-- A station does not stay in a drain whose quiet condition holds: after every step, a drain that is neither ended nor forced still has
something to wait for, or the judgement is still to be taken after a map memory write. So whatever command takes the last pending record,
range or spare of a present lender away in DRAIN ends the drain (R163, R164; log entries 6 and 7). -/
def Obligations.DrainsKept : Prop :=
  ∀ s t, memoryHolds (fun mm => Canonical mm ∧ Fits mm ∧ SpareLaw mm) s → RosterLaw s → DrainLaw s → step s = .next t → DrainLaw t

/-- In a station at rest the epoch in the header changes at no command but a full start: no request, frame, timer, drain, resume start or map
memory error touches it (R130). -/
def Obligations.EpochKept : Prop :=
  ∀ c s t, AtRest s → (∀ pins rom takes m, c ≠ .powerOn pins rom takes m) →
    (∀ lowFor pins rom takes m, c ≠ .resetPin lowFor pins rom takes m) → exec c s = .next t →
    t.mm.header.map Header.epoch = s.mm.header.map Header.epoch ∧ t.mm.geometry = s.mm.geometry

/-! ## The grain pool (spec/01) -/

/-- The low and the high mark (R13); short and flush: never both, neither with an empty pool, never short at a low permille of 0, never flush
at a high mark of P (R14). -/
def Obligations.MarksShortFlush : Prop :=
   (∀ p low high, low ≤ 1000 → high ≤ 1000 →
      (low < high → effectiveHigh low high = high)
      ∧ (high ≤ low → effectiveHigh low high = min 1000 (low + 50))
      ∧ (∀ a, lowMark p low = a ↔ p * low ≤ 1000 * a ∧ 1000 * a < p * low + 1000)
      ∧ (∀ a, highMark p low high = a ↔
          p * effectiveHigh low high ≤ 1000 * a ∧ 1000 * a < p * effectiveHigh low high + 1000)
      ∧ low ≤ effectiveHigh low high ∧ lowMark p low ≤ highMark p low high ∧ highMark p low high ≤ p
      ∧ lowMark p 0 = 0 ∧ effectiveHigh 1000 high = 1000 ∧ lowMark p 1000 = p ∧ highMark p 1000 high = p)
  ∧ (∀ s : State, s.profile.lowPermille ≤ 1000 → s.profile.highPermille ≤ 1000 →
      (s.short = true ↔ s.f < lowMark s.p s.profile.lowPermille)
      ∧ (s.flush = true ↔ highMark s.p s.profile.lowPermille s.profile.highPermille < s.f)
      ∧ s.f ≤ s.p
      ∧ ¬ (s.short = true ∧ s.flush = true)
      ∧ (s.p = 0 → s.short = false ∧ s.flush = false)
      ∧ (s.profile.lowPermille = 0 → s.short = false)
      ∧ (highMark s.p s.profile.lowPermille s.profile.highPermille = s.p → s.flush = false))

/-- A take of one grain: from the rotor on, the first PRESENT bay with a free grain gives its lowest one and the rotor moves to the bay after
it; when no PRESENT bay has one nothing changes (R9). A request for several grains gives as many as asked for or as are free: it is takes of
one grain, one after another, each from the free sets and the rotor as the take before left them, so the rotor ends after the bay of the last
grain. Each grain is of a PRESENT bay, was free and is given once; every other grain of every bay is as before, and F falls by their number
(R10). -/
def Obligations.GrainsTaken : Prop :=
   (∀ (presence : List Bool) (sets : List FreeSet) (rotor : Nat), rotor < presence.length → sets.length = presence.length →
      (∀ x ∈ sets, x.wf) →
      let t := takeGrains presence 1 sets rotor
      (t.grains = [] → t.sets = sets ∧ t.rotor = rotor ∧ poolFree presence sets = 0)
      ∧ ∀ bay grain more, t.grains = (bay, grain) :: more →
          more = [] ∧ presence[bay]? = some true
          ∧ (∃ x, sets[bay]? = some x ∧ x.has grain = true ∧ (∀ g, g < grain → x.has g = false)
              ∧ ∃ y, t.sets = sets.set bay y ∧ y.count = x.count ∧ ∀ g, y.has g = (x.has g && g != grain))
          ∧ t.rotor = (bay + 1) % presence.length
          ∧ poolFree presence sets = poolFree presence t.sets + 1
          ∧ ∃ steps, steps < presence.length ∧ bay = (rotor + steps) % presence.length
              ∧ ∀ i, i < steps → bayOffers presence sets ((rotor + i) % presence.length) = none)
  ∧ (∀ (presence : List Bool) (sets : List FreeSet) (rotor n : Nat), rotor < presence.length → sets.length = presence.length →
      (∀ x ∈ sets, x.wf) →
      let t := takeGrains presence n sets rotor
      t.grains.length = min n (poolFree presence sets)
      ∧ poolFree presence sets = poolFree presence t.sets + t.grains.length
      ∧ poolSize presence t.sets = poolSize presence sets
      ∧ t.grains.Nodup
      ∧ (∀ p ∈ t.grains, presence[p.1]? = some true ∧ ∃ x, sets[p.1]? = some x ∧ x.has p.2 = true)
      ∧ t.sets.length = sets.length
      ∧ (∀ bay x, sets[bay]? = some x →
          ∃ y, t.sets[bay]? = some y ∧ y.count = x.count ∧ ∀ g, y.has g = (x.has g && !t.grains.contains (bay, g)))
      ∧ (t.grains = [] → t.rotor = rotor)
      ∧ (∀ p, t.grains.getLast? = some p → t.rotor = (p.1 + 1) % presence.length)
      ∧ ∀ k, n = k + 1 →
          let first := takeGrains presence 1 sets rotor
          let others := takeGrains presence k first.sets first.rotor
          first.grains ≠ [] → t.grains = first.grains ++ others.grains ∧ t.sets = others.sets ∧ t.rotor = others.rotor)

/-- A bay that has held its line high for 20 ms while PRESENT is ABSENT: P and F lose its grains, BAY-CHANGE is reported and R90 judged;
map memory is as before (R5, R6). A bay that has held it low for 20 ms while ABSENT is PRESENT again (R7). A level that has not held for 20 ms,
or that is the level of its bay's state, is noted and changes nothing else (log entry 27). While a map memory write is in progress R90 is
judged after it, by the figures that then stand: the model's choice (log entry 7). -/
def Obligations.BayChanges : Prop :=
   (∀ (bay : Fin 24) heldFor m s u x, RestAt m s u → u.poolUp = true → Config.lineHold ≤ heldFor →
      u.mm.freeSets.length = u.presence.length → u.mm.freeSets[bay.val]? = some x →
      (u.presence[bay.val]? = some true →
        ∃ t, exec (.bayAbsent bay heldFor m) s = .next (judgeAsk t)
          ∧ t = report .bayChange
              { u with bayLines := u.bayLines ||| BitVec.twoPow 24 bay, presence := u.presence.set bay false }
          ∧ u.p = t.p + x.count ∧ u.f = t.f + x.size)
      ∧ (u.presence[bay.val]? = some false →
        ∃ t, exec (.bayPresent bay heldFor m) s = .next (judgeAsk t)
          ∧ t = report .bayChange
              { u with bayLines := u.bayLines &&& ~~~(BitVec.twoPow 24 bay), presence := u.presence.set bay true }
          ∧ t.p = u.p + x.count ∧ t.f = u.f + x.size))
  ∧ (∀ (bay : Fin 24) heldFor m s u, OnAt m s u → u.inflight ≠ none → u.poolUp = true → Config.lineHold ≤ heldFor →
      (u.presence[bay.val]? = some true →
        exec (.bayAbsent bay heldFor m) s
          = .next { report .bayChange
                { u with bayLines := u.bayLines ||| BitVec.twoPow 24 bay, presence := u.presence.set bay false } with
              tasks := u.tasks ++ [.judgeAsk] })
      ∧ (u.presence[bay.val]? = some false →
        exec (.bayPresent bay heldFor m) s
          = .next { report .bayChange
                { u with bayLines := u.bayLines &&& ~~~(BitVec.twoPow 24 bay), presence := u.presence.set bay true } with
              tasks := u.tasks ++ [.judgeAsk] }))
  ∧ (∀ (bay : Fin 24) heldFor m s u, OnAt m s u →
      (heldFor < Config.lineHold ∨ u.presence[bay.val]? ≠ some true →
          exec (.bayAbsent bay heldFor m) s = .next { u with bayLines := u.bayLines ||| BitVec.twoPow 24 bay })
      ∧ (heldFor < Config.lineHold ∨ u.presence[bay.val]? ≠ some false →
          exec (.bayPresent bay heldFor m) s = .next { u with bayLines := u.bayLines &&& ~~~(BitVec.twoPow 24 bay) }))

/-! ## Capacity arithmetic (spec/05) -/

/-- The reserve floor and the exposure hold (R78), the headroom and the lendable count (R79) and the lendable share (R80), with their
ranges and cases; free grains of ABSENT bays do not count. -/
def Obligations.LendableFigures : Prop :=
   ((∀ x : Figures, x.p ≤ 25165824 → x.e ≤ 4294967296 → x.rp ≤ 500 → x.ew ≤ 1000 →
      (∀ a, reserveFloor x = a ↔ x.p * x.rp ≤ 1000 * a ∧ 1000 * a < x.p * x.rp + 1000)
      ∧ (∀ a, exposureHold x = a ↔ x.e * x.ew ≤ 1000 * a ∧ 1000 * a < x.e * x.ew + 1000)
      ∧ reserveFloor x ≤ 12582912 ∧ reserveFloor x ≤ (x.p + 1) / 2 ∧ exposureHold x ≤ 4294967296
      ∧ (reserveFloor x = 0 ↔ x.p = 0 ∨ x.rp = 0) ∧ (exposureHold x = 0 ↔ x.e = 0 ∨ x.ew = 0))
    ∧ (∀ x : Figures, x.p = 999 → x.rp = 1 → reserveFloor x = 1)
    ∧ ∀ x : Figures, x.e = 1 → x.ew = 1 → exposureHold x = 1)
  ∧ ((∀ x : Figures, x.p ≤ 25165824 → x.f ≤ x.p → x.e ≤ 4294967296 → x.rp ≤ 500 → x.ew ≤ 1000 →
      headroom x = (x.f : Int) - (reserveFloor x : Int) - (exposureHold x : Int)
      ∧ -4307550208 ≤ headroom x ∧ headroom x ≤ 25165824
      ∧ (headroom x < 0 ↔ x.f < reserveFloor x + exposureHold x)
      ∧ (0 < headroom x → (lendable x : Int) = headroom x) ∧ (headroom x ≤ 0 → lendable x = 0)
      ∧ lendable x ≤ x.f ∧ lendable x ≤ x.p
      ∧ (x.p = 0 → x.f = 0 ∧ reserveFloor x = 0 ∧ headroom x = -(exposureHold x : Int) ∧ lendable x = 0))
    ∧ ∀ (presence : List Bool) (sets : List FreeSet) (bay grain : Nat), presence[bay]? = some false →
        poolFree presence (giveGrain sets bay grain) = poolFree presence sets)
  ∧ (∀ x : Figures, x.p ≤ 25165824 → x.f ≤ x.p → x.rp ≤ 500 → x.ew ≤ 1000 →
      (0 < x.p → ∀ q, lendableShare x = q ↔ x.p * q ≤ lendable x * 1000 ∧ lendable x * 1000 < x.p * q + x.p)
      ∧ (x.p = 0 → lendableShare x = 0)
      ∧ lendableShare x ≤ 1000
      ∧ (0 < x.p → (lendableShare x = 1000 ↔ lendable x = x.p))
      ∧ (0 < x.p → (lendable x = x.p ↔ x.f = x.p ∧ reserveFloor x = 0 ∧ exposureHold x = 0))
      ∧ (0 < x.p → (reserveFloor x = 0 ∧ exposureHold x = 0 ↔ x.rp = 0 ∧ (x.e = 0 ∨ x.ew = 0)))
      ∧ (lendable x * 1000 < x.p → lendableShare x = 0)
      ∧ (x.p = 25165824 → lendable x = 25000 → lendableShare x = 0))

/-- The offer delay lies between 0 and 31 slots, never rises as q rises, is 31 for q of 0 alone and 0 for every q from 968 on (R81); the
offer count of an ASK and the grant count of a TAKE are each the least of their four values (R82, R84). -/
def Obligations.OfferFigures : Prop :=
   (∀ x : Figures, x.f ≤ x.p →
      lendableShare x ≤ 1000 ∧ offerDelay x ≤ 31
      ∧ (offerDelay x = 31 ↔ lendableShare x = 0) ∧ (offerDelay x = 0 ↔ 968 ≤ lendableShare x)
      ∧ (∀ d, offerDelay x = d ↔ 1000 * d ≤ (1000 - lendableShare x) * 31 ∧ (1000 - lendableShare x) * 31 < 1000 * d + 1000)
      ∧ ∀ y : Figures, y.f ≤ y.p → lendableShare x ≤ lendableShare y → offerDelay y ≤ offerDelay x)
  ∧ (∀ (x : Figures) (wanted asked offered : Nat),
      (x.p = 0 ∨ lendable x = 0 → offerCount x wanted = 0)
      ∧ (0 < x.p → 0 < lendable x →
          let w := if wanted = 0 then 1 else min wanted 8
          (offerCount x wanted ≤ w ∧ offerCount x wanted ≤ lendable x ∧ offerCount x wanted ≤ x.maxLoan
            ∧ offerCount x wanted ≤ x.freeLoans)
          ∧ (offerCount x wanted = w ∨ offerCount x wanted = lendable x ∨ offerCount x wanted = x.maxLoan
            ∨ offerCount x wanted = x.freeLoans))
      ∧ (let a := min asked 8
         (grantCount x asked offered ≤ a ∧ grantCount x asked offered ≤ offered ∧ grantCount x asked offered ≤ lendable x
           ∧ grantCount x asked offered ≤ x.freeLoans)
         ∧ (grantCount x asked offered = a ∨ grantCount x asked offered = offered ∨ grantCount x asked offered = lendable x
           ∨ grantCount x asked offered = x.freeLoans)))

/-! ## Requests (spec/02, spec/03, spec/04, spec/11) -/

/-- A requester frame with a good CRC, addressed to this station in READY, DRAIN or HALTED and with room in the buffer, is acknowledged and
joins the buffer at the back; with no room, or for another station, it is neither; nothing is noted in START (R132, R146, R147, R148). One
addressed to all is malformed: it is noted, acknowledged in READY, DRAIN and HALTED, and joins no buffer (R147; log entry 31).
A frame whose CRC is bad or whose class is 7 is not heard at all; a requester frame goes the way of REQUEST_FRAME_RECEIVED; of any other,
a malformed one is noted and acknowledged when it is for this station or for all in READY, DRAIN and HALTED, and no block takes it; so is a
well-formed ALERT (R146, R147, R148). That a REPLY is noted and never acknowledged, and that a malformed frame is acknowledged so, is the
model's reading (log entry 31).
A command that handles requests changes nothing but the time while the buffer is empty, while the queue has no room for a REPLY, or in a
condition that serves no request (R34, R164, R168). -/
def Obligations.FramesHeard : Prop :=
   (∀ f m s u, OnAt m s u →
      (crcGood f = false ∨ f.cls = 7 →
        exec (.requestFrameReceived f m) s = .next { u with ackDriven := false })
      ∧ (crcGood f = true → f.cls ≠ 7 → 7 ≤ f.kind.toNat → f.kind.toNat ≤ 12 →
          (u.cond = .start → exec (.requestFrameReceived f m) s = .next { u with ackDriven := false })
          ∧ (u.cond ≠ .start → f.dest = broadcast →
              exec (.requestFrameReceived f m) s = .next (withHeard f.source (handsOn u) u))
          ∧ (f.dest ≠ broadcast → f.dest = u.own → handsOn u = true → u.buffer.length < Config.bufferPlaces →
              exec (.requestFrameReceived f m) s = .next { withHeard f.source true u with buffer := u.buffer ++ [f] })
          ∧ (f.dest ≠ broadcast → u.cond ≠ .start →
              (f.dest ≠ u.own ∨ handsOn u = false ∨ Config.bufferPlaces ≤ u.buffer.length) →
              exec (.requestFrameReceived f m) s = .next (withHeard f.source false u))))
  ∧ (∀ f m s u, OnAt m s u →
      (crcGood f = false ∨ f.cls = 7 → exec (.frameHeard f m) s = .next { u with ackDriven := false })
      ∧ (7 ≤ f.kind.toNat → f.kind.toNat ≤ 12 → exec (.frameHeard f m) s = exec (.requestFrameReceived f m) s)
      ∧ (crcGood f = true → f.cls ≠ 7 → (f.kind.toNat < 7 ∨ 12 < f.kind.toNat) → u.cond ≠ .start →
          (hearFrame f = .malformed →
            exec (.frameHeard f m) s
              = .next (withHeard f.source ((f.dest == u.own || f.dest == broadcast) && handsOn u) u))
          ∧ (hearFrame f = .unowned →
              exec (.frameHeard f m) s = .next (withHeard f.source (f.dest == broadcast && handsOn u) u))))
  ∧ (∀ c m s u, OnAt m s u →
      (c = .lookupRead m ∨ c = .lookupWrite m ∨ c = .commit m ∨ c = .trim m ∨ c = .volumeCreate m ∨ c = .volumeDelete m
        ∨ c = .volumeGrow m ∨ c = .statusPage0 m ∨ c = .statusPage1 m ∨ c = .clear m ∨ c = .malformedRequest m) →
      (u.buffer = [] ∨ hasReplyPlace u = false ∨ ¬ servesRequests u) → exec c s = .next u)

/-- The requests of R155 are read back from the payloads that spell them, a VOLUME of another action with its volume and tag (R23). A LOOKUP
of another access, a STATUS of another page, a CLEAR of other bits or another choice, a payload of another length, or a class other than 4 is
malformed (R36, R147, R155). That the answer to a malformed STATUS or CLEAR names volume 0 is the model's reading (log entry 16). -/
def Obligations.RequestsRead : Prop :=
  ∀ (fresh : Nat) (f : RawFrame) (v c n tag : Nat), v < 256 → c < 16777216 → n < 4294967296 → tag < 65536 → f.cls = 4 →
    (f.kind = 7 →
      (f.payload = encodeFields [(8, v), (24, c), (8, 0), (16, tag)] → parseRequest fresh f = .lookup false v c tag)
      ∧ (f.payload = encodeFields [(8, v), (24, c), (8, 1), (16, tag)] → parseRequest fresh f = .lookup true v c tag)
      ∧ ∀ a, 1 < a → a < 256 → f.payload = encodeFields [(8, v), (24, c), (8, a), (16, tag)] →
          parseRequest fresh f = .malformed v c tag)
    ∧ (f.kind = 8 → f.payload = encodeFields [(8, v), (24, c), (16, tag)] → parseRequest fresh f = .commit v c tag)
    ∧ (f.kind = 9 → f.payload = encodeFields [(8, v), (24, c), (32, n), (16, tag)] → parseRequest fresh f = .trim v c n tag)
    ∧ (f.kind = 10 →
        (f.payload = encodeFields [(8, 1), (8, v), (32, n), (16, tag)] → parseRequest fresh f = .create v n tag)
        ∧ (f.payload = encodeFields [(8, 2), (8, v), (32, n), (16, tag)] → parseRequest fresh f = .delete v tag)
        ∧ (f.payload = encodeFields [(8, 3), (8, v), (32, n), (16, tag)] → parseRequest fresh f = .grow v n tag)
        ∧ ∀ a, (a = 0 ∨ 3 < a) → a < 256 → f.payload = encodeFields [(8, a), (8, v), (32, n), (16, tag)] →
            parseRequest fresh f = .unknownAction v tag)
    ∧ (f.kind = 11 →
        (f.payload = encodeFields [(8, 0), (16, tag)] → parseRequest fresh f = .pageZero tag)
        ∧ (f.payload = encodeFields [(8, 1), (16, tag)] → parseRequest fresh f = .pageOne tag)
        ∧ ∀ a, 1 < a → a < 256 → f.payload = encodeFields [(8, a), (16, tag)] → parseRequest fresh f = .malformed 0 0 tag)
    ∧ (f.kind = 12 →
        (∀ flags : BitVec 13,
          (f.payload = encodeFields [(16, flags.toNat), (8, 0), (16, tag)] → parseRequest fresh f = .clear flags false tag)
          ∧ (f.payload = encodeFields [(16, flags.toNat), (8, 1), (16, tag)] → parseRequest fresh f = .clear flags true tag))
        ∧ ∀ flags z, flags < 65536 → z < 256 → (8192 ≤ flags ∨ 1 < z) →
            f.payload = encodeFields [(16, flags), (8, z), (16, tag)] → parseRequest fresh f = .malformed 0 0 tag)
    ∧ ∀ g : RawFrame, 7 ≤ g.kind.toNat → g.kind.toNat ≤ 12 →
        (g.cls ≠ 4 ∨ g.payload.length ≠ (if g.kind = 7 then 7 else if g.kind = 8 then 6 else if g.kind = 9 then 10
          else if g.kind = 10 then 8 else if g.kind = 11 then 3 else 5)) →
        ∃ v c t, parseRequest fresh g = .malformed v c t

/-- A READ lookup changes nothing and is answered as the checks of R36 and the table of R39 say. -/
def Obligations.ReadLookupAnswered : Prop :=
  ∀ m s u f rest v c tag, Takes m s u f rest → parseRequest u.fresh f = .lookup false v c tag →
    ∃ status part,
      exec (.lookupRead m) s
        = .next (withAnswer f rest { tag := tag, status := status, volume := v, chunk := c, part := part } u)
      ∧ (u.cond = .halted → status = .notReady ∧ part = .none)
      ∧ (u.cond ≠ .halted →
          ((volumeOf u.mm v).state ≠ .active → status = .noVol ∧ part = .none)
          ∧ ((volumeOf u.mm v).state = .active →
              ((volumeOf u.mm v).size ≤ c → status = .range ∧ part = .none)
              ∧ (c < (volumeOf u.mm v).size →
                  (entryOf u.mm v c = none → status = .zero ∧ part = .none)
                  ∧ ∀ e, entryOf u.mm v c = some e →
                      (e.shield < coveringCount u.mm v c → status = .zero ∧ part = .none)
                      ∧ (coveringCount u.mm v c ≤ e.shield →
                          (∀ r t x, e.state = .pending r t x → status = .zero ∧ part = .none)
                          ∧ ∀ r t, e.state = .mapped r t →
                              (∀ bay grain, e.place = .here bay grain →
                                (u.presence.getD bay false = true → status = .ok ∧ part = .place u.own bay grain)
                                ∧ (u.presence.getD bay false = false → status = .bayOff ∧ part = .none))
                              ∧ ∀ lender loan bay grain ep, e.place = .remote lender loan bay grain ep →
                                  part = .place lender bay grain
                                  ∧ (isPresent u.roster lender = false → status = .unreachable)
                                  ∧ (isPresent u.roster lender = true →
                                      ((rosterOf u.roster lender).epoch = some ep → status = .ok)
                                      ∧ ((rosterOf u.roster lender).epoch ≠ some ep → status = .lost))))))

/-- A WRITE lookup that allocates nothing changes nothing. On a live entry whose place is not lost: a MAPPED entry and the owner's own PENDING
entry answer OK or FRESH with a usable place, BAYOFF on an ABSENT bay, UNREACHABLE with the place of a silent lender; another's PENDING entry
answers HELD (R40, R42, R43). Otherwise NOTREADY in HALTED, NOVOL and RANGE by the volume, and in DRAIN QUIESCED for a chunk without an entry, or
with a lost or logically trimmed one (R36, R44). -/
def Obligations.WriteLookupAnswered : Prop :=
   (∀ m s u f rest v c tag e, Takes m s u f rest → parseRequest u.fresh f = .lookup true v c tag → u.cond ≠ .halted →
      (volumeOf u.mm v).state = .active → c < (volumeOf u.mm v).size → entryOf u.mm v c = some e →
      coveringCount u.mm v c ≤ e.shield → u.judge e.place ≠ .lost →
      ∃ status part,
        exec (.lookupWrite m) s
          = .next (withAnswer f rest { tag := tag, status := status, volume := v, chunk := c, part := part } u)
        ∧ (∀ r t x, e.state = .pending r t x → (r ≠ f.source ∨ t ≠ tag) → status = .held ∧ part = .none)
        ∧ ((∃ r t, e.state = .mapped r t) ∨ (∃ x, e.state = .pending f.source tag x) →
            (u.judge e.place = .usable →
              part = placePart u.own e.place
              ∧ ((∃ r t, e.state = .mapped r t) → status = .ok) ∧ ((∃ x, e.state = .pending f.source tag x) → status = .fresh))
            ∧ (u.judge e.place = .bayOff → status = .bayOff ∧ part = .none)
            ∧ (u.judge e.place = .unreachable → status = .unreachable ∧ part = placePart u.own e.place)))
  ∧ (∀ m s u f rest v c tag, Takes m s u f rest → parseRequest u.fresh f = .lookup true v c tag →
      let ans (status : Status) : Host.Outcome State Fault Refusal :=
        .next (withAnswer f rest { tag := tag, status := status, volume := v, chunk := c, part := .none } u)
      (u.cond = .halted → exec (.lookupWrite m) s = ans .notReady)
      ∧ (u.cond ≠ .halted →
          ((volumeOf u.mm v).state ≠ .active → exec (.lookupWrite m) s = ans .noVol)
          ∧ ((volumeOf u.mm v).state = .active →
              ((volumeOf u.mm v).size ≤ c → exec (.lookupWrite m) s = ans .range)
              ∧ (c < (volumeOf u.mm v).size → u.cond = .drain →
                  (∀ e, entryOf u.mm v c = some e → e.shield < coveringCount u.mm v c ∨ u.judge e.place = .lost) →
                  exec (.lookupWrite m) s = ans .quiesced))))

/-- A WRITE lookup of a chunk without an entry, in READY with room in the map and the pending list and a free grain in a PRESENT bay: one
write takes the grain, makes the PENDING entry with the shield of its chunk, its pending record with now plus the hold time, and raises the
volume's count; then FRESH is queued with the place, and R90 is judged (R9, R44, R45, R48). When no PRESENT bay has a free grain, the front-most
usable spare becomes a REMOTE place and its lender's record moves one from spare to in-use (R46, R102). -/
def Obligations.WriteAllocates : Prop :=
   (∀ m s u f rest v c tag taken bay grain, Takes m s u f rest → parseRequest u.fresh f = .lookup true v c tag → m.writes = [] →
      u.cond = .ready → Canonical u.mm → (volumeOf u.mm v).state = .active → c < (volumeOf u.mm v).size → entryOf u.mm v c = none →
      u.mm.chunks.length < Config.mapPlaces → u.mm.pendings.length < Config.pendingPlaces →
      taken = takeGrains u.presence 1 u.mm.freeSets u.rotor → taken.grains = [(bay, grain)] →
      let expiry := u.now + u.profile.holdTime * Config.millisecond
      let entry : Entry :=
        { state := .pending f.source tag expiry, place := .here bay grain, shield := coveringCount u.mm v c }
      let mm' : MapMemory := { u.mm with
        freeSets := taken.sets
        chunks := tablePut u.mm.chunks (chunkKey v c) entry
        volumes := tablePut u.mm.volumes v { volumeOf u.mm v with count := (volumeOf u.mm v).count + 1 }
        pendings := insertPending u.mm.pendings { volume := v, chunk := c, requester := f.source, tag := tag, expiry := expiry } }
      exec (.lookupWrite m) s
        = .next (judgeAsk (withAnswer f rest
            { tag := tag, status := .fresh, volume := v, chunk := c, part := .place u.own bay grain }
            { u with mm := mm', rotor := taken.rotor })))
  ∧ (∀ m s u f rest v c tag front sp back, Takes m s u f rest → parseRequest u.fresh f = .lookup true v c tag → m.writes = [] →
      u.cond = .ready → (volumeOf u.mm v).state = .active → c < (volumeOf u.mm v).size → entryOf u.mm v c = none →
      u.mm.chunks.length < Config.mapPlaces → u.mm.pendings.length < Config.pendingPlaces →
      (takeGrains u.presence 1 u.mm.freeSets u.rotor).grains = [] →
      u.mm.spares = front ++ sp :: back → (∀ x ∈ front, spareUsable u.roster x = false) → spareUsable u.roster sp = true →
      let expiry := u.now + u.profile.holdTime * Config.millisecond
      let entry : Entry :=
        { state := .pending f.source tag expiry, place := .remote sp.lender sp.loan sp.bay sp.grain sp.epoch,
          shield := coveringCount u.mm v c }
      let p := peerOf u.mm sp.lender
      let mm' : MapMemory := { setPeer u.mm sp.lender { p with inUse := p.inUse + 1, spare := p.spare - 1 } with
        spares := front ++ back
        chunks := tablePut u.mm.chunks (chunkKey v c) entry
        volumes := tablePut u.mm.volumes v { volumeOf u.mm v with count := (volumeOf u.mm v).count + 1 }
        pendings := insertPending u.mm.pendings { volume := v, chunk := c, requester := f.source, tag := tag, expiry := expiry } }
      exec (.lookupWrite m) s
        = .next (judgeAsk (withAnswer f rest
            { tag := tag, status := .fresh, volume := v, chunk := c, part := .place sp.lender sp.bay sp.grain }
            { u with mm := mm' })))

/-- A WRITE lookup that finds no grain and no usable spare leaves map memory alone and answers HELD while an ask is in flight, HELD with an
ask started when the machine is IDLE and a shelf station is PRESENT, and NOSPACE, reported and counted, otherwise (R47). Before a grain is
sought, a chunk map at its capacity answers MAPFULL, which is reported, and a full pending list answers HELD; neither changes map memory
(R44). -/
def Obligations.WriteFindsNoGrain : Prop :=
   (∀ m s u f rest v c tag, Takes m s u f rest → parseRequest u.fresh f = .lookup true v c tag → u.cond = .ready →
    (volumeOf u.mm v).state = .active → c < (volumeOf u.mm v).size → entryOf u.mm v c = none →
    u.mm.chunks.length < Config.mapPlaces → u.mm.pendings.length < Config.pendingPlaces →
    (takeGrains u.presence 1 u.mm.freeSets u.rotor).grains = [] → takeSpare u.roster u.mm = none →
    let reply (status : Status) : OutFrame :=
      { dest := f.source, body := .reply { tag := tag, status := status, volume := v, chunk := c, part := .none } }
    ∃ t, exec (.lookupWrite m) s = .next t ∧ t.mm = u.mm ∧ t.rotor = u.rotor ∧ t.buffer = rest ∧ t.tasks = []
      ∧ (askInFlight u = true → t = pushFrame (reply .held) { u with buffer := rest })
      ∧ (u.ask.state = .idle → anyShelfPresent u.roster = true →
          reply .held ∈ t.link.queue ∧ t.ask.askId = u.ask.askId + 1 ∧ t.ask.state ≠ .idle
          ∧ (u.link.occupied + 1 < Config.outboundPlaces → u.mm.spares.length < Config.sparePlaces → t.ask.state = .calling))
      ∧ ((u.ask.state = .backoff ∨ (u.ask.state = .idle ∧ anyShelfPresent u.roster = false)) →
          reply .noSpace ∈ t.link.queue ∧ t.faults.flags = u.faults.flags ||| Flag.noSpace.bit
          ∧ t.faults.counts = { u.faults.counts with noSpaceAnswers := saturate u.faults.counts.noSpaceAnswers }
          ∧ t.ask = u.ask))
  ∧ (∀ m s u f rest v c tag, Takes m s u f rest → parseRequest u.fresh f = .lookup true v c tag → u.cond = .ready →
      (volumeOf u.mm v).state = .active → c < (volumeOf u.mm v).size → entryOf u.mm v c = none →
      (Config.mapPlaces ≤ u.mm.chunks.length →
        ∃ t, exec (.lookupWrite m) s = .next t
          ∧ t = { u with buffer := rest, link := t.link, faults := t.faults, attention := t.attention }
          ∧ { dest := f.source, body := .reply { tag := tag, status := .mapFull, volume := v, chunk := c, part := .none } }
              ∈ t.link.queue
          ∧ t.faults = { u.faults with flags := u.faults.flags ||| Flag.mapFull.bit })
      ∧ (u.mm.chunks.length < Config.mapPlaces → Config.pendingPlaces ≤ u.mm.pendings.length →
          exec (.lookupWrite m) s
            = .next (withAnswer f rest { tag := tag, status := .held, volume := v, chunk := c, part := .none } u)))

/-- A WRITE lookup on a logically trimmed MAPPED LOCAL entry, or on a lost MAPPED entry, in READY with a free grain: one write disposes of the
old entry (its grain to its free set, or the loan dropped and the lender's record left alone) and makes the new one, the volume's count as
before, and FRESH is queued with the new place (R41, R44, R48, R63). -/
def Obligations.WriteReplacesOldEntry : Prop :=
  ∀ m s u f rest v c tag e r t0 sets taken bay grain, Takes m s u f rest → parseRequest u.fresh f = .lookup true v c tag →
    m.writes = [] → u.cond = .ready → Canonical u.mm → (volumeOf u.mm v).state = .active → 0 < (volumeOf u.mm v).count →
    c < (volumeOf u.mm v).size → entryOf u.mm v c = some e → e.state = .mapped r t0 →
    u.mm.chunks.length ≤ Config.mapPlaces → u.mm.pendings.length < Config.pendingPlaces →
    ((e.shield < coveringCount u.mm v c ∧ ∃ b g, e.place = .here b g ∧ sets = giveGrain u.mm.freeSets b g)
      ∨ (coveringCount u.mm v c ≤ e.shield ∧ u.judge e.place = .lost ∧ sets = u.mm.freeSets)) →
    taken = takeGrains u.presence 1 sets u.rotor → taken.grains = [(bay, grain)] →
    let expiry := u.now + u.profile.holdTime * Config.millisecond
    ∃ t, exec (.lookupWrite m) s = .next t
      ∧ entryOf t.mm v c = some
          { state := .pending f.source tag expiry, place := .here bay grain, shield := coveringCount u.mm v c }
      ∧ (∀ k, k ≠ chunkKey v c → tableFind t.mm.chunks k = tableFind u.mm.chunks k)
      ∧ t.mm.freeSets = taken.sets ∧ t.rotor = taken.rotor ∧ t.mm.volumes = u.mm.volumes ∧ t.mm.peers = u.mm.peers
      ∧ t.mm.spares = u.mm.spares ∧ t.mm.loans = u.mm.loans ∧ t.mm.trims = u.mm.trims
      ∧ t.mm.pendings = insertPending u.mm.pendings
          { volume := v, chunk := c, requester := f.source, tag := tag, expiry := expiry }
      ∧ { dest := f.source,
          body := .reply { tag := tag, status := .fresh, volume := v, chunk := c, part := .place u.own bay grain } }
          ∈ t.link.queue

/-- A WRITE lookup on any logically trimmed entry, or on any lost one, in READY with room for the new entry: one write disposes of the old entry
and makes the new one, with a grain of the pool, else with the front-most usable spare, the list as the disposal leaves it; a loan the
disposal hands back goes in one GIVEBACK, and FRESH is queued with the new place. With neither grain nor spare the disposal alone is written
and the answer is that of R47. Where the disposal's GIVEBACK has no place beside the REPLY's, nothing is written and the answer is HELD
(R41, R44, R46, R47, R48, R63). That the ask R47 then starts is started after the write is the model's choice (log entry 36). What the
disposal does with the old entry: a trimmed MAPPED REMOTE one that is not lost is handed back by GIVEBACK(TRIMMED) with its lender's in-use
count lowered, a lost one is removed alone; a trimmed PENDING one is rolled back; a discarded one leaves with its pending record, the
lender's record as it is (R41, R63, R67, R68, R69). That an in-use count of 0 so lowered stays 0 is the model's choice (log entry 43). -/
def Obligations.OldEntryDisposed : Prop :=
   (∀ m s u f rest v c tag e d, Takes m s u f rest → parseRequest u.fresh f = .lookup true v c tag → m.writes = [] →
      u.cond = .ready → Canonical u.mm → (volumeOf u.mm v).state = .active → 0 < (volumeOf u.mm v).count →
      c < (volumeOf u.mm v).size → entryOf u.mm v c = some e →
      ((e.shield < coveringCount u.mm v c ∧ d = disposeEntry u.roster u.presence u.mm v c e)
        ∨ (coveringCount u.mm v c ≤ e.shield ∧ u.judge e.place = .lost
            ∧ d = { mm := discardEntry u.mm v c e, handback := none })) →
      let reply (status : Status) (part : ReplyPart) : OutFrame :=
        { dest := f.source, body := .reply { tag := tag, status := status, volume := v, chunk := c, part := part } }
      (d.handback ≠ none → 31 ≤ u.link.occupied →
        exec (.lookupWrite m) s = .next (pushFrame (reply .held .none) { u with buffer := rest }))
      ∧ ((d.handback = none ∨ u.link.occupied + 1 < 32) → u.mm.chunks.length ≤ Config.mapPlaces →
          d.mm.pendings.length < Config.pendingPlaces →
          let expiry := u.now + u.profile.holdTime * Config.millisecond
          let entry (place : Place) : Entry :=
            { state := .pending f.source tag expiry, place := place, shield := coveringCount u.mm v c }
          let made (t : State) (place : Place) : Prop :=
            exec (.lookupWrite m) s = .next t ∧ entryOf t.mm v c = some (entry place)
              ∧ (∀ k, k ≠ chunkKey v c → tableFind t.mm.chunks k = tableFind u.mm.chunks k)
              ∧ t.mm.volumes = u.mm.volumes ∧ t.mm.loans = u.mm.loans ∧ t.mm.trims = u.mm.trims
              ∧ t.mm.pendings = insertPending d.mm.pendings
                  { volume := v, chunk := c, requester := f.source, tag := tag, expiry := expiry }
              ∧ (∀ h, d.handback = some h → { dest := h.lender, body := .giveback h.reason [h.loan] } ∈ t.link.queue)
              ∧ reply .fresh (placePart u.own place) ∈ t.link.queue
          let taken := takeGrains u.presence 1 d.mm.freeSets u.rotor
          (∀ bay grain, taken.grains = [(bay, grain)] →
            ∃ t, made t (.here bay grain) ∧ t.mm.freeSets = taken.sets ∧ t.rotor = taken.rotor ∧ t.mm.spares = d.mm.spares
              ∧ t.mm.peers = d.mm.peers)
          ∧ (∀ front sp back, taken.grains = [] → d.mm.spares = front ++ sp :: back →
              (∀ x ∈ front, spareUsable u.roster x = false) → spareUsable u.roster sp = true →
              let p := peerOf d.mm sp.lender
              ∃ t, made t (.remote sp.lender sp.loan sp.bay sp.grain sp.epoch) ∧ t.mm.freeSets = d.mm.freeSets ∧ t.rotor = u.rotor
                ∧ t.mm.spares = front ++ back
                ∧ t.mm.peers = (setPeer d.mm sp.lender { p with inUse := p.inUse + 1, spare := p.spare - 1 }).peers)
          ∧ (taken.grains = [] → takeSpare u.roster d.mm = none →
              ∃ t, exec (.lookupWrite m) s = .next t ∧ t.mm = d.mm ∧ t.rotor = u.rotor
                ∧ (askInFlight u = true → reply .held .none ∈ t.link.queue ∧ t.ask = u.ask)
                ∧ (u.ask.state = .idle → anyShelfPresent u.roster = true →
                    reply .held .none ∈ t.link.queue ∧ t.ask.askId = u.ask.askId + 1 ∧ t.ask.state ≠ .idle)
                ∧ ((u.ask.state = .backoff ∨ (u.ask.state = .idle ∧ anyShelfPresent u.roster = false)) →
                    reply .noSpace .none ∈ t.link.queue ∧ t.faults.has .noSpace = true ∧ t.ask = u.ask))))
  ∧ (∀ roster presence (mm : MapMemory) v c e,
      let rec0 := volumeOf mm v
      let gone : MapMemory := { setVolume mm v { rec0 with count := rec0.count - 1 } with chunks := tableErase mm.chunks (chunkKey v c) }
      (∀ r t x, e.state = .pending r t x →
        disposeEntry roster presence mm v c e = rollbackChunk roster presence mm v c
        ∧ discardEntry mm v c e
            = { gone with pendings := mm.pendings.filter fun r => !(r.volume == v && r.chunk == c) })
      ∧ ∀ r t, e.state = .mapped r t →
          discardEntry mm v c e = gone
          ∧ (∀ bay grain, e.place = .here bay grain →
              disposeEntry roster presence mm v c e
                = { mm := { gone with freeSets := giveGrain mm.freeSets bay grain }, handback := none })
          ∧ ∀ lender loan bay grain ep, e.place = .remote lender loan bay grain ep →
              let p := peerOf mm lender
              (judgePlace roster presence e.place = .lost →
                disposeEntry roster presence mm v c e = { mm := gone, handback := none })
              ∧ (judgePlace roster presence e.place ≠ .lost → p.known = some ep →
                  disposeEntry roster presence mm v c e
                    = { mm := setPeer gone lender { p with inUse := p.inUse - 1 },
                        handback := some { lender := lender, loan := loan, reason := .trimmed } })
              ∧ (judgePlace roster presence e.place = .unreachable → p.known ≠ some ep →
                  disposeEntry roster presence mm v c e
                    = { mm := gone, handback := some { lender := lender, loan := loan, reason := .trimmed } }))

/-- A COMMIT by the requester and tag of a PENDING entry makes it MAPPED with that last commit and takes its pending record out of the list, in
one write before DONE; its place and shield stay, and in DRAIN, where each PENDING entry has its record, the quiet condition is judged (R50,
R163). Every other COMMIT changes nothing:
NOTREADY, NOVOL and RANGE by the checks of R36; DONE for a repeat of the last commit; LATE for another requester or tag, or no entry (R36,
R49). -/
def Obligations.CommitAnswered : Prop :=
   (∀ m s u f rest v c tag expiry pl shield, Takes m s u f rest → parseRequest u.fresh f = .commit v c tag → m.writes = [] →
      (volumeOf u.mm v).state = .active → c < (volumeOf u.mm v).size →
      entryOf u.mm v c = some { state := .pending f.source tag expiry, place := pl, shield := shield } →
      let done : State := withAnswer f rest { tag := tag, status := .done, volume := v, chunk := c, part := .none }
        { u with
          mm := { u.mm with
            chunks := tablePut u.mm.chunks (chunkKey v c) { state := .mapped f.source tag, place := pl, shield := shield }
            pendings := u.mm.pendings.filter fun r => !(r.volume == v && r.chunk == c) } }
      (u.cond = .ready → exec (.commit m) s = .next done)
      ∧ (u.cond = .drain → PendingLaw u.mm → hasPlace done = true → exec (.commit m) s = .next (judgeQuiet done)))
  ∧ (∀ m s u f rest v c tag, Takes m s u f rest → parseRequest u.fresh f = .commit v c tag →
      let ans (status : Status) : Host.Outcome State Fault Refusal :=
        .next (withAnswer f rest { tag := tag, status := status, volume := v, chunk := c, part := .none } u)
      (u.cond = .halted → exec (.commit m) s = ans .notReady)
      ∧ (u.cond ≠ .halted →
          ((volumeOf u.mm v).state ≠ .active → exec (.commit m) s = ans .noVol)
          ∧ ((volumeOf u.mm v).state = .active →
              ((volumeOf u.mm v).size ≤ c → exec (.commit m) s = ans .range)
              ∧ (c < (volumeOf u.mm v).size →
                  (entryOf u.mm v c = none → exec (.commit m) s = ans .late)
                  ∧ ∀ e, entryOf u.mm v c = some e →
                      (e.state = .mapped f.source tag → exec (.commit m) s = ans .done)
                      ∧ (∀ r t, e.state = .mapped r t → (r ≠ f.source ∨ t ≠ tag) → exec (.commit m) s = ans .late)
                      ∧ ∀ r t x, e.state = .pending r t x → (r ≠ f.source ∨ t ≠ tag) → exec (.commit m) s = ans .late))))

/-- A TRIM: the checks of R59 in order, none of which changes anything; one that passes them appends its range, clamped to the volume, in one
write before QUEUED, in READY and in DRAIN (R59, R60). -/
def Obligations.TrimAnswered : Prop :=
  ∀ m s u f rest v first count tag, Takes m s u f rest → parseRequest u.fresh f = .trim v first count tag →
    let ans (status : Status) (t : State) : Host.Outcome State Fault Refusal :=
      .next (withAnswer f rest { tag := tag, status := status, volume := v, chunk := first, part := .none } t)
    (u.cond = .halted → exec (.trim m) s = ans .notReady u)
    ∧ (u.cond ≠ .halted →
        (count = 0 → exec (.trim m) s = ans .badReq u)
        ∧ (0 < count →
            ((volumeOf u.mm v).state ≠ .active → exec (.trim m) s = ans .noVol u)
            ∧ ((volumeOf u.mm v).state = .active →
                ((volumeOf u.mm v).size ≤ first → exec (.trim m) s = ans .range u)
                ∧ (first < (volumeOf u.mm v).size →
                    (Config.trimPlaces ≤ u.mm.trims.length → exec (.trim m) s = ans .busy u)
                    ∧ (u.mm.trims.length < Config.trimPlaces → m.writes = [] →
                        ∃ last, last = min (first + count - 1) ((volumeOf u.mm v).size - 1)
                          ∧ exec (.trim m) s = ans .queued { u with
                              mm := { u.mm with
                                trims := u.mm.trims ++
                                  [{ volume := v, first := first, last := last, cursor := first, origin := .trim,
                                     requester := f.source, tag := tag }] } })))))

/-- CREATE, GROW and DELETE of a volume, each decided on the volume's state, then on the size or the room; a change is one write before its
answer, and an ACTIVE volume's answer carries its size; they are taken in READY and in DRAIN. In HALTED the answer is NOTREADY and nothing
changes; it carries the size of an ACTIVE volume where the start read the table, and that it carries none where it did not is the model's
reading (R23, R24, R25, R26, R30; log entry 16). -/
def Obligations.VolumesAnswered : Prop :=
   (∀ m s u f rest v size tag, Takes m s u f rest → u.cond ≠ .halted → m.writes = [] →
      let r := volumeOf u.mm v
      let n := min size Config.maxVolume
      let ans (status : Status) (part : ReplyPart) (t : State) : Host.Outcome State Fault Refusal :=
        .next (withAnswer f rest { tag := tag, status := status, volume := v, chunk := 0, part := part } t)
      (parseRequest u.fresh f = .create v size tag →
        (r.state = .active → exec (.volumeCreate m) s = ans .exists (.size r.size) u)
        ∧ (r.state = .retiring → exec (.volumeCreate m) s = ans .busy .none u)
        ∧ (r.state = .free → size = 0 → exec (.volumeCreate m) s = ans .badReq .none u)
        ∧ (r.state = .free → 0 < size →
            exec (.volumeCreate m) s = ans .ok (.size n)
              { u with mm := { u.mm with
                  volumes := tablePut u.mm.volumes v { state := .active, size := n, count := 0 } } }))
      ∧ (parseRequest u.fresh f = .grow v size tag →
          (r.state ≠ .active → exec (.volumeGrow m) s = ans .noVol .none u)
          ∧ (r.state = .active → n < r.size → exec (.volumeGrow m) s = ans .badReq (.size r.size) u)
          ∧ (r.state = .active → n = r.size → exec (.volumeGrow m) s = ans .ok (.size r.size) u)
          ∧ (r.state = .active → r.size < n →
              exec (.volumeGrow m) s = ans .ok (.size n)
                { u with mm := { u.mm with volumes := tablePut u.mm.volumes v { r with size := n } } }))
      ∧ (parseRequest u.fresh f = .delete v tag →
          (r.state ≠ .active → exec (.volumeDelete m) s = ans .noVol .none u)
          ∧ (r.state = .active → Config.trimPlaces ≤ u.mm.trims.length →
              exec (.volumeDelete m) s = ans .busy (.size r.size) u)
          ∧ (r.state = .active → u.mm.trims.length < Config.trimPlaces →
              exec (.volumeDelete m) s = ans .queued .none
                { u with mm := { u.mm with
                    volumes := tablePut u.mm.volumes v { r with state := .retiring }
                    trims := u.mm.trims ++
                      [{ volume := v, first := 0, last := r.size - 1, cursor := 0, origin := .delete, requester := f.source,
                         tag := tag }] } })))
  ∧ (∀ m s u f rest v size tag, Takes m s u f rest → u.cond = .halted →
      let r := volumeOf u.mm v
      let part : ReplyPart := if u.headerRead = true ∧ r.state = .active then .size r.size else .none
      let answered : Host.Outcome State Fault Refusal :=
        .next (withAnswer f rest { tag := tag, status := .notReady, volume := v, chunk := 0, part := part } u)
      (parseRequest u.fresh f = .create v size tag → exec (.volumeCreate m) s = answered)
      ∧ (parseRequest u.fresh f = .grow v size tag → exec (.volumeGrow m) s = answered)
      ∧ (parseRequest u.fresh f = .delete v tag → exec (.volumeDelete m) s = answered))

/-- A request whose map memory write fails in READY has no effect on map memory: MAPMEM is reported, the station is HALTED and the answer is
NOTREADY without a part; the requests covered are an owner's COMMIT, a TRIM and a DELETE with room, a CREATE of a FREE volume, a GROW, and a
WRITE lookup that allocates a grain of the pool (R12, R28, R55, R60). The failed write of a walker visit, a granted TAKE, an accepted GRANT,
a GIVEBACK or a new-epoch drop has no effect on map memory either, and the station is HALTED with MAPMEM reported (R12, R73, R109, R128). A
failed write is acted on by condition: in START and JOIN the outcome becomes HALTED; READY, DRAIN and QUIET enter HALTED, with the ask
machine IDLE, a drain's timer cancelled, and the open offer ended, but for a QUEUED one whose OFFER is on the link, which ends at the link's
report; HALTED and MUTE stay (R100, R117, R153, R167). -/
def Obligations.MapMemoryFails : Prop :=
   (∀ cmd req m s u f rest v c tag, Takes m s u f rest → parseRequest u.fresh f = req → m.writes = [.fails] → u.cond = .ready →
      u.link.queue = [] → u.link.hand = none → u.link.reservedReplies = 0 → u.link.reservedOthers = 0 → u.offer.state = .idle →
      ((cmd = .commit m ∧ req = .commit v c tag ∧ (volumeOf u.mm v).state = .active ∧ c < (volumeOf u.mm v).size
          ∧ ∃ e x, entryOf u.mm v c = some e ∧ e.state = .pending f.source tag x)
        ∨ (cmd = .trim m ∧ (∃ n, 0 < n ∧ req = .trim v c n tag) ∧ (volumeOf u.mm v).state = .active ∧ c < (volumeOf u.mm v).size
            ∧ u.mm.trims.length < Config.trimPlaces)
        ∨ (cmd = .volumeDelete m ∧ c = 0 ∧ req = .delete v tag ∧ (volumeOf u.mm v).state = .active
            ∧ u.mm.trims.length < Config.trimPlaces)
        ∨ (cmd = .volumeCreate m ∧ c = 0 ∧ (∃ n, 0 < n ∧ req = .create v n tag) ∧ (volumeOf u.mm v).state = .free)
        ∨ (cmd = .volumeGrow m ∧ c = 0 ∧ (∃ n, (volumeOf u.mm v).size < min n Config.maxVolume ∧ req = .grow v n tag)
            ∧ (volumeOf u.mm v).state = .active)
        ∨ (cmd = .lookupWrite m ∧ req = .lookup true v c tag ∧ (volumeOf u.mm v).state = .active ∧ c < (volumeOf u.mm v).size
            ∧ entryOf u.mm v c = none ∧ u.mm.chunks.length < Config.mapPlaces ∧ u.mm.pendings.length < Config.pendingPlaces
            ∧ (takeGrains u.presence 1 u.mm.freeSets u.rotor).grains ≠ [])) →
      ∃ t, exec cmd s = .next t ∧ t.mm = u.mm ∧ t.rotor = u.rotor ∧ t.inflight = none ∧ t.tasks = [] ∧ t.buffer = rest
        ∧ t.cond = .halted ∧ t.faults.flags = u.faults.flags ||| Flag.mapMem.bit ∧ t.faults.counts = u.faults.counts
        ∧ t.walkerTimer = none ∧ t.ask.state = .idle
        ∧ t.link.queue
            = [{ dest := f.source, body := .reply { tag := tag, status := .notReady, volume := v, chunk := c, part := .none } }])
  ∧ (∀ cmd m s u, RestAt m s u → m.writes = [.fails] → u.cond = .ready →
      ((cmd = .walkerPeriod m ∧ (∃ x, u.walkerTimer = some x ∧ x ≤ u.now) ∧ 1 ≤ u.profile.walkerVisits ∧ u.mm.trims ≠ []
          ∧ hasReplyPlace u = true)
        ∨ (∃ source askId count o, cmd = .take source u.own askId count m ∧ u.own ≠ broadcast
            ∧ (u.offer.state = .queued ∨ u.offer.state = .waiting) ∧ u.offer.current = some o ∧ o.asker = source ∧ o.askId = askId
            ∧ hasPlace u = true ∧ isPresent u.roster source = true ∧ (rosterOf u.roster source).epoch ≠ none
            ∧ (takeGrains u.presence (grantCount u.figures count.toNat o.n) u.mm.freeSets u.rotor).grains ≠ [])
        ∨ (∃ source askId r more, cmd = .grant source u.own askId (r :: more) m ∧ wfGrant u.own (r :: more) = true
            ∧ u.ask.state = .taking ∧ u.ask.lender = some source ∧ u.ask.askId = askId ∧ 1 ≤ u.ask.offerCount
            ∧ (rosterOf u.roster source).epoch ≠ none ∧ pairStands u.mm source r.loan = false
            ∧ u.mm.spares.length < Config.sparePlaces)
        ∨ (∃ source reason loans, cmd = .giveback source u.own reason loans m ∧ wfGiveback u.own loans = true
            ∧ ∃ n ∈ loans, ∃ l, tableFind u.mm.loans n = some l ∧ l.borrower = source)
        ∨ (∃ source h was known, cmd = .hail source h m ∧ h.q ≤ 1000 ∧ source ≠ u.own ∧ source ≠ broadcast ∧ h.identity = 2
            ∧ h.cond ≠ .leaving ∧ u.loanUp = true ∧ (rosterOf u.roster source).state = .present
            ∧ (rosterOf u.roster source).epoch = some was ∧ was ≠ { serial := h.serial, formatCount := h.formatCount }
            ∧ (peerOf u.mm source).known = some known ∧ known ≠ { serial := h.serial, formatCount := h.formatCount }
            ∧ (∀ r ∈ u.mm.pendings, r.requester ≠ source) ∧ ∀ p ∈ u.mm.loans, p.2.borrower ≠ source)) →
      ∃ t, exec cmd s = .next t ∧ t.mm = u.mm ∧ t.rotor = u.rotor ∧ t.inflight = none ∧ t.tasks = [] ∧ t.cond = .halted
        ∧ t.faults.has .mapMem = true ∧ t.walkerTimer = none ∧ t.ask.state = .idle)
  ∧ (∀ s : State,
      (mapMemError s).faults.has .mapMem = true ∧ (mapMemError s).mm = s.mm
      ∧ (s.cond = .start ∨ s.cond = .join → mapMemError s = { report .mapMem s with outcome := .halted })
      ∧ (s.cond = .halted ∨ s.cond = .mute → mapMemError s = report .mapMem s)
      ∧ (s.cond = .ready ∨ s.cond = .drain ∨ s.cond = .quiet →
          (mapMemError s).cond = .halted ∧ (mapMemError s).drainTimer = none ∧ (mapMemError s).walkerTimer = none
          ∧ (mapMemError s).ask.state = .idle ∧ (mapMemError s).ask.timer = none
          ∧ (mapMemError s).ask.failures = s.ask.failures
          ∧ (s.offer.state = .idle → (mapMemError s).offer = s.offer)
          ∧ (s.offer.state = .armed ∨ s.offer.state = .waiting → (mapMemError s).offer = OfferMachine.reset)
          ∧ (s.offer.state = .queued → ∀ o, s.offer.current = some o →
              (isDriving (isOfferOf o) s = false → (mapMemError s).offer = OfferMachine.reset)
              ∧ (isDriving (isOfferOf o) s = true → (∀ f ∈ s.link.queue, isOfferOf o f.body = false) →
                  (mapMemError s).offer = { s.offer with endsAtReport := true }))
          ∧ ∀ f ∈ (mapMemError s).link.queue, f.sentInHalted = true)
      ∧ (s.cond = .quiet → (mapMemError s).hailTimer = some (s.now + s.profile.presenceInterval * 4000)))

/-- STATUS page 0 and page 1, and CLEAR: the answer carries the figures and the record as they stand, OK or in HALTED NOTREADY; a page changes
nothing, a CLEAR clears the flags named and if asked the counters, and ATTENTION is judged (R37, R171, R172). A malformed request changes
nothing and is answered BADREQ, in HALTED NOTREADY, without a part; a VOLUME of an unknown action likewise, with the size of an ACTIVE volume,
in HALTED where the start read the table (R23, R30, R36, R59, R171, R172). The tag of every malformed request is the one at its place in the
kind's layout, and 0 when the payload is too short to hold it (R36). The model's readings: the volume and chunk it names are those at their
places in the payload, a volume of 0 for a VOLUME too short to hold one and for every STATUS and CLEAR, no size part where the table was not
read and none in HALTED for a payload off its layout (log entry 16), and none for a VOLUME whose class is not 4 (log entry 46); a volume or
chunk that a LOOKUP, COMMIT or TRIM is too short to hold is a free value. -/
def Obligations.StatusAndMalformed : Prop :=
   (∀ m s u f rest tag, Takes m s u f rest →
      let status : Status := if u.cond = .halted then .notReady else .ok
      let ans (part : ReplyPart) (t : State) : Host.Outcome State Fault Refusal :=
        .next (withAnswer f rest { tag := tag, status := status, volume := 0, chunk := 0, part := part } t)
      (parseRequest u.fresh f = .pageZero tag →
        ∃ z, exec (.statusPage0 m) s = ans (.pageZero z) { u with fresh := u.fresh + 1 }
          ∧ z.condition = u.cond.code ∧ z.cause = u.cause.code ∧ z.p = u.p ∧ z.f = u.f ∧ z.q = lendableShare u.figures
          ∧ z.identity = u.identity ∧ z.serial = u.serial ∧ z.formatCount = u.formatCount ∧ z.restartCount = u.restartCount
          ∧ (u.loanUp = true → z.spares = u.mm.spares.length ∧ z.loans = u.mm.loans.length)
          ∧ (u.headerRead = true → z.pendings = u.mm.pendings.length ∧ z.trims = u.mm.trims.length))
      ∧ (parseRequest u.fresh f = .pageOne tag →
          exec (.statusPage1 m) s = ans (.pageOne u.faults.flags u.faults.counts) u)
      ∧ ∀ named zero, parseRequest u.fresh f = .clear named zero tag →
          let flags := u.faults.flags &&& ~~~named
          let counts := if zero then Counts.zero else u.faults.counts
          exec (.clear m) s = ans (.pageOne flags counts)
            { u with
              faults := { flags := flags, counts := counts, enables := u.faults.enables }
              attention := decide (flags &&& u.faults.enables ≠ 0) })
  ∧ ((∀ m s u f rest v c tag, Takes m s u f rest → parseRequest u.fresh f = .malformed v c tag →
      exec (.malformedRequest m) s
        = .next (withAnswer f rest
            { tag := tag, status := if u.cond = .halted then .notReady else .badReq, volume := v, chunk := c, part := .none }
            { u with fresh := u.fresh + 1 }))
    ∧ (∀ m s u f rest v tag, Takes m s u f rest → parseRequest u.fresh f = .unknownAction v tag →
        let r := volumeOf u.mm v
        exec (.malformedRequest m) s
          = .next (withAnswer f rest
              { tag := tag, status := if u.cond = .halted then .notReady else .badReq, volume := v, chunk := 0,
                part := if (u.cond ≠ .halted ∨ u.headerRead = true) ∧ r.state = .active then .size r.size else .none }
              u))
    ∧ ∀ fresh (f : RawFrame) v c tag, parseRequest fresh f = .malformed v c tag → 7 ≤ f.kind.toNat → f.kind.toNat ≤ 12 →
        let size := f.payload.length
        (∀ at_ : Nat, at_ = (if f.kind = 7 then 5 else if f.kind = 8 then 4 else if f.kind = 9 then 8 else if f.kind = 10 then 6
            else if f.kind = 11 then 1 else 3) →
          (at_ + 2 ≤ size → tag = bytesAt f.payload at_ 2) ∧ (size < at_ + 2 → tag = 0))
        ∧ (f.kind = 7 ∨ f.kind = 8 ∨ f.kind = 9 →
            (1 ≤ size → v = bytesAt f.payload 0 1) ∧ (4 ≤ size → c = bytesAt f.payload 1 3))
        ∧ (f.kind = 10 → c = 0 ∧ (2 ≤ size → v = bytesAt f.payload 1 1) ∧ (size < 2 → v = 0))
        ∧ (f.kind = 11 ∨ f.kind = 12 → v = 0 ∧ c = 0))

/-! ## Borrowing (spec/06) -/

/-- An ask that fails, by the expiry of the offer window or of the GRANT wait: BACKOFF for min(base × 2^(count − 1), cap × 1,000) ms, the
consecutive-failure count raised up to 255, the ask-failure counter raised, nothing else changed; before its time nothing happens (R94, R95,
R98).
The backoff timer that runs out leaves the machine IDLE with its failure count, and R90 is judged (R98).
The offer timer that runs out queues the OFFER with the n and d of its ASK, or ends the offer for want of a place (R83, R113); the TAKE
wait that runs out ends the offer (R116), but not while the write of its matching TAKE's grant is in progress (R116, R118; log entry 47). -/
def Obligations.LoanTimersExpire : Prop :=
   (∀ m s u, OnAt m s u → u.ask.failures ≤ 255 → u.faults.counts.askFailures ≤ 65535 →
      let n := min 255 (u.ask.failures + 1)
      let failed : State := { u with
        ask := { u.ask with
          state := .backoff, failures := n, lender := none, offerCount := 0, wanted := 0,
          timer := some (u.now + min (u.profile.backoffBase * 2 ^ (n - 1)) (u.profile.backoffCap * 1000) * 4000) }
        faults := { u.faults with counts := { u.faults.counts with askFailures := min 65535 (u.faults.counts.askFailures + 1) } } }
      failAsk u = failed
      ∧ (u.ask.state = .calling → ∀ x, u.ask.timer = some x → x ≤ u.now → exec (.offerWindowExpiry m) s = .next failed)
      ∧ (u.ask.state = .taking → ∀ x, u.ask.timer = some x → x ≤ u.now → exec (.grantWaitExpiry m) s = .next failed)
      ∧ ((u.ask.state ≠ .calling ∨ ∀ x, u.ask.timer = some x → u.now < x) → exec (.offerWindowExpiry m) s = .next u)
      ∧ ((u.ask.state ≠ .taking ∨ ∀ x, u.ask.timer = some x → u.now < x) → exec (.grantWaitExpiry m) s = .next u))
  ∧ (∀ m s u x, RestAt m s u → u.ask.state = .backoff → u.ask.timer = some x →
      (x ≤ u.now →
        exec (.backoffExpiry m) s = .next (judgeAsk { u with ask := { u.ask with state := .idle, timer := none } }))
      ∧ (u.now < x → exec (.backoffExpiry m) s = .next u))
  ∧ (∀ m s u o x, OnAt m s u → u.offer.current = some o → u.offer.timer = some x → x ≤ u.now →
      (u.offer.state = .armed → u.cond = .ready ∨ u.cond = .drain →
        (hasPlace u = true →
          exec (.offerTimerExpiry m) s
            = .next (pushFrame { dest := broadcast, body := .offer o.askId o.asker o.n o.d }
                { u with offer := { u.offer with state := .queued, timer := none } }))
        ∧ (hasPlace u = false → exec (.offerTimerExpiry m) s = .next { u with offer := OfferMachine.reset }))
      ∧ (u.offer.state = .waiting → (∀ w, u.inflight = some w → ∀ rs, Task.granted o.asker o.askId rs ∉ w.onDone) →
          exec (.takeWaitExpiry m) s = .next { u with offer := OfferMachine.reset })
      ∧ (∀ w rs, u.inflight = some w → Task.granted o.asker o.askId rs ∈ w.onDone → exec (.takeWaitExpiry m) s = .next u))

/-- An ask starts of the station's own accord when every condition of R90 holds, and nothing changes when one fails. It raises the ask id,
queues the ASK and enters CALLING with no timer; an ARMED offer ends, a QUEUED one is withdrawn unless it is on the link, a WAITING one
stays; without a place the attempt fails at once (R90, R91, R98, R117). -/
def Obligations.AskStarts : Prop :=
  ∀ s : State,
    let due := s.cond = .ready ∧ s.short = true ∧ s.mm.spares.length < s.profile.spareTarget ∧ s.ask.state = .idle
      ∧ anyShelfPresent s.roster = true
    let wanted := min s.profile.maxLoan (min (32 - s.mm.spares.length) (max 1 (s.profile.spareTarget - s.mm.spares.length)))
    let asking : AskMachine := { s.ask with
      state := .calling, askId := s.ask.askId + 1, wanted := wanted, timer := none, lender := none, offerCount := 0 }
    let frame : OutFrame := { dest := broadcast, body := .ask (s.ask.askId + 1) wanted }
    (¬ due → judgeAsk s = s)
    ∧ (due → s.mm.spares.length < 32 →
        (hasPlace s = true →
          (s.offer.state = .idle ∨ s.offer.state = .waiting → judgeAsk s = pushFrame frame { s with ask := asking })
          ∧ (s.offer.state = .armed → judgeAsk s = pushFrame frame { s with ask := asking, offer := OfferMachine.reset })
          ∧ (s.offer.state = .queued → ∀ o, s.offer.current = some o →
              (isDriving (isOfferOf o) s = true → judgeAsk s = pushFrame frame { s with ask := asking })
              ∧ (isDriving (isOfferOf o) s = false →
                  judgeAsk s = withdraw (isOfferOf o) (pushFrame frame { s with ask := asking, offer := OfferMachine.reset }))))
        ∧ (hasPlace s = false → s.offer.state = .idle ∨ s.offer.state = .waiting →
            judgeAsk s = failAsk { s with ask := asking }))

/-- While CALLING with the window open, an OFFER for this ask from a PRESENT shelf station and with a count of 1 or more is taken: a TAKE with
the count, at most 8, goes to its source and TAKING is entered; without a place the ask fails. Any other OFFER is ignored but for being heard
(R93, R94); that an OFFER for the current ask heard before the end of the ASK, the window not yet open, is among those is the model's reading
(log entry 20).
Another station's OFFER to the same ask ends an ARMED offer, withdraws a QUEUED one that is not on the link, and leaves a WAITING one or one
on the link as it is (R114). -/
def Obligations.OfferHeard : Prop :=
   (∀ source askId asker count d m s u, OnAt m s u → asker ≠ broadcast → handsOn u = true →
      (∀ o, u.offer.current = some o → o.asker ≠ asker ∨ o.askId ≠ askId) →
      let fits := u.ask.state = .calling ∧ u.ask.timer ≠ none ∧ asker = u.own ∧ askId = u.ask.askId
        ∧ isPresentShelf u.roster source = true ∧ 1 ≤ count.toNat
      let n := min count.toNat 8
      let taking : State := { withHeard source true u with
        ask := { u.ask with state := .taking, lender := some source, offerCount := n, timer := none } }
      (fits → u.cond ≠ .halted → hasPlace u = true →
        exec (.offer source askId asker count d m) s = .next (pushFrame { dest := source, body := .take askId n } taking))
      ∧ (fits → u.cond ≠ .halted → hasPlace u = false →
          exec (.offer source askId asker count d m) s = .next (failAsk taking))
      ∧ (¬ fits → exec (.offer source askId asker count d m) s = .next (withHeard source true u)))
  ∧ (∀ source askId asker count d m s u o, OnAt m s u → handsOn u = true → asker ≠ broadcast → asker ≠ u.own → source ≠ u.own →
      u.offer.current = some o → o.asker = asker → o.askId = askId →
      (u.offer.state = .armed →
        exec (.offer source askId asker count d m) s = .next { withHeard source true u with offer := OfferMachine.reset })
      ∧ (u.offer.state = .queued → isDriving (isOfferOf o) u = false →
          exec (.offer source askId asker count d m) s
            = .next (withdraw (isOfferOf o) { withHeard source true u with offer := OfferMachine.reset }))
      ∧ (u.offer.state = .waiting ∨ (u.offer.state = .queued ∧ isDriving (isOfferOf o) u = true) →
          exec (.offer source askId asker count d m) s = .next (withHeard source true u)))

/-- A GRANT from the asked lender with the current ask id, in READY and in DRAIN. Its records are judged in order as far as the offer count
goes: those whose loan stands already are passed over, the new ones join the back of the spare list with the lender's epoch while there is
room, and the others are handed back by one GIVEBACK(UNUSED), as are by another the new records beyond the offer count (two GIVEBACKs: log
entry 19). If one joins, the lender's record takes the roster epoch and the new spares, an older known epoch's spares going first, though
the records were compared with them (log entry 21), and DATA-LOST being reported if it was in use, and the ask ends well, all in one write;
R90 is judged, and in DRAIN the quiet condition (R90, R96, R103, R108, R163). If none joins the ask fails, and that map memory and the known
epoch then stay as they are is the model's reading (R97; log entry 19). Records with a bay of 24 to 31, whose lack of meaning the manual
leaves unsaid, are judged as any other: the model's choice (log entry 40). A stale GRANT is ignored whole when it
repeats the last accepted one, and else its new records are handed back by one GIVEBACK(UNUSED), the ask machine and map memory as before; a
GIVEBACK without a place is undelivered (R99). -/
def Obligations.GrantHeard : Prop :=
   (∀ source dest askId records m s u, RestAt m s u → m.writes = [] → wfGrant dest records = true → dest = u.own →
      actsOnPeers u = true →
      let heard := withHeard source true u
      let back (loans : List Nat) (x : State) : State :=
        if loans = [] then x
        else if hasPlace x = true then pushFrame { dest := source, body := .giveback .unused loans } x
        else report .givebackUndelivered x
      let asked := u.ask.state = .taking ∧ u.ask.lender = some source ∧ u.ask.askId = askId ∧ (rosterOf u.roster source).epoch ≠ none
      (asked → ∀ epoch, (rosterOf u.roster source).epoch = some epoch →
        let j := judgeGrant u.mm source epoch u.mm.spares (records.take u.ask.offerCount)
        let beyond :=
          ((records.drop u.ask.offerCount).filter fun r => !pairStands { u.mm with spares := j.spares } source r.loan).map (·.loan)
        let p := peerOf u.mm source
        let older := p.known ≠ none ∧ p.known ≠ some epoch
        let mm' := setPeer
          { u.mm with spares := if older then j.spares.filter (fun x => !(x.lender == source && x.epoch != epoch)) else j.spares }
          source
          (if older then { known := some epoch, inUse := 0, spare := j.joined }
           else { known := some epoch, inUse := p.inUse, spare := p.spare + j.joined })
        let told := if older ∧ 0 < p.inUse then report .dataLost heard else heard
        let done := back beyond (back j.full
          { told with
            mm := mm'
            ask := { u.ask with
              state := .idle, failures := 0, timer := none, lender := none, offerCount := 0, wanted := 0,
              lastAccepted := some (source, askId) } })
        (j.joined = 0 → exec (.grant source dest askId records m) s = .next (back beyond (back j.full (failAsk heard))))
        ∧ (0 < j.joined → (u.cond = .ready ∨ hasPlace done = true) →
            exec (.grant source dest askId records m) s
              = .next (judgeQuiet (judgeAsk done))))
      ∧ (¬ asked →
          let news := (records.filter fun r => !pairStands u.mm source r.loan).map (·.loan)
          exec (.grant source dest askId records m) s
            = .next (if u.ask.lastAccepted = some (source, askId) then heard else back news heard)))
  ∧ (∀ (mm : MapMemory) lender epoch,
      (∀ given : List GrantRecord, (given.map (·.loan)).Nodup →
        let news := given.filter fun r => !pairStands mm lender r.loan
        let room := 32 - mm.spares.length
        let j := judgeGrant mm lender epoch mm.spares given
        j.spares = mm.spares ++ (news.take room).map (fun r =>
            ({ lender := lender, loan := r.loan, bay := r.bay, grain := r.grain, epoch := epoch } : Spare))
        ∧ j.joined = (news.take room).length ∧ j.full = (news.drop room).map (·.loan))
      ∧ ∀ spares r more, pairStands { mm with spares := spares } lender r.loan = true →
          judgeGrant mm lender epoch spares (r :: more) = judgeGrant mm lender epoch spares more)

/-- A return step of a flush station in READY, or of a drain that is not ended: the back-most usable spare and the other usable spares of its
lender, from the back and up to 8 in all, leave the list, the lender's spare count falls by their number, and one GIVEBACK(UNUSED) names their
loans, back-most first; then R90 is judged, and in DRAIN the quiet condition (R90, R104, R163). Without a place or a due step nothing happens
(R104). -/
def Obligations.SparesReturned : Prop :=
  ∀ m s u, RestAt m s u → m.writes = [] →
    (returnDue u = false ∨ hasPlace u = false ∨ (∀ x ∈ u.mm.spares, spareUsable u.roster x = false) →
      exec (.returnStep m) s = .next u)
    ∧ (returnDue u = true ↔ (u.cond = .ready ∧ u.flush = true) ∨ (u.cond = .drain ∧ u.drainEnded = false))
    ∧ ∀ front sp back kept tail, returnDue u = true → hasPlace u = true → u.mm.spares = front ++ sp :: back →
        spareUsable u.roster sp = true → (∀ x ∈ back, spareUsable u.roster x = false) →
        let goes (x : Spare) : Bool := spareUsable u.roster x && x.lender == sp.lender
        u.mm.spares = kept ++ tail → tail.countP goes = min 8 (u.mm.spares.countP goes) →
        let p := peerOf u.mm sp.lender
        let done := pushFrame { dest := sp.lender, body := .giveback .unused ((tail.reverse.filter goes).map (·.loan)) }
          { u with
            mm := setPeer { u.mm with spares := kept ++ tail.filter fun x => !goes x } sp.lender
              { p with spare := p.spare - tail.countP goes } }
        (u.cond = .ready ∨ hasPlace done = true) →
        exec (.returnStep m) s = .next (judgeQuiet (judgeAsk done))

/-! ## Lending (spec/07) -/

/-- An ASK arms an offer of n grains after d slots when the station is in READY, not short, with no ask in flight and no offer open, the
asker is a PRESENT shelf station and n is 1 or more; otherwise an ASK from IDLE leaves no trace but its being heard (R82, R112, R118).
An ASK while an offer is open: from another station, or a second copy of the same ASK, it is ignored; a new ask id from the offer's
station ends the offer, withdrawing a QUEUED OFFER that is not on the link, and the ASK is judged from IDLE; an OFFER on the link stays open and
ends at the link's report (R112). -/
def Obligations.AskHeard : Prop :=
   (∀ source askId wanted m s u, OnAt m s u → u.offer.current = none → u.cond ≠ .start →
      let n := offerCount u.figures wanted.toNat
      let d := offerDelay u.figures
      let fits := u.cond = .ready ∧ askInFlight u = false ∧ u.short = false ∧ isPresentShelf u.roster source = true ∧ 1 ≤ n
      (fits → exec (.ask source askId wanted m) s
        = .next { withHeard source true u with
            offer := { state := .armed, current := some { asker := source, askId := askId, n := n, d := d },
                       timer := some (u.now + d * 64), endsAtReport := false } })
      ∧ (¬ fits → exec (.ask source askId wanted m) s = .next (withHeard source (handsOn u) u)))
  ∧ (∀ source askId wanted m s u o, OnAt m s u → handsOn u = true → u.offer.current = some o → u.offer.state ≠ .idle →
      (o.asker ≠ source ∨ o.askId = askId → exec (.ask source askId wanted m) s = .next (withHeard source true u))
      ∧ (o.asker = source → o.askId ≠ askId →
          (u.offer.state ≠ .queued →
            exec (.ask source askId wanted m) s
              = .next (judgeOffer source askId wanted.toNat { withHeard source true u with offer := OfferMachine.reset }))
          ∧ (u.offer.state = .queued → isDriving (isOfferOf o) u = false →
              exec (.ask source askId wanted m) s
                = .next (judgeOffer source askId wanted.toNat
                    (withdraw (isOfferOf o) { withHeard source true u with offer := OfferMachine.reset })))
          ∧ (u.offer.state = .queued → isDriving (isOfferOf o) u = true →
              exec (.ask source askId wanted m) s
                = .next { withHeard source true u with offer := { u.offer with endsAtReport := true } })))

/-- A matching TAKE in READY from a PRESENT station, g being 1 or more: the pool's g grains and loan records with the lowest free numbers are
one write, then the GRANT is queued with its records, the last-grant record is set and the offer ends; R90 is judged (R84, R118, R119).
The loan records of a grant: one for each grain in the order chosen, under the lowest free numbers in rising order, and no other number
changes (R119, R120). -/
def Obligations.TakeGranted : Prop :=
   (∀ source dest askId count m s u o epoch taken, RestAt m s u → m.writes = [] → dest ≠ broadcast → dest = u.own →
      u.cond = .ready → (u.offer.state = .queued ∨ u.offer.state = .waiting) → u.offer.current = some o → o.asker = source →
      o.askId = askId → hasPlace u = true → isPresent u.roster source = true → (rosterOf u.roster source).epoch = some epoch →
      Canonical u.mm →
      taken = takeGrains u.presence (grantCount u.figures count.toNat o.n) u.mm.freeSets u.rotor → taken.grains ≠ [] →
      let made := makeLoans source epoch u.mm.loans taken.grains
      exec (.take source dest askId count m) s
        = .next (judgeAsk (pushFrame { dest := source, body := .grant askId made.2 }
            { withHeard source true u with
              mm := { u.mm with freeSets := taken.sets, loans := made.1 }
              rotor := taken.rotor
              lastGrants := tablePut u.lastGrants source.toNat { askId := askId, records := made.2 }
              offer := OfferMachine.reset })))
  ∧ (∀ borrower epoch (t : Table Loan) (grains : List (Nat × Nat)), tableWf t →
      let made := makeLoans borrower epoch t grains
      made.2.map (fun r => (r.bay, r.grain)) = grains
      ∧ (made.2.map fun r => r.loan).Pairwise (· < ·)
      ∧ (∀ r ∈ made.2, tableFind t r.loan = none
          ∧ tableFind made.1 r.loan = some { borrower := borrower, epoch := epoch, bay := r.bay, grain := r.grain }
          ∧ ∀ n, n < r.loan → tableFind made.1 n ≠ none)
      ∧ (∀ n, (∀ r ∈ made.2, r.loan ≠ n) → tableFind made.1 n = tableFind t n)
      ∧ made.1.length = t.length + grains.length ∧ tableWf made.1)

/-- A TAKE that is answered without grains: a matching one with a g of 0, in DRAIN or from a station that is not PRESENT, gets a GRANT of
zero records, and without a place no GRANT, and its offer ends; a repeat gets its last GRANT again; any other TAKE to this station has no
effect; one to another station ends a WAITING offer of the same ask (R116, R118, R121, R122). -/
def Obligations.TakeOtherwise : Prop :=
  ∀ source dest askId count m s u, RestAt m s u → dest ≠ broadcast → actsOnPeers u = true →
    let heard := withHeard source (dest == u.own) u
    let run := exec (.take source dest askId count m) s
    let matching (o : OpenOffer) := u.offer.current = some o ∧ (u.offer.state = .queued ∨ u.offer.state = .waiting)
      ∧ o.asker = source ∧ o.askId = askId
    (dest = u.own → ∀ o, matching o →
      (hasPlace u = false → run = .next { heard with offer := OfferMachine.reset })
      ∧ (hasPlace u = true →
          (u.cond = .drain ∨ isPresent u.roster source = false ∨ grantCount u.figures count.toNat o.n = 0) →
          run = .next (pushFrame { dest := source, body := .grant askId [] }
            { heard with
              lastGrants := tablePut u.lastGrants source.toNat { askId := askId, records := [] }
              offer := OfferMachine.reset })))
    ∧ (dest = u.own → (∀ o, ¬ matching o) →
        (∀ last, tableFind u.lastGrants source.toNat = some last → last.askId = askId → hasPlace u = true →
          run = .next (pushFrame { dest := source, body := .grant askId last.records } heard))
        ∧ ((∀ last, tableFind u.lastGrants source.toNat = some last → last.askId ≠ askId) → run = .next heard))
    ∧ (dest ≠ u.own →
        (u.offer.state = .waiting → ∀ o, u.offer.current = some o → o.asker = source → o.askId = askId →
          run = .next { heard with offer := OfferMachine.reset })
        ∧ (u.offer.state ≠ .waiting → run = .next heard))

/-- A GIVEBACK, in READY and in DRAIN, whatever loan numbers it names: a number is valid if its record is the sender's, and the first time it is
named. In one write the valid numbers' records leave the table and their grains return to their free sets; then every last-grant record that
names one of them is emptied, and R90 is judged if a PRESENT bay gained a grain (R90, R123). For each other number STALE-GIVEBACK is reported and
counted once, and it changes nothing else (R124). -/
def Obligations.GivebackHeard : Prop :=
  ∀ source dest reason loans m s u, RestAt m s u → m.writes = [] → wfGiveback dest loans = true → dest = u.own →
    actsOnPeers u = true → Canonical u.mm → CounterLaw u →
    let mine (n : Nat) : Bool := (tableFind u.mm.loans n).any fun l => l.borrower == source
    let stale := loans.length - ((loans.filter mine).eraseDups).length
    ∃ t, exec (.giveback source dest reason loans m) s
          = .next (if poolFree u.presence u.mm.freeSets ≠ poolFree u.presence t.mm.freeSets then judgeAsk t else t)
      ∧ t = { withHeard source true u with
            mm := { u.mm with loans := t.mm.loans, freeSets := t.mm.freeSets }
            lastGrants := u.lastGrants.filter (fun p => !p.2.records.any fun r => loans.contains r.loan && mine r.loan)
            link := t.link, faults := t.faults, attention := t.attention }
      ∧ (∀ n, tableFind t.mm.loans n = if loans.contains n && mine n then none else tableFind u.mm.loans n)
      ∧ (∀ bay x, u.mm.freeSets[bay]? = some x → ∃ y, t.mm.freeSets[bay]? = some y ∧ y.count = x.count
          ∧ ∀ g, y.has g = true ↔ x.has g = true
              ∨ (g < x.count ∧ ∃ n ∈ loans, ∃ l, tableFind u.mm.loans n = some l ∧ l.borrower = source ∧ l.bay = bay ∧ l.grain = g))
      ∧ t.faults.flags = (if stale = 0 then u.faults.flags else u.faults.flags ||| Flag.staleGiveback.bit)
      ∧ t.faults.enables = u.faults.enables
      ∧ t.faults.counts = { u.faults.counts with staleGivebacks := min 65535 (u.faults.counts.staleGivebacks + stale) }
      ∧ (stale = 0 → t.link = u.link)

/-! ## The roster and frames heard (spec/08, spec/09) -/

/-- A HAIL from another station sets the record's kind and last heard; one that carries an epoch sets the epoch, and makes the record PRESENT
unless it is LEAVING; any other makes it LOST. No other record changes. In START nothing is heard (R132, R134 to R137). It raises
PEER-PRESENT when the record becomes PRESENT, PEER-LOST when it ceases to be, and PEER-NEW-EPOCH when its epoch changes (R134 to R137,
R139). PEER-PRESENT of a station with no other known epoch and no loan under another changes nothing, and R90 is judged for a shelf (R90,
R107, R125). PEER-LOST, in READY and in DRAIN, fails an ask in TAKING to the station and ends an offer open to it, a QUEUED one whose OFFER
is on the link at the link's report; loans and spares stay, and in DRAIN the quiet condition is judged (R100, R107, R117, R126, R163). That
an identity above 2 carries no epoch and makes the record LOST is the model's reading (log entry 17); the order in which the blocks take one
event is its choice (log entry 37). -/
def Obligations.HailHeard : Prop :=
  ∀ source (h : HailBody) m s u, OnAt m s u → h.q ≤ 1000 → source ≠ u.own → source ≠ broadcast →
    let was := rosterOf u.roster source
    let e : Epoch := { serial := h.serial, formatCount := h.formatCount }
    let heard := withHeard source (handsOn u) u
    let run := exec (.hail source h m) s
    let recorded (state : PeerState) (epoch : Option Epoch) : State := { heard with
      roster := tableSet RosterRecord.none heard.roster source.toNat
        { state := state, kind := some h.kind, epoch := epoch, lastHeard := some u.now } }
    let raised (events : List RosterEvent) (t : State) : Host.Outcome State Fault Refusal :=
      .next (perform m (events.flatMap (eventTasks source)) t)
    let renewed : List RosterEvent := if was.epoch ≠ none ∧ was.epoch ≠ some e then [.peerNewEpoch] else []
    (u.cond = .start → run = .next { u with ackDriven := false })
    ∧ (u.cond ≠ .start →
        (h.identity = 2 → h.cond ≠ .leaving →
          run = raised ((if was.state = .present then [] else [.peerPresent]) ++ renewed) (recorded .present (some e)))
        ∧ (h.identity = 2 → h.cond = .leaving →
            run = raised ((if was.state = .present then [.peerLost] else []) ++ renewed) (recorded .lost (some e)))
        ∧ (h.identity ≠ 2 → run = raised (if was.state = .present then [.peerLost] else []) (recorded .lost was.epoch))
        ∧ (AtRest s → (u.cond = .drain → u.profile.serviceEdge = true ∨ serviceAsserted u = true) →
            ∃ t, run = .next t ∧ t.ackDriven = handsOn u
              ∧ (∀ st, st ≠ source → rosterOf t.roster st = rosterOf u.roster st)
              ∧ (h.identity = 2 →
                  rosterOf t.roster source =
                    { state := if h.cond = .leaving then .lost else .present, kind := some h.kind, epoch := some e,
                      lastHeard := some u.now })
              ∧ (h.identity ≠ 2 →
                  rosterOf t.roster source =
                    { state := .lost, kind := some h.kind, epoch := was.epoch, lastHeard := some u.now }))
        ∧ (AtRest s → u.loanUp = true → h.identity = 2 → h.cond ≠ .leaving → was.state ≠ .present →
            (was.epoch = none ∨ was.epoch = some e) →
            ((peerOf u.mm source).known = none ∨ (peerOf u.mm source).known = some e) →
            (∀ p ∈ u.mm.loans, p.2.borrower = source → p.2.epoch = e) →
            (h.kind = .shelf → run = .next (judgeAsk (recorded .present (some e))))
            ∧ (h.kind = .requester → run = .next (recorded .present (some e))))
        ∧ (AtRest s → (u.cond = .ready ∨ (u.cond = .drain ∧ u.link.occupied < 32)) → was.state = .present →
            (∀ r ∈ u.mm.pendings, r.requester ≠ source) →
            ∀ epoch, ((h.identity ≠ 2 ∧ epoch = was.epoch) ∨ (h.identity = 2 ∧ h.cond = .leaving ∧ renewed = [] ∧ epoch = some e)) →
            let lost := recorded .lost epoch
            let failed := if u.ask.state = .taking ∧ u.ask.lender = some source then failAsk lost else lost
            ((∀ o, u.offer.current = some o → o.asker ≠ source) → run = .next (judgeQuiet failed))
            ∧ ∀ o, u.offer.current = some o → o.asker = source →
                (u.offer.state = .armed ∨ u.offer.state = .waiting →
                  run = .next (judgeQuiet { failed with offer := OfferMachine.reset }))
                ∧ (u.offer.state = .queued → isDriving (isOfferOf o) u = true →
                    run = .next (judgeQuiet { failed with offer := { u.offer with endsAtReport := true } }))
                ∧ (u.offer.state = .queued → isDriving (isOfferOf o) u = false →
                    run = .next (judgeQuiet (withdraw (isOfferOf o) { failed with offer := OfferMachine.reset })))))

/-- A station that appears, or is PRESENT, with another epoch than the known one of its peer capacity record, in READY: DATA-LOST is reported if
the record is in use, its counts are 0 and its known epoch the new one, its old spares are dropped, and its loans under another epoch are
reclaimed, all before the event is over (R107, R108, R125, R135); if its record held another epoch, its pending records are rolled back as
well (R53, R135), and else they stay. The case left out is a pending record of that station's on a loan of its own under the epoch it now has. -/
def Obligations.NewEpochTaken : Prop :=
  ∀ source (h : HailBody) m s u known, RestAt m s u → m.writes = [] → h.q ≤ 1000 → source ≠ u.own → source ≠ broadcast →
    u.cond = .ready → u.loanUp = true → h.identity = 2 → h.cond ≠ .leaving → u.mm.pendings.length ≤ 128 →
    let e : Epoch := { serial := h.serial, formatCount := h.formatCount }
    let was := rosterOf u.roster source
    (peerOf u.mm source).known = some known → known ≠ e →
    (was.state ≠ .present ∨ (was.epoch ≠ none ∧ was.epoch ≠ some e)) →
    (∀ r ∈ u.mm.pendings, r.requester = source → ∀ x, entryOf u.mm r.volume r.chunk = some x →
      ∀ loan bay grain, x.place ≠ .remote source loan bay grain e) →
    ∃ t, exec (.hail source h m) s = .next t ∧ t.cond = .ready
      ∧ peerOf t.mm source = { known := some e, inUse := 0, spare := 0 }
      ∧ (0 < (peerOf u.mm source).inUse → t.faults.has .dataLost = true)
      ∧ (∀ x ∈ t.mm.spares, x.lender = source → x.epoch = e)
      ∧ (∀ p ∈ t.mm.loans, p.2.borrower = source → p.2.epoch = e)
      ∧ (∀ p, p ∈ t.mm.loans ↔ p ∈ u.mm.loans ∧ ¬ (p.2.borrower = source ∧ p.2.epoch ≠ e))
      ∧ (was.epoch ≠ none → was.epoch ≠ some e → ∀ r ∈ t.mm.pendings, r.requester ≠ source)
      ∧ (was.epoch = none ∨ was.epoch = some e → t.mm.pendings = u.mm.pendings)

/-- A HAIL that bears the station's own number and shows another station takes the station to MUTE: DUPLICATE is reported, the queue, the
buffer and every timer of the transmitting side are empty, both machines are IDLE, and map memory is as before; a further one in MUTE is
reported and changes nothing else; one that shows the station's own serial is ignored (R143, R153, R168). That an identity above 2 shows another
station is the model's reading (log entry 17). -/
def Obligations.DuplicateMutes : Prop :=
  ∀ (h : HailBody) m s u, OnAt m s u → h.q ≤ 1000 → u.cond ≠ .start →
    let differs := u.profileRead = false ∨ (h.identity ≠ 1 ∧ h.identity ≠ 2) ∨ h.serial ≠ u.profile.serial
    (differs → u.cond ≠ .mute →
      ∃ t, exec (.hail u.own h m) s = .next t ∧ t.cond = .mute ∧ t.faults.has .duplicate = true ∧ t.mm = u.mm
        ∧ t.link.queue = [] ∧ t.link.hand = none ∧ t.buffer = [] ∧ t.ask.state = .idle ∧ t.ask.timer = none
        ∧ t.offer = OfferMachine.reset ∧ t.joinTimer = none ∧ t.drainTimer = none ∧ t.hailTimer = none ∧ t.walkerTimer = none
        ∧ t.roster = u.roster ∧ t.profile = u.profile)
    ∧ (differs → u.cond = .mute → exec (.hail u.own h m) s = .next (report .duplicate { u with ackDriven := false }))
    ∧ (¬ differs → exec (.hail u.own h m) s = .next { u with ackDriven := handsOn u })

/-- A frame read on the link is the event its bits spell: each frame a shelf station sends is read back as it was built, for every value of its
fields (R144, R145, R146, R155). An ALERT is noted and acknowledged as a broadcast, and a REPLY, which no block of a shelf takes, is noted
(R132, R146, R148); that a REPLY is not acknowledged is the model's reading (log entry 31). -/
def Obligations.FramesReadBack : Prop :=
  ∀ (source dest : Station) (askId : AskId) (n : Byte) m s,
    (exec (.frameHeard (OutFrame.raw source { dest := broadcast, body := .ask askId n.toNat }) m) s
      = exec (.ask source askId n m) s)
    ∧ (∀ (asker : Station) (d : BitVec 5), asker ≠ broadcast →
        exec (.frameHeard (OutFrame.raw source { dest := broadcast, body := .offer askId asker n.toNat d.toNat }) m) s
          = exec (.offer source askId asker n d m) s)
    ∧ (dest ≠ broadcast →
        exec (.frameHeard (OutFrame.raw source { dest := dest, body := .take askId n.toNat }) m) s
          = exec (.take source dest askId n m) s)
    ∧ (∀ records, wfGrant dest records = true →
        exec (.frameHeard (OutFrame.raw source { dest := dest, body := .grant askId records }) m) s
          = exec (.grant source dest askId records m) s)
    ∧ (∀ reason loans, wfGiveback dest loans = true →
        exec (.frameHeard (OutFrame.raw source { dest := dest, body := .giveback reason loans }) m) s
          = exec (.giveback source dest reason loans m) s)
    ∧ (∀ h : HailBody, h.q ≤ 1000 →
        exec (.frameHeard (OutFrame.raw source { dest := broadcast, body := .hail h }) m) s = exec (.hail source h m) s)
    ∧ ∀ u, OnAt m s u →
        (∀ flag condition,
          exec (.frameHeard (OutFrame.raw source { dest := broadcast, body := .alert flag condition }) m) s
            = .next (if u.cond = .start then { u with ackDriven := false } else withHeard source (handsOn u) u))
        ∧ (dest ≠ broadcast → ∀ r,
            exec (.frameHeard (OutFrame.raw source { dest := dest, body := .reply r }) m) s
              = .next (if u.cond = .start then { u with ackDriven := false } else withHeard source false u))

/-! ## The outbound queue and the link (spec/09, spec/11) -/

/-- A frame that joins the queue stands behind those of lower or equal arbitration field and before those of higher (R149); it joins only
where there is room and the condition does not refuse it (R149, R151, R153); that QUIET and MUTE refuse every frame is the model's reading (log
entry 26).
A report sets its flag; if it was clear and enabled one ALERT with the flag and the condition is offered; ATTENTION stands as R170 says
(R169, R170). -/
def Obligations.FramesAndReports : Prop :=
   ((∀ (q : List OutFrame) (f : OutFrame), (q.Pairwise fun a b => a.rank ≤ b.rank) →
      insertFrame q f = q.filter (fun x => decide (x.rank ≤ f.rank)) ++ f :: q.filter (fun x => !decide (x.rank ≤ f.rank)))
    ∧ ∀ (f : OutFrame) (s : State),
        let refused := s.cond = .quiet ∨ s.cond = .mute
          ∨ (s.cond = .halted ∧ ¬ ((∃ h, f.body = .hail h) ∨ ∃ r, f.body = .reply r ∧ r.status = .notReady))
        let replyOrAlert := (∃ r, f.body = .reply r) ∨ ∃ g c, f.body = .alert g c
        offerFrame f s = some (pushFrame f s)
          ↔ ¬ refused ∧ s.link.occupied < 32 ∧ (replyOrAlert → s.link.replies < 24))
  ∧ (∀ (f : Flag) (s : State),
      let flags := s.faults.flags ||| BitVec.twoPow 13 f.number
      let marked : State := { s with
        faults := { s.faults with flags := flags }
        attention := decide (s.cond ≠ .start) && decide (flags &&& s.faults.enables ≠ 0) }
      let alert : OutFrame := { dest := broadcast, body := .alert f s.cond.code }
      (s.faults.flags.getLsbD f.number = true ∨ s.faults.enables.getLsbD f.number = false → report f s = marked)
      ∧ (s.faults.flags.getLsbD f.number = false → s.faults.enables.getLsbD f.number = true →
          (offerFrame alert s = none → report f s = marked)
          ∧ (offerFrame alert s ≠ none → report f s = pushFrame alert marked)))

/-- An attempt begins with the frame in hand, or with the front frame, which becomes the frame in hand with retry count 0; in HALTED only a
HAIL or REPLY(NOTREADY) is sent, any other frame in hand or at the front staying where it is, and in START, JOIN, QUIET and MUTE nothing (R150,
R153). Nothing to send, or an attempt already on the link, changes nothing.
An arbitration loss leaves the frame in hand with its retry count; in HALTED a frame that is not sent there is removed instead and its
owner told (R145, R150, R153); that one HALTED does send stays there too is the model's choice (log entry 44). Without an attempt on the link
nothing happens (log entry 3). -/
def Obligations.AttemptsBegin : Prop :=
   (∀ m s u, OnAt m s u →
      (isSilent u.cond → exec (.attemptStart m) s = .next u)
      ∧ (∀ h, u.link.hand = some h → h.driving = none → ¬ isSilent u.cond → (u.cond ≠ .halted ∨ h.frame.sentInHalted = true) →
          exec (.attemptStart m) s
            = .next { u with link := { u.link with hand := some { h with driving := some (h.frame.raw u.own) } } })
      ∧ (∀ f rest, u.link.hand = none → u.link.queue = f :: rest → ¬ isSilent u.cond → (u.cond ≠ .halted ∨ f.sentInHalted = true) →
          exec (.attemptStart m) s
            = .next { u with link := { u.link with
                queue := rest, hand := some { frame := f, retries := 0, driving := some (f.raw u.own) } } })
      ∧ (∀ h, u.link.hand = some h → (h.driving ≠ none ∨ (u.cond = .halted ∧ h.frame.sentInHalted = false)) →
          exec (.attemptStart m) s = .next u)
      ∧ (∀ f rest, u.link.hand = none → u.link.queue = f :: rest → u.cond = .halted → f.sentInHalted = false →
          exec (.attemptStart m) s = .next u)
      ∧ (u.link.hand = none → u.link.queue = [] → exec (.attemptStart m) s = .next u)
      ∧ ∀ f : OutFrame, f.sentInHalted = true ↔ (∃ h, f.body = .hail h) ∨ ∃ r, f.body = .reply r ∧ r.status = .notReady)
  ∧ (∀ m s u, OnAt m s u →
      (∀ h raw, u.link.hand = some h → h.driving = some raw →
        (u.cond ≠ .halted ∨ h.frame.sentInHalted = true →
          exec (.arbitrationLost m) s = .next { u with link := { u.link with hand := some { h with driving := none } } })
        ∧ (u.cond = .halted → h.frame.sentInHalted = false →
            exec (.arbitrationLost m) s = .next (toldDropped h.frame.body { u with link := { u.link with hand := none } })))
      ∧ (notDriving u → exec (.arbitrationLost m) s = .next u))

/-- A frame that ends leaves the queue and its owner is told: the ASK's window, the TAKE's GRANT wait and the OFFER's TAKE wait run from
now, a refused withdrawal ends its offer, and any other frame that is not HAIL(LEAVING) has no more to it (R92, R95, R112, R115, R150).
A failed attempt raises the retry count up to 7 and leaves the frame in hand; the eighth drops it: it leaves the queue, FRAME-DROPPED is
reported and counted, and the owner acts as R151 says: an ASK or TAKE fails its ask, an OFFER ends its offer, a GRANT or GIVEBACK is
undelivered (R92, R95, R115, R127, R150, R151). -/
def Obligations.AttemptsEnd : Prop :=
   (∀ m s u h raw, RestAt m s u → u.link.hand = some h → h.driving = some raw →
      let gone : State := { u with link := { u.link with hand := none } }
      (∀ askId w, h.frame.body = .ask askId w → u.ask.state = .calling → u.ask.askId = askId →
        exec (.frameEnded m) s = .next { gone with ask := { u.ask with timer := some (u.now + 40 * 64) } })
      ∧ (∀ askId n, h.frame.body = .take askId n → u.ask.state = .taking → u.ask.askId = askId →
          exec (.frameEnded m) s = .next { gone with ask := { u.ask with timer := some (u.now + 256 * 64) } })
      ∧ (∀ o, h.frame.body = .offer o.askId o.asker o.n o.d → u.offer.state = .queued → u.offer.current = some o →
          (u.offer.endsAtReport = false →
            exec (.frameEnded m) s
              = .next { gone with offer := { u.offer with state := .waiting, timer := some (u.now + 128 * 64) } })
          ∧ (u.offer.endsAtReport = true → exec (.frameEnded m) s = .next { gone with offer := OfferMachine.reset }))
      ∧ ((∃ r, h.frame.body = .reply r) ∨ (∃ i rs, h.frame.body = .grant i rs) ∨ (∃ r ls, h.frame.body = .giveback r ls)
          ∨ (∃ f c, h.frame.body = .alert f c) ∨ (∃ b, h.frame.body = .hail b ∧ b.cond ≠ .leaving) →
          exec (.frameEnded m) s = .next gone))
  ∧ (∀ m s u h raw, RestAt m s u → u.link.hand = some h → h.driving = some raw → (u.cond = .ready ∨ u.cond = .drain) →
      let dropped := countUp .framesDropped (report .frameDropped { u with link := { u.link with hand := none } })
      (h.retries < 7 →
        exec (.attemptFailed m) s
          = .next { u with link := { u.link with hand := some { h with retries := h.retries + 1, driving := none } } })
      ∧ (7 ≤ h.retries →
          ((∃ r, h.frame.body = .reply r) ∨ (∃ f c, h.frame.body = .alert f c)
              ∨ (∃ b, h.frame.body = .hail b ∧ b.cond ≠ .leaving) →
            exec (.attemptFailed m) s = .next dropped)
          ∧ (∀ askId w, h.frame.body = .ask askId w ∨ h.frame.body = .take askId w →
              u.ask.askId = askId → u.ask.state = (if h.frame.body = .ask askId w then .calling else .taking) →
              exec (.attemptFailed m) s = .next (failAsk dropped))
          ∧ (∀ o, h.frame.body = .offer o.askId o.asker o.n o.d → u.offer.state = .queued → u.offer.current = some o →
              exec (.attemptFailed m) s = .next { dropped with offer := OfferMachine.reset })
          ∧ (∀ askId rs, h.frame.body = .grant askId rs → exec (.attemptFailed m) s = .next (report .grantUndelivered dropped))
          ∧ (∀ reason ls, h.frame.body = .giveback reason ls →
              exec (.attemptFailed m) s = .next (report .givebackUndelivered dropped))))

/-! ## The walker and the rollbacks (spec/03, spec/04) -/

/-- One walker period of one visit, in READY or in a drain that is not ended: an entry with a shield loses one of it under a TRIM range;
otherwise a MAPPED LOCAL entry frees its grain, a MAPPED REMOTE one that is not lost is handed back by GIVEBACK(TRIMMED) with the lender's in-use
count lowered (one of 0 stays 0, the model's choice: log entry 43), and a lost one is removed alone; the cursor moves past the chunk and the
timer restarts (R64, R65, R66, R68, R69, R71). A walker period of one visit that finds no entry left ends the head range: TRIMMED is queued after
the range has left the queue, and a DELETE range makes its volume FREE first; without room for the REPLY, or with no range, only the timer
restarts; in a condition in which the walker does not work nothing happens (R27, R64, R65, R70). -/
def Obligations.WalkerWorks : Prop :=
   (∀ m s u r rest c e x, RestAt m s u → m.writes = [] → walkerWorks u = true → u.walkerTimer = some x → x ≤ u.now →
      u.profile.walkerVisits = 1 → u.mm.trims = r :: rest → r.last < 16777216 → tableWf u.mm.chunks →
      r.cursor ≤ c → c ≤ r.last → entryOf u.mm r.volume c = some e →
      (∀ b, r.cursor ≤ b → b < c → entryOf u.mm r.volume b = none) →
      let next : State := { u with walkerTimer := some (u.now + u.profile.walkerPeriod * 4) }
      let moved := { r with cursor := c + 1 } :: rest
      let v := volumeOf u.mm r.volume
      let gone : MapMemory := { setVolume u.mm r.volume { v with count := v.count - 1 } with
        chunks := tableErase u.mm.chunks (chunkKey r.volume c), trims := moved }
      (r.origin = .trim → 0 < e.shield →
        exec (.walkerPeriod m) s
          = .next { next with mm := { u.mm with
              chunks := tablePut u.mm.chunks (chunkKey r.volume c) { e with shield := e.shield - 1 }, trims := moved } })
      ∧ (r.origin = .delete ∨ e.shield = 0 → (∃ st t, e.state = .mapped st t) →
          (∀ bay grain, e.place = .here bay grain →
            ∃ t, exec (.walkerPeriod m) s = .next t
              ∧ (t = { next with mm := { gone with freeSets := giveGrain u.mm.freeSets bay grain } }
                ∨ t = judgeAsk { next with mm := { gone with freeSets := giveGrain u.mm.freeSets bay grain } }))
          ∧ ∀ lender loan bay grain ep, e.place = .remote lender loan bay grain ep →
              let p := peerOf u.mm lender
              (u.judge e.place = .lost → exec (.walkerPeriod m) s = .next { next with mm := gone })
              ∧ (u.judge e.place ≠ .lost → p.known = some ep →
                  (hasPlace u = true →
                    exec (.walkerPeriod m) s
                      = .next (pushFrame { dest := lender, body := .giveback .trimmed [loan] }
                          { next with mm := setPeer gone lender { p with inUse := p.inUse - 1 } }))
                  ∧ (hasPlace u = false → exec (.walkerPeriod m) s = .next next)))
      ∧ (r.origin = .delete ∨ e.shield = 0 → (∃ st t ex, e.state = .pending st t ex) →
          let d := rollbackChunk u.roster u.presence u.mm r.volume c
          (d.handback = none ∨ hasPlace u = true →
            ∃ t, exec (.walkerPeriod m) s = .next t ∧ t.mm = { d.mm with trims := moved } ∧ t.cond = u.cond)
          ∧ (d.handback ≠ none → hasPlace u = false → exec (.walkerPeriod m) s = .next next)))
  ∧ (∀ m s u x, RestAt m s u → m.writes = [] → u.walkerTimer = some x → x ≤ u.now →
      let next : State := { u with walkerTimer := some (u.now + u.profile.walkerPeriod * 4) }
      (walkerWorks u = true ↔ u.cond = .ready ∨ (u.cond = .drain ∧ u.drainEnded = false))
      ∧ (walkerWorks u = false → exec (.walkerPeriod m) s = .next u)
      ∧ (walkerWorks u = true → u.mm.trims = [] → exec (.walkerPeriod m) s = .next next)
      ∧ ∀ r rest, walkerWorks u = true → u.profile.walkerVisits = 1 → u.mm.trims = r :: rest → r.last < 16777216 →
          (∀ b, r.cursor ≤ b → b ≤ r.last → entryOf u.mm r.volume b = none) →
          let told (chunk : Nat) : OutFrame :=
            { dest := r.requester, body := .reply { tag := r.tag, status := .trimmed, volume := r.volume, chunk := chunk, part := .none } }
          (hasReplyPlace u = false → exec (.walkerPeriod m) s = .next next)
          ∧ (hasReplyPlace u = true → (u.cond = .ready ∨ u.link.occupied + 1 < 32) →
              (r.origin = .trim →
                exec (.walkerPeriod m) s
                  = .next (judgeQuiet (pushFrame (told r.first) { next with mm := { u.mm with trims := rest } })))
              ∧ (r.origin = .delete →
                  exec (.walkerPeriod m) s
                    = .next (judgeQuiet (pushFrame (told 0)
                        { next with mm := { u.mm with trims := rest, volumes := tableErase u.mm.volumes r.volume } })))))

/-- The visits of a walker period: a period of K + 1 visits is one visit followed, if it was made and the walker still works, by the K others,
each at the range that is at the head by then; after a visit that could not be made, or with the queue empty, or the drain over, the period is
over (R64, R164). A visit that is made moves the cursor of the head range or ends the range, so it shows in the trim queue (R65, R70). -/
def Obligations.WalkerPeriodVisits : Prop :=
  ∀ m s u x k, RestAt m s u → m.writes = [] → walkerWorks u = true → u.walkerTimer = some x → x ≤ u.now →
    u.profile.walkerVisits = k + 1 → k < 64 →
    let visits (n : Nat) (t : State) : State := { t with profile := { t.profile with walkerVisits := n } }
    ∀ t, exec (.walkerPeriod m) (visits 1 s) = .next t →
      (t.mm.trims = u.mm.trims ∨ walkerWorks t = false → exec (.walkerPeriod m) s = .next (visits (k + 1) t))
      ∧ (t.mm.trims ≠ u.mm.trims → walkerWorks t = true →
          ∀ w, exec (.walkerPeriod m) (visits k { t with walkerTimer := some u.now }) = .next w →
            exec (.walkerPeriod m) s = .next (visits (k + 1) w))

/-- When the front pending record's hold runs out in READY or DRAIN, every record of that expiry time is rolled back in one event, whatever its
place: the records and their entries are gone, the other records and entries, the ranges and the loans are as before; before its time, or in
a condition in which holds do not expire, nothing happens (R51, R52). That one HOLD_EXPIRY takes all the records of that time is the model's
reading (log entry 24).
A PRESENT record that has not been heard for three presence intervals becomes LOST with its kind and epoch kept, its requester's pending
records are rolled back in READY and DRAIN, and its loans stay; before that, and in any other state, it does not age (R53, R126, R133). -/
def Obligations.RecordsRolledBack : Prop :=
   (∀ m s u r rest, RestAt m s u → m.writes = [] → u.mm.pendings = r :: rest → Canonical u.mm → Fits u.mm → PendingLaw u.mm →
      (u.now < r.expiry ∨ (u.cond ≠ .ready ∧ u.cond ≠ .drain) → exec (.holdExpiry m) s = .next u)
      ∧ (r.expiry ≤ u.now → u.cond = .ready ∨ u.cond = .drain →
          ∃ t, exec (.holdExpiry m) s = .next t ∧ (u.cond = .ready → t.cond = .ready)
            ∧ t.mm.pendings = u.mm.pendings.filter (fun x => x.expiry != r.expiry)
            ∧ (∀ x ∈ u.mm.pendings, x.expiry = r.expiry → entryOf t.mm x.volume x.chunk = none)
            ∧ (∀ v c, c < 16777216 → (∀ x ∈ u.mm.pendings, x.expiry = r.expiry → ¬ (x.volume = v ∧ x.chunk = c)) →
                entryOf t.mm v c = entryOf u.mm v c)
            ∧ t.mm.trims = u.mm.trims ∧ t.mm.loans = u.mm.loans))
  ∧ (∀ station m s u, RestAt m s u →
      (((rosterOf u.roster station).state ≠ .present
          ∨ ∀ x, (rosterOf u.roster station).lastHeard = some x → u.now < x + 3 * u.profile.presenceInterval * 4000) →
        exec (.peerAgeExpiry station m) s = .next u)
      ∧ ∀ x, m.writes = [] → (u.cond = .ready ∨ (u.cond = .drain ∧ (u.profile.serviceEdge = true ∨ serviceAsserted u = true))) →
          (rosterOf u.roster station).state = .present →
          (rosterOf u.roster station).lastHeard = some x → x + 3 * u.profile.presenceInterval * 4000 ≤ u.now →
          Canonical u.mm → Fits u.mm → PendingLaw u.mm →
          ∃ t, exec (.peerAgeExpiry station m) s = .next t ∧ (u.cond = .ready → t.cond = .ready)
            ∧ rosterOf t.roster station = { rosterOf u.roster station with state := .lost }
            ∧ (∀ st, st ≠ station → rosterOf t.roster st = rosterOf u.roster st)
            ∧ t.mm.pendings = u.mm.pendings.filter (fun r => r.requester != station)
            ∧ (∀ r ∈ u.mm.pendings, r.requester = station → entryOf t.mm r.volume r.chunk = none)
            ∧ t.mm.loans = u.mm.loans ∧ t.mm.trims = u.mm.trims)

/-- What a rollback does with the grain, by the place of the entry and the lender's record: to its free set; dropped; to the front of the
spare list; or handed back where the list is full (R52). That an in-use count of 0 it lowers stays 0 is the model's choice (log entry 43). -/
def Obligations.RollbackPlaces : Prop :=
  ∀ roster presence (mm : MapMemory) v c e, entryOf mm v c = some e →
    let d := rollbackChunk roster presence mm v c
    let rec0 := volumeOf mm v
    let base : MapMemory := { setVolume mm v { rec0 with count := rec0.count - 1 } with
      chunks := tableErase mm.chunks (chunkKey v c)
      pendings := mm.pendings.filter fun r => !(r.volume == v && r.chunk == c) }
    (∀ bay grain, e.place = .here bay grain →
      d.mm = { base with freeSets := giveGrain mm.freeSets bay grain } ∧ d.handback = none)
    ∧ ∀ lender loan bay grain ep, e.place = .remote lender loan bay grain ep →
        let p := peerOf mm lender
        let lost := (isPresent roster lender = true ∧ (rosterOf roster lender).epoch ≠ some ep) ∨ p.known ≠ some ep
        (lost → d.mm = base ∧ d.handback = none)
        ∧ (¬ lost → mm.spares.length < 32 →
            d.mm = { setPeer base lender { p with inUse := p.inUse - 1, spare := p.spare + 1 } with
                spares := { lender := lender, loan := loan, bay := bay, grain := grain, epoch := ep } :: mm.spares }
            ∧ d.handback = none)
        ∧ (¬ lost → 32 ≤ mm.spares.length →
            d.mm = setPeer base lender { p with inUse := p.inUse - 1 }
            ∧ d.handback = some { lender := lender, loan := loan, reason := .rollback })

/-- A write that stays in progress changes no map memory; when it completes its image takes effect whole and the request's answer is queued;
when it fails nothing of it does and the station halts. Shown for the write of a COMMIT in READY (R4, R12, R34, R49, R149). -/
def Obligations.WriteCompletesLater : Prop :=
  ∀ m s u f rest v c tag expiry pl shield stay, Takes m s u f rest → parseRequest u.fresh f = .commit v c tag →
    m.writes = .staysInProgress :: stay → u.cond = .ready → (volumeOf u.mm v).state = .active → c < (volumeOf u.mm v).size →
    entryOf u.mm v c = some { state := .pending f.source tag expiry, place := pl, shield := shield } →
    ∃ t, exec (.commit m) s = .next t ∧ t.mm = u.mm ∧ t.buffer = rest ∧ t.link.queue = u.link.queue
      ∧ t.link.reservedReplies = u.link.reservedReplies + 1
      ∧ ∀ m' t', t' = advance m'.time t →
          exec (.mapMemoryWriteCompletion true m') t
            = .next (withAnswer f rest { tag := tag, status := .done, volume := v, chunk := c, part := .none }
                { u with
                  now := t'.now
                  mm := { u.mm with
                    chunks := tablePut u.mm.chunks (chunkKey v c) { state := .mapped f.source tag, place := pl, shield := shield }
                    pendings := u.mm.pendings.filter fun r => !(r.volume == v && r.chunk == c) } })
          ∧ ∃ w, exec (.mapMemoryWriteCompletion false m') t = .next w ∧ w.mm = u.mm ∧ w.cond = .halted
              ∧ w.faults.has .mapMem = true

/-! ## Condition and starts (spec/10) -/

/-- While the supply is off every command but POWER_ON and POWER_LOSS changes nothing. A loss of supply keeps map memory, the write in progress
taking effect whole or not at all, and nothing volatile: every other field is as in the reset state, but for the model's own (the queue of
commands, the time and the number of free values used; log entries 3, 4, 15). A reset pulse shorter than 10 µs is not taken (R157). -/
def Obligations.SupplyAndPulse : Prop :=
  (∀ c s, s.powered = false → (∀ pins rom takes m, c ≠ .powerOn pins rom takes m) → (∀ takes, c ≠ .powerLoss takes) →
    exec c s = .next s)
  ∧ (∀ takes s,
      let off (mm : MapMemory) : State :=
        { State.reset with powered := false, pending := s.pending, now := s.now, fresh := s.fresh, mm := mm }
      (s.inflight = none → exec (.powerLoss takes) s = .next (off s.mm))
      ∧ ∀ w, s.inflight = some w → exec (.powerLoss takes) s = .next (off (if takes then w.image else s.mm)))
  ∧ ∀ lowFor pins rom takes m s u, OnAt m s u → lowFor < 40 → exec (.resetPin lowFor pins rom takes m) s = .next u

/-- A full start without a profile, the ROM silent or its sum bad: PROFILE-ABSENT is reported, with PROFILE-CLAMPED for a strap of 15, map
memory is left as it is and not read, the pool is empty, and JOIN is entered with the outcome HALTED for 100 ms (R17, R75, R157). A full start
with a profile, the FORMAT strap released and a header that is not valid: MAPMEM is reported, map memory is left untouched and JOIN is entered
with the outcome HALTED (R2, R158).
The first write of a start with a valid header that fails: MAPMEM is reported, no further stage runs, map memory is as before, and JOIN is
entered with the outcome HALTED (R160, R167) and a P and q of 0 (R86). The first write of its rollback that fails: likewise, but the restart
count already written stands, and the pool, set up before it, keeps its free sets, P, F, the rotor and the bays as sensed (R12, R15, R160). The
model's choices: the profile values a station without a profile holds, where the manual states none (log entry 11); one ALERT for a strap of 15
and its place before the other (log entry 12); that the pool is empty, F and E 0 with P, after a failed first write and not after a later one,
and the epoch kept (log entries 14, 42). -/
def Obligations.StartWithoutContents : Prop :=
   (∀ cmd cause pins rom takes m s,
      ((cmd = .powerOn pins rom takes m ∧ cause = .power)
        ∨ ∃ lowFor, 40 ≤ lowFor ∧ s.powered = true ∧ cmd = .resetPin lowFor pins rom takes m ∧ cause = .pin) →
      (∀ r, rom = some r → romSumGood r.contents = false) →
      ∃ t, exec cmd s = .next t ∧ StartedAfresh m s pins t ∧ t.cause = cause ∧ t.outcome = .halted
        ∧ t.profile = Profile.absent ∧ t.profileRead = false ∧ t.headerRead = false ∧ t.poolUp = false ∧ t.loanUp = false
        ∧ t.mm = settleMemory takes s ∧ t.p = 0 ∧ t.f = 0
        ∧ t.faults.flags = (if pins.strap = 15 then Flag.profileAbsent.bit ||| Flag.profileClamped.bit else Flag.profileAbsent.bit)
        ∧ t.faults.enables = BitVec.allOnes 13 ∧ t.attention = true ∧ t.joinTimer = some (t.now + 400000)
        ∧ t.link.queue = (if pins.strap = 15 then [{ dest := broadcast, body := .alert .profileClamped 5 }] else [])
            ++ [{ dest := broadcast, body := .alert .profileAbsent 5 }])
  ∧ (∀ cmd cause pins r takes m s,
      ((cmd = .powerOn pins (some r) takes m ∧ cause = .power)
        ∨ ∃ lowFor, 40 ≤ lowFor ∧ s.powered = true ∧ cmd = .resetPin lowFor pins (some r) takes m ∧ cause = .pin) →
      romSumGood r.contents = true → pins.formatHeld = false →
      let p := clampProfile r.values
      let mm := settleMemory takes s
      (mm.geometry ≠ some (geometryOf p) ∨ ∀ h, mm.header = some h → h.checkGood = false ∨ h.serial ≠ p.serial) →
      ∃ t, exec cmd s = .next t ∧ StartedAfresh m s pins t ∧ t.cause = cause ∧ t.outcome = .halted ∧ t.profile = p
        ∧ t.profileRead = true ∧ t.headerRead = false ∧ t.poolUp = false ∧ t.loanUp = false ∧ t.mm = mm
        ∧ t.faults.flags
            = (if pins.strap = 15 ∨ profileClamped r.values = true then Flag.profileClamped.bit ||| Flag.mapMem.bit
               else Flag.mapMem.bit))
  ∧ (∀ pins r takes m s h, romSumGood r.contents = true → pins.formatHeld = false → m.writes = [.fails] →
      let p := clampProfile r.values
      let mm := settleMemory takes s
      mm.geometry = some (geometryOf p) → mm.header = some h → h.checkGood = true → h.serial = p.serial →
      ∃ t, exec (.powerOn pins (some r) takes m) s = .next t ∧ StartedAfresh m s pins t ∧ t.outcome = .halted ∧ t.mm = mm
        ∧ t.loanUp = false ∧ t.headerRead = true ∧ t.faults.has .mapMem = true
        ∧ t.p = 0 ∧ t.f = 0 ∧ t.e = 0 ∧ lendableShare t.figures = 0 ∧ t.presence = [])
  ∧ (∀ pins r takes m s h rec more, romSumGood r.contents = true → pins.formatHeld = false → m.writes = [.completes, .fails] →
      let p := clampProfile r.values
      let mm := settleMemory takes s
      mm.geometry = some (geometryOf p) → mm.header = some h → h.checkGood = true → h.serial = p.serial → h.restartCount ≤ 65535 →
      mm.pendings = rec :: more →
      let presence := (List.range p.bayCount).map fun b => !pins.bayLines.getLsbD b
      ∃ t, exec (.powerOn pins (some r) takes m) s = .next t ∧ StartedAfresh m s pins t ∧ t.outcome = .halted
        ∧ t.mm = { mm with header := some { h with restartCount := min 65535 (h.restartCount + 1) } }
        ∧ t.loanUp = false ∧ t.headerRead = true ∧ t.poolUp = true ∧ t.faults.has .mapMem = true ∧ t.presence = presence ∧ t.rotor = 0
        ∧ t.p = poolSize presence mm.freeSets ∧ t.f = poolFree presence mm.freeSets)

/-- A full start with a profile and the FORMAT strap held, its writes completing: the header, the geometry record and every structure are
written new and empty under the next format count, and JOIN is entered with the outcome READY and the cause FORMAT (R16, R30, R129, R159).
Where the write after the header's fails, the new header stands over the old geometry record and structures, which are as they were: so the free
sets still agree with the holders of their grains (R4, R157). MAPMEM is reported and JOIN is entered with the outcome HALTED (R159, R160). That a
format is these two writes is the model's choice (log entry 13). -/
def Obligations.StartFormats : Prop :=
  (∀ cmd pins r takes m s,
    (cmd = .powerOn pins (some r) takes m
      ∨ ∃ lowFor, 40 ≤ lowFor ∧ s.powered = true ∧ cmd = .resetPin lowFor pins (some r) takes m) →
    romSumGood r.contents = true → pins.formatHeld = true → m.writes = [] →
    let p := clampProfile r.values
    let old := (settleMemory takes s).header
    ∃ t count, exec cmd s = .next t ∧ StartedAfresh m s pins t ∧ t.cause = .format ∧ t.outcome = .ready
      ∧ t.profile = p ∧ t.profileRead = true ∧ t.headerRead = true ∧ t.poolUp = true ∧ t.loanUp = true
      ∧ (∀ h, old = some h → h.checkGood = true → count = h.formatCount + 1)
      ∧ ((∀ h, old = some h → h.checkGood = false) → count = 1)
      ∧ t.mm = { header := some { serial := p.serial, formatCount := count, restartCount := 0, checkGood := true },
                 geometry := some { bayCount := p.bayCount, grainCounts := p.grainCounts, grainSizeCode := p.grainSizeCode },
                 freeSets := p.grainCounts.map fun n => { count := n, held := [] }, volumes := [], chunks := [], pendings := [],
                 trims := [], loans := [], spares := [], peers := [] }
      ∧ t.faults.flags = (if pins.strap = 15 ∨ profileClamped r.values = true then Flag.profileClamped.bit else 0)
      ∧ t.faults.enables = p.alertEnables
      ∧ t.presence = (List.range p.bayCount).map fun b => !pins.bayLines.getLsbD b)
  ∧ (∀ pins r takes m s, romSumGood r.contents = true → pins.formatHeld = true → m.writes = [.completes, .fails] →
      let p := clampProfile r.values
      let mm := settleMemory takes s
      ∃ t header, exec (.powerOn pins (some r) takes m) s = .next t ∧ StartedAfresh m s pins t ∧ t.cause = .format
        ∧ t.outcome = .halted ∧ t.mm = { mm with header := some header } ∧ header.serial = p.serial ∧ header.restartCount = 0
        ∧ t.faults.has .mapMem = true ∧ t.loanUp = false ∧ t.p = 0 ∧ t.f = 0)

/-- A full start with a valid header and geometry, its writes completing: the restart count rises, every pending record is rolled back,
RETIRING volumes without a DELETE range become FREE, ranges and loans are kept, and JOIN is entered with the outcome READY (R29, R56, R74,
R129, R158, R160).
The profile values of a start: each value outside its range becomes the nearest end of it and one within stays; only the grain counts of bays below
the bay count are read; the sensitivity, the polarity, the serial and the alert enables stand as they are; PROFILE-CLAMPED is called for exactly
where a value that is read was changed (R1, R51, R64, R75, R88, R133, R157). -/
def Obligations.StartKeepsContents : Prop :=
  (∀ cmd cause pins r takes m s h,
      ((cmd = .powerOn pins (some r) takes m ∧ cause = .power)
        ∨ ∃ lowFor, 40 ≤ lowFor ∧ s.powered = true ∧ cmd = .resetPin lowFor pins (some r) takes m ∧ cause = .pin) →
      romSumGood r.contents = true → pins.formatHeld = false → m.writes = [] →
      let p := clampProfile r.values
      let mm := settleMemory takes s
      mm.geometry = some (geometryOf p) → mm.header = some h → h.checkGood = true → h.serial = p.serial → h.restartCount ≤ 65535 →
      Canonical mm → Fits mm → PendingLaw mm →
      ∃ t, exec cmd s = .next t ∧ StartedAfresh m s pins t ∧ t.cause = cause ∧ t.outcome = .ready ∧ t.profile = p
        ∧ t.profileRead = true ∧ t.headerRead = true ∧ t.poolUp = true ∧ t.loanUp = true
        ∧ t.mm.header = some { h with restartCount := min 65535 (h.restartCount + 1) }
        ∧ t.mm.geometry = mm.geometry ∧ t.mm.trims = mm.trims ∧ t.mm.loans = mm.loans ∧ t.mm.pendings = []
        ∧ (∀ v c, c < 16777216 →
            entryOf t.mm v c = (if mm.pendings.any (fun x => x.volume == v && x.chunk == c) then none else entryOf mm v c))
        ∧ (∀ q ∈ t.mm.volumes, q.2.state = .retiring → ∃ x ∈ t.mm.trims, x.volume = q.1 ∧ x.origin = .delete)
        ∧ t.presence = (List.range p.bayCount).map fun b => !pins.bayLines.getLsbD b)
  ∧ ∀ p : Profile,
      let q := clampProfile p
      let kept (lo hi x y : Nat) : Prop := (x < lo → y = lo) ∧ (hi < x → y = hi) ∧ (lo ≤ x → x ≤ hi → y = x)
      kept 1 24 p.bayCount q.bayCount ∧ q.grainCounts.length = q.bayCount
      ∧ (∀ b, b < q.bayCount → kept 1 1048576 (p.grainCounts.getD b 0) (q.grainCounts.getD b 0))
      ∧ kept 0 3 p.grainSizeCode q.grainSizeCode ∧ kept 0 1000 p.lowPermille q.lowPermille
      ∧ kept 0 1000 p.highPermille q.highPermille ∧ kept 5 2000 p.holdTime q.holdTime
      ∧ kept 50 10000 p.walkerPeriod q.walkerPeriod ∧ kept 1 64 p.walkerVisits q.walkerVisits
      ∧ kept 0 500 p.reservePermille q.reservePermille ∧ kept 0 1000 p.exposureWeight q.exposureWeight
      ∧ kept 1 8 p.maxLoan q.maxLoan ∧ kept 1 32 p.spareTarget q.spareTarget ∧ kept 10 1000 p.backoffBase q.backoffBase
      ∧ kept 1 60 p.backoffCap q.backoffCap ∧ kept 10 1000 p.presenceInterval q.presenceInterval
      ∧ kept 1 120 p.drainLimit q.drainLimit
      ∧ q.serviceEdge = p.serviceEdge ∧ q.serviceActiveHigh = p.serviceActiveHigh ∧ q.serial = p.serial
      ∧ q.alertEnables = p.alertEnables
      ∧ (profileClamped p = true ↔
          q ≠ { p with grainCounts := q.grainCounts }
          ∨ ∃ b, b < q.bayCount ∧ q.grainCounts.getD b 0 ≠ p.grainCounts.getD b 0)

/-- An assertion of the service input held for 20 ms and taken in READY enters DRAIN with the drain timer at the drain limit; an ARMED offer
ends, a QUEUED one is withdrawn unless its OFFER is on the link, and a WAITING one stays. The quiet condition is judged at once, whether a
map memory write is in progress or not: with nothing to wait for the drain is over and one HAIL(LEAVING) is queued, or QUIET is entered for
want of a place (R117, R162, R163, R164). Taken elsewhere, the assertion changes the filtered level alone.
The quiet condition: no pending record, no range, and no spare of a station that is PRESENT by its peer capacity record (R163). A release of
the service input held for 20 ms and taken in QUIET makes a resume start with cause RESUME: the fault record, the profile values and the
station number stand, the restart count rises, map memory is otherwise as a start leaves it, the bays take the levels of their lines, and
JOIN is entered; held for less, or taken in another condition, it starts nothing (R15, R162, R166). The raw level is noted however long it
has held (log entry 27). -/
def Obligations.ServiceInput : Prop :=
   (∀ heldFor m s u, OnAt m s u → (u.inflight = none → u.tasks = []) → serviceAsserted u = false →
      let pin := u.profile.serviceActiveHigh
      let entered : State := { u with
        serviceLine := pin, servicePin := pin, cond := .drain, drainEnded := false,
        drainTimer := some (u.now + u.profile.drainLimit * 4000000) }
      (heldFor < Config.lineHold → exec (.serviceAsserted heldFor m) s = .next { u with serviceLine := pin })
      ∧ (Config.lineHold ≤ heldFor → u.cond ≠ .ready →
          exec (.serviceAsserted heldFor m) s = .next { u with serviceLine := pin, servicePin := pin })
      ∧ (Config.lineHold ≤ heldFor → u.cond = .ready → ∀ drain : State,
          ((u.offer.state = .armed ∧ drain = { entered with offer := OfferMachine.reset })
            ∨ ((u.offer.state = .idle ∨ u.offer.state = .waiting) ∧ drain = entered)
            ∨ ∃ o, u.offer.state = .queued ∧ u.offer.current = some o
                ∧ ((isDriving (isOfferOf o) u = true ∧ drain = entered)
                  ∨ (isDriving (isOfferOf o) u = false
                    ∧ drain = withdraw (isOfferOf o) { entered with offer := OfferMachine.reset }))) →
          let ended : State := { drain with drainEnded := true, drainTimer := none, walkerTimer := none }
          (quietCondition u = false → exec (.serviceAsserted heldFor m) s = .next drain)
          ∧ (quietCondition u = true → hasPlace drain = true →
              exec (.serviceAsserted heldFor m) s = .next (pushFrame (buildHail .leaving ended) ended))
          ∧ (quietCondition u = true → hasPlace drain = false →
              ∃ t, exec (.serviceAsserted heldFor m) s = .next t ∧ t.cond = .quiet ∧ t.link.queue = [] ∧ t.link.hand = none
                ∧ t.buffer = [] ∧ t.ask.state = .idle ∧ t.offer = OfferMachine.reset ∧ t.hailTimer = none ∧ t.walkerTimer = none
                ∧ t.mm = u.mm)))
  ∧ (∀ s : State, RosterLaw s →
      (quietCondition s = true ↔ s.mm.pendings = [] ∧ s.mm.trims = []
        ∧ ∀ st : Station, isPresent s.roster st = true → (peerOf s.mm st).spare = 0))
  ∧ (∀ heldFor lines m s u h, RestAt m s u → serviceAsserted u = true →
      (heldFor < Config.lineHold →
        exec (.serviceReleased heldFor lines m) s = .next { u with serviceLine := !u.profile.serviceActiveHigh })
      ∧ (Config.lineHold ≤ heldFor → u.cond ≠ .quiet →
          exec (.serviceReleased heldFor lines m) s
            = .next { u with serviceLine := !u.profile.serviceActiveHigh, servicePin := !u.profile.serviceActiveHigh })
      ∧ (Config.lineHold ≤ heldFor → u.cond = .quiet → m.writes = [] → u.mm.geometry = some (geometryOf u.profile) →
          u.mm.header = some h → h.checkGood = true → h.serial = u.profile.serial → h.restartCount ≤ 65535 → u.mm.pendings = [] →
          sweepVolumes u.mm = u.mm →
          exec (.serviceReleased heldFor lines m) s
            = .next ({ State.reset with
                pending := u.pending
                now := u.now
                fresh := u.fresh
                cond := .join
                outcome := .ready
                cause := .resume
                own := u.own
                profile := u.profile
                profileRead := u.profileRead
                headerRead := true
                poolUp := true
                loanUp := true
                joinTimer := some (u.now + u.profile.presenceInterval * 4000)
                serviceLine := !u.profile.serviceActiveHigh
                servicePin := !u.profile.serviceActiveHigh
                bayLines := lines
                presence := (List.range u.profile.bayCount).map fun b => !lines.getLsbD b
                faults := u.faults
                attention := decide (u.faults.flags &&& u.faults.enables ≠ 0)
                mm := { u.mm with header := some { h with restartCount := min 65535 (h.restartCount + 1) } } } : State)))

/-- The quiet condition is judged in DRAIN alone, before its end and while the drain timer runs: if it holds the drain ends, so the timer and
the walker stop and one HAIL(LEAVING) is queued, or QUIET is entered for want of a place (R163, R164).
The drain timer that runs out in DRAIN forces the drain: every pending record is rolled back, DRAIN-FORCED is reported, the ranges are kept,
and with room for it the HAIL(LEAVING) is queued, the station still in DRAIN; without it QUIET is entered (R164, R165). The HAIL(LEAVING) of
an ended drain takes the station to QUIET when it ends on the link, and when it is dropped at the eighth failed attempt, which is reported
and counted: the queue and the buffer are empty, both machines IDLE, the HAIL timer off, map memory kept (R150, R153, R164).
A LEVEL service input that is released when QUIET is entered resumes the station at once: a resume start with cause RESUME, shown for valid
contents, no pending record and no volume to sweep, runs through and enters JOIN (R15, R160, R162, R166); where a map memory write is in progress
the resume start waits for its end, the model's choice (log entry 7). -/
def Obligations.DrainEnds : Prop :=
   (∀ s : State,
      let judged := s.cond = .drain ∧ s.drainEnded = false ∧ s.drainTimer ≠ none ∧ quietCondition s = true
      let ended : State := { s with drainEnded := true, drainTimer := none, walkerTimer := none }
      (¬ judged → judgeQuiet s = s)
      ∧ (judged → hasPlace s = true → judgeQuiet s = pushFrame (buildHail .leaving ended) ended)
      ∧ (judged → hasPlace s = false →
          (judgeQuiet s).cond = .quiet ∧ (judgeQuiet s).link.queue = [] ∧ (judgeQuiet s).link.hand = none
          ∧ (judgeQuiet s).buffer = [] ∧ (judgeQuiet s).ask.state = .idle ∧ (judgeQuiet s).offer = OfferMachine.reset
          ∧ (judgeQuiet s).hailTimer = none ∧ (judgeQuiet s).walkerTimer = none ∧ (judgeQuiet s).mm = s.mm
          ∧ (judgeQuiet s).tasks
              = s.tasks ++ (if s.profile.serviceEdge = false ∧ serviceAsserted s = false then [.resume] else [])))
  ∧ (∀ m s u x, RestAt m s u → u.cond = .drain → u.drainEnded = false → u.drainTimer = some x →
      (u.now < x → exec (.drainTimerExpiry m) s = .next u)
      ∧ (x ≤ u.now → m.writes = [] → u.mm.pendings.length ≤ 128 →
          ∃ t, exec (.drainTimerExpiry m) s = .next t ∧ t.mm.pendings = [] ∧ t.mm.trims = u.mm.trims
            ∧ t.faults.has .drainForced = true)
      ∧ (x ≤ u.now → u.mm.pendings = [] → u.link.occupied + 1 < 32 →
          ∃ t, exec (.drainTimerExpiry m) s = .next t ∧ t.cond = .drain ∧ t.drainEnded = true ∧ t.drainTimer = none
            ∧ t.walkerTimer = none ∧ t.mm = u.mm ∧ t.buffer = u.buffer ∧ t.faults.has .drainForced = true
            ∧ ∃ h, { dest := broadcast, body := .hail h } ∈ t.link.queue ∧ h.cond = .leaving)
      ∧ (x ≤ u.now → u.mm.pendings = [] → 32 ≤ u.link.occupied → (u.profile.serviceEdge = true ∨ serviceAsserted u = true) →
          ∃ t, exec (.drainTimerExpiry m) s = .next t ∧ t.cond = .quiet ∧ t.drainTimer = none ∧ t.link.queue = []
            ∧ t.link.hand = none ∧ t.buffer = [] ∧ t.mm = u.mm ∧ t.faults.has .drainForced = true))
  ∧ (∀ m s u hand raw b, RestAt m s u → u.cond = .drain → u.drainEnded = true → u.link.hand = some hand → hand.driving = some raw →
      hand.frame.body = .hail b → b.cond = .leaving → (u.profile.serviceEdge = true ∨ serviceAsserted u = true) →
      let silent (t : State) : Prop := t.cond = .quiet ∧ t.link.queue = [] ∧ t.link.hand = none ∧ t.buffer = []
        ∧ t.ask.state = .idle ∧ t.ask.timer = none ∧ t.offer = OfferMachine.reset ∧ t.hailTimer = none ∧ t.mm = u.mm
        ∧ t.roster = u.roster ∧ t.tasks = []
      (∃ t, exec (.frameEnded m) s = .next t ∧ silent t)
      ∧ (7 ≤ hand.retries →
          ∃ t, exec (.attemptFailed m) s = .next t ∧ silent t ∧ t.faults.has .frameDropped = true
            ∧ t.faults.counts.framesDropped = saturate u.faults.counts.framesDropped))
  ∧ (∀ m s u hand raw b h, RestAt m s u → u.cond = .drain → u.drainEnded = true → u.link.hand = some hand →
      hand.driving = some raw → hand.frame.body = .hail b → b.cond = .leaving →
      u.profile.serviceEdge = false → serviceAsserted u = false → m.writes = [] → u.mm.geometry = some (geometryOf u.profile) →
      u.mm.header = some h → h.checkGood = true → h.serial = u.profile.serial → h.restartCount ≤ 65535 → u.mm.pendings = [] →
      sweepVolumes u.mm = u.mm →
      let resumed (t : State) : Prop := t =
        { State.reset with
          pending := u.pending
          now := u.now
          fresh := u.fresh
          cond := .join
          outcome := .ready
          cause := .resume
          own := u.own
          profile := u.profile
          profileRead := u.profileRead
          headerRead := true
          poolUp := true
          loanUp := true
          joinTimer := some (u.now + u.profile.presenceInterval * 4000)
          serviceLine := u.serviceLine
          servicePin := u.serviceLine
          bayLines := u.bayLines
          presence := (List.range u.profile.bayCount).map fun b => !u.bayLines.getLsbD b
          faults := t.faults
          attention := decide (t.faults.flags &&& t.faults.enables ≠ 0)
          mm := { u.mm with header := some { h with restartCount := min 65535 (h.restartCount + 1) } } }
      (∃ t, exec (.frameEnded m) s = .next t ∧ resumed t)
      ∧ (7 ≤ hand.retries → ∃ t, exec (.attemptFailed m) s = .next t ∧ resumed t ∧ t.faults.has .frameDropped = true))

/-- The join timer that runs out enters the outcome of the start, whether a map memory write is in progress or not. A good start enters
READY: the first HAIL is queued, the HAIL and walker timers start and R90 is judged. A LEVEL service input that is then asserted takes the
station on to DRAIN at once: the drain timer starts and the quiet condition is judged, so that with nothing to wait for the drain is over and
one HAIL(LEAVING) is queued, or QUIET is entered for want of a place (R162, R163, R164); that R90 is judged before it is the model's choice (log
entry 45). A failed start enters HALTED, where only the HAIL and REPLY(NOTREADY) frames stay queued (R141, R153, R161). -/
def Obligations.JoinEnds : Prop :=
  ∀ m s u x, OnAt m s u → (u.inflight = none → u.tasks = []) → u.cond = .join → u.joinTimer = some x →
    let ready : State := { u with
      cond := .ready, joinTimer := none, hailTimer := some (u.now + u.profile.presenceInterval * 4000)
      walkerTimer := some (u.now + u.profile.walkerPeriod * 4) }
    (u.now < x → exec (.joinTimerExpiry m) s = .next u)
    ∧ (x ≤ u.now → u.outcome = .ready → (u.profile.serviceEdge = true ∨ serviceAsserted u = false) →
        (hasPlace u = true →
          exec (.joinTimerExpiry m) s = .next (judgeAsk (pushFrame (buildHail .ready ready) ready)))
        ∧ (hasPlace u = false → exec (.joinTimerExpiry m) s = .next (judgeAsk ready)))
    ∧ (x ≤ u.now → u.outcome = .ready → u.profile.serviceEdge = false → serviceAsserted u = true → u.offer.state = .idle →
        let asked := judgeAsk (if hasPlace u then pushFrame (buildHail .ready ready) ready else ready)
        let drain : State := { asked with
          cond := .drain, drainEnded := false, drainTimer := some (u.now + u.profile.drainLimit * 4000000) }
        let ended : State := { drain with drainEnded := true, drainTimer := none, walkerTimer := none }
        (quietCondition u = false → exec (.joinTimerExpiry m) s = .next drain)
        ∧ (quietCondition u = true → hasPlace drain = true →
            exec (.joinTimerExpiry m) s = .next (pushFrame (buildHail .leaving ended) ended))
        ∧ (quietCondition u = true → hasPlace drain = false →
            ∃ t, exec (.joinTimerExpiry m) s = .next t ∧ t.cond = .quiet ∧ t.link.queue = [] ∧ t.link.hand = none
              ∧ t.buffer = [] ∧ t.ask.state = .idle ∧ t.offer = OfferMachine.reset ∧ t.hailTimer = none ∧ t.walkerTimer = none
              ∧ t.drainTimer = none ∧ t.mm = u.mm))
    ∧ (x ≤ u.now → u.outcome = .halted → u.link.hand = none → u.offer = OfferMachine.reset → u.link.occupied < 32 →
        ∃ t h, exec (.joinTimerExpiry m) s = .next t ∧ t.cond = .halted ∧ t.joinTimer = none
          ∧ t.hailTimer = some (u.now + u.profile.presenceInterval * 4000) ∧ t.walkerTimer = none ∧ t.mm = u.mm
          ∧ h.cond = .notReady ∧ { dest := broadcast, body := .hail h } ∈ t.link.queue
          ∧ ∀ f ∈ t.link.queue, f.sentInHalted = true)

/-- The HAIL timer that runs out in READY, DRAIN or HALTED restarts and queues a HAIL of that condition, skipped without a place; after
HAIL(LEAVING) it queues none (log entry 25); before its time, and in the other conditions, nothing happens (R140, R141, R142).
The HAIL of a station: a shelf's, with the parts of its epoch it can name, its restart count and cause, the condition and its lendable
share as they stand (R86, R130, R140). -/
def Obligations.HailTimerRuns : Prop :=
   (∀ m s u x, OnAt m s u → u.hailTimer = some x →
      let next : State := { u with hailTimer := some (u.now + u.profile.presenceInterval * 4000) }
      (u.now < x ∨ isSilent u.cond → exec (.hailTimerExpiry m) s = .next u)
      ∧ (x ≤ u.now → ¬ isSilent u.cond →
          (u.drainEnded = true → exec (.hailTimerExpiry m) s = .next next)
          ∧ (u.drainEnded = false →
              (hasPlace u = false → exec (.hailTimerExpiry m) s = .next next)
              ∧ (hasPlace u = true →
                  (u.cond = .ready → exec (.hailTimerExpiry m) s = .next (pushFrame (buildHail .ready next) next))
                  ∧ (u.cond = .drain → exec (.hailTimerExpiry m) s = .next (pushFrame (buildHail .drain next) next))
                  ∧ (u.cond = .halted → exec (.hailTimerExpiry m) s = .next (pushFrame (buildHail .notReady next) next))))))
  ∧ (∀ (s : State) cond, ∃ h, buildHail cond s = { dest := broadcast, body := .hail h } ∧ h.kind = .shelf ∧ h.cond = cond
      ∧ h.q = lendableShare s.figures ∧ h.cause = BitVec.ofNat 8 s.cause.code
      ∧ (s.profileRead = false → h.identity = 0 ∧ h.serial = 0 ∧ h.formatCount = 0)
      ∧ (s.profileRead = true → h.serial = s.profile.serial)
      ∧ (s.profileRead = true → (s.headerRead = false ∨ s.mm.header = none) → h.identity = 1 ∧ h.formatCount = 0)
      ∧ (s.headerRead = false ∨ s.mm.header = none → h.restartCount = 0)
      ∧ ∀ x, s.headerRead = true → s.mm.header = some x →
          h.restartCount = BitVec.ofNat 16 x.restartCount
          ∧ (s.profileRead = true → h.identity = 2 ∧ h.formatCount = x.formatCount))

end
end

