-- ==== Sys2Proof/Laws/Fields.lean ====
section
/-! SUPPORT. Fields written into a payload read back as they were written. -/

namespace Sys2Proof.Machine

@[simp] theorem length_bitsOf (w n : Nat) : (bitsOf w n).length = w := by
  induction w with
  | zero => rfl
  | succ w ih => simp [bitsOf, ih]

theorem foldl_bits (bits : List Bool) (a : Nat) :
    bits.foldl (fun n b => 2 * n + b.toNat) a = a * 2 ^ bits.length + numberOf bits := by
  induction bits generalizing a with
  | nil => simp [numberOf]
  | cons b bits ih =>
    have h0 := ih (2 * 0 + b.toNat)
    unfold numberOf
    simp only [List.foldl_cons, List.length_cons] at *
    rw [ih, h0, Nat.pow_succ]
    ring

theorem numberOf_cons (b : Bool) (bits : List Bool) : numberOf (b :: bits) = b.toNat * 2 ^ bits.length + numberOf bits := by
  have := foldl_bits bits (2 * 0 + b.toNat)
  unfold numberOf at *
  simp only [List.foldl_cons]
  rw [this]
  simp

theorem numberOf_bitsOf (w n : Nat) : numberOf (bitsOf w n) = n % 2 ^ w := by
  induction w with
  | zero => simp [bitsOf, numberOf, Nat.mod_one]
  | succ w ih =>
    rw [bitsOf, numberOf_cons, ih, length_bitsOf, Nat.testBit_eq_decide_div_mod_eq, Nat.pow_succ, Nat.mod_mul]
    rcases Nat.mod_two_eq_zero_or_one (n / 2 ^ w) with h | h <;> simp [h]
    ring

theorem numberOf_lt (bits : List Bool) : numberOf bits < 2 ^ bits.length := by
  induction bits with
  | nil => simp [numberOf]
  | cons b bits ih =>
    rw [numberOf_cons, List.length_cons, Nat.pow_succ]
    cases b <;> simp <;> omega

theorem bitsOf_numberOf (bits : List Bool) : bitsOf bits.length (numberOf bits) = bits := by
  induction bits with
  | nil => rfl
  | cons b bits ih =>
    have hlt := numberOf_lt bits
    have tail : ∀ w k, w ≤ bits.length → bitsOf w (k * 2 ^ bits.length + numberOf bits) = bitsOf w (numberOf bits) := by
      intro w k hw
      induction w with
      | zero => rfl
      | succ w ihw =>
        rw [bitsOf, bitsOf, ihw (by omega)]
        congr 1
        rw [Nat.mul_comm, Nat.testBit_two_pow_mul_add _ hlt, if_pos (by omega)]
    rw [List.length_cons, bitsOf, numberOf_cons, tail _ _ (Nat.le_refl _), ih]
    congr 1
    rw [Nat.mul_comm, Nat.testBit_two_pow_mul_add _ hlt]
    cases b <;> simp

theorem length_fieldBits (fs : List (Nat × Nat)) : (fieldBits fs).length = (fs.map Prod.fst).sum := by
  induction fs with
  | nil => rfl
  | cons f fs ih =>
    have : fieldBits (f :: fs) = bitsOf f.1 f.2 ++ fieldBits fs := rfl
    simp [this, ih]

theorem length_packBytes (n : Nat) (bits : List Bool) : (packBytes n bits).length = n := by
  induction n generalizing bits with
  | zero => rfl
  | succ n ih => simp [packBytes, ih]

/-- Bits packed into bytes read back with zero bits up to the last whole byte. -/
theorem bytesBits_packBytes (n : Nat) (bits : List Bool) (h : bits.length ≤ 8 * n) :
    bytesBits (packBytes n bits) = bits ++ List.replicate (8 * n - bits.length) false := by
  induction n generalizing bits with
  | zero =>
    have : bits = [] := List.eq_nil_of_length_eq_zero (by omega)
    subst this; rfl
  | succ n ih =>
    have hc : bytesBits (packBytes (n + 1) bits)
        = bitsOf 8 (BitVec.ofNat 8 (numberOf ((bits.take 8 ++ List.replicate 8 false).take 8))).toNat
          ++ bytesBits (packBytes n (bits.drop 8)) := rfl
    rw [hc, ih _ (by simp; omega)]
    have hl : ((bits.take 8 ++ List.replicate 8 false).take 8).length = 8 := by simp
    have hn := numberOf_lt ((bits.take 8 ++ List.replicate 8 false).take 8)
    rw [hl] at hn
    rw [BitVec.toNat_ofNat, Nat.mod_eq_of_lt hn]
    have hb := bitsOf_numberOf ((bits.take 8 ++ List.replicate 8 false).take 8)
    rw [hl] at hb
    rw [hb]
    by_cases h8 : 8 ≤ bits.length
    · have ht : (bits.take 8 ++ List.replicate 8 false).take 8 = bits.take 8 := by
        rw [List.take_append_of_le_length (by simp; omega)]; simp
      rw [ht, ← List.append_assoc, List.take_append_drop]
      congr 2
      simp; omega
    · have ht : bits.take 8 = bits := List.take_of_length_le (by omega)
      have hd : bits.drop 8 = [] := List.drop_eq_nil_of_le (by omega)
      rw [ht, hd, List.take_append, List.take_of_length_le (by omega : bits.length ≤ 8)]
      simp only [List.take_replicate, List.nil_append, List.append_assoc, List.length_nil]
      rw [List.replicate_append_replicate]
      congr 2
      omega

theorem readFields_fieldBits (fs : List (Nat × Nat)) (j : Nat) (h : ∀ f ∈ fs, f.2 < 2 ^ f.1) :
    readFields (fs.map Prod.fst) (fieldBits fs ++ List.replicate j false) = some (fs.map Prod.snd) := by
  induction fs with
  | nil => simp [readFields, fieldBits]
  | cons f fs ih =>
    have hc : fieldBits (f :: fs) = bitsOf f.1 f.2 ++ fieldBits fs := rfl
    have hl := length_bitsOf f.1 f.2
    have ht : (bitsOf f.1 f.2 ++ (fieldBits fs ++ List.replicate j false)).take f.1 = bitsOf f.1 f.2 := by
      rw [List.take_append_of_le_length (by omega), List.take_of_length_le (by omega)]
    have hd : (bitsOf f.1 f.2 ++ (fieldBits fs ++ List.replicate j false)).drop f.1 = fieldBits fs ++ List.replicate j false := by
      rw [List.drop_append_of_le_length (by omega), List.drop_of_length_le (by omega)]; rfl
    rw [hc, List.append_assoc, List.map_cons, readFields, ht, hd, ih fun g hg => h g (List.mem_cons_of_mem _ hg),
      numberOf_bitsOf, Nat.mod_eq_of_lt (h f (by simp))]
    rfl

/-- A payload written from fields reads back as those fields (R155). -/
theorem parseFields_encodeFields (fs : List (Nat × Nat)) (h : ∀ f ∈ fs, f.2 < 2 ^ f.1) :
    parseFields (fs.map Prod.fst) (encodeFields fs) = some (fs.map Prod.snd) := by
  unfold parseFields encodeFields
  simp only
  rw [length_packBytes, length_fieldBits, if_pos rfl, bytesBits_packBytes _ _ (by rw [length_fieldBits]; omega)]
  exact readFields_fieldBits fs _ h

end Sys2Proof.Machine
end

