-- ==== Sys2Proof/Laws/Table.lean ====
section
/-! SUPPORT. The keyed tables, rising lists and free sets: what a read gives after a write, and that every operation keeps the canonical
form. -/

namespace Sys2Proof.Machine

variable {α : Type}

/-! ## Rising lists -/

theorem rising_cons {x : Nat} {l : List Nat} : rising (x :: l) ↔ (∀ y ∈ l, x < y) ∧ rising l := by
  simp [rising]

theorem rising_filter {l : List Nat} (p : Nat → Bool) (h : rising l) : rising (l.filter p) :=
  List.Pairwise.filter p h

theorem rising_nodup {l : List Nat} (h : rising l) : l.Nodup := List.Pairwise.imp (fun h => Nat.ne_of_lt h) h

theorem mem_insertRising {l : List Nat} {g x : Nat} : x ∈ insertRising l g ↔ x = g ∨ x ∈ l := by
  induction l with
  | nil => simp [insertRising]
  | cons y l ih =>
    unfold insertRising
    split
    · simp
    · split
      · rename_i h; subst h; simp
      · simp only [List.mem_cons, ih]; constructor <;> rintro (h | h | h) <;> simp [h]

theorem rising_insertRising {l : List Nat} (g : Nat) (h : rising l) : rising (insertRising l g) := by
  induction l with
  | nil => simp [insertRising, rising]
  | cons y l ih =>
    obtain ⟨h1, h2⟩ := rising_cons.mp h
    unfold insertRising
    split
    · rename_i hg
      refine rising_cons.mpr ⟨fun z hz => ?_, h⟩
      rcases List.mem_cons.mp hz with rfl | hz
      · exact hg
      · exact Nat.lt_trans hg (h1 z hz)
    · split
      · exact h
      · refine rising_cons.mpr ⟨fun z hz => ?_, ih h2⟩
        rcases mem_insertRising.mp hz with rfl | hz
        · omega
        · exact h1 z hz

theorem length_insertRising {l : List Nat} {g : Nat} (h : g ∉ l) : (insertRising l g).length = l.length + 1 := by
  induction l with
  | nil => simp [insertRising]
  | cons y l ih =>
    simp only [List.mem_cons, not_or] at h
    unfold insertRising
    split
    · simp
    · simp [h.1, ih h.2]

/-- The number found missing is missing, and every number from n up to it stands in the list. -/
theorem lowestMissing_spec {n : Nat} {l : List Nat} (h : rising l) (hn : ∀ x ∈ l, n ≤ x) :
    n ≤ lowestMissing n l ∧ lowestMissing n l ∉ l ∧ (∀ k, n ≤ k → k < lowestMissing n l → k ∈ l)
      ∧ lowestMissing n l ≤ n + l.length := by
  induction l generalizing n with
  | nil => simp [lowestMissing]
  | cons x l ih =>
    obtain ⟨h1, h2⟩ := rising_cons.mp h
    unfold lowestMissing
    split
    · rename_i hx
      subst hx
      obtain ⟨a, b, c, d⟩ := ih (n := x + 1) h2 (fun y hy => h1 y hy)
      refine ⟨by omega, ?_, ?_, by simp only [List.length_cons]; omega⟩
      · simp only [List.mem_cons, not_or]; exact ⟨by omega, b⟩
      · intro k hk hk'
        rcases Nat.eq_or_lt_of_le hk with rfl | hk
        · simp
        · exact List.mem_cons_of_mem _ (c k hk hk')
    · rename_i hx
      have := hn x (by simp)
      refine ⟨Nat.le_refl _, ?_, by intro k hk hk'; omega, by omega⟩
      simp only [List.mem_cons, not_or]
      exact ⟨fun h => hx h.symm, fun hm => by have := h1 n hm; omega⟩

/-! ## Tables -/

theorem tableKeys_cons (p : Nat × α) (t : Table α) : tableKeys (p :: t) = p.1 :: tableKeys t := rfl

theorem mem_tableKeys {t : Table α} {p : Nat × α} (h : p ∈ t) : p.1 ∈ tableKeys t := List.mem_map_of_mem h

theorem tableWf_cons {p : Nat × α} {t : Table α} : tableWf (p :: t) ↔ (∀ q ∈ t, p.1 < q.1) ∧ tableWf t := by
  unfold tableWf
  rw [tableKeys_cons, rising_cons]
  constructor <;> rintro ⟨h1, h2⟩ <;> refine ⟨?_, h2⟩
  · exact fun q hq => h1 _ (mem_tableKeys hq)
  · intro y hy
    obtain ⟨q, hq, rfl⟩ := List.mem_map.mp hy
    exact h1 q hq

theorem tableFind_none {t : Table α} {k : Nat} : tableFind t k = none ↔ ∀ p ∈ t, p.1 ≠ k := by
  induction t with
  | nil => simp [tableFind]
  | cons p t ih =>
    unfold tableFind
    split
    · simp_all
    · simp_all

theorem tableFind_mem {t : Table α} {k : Nat} {v : α} (h : tableFind t k = some v) : (k, v) ∈ t := by
  induction t with
  | nil => simp [tableFind] at h
  | cons p t ih =>
    unfold tableFind at h
    split at h
    · rename_i hp
      obtain ⟨j, u⟩ := p
      cases h; cases hp; exact List.mem_cons_self
    · exact List.mem_cons_of_mem _ (ih h)

theorem tableFind_of_mem {t : Table α} (w : tableWf t) {p : Nat × α} (h : p ∈ t) : tableFind t p.1 = some p.2 := by
  induction t with
  | nil => cases h
  | cons q t ih =>
    obtain ⟨h1, h2⟩ := tableWf_cons.mp w
    unfold tableFind
    rcases List.mem_cons.mp h with rfl | h
    · simp
    · have := h1 p h
      simp [Nat.ne_of_lt this, ih h2 h]

@[simp] theorem tableFind_put_same (t : Table α) (k : Nat) (v : α) : tableFind (tablePut t k v) k = some v := by
  induction t with
  | nil => simp [tablePut, tableFind]
  | cons p t ih =>
    unfold tablePut
    repeat' split
    · simp [tableFind]
    · simp [tableFind]
    · rename_i h
      simp [tableFind, Ne.symm h, ih]

theorem tableFind_put_other (t : Table α) {k j : Nat} (v : α) (h : j ≠ k) : tableFind (tablePut t k v) j = tableFind t j := by
  induction t with
  | nil => simp [tablePut, tableFind, Ne.symm h]
  | cons p t ih =>
    unfold tablePut
    repeat' split
    · simp [tableFind, Ne.symm h]
    · rename_i _ hk; subst hk; simp [tableFind, Ne.symm h]
    · simp [tableFind, ih]

theorem tableFind_erase_other (t : Table α) {k j : Nat} (h : j ≠ k) : tableFind (tableErase t k) j = tableFind t j := by
  induction t with
  | nil => rfl
  | cons p t ih =>
    unfold tableErase
    split
    · rename_i hp; subst hp; simp [tableFind, Ne.symm h]
    · simp [tableFind, ih]

theorem tableErase_sub (t : Table α) (k : Nat) : (tableErase t k).Sublist t := by
  induction t with
  | nil => simp [tableErase]
  | cons p t ih =>
    unfold tableErase
    split
    · exact List.sublist_cons_self _ _
    · exact ih.cons_cons _

theorem tableWf_sublist {t u : Table α} (h : u.Sublist t) (w : tableWf t) : tableWf u :=
  List.Pairwise.sublist (h.map _) w

theorem tableWf_erase {t : Table α} (k : Nat) (w : tableWf t) : tableWf (tableErase t k) := tableWf_sublist (tableErase_sub t k) w

theorem tableWf_filter {t : Table α} (p : Nat × α → Bool) (w : tableWf t) : tableWf (t.filter p) :=
  tableWf_sublist List.filter_sublist w

theorem tableFind_erase_same {t : Table α} (w : tableWf t) (k : Nat) : tableFind (tableErase t k) k = none := by
  induction t with
  | nil => rfl
  | cons p t ih =>
    obtain ⟨h1, h2⟩ := tableWf_cons.mp w
    unfold tableErase
    split
    · rename_i hp; subst hp
      exact tableFind_none.mpr fun q hq => Ne.symm (Nat.ne_of_lt (h1 q hq))
    · rename_i hp; simp [tableFind, hp, ih h2]

theorem mem_tablePut {t : Table α} {k : Nat} {v : α} {p : Nat × α} (h : p ∈ tablePut t k v) : p = (k, v) ∨ p ∈ t := by
  induction t with
  | nil => simpa [tablePut] using h
  | cons q t ih =>
    unfold tablePut at h
    repeat' split at h
    · simpa using h
    · rcases List.mem_cons.mp h with h | h
      · exact .inl h
      · exact .inr (List.mem_cons_of_mem _ h)
    · rcases List.mem_cons.mp h with h | h
      · exact .inr (h ▸ List.mem_cons_self)
      · rcases ih h with h | h
        · exact .inl h
        · exact .inr (List.mem_cons_of_mem _ h)

theorem tableWf_put {t : Table α} (k : Nat) (v : α) (w : tableWf t) : tableWf (tablePut t k v) := by
  induction t with
  | nil => simp [tablePut, tableWf, tableKeys, rising]
  | cons p t ih =>
    obtain ⟨h1, h2⟩ := tableWf_cons.mp w
    unfold tablePut
    split
    · rename_i hk
      refine tableWf_cons.mpr ⟨fun q hq => ?_, w⟩
      rcases List.mem_cons.mp hq with rfl | hq
      · exact hk
      · exact Nat.lt_trans hk (h1 q hq)
    · split
      · rename_i hk; subst hk; exact tableWf_cons.mpr ⟨h1, h2⟩
      · rename_i hn hk
        refine tableWf_cons.mpr ⟨fun q hq => ?_, ih h2⟩
        rcases mem_tablePut hq with rfl | hq
        · show p.1 < k; omega
        · exact h1 q hq

theorem length_tablePut_le (t : Table α) (k : Nat) (v : α) : (tablePut t k v).length ≤ t.length + 1 := by
  induction t with
  | nil => simp [tablePut]
  | cons p t ih =>
    unfold tablePut
    repeat' split
    all_goals simp
    exact ih

theorem length_tablePut_of_find {t : Table α} (w : tableWf t) {k : Nat} (v : α) (h : tableFind t k ≠ none) :
    (tablePut t k v).length = t.length := by
  induction t with
  | nil => exact absurd rfl h
  | cons p t ih =>
    obtain ⟨h1, h2⟩ := tableWf_cons.mp w
    unfold tablePut
    split
    · rename_i hk
      refine absurd (tableFind_none.mpr fun q hq => ?_) h
      rcases List.mem_cons.mp hq with rfl | hq
      · exact Ne.symm (Nat.ne_of_lt hk)
      · have := h1 q hq; omega
    · split
      · simp
      · rename_i hk
        unfold tableFind at h
        rw [if_neg (Ne.symm hk)] at h
        simp [ih h2 h]

theorem tableGet_of_find {d : α} {t : Table α} {k : Nat} {v : α} (h : tableFind t k = some v) : tableGet d t k = v := by
  simp [tableGet, h]

section rest
variable [DecidableEq α]

theorem tableGet_set_same {d : α} {t : Table α} (w : tableWf t) (k : Nat) (v : α) : tableGet d (tableSet d t k v) k = v := by
  unfold tableSet tableGet
  split
  · rename_i h; subst h; rw [tableFind_erase_same w]; rfl
  · simp

theorem tableGet_set_other {d : α} (t : Table α) {k j : Nat} (v : α) (h : j ≠ k) :
    tableGet d (tableSet d t k v) j = tableGet d t j := by
  unfold tableSet tableGet
  split
  · rw [tableFind_erase_other t h]
  · rw [tableFind_put_other t v h]

theorem tableWfRest_set {d : α} {t : Table α} (k : Nat) (v : α) (w : tableWfRest d t) : tableWfRest d (tableSet d t k v) := by
  unfold tableSet
  split
  · exact ⟨tableWf_erase k w.1, fun p hp => w.2 p ((tableErase_sub t k).subset hp)⟩
  · rename_i hv
    refine ⟨tableWf_put k v w.1, fun p hp => ?_⟩
    rcases mem_tablePut hp with rfl | hp
    · exact hv
    · exact w.2 p hp

theorem mem_tableSet {d : α} {t : Table α} {k : Nat} {v : α} {p : Nat × α} (h : p ∈ tableSet d t k v) : p = (k, v) ∨ p ∈ t := by
  unfold tableSet at h
  split at h
  · exact .inr ((tableErase_sub t k).subset h)
  · exact mem_tablePut h

end rest

theorem tableWfRest_filter {d : α} {t : Table α} (p : Nat × α → Bool) (w : tableWfRest d t) : tableWfRest d (t.filter p) :=
  ⟨tableWf_filter p w.1, fun q hq => w.2 q (List.mem_filter.mp hq).1⟩

/-! ## Free sets -/

theorem FreeSet.take_wf {s : FreeSet} {g : Nat} (w : s.wf) (hg : g < s.count) : (s.take g).wf :=
  ⟨rising_insertRising g w.1, fun x hx => by
    rcases mem_insertRising.mp hx with rfl | hx
    · exact hg
    · exact w.2 x hx⟩

theorem FreeSet.give_wf {s : FreeSet} (g : Nat) (w : s.wf) : (s.give g).wf :=
  ⟨rising_filter _ w.1, fun x hx => w.2 x (List.mem_filter.mp hx).1⟩

theorem FreeSet.full_wf (n : Nat) : (FreeSet.full n).wf := ⟨List.Pairwise.nil, fun _ h => nomatch h⟩

/-- The grain chosen is a grain of the bay, it is free, and it is the lowest that is. -/
theorem FreeSet.lowest_spec {s : FreeSet} {g : Nat} (w : s.wf) (h : s.lowest = some g) :
    g < s.count ∧ g ∉ s.held ∧ ∀ k, k < g → k ∈ s.held := by
  unfold FreeSet.lowest at h
  simp only at h
  split at h
  · cases h
    obtain ⟨_, b, c, _⟩ := lowestMissing_spec w.1 (fun x _ => Nat.zero_le x)
    exact ⟨by assumption, b, fun k hk => c k (Nat.zero_le k) hk⟩
  · cases h

theorem giveGrain_wf {sets : List FreeSet} (bay grain : Nat) (w : ∀ x ∈ sets, x.wf) : ∀ x ∈ giveGrain sets bay grain, x.wf := by
  intro x hx
  unfold giveGrain at hx
  obtain ⟨i, hi, rfl⟩ := List.mem_iff_getElem.mp hx
  rw [List.getElem_modify]
  split
  · exact FreeSet.give_wf _ (w _ (List.getElem_mem _))
  · exact w _ (List.getElem_mem _)

theorem firstOffer_some {presence : List Bool} {sets : List FreeSet} {order : List Nat} {b g : Nat}
    (h : firstOffer presence sets order = some (b, g)) :
    b ∈ order ∧ presence.getD b false = true ∧ ∃ x, sets[b]? = some x ∧ x.lowest = some g := by
  induction order with
  | nil => cases h
  | cons c order ih =>
    unfold firstOffer at h
    split at h
    · rename_i g' hg
      cases h
      unfold bayOffers at hg
      split at hg
      · rename_i hp
        cases hs : sets[b]? with
        | none => simp [hs] at hg
        | some x => exact ⟨by simp, hp, x, rfl, by simpa [hs] using hg⟩
      · cases hg
    · obtain ⟨h1, h2⟩ := ih h
      exact ⟨List.mem_cons_of_mem _ h1, h2⟩

theorem modify_take_wf {sets : List FreeSet} {b g : Nat} {x : FreeSet} (w : ∀ y ∈ sets, y.wf) (hx : sets[b]? = some x)
    (hg : g < x.count) : ∀ y ∈ sets.modify b (·.take g), y.wf := by
  intro y hy
  obtain ⟨i, hi, rfl⟩ := List.mem_iff_getElem.mp hy
  rw [List.getElem_modify]
  split
  · rename_i hb
    subst hb
    have hlt : b < sets.length := by simpa using hi
    have hxb : sets[b] = x := by
      have := List.getElem?_eq_getElem hlt
      rw [this] at hx; exact Option.some.inj hx
    rw [hxb]
    exact FreeSet.take_wf (hxb ▸ w _ (List.getElem_mem hlt)) hg
  · exact w _ (List.getElem_mem _)

/-- The pool's choices keep the free sets in their canonical form, and they are at most as many as asked for. -/
theorem takeGrains_wf {presence : List Bool} (n : Nat) (sets : List FreeSet) (rotor : Nat) (w : ∀ x ∈ sets, x.wf) :
    (∀ x ∈ (takeGrains presence n sets rotor).sets, x.wf) ∧ (takeGrains presence n sets rotor).grains.length ≤ n := by
  induction n generalizing sets rotor with
  | zero => exact ⟨w, Nat.le_refl 0⟩
  | succ n ih =>
    unfold takeGrains
    split
    · exact ⟨w, by simp⟩
    · rename_i b g h
      obtain ⟨_, _, x, hx, hg⟩ := firstOffer_some h
      have hw : x.wf := by
        obtain ⟨hlt, rfl⟩ := List.getElem?_eq_some_iff.mp hx
        exact w _ (List.getElem_mem hlt)
      obtain ⟨i1, i2⟩ := ih (sets.modify b (·.take g)) ((b + 1) % presence.length)
        (modify_take_wf w hx (FreeSet.lowest_spec hw hg).1)
      exact ⟨i1, by simp only [List.length_cons]; omega⟩

end Sys2Proof.Machine
end

