-- ==== Sys2Proof/Laws/MapRules.lean ====
section
/-! SUPPORT. The changes a map memory write carries keep the canonical form of every structure. -/

namespace Sys2Proof.Machine

variable {mm : MapMemory}

theorem setVolume_canonical (v : Nat) (r : Volume) (h : Canonical mm) : Canonical (setVolume mm v r) :=
  { h with volumes := tableWfRest_set v r h.volumes }

theorem setPeer_canonical (st : Station) (r : PeerCapacity) (h : Canonical mm) : Canonical (setPeer mm st r) :=
  { h with peers := tableWfRest_set _ r h.peers }

theorem putEntry_canonical (v c : Nat) (e : Entry) (h : Canonical mm) : Canonical (putEntry mm v c e) :=
  { h with chunks := tableWf_put _ e h.chunks }

theorem addEntry_canonical (v c : Nat) (e : Entry) (h : Canonical mm) : Canonical (addEntry mm v c e) :=
  setVolume_canonical _ _ (putEntry_canonical v c e h)

theorem removeEntry_canonical (v c : Nat) (h : Canonical mm) : Canonical (removeEntry mm v c) :=
  setVolume_canonical _ _ { h with chunks := tableWf_erase _ h.chunks }

theorem removePending_canonical (v c : Nat) (h : Canonical mm) : Canonical (removePending mm v c) := { h with }

theorem lowerInUse_canonical (st : Station) (h : Canonical mm) : Canonical (lowerInUse mm st) := setPeer_canonical _ _ h

theorem withFree_canonical {sets : List FreeSet} (h : Canonical mm) (hs : ∀ x ∈ sets, x.wf) :
    Canonical { mm with freeSets := sets } := { h with freeSets := hs }

theorem rollbackGrain_canonical (ro : Table RosterRecord) (pr : List Bool) (pl : Place) (h : Canonical mm) :
    Canonical (rollbackGrain ro pr mm pl).mm := by
  unfold rollbackGrain
  repeat' split
  · exact withFree_canonical h (giveGrain_wf _ _ h.freeSets)
  · exact h
  · exact setPeer_canonical _ _ { h with }
  · exact lowerInUse_canonical _ h

theorem rollbackChunk_canonical (ro : Table RosterRecord) (pr : List Bool) (v c : Nat) (h : Canonical mm) :
    Canonical (rollbackChunk ro pr mm v c).mm := by
  unfold rollbackChunk
  split
  · exact removePending_canonical _ _ h
  · exact rollbackGrain_canonical _ _ _ (removeEntry_canonical _ _ (removePending_canonical _ _ h))

theorem freeGrain_canonical (ro : Table RosterRecord) (pr : List Bool) (pl : Place) (h : Canonical mm) :
    Canonical (freeGrain ro pr mm pl).mm := by
  unfold freeGrain
  split
  · exact withFree_canonical h (giveGrain_wf _ _ h.freeSets)
  · split
    · exact h
    · simp only
      split
      · exact lowerInUse_canonical _ h
      · exact h
    · exact lowerInUse_canonical _ h

theorem disposeEntry_canonical (ro : Table RosterRecord) (pr : List Bool) (v c : Nat) (e : Entry) (h : Canonical mm) :
    Canonical (disposeEntry ro pr mm v c e).mm := by
  unfold disposeEntry
  split
  · exact rollbackChunk_canonical _ _ _ _ h
  · exact freeGrain_canonical _ _ _ (removeEntry_canonical _ _ h)

theorem discardEntry_canonical (v c : Nat) (e : Entry) (h : Canonical mm) : Canonical (discardEntry mm v c e) := by
  unfold discardEntry
  split
  · exact removeEntry_canonical _ _ (removePending_canonical _ _ h)
  · exact removeEntry_canonical _ _ h

theorem takeSpare_canonical {ro : Table RosterRecord} {x : Spare} {mm' : MapMemory} (h : Canonical mm)
    (hs : takeSpare ro mm = some (x, mm')) : Canonical mm' := by
  unfold takeSpare at hs
  split at hs
  · cases hs
  · cases hs; exact setPeer_canonical _ _ { h with }

theorem makeEntry_canonical {s : State} {a : Station} {v c tag : Nat} (pl : Place) (h : Canonical mm) :
    Canonical (makeEntry s a v c tag mm pl) :=
  { addEntry_canonical v c
      { state := .pending a tag (msFromNow s s.profile.holdTime), place := pl, shield := coveringCount mm v c } h with }

theorem moveCursor_canonical (c : Nat) (h : Canonical mm) : Canonical (moveCursor mm c) := by
  unfold moveCursor; split
  · exact h
  · exact { h with }

theorem returnStepOf_canonical {ro : Table RosterRecord} {r : ReturnStep} (h : Canonical mm) (hr : returnStepOf ro mm = some r) :
    Canonical r.mm := by
  unfold returnStepOf at hr
  split at hr
  · cases hr
  · cases hr; exact setPeer_canonical _ _ { h with }

theorem dropOldSpares_canonical (st : Station) (e : Epoch) (h : Canonical mm) : Canonical (dropOldSpares mm st e) :=
  setPeer_canonical _ _ { h with }

theorem acceptGrant_canonical (st : Station) (e : Epoch) (j : GrantJudged) (h : Canonical mm) : Canonical (acceptGrant mm st e j) := by
  unfold acceptGrant
  refine setPeer_canonical _ _ ?_
  split
  · exact dropOldSpares_canonical _ _ { h with }
  · exact { h with }

theorem makeLoans_wf (b : Station) (e : Epoch) (gs : List (Nat × Nat)) (t : Table Loan) (w : tableWf t) :
    tableWf (makeLoans b e t gs).1 := by
  induction gs generalizing t with
  | nil => exact w
  | cons g gs ih => exact ih _ (tableWf_put _ _ w)

theorem judgeGiveback_canonical (st : Station) (ls : List Nat) (h : Canonical mm) : Canonical (judgeGiveback st mm ls).mm := by
  induction ls generalizing mm with
  | nil => exact h
  | cons n ls ih =>
    unfold judgeGiveback
    repeat' split
    · exact ih { h with loans := tableWf_erase _ h.loans, freeSets := giveGrain_wf _ _ h.freeSets }
    · exact ih h
    · exact ih h

theorem reclaimLoans_canonical (st : Station) (e : Epoch) (h : Canonical mm) : Canonical (reclaimLoans mm st e) := by
  refine { h with loans := tableWf_filter _ h.loans, freeSets := ?_ }
  show ∀ x ∈ (List.foldl (fun fs (p : Nat × Loan) => giveGrain fs p.2.bay p.2.grain) mm.freeSets _), x.wf
  generalize mm.loans.filter (fun p => isOldLoan st e p.2) = l
  have := h.freeSets
  generalize mm.freeSets = fs at this ⊢
  induction l generalizing fs with
  | nil => exact this
  | cons p l ih => exact ih _ (giveGrain_wf _ _ this)

theorem sweepVolumes_canonical (h : Canonical mm) : Canonical (sweepVolumes mm) :=
  { h with volumes := tableWfRest_filter _ h.volumes }

theorem formatContents_canonical (mm : MapMemory) (p : Profile) : Canonical (formatContents mm p) where
  volumes := ⟨List.Pairwise.nil, fun _ h => nomatch h⟩
  chunks := List.Pairwise.nil
  loans := List.Pairwise.nil
  peers := ⟨List.Pairwise.nil, fun _ h => nomatch h⟩
  freeSets := fun x hx => by
    obtain ⟨n, _, rfl⟩ := List.mem_map.mp hx
    exact FreeSet.full_wf n

theorem blank_canonical : Canonical MapMemory.blank where
  volumes := ⟨List.Pairwise.nil, fun _ h => nomatch h⟩
  chunks := List.Pairwise.nil
  loans := List.Pairwise.nil
  peers := ⟨List.Pairwise.nil, fun _ h => nomatch h⟩
  freeSets := fun _ h => nomatch h

end Sys2Proof.Machine
end

