-- ==== Sys2Proof/Laws/State.lean ====
section
/-! SUPPORT. One lemma for each field of the station under each plain update, so that no proof unfolds a record update. -/

namespace Sys2Proof.Machine

/-! `advance` -/

@[simp] theorem advance_pending (t : Time) (s : State) : (advance t s).pending = s.pending := rfl
@[simp] theorem advance_powered (t : Time) (s : State) : (advance t s).powered = s.powered := rfl
@[simp] theorem advance_now (t : Time) (s : State) : (advance t s).now = max s.now t := rfl
@[simp] theorem advance_cond (t : Time) (s : State) : (advance t s).cond = s.cond := rfl
@[simp] theorem advance_own (t : Time) (s : State) : (advance t s).own = s.own := rfl
@[simp] theorem advance_profile (t : Time) (s : State) : (advance t s).profile = s.profile := rfl
@[simp] theorem advance_profileRead (t : Time) (s : State) : (advance t s).profileRead = s.profileRead := rfl
@[simp] theorem advance_headerRead (t : Time) (s : State) : (advance t s).headerRead = s.headerRead := rfl
@[simp] theorem advance_poolUp (t : Time) (s : State) : (advance t s).poolUp = s.poolUp := rfl
@[simp] theorem advance_loanUp (t : Time) (s : State) : (advance t s).loanUp = s.loanUp := rfl
@[simp] theorem advance_cause (t : Time) (s : State) : (advance t s).cause = s.cause := rfl
@[simp] theorem advance_outcome (t : Time) (s : State) : (advance t s).outcome = s.outcome := rfl
@[simp] theorem advance_joinTimer (t : Time) (s : State) : (advance t s).joinTimer = s.joinTimer := rfl
@[simp] theorem advance_drainTimer (t : Time) (s : State) : (advance t s).drainTimer = s.drainTimer := rfl
@[simp] theorem advance_drainEnded (t : Time) (s : State) : (advance t s).drainEnded = s.drainEnded := rfl
@[simp] theorem advance_serviceLine (t : Time) (s : State) : (advance t s).serviceLine = s.serviceLine := rfl
@[simp] theorem advance_servicePin (t : Time) (s : State) : (advance t s).servicePin = s.servicePin := rfl
@[simp] theorem advance_bayLines (t : Time) (s : State) : (advance t s).bayLines = s.bayLines := rfl
@[simp] theorem advance_presence (t : Time) (s : State) : (advance t s).presence = s.presence := rfl
@[simp] theorem advance_rotor (t : Time) (s : State) : (advance t s).rotor = s.rotor := rfl
@[simp] theorem advance_mm (t : Time) (s : State) : (advance t s).mm = s.mm := rfl
@[simp] theorem advance_roster (t : Time) (s : State) : (advance t s).roster = s.roster := rfl
@[simp] theorem advance_hailTimer (t : Time) (s : State) : (advance t s).hailTimer = s.hailTimer := rfl
@[simp] theorem advance_ask (t : Time) (s : State) : (advance t s).ask = s.ask := rfl
@[simp] theorem advance_offer (t : Time) (s : State) : (advance t s).offer = s.offer := rfl
@[simp] theorem advance_lastGrants (t : Time) (s : State) : (advance t s).lastGrants = s.lastGrants := rfl
@[simp] theorem advance_walkerTimer (t : Time) (s : State) : (advance t s).walkerTimer = s.walkerTimer := rfl
@[simp] theorem advance_link (t : Time) (s : State) : (advance t s).link = s.link := rfl
@[simp] theorem advance_buffer (t : Time) (s : State) : (advance t s).buffer = s.buffer := rfl
@[simp] theorem advance_ackDriven (t : Time) (s : State) : (advance t s).ackDriven = s.ackDriven := rfl
@[simp] theorem advance_faults (t : Time) (s : State) : (advance t s).faults = s.faults := rfl
@[simp] theorem advance_attention (t : Time) (s : State) : (advance t s).attention = s.attention := rfl
@[simp] theorem advance_inflight (t : Time) (s : State) : (advance t s).inflight = s.inflight := rfl
@[simp] theorem advance_tasks (t : Time) (s : State) : (advance t s).tasks = s.tasks := rfl
@[simp] theorem advance_fresh (t : Time) (s : State) : (advance t s).fresh = s.fresh := rfl

/-! `pushFrame` -/

@[simp] theorem pushFrame_pending (f : OutFrame) (s : State) : (pushFrame f s).pending = s.pending := rfl
@[simp] theorem pushFrame_powered (f : OutFrame) (s : State) : (pushFrame f s).powered = s.powered := rfl
@[simp] theorem pushFrame_now (f : OutFrame) (s : State) : (pushFrame f s).now = s.now := rfl
@[simp] theorem pushFrame_cond (f : OutFrame) (s : State) : (pushFrame f s).cond = s.cond := rfl
@[simp] theorem pushFrame_own (f : OutFrame) (s : State) : (pushFrame f s).own = s.own := rfl
@[simp] theorem pushFrame_profile (f : OutFrame) (s : State) : (pushFrame f s).profile = s.profile := rfl
@[simp] theorem pushFrame_profileRead (f : OutFrame) (s : State) : (pushFrame f s).profileRead = s.profileRead := rfl
@[simp] theorem pushFrame_headerRead (f : OutFrame) (s : State) : (pushFrame f s).headerRead = s.headerRead := rfl
@[simp] theorem pushFrame_poolUp (f : OutFrame) (s : State) : (pushFrame f s).poolUp = s.poolUp := rfl
@[simp] theorem pushFrame_loanUp (f : OutFrame) (s : State) : (pushFrame f s).loanUp = s.loanUp := rfl
@[simp] theorem pushFrame_cause (f : OutFrame) (s : State) : (pushFrame f s).cause = s.cause := rfl
@[simp] theorem pushFrame_outcome (f : OutFrame) (s : State) : (pushFrame f s).outcome = s.outcome := rfl
@[simp] theorem pushFrame_joinTimer (f : OutFrame) (s : State) : (pushFrame f s).joinTimer = s.joinTimer := rfl
@[simp] theorem pushFrame_drainTimer (f : OutFrame) (s : State) : (pushFrame f s).drainTimer = s.drainTimer := rfl
@[simp] theorem pushFrame_drainEnded (f : OutFrame) (s : State) : (pushFrame f s).drainEnded = s.drainEnded := rfl
@[simp] theorem pushFrame_serviceLine (f : OutFrame) (s : State) : (pushFrame f s).serviceLine = s.serviceLine := rfl
@[simp] theorem pushFrame_servicePin (f : OutFrame) (s : State) : (pushFrame f s).servicePin = s.servicePin := rfl
@[simp] theorem pushFrame_bayLines (f : OutFrame) (s : State) : (pushFrame f s).bayLines = s.bayLines := rfl
@[simp] theorem pushFrame_presence (f : OutFrame) (s : State) : (pushFrame f s).presence = s.presence := rfl
@[simp] theorem pushFrame_rotor (f : OutFrame) (s : State) : (pushFrame f s).rotor = s.rotor := rfl
@[simp] theorem pushFrame_mm (f : OutFrame) (s : State) : (pushFrame f s).mm = s.mm := rfl
@[simp] theorem pushFrame_roster (f : OutFrame) (s : State) : (pushFrame f s).roster = s.roster := rfl
@[simp] theorem pushFrame_hailTimer (f : OutFrame) (s : State) : (pushFrame f s).hailTimer = s.hailTimer := rfl
@[simp] theorem pushFrame_ask (f : OutFrame) (s : State) : (pushFrame f s).ask = s.ask := rfl
@[simp] theorem pushFrame_offer (f : OutFrame) (s : State) : (pushFrame f s).offer = s.offer := rfl
@[simp] theorem pushFrame_lastGrants (f : OutFrame) (s : State) : (pushFrame f s).lastGrants = s.lastGrants := rfl
@[simp] theorem pushFrame_walkerTimer (f : OutFrame) (s : State) : (pushFrame f s).walkerTimer = s.walkerTimer := rfl
@[simp] theorem pushFrame_link (f : OutFrame) (s : State) : (pushFrame f s).link = { s.link with queue := insertFrame s.link.queue f } := rfl
@[simp] theorem pushFrame_buffer (f : OutFrame) (s : State) : (pushFrame f s).buffer = s.buffer := rfl
@[simp] theorem pushFrame_ackDriven (f : OutFrame) (s : State) : (pushFrame f s).ackDriven = s.ackDriven := rfl
@[simp] theorem pushFrame_faults (f : OutFrame) (s : State) : (pushFrame f s).faults = s.faults := rfl
@[simp] theorem pushFrame_attention (f : OutFrame) (s : State) : (pushFrame f s).attention = s.attention := rfl
@[simp] theorem pushFrame_inflight (f : OutFrame) (s : State) : (pushFrame f s).inflight = s.inflight := rfl
@[simp] theorem pushFrame_tasks (f : OutFrame) (s : State) : (pushFrame f s).tasks = s.tasks := rfl
@[simp] theorem pushFrame_fresh (f : OutFrame) (s : State) : (pushFrame f s).fresh = s.fresh := rfl

/-! `reserveReply` -/

@[simp] theorem reserveReply_pending (s : State) : (reserveReply s).pending = s.pending := rfl
@[simp] theorem reserveReply_powered (s : State) : (reserveReply s).powered = s.powered := rfl
@[simp] theorem reserveReply_now (s : State) : (reserveReply s).now = s.now := rfl
@[simp] theorem reserveReply_cond (s : State) : (reserveReply s).cond = s.cond := rfl
@[simp] theorem reserveReply_own (s : State) : (reserveReply s).own = s.own := rfl
@[simp] theorem reserveReply_profile (s : State) : (reserveReply s).profile = s.profile := rfl
@[simp] theorem reserveReply_profileRead (s : State) : (reserveReply s).profileRead = s.profileRead := rfl
@[simp] theorem reserveReply_headerRead (s : State) : (reserveReply s).headerRead = s.headerRead := rfl
@[simp] theorem reserveReply_poolUp (s : State) : (reserveReply s).poolUp = s.poolUp := rfl
@[simp] theorem reserveReply_loanUp (s : State) : (reserveReply s).loanUp = s.loanUp := rfl
@[simp] theorem reserveReply_cause (s : State) : (reserveReply s).cause = s.cause := rfl
@[simp] theorem reserveReply_outcome (s : State) : (reserveReply s).outcome = s.outcome := rfl
@[simp] theorem reserveReply_joinTimer (s : State) : (reserveReply s).joinTimer = s.joinTimer := rfl
@[simp] theorem reserveReply_drainTimer (s : State) : (reserveReply s).drainTimer = s.drainTimer := rfl
@[simp] theorem reserveReply_drainEnded (s : State) : (reserveReply s).drainEnded = s.drainEnded := rfl
@[simp] theorem reserveReply_serviceLine (s : State) : (reserveReply s).serviceLine = s.serviceLine := rfl
@[simp] theorem reserveReply_servicePin (s : State) : (reserveReply s).servicePin = s.servicePin := rfl
@[simp] theorem reserveReply_bayLines (s : State) : (reserveReply s).bayLines = s.bayLines := rfl
@[simp] theorem reserveReply_presence (s : State) : (reserveReply s).presence = s.presence := rfl
@[simp] theorem reserveReply_rotor (s : State) : (reserveReply s).rotor = s.rotor := rfl
@[simp] theorem reserveReply_mm (s : State) : (reserveReply s).mm = s.mm := rfl
@[simp] theorem reserveReply_roster (s : State) : (reserveReply s).roster = s.roster := rfl
@[simp] theorem reserveReply_hailTimer (s : State) : (reserveReply s).hailTimer = s.hailTimer := rfl
@[simp] theorem reserveReply_ask (s : State) : (reserveReply s).ask = s.ask := rfl
@[simp] theorem reserveReply_offer (s : State) : (reserveReply s).offer = s.offer := rfl
@[simp] theorem reserveReply_lastGrants (s : State) : (reserveReply s).lastGrants = s.lastGrants := rfl
@[simp] theorem reserveReply_walkerTimer (s : State) : (reserveReply s).walkerTimer = s.walkerTimer := rfl
@[simp] theorem reserveReply_link (s : State) : (reserveReply s).link = { s.link with reservedReplies := s.link.reservedReplies + 1 } := rfl
@[simp] theorem reserveReply_buffer (s : State) : (reserveReply s).buffer = s.buffer := rfl
@[simp] theorem reserveReply_ackDriven (s : State) : (reserveReply s).ackDriven = s.ackDriven := rfl
@[simp] theorem reserveReply_faults (s : State) : (reserveReply s).faults = s.faults := rfl
@[simp] theorem reserveReply_attention (s : State) : (reserveReply s).attention = s.attention := rfl
@[simp] theorem reserveReply_inflight (s : State) : (reserveReply s).inflight = s.inflight := rfl
@[simp] theorem reserveReply_tasks (s : State) : (reserveReply s).tasks = s.tasks := rfl
@[simp] theorem reserveReply_fresh (s : State) : (reserveReply s).fresh = s.fresh := rfl

/-! `releaseReply` -/

@[simp] theorem releaseReply_pending (s : State) : (releaseReply s).pending = s.pending := rfl
@[simp] theorem releaseReply_powered (s : State) : (releaseReply s).powered = s.powered := rfl
@[simp] theorem releaseReply_now (s : State) : (releaseReply s).now = s.now := rfl
@[simp] theorem releaseReply_cond (s : State) : (releaseReply s).cond = s.cond := rfl
@[simp] theorem releaseReply_own (s : State) : (releaseReply s).own = s.own := rfl
@[simp] theorem releaseReply_profile (s : State) : (releaseReply s).profile = s.profile := rfl
@[simp] theorem releaseReply_profileRead (s : State) : (releaseReply s).profileRead = s.profileRead := rfl
@[simp] theorem releaseReply_headerRead (s : State) : (releaseReply s).headerRead = s.headerRead := rfl
@[simp] theorem releaseReply_poolUp (s : State) : (releaseReply s).poolUp = s.poolUp := rfl
@[simp] theorem releaseReply_loanUp (s : State) : (releaseReply s).loanUp = s.loanUp := rfl
@[simp] theorem releaseReply_cause (s : State) : (releaseReply s).cause = s.cause := rfl
@[simp] theorem releaseReply_outcome (s : State) : (releaseReply s).outcome = s.outcome := rfl
@[simp] theorem releaseReply_joinTimer (s : State) : (releaseReply s).joinTimer = s.joinTimer := rfl
@[simp] theorem releaseReply_drainTimer (s : State) : (releaseReply s).drainTimer = s.drainTimer := rfl
@[simp] theorem releaseReply_drainEnded (s : State) : (releaseReply s).drainEnded = s.drainEnded := rfl
@[simp] theorem releaseReply_serviceLine (s : State) : (releaseReply s).serviceLine = s.serviceLine := rfl
@[simp] theorem releaseReply_servicePin (s : State) : (releaseReply s).servicePin = s.servicePin := rfl
@[simp] theorem releaseReply_bayLines (s : State) : (releaseReply s).bayLines = s.bayLines := rfl
@[simp] theorem releaseReply_presence (s : State) : (releaseReply s).presence = s.presence := rfl
@[simp] theorem releaseReply_rotor (s : State) : (releaseReply s).rotor = s.rotor := rfl
@[simp] theorem releaseReply_mm (s : State) : (releaseReply s).mm = s.mm := rfl
@[simp] theorem releaseReply_roster (s : State) : (releaseReply s).roster = s.roster := rfl
@[simp] theorem releaseReply_hailTimer (s : State) : (releaseReply s).hailTimer = s.hailTimer := rfl
@[simp] theorem releaseReply_ask (s : State) : (releaseReply s).ask = s.ask := rfl
@[simp] theorem releaseReply_offer (s : State) : (releaseReply s).offer = s.offer := rfl
@[simp] theorem releaseReply_lastGrants (s : State) : (releaseReply s).lastGrants = s.lastGrants := rfl
@[simp] theorem releaseReply_walkerTimer (s : State) : (releaseReply s).walkerTimer = s.walkerTimer := rfl
@[simp] theorem releaseReply_link (s : State) : (releaseReply s).link = { s.link with reservedReplies := s.link.reservedReplies - 1 } := rfl
@[simp] theorem releaseReply_buffer (s : State) : (releaseReply s).buffer = s.buffer := rfl
@[simp] theorem releaseReply_ackDriven (s : State) : (releaseReply s).ackDriven = s.ackDriven := rfl
@[simp] theorem releaseReply_faults (s : State) : (releaseReply s).faults = s.faults := rfl
@[simp] theorem releaseReply_attention (s : State) : (releaseReply s).attention = s.attention := rfl
@[simp] theorem releaseReply_inflight (s : State) : (releaseReply s).inflight = s.inflight := rfl
@[simp] theorem releaseReply_tasks (s : State) : (releaseReply s).tasks = s.tasks := rfl
@[simp] theorem releaseReply_fresh (s : State) : (releaseReply s).fresh = s.fresh := rfl

/-! `reserveOther` -/

@[simp] theorem reserveOther_pending (s : State) : (reserveOther s).pending = s.pending := rfl
@[simp] theorem reserveOther_powered (s : State) : (reserveOther s).powered = s.powered := rfl
@[simp] theorem reserveOther_now (s : State) : (reserveOther s).now = s.now := rfl
@[simp] theorem reserveOther_cond (s : State) : (reserveOther s).cond = s.cond := rfl
@[simp] theorem reserveOther_own (s : State) : (reserveOther s).own = s.own := rfl
@[simp] theorem reserveOther_profile (s : State) : (reserveOther s).profile = s.profile := rfl
@[simp] theorem reserveOther_profileRead (s : State) : (reserveOther s).profileRead = s.profileRead := rfl
@[simp] theorem reserveOther_headerRead (s : State) : (reserveOther s).headerRead = s.headerRead := rfl
@[simp] theorem reserveOther_poolUp (s : State) : (reserveOther s).poolUp = s.poolUp := rfl
@[simp] theorem reserveOther_loanUp (s : State) : (reserveOther s).loanUp = s.loanUp := rfl
@[simp] theorem reserveOther_cause (s : State) : (reserveOther s).cause = s.cause := rfl
@[simp] theorem reserveOther_outcome (s : State) : (reserveOther s).outcome = s.outcome := rfl
@[simp] theorem reserveOther_joinTimer (s : State) : (reserveOther s).joinTimer = s.joinTimer := rfl
@[simp] theorem reserveOther_drainTimer (s : State) : (reserveOther s).drainTimer = s.drainTimer := rfl
@[simp] theorem reserveOther_drainEnded (s : State) : (reserveOther s).drainEnded = s.drainEnded := rfl
@[simp] theorem reserveOther_serviceLine (s : State) : (reserveOther s).serviceLine = s.serviceLine := rfl
@[simp] theorem reserveOther_servicePin (s : State) : (reserveOther s).servicePin = s.servicePin := rfl
@[simp] theorem reserveOther_bayLines (s : State) : (reserveOther s).bayLines = s.bayLines := rfl
@[simp] theorem reserveOther_presence (s : State) : (reserveOther s).presence = s.presence := rfl
@[simp] theorem reserveOther_rotor (s : State) : (reserveOther s).rotor = s.rotor := rfl
@[simp] theorem reserveOther_mm (s : State) : (reserveOther s).mm = s.mm := rfl
@[simp] theorem reserveOther_roster (s : State) : (reserveOther s).roster = s.roster := rfl
@[simp] theorem reserveOther_hailTimer (s : State) : (reserveOther s).hailTimer = s.hailTimer := rfl
@[simp] theorem reserveOther_ask (s : State) : (reserveOther s).ask = s.ask := rfl
@[simp] theorem reserveOther_offer (s : State) : (reserveOther s).offer = s.offer := rfl
@[simp] theorem reserveOther_lastGrants (s : State) : (reserveOther s).lastGrants = s.lastGrants := rfl
@[simp] theorem reserveOther_walkerTimer (s : State) : (reserveOther s).walkerTimer = s.walkerTimer := rfl
@[simp] theorem reserveOther_link (s : State) : (reserveOther s).link = { s.link with reservedOthers := s.link.reservedOthers + 1 } := rfl
@[simp] theorem reserveOther_buffer (s : State) : (reserveOther s).buffer = s.buffer := rfl
@[simp] theorem reserveOther_ackDriven (s : State) : (reserveOther s).ackDriven = s.ackDriven := rfl
@[simp] theorem reserveOther_faults (s : State) : (reserveOther s).faults = s.faults := rfl
@[simp] theorem reserveOther_attention (s : State) : (reserveOther s).attention = s.attention := rfl
@[simp] theorem reserveOther_inflight (s : State) : (reserveOther s).inflight = s.inflight := rfl
@[simp] theorem reserveOther_tasks (s : State) : (reserveOther s).tasks = s.tasks := rfl
@[simp] theorem reserveOther_fresh (s : State) : (reserveOther s).fresh = s.fresh := rfl

/-! `releaseOther` -/

@[simp] theorem releaseOther_pending (s : State) : (releaseOther s).pending = s.pending := rfl
@[simp] theorem releaseOther_powered (s : State) : (releaseOther s).powered = s.powered := rfl
@[simp] theorem releaseOther_now (s : State) : (releaseOther s).now = s.now := rfl
@[simp] theorem releaseOther_cond (s : State) : (releaseOther s).cond = s.cond := rfl
@[simp] theorem releaseOther_own (s : State) : (releaseOther s).own = s.own := rfl
@[simp] theorem releaseOther_profile (s : State) : (releaseOther s).profile = s.profile := rfl
@[simp] theorem releaseOther_profileRead (s : State) : (releaseOther s).profileRead = s.profileRead := rfl
@[simp] theorem releaseOther_headerRead (s : State) : (releaseOther s).headerRead = s.headerRead := rfl
@[simp] theorem releaseOther_poolUp (s : State) : (releaseOther s).poolUp = s.poolUp := rfl
@[simp] theorem releaseOther_loanUp (s : State) : (releaseOther s).loanUp = s.loanUp := rfl
@[simp] theorem releaseOther_cause (s : State) : (releaseOther s).cause = s.cause := rfl
@[simp] theorem releaseOther_outcome (s : State) : (releaseOther s).outcome = s.outcome := rfl
@[simp] theorem releaseOther_joinTimer (s : State) : (releaseOther s).joinTimer = s.joinTimer := rfl
@[simp] theorem releaseOther_drainTimer (s : State) : (releaseOther s).drainTimer = s.drainTimer := rfl
@[simp] theorem releaseOther_drainEnded (s : State) : (releaseOther s).drainEnded = s.drainEnded := rfl
@[simp] theorem releaseOther_serviceLine (s : State) : (releaseOther s).serviceLine = s.serviceLine := rfl
@[simp] theorem releaseOther_servicePin (s : State) : (releaseOther s).servicePin = s.servicePin := rfl
@[simp] theorem releaseOther_bayLines (s : State) : (releaseOther s).bayLines = s.bayLines := rfl
@[simp] theorem releaseOther_presence (s : State) : (releaseOther s).presence = s.presence := rfl
@[simp] theorem releaseOther_rotor (s : State) : (releaseOther s).rotor = s.rotor := rfl
@[simp] theorem releaseOther_mm (s : State) : (releaseOther s).mm = s.mm := rfl
@[simp] theorem releaseOther_roster (s : State) : (releaseOther s).roster = s.roster := rfl
@[simp] theorem releaseOther_hailTimer (s : State) : (releaseOther s).hailTimer = s.hailTimer := rfl
@[simp] theorem releaseOther_ask (s : State) : (releaseOther s).ask = s.ask := rfl
@[simp] theorem releaseOther_offer (s : State) : (releaseOther s).offer = s.offer := rfl
@[simp] theorem releaseOther_lastGrants (s : State) : (releaseOther s).lastGrants = s.lastGrants := rfl
@[simp] theorem releaseOther_walkerTimer (s : State) : (releaseOther s).walkerTimer = s.walkerTimer := rfl
@[simp] theorem releaseOther_link (s : State) : (releaseOther s).link = { s.link with reservedOthers := s.link.reservedOthers - 1 } := rfl
@[simp] theorem releaseOther_buffer (s : State) : (releaseOther s).buffer = s.buffer := rfl
@[simp] theorem releaseOther_ackDriven (s : State) : (releaseOther s).ackDriven = s.ackDriven := rfl
@[simp] theorem releaseOther_faults (s : State) : (releaseOther s).faults = s.faults := rfl
@[simp] theorem releaseOther_attention (s : State) : (releaseOther s).attention = s.attention := rfl
@[simp] theorem releaseOther_inflight (s : State) : (releaseOther s).inflight = s.inflight := rfl
@[simp] theorem releaseOther_tasks (s : State) : (releaseOther s).tasks = s.tasks := rfl
@[simp] theorem releaseOther_fresh (s : State) : (releaseOther s).fresh = s.fresh := rfl

/-! `withTasks` -/

@[simp] theorem withTasks_pending (ts : List Task) (s : State) : (withTasks ts s).pending = s.pending := rfl
@[simp] theorem withTasks_powered (ts : List Task) (s : State) : (withTasks ts s).powered = s.powered := rfl
@[simp] theorem withTasks_now (ts : List Task) (s : State) : (withTasks ts s).now = s.now := rfl
@[simp] theorem withTasks_cond (ts : List Task) (s : State) : (withTasks ts s).cond = s.cond := rfl
@[simp] theorem withTasks_own (ts : List Task) (s : State) : (withTasks ts s).own = s.own := rfl
@[simp] theorem withTasks_profile (ts : List Task) (s : State) : (withTasks ts s).profile = s.profile := rfl
@[simp] theorem withTasks_profileRead (ts : List Task) (s : State) : (withTasks ts s).profileRead = s.profileRead := rfl
@[simp] theorem withTasks_headerRead (ts : List Task) (s : State) : (withTasks ts s).headerRead = s.headerRead := rfl
@[simp] theorem withTasks_poolUp (ts : List Task) (s : State) : (withTasks ts s).poolUp = s.poolUp := rfl
@[simp] theorem withTasks_loanUp (ts : List Task) (s : State) : (withTasks ts s).loanUp = s.loanUp := rfl
@[simp] theorem withTasks_cause (ts : List Task) (s : State) : (withTasks ts s).cause = s.cause := rfl
@[simp] theorem withTasks_outcome (ts : List Task) (s : State) : (withTasks ts s).outcome = s.outcome := rfl
@[simp] theorem withTasks_joinTimer (ts : List Task) (s : State) : (withTasks ts s).joinTimer = s.joinTimer := rfl
@[simp] theorem withTasks_drainTimer (ts : List Task) (s : State) : (withTasks ts s).drainTimer = s.drainTimer := rfl
@[simp] theorem withTasks_drainEnded (ts : List Task) (s : State) : (withTasks ts s).drainEnded = s.drainEnded := rfl
@[simp] theorem withTasks_serviceLine (ts : List Task) (s : State) : (withTasks ts s).serviceLine = s.serviceLine := rfl
@[simp] theorem withTasks_servicePin (ts : List Task) (s : State) : (withTasks ts s).servicePin = s.servicePin := rfl
@[simp] theorem withTasks_bayLines (ts : List Task) (s : State) : (withTasks ts s).bayLines = s.bayLines := rfl
@[simp] theorem withTasks_presence (ts : List Task) (s : State) : (withTasks ts s).presence = s.presence := rfl
@[simp] theorem withTasks_rotor (ts : List Task) (s : State) : (withTasks ts s).rotor = s.rotor := rfl
@[simp] theorem withTasks_mm (ts : List Task) (s : State) : (withTasks ts s).mm = s.mm := rfl
@[simp] theorem withTasks_roster (ts : List Task) (s : State) : (withTasks ts s).roster = s.roster := rfl
@[simp] theorem withTasks_hailTimer (ts : List Task) (s : State) : (withTasks ts s).hailTimer = s.hailTimer := rfl
@[simp] theorem withTasks_ask (ts : List Task) (s : State) : (withTasks ts s).ask = s.ask := rfl
@[simp] theorem withTasks_offer (ts : List Task) (s : State) : (withTasks ts s).offer = s.offer := rfl
@[simp] theorem withTasks_lastGrants (ts : List Task) (s : State) : (withTasks ts s).lastGrants = s.lastGrants := rfl
@[simp] theorem withTasks_walkerTimer (ts : List Task) (s : State) : (withTasks ts s).walkerTimer = s.walkerTimer := rfl
@[simp] theorem withTasks_link (ts : List Task) (s : State) : (withTasks ts s).link = s.link := rfl
@[simp] theorem withTasks_buffer (ts : List Task) (s : State) : (withTasks ts s).buffer = s.buffer := rfl
@[simp] theorem withTasks_ackDriven (ts : List Task) (s : State) : (withTasks ts s).ackDriven = s.ackDriven := rfl
@[simp] theorem withTasks_faults (ts : List Task) (s : State) : (withTasks ts s).faults = s.faults := rfl
@[simp] theorem withTasks_attention (ts : List Task) (s : State) : (withTasks ts s).attention = s.attention := rfl
@[simp] theorem withTasks_inflight (ts : List Task) (s : State) : (withTasks ts s).inflight = s.inflight := rfl
@[simp] theorem withTasks_tasks (ts : List Task) (s : State) : (withTasks ts s).tasks = ts := rfl
@[simp] theorem withTasks_fresh (ts : List Task) (s : State) : (withTasks ts s).fresh = s.fresh := rfl

/-! `countUp` -/

@[simp] theorem countUp_pending (c : Counter) (s : State) : (countUp c s).pending = s.pending := rfl
@[simp] theorem countUp_powered (c : Counter) (s : State) : (countUp c s).powered = s.powered := rfl
@[simp] theorem countUp_now (c : Counter) (s : State) : (countUp c s).now = s.now := rfl
@[simp] theorem countUp_cond (c : Counter) (s : State) : (countUp c s).cond = s.cond := rfl
@[simp] theorem countUp_own (c : Counter) (s : State) : (countUp c s).own = s.own := rfl
@[simp] theorem countUp_profile (c : Counter) (s : State) : (countUp c s).profile = s.profile := rfl
@[simp] theorem countUp_profileRead (c : Counter) (s : State) : (countUp c s).profileRead = s.profileRead := rfl
@[simp] theorem countUp_headerRead (c : Counter) (s : State) : (countUp c s).headerRead = s.headerRead := rfl
@[simp] theorem countUp_poolUp (c : Counter) (s : State) : (countUp c s).poolUp = s.poolUp := rfl
@[simp] theorem countUp_loanUp (c : Counter) (s : State) : (countUp c s).loanUp = s.loanUp := rfl
@[simp] theorem countUp_cause (c : Counter) (s : State) : (countUp c s).cause = s.cause := rfl
@[simp] theorem countUp_outcome (c : Counter) (s : State) : (countUp c s).outcome = s.outcome := rfl
@[simp] theorem countUp_joinTimer (c : Counter) (s : State) : (countUp c s).joinTimer = s.joinTimer := rfl
@[simp] theorem countUp_drainTimer (c : Counter) (s : State) : (countUp c s).drainTimer = s.drainTimer := rfl
@[simp] theorem countUp_drainEnded (c : Counter) (s : State) : (countUp c s).drainEnded = s.drainEnded := rfl
@[simp] theorem countUp_serviceLine (c : Counter) (s : State) : (countUp c s).serviceLine = s.serviceLine := rfl
@[simp] theorem countUp_servicePin (c : Counter) (s : State) : (countUp c s).servicePin = s.servicePin := rfl
@[simp] theorem countUp_bayLines (c : Counter) (s : State) : (countUp c s).bayLines = s.bayLines := rfl
@[simp] theorem countUp_presence (c : Counter) (s : State) : (countUp c s).presence = s.presence := rfl
@[simp] theorem countUp_rotor (c : Counter) (s : State) : (countUp c s).rotor = s.rotor := rfl
@[simp] theorem countUp_mm (c : Counter) (s : State) : (countUp c s).mm = s.mm := rfl
@[simp] theorem countUp_roster (c : Counter) (s : State) : (countUp c s).roster = s.roster := rfl
@[simp] theorem countUp_hailTimer (c : Counter) (s : State) : (countUp c s).hailTimer = s.hailTimer := rfl
@[simp] theorem countUp_ask (c : Counter) (s : State) : (countUp c s).ask = s.ask := rfl
@[simp] theorem countUp_offer (c : Counter) (s : State) : (countUp c s).offer = s.offer := rfl
@[simp] theorem countUp_lastGrants (c : Counter) (s : State) : (countUp c s).lastGrants = s.lastGrants := rfl
@[simp] theorem countUp_walkerTimer (c : Counter) (s : State) : (countUp c s).walkerTimer = s.walkerTimer := rfl
@[simp] theorem countUp_link (c : Counter) (s : State) : (countUp c s).link = s.link := rfl
@[simp] theorem countUp_buffer (c : Counter) (s : State) : (countUp c s).buffer = s.buffer := rfl
@[simp] theorem countUp_ackDriven (c : Counter) (s : State) : (countUp c s).ackDriven = s.ackDriven := rfl
@[simp] theorem countUp_faults (c : Counter) (s : State) : (countUp c s).faults = { s.faults with counts := s.faults.counts.raise c } := rfl
@[simp] theorem countUp_attention (c : Counter) (s : State) : (countUp c s).attention = s.attention := rfl
@[simp] theorem countUp_inflight (c : Counter) (s : State) : (countUp c s).inflight = s.inflight := rfl
@[simp] theorem countUp_tasks (c : Counter) (s : State) : (countUp c s).tasks = s.tasks := rfl
@[simp] theorem countUp_fresh (c : Counter) (s : State) : (countUp c s).fresh = s.fresh := rfl

/-! `judgeAttention` -/

@[simp] theorem judgeAttention_pending (s : State) : (judgeAttention s).pending = s.pending := rfl
@[simp] theorem judgeAttention_powered (s : State) : (judgeAttention s).powered = s.powered := rfl
@[simp] theorem judgeAttention_now (s : State) : (judgeAttention s).now = s.now := rfl
@[simp] theorem judgeAttention_cond (s : State) : (judgeAttention s).cond = s.cond := rfl
@[simp] theorem judgeAttention_own (s : State) : (judgeAttention s).own = s.own := rfl
@[simp] theorem judgeAttention_profile (s : State) : (judgeAttention s).profile = s.profile := rfl
@[simp] theorem judgeAttention_profileRead (s : State) : (judgeAttention s).profileRead = s.profileRead := rfl
@[simp] theorem judgeAttention_headerRead (s : State) : (judgeAttention s).headerRead = s.headerRead := rfl
@[simp] theorem judgeAttention_poolUp (s : State) : (judgeAttention s).poolUp = s.poolUp := rfl
@[simp] theorem judgeAttention_loanUp (s : State) : (judgeAttention s).loanUp = s.loanUp := rfl
@[simp] theorem judgeAttention_cause (s : State) : (judgeAttention s).cause = s.cause := rfl
@[simp] theorem judgeAttention_outcome (s : State) : (judgeAttention s).outcome = s.outcome := rfl
@[simp] theorem judgeAttention_joinTimer (s : State) : (judgeAttention s).joinTimer = s.joinTimer := rfl
@[simp] theorem judgeAttention_drainTimer (s : State) : (judgeAttention s).drainTimer = s.drainTimer := rfl
@[simp] theorem judgeAttention_drainEnded (s : State) : (judgeAttention s).drainEnded = s.drainEnded := rfl
@[simp] theorem judgeAttention_serviceLine (s : State) : (judgeAttention s).serviceLine = s.serviceLine := rfl
@[simp] theorem judgeAttention_servicePin (s : State) : (judgeAttention s).servicePin = s.servicePin := rfl
@[simp] theorem judgeAttention_bayLines (s : State) : (judgeAttention s).bayLines = s.bayLines := rfl
@[simp] theorem judgeAttention_presence (s : State) : (judgeAttention s).presence = s.presence := rfl
@[simp] theorem judgeAttention_rotor (s : State) : (judgeAttention s).rotor = s.rotor := rfl
@[simp] theorem judgeAttention_mm (s : State) : (judgeAttention s).mm = s.mm := rfl
@[simp] theorem judgeAttention_roster (s : State) : (judgeAttention s).roster = s.roster := rfl
@[simp] theorem judgeAttention_hailTimer (s : State) : (judgeAttention s).hailTimer = s.hailTimer := rfl
@[simp] theorem judgeAttention_ask (s : State) : (judgeAttention s).ask = s.ask := rfl
@[simp] theorem judgeAttention_offer (s : State) : (judgeAttention s).offer = s.offer := rfl
@[simp] theorem judgeAttention_lastGrants (s : State) : (judgeAttention s).lastGrants = s.lastGrants := rfl
@[simp] theorem judgeAttention_walkerTimer (s : State) : (judgeAttention s).walkerTimer = s.walkerTimer := rfl
@[simp] theorem judgeAttention_link (s : State) : (judgeAttention s).link = s.link := rfl
@[simp] theorem judgeAttention_buffer (s : State) : (judgeAttention s).buffer = s.buffer := rfl
@[simp] theorem judgeAttention_ackDriven (s : State) : (judgeAttention s).ackDriven = s.ackDriven := rfl
@[simp] theorem judgeAttention_faults (s : State) : (judgeAttention s).faults = s.faults := rfl
@[simp] theorem judgeAttention_attention (s : State) : (judgeAttention s).attention = attentionOf s.cond s.faults := rfl
@[simp] theorem judgeAttention_inflight (s : State) : (judgeAttention s).inflight = s.inflight := rfl
@[simp] theorem judgeAttention_tasks (s : State) : (judgeAttention s).tasks = s.tasks := rfl
@[simp] theorem judgeAttention_fresh (s : State) : (judgeAttention s).fresh = s.fresh := rfl

/-! `endOffer` -/

@[simp] theorem endOffer_pending (s : State) : (endOffer s).pending = s.pending := rfl
@[simp] theorem endOffer_powered (s : State) : (endOffer s).powered = s.powered := rfl
@[simp] theorem endOffer_now (s : State) : (endOffer s).now = s.now := rfl
@[simp] theorem endOffer_cond (s : State) : (endOffer s).cond = s.cond := rfl
@[simp] theorem endOffer_own (s : State) : (endOffer s).own = s.own := rfl
@[simp] theorem endOffer_profile (s : State) : (endOffer s).profile = s.profile := rfl
@[simp] theorem endOffer_profileRead (s : State) : (endOffer s).profileRead = s.profileRead := rfl
@[simp] theorem endOffer_headerRead (s : State) : (endOffer s).headerRead = s.headerRead := rfl
@[simp] theorem endOffer_poolUp (s : State) : (endOffer s).poolUp = s.poolUp := rfl
@[simp] theorem endOffer_loanUp (s : State) : (endOffer s).loanUp = s.loanUp := rfl
@[simp] theorem endOffer_cause (s : State) : (endOffer s).cause = s.cause := rfl
@[simp] theorem endOffer_outcome (s : State) : (endOffer s).outcome = s.outcome := rfl
@[simp] theorem endOffer_joinTimer (s : State) : (endOffer s).joinTimer = s.joinTimer := rfl
@[simp] theorem endOffer_drainTimer (s : State) : (endOffer s).drainTimer = s.drainTimer := rfl
@[simp] theorem endOffer_drainEnded (s : State) : (endOffer s).drainEnded = s.drainEnded := rfl
@[simp] theorem endOffer_serviceLine (s : State) : (endOffer s).serviceLine = s.serviceLine := rfl
@[simp] theorem endOffer_servicePin (s : State) : (endOffer s).servicePin = s.servicePin := rfl
@[simp] theorem endOffer_bayLines (s : State) : (endOffer s).bayLines = s.bayLines := rfl
@[simp] theorem endOffer_presence (s : State) : (endOffer s).presence = s.presence := rfl
@[simp] theorem endOffer_rotor (s : State) : (endOffer s).rotor = s.rotor := rfl
@[simp] theorem endOffer_mm (s : State) : (endOffer s).mm = s.mm := rfl
@[simp] theorem endOffer_roster (s : State) : (endOffer s).roster = s.roster := rfl
@[simp] theorem endOffer_hailTimer (s : State) : (endOffer s).hailTimer = s.hailTimer := rfl
@[simp] theorem endOffer_ask (s : State) : (endOffer s).ask = s.ask := rfl
@[simp] theorem endOffer_offer (s : State) : (endOffer s).offer = OfferMachine.reset := rfl
@[simp] theorem endOffer_lastGrants (s : State) : (endOffer s).lastGrants = s.lastGrants := rfl
@[simp] theorem endOffer_walkerTimer (s : State) : (endOffer s).walkerTimer = s.walkerTimer := rfl
@[simp] theorem endOffer_link (s : State) : (endOffer s).link = s.link := rfl
@[simp] theorem endOffer_buffer (s : State) : (endOffer s).buffer = s.buffer := rfl
@[simp] theorem endOffer_ackDriven (s : State) : (endOffer s).ackDriven = s.ackDriven := rfl
@[simp] theorem endOffer_faults (s : State) : (endOffer s).faults = s.faults := rfl
@[simp] theorem endOffer_attention (s : State) : (endOffer s).attention = s.attention := rfl
@[simp] theorem endOffer_inflight (s : State) : (endOffer s).inflight = s.inflight := rfl
@[simp] theorem endOffer_tasks (s : State) : (endOffer s).tasks = s.tasks := rfl
@[simp] theorem endOffer_fresh (s : State) : (endOffer s).fresh = s.fresh := rfl

/-! `clearHand` -/

@[simp] theorem clearHand_pending (s : State) : (clearHand s).pending = s.pending := rfl
@[simp] theorem clearHand_powered (s : State) : (clearHand s).powered = s.powered := rfl
@[simp] theorem clearHand_now (s : State) : (clearHand s).now = s.now := rfl
@[simp] theorem clearHand_cond (s : State) : (clearHand s).cond = s.cond := rfl
@[simp] theorem clearHand_own (s : State) : (clearHand s).own = s.own := rfl
@[simp] theorem clearHand_profile (s : State) : (clearHand s).profile = s.profile := rfl
@[simp] theorem clearHand_profileRead (s : State) : (clearHand s).profileRead = s.profileRead := rfl
@[simp] theorem clearHand_headerRead (s : State) : (clearHand s).headerRead = s.headerRead := rfl
@[simp] theorem clearHand_poolUp (s : State) : (clearHand s).poolUp = s.poolUp := rfl
@[simp] theorem clearHand_loanUp (s : State) : (clearHand s).loanUp = s.loanUp := rfl
@[simp] theorem clearHand_cause (s : State) : (clearHand s).cause = s.cause := rfl
@[simp] theorem clearHand_outcome (s : State) : (clearHand s).outcome = s.outcome := rfl
@[simp] theorem clearHand_joinTimer (s : State) : (clearHand s).joinTimer = s.joinTimer := rfl
@[simp] theorem clearHand_drainTimer (s : State) : (clearHand s).drainTimer = s.drainTimer := rfl
@[simp] theorem clearHand_drainEnded (s : State) : (clearHand s).drainEnded = s.drainEnded := rfl
@[simp] theorem clearHand_serviceLine (s : State) : (clearHand s).serviceLine = s.serviceLine := rfl
@[simp] theorem clearHand_servicePin (s : State) : (clearHand s).servicePin = s.servicePin := rfl
@[simp] theorem clearHand_bayLines (s : State) : (clearHand s).bayLines = s.bayLines := rfl
@[simp] theorem clearHand_presence (s : State) : (clearHand s).presence = s.presence := rfl
@[simp] theorem clearHand_rotor (s : State) : (clearHand s).rotor = s.rotor := rfl
@[simp] theorem clearHand_mm (s : State) : (clearHand s).mm = s.mm := rfl
@[simp] theorem clearHand_roster (s : State) : (clearHand s).roster = s.roster := rfl
@[simp] theorem clearHand_hailTimer (s : State) : (clearHand s).hailTimer = s.hailTimer := rfl
@[simp] theorem clearHand_ask (s : State) : (clearHand s).ask = s.ask := rfl
@[simp] theorem clearHand_offer (s : State) : (clearHand s).offer = s.offer := rfl
@[simp] theorem clearHand_lastGrants (s : State) : (clearHand s).lastGrants = s.lastGrants := rfl
@[simp] theorem clearHand_walkerTimer (s : State) : (clearHand s).walkerTimer = s.walkerTimer := rfl
@[simp] theorem clearHand_link (s : State) : (clearHand s).link = { s.link with hand := none } := rfl
@[simp] theorem clearHand_buffer (s : State) : (clearHand s).buffer = s.buffer := rfl
@[simp] theorem clearHand_ackDriven (s : State) : (clearHand s).ackDriven = s.ackDriven := rfl
@[simp] theorem clearHand_faults (s : State) : (clearHand s).faults = s.faults := rfl
@[simp] theorem clearHand_attention (s : State) : (clearHand s).attention = s.attention := rfl
@[simp] theorem clearHand_inflight (s : State) : (clearHand s).inflight = s.inflight := rfl
@[simp] theorem clearHand_tasks (s : State) : (clearHand s).tasks = s.tasks := rfl
@[simp] theorem clearHand_fresh (s : State) : (clearHand s).fresh = s.fresh := rfl

/-! `useFresh` -/

@[simp] theorem useFresh_pending (s : State) : (useFresh s).pending = s.pending := rfl
@[simp] theorem useFresh_powered (s : State) : (useFresh s).powered = s.powered := rfl
@[simp] theorem useFresh_now (s : State) : (useFresh s).now = s.now := rfl
@[simp] theorem useFresh_cond (s : State) : (useFresh s).cond = s.cond := rfl
@[simp] theorem useFresh_own (s : State) : (useFresh s).own = s.own := rfl
@[simp] theorem useFresh_profile (s : State) : (useFresh s).profile = s.profile := rfl
@[simp] theorem useFresh_profileRead (s : State) : (useFresh s).profileRead = s.profileRead := rfl
@[simp] theorem useFresh_headerRead (s : State) : (useFresh s).headerRead = s.headerRead := rfl
@[simp] theorem useFresh_poolUp (s : State) : (useFresh s).poolUp = s.poolUp := rfl
@[simp] theorem useFresh_loanUp (s : State) : (useFresh s).loanUp = s.loanUp := rfl
@[simp] theorem useFresh_cause (s : State) : (useFresh s).cause = s.cause := rfl
@[simp] theorem useFresh_outcome (s : State) : (useFresh s).outcome = s.outcome := rfl
@[simp] theorem useFresh_joinTimer (s : State) : (useFresh s).joinTimer = s.joinTimer := rfl
@[simp] theorem useFresh_drainTimer (s : State) : (useFresh s).drainTimer = s.drainTimer := rfl
@[simp] theorem useFresh_drainEnded (s : State) : (useFresh s).drainEnded = s.drainEnded := rfl
@[simp] theorem useFresh_serviceLine (s : State) : (useFresh s).serviceLine = s.serviceLine := rfl
@[simp] theorem useFresh_servicePin (s : State) : (useFresh s).servicePin = s.servicePin := rfl
@[simp] theorem useFresh_bayLines (s : State) : (useFresh s).bayLines = s.bayLines := rfl
@[simp] theorem useFresh_presence (s : State) : (useFresh s).presence = s.presence := rfl
@[simp] theorem useFresh_rotor (s : State) : (useFresh s).rotor = s.rotor := rfl
@[simp] theorem useFresh_mm (s : State) : (useFresh s).mm = s.mm := rfl
@[simp] theorem useFresh_roster (s : State) : (useFresh s).roster = s.roster := rfl
@[simp] theorem useFresh_hailTimer (s : State) : (useFresh s).hailTimer = s.hailTimer := rfl
@[simp] theorem useFresh_ask (s : State) : (useFresh s).ask = s.ask := rfl
@[simp] theorem useFresh_offer (s : State) : (useFresh s).offer = s.offer := rfl
@[simp] theorem useFresh_lastGrants (s : State) : (useFresh s).lastGrants = s.lastGrants := rfl
@[simp] theorem useFresh_walkerTimer (s : State) : (useFresh s).walkerTimer = s.walkerTimer := rfl
@[simp] theorem useFresh_link (s : State) : (useFresh s).link = s.link := rfl
@[simp] theorem useFresh_buffer (s : State) : (useFresh s).buffer = s.buffer := rfl
@[simp] theorem useFresh_ackDriven (s : State) : (useFresh s).ackDriven = s.ackDriven := rfl
@[simp] theorem useFresh_faults (s : State) : (useFresh s).faults = s.faults := rfl
@[simp] theorem useFresh_attention (s : State) : (useFresh s).attention = s.attention := rfl
@[simp] theorem useFresh_inflight (s : State) : (useFresh s).inflight = s.inflight := rfl
@[simp] theorem useFresh_tasks (s : State) : (useFresh s).tasks = s.tasks := rfl
@[simp] theorem useFresh_fresh (s : State) : (useFresh s).fresh = s.fresh + 1 := rfl

/-! `beginRequest` -/

@[simp] theorem beginRequest_pending (t : Task) (s : State) : (beginRequest t s).pending = s.pending := rfl
@[simp] theorem beginRequest_powered (t : Task) (s : State) : (beginRequest t s).powered = s.powered := rfl
@[simp] theorem beginRequest_now (t : Task) (s : State) : (beginRequest t s).now = s.now := rfl
@[simp] theorem beginRequest_cond (t : Task) (s : State) : (beginRequest t s).cond = s.cond := rfl
@[simp] theorem beginRequest_own (t : Task) (s : State) : (beginRequest t s).own = s.own := rfl
@[simp] theorem beginRequest_profile (t : Task) (s : State) : (beginRequest t s).profile = s.profile := rfl
@[simp] theorem beginRequest_profileRead (t : Task) (s : State) : (beginRequest t s).profileRead = s.profileRead := rfl
@[simp] theorem beginRequest_headerRead (t : Task) (s : State) : (beginRequest t s).headerRead = s.headerRead := rfl
@[simp] theorem beginRequest_poolUp (t : Task) (s : State) : (beginRequest t s).poolUp = s.poolUp := rfl
@[simp] theorem beginRequest_loanUp (t : Task) (s : State) : (beginRequest t s).loanUp = s.loanUp := rfl
@[simp] theorem beginRequest_cause (t : Task) (s : State) : (beginRequest t s).cause = s.cause := rfl
@[simp] theorem beginRequest_outcome (t : Task) (s : State) : (beginRequest t s).outcome = s.outcome := rfl
@[simp] theorem beginRequest_joinTimer (t : Task) (s : State) : (beginRequest t s).joinTimer = s.joinTimer := rfl
@[simp] theorem beginRequest_drainTimer (t : Task) (s : State) : (beginRequest t s).drainTimer = s.drainTimer := rfl
@[simp] theorem beginRequest_drainEnded (t : Task) (s : State) : (beginRequest t s).drainEnded = s.drainEnded := rfl
@[simp] theorem beginRequest_serviceLine (t : Task) (s : State) : (beginRequest t s).serviceLine = s.serviceLine := rfl
@[simp] theorem beginRequest_servicePin (t : Task) (s : State) : (beginRequest t s).servicePin = s.servicePin := rfl
@[simp] theorem beginRequest_bayLines (t : Task) (s : State) : (beginRequest t s).bayLines = s.bayLines := rfl
@[simp] theorem beginRequest_presence (t : Task) (s : State) : (beginRequest t s).presence = s.presence := rfl
@[simp] theorem beginRequest_rotor (t : Task) (s : State) : (beginRequest t s).rotor = s.rotor := rfl
@[simp] theorem beginRequest_mm (t : Task) (s : State) : (beginRequest t s).mm = s.mm := rfl
@[simp] theorem beginRequest_roster (t : Task) (s : State) : (beginRequest t s).roster = s.roster := rfl
@[simp] theorem beginRequest_hailTimer (t : Task) (s : State) : (beginRequest t s).hailTimer = s.hailTimer := rfl
@[simp] theorem beginRequest_ask (t : Task) (s : State) : (beginRequest t s).ask = s.ask := rfl
@[simp] theorem beginRequest_offer (t : Task) (s : State) : (beginRequest t s).offer = s.offer := rfl
@[simp] theorem beginRequest_lastGrants (t : Task) (s : State) : (beginRequest t s).lastGrants = s.lastGrants := rfl
@[simp] theorem beginRequest_walkerTimer (t : Task) (s : State) : (beginRequest t s).walkerTimer = s.walkerTimer := rfl
@[simp] theorem beginRequest_link (t : Task) (s : State) : (beginRequest t s).link = { s.link with reservedReplies := s.link.reservedReplies + 1 } := rfl
@[simp] theorem beginRequest_buffer (t : Task) (s : State) : (beginRequest t s).buffer = s.buffer := rfl
@[simp] theorem beginRequest_ackDriven (t : Task) (s : State) : (beginRequest t s).ackDriven = s.ackDriven := rfl
@[simp] theorem beginRequest_faults (t : Task) (s : State) : (beginRequest t s).faults = s.faults := rfl
@[simp] theorem beginRequest_attention (t : Task) (s : State) : (beginRequest t s).attention = s.attention := rfl
@[simp] theorem beginRequest_inflight (t : Task) (s : State) : (beginRequest t s).inflight = s.inflight := rfl
@[simp] theorem beginRequest_tasks (t : Task) (s : State) : (beginRequest t s).tasks = [t] := rfl
@[simp] theorem beginRequest_fresh (t : Task) (s : State) : (beginRequest t s).fresh = s.fresh := rfl

/-! `setLastGrant` -/

@[simp] theorem setLastGrant_pending (st : Station) (i : AskId) (rs : List GrantRecord) (s : State) : (setLastGrant st i rs s).pending = s.pending := rfl
@[simp] theorem setLastGrant_powered (st : Station) (i : AskId) (rs : List GrantRecord) (s : State) : (setLastGrant st i rs s).powered = s.powered := rfl
@[simp] theorem setLastGrant_now (st : Station) (i : AskId) (rs : List GrantRecord) (s : State) : (setLastGrant st i rs s).now = s.now := rfl
@[simp] theorem setLastGrant_cond (st : Station) (i : AskId) (rs : List GrantRecord) (s : State) : (setLastGrant st i rs s).cond = s.cond := rfl
@[simp] theorem setLastGrant_own (st : Station) (i : AskId) (rs : List GrantRecord) (s : State) : (setLastGrant st i rs s).own = s.own := rfl
@[simp] theorem setLastGrant_profile (st : Station) (i : AskId) (rs : List GrantRecord) (s : State) : (setLastGrant st i rs s).profile = s.profile := rfl
@[simp] theorem setLastGrant_profileRead (st : Station) (i : AskId) (rs : List GrantRecord) (s : State) : (setLastGrant st i rs s).profileRead = s.profileRead := rfl
@[simp] theorem setLastGrant_headerRead (st : Station) (i : AskId) (rs : List GrantRecord) (s : State) : (setLastGrant st i rs s).headerRead = s.headerRead := rfl
@[simp] theorem setLastGrant_poolUp (st : Station) (i : AskId) (rs : List GrantRecord) (s : State) : (setLastGrant st i rs s).poolUp = s.poolUp := rfl
@[simp] theorem setLastGrant_loanUp (st : Station) (i : AskId) (rs : List GrantRecord) (s : State) : (setLastGrant st i rs s).loanUp = s.loanUp := rfl
@[simp] theorem setLastGrant_cause (st : Station) (i : AskId) (rs : List GrantRecord) (s : State) : (setLastGrant st i rs s).cause = s.cause := rfl
@[simp] theorem setLastGrant_outcome (st : Station) (i : AskId) (rs : List GrantRecord) (s : State) : (setLastGrant st i rs s).outcome = s.outcome := rfl
@[simp] theorem setLastGrant_joinTimer (st : Station) (i : AskId) (rs : List GrantRecord) (s : State) : (setLastGrant st i rs s).joinTimer = s.joinTimer := rfl
@[simp] theorem setLastGrant_drainTimer (st : Station) (i : AskId) (rs : List GrantRecord) (s : State) : (setLastGrant st i rs s).drainTimer = s.drainTimer := rfl
@[simp] theorem setLastGrant_drainEnded (st : Station) (i : AskId) (rs : List GrantRecord) (s : State) : (setLastGrant st i rs s).drainEnded = s.drainEnded := rfl
@[simp] theorem setLastGrant_serviceLine (st : Station) (i : AskId) (rs : List GrantRecord) (s : State) : (setLastGrant st i rs s).serviceLine = s.serviceLine := rfl
@[simp] theorem setLastGrant_servicePin (st : Station) (i : AskId) (rs : List GrantRecord) (s : State) : (setLastGrant st i rs s).servicePin = s.servicePin := rfl
@[simp] theorem setLastGrant_bayLines (st : Station) (i : AskId) (rs : List GrantRecord) (s : State) : (setLastGrant st i rs s).bayLines = s.bayLines := rfl
@[simp] theorem setLastGrant_presence (st : Station) (i : AskId) (rs : List GrantRecord) (s : State) : (setLastGrant st i rs s).presence = s.presence := rfl
@[simp] theorem setLastGrant_rotor (st : Station) (i : AskId) (rs : List GrantRecord) (s : State) : (setLastGrant st i rs s).rotor = s.rotor := rfl
@[simp] theorem setLastGrant_mm (st : Station) (i : AskId) (rs : List GrantRecord) (s : State) : (setLastGrant st i rs s).mm = s.mm := rfl
@[simp] theorem setLastGrant_roster (st : Station) (i : AskId) (rs : List GrantRecord) (s : State) : (setLastGrant st i rs s).roster = s.roster := rfl
@[simp] theorem setLastGrant_hailTimer (st : Station) (i : AskId) (rs : List GrantRecord) (s : State) : (setLastGrant st i rs s).hailTimer = s.hailTimer := rfl
@[simp] theorem setLastGrant_ask (st : Station) (i : AskId) (rs : List GrantRecord) (s : State) : (setLastGrant st i rs s).ask = s.ask := rfl
@[simp] theorem setLastGrant_offer (st : Station) (i : AskId) (rs : List GrantRecord) (s : State) : (setLastGrant st i rs s).offer = s.offer := rfl
@[simp] theorem setLastGrant_lastGrants (st : Station) (i : AskId) (rs : List GrantRecord) (s : State) : (setLastGrant st i rs s).lastGrants = tablePut s.lastGrants st.toNat { askId := i, records := rs } := rfl
@[simp] theorem setLastGrant_walkerTimer (st : Station) (i : AskId) (rs : List GrantRecord) (s : State) : (setLastGrant st i rs s).walkerTimer = s.walkerTimer := rfl
@[simp] theorem setLastGrant_link (st : Station) (i : AskId) (rs : List GrantRecord) (s : State) : (setLastGrant st i rs s).link = s.link := rfl
@[simp] theorem setLastGrant_buffer (st : Station) (i : AskId) (rs : List GrantRecord) (s : State) : (setLastGrant st i rs s).buffer = s.buffer := rfl
@[simp] theorem setLastGrant_ackDriven (st : Station) (i : AskId) (rs : List GrantRecord) (s : State) : (setLastGrant st i rs s).ackDriven = s.ackDriven := rfl
@[simp] theorem setLastGrant_faults (st : Station) (i : AskId) (rs : List GrantRecord) (s : State) : (setLastGrant st i rs s).faults = s.faults := rfl
@[simp] theorem setLastGrant_attention (st : Station) (i : AskId) (rs : List GrantRecord) (s : State) : (setLastGrant st i rs s).attention = s.attention := rfl
@[simp] theorem setLastGrant_inflight (st : Station) (i : AskId) (rs : List GrantRecord) (s : State) : (setLastGrant st i rs s).inflight = s.inflight := rfl
@[simp] theorem setLastGrant_tasks (st : Station) (i : AskId) (rs : List GrantRecord) (s : State) : (setLastGrant st i rs s).tasks = s.tasks := rfl
@[simp] theorem setLastGrant_fresh (st : Station) (i : AskId) (rs : List GrantRecord) (s : State) : (setLastGrant st i rs s).fresh = s.fresh := rfl

/-! `emptyLastGrants` -/

@[simp] theorem emptyLastGrants_pending (ls : List Nat) (s : State) : (emptyLastGrants ls s).pending = s.pending := rfl
@[simp] theorem emptyLastGrants_powered (ls : List Nat) (s : State) : (emptyLastGrants ls s).powered = s.powered := rfl
@[simp] theorem emptyLastGrants_now (ls : List Nat) (s : State) : (emptyLastGrants ls s).now = s.now := rfl
@[simp] theorem emptyLastGrants_cond (ls : List Nat) (s : State) : (emptyLastGrants ls s).cond = s.cond := rfl
@[simp] theorem emptyLastGrants_own (ls : List Nat) (s : State) : (emptyLastGrants ls s).own = s.own := rfl
@[simp] theorem emptyLastGrants_profile (ls : List Nat) (s : State) : (emptyLastGrants ls s).profile = s.profile := rfl
@[simp] theorem emptyLastGrants_profileRead (ls : List Nat) (s : State) : (emptyLastGrants ls s).profileRead = s.profileRead := rfl
@[simp] theorem emptyLastGrants_headerRead (ls : List Nat) (s : State) : (emptyLastGrants ls s).headerRead = s.headerRead := rfl
@[simp] theorem emptyLastGrants_poolUp (ls : List Nat) (s : State) : (emptyLastGrants ls s).poolUp = s.poolUp := rfl
@[simp] theorem emptyLastGrants_loanUp (ls : List Nat) (s : State) : (emptyLastGrants ls s).loanUp = s.loanUp := rfl
@[simp] theorem emptyLastGrants_cause (ls : List Nat) (s : State) : (emptyLastGrants ls s).cause = s.cause := rfl
@[simp] theorem emptyLastGrants_outcome (ls : List Nat) (s : State) : (emptyLastGrants ls s).outcome = s.outcome := rfl
@[simp] theorem emptyLastGrants_joinTimer (ls : List Nat) (s : State) : (emptyLastGrants ls s).joinTimer = s.joinTimer := rfl
@[simp] theorem emptyLastGrants_drainTimer (ls : List Nat) (s : State) : (emptyLastGrants ls s).drainTimer = s.drainTimer := rfl
@[simp] theorem emptyLastGrants_drainEnded (ls : List Nat) (s : State) : (emptyLastGrants ls s).drainEnded = s.drainEnded := rfl
@[simp] theorem emptyLastGrants_serviceLine (ls : List Nat) (s : State) : (emptyLastGrants ls s).serviceLine = s.serviceLine := rfl
@[simp] theorem emptyLastGrants_servicePin (ls : List Nat) (s : State) : (emptyLastGrants ls s).servicePin = s.servicePin := rfl
@[simp] theorem emptyLastGrants_bayLines (ls : List Nat) (s : State) : (emptyLastGrants ls s).bayLines = s.bayLines := rfl
@[simp] theorem emptyLastGrants_presence (ls : List Nat) (s : State) : (emptyLastGrants ls s).presence = s.presence := rfl
@[simp] theorem emptyLastGrants_rotor (ls : List Nat) (s : State) : (emptyLastGrants ls s).rotor = s.rotor := rfl
@[simp] theorem emptyLastGrants_mm (ls : List Nat) (s : State) : (emptyLastGrants ls s).mm = s.mm := rfl
@[simp] theorem emptyLastGrants_roster (ls : List Nat) (s : State) : (emptyLastGrants ls s).roster = s.roster := rfl
@[simp] theorem emptyLastGrants_hailTimer (ls : List Nat) (s : State) : (emptyLastGrants ls s).hailTimer = s.hailTimer := rfl
@[simp] theorem emptyLastGrants_ask (ls : List Nat) (s : State) : (emptyLastGrants ls s).ask = s.ask := rfl
@[simp] theorem emptyLastGrants_offer (ls : List Nat) (s : State) : (emptyLastGrants ls s).offer = s.offer := rfl
@[simp] theorem emptyLastGrants_lastGrants (ls : List Nat) (s : State) : (emptyLastGrants ls s).lastGrants = s.lastGrants.filter fun p => !p.2.records.any fun r => ls.contains r.loan := rfl
@[simp] theorem emptyLastGrants_walkerTimer (ls : List Nat) (s : State) : (emptyLastGrants ls s).walkerTimer = s.walkerTimer := rfl
@[simp] theorem emptyLastGrants_link (ls : List Nat) (s : State) : (emptyLastGrants ls s).link = s.link := rfl
@[simp] theorem emptyLastGrants_buffer (ls : List Nat) (s : State) : (emptyLastGrants ls s).buffer = s.buffer := rfl
@[simp] theorem emptyLastGrants_ackDriven (ls : List Nat) (s : State) : (emptyLastGrants ls s).ackDriven = s.ackDriven := rfl
@[simp] theorem emptyLastGrants_faults (ls : List Nat) (s : State) : (emptyLastGrants ls s).faults = s.faults := rfl
@[simp] theorem emptyLastGrants_attention (ls : List Nat) (s : State) : (emptyLastGrants ls s).attention = s.attention := rfl
@[simp] theorem emptyLastGrants_inflight (ls : List Nat) (s : State) : (emptyLastGrants ls s).inflight = s.inflight := rfl
@[simp] theorem emptyLastGrants_tasks (ls : List Nat) (s : State) : (emptyLastGrants ls s).tasks = s.tasks := rfl
@[simp] theorem emptyLastGrants_fresh (ls : List Nat) (s : State) : (emptyLastGrants ls s).fresh = s.fresh := rfl

/-! `askSucceeded` -/

@[simp] theorem askSucceeded_pending (st : Station) (i : AskId) (s : State) : (askSucceeded st i s).pending = s.pending := rfl
@[simp] theorem askSucceeded_powered (st : Station) (i : AskId) (s : State) : (askSucceeded st i s).powered = s.powered := rfl
@[simp] theorem askSucceeded_now (st : Station) (i : AskId) (s : State) : (askSucceeded st i s).now = s.now := rfl
@[simp] theorem askSucceeded_cond (st : Station) (i : AskId) (s : State) : (askSucceeded st i s).cond = s.cond := rfl
@[simp] theorem askSucceeded_own (st : Station) (i : AskId) (s : State) : (askSucceeded st i s).own = s.own := rfl
@[simp] theorem askSucceeded_profile (st : Station) (i : AskId) (s : State) : (askSucceeded st i s).profile = s.profile := rfl
@[simp] theorem askSucceeded_profileRead (st : Station) (i : AskId) (s : State) : (askSucceeded st i s).profileRead = s.profileRead := rfl
@[simp] theorem askSucceeded_headerRead (st : Station) (i : AskId) (s : State) : (askSucceeded st i s).headerRead = s.headerRead := rfl
@[simp] theorem askSucceeded_poolUp (st : Station) (i : AskId) (s : State) : (askSucceeded st i s).poolUp = s.poolUp := rfl
@[simp] theorem askSucceeded_loanUp (st : Station) (i : AskId) (s : State) : (askSucceeded st i s).loanUp = s.loanUp := rfl
@[simp] theorem askSucceeded_cause (st : Station) (i : AskId) (s : State) : (askSucceeded st i s).cause = s.cause := rfl
@[simp] theorem askSucceeded_outcome (st : Station) (i : AskId) (s : State) : (askSucceeded st i s).outcome = s.outcome := rfl
@[simp] theorem askSucceeded_joinTimer (st : Station) (i : AskId) (s : State) : (askSucceeded st i s).joinTimer = s.joinTimer := rfl
@[simp] theorem askSucceeded_drainTimer (st : Station) (i : AskId) (s : State) : (askSucceeded st i s).drainTimer = s.drainTimer := rfl
@[simp] theorem askSucceeded_drainEnded (st : Station) (i : AskId) (s : State) : (askSucceeded st i s).drainEnded = s.drainEnded := rfl
@[simp] theorem askSucceeded_serviceLine (st : Station) (i : AskId) (s : State) : (askSucceeded st i s).serviceLine = s.serviceLine := rfl
@[simp] theorem askSucceeded_servicePin (st : Station) (i : AskId) (s : State) : (askSucceeded st i s).servicePin = s.servicePin := rfl
@[simp] theorem askSucceeded_bayLines (st : Station) (i : AskId) (s : State) : (askSucceeded st i s).bayLines = s.bayLines := rfl
@[simp] theorem askSucceeded_presence (st : Station) (i : AskId) (s : State) : (askSucceeded st i s).presence = s.presence := rfl
@[simp] theorem askSucceeded_rotor (st : Station) (i : AskId) (s : State) : (askSucceeded st i s).rotor = s.rotor := rfl
@[simp] theorem askSucceeded_mm (st : Station) (i : AskId) (s : State) : (askSucceeded st i s).mm = s.mm := rfl
@[simp] theorem askSucceeded_roster (st : Station) (i : AskId) (s : State) : (askSucceeded st i s).roster = s.roster := rfl
@[simp] theorem askSucceeded_hailTimer (st : Station) (i : AskId) (s : State) : (askSucceeded st i s).hailTimer = s.hailTimer := rfl
@[simp] theorem askSucceeded_ask (st : Station) (i : AskId) (s : State) : (askSucceeded st i s).ask = { s.ask.stopped with failures := 0, lastAccepted := some (st, i) } := rfl
@[simp] theorem askSucceeded_offer (st : Station) (i : AskId) (s : State) : (askSucceeded st i s).offer = s.offer := rfl
@[simp] theorem askSucceeded_lastGrants (st : Station) (i : AskId) (s : State) : (askSucceeded st i s).lastGrants = s.lastGrants := rfl
@[simp] theorem askSucceeded_walkerTimer (st : Station) (i : AskId) (s : State) : (askSucceeded st i s).walkerTimer = s.walkerTimer := rfl
@[simp] theorem askSucceeded_link (st : Station) (i : AskId) (s : State) : (askSucceeded st i s).link = s.link := rfl
@[simp] theorem askSucceeded_buffer (st : Station) (i : AskId) (s : State) : (askSucceeded st i s).buffer = s.buffer := rfl
@[simp] theorem askSucceeded_ackDriven (st : Station) (i : AskId) (s : State) : (askSucceeded st i s).ackDriven = s.ackDriven := rfl
@[simp] theorem askSucceeded_faults (st : Station) (i : AskId) (s : State) : (askSucceeded st i s).faults = s.faults := rfl
@[simp] theorem askSucceeded_attention (st : Station) (i : AskId) (s : State) : (askSucceeded st i s).attention = s.attention := rfl
@[simp] theorem askSucceeded_inflight (st : Station) (i : AskId) (s : State) : (askSucceeded st i s).inflight = s.inflight := rfl
@[simp] theorem askSucceeded_tasks (st : Station) (i : AskId) (s : State) : (askSucceeded st i s).tasks = s.tasks := rfl
@[simp] theorem askSucceeded_fresh (st : Station) (i : AskId) (s : State) : (askSucceeded st i s).fresh = s.fresh := rfl

/-! `tellLine` -/

@[simp] theorem tellLine_pending (bay : Nat) (high : Bool) (s : State) : (tellLine bay high s).pending = s.pending := rfl
@[simp] theorem tellLine_powered (bay : Nat) (high : Bool) (s : State) : (tellLine bay high s).powered = s.powered := rfl
@[simp] theorem tellLine_now (bay : Nat) (high : Bool) (s : State) : (tellLine bay high s).now = s.now := rfl
@[simp] theorem tellLine_cond (bay : Nat) (high : Bool) (s : State) : (tellLine bay high s).cond = s.cond := rfl
@[simp] theorem tellLine_own (bay : Nat) (high : Bool) (s : State) : (tellLine bay high s).own = s.own := rfl
@[simp] theorem tellLine_profile (bay : Nat) (high : Bool) (s : State) : (tellLine bay high s).profile = s.profile := rfl
@[simp] theorem tellLine_profileRead (bay : Nat) (high : Bool) (s : State) : (tellLine bay high s).profileRead = s.profileRead := rfl
@[simp] theorem tellLine_headerRead (bay : Nat) (high : Bool) (s : State) : (tellLine bay high s).headerRead = s.headerRead := rfl
@[simp] theorem tellLine_poolUp (bay : Nat) (high : Bool) (s : State) : (tellLine bay high s).poolUp = s.poolUp := rfl
@[simp] theorem tellLine_loanUp (bay : Nat) (high : Bool) (s : State) : (tellLine bay high s).loanUp = s.loanUp := rfl
@[simp] theorem tellLine_cause (bay : Nat) (high : Bool) (s : State) : (tellLine bay high s).cause = s.cause := rfl
@[simp] theorem tellLine_outcome (bay : Nat) (high : Bool) (s : State) : (tellLine bay high s).outcome = s.outcome := rfl
@[simp] theorem tellLine_joinTimer (bay : Nat) (high : Bool) (s : State) : (tellLine bay high s).joinTimer = s.joinTimer := rfl
@[simp] theorem tellLine_drainTimer (bay : Nat) (high : Bool) (s : State) : (tellLine bay high s).drainTimer = s.drainTimer := rfl
@[simp] theorem tellLine_drainEnded (bay : Nat) (high : Bool) (s : State) : (tellLine bay high s).drainEnded = s.drainEnded := rfl
@[simp] theorem tellLine_serviceLine (bay : Nat) (high : Bool) (s : State) : (tellLine bay high s).serviceLine = s.serviceLine := rfl
@[simp] theorem tellLine_servicePin (bay : Nat) (high : Bool) (s : State) : (tellLine bay high s).servicePin = s.servicePin := rfl
@[simp] theorem tellLine_bayLines (bay : Nat) (high : Bool) (s : State) : (tellLine bay high s).bayLines = setLine s.bayLines bay high := rfl
@[simp] theorem tellLine_presence (bay : Nat) (high : Bool) (s : State) : (tellLine bay high s).presence = s.presence := rfl
@[simp] theorem tellLine_rotor (bay : Nat) (high : Bool) (s : State) : (tellLine bay high s).rotor = s.rotor := rfl
@[simp] theorem tellLine_mm (bay : Nat) (high : Bool) (s : State) : (tellLine bay high s).mm = s.mm := rfl
@[simp] theorem tellLine_roster (bay : Nat) (high : Bool) (s : State) : (tellLine bay high s).roster = s.roster := rfl
@[simp] theorem tellLine_hailTimer (bay : Nat) (high : Bool) (s : State) : (tellLine bay high s).hailTimer = s.hailTimer := rfl
@[simp] theorem tellLine_ask (bay : Nat) (high : Bool) (s : State) : (tellLine bay high s).ask = s.ask := rfl
@[simp] theorem tellLine_offer (bay : Nat) (high : Bool) (s : State) : (tellLine bay high s).offer = s.offer := rfl
@[simp] theorem tellLine_lastGrants (bay : Nat) (high : Bool) (s : State) : (tellLine bay high s).lastGrants = s.lastGrants := rfl
@[simp] theorem tellLine_walkerTimer (bay : Nat) (high : Bool) (s : State) : (tellLine bay high s).walkerTimer = s.walkerTimer := rfl
@[simp] theorem tellLine_link (bay : Nat) (high : Bool) (s : State) : (tellLine bay high s).link = s.link := rfl
@[simp] theorem tellLine_buffer (bay : Nat) (high : Bool) (s : State) : (tellLine bay high s).buffer = s.buffer := rfl
@[simp] theorem tellLine_ackDriven (bay : Nat) (high : Bool) (s : State) : (tellLine bay high s).ackDriven = s.ackDriven := rfl
@[simp] theorem tellLine_faults (bay : Nat) (high : Bool) (s : State) : (tellLine bay high s).faults = s.faults := rfl
@[simp] theorem tellLine_attention (bay : Nat) (high : Bool) (s : State) : (tellLine bay high s).attention = s.attention := rfl
@[simp] theorem tellLine_inflight (bay : Nat) (high : Bool) (s : State) : (tellLine bay high s).inflight = s.inflight := rfl
@[simp] theorem tellLine_tasks (bay : Nat) (high : Bool) (s : State) : (tellLine bay high s).tasks = s.tasks := rfl
@[simp] theorem tellLine_fresh (bay : Nat) (high : Bool) (s : State) : (tellLine bay high s).fresh = s.fresh := rfl

/-! `tellService` -/

@[simp] theorem tellService_pending (high : Bool) (s : State) : (tellService high s).pending = s.pending := rfl
@[simp] theorem tellService_powered (high : Bool) (s : State) : (tellService high s).powered = s.powered := rfl
@[simp] theorem tellService_now (high : Bool) (s : State) : (tellService high s).now = s.now := rfl
@[simp] theorem tellService_cond (high : Bool) (s : State) : (tellService high s).cond = s.cond := rfl
@[simp] theorem tellService_own (high : Bool) (s : State) : (tellService high s).own = s.own := rfl
@[simp] theorem tellService_profile (high : Bool) (s : State) : (tellService high s).profile = s.profile := rfl
@[simp] theorem tellService_profileRead (high : Bool) (s : State) : (tellService high s).profileRead = s.profileRead := rfl
@[simp] theorem tellService_headerRead (high : Bool) (s : State) : (tellService high s).headerRead = s.headerRead := rfl
@[simp] theorem tellService_poolUp (high : Bool) (s : State) : (tellService high s).poolUp = s.poolUp := rfl
@[simp] theorem tellService_loanUp (high : Bool) (s : State) : (tellService high s).loanUp = s.loanUp := rfl
@[simp] theorem tellService_cause (high : Bool) (s : State) : (tellService high s).cause = s.cause := rfl
@[simp] theorem tellService_outcome (high : Bool) (s : State) : (tellService high s).outcome = s.outcome := rfl
@[simp] theorem tellService_joinTimer (high : Bool) (s : State) : (tellService high s).joinTimer = s.joinTimer := rfl
@[simp] theorem tellService_drainTimer (high : Bool) (s : State) : (tellService high s).drainTimer = s.drainTimer := rfl
@[simp] theorem tellService_drainEnded (high : Bool) (s : State) : (tellService high s).drainEnded = s.drainEnded := rfl
@[simp] theorem tellService_serviceLine (high : Bool) (s : State) : (tellService high s).serviceLine = high := rfl
@[simp] theorem tellService_servicePin (high : Bool) (s : State) : (tellService high s).servicePin = s.servicePin := rfl
@[simp] theorem tellService_bayLines (high : Bool) (s : State) : (tellService high s).bayLines = s.bayLines := rfl
@[simp] theorem tellService_presence (high : Bool) (s : State) : (tellService high s).presence = s.presence := rfl
@[simp] theorem tellService_rotor (high : Bool) (s : State) : (tellService high s).rotor = s.rotor := rfl
@[simp] theorem tellService_mm (high : Bool) (s : State) : (tellService high s).mm = s.mm := rfl
@[simp] theorem tellService_roster (high : Bool) (s : State) : (tellService high s).roster = s.roster := rfl
@[simp] theorem tellService_hailTimer (high : Bool) (s : State) : (tellService high s).hailTimer = s.hailTimer := rfl
@[simp] theorem tellService_ask (high : Bool) (s : State) : (tellService high s).ask = s.ask := rfl
@[simp] theorem tellService_offer (high : Bool) (s : State) : (tellService high s).offer = s.offer := rfl
@[simp] theorem tellService_lastGrants (high : Bool) (s : State) : (tellService high s).lastGrants = s.lastGrants := rfl
@[simp] theorem tellService_walkerTimer (high : Bool) (s : State) : (tellService high s).walkerTimer = s.walkerTimer := rfl
@[simp] theorem tellService_link (high : Bool) (s : State) : (tellService high s).link = s.link := rfl
@[simp] theorem tellService_buffer (high : Bool) (s : State) : (tellService high s).buffer = s.buffer := rfl
@[simp] theorem tellService_ackDriven (high : Bool) (s : State) : (tellService high s).ackDriven = s.ackDriven := rfl
@[simp] theorem tellService_faults (high : Bool) (s : State) : (tellService high s).faults = s.faults := rfl
@[simp] theorem tellService_attention (high : Bool) (s : State) : (tellService high s).attention = s.attention := rfl
@[simp] theorem tellService_inflight (high : Bool) (s : State) : (tellService high s).inflight = s.inflight := rfl
@[simp] theorem tellService_tasks (high : Bool) (s : State) : (tellService high s).tasks = s.tasks := rfl
@[simp] theorem tellService_fresh (high : Bool) (s : State) : (tellService high s).fresh = s.fresh := rfl

/-! `completeWrite` -/

@[simp] theorem completeWrite_pending (w : MapWrite) (s : State) : (completeWrite w s).pending = s.pending := rfl
@[simp] theorem completeWrite_powered (w : MapWrite) (s : State) : (completeWrite w s).powered = s.powered := rfl
@[simp] theorem completeWrite_now (w : MapWrite) (s : State) : (completeWrite w s).now = s.now := rfl
@[simp] theorem completeWrite_cond (w : MapWrite) (s : State) : (completeWrite w s).cond = s.cond := rfl
@[simp] theorem completeWrite_own (w : MapWrite) (s : State) : (completeWrite w s).own = s.own := rfl
@[simp] theorem completeWrite_profile (w : MapWrite) (s : State) : (completeWrite w s).profile = s.profile := rfl
@[simp] theorem completeWrite_profileRead (w : MapWrite) (s : State) : (completeWrite w s).profileRead = s.profileRead := rfl
@[simp] theorem completeWrite_headerRead (w : MapWrite) (s : State) : (completeWrite w s).headerRead = s.headerRead := rfl
@[simp] theorem completeWrite_poolUp (w : MapWrite) (s : State) : (completeWrite w s).poolUp = s.poolUp := rfl
@[simp] theorem completeWrite_loanUp (w : MapWrite) (s : State) : (completeWrite w s).loanUp = s.loanUp := rfl
@[simp] theorem completeWrite_cause (w : MapWrite) (s : State) : (completeWrite w s).cause = s.cause := rfl
@[simp] theorem completeWrite_outcome (w : MapWrite) (s : State) : (completeWrite w s).outcome = s.outcome := rfl
@[simp] theorem completeWrite_joinTimer (w : MapWrite) (s : State) : (completeWrite w s).joinTimer = s.joinTimer := rfl
@[simp] theorem completeWrite_drainTimer (w : MapWrite) (s : State) : (completeWrite w s).drainTimer = s.drainTimer := rfl
@[simp] theorem completeWrite_drainEnded (w : MapWrite) (s : State) : (completeWrite w s).drainEnded = s.drainEnded := rfl
@[simp] theorem completeWrite_serviceLine (w : MapWrite) (s : State) : (completeWrite w s).serviceLine = s.serviceLine := rfl
@[simp] theorem completeWrite_servicePin (w : MapWrite) (s : State) : (completeWrite w s).servicePin = s.servicePin := rfl
@[simp] theorem completeWrite_bayLines (w : MapWrite) (s : State) : (completeWrite w s).bayLines = s.bayLines := rfl
@[simp] theorem completeWrite_presence (w : MapWrite) (s : State) : (completeWrite w s).presence = s.presence := rfl
@[simp] theorem completeWrite_rotor (w : MapWrite) (s : State) : (completeWrite w s).rotor = w.rotor := rfl
@[simp] theorem completeWrite_mm (w : MapWrite) (s : State) : (completeWrite w s).mm = w.image := rfl
@[simp] theorem completeWrite_roster (w : MapWrite) (s : State) : (completeWrite w s).roster = s.roster := rfl
@[simp] theorem completeWrite_hailTimer (w : MapWrite) (s : State) : (completeWrite w s).hailTimer = s.hailTimer := rfl
@[simp] theorem completeWrite_ask (w : MapWrite) (s : State) : (completeWrite w s).ask = s.ask := rfl
@[simp] theorem completeWrite_offer (w : MapWrite) (s : State) : (completeWrite w s).offer = s.offer := rfl
@[simp] theorem completeWrite_lastGrants (w : MapWrite) (s : State) : (completeWrite w s).lastGrants = s.lastGrants := rfl
@[simp] theorem completeWrite_walkerTimer (w : MapWrite) (s : State) : (completeWrite w s).walkerTimer = s.walkerTimer := rfl
@[simp] theorem completeWrite_link (w : MapWrite) (s : State) : (completeWrite w s).link = s.link := rfl
@[simp] theorem completeWrite_buffer (w : MapWrite) (s : State) : (completeWrite w s).buffer = s.buffer := rfl
@[simp] theorem completeWrite_ackDriven (w : MapWrite) (s : State) : (completeWrite w s).ackDriven = s.ackDriven := rfl
@[simp] theorem completeWrite_faults (w : MapWrite) (s : State) : (completeWrite w s).faults = s.faults := rfl
@[simp] theorem completeWrite_attention (w : MapWrite) (s : State) : (completeWrite w s).attention = s.attention := rfl
@[simp] theorem completeWrite_inflight (w : MapWrite) (s : State) : (completeWrite w s).inflight = none := rfl
@[simp] theorem completeWrite_fresh (w : MapWrite) (s : State) : (completeWrite w s).fresh = s.fresh := rfl

/-! `failWrite` -/

@[simp] theorem failWrite_pending (w : MapWrite) (s : State) : (failWrite w s).pending = s.pending := rfl
@[simp] theorem failWrite_powered (w : MapWrite) (s : State) : (failWrite w s).powered = s.powered := rfl
@[simp] theorem failWrite_now (w : MapWrite) (s : State) : (failWrite w s).now = s.now := rfl
@[simp] theorem failWrite_cond (w : MapWrite) (s : State) : (failWrite w s).cond = s.cond := rfl
@[simp] theorem failWrite_own (w : MapWrite) (s : State) : (failWrite w s).own = s.own := rfl
@[simp] theorem failWrite_profile (w : MapWrite) (s : State) : (failWrite w s).profile = s.profile := rfl
@[simp] theorem failWrite_profileRead (w : MapWrite) (s : State) : (failWrite w s).profileRead = s.profileRead := rfl
@[simp] theorem failWrite_headerRead (w : MapWrite) (s : State) : (failWrite w s).headerRead = s.headerRead := rfl
@[simp] theorem failWrite_poolUp (w : MapWrite) (s : State) : (failWrite w s).poolUp = s.poolUp := rfl
@[simp] theorem failWrite_loanUp (w : MapWrite) (s : State) : (failWrite w s).loanUp = s.loanUp := rfl
@[simp] theorem failWrite_cause (w : MapWrite) (s : State) : (failWrite w s).cause = s.cause := rfl
@[simp] theorem failWrite_outcome (w : MapWrite) (s : State) : (failWrite w s).outcome = s.outcome := rfl
@[simp] theorem failWrite_joinTimer (w : MapWrite) (s : State) : (failWrite w s).joinTimer = s.joinTimer := rfl
@[simp] theorem failWrite_drainTimer (w : MapWrite) (s : State) : (failWrite w s).drainTimer = s.drainTimer := rfl
@[simp] theorem failWrite_drainEnded (w : MapWrite) (s : State) : (failWrite w s).drainEnded = s.drainEnded := rfl
@[simp] theorem failWrite_serviceLine (w : MapWrite) (s : State) : (failWrite w s).serviceLine = s.serviceLine := rfl
@[simp] theorem failWrite_servicePin (w : MapWrite) (s : State) : (failWrite w s).servicePin = s.servicePin := rfl
@[simp] theorem failWrite_bayLines (w : MapWrite) (s : State) : (failWrite w s).bayLines = s.bayLines := rfl
@[simp] theorem failWrite_presence (w : MapWrite) (s : State) : (failWrite w s).presence = s.presence := rfl
@[simp] theorem failWrite_rotor (w : MapWrite) (s : State) : (failWrite w s).rotor = s.rotor := rfl
@[simp] theorem failWrite_mm (w : MapWrite) (s : State) : (failWrite w s).mm = s.mm := rfl
@[simp] theorem failWrite_roster (w : MapWrite) (s : State) : (failWrite w s).roster = s.roster := rfl
@[simp] theorem failWrite_hailTimer (w : MapWrite) (s : State) : (failWrite w s).hailTimer = s.hailTimer := rfl
@[simp] theorem failWrite_ask (w : MapWrite) (s : State) : (failWrite w s).ask = s.ask := rfl
@[simp] theorem failWrite_offer (w : MapWrite) (s : State) : (failWrite w s).offer = s.offer := rfl
@[simp] theorem failWrite_lastGrants (w : MapWrite) (s : State) : (failWrite w s).lastGrants = s.lastGrants := rfl
@[simp] theorem failWrite_walkerTimer (w : MapWrite) (s : State) : (failWrite w s).walkerTimer = s.walkerTimer := rfl
@[simp] theorem failWrite_link (w : MapWrite) (s : State) : (failWrite w s).link = s.link := rfl
@[simp] theorem failWrite_buffer (w : MapWrite) (s : State) : (failWrite w s).buffer = s.buffer := rfl
@[simp] theorem failWrite_ackDriven (w : MapWrite) (s : State) : (failWrite w s).ackDriven = s.ackDriven := rfl
@[simp] theorem failWrite_faults (w : MapWrite) (s : State) : (failWrite w s).faults = s.faults := rfl
@[simp] theorem failWrite_attention (w : MapWrite) (s : State) : (failWrite w s).attention = s.attention := rfl
@[simp] theorem failWrite_inflight (w : MapWrite) (s : State) : (failWrite w s).inflight = none := rfl
@[simp] theorem failWrite_tasks (w : MapWrite) (s : State) : (failWrite w s).tasks = w.onFail ++ s.tasks := rfl
@[simp] theorem failWrite_fresh (w : MapWrite) (s : State) : (failWrite w s).fresh = s.fresh := rfl

end Sys2Proof.Machine
end

