-- ==== Sys2Proof/Laws/Ops.lean ====
section
/-! SUPPORT. What each shared operation can do: the frame a queue takes, and the fields every operation leaves as they were. -/

namespace Sys2Proof.Machine

/-- A frame is taken by being put in its place, and only where the condition does not refuse it and there is room (R149, R151). -/
theorem offerFrame_some {f : OutFrame} {s t : State} (h : offerFrame f s = some t) :
    refuses s.cond f = false ∧ hasPlace s = true ∧ (f.isReplyOrAlert = true → hasReplyPlace s = true) ∧ t = pushFrame f s := by
  unfold offerFrame at h
  split at h
  · cases h
  · rename_i hr
    split at h
    · rename_i hk
      split at h
      · rename_i hp
        cases h
        refine ⟨by simpa using hr, ?_, fun _ => hp, rfl⟩
        unfold hasReplyPlace at hp
        exact (Bool.and_eq_true _ _ ▸ hp).1
      · cases h
    · rename_i hk
      split at h
      · rename_i hp
        cases h
        exact ⟨by simpa using hr, hp, fun hk' => absurd hk' hk, rfl⟩
      · cases h

/-- A property of what is left when a frame is not taken, and of the station with the frame, holds of the outcome of offering it. -/
theorem offerFrame_getD {P : State → Prop} (f : OutFrame) (s d : State) (h1 : P (pushFrame f s)) (h2 : P d) :
    P ((offerFrame f s).getD d) := by
  cases h : offerFrame f s with
  | none => exact h2
  | some t => rw [(offerFrame_some h).2.2.2]; exact h1


/-! `answer` -/

theorem answer_frame (d : Station) (r : Reply) (s : State) :
    answer d r s = { s with link := (answer d r s).link } := by
  unfold answer; cases h : offerFrame { dest := d, body := .reply r } s with
  | none => rfl
  | some t => rw [(offerFrame_some h).2.2.2]; rfl
@[simp] theorem answer_mm (d : Station) (r : Reply) (s : State) : (answer d r s).mm = s.mm := (congrArg State.mm (answer_frame d r s) :)
@[simp] theorem answer_inflight (d : Station) (r : Reply) (s : State) : (answer d r s).inflight = s.inflight := (congrArg State.inflight (answer_frame d r s) :)
@[simp] theorem answer_tasks (d : Station) (r : Reply) (s : State) : (answer d r s).tasks = s.tasks := (congrArg State.tasks (answer_frame d r s) :)
@[simp] theorem answer_cond (d : Station) (r : Reply) (s : State) : (answer d r s).cond = s.cond := (congrArg State.cond (answer_frame d r s) :)
@[simp] theorem answer_powered (d : Station) (r : Reply) (s : State) : (answer d r s).powered = s.powered := (congrArg State.powered (answer_frame d r s) :)
@[simp] theorem answer_now (d : Station) (r : Reply) (s : State) : (answer d r s).now = s.now := (congrArg State.now (answer_frame d r s) :)
@[simp] theorem answer_own (d : Station) (r : Reply) (s : State) : (answer d r s).own = s.own := (congrArg State.own (answer_frame d r s) :)
@[simp] theorem answer_profile (d : Station) (r : Reply) (s : State) : (answer d r s).profile = s.profile := (congrArg State.profile (answer_frame d r s) :)
@[simp] theorem answer_roster (d : Station) (r : Reply) (s : State) : (answer d r s).roster = s.roster := (congrArg State.roster (answer_frame d r s) :)
@[simp] theorem answer_presence (d : Station) (r : Reply) (s : State) : (answer d r s).presence = s.presence := (congrArg State.presence (answer_frame d r s) :)
@[simp] theorem answer_buffer (d : Station) (r : Reply) (s : State) : (answer d r s).buffer = s.buffer := (congrArg State.buffer (answer_frame d r s) :)
@[simp] theorem answer_pending (d : Station) (r : Reply) (s : State) : (answer d r s).pending = s.pending := (congrArg State.pending (answer_frame d r s) :)
@[simp] theorem answer_fresh (d : Station) (r : Reply) (s : State) : (answer d r s).fresh = s.fresh := (congrArg State.fresh (answer_frame d r s) :)

/-! `fillReply` -/

theorem fillReply_frame (d : Station) (r : Reply) (s : State) :
    fillReply d r s = { s with link := (fillReply d r s).link } := by
  unfold fillReply; rw [answer_frame]; rfl
@[simp] theorem fillReply_mm (d : Station) (r : Reply) (s : State) : (fillReply d r s).mm = s.mm := (congrArg State.mm (fillReply_frame d r s) :)
@[simp] theorem fillReply_inflight (d : Station) (r : Reply) (s : State) : (fillReply d r s).inflight = s.inflight := (congrArg State.inflight (fillReply_frame d r s) :)
@[simp] theorem fillReply_tasks (d : Station) (r : Reply) (s : State) : (fillReply d r s).tasks = s.tasks := (congrArg State.tasks (fillReply_frame d r s) :)
@[simp] theorem fillReply_cond (d : Station) (r : Reply) (s : State) : (fillReply d r s).cond = s.cond := (congrArg State.cond (fillReply_frame d r s) :)
@[simp] theorem fillReply_powered (d : Station) (r : Reply) (s : State) : (fillReply d r s).powered = s.powered := (congrArg State.powered (fillReply_frame d r s) :)
@[simp] theorem fillReply_now (d : Station) (r : Reply) (s : State) : (fillReply d r s).now = s.now := (congrArg State.now (fillReply_frame d r s) :)
@[simp] theorem fillReply_own (d : Station) (r : Reply) (s : State) : (fillReply d r s).own = s.own := (congrArg State.own (fillReply_frame d r s) :)
@[simp] theorem fillReply_profile (d : Station) (r : Reply) (s : State) : (fillReply d r s).profile = s.profile := (congrArg State.profile (fillReply_frame d r s) :)
@[simp] theorem fillReply_roster (d : Station) (r : Reply) (s : State) : (fillReply d r s).roster = s.roster := (congrArg State.roster (fillReply_frame d r s) :)
@[simp] theorem fillReply_presence (d : Station) (r : Reply) (s : State) : (fillReply d r s).presence = s.presence := (congrArg State.presence (fillReply_frame d r s) :)
@[simp] theorem fillReply_buffer (d : Station) (r : Reply) (s : State) : (fillReply d r s).buffer = s.buffer := (congrArg State.buffer (fillReply_frame d r s) :)
@[simp] theorem fillReply_pending (d : Station) (r : Reply) (s : State) : (fillReply d r s).pending = s.pending := (congrArg State.pending (fillReply_frame d r s) :)
@[simp] theorem fillReply_fresh (d : Station) (r : Reply) (s : State) : (fillReply d r s).fresh = s.fresh := (congrArg State.fresh (fillReply_frame d r s) :)

/-! `queueHail` -/

theorem queueHail_frame (s : State) :
    queueHail s = { s with link := (queueHail s).link } := by
  unfold queueHail; cases h : offerFrame (buildHail (hailConditionIn s.cond) s) s with
  | none => rfl
  | some t => rw [(offerFrame_some h).2.2.2]; rfl
@[simp] theorem queueHail_mm (s : State) : (queueHail s).mm = s.mm := (congrArg State.mm (queueHail_frame s) :)
@[simp] theorem queueHail_inflight (s : State) : (queueHail s).inflight = s.inflight := (congrArg State.inflight (queueHail_frame s) :)
@[simp] theorem queueHail_tasks (s : State) : (queueHail s).tasks = s.tasks := (congrArg State.tasks (queueHail_frame s) :)
@[simp] theorem queueHail_cond (s : State) : (queueHail s).cond = s.cond := (congrArg State.cond (queueHail_frame s) :)
@[simp] theorem queueHail_powered (s : State) : (queueHail s).powered = s.powered := (congrArg State.powered (queueHail_frame s) :)
@[simp] theorem queueHail_now (s : State) : (queueHail s).now = s.now := (congrArg State.now (queueHail_frame s) :)
@[simp] theorem queueHail_own (s : State) : (queueHail s).own = s.own := (congrArg State.own (queueHail_frame s) :)
@[simp] theorem queueHail_profile (s : State) : (queueHail s).profile = s.profile := (congrArg State.profile (queueHail_frame s) :)
@[simp] theorem queueHail_roster (s : State) : (queueHail s).roster = s.roster := (congrArg State.roster (queueHail_frame s) :)
@[simp] theorem queueHail_presence (s : State) : (queueHail s).presence = s.presence := (congrArg State.presence (queueHail_frame s) :)
@[simp] theorem queueHail_buffer (s : State) : (queueHail s).buffer = s.buffer := (congrArg State.buffer (queueHail_frame s) :)
@[simp] theorem queueHail_pending (s : State) : (queueHail s).pending = s.pending := (congrArg State.pending (queueHail_frame s) :)
@[simp] theorem queueHail_fresh (s : State) : (queueHail s).fresh = s.fresh := (congrArg State.fresh (queueHail_frame s) :)

/-! `withdraw` -/

theorem withdraw_frame (p : FrameBody → Bool) (s : State) :
    withdraw p s = { s with link := (withdraw p s).link } := rfl
@[simp] theorem withdraw_mm (p : FrameBody → Bool) (s : State) : (withdraw p s).mm = s.mm := (congrArg State.mm (withdraw_frame p s) :)
@[simp] theorem withdraw_inflight (p : FrameBody → Bool) (s : State) : (withdraw p s).inflight = s.inflight := (congrArg State.inflight (withdraw_frame p s) :)
@[simp] theorem withdraw_tasks (p : FrameBody → Bool) (s : State) : (withdraw p s).tasks = s.tasks := (congrArg State.tasks (withdraw_frame p s) :)
@[simp] theorem withdraw_cond (p : FrameBody → Bool) (s : State) : (withdraw p s).cond = s.cond := (congrArg State.cond (withdraw_frame p s) :)
@[simp] theorem withdraw_powered (p : FrameBody → Bool) (s : State) : (withdraw p s).powered = s.powered := (congrArg State.powered (withdraw_frame p s) :)
@[simp] theorem withdraw_now (p : FrameBody → Bool) (s : State) : (withdraw p s).now = s.now := (congrArg State.now (withdraw_frame p s) :)
@[simp] theorem withdraw_own (p : FrameBody → Bool) (s : State) : (withdraw p s).own = s.own := (congrArg State.own (withdraw_frame p s) :)
@[simp] theorem withdraw_profile (p : FrameBody → Bool) (s : State) : (withdraw p s).profile = s.profile := (congrArg State.profile (withdraw_frame p s) :)
@[simp] theorem withdraw_roster (p : FrameBody → Bool) (s : State) : (withdraw p s).roster = s.roster := (congrArg State.roster (withdraw_frame p s) :)
@[simp] theorem withdraw_presence (p : FrameBody → Bool) (s : State) : (withdraw p s).presence = s.presence := (congrArg State.presence (withdraw_frame p s) :)
@[simp] theorem withdraw_buffer (p : FrameBody → Bool) (s : State) : (withdraw p s).buffer = s.buffer := (congrArg State.buffer (withdraw_frame p s) :)
@[simp] theorem withdraw_pending (p : FrameBody → Bool) (s : State) : (withdraw p s).pending = s.pending := (congrArg State.pending (withdraw_frame p s) :)
@[simp] theorem withdraw_fresh (p : FrameBody → Bool) (s : State) : (withdraw p s).fresh = s.fresh := (congrArg State.fresh (withdraw_frame p s) :)

/-! `report` -/

theorem report_frame (f : Flag) (s : State) :
    report f s = { s with link := (report f s).link, faults := (report f s).faults, attention := (report f s).attention } := by
  unfold report; simp only; split
  · cases h : offerFrame { dest := broadcast, body := .alert f s.cond.code } { s with faults := s.faults.set f } with
    | none => rfl
    | some t => rw [(offerFrame_some h).2.2.2]; rfl
  · rfl
@[simp] theorem report_mm (f : Flag) (s : State) : (report f s).mm = s.mm := (congrArg State.mm (report_frame f s) :)
@[simp] theorem report_inflight (f : Flag) (s : State) : (report f s).inflight = s.inflight := (congrArg State.inflight (report_frame f s) :)
@[simp] theorem report_tasks (f : Flag) (s : State) : (report f s).tasks = s.tasks := (congrArg State.tasks (report_frame f s) :)
@[simp] theorem report_cond (f : Flag) (s : State) : (report f s).cond = s.cond := (congrArg State.cond (report_frame f s) :)
@[simp] theorem report_powered (f : Flag) (s : State) : (report f s).powered = s.powered := (congrArg State.powered (report_frame f s) :)
@[simp] theorem report_now (f : Flag) (s : State) : (report f s).now = s.now := (congrArg State.now (report_frame f s) :)
@[simp] theorem report_own (f : Flag) (s : State) : (report f s).own = s.own := (congrArg State.own (report_frame f s) :)
@[simp] theorem report_profile (f : Flag) (s : State) : (report f s).profile = s.profile := (congrArg State.profile (report_frame f s) :)
@[simp] theorem report_roster (f : Flag) (s : State) : (report f s).roster = s.roster := (congrArg State.roster (report_frame f s) :)
@[simp] theorem report_presence (f : Flag) (s : State) : (report f s).presence = s.presence := (congrArg State.presence (report_frame f s) :)
@[simp] theorem report_buffer (f : Flag) (s : State) : (report f s).buffer = s.buffer := (congrArg State.buffer (report_frame f s) :)
@[simp] theorem report_pending (f : Flag) (s : State) : (report f s).pending = s.pending := (congrArg State.pending (report_frame f s) :)
@[simp] theorem report_fresh (f : Flag) (s : State) : (report f s).fresh = s.fresh := (congrArg State.fresh (report_frame f s) :)

/-! `sendGiveback` -/

theorem sendGiveback_frame (d : Station) (r : GivebackReason) (l : List Nat) (s : State) :
    sendGiveback d r l s = { s with link := (sendGiveback d r l s).link, faults := (sendGiveback d r l s).faults, attention := (sendGiveback d r l s).attention } := by
  unfold sendGiveback; cases h : offerFrame { dest := d, body := .giveback r l } s with
  | none => exact report_frame _ _
  | some t => rw [(offerFrame_some h).2.2.2]; rfl
@[simp] theorem sendGiveback_mm (d : Station) (r : GivebackReason) (l : List Nat) (s : State) : (sendGiveback d r l s).mm = s.mm := (congrArg State.mm (sendGiveback_frame d r l s) :)
@[simp] theorem sendGiveback_inflight (d : Station) (r : GivebackReason) (l : List Nat) (s : State) : (sendGiveback d r l s).inflight = s.inflight := (congrArg State.inflight (sendGiveback_frame d r l s) :)
@[simp] theorem sendGiveback_tasks (d : Station) (r : GivebackReason) (l : List Nat) (s : State) : (sendGiveback d r l s).tasks = s.tasks := (congrArg State.tasks (sendGiveback_frame d r l s) :)
@[simp] theorem sendGiveback_cond (d : Station) (r : GivebackReason) (l : List Nat) (s : State) : (sendGiveback d r l s).cond = s.cond := (congrArg State.cond (sendGiveback_frame d r l s) :)
@[simp] theorem sendGiveback_powered (d : Station) (r : GivebackReason) (l : List Nat) (s : State) : (sendGiveback d r l s).powered = s.powered := (congrArg State.powered (sendGiveback_frame d r l s) :)
@[simp] theorem sendGiveback_now (d : Station) (r : GivebackReason) (l : List Nat) (s : State) : (sendGiveback d r l s).now = s.now := (congrArg State.now (sendGiveback_frame d r l s) :)
@[simp] theorem sendGiveback_own (d : Station) (r : GivebackReason) (l : List Nat) (s : State) : (sendGiveback d r l s).own = s.own := (congrArg State.own (sendGiveback_frame d r l s) :)
@[simp] theorem sendGiveback_profile (d : Station) (r : GivebackReason) (l : List Nat) (s : State) : (sendGiveback d r l s).profile = s.profile := (congrArg State.profile (sendGiveback_frame d r l s) :)
@[simp] theorem sendGiveback_roster (d : Station) (r : GivebackReason) (l : List Nat) (s : State) : (sendGiveback d r l s).roster = s.roster := (congrArg State.roster (sendGiveback_frame d r l s) :)
@[simp] theorem sendGiveback_presence (d : Station) (r : GivebackReason) (l : List Nat) (s : State) : (sendGiveback d r l s).presence = s.presence := (congrArg State.presence (sendGiveback_frame d r l s) :)
@[simp] theorem sendGiveback_buffer (d : Station) (r : GivebackReason) (l : List Nat) (s : State) : (sendGiveback d r l s).buffer = s.buffer := (congrArg State.buffer (sendGiveback_frame d r l s) :)
@[simp] theorem sendGiveback_pending (d : Station) (r : GivebackReason) (l : List Nat) (s : State) : (sendGiveback d r l s).pending = s.pending := (congrArg State.pending (sendGiveback_frame d r l s) :)
@[simp] theorem sendGiveback_fresh (d : Station) (r : GivebackReason) (l : List Nat) (s : State) : (sendGiveback d r l s).fresh = s.fresh := (congrArg State.fresh (sendGiveback_frame d r l s) :)

/-! `withdrawOffer` -/

theorem withdrawOffer_frame (b : Bool) (s : State) :
    withdrawOffer b s = { s with offer := (withdrawOffer b s).offer, link := (withdrawOffer b s).link } := by
  unfold withdrawOffer; split
  · rfl
  · split <;> rfl
@[simp] theorem withdrawOffer_mm (b : Bool) (s : State) : (withdrawOffer b s).mm = s.mm := (congrArg State.mm (withdrawOffer_frame b s) :)
@[simp] theorem withdrawOffer_inflight (b : Bool) (s : State) : (withdrawOffer b s).inflight = s.inflight := (congrArg State.inflight (withdrawOffer_frame b s) :)
@[simp] theorem withdrawOffer_tasks (b : Bool) (s : State) : (withdrawOffer b s).tasks = s.tasks := (congrArg State.tasks (withdrawOffer_frame b s) :)
@[simp] theorem withdrawOffer_cond (b : Bool) (s : State) : (withdrawOffer b s).cond = s.cond := (congrArg State.cond (withdrawOffer_frame b s) :)
@[simp] theorem withdrawOffer_powered (b : Bool) (s : State) : (withdrawOffer b s).powered = s.powered := (congrArg State.powered (withdrawOffer_frame b s) :)
@[simp] theorem withdrawOffer_now (b : Bool) (s : State) : (withdrawOffer b s).now = s.now := (congrArg State.now (withdrawOffer_frame b s) :)
@[simp] theorem withdrawOffer_own (b : Bool) (s : State) : (withdrawOffer b s).own = s.own := (congrArg State.own (withdrawOffer_frame b s) :)
@[simp] theorem withdrawOffer_profile (b : Bool) (s : State) : (withdrawOffer b s).profile = s.profile := (congrArg State.profile (withdrawOffer_frame b s) :)
@[simp] theorem withdrawOffer_roster (b : Bool) (s : State) : (withdrawOffer b s).roster = s.roster := (congrArg State.roster (withdrawOffer_frame b s) :)
@[simp] theorem withdrawOffer_presence (b : Bool) (s : State) : (withdrawOffer b s).presence = s.presence := (congrArg State.presence (withdrawOffer_frame b s) :)
@[simp] theorem withdrawOffer_buffer (b : Bool) (s : State) : (withdrawOffer b s).buffer = s.buffer := (congrArg State.buffer (withdrawOffer_frame b s) :)
@[simp] theorem withdrawOffer_pending (b : Bool) (s : State) : (withdrawOffer b s).pending = s.pending := (congrArg State.pending (withdrawOffer_frame b s) :)
@[simp] theorem withdrawOffer_fresh (b : Bool) (s : State) : (withdrawOffer b s).fresh = s.fresh := (congrArg State.fresh (withdrawOffer_frame b s) :)

/-! `yieldOffer` -/

theorem yieldOffer_frame (s : State) :
    yieldOffer s = { s with offer := (yieldOffer s).offer, link := (yieldOffer s).link } := by
  unfold yieldOffer; split
  · rfl
  · rw [withdrawOffer_frame]
  · rfl
@[simp] theorem yieldOffer_mm (s : State) : (yieldOffer s).mm = s.mm := (congrArg State.mm (yieldOffer_frame s) :)
@[simp] theorem yieldOffer_inflight (s : State) : (yieldOffer s).inflight = s.inflight := (congrArg State.inflight (yieldOffer_frame s) :)
@[simp] theorem yieldOffer_tasks (s : State) : (yieldOffer s).tasks = s.tasks := (congrArg State.tasks (yieldOffer_frame s) :)
@[simp] theorem yieldOffer_cond (s : State) : (yieldOffer s).cond = s.cond := (congrArg State.cond (yieldOffer_frame s) :)
@[simp] theorem yieldOffer_powered (s : State) : (yieldOffer s).powered = s.powered := (congrArg State.powered (yieldOffer_frame s) :)
@[simp] theorem yieldOffer_now (s : State) : (yieldOffer s).now = s.now := (congrArg State.now (yieldOffer_frame s) :)
@[simp] theorem yieldOffer_own (s : State) : (yieldOffer s).own = s.own := (congrArg State.own (yieldOffer_frame s) :)
@[simp] theorem yieldOffer_profile (s : State) : (yieldOffer s).profile = s.profile := (congrArg State.profile (yieldOffer_frame s) :)
@[simp] theorem yieldOffer_roster (s : State) : (yieldOffer s).roster = s.roster := (congrArg State.roster (yieldOffer_frame s) :)
@[simp] theorem yieldOffer_presence (s : State) : (yieldOffer s).presence = s.presence := (congrArg State.presence (yieldOffer_frame s) :)
@[simp] theorem yieldOffer_buffer (s : State) : (yieldOffer s).buffer = s.buffer := (congrArg State.buffer (yieldOffer_frame s) :)
@[simp] theorem yieldOffer_pending (s : State) : (yieldOffer s).pending = s.pending := (congrArg State.pending (yieldOffer_frame s) :)
@[simp] theorem yieldOffer_fresh (s : State) : (yieldOffer s).fresh = s.fresh := (congrArg State.fresh (yieldOffer_frame s) :)

/-! `stopOffer` -/

theorem stopOffer_frame (s : State) :
    stopOffer s = { s with offer := (stopOffer s).offer, link := (stopOffer s).link } := by
  unfold stopOffer; split
  · rfl
  · rw [withdrawOffer_frame]
  · rfl
@[simp] theorem stopOffer_mm (s : State) : (stopOffer s).mm = s.mm := (congrArg State.mm (stopOffer_frame s) :)
@[simp] theorem stopOffer_inflight (s : State) : (stopOffer s).inflight = s.inflight := (congrArg State.inflight (stopOffer_frame s) :)
@[simp] theorem stopOffer_tasks (s : State) : (stopOffer s).tasks = s.tasks := (congrArg State.tasks (stopOffer_frame s) :)
@[simp] theorem stopOffer_cond (s : State) : (stopOffer s).cond = s.cond := (congrArg State.cond (stopOffer_frame s) :)
@[simp] theorem stopOffer_powered (s : State) : (stopOffer s).powered = s.powered := (congrArg State.powered (stopOffer_frame s) :)
@[simp] theorem stopOffer_now (s : State) : (stopOffer s).now = s.now := (congrArg State.now (stopOffer_frame s) :)
@[simp] theorem stopOffer_own (s : State) : (stopOffer s).own = s.own := (congrArg State.own (stopOffer_frame s) :)
@[simp] theorem stopOffer_profile (s : State) : (stopOffer s).profile = s.profile := (congrArg State.profile (stopOffer_frame s) :)
@[simp] theorem stopOffer_roster (s : State) : (stopOffer s).roster = s.roster := (congrArg State.roster (stopOffer_frame s) :)
@[simp] theorem stopOffer_presence (s : State) : (stopOffer s).presence = s.presence := (congrArg State.presence (stopOffer_frame s) :)
@[simp] theorem stopOffer_buffer (s : State) : (stopOffer s).buffer = s.buffer := (congrArg State.buffer (stopOffer_frame s) :)
@[simp] theorem stopOffer_pending (s : State) : (stopOffer s).pending = s.pending := (congrArg State.pending (stopOffer_frame s) :)
@[simp] theorem stopOffer_fresh (s : State) : (stopOffer s).fresh = s.fresh := (congrArg State.fresh (stopOffer_frame s) :)

/-! `failAsk` -/

theorem failAsk_frame (s : State) :
    failAsk s = { s with ask := (failAsk s).ask, faults := (failAsk s).faults } := by
  unfold failAsk; repeat' split
  all_goals rfl
@[simp] theorem failAsk_mm (s : State) : (failAsk s).mm = s.mm := (congrArg State.mm (failAsk_frame s) :)
@[simp] theorem failAsk_inflight (s : State) : (failAsk s).inflight = s.inflight := (congrArg State.inflight (failAsk_frame s) :)
@[simp] theorem failAsk_tasks (s : State) : (failAsk s).tasks = s.tasks := (congrArg State.tasks (failAsk_frame s) :)
@[simp] theorem failAsk_cond (s : State) : (failAsk s).cond = s.cond := (congrArg State.cond (failAsk_frame s) :)
@[simp] theorem failAsk_powered (s : State) : (failAsk s).powered = s.powered := (congrArg State.powered (failAsk_frame s) :)
@[simp] theorem failAsk_now (s : State) : (failAsk s).now = s.now := (congrArg State.now (failAsk_frame s) :)
@[simp] theorem failAsk_own (s : State) : (failAsk s).own = s.own := (congrArg State.own (failAsk_frame s) :)
@[simp] theorem failAsk_profile (s : State) : (failAsk s).profile = s.profile := (congrArg State.profile (failAsk_frame s) :)
@[simp] theorem failAsk_roster (s : State) : (failAsk s).roster = s.roster := (congrArg State.roster (failAsk_frame s) :)
@[simp] theorem failAsk_presence (s : State) : (failAsk s).presence = s.presence := (congrArg State.presence (failAsk_frame s) :)
@[simp] theorem failAsk_buffer (s : State) : (failAsk s).buffer = s.buffer := (congrArg State.buffer (failAsk_frame s) :)
@[simp] theorem failAsk_pending (s : State) : (failAsk s).pending = s.pending := (congrArg State.pending (failAsk_frame s) :)
@[simp] theorem failAsk_fresh (s : State) : (failAsk s).fresh = s.fresh := (congrArg State.fresh (failAsk_frame s) :)

/-! `startAsk` -/

theorem startAsk_frame (s : State) :
    startAsk s = { s with ask := (startAsk s).ask, offer := (startAsk s).offer, link := (startAsk s).link, faults := (startAsk s).faults } := by
  unfold startAsk; split
  · rfl
  · simp only; rw [yieldOffer_frame]; split
    · rfl
    · cases h : offerFrame _ _ with
      | none => rfl
      | some t => rw [(offerFrame_some h).2.2.2]; rfl
@[simp] theorem startAsk_mm (s : State) : (startAsk s).mm = s.mm := (congrArg State.mm (startAsk_frame s) :)
@[simp] theorem startAsk_inflight (s : State) : (startAsk s).inflight = s.inflight := (congrArg State.inflight (startAsk_frame s) :)
@[simp] theorem startAsk_tasks (s : State) : (startAsk s).tasks = s.tasks := (congrArg State.tasks (startAsk_frame s) :)
@[simp] theorem startAsk_cond (s : State) : (startAsk s).cond = s.cond := (congrArg State.cond (startAsk_frame s) :)
@[simp] theorem startAsk_powered (s : State) : (startAsk s).powered = s.powered := (congrArg State.powered (startAsk_frame s) :)
@[simp] theorem startAsk_now (s : State) : (startAsk s).now = s.now := (congrArg State.now (startAsk_frame s) :)
@[simp] theorem startAsk_own (s : State) : (startAsk s).own = s.own := (congrArg State.own (startAsk_frame s) :)
@[simp] theorem startAsk_profile (s : State) : (startAsk s).profile = s.profile := (congrArg State.profile (startAsk_frame s) :)
@[simp] theorem startAsk_roster (s : State) : (startAsk s).roster = s.roster := (congrArg State.roster (startAsk_frame s) :)
@[simp] theorem startAsk_presence (s : State) : (startAsk s).presence = s.presence := (congrArg State.presence (startAsk_frame s) :)
@[simp] theorem startAsk_buffer (s : State) : (startAsk s).buffer = s.buffer := (congrArg State.buffer (startAsk_frame s) :)
@[simp] theorem startAsk_pending (s : State) : (startAsk s).pending = s.pending := (congrArg State.pending (startAsk_frame s) :)
@[simp] theorem startAsk_fresh (s : State) : (startAsk s).fresh = s.fresh := (congrArg State.fresh (startAsk_frame s) :)

/-! `judgeAsk` -/

theorem judgeAsk_frame (s : State) :
    judgeAsk s = { s with ask := (judgeAsk s).ask, offer := (judgeAsk s).offer, link := (judgeAsk s).link, faults := (judgeAsk s).faults } := by
  unfold judgeAsk; split
  · exact startAsk_frame s
  · rfl
@[simp] theorem judgeAsk_mm (s : State) : (judgeAsk s).mm = s.mm := (congrArg State.mm (judgeAsk_frame s) :)
@[simp] theorem judgeAsk_inflight (s : State) : (judgeAsk s).inflight = s.inflight := (congrArg State.inflight (judgeAsk_frame s) :)
@[simp] theorem judgeAsk_tasks (s : State) : (judgeAsk s).tasks = s.tasks := (congrArg State.tasks (judgeAsk_frame s) :)
@[simp] theorem judgeAsk_cond (s : State) : (judgeAsk s).cond = s.cond := (congrArg State.cond (judgeAsk_frame s) :)
@[simp] theorem judgeAsk_powered (s : State) : (judgeAsk s).powered = s.powered := (congrArg State.powered (judgeAsk_frame s) :)
@[simp] theorem judgeAsk_now (s : State) : (judgeAsk s).now = s.now := (congrArg State.now (judgeAsk_frame s) :)
@[simp] theorem judgeAsk_own (s : State) : (judgeAsk s).own = s.own := (congrArg State.own (judgeAsk_frame s) :)
@[simp] theorem judgeAsk_profile (s : State) : (judgeAsk s).profile = s.profile := (congrArg State.profile (judgeAsk_frame s) :)
@[simp] theorem judgeAsk_roster (s : State) : (judgeAsk s).roster = s.roster := (congrArg State.roster (judgeAsk_frame s) :)
@[simp] theorem judgeAsk_presence (s : State) : (judgeAsk s).presence = s.presence := (congrArg State.presence (judgeAsk_frame s) :)
@[simp] theorem judgeAsk_buffer (s : State) : (judgeAsk s).buffer = s.buffer := (congrArg State.buffer (judgeAsk_frame s) :)
@[simp] theorem judgeAsk_pending (s : State) : (judgeAsk s).pending = s.pending := (congrArg State.pending (judgeAsk_frame s) :)
@[simp] theorem judgeAsk_fresh (s : State) : (judgeAsk s).fresh = s.fresh := (congrArg State.fresh (judgeAsk_frame s) :)

/-! `toldDropped` -/

theorem toldDropped_frame (b : FrameBody) (s : State) :
    toldDropped b s = { s with ask := (toldDropped b s).ask, offer := (toldDropped b s).offer, link := (toldDropped b s).link, faults := (toldDropped b s).faults, attention := (toldDropped b s).attention } := by
  unfold toldDropped; split <;> try split
  all_goals first | rfl | (rw [report_frame])
@[simp] theorem toldDropped_mm (b : FrameBody) (s : State) : (toldDropped b s).mm = s.mm := (congrArg State.mm (toldDropped_frame b s) :)
@[simp] theorem toldDropped_inflight (b : FrameBody) (s : State) : (toldDropped b s).inflight = s.inflight := (congrArg State.inflight (toldDropped_frame b s) :)
@[simp] theorem toldDropped_tasks (b : FrameBody) (s : State) : (toldDropped b s).tasks = s.tasks := (congrArg State.tasks (toldDropped_frame b s) :)
@[simp] theorem toldDropped_cond (b : FrameBody) (s : State) : (toldDropped b s).cond = s.cond := (congrArg State.cond (toldDropped_frame b s) :)
@[simp] theorem toldDropped_powered (b : FrameBody) (s : State) : (toldDropped b s).powered = s.powered := (congrArg State.powered (toldDropped_frame b s) :)
@[simp] theorem toldDropped_now (b : FrameBody) (s : State) : (toldDropped b s).now = s.now := (congrArg State.now (toldDropped_frame b s) :)
@[simp] theorem toldDropped_own (b : FrameBody) (s : State) : (toldDropped b s).own = s.own := (congrArg State.own (toldDropped_frame b s) :)
@[simp] theorem toldDropped_profile (b : FrameBody) (s : State) : (toldDropped b s).profile = s.profile := (congrArg State.profile (toldDropped_frame b s) :)
@[simp] theorem toldDropped_roster (b : FrameBody) (s : State) : (toldDropped b s).roster = s.roster := (congrArg State.roster (toldDropped_frame b s) :)
@[simp] theorem toldDropped_presence (b : FrameBody) (s : State) : (toldDropped b s).presence = s.presence := (congrArg State.presence (toldDropped_frame b s) :)
@[simp] theorem toldDropped_buffer (b : FrameBody) (s : State) : (toldDropped b s).buffer = s.buffer := (congrArg State.buffer (toldDropped_frame b s) :)
@[simp] theorem toldDropped_pending (b : FrameBody) (s : State) : (toldDropped b s).pending = s.pending := (congrArg State.pending (toldDropped_frame b s) :)
@[simp] theorem toldDropped_fresh (b : FrameBody) (s : State) : (toldDropped b s).fresh = s.fresh := (congrArg State.fresh (toldDropped_frame b s) :)

/-! `toldRemoved` -/

theorem toldRemoved_frame (l : List OutFrame) (s : State) :
    toldRemoved l s = { s with ask := (toldRemoved l s).ask, offer := (toldRemoved l s).offer, link := (toldRemoved l s).link, faults := (toldRemoved l s).faults, attention := (toldRemoved l s).attention } := by
  unfold toldRemoved; induction l generalizing s with
  | nil => rfl
  | cons x xs ih => simp only [List.foldl_cons]; rw [ih, toldDropped_frame]
@[simp] theorem toldRemoved_mm (l : List OutFrame) (s : State) : (toldRemoved l s).mm = s.mm := (congrArg State.mm (toldRemoved_frame l s) :)
@[simp] theorem toldRemoved_inflight (l : List OutFrame) (s : State) : (toldRemoved l s).inflight = s.inflight := (congrArg State.inflight (toldRemoved_frame l s) :)
@[simp] theorem toldRemoved_tasks (l : List OutFrame) (s : State) : (toldRemoved l s).tasks = s.tasks := (congrArg State.tasks (toldRemoved_frame l s) :)
@[simp] theorem toldRemoved_cond (l : List OutFrame) (s : State) : (toldRemoved l s).cond = s.cond := (congrArg State.cond (toldRemoved_frame l s) :)
@[simp] theorem toldRemoved_powered (l : List OutFrame) (s : State) : (toldRemoved l s).powered = s.powered := (congrArg State.powered (toldRemoved_frame l s) :)
@[simp] theorem toldRemoved_now (l : List OutFrame) (s : State) : (toldRemoved l s).now = s.now := (congrArg State.now (toldRemoved_frame l s) :)
@[simp] theorem toldRemoved_own (l : List OutFrame) (s : State) : (toldRemoved l s).own = s.own := (congrArg State.own (toldRemoved_frame l s) :)
@[simp] theorem toldRemoved_profile (l : List OutFrame) (s : State) : (toldRemoved l s).profile = s.profile := (congrArg State.profile (toldRemoved_frame l s) :)
@[simp] theorem toldRemoved_roster (l : List OutFrame) (s : State) : (toldRemoved l s).roster = s.roster := (congrArg State.roster (toldRemoved_frame l s) :)
@[simp] theorem toldRemoved_presence (l : List OutFrame) (s : State) : (toldRemoved l s).presence = s.presence := (congrArg State.presence (toldRemoved_frame l s) :)
@[simp] theorem toldRemoved_buffer (l : List OutFrame) (s : State) : (toldRemoved l s).buffer = s.buffer := (congrArg State.buffer (toldRemoved_frame l s) :)
@[simp] theorem toldRemoved_pending (l : List OutFrame) (s : State) : (toldRemoved l s).pending = s.pending := (congrArg State.pending (toldRemoved_frame l s) :)
@[simp] theorem toldRemoved_fresh (l : List OutFrame) (s : State) : (toldRemoved l s).fresh = s.fresh := (congrArg State.fresh (toldRemoved_frame l s) :)

/-! `enterSilence` -/

theorem enterSilence_frame (c : Condition) (s : State) :
    enterSilence c s = { s with cond := (enterSilence c s).cond, joinTimer := (enterSilence c s).joinTimer, drainTimer := (enterSilence c s).drainTimer, drainEnded := (enterSilence c s).drainEnded, hailTimer := (enterSilence c s).hailTimer, ask := (enterSilence c s).ask, offer := (enterSilence c s).offer, walkerTimer := (enterSilence c s).walkerTimer, link := (enterSilence c s).link, buffer := (enterSilence c s).buffer, faults := (enterSilence c s).faults, attention := (enterSilence c s).attention } := by
  unfold enterSilence; rw [toldRemoved_frame]
@[simp] theorem enterSilence_mm (c : Condition) (s : State) : (enterSilence c s).mm = s.mm := (congrArg State.mm (enterSilence_frame c s) :)
@[simp] theorem enterSilence_inflight (c : Condition) (s : State) : (enterSilence c s).inflight = s.inflight := (congrArg State.inflight (enterSilence_frame c s) :)
@[simp] theorem enterSilence_tasks (c : Condition) (s : State) : (enterSilence c s).tasks = s.tasks := (congrArg State.tasks (enterSilence_frame c s) :)
@[simp] theorem enterSilence_powered (c : Condition) (s : State) : (enterSilence c s).powered = s.powered := (congrArg State.powered (enterSilence_frame c s) :)
@[simp] theorem enterSilence_now (c : Condition) (s : State) : (enterSilence c s).now = s.now := (congrArg State.now (enterSilence_frame c s) :)
@[simp] theorem enterSilence_own (c : Condition) (s : State) : (enterSilence c s).own = s.own := (congrArg State.own (enterSilence_frame c s) :)
@[simp] theorem enterSilence_profile (c : Condition) (s : State) : (enterSilence c s).profile = s.profile := (congrArg State.profile (enterSilence_frame c s) :)
@[simp] theorem enterSilence_roster (c : Condition) (s : State) : (enterSilence c s).roster = s.roster := (congrArg State.roster (enterSilence_frame c s) :)
@[simp] theorem enterSilence_presence (c : Condition) (s : State) : (enterSilence c s).presence = s.presence := (congrArg State.presence (enterSilence_frame c s) :)
@[simp] theorem enterSilence_pending (c : Condition) (s : State) : (enterSilence c s).pending = s.pending := (congrArg State.pending (enterSilence_frame c s) :)
@[simp] theorem enterSilence_fresh (c : Condition) (s : State) : (enterSilence c s).fresh = s.fresh := (congrArg State.fresh (enterSilence_frame c s) :)

/-! `enterHalted` -/

theorem enterHalted_frame (s : State) :
    enterHalted s = { s with cond := (enterHalted s).cond, drainTimer := (enterHalted s).drainTimer, drainEnded := (enterHalted s).drainEnded, ask := (enterHalted s).ask, offer := (enterHalted s).offer, walkerTimer := (enterHalted s).walkerTimer, link := (enterHalted s).link, faults := (enterHalted s).faults, attention := (enterHalted s).attention } := by
  unfold enterHalted; simp only; rw [toldRemoved_frame]; rw [stopOffer_frame]
@[simp] theorem enterHalted_mm (s : State) : (enterHalted s).mm = s.mm := (congrArg State.mm (enterHalted_frame s) :)
@[simp] theorem enterHalted_inflight (s : State) : (enterHalted s).inflight = s.inflight := (congrArg State.inflight (enterHalted_frame s) :)
@[simp] theorem enterHalted_tasks (s : State) : (enterHalted s).tasks = s.tasks := (congrArg State.tasks (enterHalted_frame s) :)
@[simp] theorem enterHalted_powered (s : State) : (enterHalted s).powered = s.powered := (congrArg State.powered (enterHalted_frame s) :)
@[simp] theorem enterHalted_now (s : State) : (enterHalted s).now = s.now := (congrArg State.now (enterHalted_frame s) :)
@[simp] theorem enterHalted_own (s : State) : (enterHalted s).own = s.own := (congrArg State.own (enterHalted_frame s) :)
@[simp] theorem enterHalted_profile (s : State) : (enterHalted s).profile = s.profile := (congrArg State.profile (enterHalted_frame s) :)
@[simp] theorem enterHalted_roster (s : State) : (enterHalted s).roster = s.roster := (congrArg State.roster (enterHalted_frame s) :)
@[simp] theorem enterHalted_presence (s : State) : (enterHalted s).presence = s.presence := (congrArg State.presence (enterHalted_frame s) :)
@[simp] theorem enterHalted_buffer (s : State) : (enterHalted s).buffer = s.buffer := (congrArg State.buffer (enterHalted_frame s) :)
@[simp] theorem enterHalted_pending (s : State) : (enterHalted s).pending = s.pending := (congrArg State.pending (enterHalted_frame s) :)
@[simp] theorem enterHalted_fresh (s : State) : (enterHalted s).fresh = s.fresh := (congrArg State.fresh (enterHalted_frame s) :)

/-! `mapMemError` -/

theorem mapMemError_frame (s : State) :
    mapMemError s = { s with cond := (mapMemError s).cond, outcome := (mapMemError s).outcome, drainTimer := (mapMemError s).drainTimer, drainEnded := (mapMemError s).drainEnded, hailTimer := (mapMemError s).hailTimer, ask := (mapMemError s).ask, offer := (mapMemError s).offer, walkerTimer := (mapMemError s).walkerTimer, link := (mapMemError s).link, faults := (mapMemError s).faults, attention := (mapMemError s).attention } := by
  unfold mapMemError; simp only; cases h : (report Flag.mapMem s).cond <;> simp only <;> try rw [queueHail_frame]
  all_goals try rw [enterHalted_frame]
  all_goals rw [report_frame]
@[simp] theorem mapMemError_mm (s : State) : (mapMemError s).mm = s.mm := (congrArg State.mm (mapMemError_frame s) :)
@[simp] theorem mapMemError_inflight (s : State) : (mapMemError s).inflight = s.inflight := (congrArg State.inflight (mapMemError_frame s) :)
@[simp] theorem mapMemError_tasks (s : State) : (mapMemError s).tasks = s.tasks := (congrArg State.tasks (mapMemError_frame s) :)
@[simp] theorem mapMemError_powered (s : State) : (mapMemError s).powered = s.powered := (congrArg State.powered (mapMemError_frame s) :)
@[simp] theorem mapMemError_now (s : State) : (mapMemError s).now = s.now := (congrArg State.now (mapMemError_frame s) :)
@[simp] theorem mapMemError_own (s : State) : (mapMemError s).own = s.own := (congrArg State.own (mapMemError_frame s) :)
@[simp] theorem mapMemError_profile (s : State) : (mapMemError s).profile = s.profile := (congrArg State.profile (mapMemError_frame s) :)
@[simp] theorem mapMemError_roster (s : State) : (mapMemError s).roster = s.roster := (congrArg State.roster (mapMemError_frame s) :)
@[simp] theorem mapMemError_presence (s : State) : (mapMemError s).presence = s.presence := (congrArg State.presence (mapMemError_frame s) :)
@[simp] theorem mapMemError_buffer (s : State) : (mapMemError s).buffer = s.buffer := (congrArg State.buffer (mapMemError_frame s) :)
@[simp] theorem mapMemError_pending (s : State) : (mapMemError s).pending = s.pending := (congrArg State.pending (mapMemError_frame s) :)
@[simp] theorem mapMemError_fresh (s : State) : (mapMemError s).fresh = s.fresh := (congrArg State.fresh (mapMemError_frame s) :)

/-! `enterQuiet` -/

theorem enterQuiet_frame (s : State) :
    enterQuiet s = { s with cond := (enterQuiet s).cond, joinTimer := (enterQuiet s).joinTimer, drainTimer := (enterQuiet s).drainTimer, drainEnded := (enterQuiet s).drainEnded, hailTimer := (enterQuiet s).hailTimer, ask := (enterQuiet s).ask, offer := (enterQuiet s).offer, walkerTimer := (enterQuiet s).walkerTimer, link := (enterQuiet s).link, buffer := (enterQuiet s).buffer, faults := (enterQuiet s).faults, attention := (enterQuiet s).attention, tasks := (enterQuiet s).tasks } := by
  unfold enterQuiet; simp only; rw [enterSilence_frame]
@[simp] theorem enterQuiet_mm (s : State) : (enterQuiet s).mm = s.mm := (congrArg State.mm (enterQuiet_frame s) :)
@[simp] theorem enterQuiet_inflight (s : State) : (enterQuiet s).inflight = s.inflight := (congrArg State.inflight (enterQuiet_frame s) :)
@[simp] theorem enterQuiet_powered (s : State) : (enterQuiet s).powered = s.powered := (congrArg State.powered (enterQuiet_frame s) :)
@[simp] theorem enterQuiet_now (s : State) : (enterQuiet s).now = s.now := (congrArg State.now (enterQuiet_frame s) :)
@[simp] theorem enterQuiet_own (s : State) : (enterQuiet s).own = s.own := (congrArg State.own (enterQuiet_frame s) :)
@[simp] theorem enterQuiet_profile (s : State) : (enterQuiet s).profile = s.profile := (congrArg State.profile (enterQuiet_frame s) :)
@[simp] theorem enterQuiet_roster (s : State) : (enterQuiet s).roster = s.roster := (congrArg State.roster (enterQuiet_frame s) :)
@[simp] theorem enterQuiet_presence (s : State) : (enterQuiet s).presence = s.presence := (congrArg State.presence (enterQuiet_frame s) :)
@[simp] theorem enterQuiet_pending (s : State) : (enterQuiet s).pending = s.pending := (congrArg State.pending (enterQuiet_frame s) :)
@[simp] theorem enterQuiet_fresh (s : State) : (enterQuiet s).fresh = s.fresh := (congrArg State.fresh (enterQuiet_frame s) :)

/-! `duplicateHeard` -/

theorem duplicateHeard_frame (s : State) :
    duplicateHeard s = { s with cond := (duplicateHeard s).cond, joinTimer := (duplicateHeard s).joinTimer, drainTimer := (duplicateHeard s).drainTimer, drainEnded := (duplicateHeard s).drainEnded, hailTimer := (duplicateHeard s).hailTimer, ask := (duplicateHeard s).ask, offer := (duplicateHeard s).offer, walkerTimer := (duplicateHeard s).walkerTimer, link := (duplicateHeard s).link, buffer := (duplicateHeard s).buffer, faults := (duplicateHeard s).faults, attention := (duplicateHeard s).attention } := by
  unfold duplicateHeard; simp only; split
  · rw [report_frame]
  · rw [enterSilence_frame, report_frame]
@[simp] theorem duplicateHeard_mm (s : State) : (duplicateHeard s).mm = s.mm := (congrArg State.mm (duplicateHeard_frame s) :)
@[simp] theorem duplicateHeard_inflight (s : State) : (duplicateHeard s).inflight = s.inflight := (congrArg State.inflight (duplicateHeard_frame s) :)
@[simp] theorem duplicateHeard_tasks (s : State) : (duplicateHeard s).tasks = s.tasks := (congrArg State.tasks (duplicateHeard_frame s) :)
@[simp] theorem duplicateHeard_powered (s : State) : (duplicateHeard s).powered = s.powered := (congrArg State.powered (duplicateHeard_frame s) :)
@[simp] theorem duplicateHeard_now (s : State) : (duplicateHeard s).now = s.now := (congrArg State.now (duplicateHeard_frame s) :)
@[simp] theorem duplicateHeard_own (s : State) : (duplicateHeard s).own = s.own := (congrArg State.own (duplicateHeard_frame s) :)
@[simp] theorem duplicateHeard_profile (s : State) : (duplicateHeard s).profile = s.profile := (congrArg State.profile (duplicateHeard_frame s) :)
@[simp] theorem duplicateHeard_roster (s : State) : (duplicateHeard s).roster = s.roster := (congrArg State.roster (duplicateHeard_frame s) :)
@[simp] theorem duplicateHeard_presence (s : State) : (duplicateHeard s).presence = s.presence := (congrArg State.presence (duplicateHeard_frame s) :)
@[simp] theorem duplicateHeard_pending (s : State) : (duplicateHeard s).pending = s.pending := (congrArg State.pending (duplicateHeard_frame s) :)
@[simp] theorem duplicateHeard_fresh (s : State) : (duplicateHeard s).fresh = s.fresh := (congrArg State.fresh (duplicateHeard_frame s) :)

/-! `endDrain` -/

theorem endDrain_frame (s : State) :
    endDrain s = { s with cond := (endDrain s).cond, joinTimer := (endDrain s).joinTimer, drainTimer := (endDrain s).drainTimer, drainEnded := (endDrain s).drainEnded, hailTimer := (endDrain s).hailTimer, ask := (endDrain s).ask, offer := (endDrain s).offer, walkerTimer := (endDrain s).walkerTimer, link := (endDrain s).link, buffer := (endDrain s).buffer, faults := (endDrain s).faults, attention := (endDrain s).attention, tasks := (endDrain s).tasks } := by
  unfold endDrain; simp only; split
  · rename_i t h; rw [(offerFrame_some h).2.2.2]; rfl
  · rw [enterQuiet_frame]
@[simp] theorem endDrain_mm (s : State) : (endDrain s).mm = s.mm := (congrArg State.mm (endDrain_frame s) :)
@[simp] theorem endDrain_inflight (s : State) : (endDrain s).inflight = s.inflight := (congrArg State.inflight (endDrain_frame s) :)
@[simp] theorem endDrain_powered (s : State) : (endDrain s).powered = s.powered := (congrArg State.powered (endDrain_frame s) :)
@[simp] theorem endDrain_now (s : State) : (endDrain s).now = s.now := (congrArg State.now (endDrain_frame s) :)
@[simp] theorem endDrain_own (s : State) : (endDrain s).own = s.own := (congrArg State.own (endDrain_frame s) :)
@[simp] theorem endDrain_profile (s : State) : (endDrain s).profile = s.profile := (congrArg State.profile (endDrain_frame s) :)
@[simp] theorem endDrain_roster (s : State) : (endDrain s).roster = s.roster := (congrArg State.roster (endDrain_frame s) :)
@[simp] theorem endDrain_presence (s : State) : (endDrain s).presence = s.presence := (congrArg State.presence (endDrain_frame s) :)
@[simp] theorem endDrain_pending (s : State) : (endDrain s).pending = s.pending := (congrArg State.pending (endDrain_frame s) :)
@[simp] theorem endDrain_fresh (s : State) : (endDrain s).fresh = s.fresh := (congrArg State.fresh (endDrain_frame s) :)

/-! `judgeQuiet` -/

theorem judgeQuiet_frame (s : State) :
    judgeQuiet s = { s with cond := (judgeQuiet s).cond, joinTimer := (judgeQuiet s).joinTimer, drainTimer := (judgeQuiet s).drainTimer, drainEnded := (judgeQuiet s).drainEnded, hailTimer := (judgeQuiet s).hailTimer, ask := (judgeQuiet s).ask, offer := (judgeQuiet s).offer, walkerTimer := (judgeQuiet s).walkerTimer, link := (judgeQuiet s).link, buffer := (judgeQuiet s).buffer, faults := (judgeQuiet s).faults, attention := (judgeQuiet s).attention, tasks := (judgeQuiet s).tasks } := by
  unfold judgeQuiet; split
  · exact endDrain_frame s
  · rfl
@[simp] theorem judgeQuiet_mm (s : State) : (judgeQuiet s).mm = s.mm := (congrArg State.mm (judgeQuiet_frame s) :)
@[simp] theorem judgeQuiet_inflight (s : State) : (judgeQuiet s).inflight = s.inflight := (congrArg State.inflight (judgeQuiet_frame s) :)
@[simp] theorem judgeQuiet_powered (s : State) : (judgeQuiet s).powered = s.powered := (congrArg State.powered (judgeQuiet_frame s) :)
@[simp] theorem judgeQuiet_now (s : State) : (judgeQuiet s).now = s.now := (congrArg State.now (judgeQuiet_frame s) :)
@[simp] theorem judgeQuiet_own (s : State) : (judgeQuiet s).own = s.own := (congrArg State.own (judgeQuiet_frame s) :)
@[simp] theorem judgeQuiet_profile (s : State) : (judgeQuiet s).profile = s.profile := (congrArg State.profile (judgeQuiet_frame s) :)
@[simp] theorem judgeQuiet_roster (s : State) : (judgeQuiet s).roster = s.roster := (congrArg State.roster (judgeQuiet_frame s) :)
@[simp] theorem judgeQuiet_presence (s : State) : (judgeQuiet s).presence = s.presence := (congrArg State.presence (judgeQuiet_frame s) :)
@[simp] theorem judgeQuiet_pending (s : State) : (judgeQuiet s).pending = s.pending := (congrArg State.pending (judgeQuiet_frame s) :)
@[simp] theorem judgeQuiet_fresh (s : State) : (judgeQuiet s).fresh = s.fresh := (congrArg State.fresh (judgeQuiet_frame s) :)

/-! `enterDrain` -/

theorem enterDrain_frame (s : State) :
    enterDrain s = { s with cond := (enterDrain s).cond, joinTimer := (enterDrain s).joinTimer, drainTimer := (enterDrain s).drainTimer, drainEnded := (enterDrain s).drainEnded, hailTimer := (enterDrain s).hailTimer, ask := (enterDrain s).ask, offer := (enterDrain s).offer, walkerTimer := (enterDrain s).walkerTimer, link := (enterDrain s).link, buffer := (enterDrain s).buffer, faults := (enterDrain s).faults, attention := (enterDrain s).attention, tasks := (enterDrain s).tasks } := by
  unfold enterDrain; rw [judgeQuiet_frame, yieldOffer_frame]
@[simp] theorem enterDrain_mm (s : State) : (enterDrain s).mm = s.mm := (congrArg State.mm (enterDrain_frame s) :)
@[simp] theorem enterDrain_inflight (s : State) : (enterDrain s).inflight = s.inflight := (congrArg State.inflight (enterDrain_frame s) :)
@[simp] theorem enterDrain_powered (s : State) : (enterDrain s).powered = s.powered := (congrArg State.powered (enterDrain_frame s) :)
@[simp] theorem enterDrain_now (s : State) : (enterDrain s).now = s.now := (congrArg State.now (enterDrain_frame s) :)
@[simp] theorem enterDrain_own (s : State) : (enterDrain s).own = s.own := (congrArg State.own (enterDrain_frame s) :)
@[simp] theorem enterDrain_profile (s : State) : (enterDrain s).profile = s.profile := (congrArg State.profile (enterDrain_frame s) :)
@[simp] theorem enterDrain_roster (s : State) : (enterDrain s).roster = s.roster := (congrArg State.roster (enterDrain_frame s) :)
@[simp] theorem enterDrain_presence (s : State) : (enterDrain s).presence = s.presence := (congrArg State.presence (enterDrain_frame s) :)
@[simp] theorem enterDrain_pending (s : State) : (enterDrain s).pending = s.pending := (congrArg State.pending (enterDrain_frame s) :)
@[simp] theorem enterDrain_fresh (s : State) : (enterDrain s).fresh = s.fresh := (congrArg State.fresh (enterDrain_frame s) :)

/-! `judgeService` -/

theorem judgeService_frame (s : State) :
    judgeService s = { s with cond := (judgeService s).cond, joinTimer := (judgeService s).joinTimer, drainTimer := (judgeService s).drainTimer, drainEnded := (judgeService s).drainEnded, hailTimer := (judgeService s).hailTimer, ask := (judgeService s).ask, offer := (judgeService s).offer, walkerTimer := (judgeService s).walkerTimer, link := (judgeService s).link, buffer := (judgeService s).buffer, faults := (judgeService s).faults, attention := (judgeService s).attention, tasks := (judgeService s).tasks } := by
  unfold judgeService; split
  · exact enterDrain_frame s
  · rfl
@[simp] theorem judgeService_mm (s : State) : (judgeService s).mm = s.mm := (congrArg State.mm (judgeService_frame s) :)
@[simp] theorem judgeService_inflight (s : State) : (judgeService s).inflight = s.inflight := (congrArg State.inflight (judgeService_frame s) :)
@[simp] theorem judgeService_powered (s : State) : (judgeService s).powered = s.powered := (congrArg State.powered (judgeService_frame s) :)
@[simp] theorem judgeService_now (s : State) : (judgeService s).now = s.now := (congrArg State.now (judgeService_frame s) :)
@[simp] theorem judgeService_own (s : State) : (judgeService s).own = s.own := (congrArg State.own (judgeService_frame s) :)
@[simp] theorem judgeService_profile (s : State) : (judgeService s).profile = s.profile := (congrArg State.profile (judgeService_frame s) :)
@[simp] theorem judgeService_roster (s : State) : (judgeService s).roster = s.roster := (congrArg State.roster (judgeService_frame s) :)
@[simp] theorem judgeService_presence (s : State) : (judgeService s).presence = s.presence := (congrArg State.presence (judgeService_frame s) :)
@[simp] theorem judgeService_pending (s : State) : (judgeService s).pending = s.pending := (congrArg State.pending (judgeService_frame s) :)
@[simp] theorem judgeService_fresh (s : State) : (judgeService s).fresh = s.fresh := (congrArg State.fresh (judgeService_frame s) :)

/-! `enterJoin` -/

theorem enterJoin_frame (o : StartOutcome) (s : State) :
    enterJoin o s = { s with cond := (enterJoin o s).cond, outcome := (enterJoin o s).outcome, joinTimer := (enterJoin o s).joinTimer, servicePin := (enterJoin o s).servicePin, attention := (enterJoin o s).attention } := rfl
@[simp] theorem enterJoin_mm (o : StartOutcome) (s : State) : (enterJoin o s).mm = s.mm := (congrArg State.mm (enterJoin_frame o s) :)
@[simp] theorem enterJoin_inflight (o : StartOutcome) (s : State) : (enterJoin o s).inflight = s.inflight := (congrArg State.inflight (enterJoin_frame o s) :)
@[simp] theorem enterJoin_tasks (o : StartOutcome) (s : State) : (enterJoin o s).tasks = s.tasks := (congrArg State.tasks (enterJoin_frame o s) :)
@[simp] theorem enterJoin_powered (o : StartOutcome) (s : State) : (enterJoin o s).powered = s.powered := (congrArg State.powered (enterJoin_frame o s) :)
@[simp] theorem enterJoin_now (o : StartOutcome) (s : State) : (enterJoin o s).now = s.now := (congrArg State.now (enterJoin_frame o s) :)
@[simp] theorem enterJoin_own (o : StartOutcome) (s : State) : (enterJoin o s).own = s.own := (congrArg State.own (enterJoin_frame o s) :)
@[simp] theorem enterJoin_profile (o : StartOutcome) (s : State) : (enterJoin o s).profile = s.profile := (congrArg State.profile (enterJoin_frame o s) :)
@[simp] theorem enterJoin_roster (o : StartOutcome) (s : State) : (enterJoin o s).roster = s.roster := (congrArg State.roster (enterJoin_frame o s) :)
@[simp] theorem enterJoin_presence (o : StartOutcome) (s : State) : (enterJoin o s).presence = s.presence := (congrArg State.presence (enterJoin_frame o s) :)
@[simp] theorem enterJoin_buffer (o : StartOutcome) (s : State) : (enterJoin o s).buffer = s.buffer := (congrArg State.buffer (enterJoin_frame o s) :)
@[simp] theorem enterJoin_pending (o : StartOutcome) (s : State) : (enterJoin o s).pending = s.pending := (congrArg State.pending (enterJoin_frame o s) :)
@[simp] theorem enterJoin_fresh (o : StartOutcome) (s : State) : (enterJoin o s).fresh = s.fresh := (congrArg State.fresh (enterJoin_frame o s) :)

/-! `endOfferOf` -/

theorem endOfferOf_frame (a : Station) (i : AskId) (s : State) :
    endOfferOf a i s = { s with offer := (endOfferOf a i s).offer } := by
  unfold endOfferOf; repeat' split
  all_goals rfl
@[simp] theorem endOfferOf_mm (a : Station) (i : AskId) (s : State) : (endOfferOf a i s).mm = s.mm := (congrArg State.mm (endOfferOf_frame a i s) :)
@[simp] theorem endOfferOf_inflight (a : Station) (i : AskId) (s : State) : (endOfferOf a i s).inflight = s.inflight := (congrArg State.inflight (endOfferOf_frame a i s) :)
@[simp] theorem endOfferOf_tasks (a : Station) (i : AskId) (s : State) : (endOfferOf a i s).tasks = s.tasks := (congrArg State.tasks (endOfferOf_frame a i s) :)
@[simp] theorem endOfferOf_cond (a : Station) (i : AskId) (s : State) : (endOfferOf a i s).cond = s.cond := (congrArg State.cond (endOfferOf_frame a i s) :)
@[simp] theorem endOfferOf_powered (a : Station) (i : AskId) (s : State) : (endOfferOf a i s).powered = s.powered := (congrArg State.powered (endOfferOf_frame a i s) :)
@[simp] theorem endOfferOf_now (a : Station) (i : AskId) (s : State) : (endOfferOf a i s).now = s.now := (congrArg State.now (endOfferOf_frame a i s) :)
@[simp] theorem endOfferOf_own (a : Station) (i : AskId) (s : State) : (endOfferOf a i s).own = s.own := (congrArg State.own (endOfferOf_frame a i s) :)
@[simp] theorem endOfferOf_profile (a : Station) (i : AskId) (s : State) : (endOfferOf a i s).profile = s.profile := (congrArg State.profile (endOfferOf_frame a i s) :)
@[simp] theorem endOfferOf_roster (a : Station) (i : AskId) (s : State) : (endOfferOf a i s).roster = s.roster := (congrArg State.roster (endOfferOf_frame a i s) :)
@[simp] theorem endOfferOf_presence (a : Station) (i : AskId) (s : State) : (endOfferOf a i s).presence = s.presence := (congrArg State.presence (endOfferOf_frame a i s) :)
@[simp] theorem endOfferOf_buffer (a : Station) (i : AskId) (s : State) : (endOfferOf a i s).buffer = s.buffer := (congrArg State.buffer (endOfferOf_frame a i s) :)
@[simp] theorem endOfferOf_pending (a : Station) (i : AskId) (s : State) : (endOfferOf a i s).pending = s.pending := (congrArg State.pending (endOfferOf_frame a i s) :)
@[simp] theorem endOfferOf_fresh (a : Station) (i : AskId) (s : State) : (endOfferOf a i s).fresh = s.fresh := (congrArg State.fresh (endOfferOf_frame a i s) :)

/-! `sendGranted` -/

theorem sendGranted_frame (b : Station) (i : AskId) (rs : List GrantRecord) (s : State) :
    sendGranted b i rs s = { s with offer := (sendGranted b i rs s).offer, lastGrants := (sendGranted b i rs s).lastGrants, link := (sendGranted b i rs s).link, faults := (sendGranted b i rs s).faults, attention := (sendGranted b i rs s).attention } := by
  unfold sendGranted; simp only; rw [endOfferOf_frame]; cases h : offerFrame _ _ with
  | none => simp only [Option.getD_none]; rw [report_frame]; rfl
  | some t => rw [(offerFrame_some h).2.2.2]; rfl
@[simp] theorem sendGranted_mm (b : Station) (i : AskId) (rs : List GrantRecord) (s : State) : (sendGranted b i rs s).mm = s.mm := (congrArg State.mm (sendGranted_frame b i rs s) :)
@[simp] theorem sendGranted_inflight (b : Station) (i : AskId) (rs : List GrantRecord) (s : State) : (sendGranted b i rs s).inflight = s.inflight := (congrArg State.inflight (sendGranted_frame b i rs s) :)
@[simp] theorem sendGranted_tasks (b : Station) (i : AskId) (rs : List GrantRecord) (s : State) : (sendGranted b i rs s).tasks = s.tasks := (congrArg State.tasks (sendGranted_frame b i rs s) :)
@[simp] theorem sendGranted_cond (b : Station) (i : AskId) (rs : List GrantRecord) (s : State) : (sendGranted b i rs s).cond = s.cond := (congrArg State.cond (sendGranted_frame b i rs s) :)
@[simp] theorem sendGranted_powered (b : Station) (i : AskId) (rs : List GrantRecord) (s : State) : (sendGranted b i rs s).powered = s.powered := (congrArg State.powered (sendGranted_frame b i rs s) :)
@[simp] theorem sendGranted_now (b : Station) (i : AskId) (rs : List GrantRecord) (s : State) : (sendGranted b i rs s).now = s.now := (congrArg State.now (sendGranted_frame b i rs s) :)
@[simp] theorem sendGranted_own (b : Station) (i : AskId) (rs : List GrantRecord) (s : State) : (sendGranted b i rs s).own = s.own := (congrArg State.own (sendGranted_frame b i rs s) :)
@[simp] theorem sendGranted_profile (b : Station) (i : AskId) (rs : List GrantRecord) (s : State) : (sendGranted b i rs s).profile = s.profile := (congrArg State.profile (sendGranted_frame b i rs s) :)
@[simp] theorem sendGranted_roster (b : Station) (i : AskId) (rs : List GrantRecord) (s : State) : (sendGranted b i rs s).roster = s.roster := (congrArg State.roster (sendGranted_frame b i rs s) :)
@[simp] theorem sendGranted_presence (b : Station) (i : AskId) (rs : List GrantRecord) (s : State) : (sendGranted b i rs s).presence = s.presence := (congrArg State.presence (sendGranted_frame b i rs s) :)
@[simp] theorem sendGranted_buffer (b : Station) (i : AskId) (rs : List GrantRecord) (s : State) : (sendGranted b i rs s).buffer = s.buffer := (congrArg State.buffer (sendGranted_frame b i rs s) :)
@[simp] theorem sendGranted_pending (b : Station) (i : AskId) (rs : List GrantRecord) (s : State) : (sendGranted b i rs s).pending = s.pending := (congrArg State.pending (sendGranted_frame b i rs s) :)
@[simp] theorem sendGranted_fresh (b : Station) (i : AskId) (rs : List GrantRecord) (s : State) : (sendGranted b i rs s).fresh = s.fresh := (congrArg State.fresh (sendGranted_frame b i rs s) :)

/-! `failAskOf` -/

theorem failAskOf_frame (st : Station) (s : State) :
    failAskOf st s = { s with ask := (failAskOf st s).ask, faults := (failAskOf st s).faults } := by
  unfold failAskOf; split
  · exact failAsk_frame s
  · rfl
@[simp] theorem failAskOf_mm (st : Station) (s : State) : (failAskOf st s).mm = s.mm := (congrArg State.mm (failAskOf_frame st s) :)
@[simp] theorem failAskOf_inflight (st : Station) (s : State) : (failAskOf st s).inflight = s.inflight := (congrArg State.inflight (failAskOf_frame st s) :)
@[simp] theorem failAskOf_tasks (st : Station) (s : State) : (failAskOf st s).tasks = s.tasks := (congrArg State.tasks (failAskOf_frame st s) :)
@[simp] theorem failAskOf_cond (st : Station) (s : State) : (failAskOf st s).cond = s.cond := (congrArg State.cond (failAskOf_frame st s) :)
@[simp] theorem failAskOf_powered (st : Station) (s : State) : (failAskOf st s).powered = s.powered := (congrArg State.powered (failAskOf_frame st s) :)
@[simp] theorem failAskOf_now (st : Station) (s : State) : (failAskOf st s).now = s.now := (congrArg State.now (failAskOf_frame st s) :)
@[simp] theorem failAskOf_own (st : Station) (s : State) : (failAskOf st s).own = s.own := (congrArg State.own (failAskOf_frame st s) :)
@[simp] theorem failAskOf_profile (st : Station) (s : State) : (failAskOf st s).profile = s.profile := (congrArg State.profile (failAskOf_frame st s) :)
@[simp] theorem failAskOf_roster (st : Station) (s : State) : (failAskOf st s).roster = s.roster := (congrArg State.roster (failAskOf_frame st s) :)
@[simp] theorem failAskOf_presence (st : Station) (s : State) : (failAskOf st s).presence = s.presence := (congrArg State.presence (failAskOf_frame st s) :)
@[simp] theorem failAskOf_buffer (st : Station) (s : State) : (failAskOf st s).buffer = s.buffer := (congrArg State.buffer (failAskOf_frame st s) :)
@[simp] theorem failAskOf_pending (st : Station) (s : State) : (failAskOf st s).pending = s.pending := (congrArg State.pending (failAskOf_frame st s) :)
@[simp] theorem failAskOf_fresh (st : Station) (s : State) : (failAskOf st s).fresh = s.fresh := (congrArg State.fresh (failAskOf_frame st s) :)

/-! `stopOfferTo` -/

theorem stopOfferTo_frame (st : Station) (s : State) :
    stopOfferTo st s = { s with offer := (stopOfferTo st s).offer, link := (stopOfferTo st s).link } := by
  unfold stopOfferTo; split
  · exact stopOffer_frame s
  · rfl
@[simp] theorem stopOfferTo_mm (st : Station) (s : State) : (stopOfferTo st s).mm = s.mm := (congrArg State.mm (stopOfferTo_frame st s) :)
@[simp] theorem stopOfferTo_inflight (st : Station) (s : State) : (stopOfferTo st s).inflight = s.inflight := (congrArg State.inflight (stopOfferTo_frame st s) :)
@[simp] theorem stopOfferTo_tasks (st : Station) (s : State) : (stopOfferTo st s).tasks = s.tasks := (congrArg State.tasks (stopOfferTo_frame st s) :)
@[simp] theorem stopOfferTo_cond (st : Station) (s : State) : (stopOfferTo st s).cond = s.cond := (congrArg State.cond (stopOfferTo_frame st s) :)
@[simp] theorem stopOfferTo_powered (st : Station) (s : State) : (stopOfferTo st s).powered = s.powered := (congrArg State.powered (stopOfferTo_frame st s) :)
@[simp] theorem stopOfferTo_now (st : Station) (s : State) : (stopOfferTo st s).now = s.now := (congrArg State.now (stopOfferTo_frame st s) :)
@[simp] theorem stopOfferTo_own (st : Station) (s : State) : (stopOfferTo st s).own = s.own := (congrArg State.own (stopOfferTo_frame st s) :)
@[simp] theorem stopOfferTo_profile (st : Station) (s : State) : (stopOfferTo st s).profile = s.profile := (congrArg State.profile (stopOfferTo_frame st s) :)
@[simp] theorem stopOfferTo_roster (st : Station) (s : State) : (stopOfferTo st s).roster = s.roster := (congrArg State.roster (stopOfferTo_frame st s) :)
@[simp] theorem stopOfferTo_presence (st : Station) (s : State) : (stopOfferTo st s).presence = s.presence := (congrArg State.presence (stopOfferTo_frame st s) :)
@[simp] theorem stopOfferTo_buffer (st : Station) (s : State) : (stopOfferTo st s).buffer = s.buffer := (congrArg State.buffer (stopOfferTo_frame st s) :)
@[simp] theorem stopOfferTo_pending (st : Station) (s : State) : (stopOfferTo st s).pending = s.pending := (congrArg State.pending (stopOfferTo_frame st s) :)
@[simp] theorem stopOfferTo_fresh (st : Station) (s : State) : (stopOfferTo st s).fresh = s.fresh := (congrArg State.fresh (stopOfferTo_frame st s) :)

/-! `reportStale` -/

theorem reportStale_frame (n : Nat) (s : State) :
    reportStale n s = { s with link := (reportStale n s).link, faults := (reportStale n s).faults, attention := (reportStale n s).attention } := by
  induction n generalizing s with
  | zero => rfl
  | succ n ih => unfold reportStale; rw [ih, report_frame]; rfl
@[simp] theorem reportStale_mm (n : Nat) (s : State) : (reportStale n s).mm = s.mm := (congrArg State.mm (reportStale_frame n s) :)
@[simp] theorem reportStale_inflight (n : Nat) (s : State) : (reportStale n s).inflight = s.inflight := (congrArg State.inflight (reportStale_frame n s) :)
@[simp] theorem reportStale_tasks (n : Nat) (s : State) : (reportStale n s).tasks = s.tasks := (congrArg State.tasks (reportStale_frame n s) :)
@[simp] theorem reportStale_cond (n : Nat) (s : State) : (reportStale n s).cond = s.cond := (congrArg State.cond (reportStale_frame n s) :)
@[simp] theorem reportStale_powered (n : Nat) (s : State) : (reportStale n s).powered = s.powered := (congrArg State.powered (reportStale_frame n s) :)
@[simp] theorem reportStale_now (n : Nat) (s : State) : (reportStale n s).now = s.now := (congrArg State.now (reportStale_frame n s) :)
@[simp] theorem reportStale_own (n : Nat) (s : State) : (reportStale n s).own = s.own := (congrArg State.own (reportStale_frame n s) :)
@[simp] theorem reportStale_profile (n : Nat) (s : State) : (reportStale n s).profile = s.profile := (congrArg State.profile (reportStale_frame n s) :)
@[simp] theorem reportStale_roster (n : Nat) (s : State) : (reportStale n s).roster = s.roster := (congrArg State.roster (reportStale_frame n s) :)
@[simp] theorem reportStale_presence (n : Nat) (s : State) : (reportStale n s).presence = s.presence := (congrArg State.presence (reportStale_frame n s) :)
@[simp] theorem reportStale_buffer (n : Nat) (s : State) : (reportStale n s).buffer = s.buffer := (congrArg State.buffer (reportStale_frame n s) :)
@[simp] theorem reportStale_pending (n : Nat) (s : State) : (reportStale n s).pending = s.pending := (congrArg State.pending (reportStale_frame n s) :)
@[simp] theorem reportStale_fresh (n : Nat) (s : State) : (reportStale n s).fresh = s.fresh := (congrArg State.fresh (reportStale_frame n s) :)

/-! `reportDataLost` -/

theorem reportDataLost_frame (st : Station) (e : Epoch) (s : State) :
    reportDataLost st e s = { s with link := (reportDataLost st e s).link, faults := (reportDataLost st e s).faults, attention := (reportDataLost st e s).attention } := by
  unfold reportDataLost; simp only; split
  · exact report_frame _ _
  · rfl
@[simp] theorem reportDataLost_mm (st : Station) (e : Epoch) (s : State) : (reportDataLost st e s).mm = s.mm := (congrArg State.mm (reportDataLost_frame st e s) :)
@[simp] theorem reportDataLost_inflight (st : Station) (e : Epoch) (s : State) : (reportDataLost st e s).inflight = s.inflight := (congrArg State.inflight (reportDataLost_frame st e s) :)
@[simp] theorem reportDataLost_tasks (st : Station) (e : Epoch) (s : State) : (reportDataLost st e s).tasks = s.tasks := (congrArg State.tasks (reportDataLost_frame st e s) :)
@[simp] theorem reportDataLost_cond (st : Station) (e : Epoch) (s : State) : (reportDataLost st e s).cond = s.cond := (congrArg State.cond (reportDataLost_frame st e s) :)
@[simp] theorem reportDataLost_powered (st : Station) (e : Epoch) (s : State) : (reportDataLost st e s).powered = s.powered := (congrArg State.powered (reportDataLost_frame st e s) :)
@[simp] theorem reportDataLost_now (st : Station) (e : Epoch) (s : State) : (reportDataLost st e s).now = s.now := (congrArg State.now (reportDataLost_frame st e s) :)
@[simp] theorem reportDataLost_own (st : Station) (e : Epoch) (s : State) : (reportDataLost st e s).own = s.own := (congrArg State.own (reportDataLost_frame st e s) :)
@[simp] theorem reportDataLost_profile (st : Station) (e : Epoch) (s : State) : (reportDataLost st e s).profile = s.profile := (congrArg State.profile (reportDataLost_frame st e s) :)
@[simp] theorem reportDataLost_roster (st : Station) (e : Epoch) (s : State) : (reportDataLost st e s).roster = s.roster := (congrArg State.roster (reportDataLost_frame st e s) :)
@[simp] theorem reportDataLost_presence (st : Station) (e : Epoch) (s : State) : (reportDataLost st e s).presence = s.presence := (congrArg State.presence (reportDataLost_frame st e s) :)
@[simp] theorem reportDataLost_buffer (st : Station) (e : Epoch) (s : State) : (reportDataLost st e s).buffer = s.buffer := (congrArg State.buffer (reportDataLost_frame st e s) :)
@[simp] theorem reportDataLost_pending (st : Station) (e : Epoch) (s : State) : (reportDataLost st e s).pending = s.pending := (congrArg State.pending (reportDataLost_frame st e s) :)
@[simp] theorem reportDataLost_fresh (st : Station) (e : Epoch) (s : State) : (reportDataLost st e s).fresh = s.fresh := (congrArg State.fresh (reportDataLost_frame st e s) :)

/-! `emptyLastGrantOf` -/

theorem emptyLastGrantOf_frame (st : Station) (s : State) :
    emptyLastGrantOf st s = { s with lastGrants := (emptyLastGrantOf st s).lastGrants } := rfl
@[simp] theorem emptyLastGrantOf_mm (st : Station) (s : State) : (emptyLastGrantOf st s).mm = s.mm := (congrArg State.mm (emptyLastGrantOf_frame st s) :)
@[simp] theorem emptyLastGrantOf_inflight (st : Station) (s : State) : (emptyLastGrantOf st s).inflight = s.inflight := (congrArg State.inflight (emptyLastGrantOf_frame st s) :)
@[simp] theorem emptyLastGrantOf_tasks (st : Station) (s : State) : (emptyLastGrantOf st s).tasks = s.tasks := (congrArg State.tasks (emptyLastGrantOf_frame st s) :)
@[simp] theorem emptyLastGrantOf_cond (st : Station) (s : State) : (emptyLastGrantOf st s).cond = s.cond := (congrArg State.cond (emptyLastGrantOf_frame st s) :)
@[simp] theorem emptyLastGrantOf_powered (st : Station) (s : State) : (emptyLastGrantOf st s).powered = s.powered := (congrArg State.powered (emptyLastGrantOf_frame st s) :)
@[simp] theorem emptyLastGrantOf_now (st : Station) (s : State) : (emptyLastGrantOf st s).now = s.now := (congrArg State.now (emptyLastGrantOf_frame st s) :)
@[simp] theorem emptyLastGrantOf_own (st : Station) (s : State) : (emptyLastGrantOf st s).own = s.own := (congrArg State.own (emptyLastGrantOf_frame st s) :)
@[simp] theorem emptyLastGrantOf_profile (st : Station) (s : State) : (emptyLastGrantOf st s).profile = s.profile := (congrArg State.profile (emptyLastGrantOf_frame st s) :)
@[simp] theorem emptyLastGrantOf_roster (st : Station) (s : State) : (emptyLastGrantOf st s).roster = s.roster := (congrArg State.roster (emptyLastGrantOf_frame st s) :)
@[simp] theorem emptyLastGrantOf_presence (st : Station) (s : State) : (emptyLastGrantOf st s).presence = s.presence := (congrArg State.presence (emptyLastGrantOf_frame st s) :)
@[simp] theorem emptyLastGrantOf_buffer (st : Station) (s : State) : (emptyLastGrantOf st s).buffer = s.buffer := (congrArg State.buffer (emptyLastGrantOf_frame st s) :)
@[simp] theorem emptyLastGrantOf_pending (st : Station) (s : State) : (emptyLastGrantOf st s).pending = s.pending := (congrArg State.pending (emptyLastGrantOf_frame st s) :)
@[simp] theorem emptyLastGrantOf_fresh (st : Station) (s : State) : (emptyLastGrantOf st s).fresh = s.fresh := (congrArg State.fresh (emptyLastGrantOf_frame st s) :)

/-! `hearAsk` -/

theorem hearAsk_frame (st : Station) (i : AskId) (w : Nat) (s : State) :
    hearAsk st i w s = { s with offer := (hearAsk st i w s).offer, link := (hearAsk st i w s).link } := by
  have hj : ∀ u : State, judgeOffer st i w u = { u with offer := (judgeOffer st i w u).offer } := by
    intro u; unfold judgeOffer; simp only; split <;> rfl
  unfold hearAsk; split
  · rw [hj]
  · split
    · rfl
    · simp only; split <;> split <;> first | rfl | (rw [hj, withdrawOffer_frame]) | (rw [withdrawOffer_frame]) | (rw [hj]; rfl)
@[simp] theorem hearAsk_mm (st : Station) (i : AskId) (w : Nat) (s : State) : (hearAsk st i w s).mm = s.mm := (congrArg State.mm (hearAsk_frame st i w s) :)
@[simp] theorem hearAsk_inflight (st : Station) (i : AskId) (w : Nat) (s : State) : (hearAsk st i w s).inflight = s.inflight := (congrArg State.inflight (hearAsk_frame st i w s) :)
@[simp] theorem hearAsk_tasks (st : Station) (i : AskId) (w : Nat) (s : State) : (hearAsk st i w s).tasks = s.tasks := (congrArg State.tasks (hearAsk_frame st i w s) :)
@[simp] theorem hearAsk_cond (st : Station) (i : AskId) (w : Nat) (s : State) : (hearAsk st i w s).cond = s.cond := (congrArg State.cond (hearAsk_frame st i w s) :)
@[simp] theorem hearAsk_powered (st : Station) (i : AskId) (w : Nat) (s : State) : (hearAsk st i w s).powered = s.powered := (congrArg State.powered (hearAsk_frame st i w s) :)
@[simp] theorem hearAsk_now (st : Station) (i : AskId) (w : Nat) (s : State) : (hearAsk st i w s).now = s.now := (congrArg State.now (hearAsk_frame st i w s) :)
@[simp] theorem hearAsk_own (st : Station) (i : AskId) (w : Nat) (s : State) : (hearAsk st i w s).own = s.own := (congrArg State.own (hearAsk_frame st i w s) :)
@[simp] theorem hearAsk_profile (st : Station) (i : AskId) (w : Nat) (s : State) : (hearAsk st i w s).profile = s.profile := (congrArg State.profile (hearAsk_frame st i w s) :)
@[simp] theorem hearAsk_roster (st : Station) (i : AskId) (w : Nat) (s : State) : (hearAsk st i w s).roster = s.roster := (congrArg State.roster (hearAsk_frame st i w s) :)
@[simp] theorem hearAsk_presence (st : Station) (i : AskId) (w : Nat) (s : State) : (hearAsk st i w s).presence = s.presence := (congrArg State.presence (hearAsk_frame st i w s) :)
@[simp] theorem hearAsk_buffer (st : Station) (i : AskId) (w : Nat) (s : State) : (hearAsk st i w s).buffer = s.buffer := (congrArg State.buffer (hearAsk_frame st i w s) :)
@[simp] theorem hearAsk_pending (st : Station) (i : AskId) (w : Nat) (s : State) : (hearAsk st i w s).pending = s.pending := (congrArg State.pending (hearAsk_frame st i w s) :)
@[simp] theorem hearAsk_fresh (st : Station) (i : AskId) (w : Nat) (s : State) : (hearAsk st i w s).fresh = s.fresh := (congrArg State.fresh (hearAsk_frame st i w s) :)

/-! `takeOffer` -/

theorem takeOffer_frame (st : Station) (n : Nat) (s : State) :
    takeOffer st n s = { s with ask := (takeOffer st n s).ask, link := (takeOffer st n s).link, faults := (takeOffer st n s).faults } := by
  unfold takeOffer; simp only; cases h : offerFrame _ _ with
  | none => rfl
  | some t => rw [(offerFrame_some h).2.2.2]; rfl
@[simp] theorem takeOffer_mm (st : Station) (n : Nat) (s : State) : (takeOffer st n s).mm = s.mm := (congrArg State.mm (takeOffer_frame st n s) :)
@[simp] theorem takeOffer_inflight (st : Station) (n : Nat) (s : State) : (takeOffer st n s).inflight = s.inflight := (congrArg State.inflight (takeOffer_frame st n s) :)
@[simp] theorem takeOffer_tasks (st : Station) (n : Nat) (s : State) : (takeOffer st n s).tasks = s.tasks := (congrArg State.tasks (takeOffer_frame st n s) :)
@[simp] theorem takeOffer_cond (st : Station) (n : Nat) (s : State) : (takeOffer st n s).cond = s.cond := (congrArg State.cond (takeOffer_frame st n s) :)
@[simp] theorem takeOffer_powered (st : Station) (n : Nat) (s : State) : (takeOffer st n s).powered = s.powered := (congrArg State.powered (takeOffer_frame st n s) :)
@[simp] theorem takeOffer_now (st : Station) (n : Nat) (s : State) : (takeOffer st n s).now = s.now := (congrArg State.now (takeOffer_frame st n s) :)
@[simp] theorem takeOffer_own (st : Station) (n : Nat) (s : State) : (takeOffer st n s).own = s.own := (congrArg State.own (takeOffer_frame st n s) :)
@[simp] theorem takeOffer_profile (st : Station) (n : Nat) (s : State) : (takeOffer st n s).profile = s.profile := (congrArg State.profile (takeOffer_frame st n s) :)
@[simp] theorem takeOffer_roster (st : Station) (n : Nat) (s : State) : (takeOffer st n s).roster = s.roster := (congrArg State.roster (takeOffer_frame st n s) :)
@[simp] theorem takeOffer_presence (st : Station) (n : Nat) (s : State) : (takeOffer st n s).presence = s.presence := (congrArg State.presence (takeOffer_frame st n s) :)
@[simp] theorem takeOffer_buffer (st : Station) (n : Nat) (s : State) : (takeOffer st n s).buffer = s.buffer := (congrArg State.buffer (takeOffer_frame st n s) :)
@[simp] theorem takeOffer_pending (st : Station) (n : Nat) (s : State) : (takeOffer st n s).pending = s.pending := (congrArg State.pending (takeOffer_frame st n s) :)
@[simp] theorem takeOffer_fresh (st : Station) (n : Nat) (s : State) : (takeOffer st n s).fresh = s.fresh := (congrArg State.fresh (takeOffer_frame st n s) :)

/-! `rivalOffer` -/

theorem rivalOffer_frame (st : Station) (i : AskId) (a : Station) (s : State) :
    rivalOffer st i a s = { s with offer := (rivalOffer st i a s).offer, link := (rivalOffer st i a s).link } := by
  unfold rivalOffer; split
  · split
    · rfl
    · rw [withdrawOffer_frame]
    · rfl
  · rfl
@[simp] theorem rivalOffer_mm (st : Station) (i : AskId) (a : Station) (s : State) : (rivalOffer st i a s).mm = s.mm := (congrArg State.mm (rivalOffer_frame st i a s) :)
@[simp] theorem rivalOffer_inflight (st : Station) (i : AskId) (a : Station) (s : State) : (rivalOffer st i a s).inflight = s.inflight := (congrArg State.inflight (rivalOffer_frame st i a s) :)
@[simp] theorem rivalOffer_tasks (st : Station) (i : AskId) (a : Station) (s : State) : (rivalOffer st i a s).tasks = s.tasks := (congrArg State.tasks (rivalOffer_frame st i a s) :)
@[simp] theorem rivalOffer_cond (st : Station) (i : AskId) (a : Station) (s : State) : (rivalOffer st i a s).cond = s.cond := (congrArg State.cond (rivalOffer_frame st i a s) :)
@[simp] theorem rivalOffer_powered (st : Station) (i : AskId) (a : Station) (s : State) : (rivalOffer st i a s).powered = s.powered := (congrArg State.powered (rivalOffer_frame st i a s) :)
@[simp] theorem rivalOffer_now (st : Station) (i : AskId) (a : Station) (s : State) : (rivalOffer st i a s).now = s.now := (congrArg State.now (rivalOffer_frame st i a s) :)
@[simp] theorem rivalOffer_own (st : Station) (i : AskId) (a : Station) (s : State) : (rivalOffer st i a s).own = s.own := (congrArg State.own (rivalOffer_frame st i a s) :)
@[simp] theorem rivalOffer_profile (st : Station) (i : AskId) (a : Station) (s : State) : (rivalOffer st i a s).profile = s.profile := (congrArg State.profile (rivalOffer_frame st i a s) :)
@[simp] theorem rivalOffer_roster (st : Station) (i : AskId) (a : Station) (s : State) : (rivalOffer st i a s).roster = s.roster := (congrArg State.roster (rivalOffer_frame st i a s) :)
@[simp] theorem rivalOffer_presence (st : Station) (i : AskId) (a : Station) (s : State) : (rivalOffer st i a s).presence = s.presence := (congrArg State.presence (rivalOffer_frame st i a s) :)
@[simp] theorem rivalOffer_buffer (st : Station) (i : AskId) (a : Station) (s : State) : (rivalOffer st i a s).buffer = s.buffer := (congrArg State.buffer (rivalOffer_frame st i a s) :)
@[simp] theorem rivalOffer_pending (st : Station) (i : AskId) (a : Station) (s : State) : (rivalOffer st i a s).pending = s.pending := (congrArg State.pending (rivalOffer_frame st i a s) :)
@[simp] theorem rivalOffer_fresh (st : Station) (i : AskId) (a : Station) (s : State) : (rivalOffer st i a s).fresh = s.fresh := (congrArg State.fresh (rivalOffer_frame st i a s) :)

/-! `hearOffer` -/

theorem hearOffer_frame (st : Station) (i : AskId) (a : Station) (n : Nat) (s : State) :
    hearOffer st i a n s = { s with ask := (hearOffer st i a n s).ask, offer := (hearOffer st i a n s).offer, link := (hearOffer st i a n s).link, faults := (hearOffer st i a n s).faults } := by
  unfold hearOffer; rw [rivalOffer_frame]; split
  · rw [takeOffer_frame]
  · rfl
@[simp] theorem hearOffer_mm (st : Station) (i : AskId) (a : Station) (n : Nat) (s : State) : (hearOffer st i a n s).mm = s.mm := (congrArg State.mm (hearOffer_frame st i a n s) :)
@[simp] theorem hearOffer_inflight (st : Station) (i : AskId) (a : Station) (n : Nat) (s : State) : (hearOffer st i a n s).inflight = s.inflight := (congrArg State.inflight (hearOffer_frame st i a n s) :)
@[simp] theorem hearOffer_tasks (st : Station) (i : AskId) (a : Station) (n : Nat) (s : State) : (hearOffer st i a n s).tasks = s.tasks := (congrArg State.tasks (hearOffer_frame st i a n s) :)
@[simp] theorem hearOffer_cond (st : Station) (i : AskId) (a : Station) (n : Nat) (s : State) : (hearOffer st i a n s).cond = s.cond := (congrArg State.cond (hearOffer_frame st i a n s) :)
@[simp] theorem hearOffer_powered (st : Station) (i : AskId) (a : Station) (n : Nat) (s : State) : (hearOffer st i a n s).powered = s.powered := (congrArg State.powered (hearOffer_frame st i a n s) :)
@[simp] theorem hearOffer_now (st : Station) (i : AskId) (a : Station) (n : Nat) (s : State) : (hearOffer st i a n s).now = s.now := (congrArg State.now (hearOffer_frame st i a n s) :)
@[simp] theorem hearOffer_own (st : Station) (i : AskId) (a : Station) (n : Nat) (s : State) : (hearOffer st i a n s).own = s.own := (congrArg State.own (hearOffer_frame st i a n s) :)
@[simp] theorem hearOffer_profile (st : Station) (i : AskId) (a : Station) (n : Nat) (s : State) : (hearOffer st i a n s).profile = s.profile := (congrArg State.profile (hearOffer_frame st i a n s) :)
@[simp] theorem hearOffer_roster (st : Station) (i : AskId) (a : Station) (n : Nat) (s : State) : (hearOffer st i a n s).roster = s.roster := (congrArg State.roster (hearOffer_frame st i a n s) :)
@[simp] theorem hearOffer_presence (st : Station) (i : AskId) (a : Station) (n : Nat) (s : State) : (hearOffer st i a n s).presence = s.presence := (congrArg State.presence (hearOffer_frame st i a n s) :)
@[simp] theorem hearOffer_buffer (st : Station) (i : AskId) (a : Station) (n : Nat) (s : State) : (hearOffer st i a n s).buffer = s.buffer := (congrArg State.buffer (hearOffer_frame st i a n s) :)
@[simp] theorem hearOffer_pending (st : Station) (i : AskId) (a : Station) (n : Nat) (s : State) : (hearOffer st i a n s).pending = s.pending := (congrArg State.pending (hearOffer_frame st i a n s) :)
@[simp] theorem hearOffer_fresh (st : Station) (i : AskId) (a : Station) (n : Nat) (s : State) : (hearOffer st i a n s).fresh = s.fresh := (congrArg State.fresh (hearOffer_frame st i a n s) :)

/-! `hearTakeElsewhere` -/

theorem hearTakeElsewhere_frame (st : Station) (i : AskId) (s : State) :
    hearTakeElsewhere st i s = { s with offer := (hearTakeElsewhere st i s).offer } := by
  unfold hearTakeElsewhere; repeat' split
  all_goals rfl
@[simp] theorem hearTakeElsewhere_mm (st : Station) (i : AskId) (s : State) : (hearTakeElsewhere st i s).mm = s.mm := (congrArg State.mm (hearTakeElsewhere_frame st i s) :)
@[simp] theorem hearTakeElsewhere_inflight (st : Station) (i : AskId) (s : State) : (hearTakeElsewhere st i s).inflight = s.inflight := (congrArg State.inflight (hearTakeElsewhere_frame st i s) :)
@[simp] theorem hearTakeElsewhere_tasks (st : Station) (i : AskId) (s : State) : (hearTakeElsewhere st i s).tasks = s.tasks := (congrArg State.tasks (hearTakeElsewhere_frame st i s) :)
@[simp] theorem hearTakeElsewhere_cond (st : Station) (i : AskId) (s : State) : (hearTakeElsewhere st i s).cond = s.cond := (congrArg State.cond (hearTakeElsewhere_frame st i s) :)
@[simp] theorem hearTakeElsewhere_powered (st : Station) (i : AskId) (s : State) : (hearTakeElsewhere st i s).powered = s.powered := (congrArg State.powered (hearTakeElsewhere_frame st i s) :)
@[simp] theorem hearTakeElsewhere_now (st : Station) (i : AskId) (s : State) : (hearTakeElsewhere st i s).now = s.now := (congrArg State.now (hearTakeElsewhere_frame st i s) :)
@[simp] theorem hearTakeElsewhere_own (st : Station) (i : AskId) (s : State) : (hearTakeElsewhere st i s).own = s.own := (congrArg State.own (hearTakeElsewhere_frame st i s) :)
@[simp] theorem hearTakeElsewhere_profile (st : Station) (i : AskId) (s : State) : (hearTakeElsewhere st i s).profile = s.profile := (congrArg State.profile (hearTakeElsewhere_frame st i s) :)
@[simp] theorem hearTakeElsewhere_roster (st : Station) (i : AskId) (s : State) : (hearTakeElsewhere st i s).roster = s.roster := (congrArg State.roster (hearTakeElsewhere_frame st i s) :)
@[simp] theorem hearTakeElsewhere_presence (st : Station) (i : AskId) (s : State) : (hearTakeElsewhere st i s).presence = s.presence := (congrArg State.presence (hearTakeElsewhere_frame st i s) :)
@[simp] theorem hearTakeElsewhere_buffer (st : Station) (i : AskId) (s : State) : (hearTakeElsewhere st i s).buffer = s.buffer := (congrArg State.buffer (hearTakeElsewhere_frame st i s) :)
@[simp] theorem hearTakeElsewhere_pending (st : Station) (i : AskId) (s : State) : (hearTakeElsewhere st i s).pending = s.pending := (congrArg State.pending (hearTakeElsewhere_frame st i s) :)
@[simp] theorem hearTakeElsewhere_fresh (st : Station) (i : AskId) (s : State) : (hearTakeElsewhere st i s).fresh = s.fresh := (congrArg State.fresh (hearTakeElsewhere_frame st i s) :)

end Sys2Proof.Machine
end

