-- ==== Sys2Proof/Laws/Work.lean ====
section
/-! SUPPORT. How events are carried through: the steps of `work`, the property it keeps, and what of map memory an event can change. -/

namespace Sys2Proof.Machine

/-! ## The steps of `work` -/

theorem work_nil {n : Nat} {fates : List WriteFate} {s : State} (h : s.tasks = []) : work n fates s = s := by
  cases n with
  | zero => rfl
  | succ n => unfold work; split <;> simp_all

theorem work_busy {n : Nat} {fates : List WriteFate} {s : State} (h : s.inflight.isSome = true) : work n fates s = s := by
  cases n with
  | zero => rfl
  | succ n => unfold work; simp [h]

/-- One event that makes no write. -/
theorem work_noWrite {n : Nat} {fates : List WriteFate} {s s' : State} {t : Task} {rest : List Task} (hi : s.inflight = none)
    (ht : s.tasks = t :: rest) (h : takeTask t (withTasks rest s) = (s', none)) :
    work (n + 1) fates s = work n fates s' := by
  conv => lhs; unfold work
  rw [if_neg (by simp [hi]), ht]
  simp only [h]

/-- One event whose write completes, no fate being given for it. -/
theorem work_write {n : Nat} {s s' : State} {t : Task} {rest : List Task} {w : MapWrite} (hi : s.inflight = none)
    (ht : s.tasks = t :: rest) (h : takeTask t (withTasks rest s) = (s', some w)) :
    work (n + 1) [] s = work n [] (completeWrite w s') := by
  conv => lhs; unfold work
  rw [if_neg (by simp [hi]), ht]
  simp only [h]

/-- One event whose write completes. -/
theorem work_completes {n : Nat} {fates : List WriteFate} {s s' : State} {t : Task} {rest : List Task} {w : MapWrite}
    (hi : s.inflight = none) (ht : s.tasks = t :: rest) (h : takeTask t (withTasks rest s) = (s', some w)) :
    work (n + 1) (.completes :: fates) s = work n fates (completeWrite w s') := by
  conv => lhs; unfold work
  rw [if_neg (by simp [hi]), ht]
  simp only [h]

/-- One event whose write fails. -/
theorem work_fails {n : Nat} {fates : List WriteFate} {s s' : State} {t : Task} {rest : List Task} {w : MapWrite}
    (hi : s.inflight = none) (ht : s.tasks = t :: rest) (h : takeTask t (withTasks rest s) = (s', some w)) :
    work (n + 1) (.fails :: fates) s = work n fates (failWrite w s') := by
  conv => lhs; unfold work
  rw [if_neg (by simp [hi]), ht]
  simp only [h]

/-- One event whose write stays in progress. -/
theorem work_stays {n : Nat} {fates : List WriteFate} {s s' : State} {t : Task} {rest : List Task} {w : MapWrite}
    (hi : s.inflight = none) (ht : s.tasks = t :: rest) (h : takeTask t (withTasks rest s) = (s', some w)) :
    work (n + 1) (.staysInProgress :: fates) s = { s' with inflight := some w } := by
  conv => lhs; unfold work
  rw [if_neg (by simp [hi]), ht]
  simp only [h]

/-! The same with the bound left as it is, for taking a few events one after another. -/

theorem work_noWrite' {n : Nat} {fates : List WriteFate} {s s' : State} {t : Task} {rest : List Task} (hn : 0 < n)
    (hi : s.inflight = none) (ht : s.tasks = t :: rest) (h : takeTask t (withTasks rest s) = (s', none)) :
    work n fates s = work (n - 1) fates s' := by
  cases n with
  | zero => omega
  | succ n => exact work_noWrite hi ht h

theorem work_write' {n : Nat} {s s' : State} {t : Task} {rest : List Task} {w : MapWrite} (hn : 0 < n)
    (hi : s.inflight = none) (ht : s.tasks = t :: rest) (h : takeTask t (withTasks rest s) = (s', some w)) :
    work n [] s = work (n - 1) [] (completeWrite w s') := by
  cases n with
  | zero => omega
  | succ n => exact work_write hi ht h

/-- An event is over once nothing is left to take. -/
theorem settle_nil {m : Moment} {s : State} (h : s.tasks = []) : settle m s = s := work_nil h

/-- A property that every event keeps, however its write ends, is kept by `work`. -/
theorem work_keeps {I : State → Prop}
    (hn : ∀ t rest s s', I s → s.inflight = none → s.tasks = t :: rest → takeTask t (withTasks rest s) = (s', none) → I s')
    (hw : ∀ t rest s s' w, I s → s.inflight = none → s.tasks = t :: rest → takeTask t (withTasks rest s) = (s', some w) →
      I (completeWrite w s') ∧ I (failWrite w s') ∧ I { s' with inflight := some w }) :
    ∀ n fates s, I s → I (work n fates s) := by
  intro n
  induction n with
  | zero => intro _ s h; exact h
  | succ n ih =>
    intro fates s h
    cases hi : s.inflight with
    | some w => rwa [work_busy (by simp [hi])]
    | none =>
      cases ht : s.tasks with
      | nil => rwa [work_nil ht]
      | cons t rest =>
        rcases e : takeTask t (withTasks rest s) with ⟨s', o⟩
        cases o with
        | none => rw [work_noWrite hi ht e]; exact ih _ _ (hn t rest s s' h hi ht e)
        | some w =>
          obtain ⟨h1, h2, h3⟩ := hw t rest s s' w h hi ht e
          cases fates with
          | nil => rw [work_write hi ht e]; exact ih _ _ h1
          | cons f fs =>
            cases f with
            | completes => rw [work_completes hi ht e]; exact ih _ _ h1
            | fails => rw [work_fails hi ht e]; exact ih _ _ h2
            | staysInProgress => rw [work_stays hi ht e]; exact h3

/-! ## What an event leaves at once: map memory stays as it was until a write completes -/

/-- An event changes map memory only by the write it makes, and leaves the port free for it. -/
def AtOnce (s : State) (x : Taking) : Prop := x.1.mm = s.mm ∧ (s.inflight = none → x.1.inflight = none)

theorem checkHeader_atOnce (s : State) :
    (checkHeader s).mm = s.mm ∧ (s.inflight = none → (checkHeader s).inflight = none) := by
  unfold checkHeader; split <;> simp

theorem resumeStart_atOnce (s : State) :
    (resumeStart s).mm = s.mm ∧ (s.inflight = none → (resumeStart s).inflight = none) := by
  unfold resumeStart
  exact ⟨(checkHeader_atOnce _).1, fun _ => (checkHeader_atOnce _).2 rfl⟩

theorem takeTask_atOnce (t : Task) (s : State) : AtOnce s (takeTask t s) := by
  cases t with
  | resume =>
    simp only [takeTask, noWrite, AtOnce]
    split
    · exact resumeStart_atOnce _
    · simp
  | lookupWrite a b c d =>
    simp only [takeTask, AtOnce, takeLookupWrite, allocate, answerReserved, noWrite, reserveHandback]
    repeat' split
    all_goals simp
  | takeHeard a b c =>
    simp only [takeTask, AtOnce, takeTake, noWrite]
    repeat' split
    all_goals first | (simp; done) | skip
    all_goals exact offerFrame_getD (P := fun u => u.mm = s.mm ∧ (s.inflight = none → u.inflight = none)) _ _ _ (by simp) (by simp)
  | _ =>
    simp only [takeTask, AtOnce, noWrite, writing, takeCommit, takeTrim, takeVolume, takeRollback, takeMapEvent, takeWalk,
      takeFreeVolume, takeGrant, takeStaleGrant, takeGiveback, takeReturnStep, takeBorrowerEvent, takeLenderEvent, takeFormatHeader,
      takeFormatContents, takeRestartCount, takeStartRollback, takeSweep, answerReserved, raisePool, endStart,
      failStart, failFormat, volumesRead, askSucceeded, emptyLastGrants, reserveHandback]
    repeat' split
    all_goals simp

end Sys2Proof.Machine
end

