-- ==== Sys2Proof/Laws/Memory.lean ====
section
/-! SUPPORT. A law of map memory that every write keeps is kept by every command. -/

namespace Sys2Proof.Machine

/-- A law of map memory that the write of every event keeps. -/
def WritesKeep (law : MapMemory → Prop) : Prop := ∀ t s w, law s.mm → (takeTask t s).2 = some w → law w.image

/-- An operation that changes neither map memory nor the write in progress keeps every law of map memory. -/
theorem memoryHolds_of_eq {law : MapMemory → Prop} {s t : State} (h : memoryHolds law s) (hm : t.mm = s.mm)
    (hi : t.inflight = s.inflight) : memoryHolds law t := by
  unfold memoryHolds at *; rw [hm, hi]; exact h

/-- The same of an operation that may drop the write in progress. -/
theorem memoryHolds_of_none {law : MapMemory → Prop} {s t : State} (h : memoryHolds law s) (hm : t.mm = s.mm)
    (hi : t.inflight = none) : memoryHolds law t := by
  unfold memoryHolds at *; rw [hm, hi]; exact ⟨h.1, by simp⟩

theorem work_memory {law : MapMemory → Prop} (k : WritesKeep law) (n : Nat) (fates : List WriteFate) (s : State)
    (h : memoryHolds law s) : memoryHolds law (work n fates s) := by
  refine work_keeps (I := memoryHolds law) ?_ ?_ n fates s h
  · intro t rest s s' h hi _ e
    have a := takeTask_atOnce t (withTasks rest s)
    rw [e] at a
    exact memoryHolds_of_none h a.1 (a.2 hi)
  · intro t rest s s' w h hi _ e
    have a := takeTask_atOnce t (withTasks rest s)
    have hw : law w.image := k t (withTasks rest s) w h.1 (by rw [e])
    rw [e] at a
    have hs : law s'.mm := a.1 ▸ h.1
    exact ⟨⟨hw, by simp⟩, ⟨hs, by simp⟩, ⟨hs, fun v hv => by cases hv; exact hw⟩⟩

theorem settle_memory {law : MapMemory → Prop} (k : WritesKeep law) (m : Moment) (s : State) (h : memoryHolds law s) :
    memoryHolds law (settle m s) := work_memory k _ _ s h

theorem perform_memory {law : MapMemory → Prop} (k : WritesKeep law) (m : Moment) (ts : List Task) (s : State)
    (h : memoryHolds law s) : memoryHolds law (perform m ts s) := settle_memory k m _ h

theorem settleMemory_law {law : MapMemory → Prop} {s : State} (takes : Bool) (h : memoryHolds law s) : law (settleMemory takes s) := by
  unfold settleMemory
  split
  · rename_i w hw
    split
    · exact h.2 w hw
    · exact h.1
  · exact h.1

theorem fullStart_mm (cause : RestartCause) (pins : StartPins) (rom : Option ProfileRom) (s : State) :
    (fullStart cause pins rom s).mm = s.mm ∧ (fullStart cause pins rom s).inflight = none := by
  have hc : ∀ u : State, u.mm = s.mm → u.inflight = none → (checkHeader u).mm = s.mm ∧ (checkHeader u).inflight = none :=
    fun u hm hi => ⟨(checkHeader_atOnce u).1.trans hm, (checkHeader_atOnce u).2 hi⟩
  have hr : ∀ b u, (reportClamped b u).mm = u.mm ∧ (reportClamped b u).inflight = u.inflight := by
    intro b u; unfold reportClamped; split <;> simp
  unfold fullStart
  simp only
  split
  · simp [hr, blankStart, State.reset]
  · split
    · simp [hr, blankStart, State.reset]
    · exact hc _ (by simp [hr, blankStart]) (by simp [hr, blankStart, State.reset])

theorem fullStart_memory {law : MapMemory → Prop} (cause : RestartCause) (pins : StartPins) (rom : Option ProfileRom) (s : State)
    (h : law s.mm) : memoryHolds law (fullStart cause pins rom s) := by
  obtain ⟨h1, h2⟩ := fullStart_mm cause pins rom s
  refine ⟨?_, fun w hw => ?_⟩
  · rw [h1]; exact h
  · rw [h2] at hw; cases hw

theorem whenOn_memory {law : MapMemory → Prop} {m : Moment} {f : State → State} {s t : State} (h : memoryHolds law s)
    (hf : ∀ u, memoryHolds law u → memoryHolds law (f u)) (he : whenOn m f s = .next t) : memoryHolds law t := by
  unfold whenOn at he
  cases he
  split
  · exact hf _ (memoryHolds_of_eq h rfl rfl)
  · exact h

theorem changeBay_memory {law : MapMemory → Prop} (k : WritesKeep law) (bay : Nat) (p : Bool) (m : Moment) (s : State)
    (h : memoryHolds law s) : memoryHolds law (changeBay bay p m s) := by
  unfold changeBay
  split
  · exact perform_memory k _ _ _ (memoryHolds_of_eq h (by simp) (by simp))
  · exact h

theorem takeRequest_memory {law : MapMemory → Prop} (k : WritesKeep law) {handle : Station → Request → State → Option State}
    {m : Moment} (hh : ∀ a r u v, handle a r u = some v → v.mm = u.mm ∧ v.inflight = u.inflight) (s : State)
    (h : memoryHolds law s) : memoryHolds law (takeRequest handle m s) := by
  unfold takeRequest
  split
  · split
    · exact h
    · split
      · rename_i v hv
        obtain ⟨h1, h2⟩ := hh _ _ _ _ hv
        exact settle_memory k _ _ (memoryHolds_of_eq h h1 h2)
      · exact h
  · exact h

theorem noteSource_mm (a : Station) (s : State) : (noteSource a s).mm = s.mm ∧ (noteSource a s).inflight = s.inflight := by
  unfold noteSource; split <;> simp

theorem hear_memory {law : MapMemory → Prop} (a : Station) (b : Bool) {f : State → State} (s : State) (h : memoryHolds law s)
    (hf : ∀ u, memoryHolds law u → memoryHolds law (f u)) : memoryHolds law (hear a b f s) := by
  unfold hear
  split
  · exact memoryHolds_of_eq h rfl rfl
  · exact hf _ (memoryHolds_of_eq h (noteSource_mm _ _).1 (noteSource_mm _ _).2)

theorem hearMalformed_memory {law : MapMemory → Prop} (a d : Station) (s : State) (h : memoryHolds law s) :
    memoryHolds law (hearMalformed a d s) := hear_memory _ _ _ h fun _ hu => hu

theorem hearAskFrame_memory {law : MapMemory → Prop} (a : Station) (i : AskId) (w : Nat) (s : State) (h : memoryHolds law s) :
    memoryHolds law (hearAskFrame a i w s) := by
  refine hear_memory _ _ _ h fun u hu => ?_
  split
  · exact memoryHolds_of_eq hu (by simp) (by simp)
  · exact hu

theorem hearOfferFrame_memory {law : MapMemory → Prop} (a : Station) (i : AskId) (b : Station) (n : Nat) (s : State)
    (h : memoryHolds law s) : memoryHolds law (hearOfferFrame a i b n s) := by
  refine hear_memory _ _ _ h fun u hu => ?_
  split
  · exact memoryHolds_of_eq hu (by simp) (by simp)
  · exact hu

theorem hearTakeFrame_memory {law : MapMemory → Prop} (k : WritesKeep law) (a d : Station) (i : AskId) (n : Nat) (m : Moment)
    (s : State) (h : memoryHolds law s) : memoryHolds law (hearTakeFrame a d i n m s) := by
  refine hear_memory _ _ _ h fun u hu => ?_
  repeat' split
  all_goals first
    | exact hu
    | exact perform_memory k _ _ _ hu
    | exact memoryHolds_of_eq hu (by simp) (by simp)

theorem hearGrantFrame_memory {law : MapMemory → Prop} (k : WritesKeep law) (a d : Station) (i : AskId) (rs : List GrantRecord)
    (m : Moment) (s : State) (h : memoryHolds law s) : memoryHolds law (hearGrantFrame a d i rs m s) := by
  refine hear_memory _ _ _ h fun u hu => ?_
  split
  · exact perform_memory k _ _ _ hu
  · exact hu

theorem hearGivebackFrame_memory {law : MapMemory → Prop} (k : WritesKeep law) (a d : Station) (ls : List Nat) (m : Moment)
    (s : State) (h : memoryHolds law s) : memoryHolds law (hearGivebackFrame a d ls m s) := by
  refine hear_memory _ _ _ h fun u hu => ?_
  split
  · exact perform_memory k _ _ _ hu
  · exact hu

theorem hearHailFrame_memory {law : MapMemory → Prop} (k : WritesKeep law) (a : Station) (b : HailBody) (m : Moment) (s : State)
    (h : memoryHolds law s) : memoryHolds law (hearHailFrame a b m s) := by
  refine hear_memory _ _ _ h fun u hu => ?_
  unfold hearHail
  repeat' split
  · exact memoryHolds_of_eq hu (by simp) (by simp)
  · exact hu
  · exact hu
  · exact perform_memory k _ _ _ (memoryHolds_of_eq hu rfl rfl)

theorem hearRequester_memory {law : MapMemory → Prop} (f : RawFrame) (s : State) (h : memoryHolds law s) :
    memoryHolds law (hearRequester f s) := by
  unfold hearRequester
  split
  · exact hearMalformed_memory _ _ _ h
  · refine hear_memory _ _ _ h fun u hu => ?_
    split
    · exact memoryHolds_of_eq hu rfl rfl
    · exact hu

theorem hearRaw_memory {law : MapMemory → Prop} (k : WritesKeep law) (f : RawFrame) (m : Moment) (s : State)
    (h : memoryHolds law s) : memoryHolds law (hearRaw f m s) := by
  unfold hearRaw
  split
  · exact memoryHolds_of_eq h rfl rfl
  · split
    · exact hearRequester_memory _ _ h
    · split
      · exact hearAskFrame_memory _ _ _ _ h
      · exact hearOfferFrame_memory _ _ _ _ _ h
      · exact hearTakeFrame_memory k _ _ _ _ _ _ h
      · exact hearGrantFrame_memory k _ _ _ _ _ _ h
      · exact hearGivebackFrame_memory k _ _ _ _ _ h
      · exact hearHailFrame_memory k _ _ _ _ h
      · exact hear_memory _ _ _ h fun _ hu => hu
      · exact hearMalformed_memory _ _ _ h

theorem withAttempt_memory {law : MapMemory → Prop} {f : Hand → State → State} (s : State) (h : memoryHolds law s)
    (hf : ∀ a u, memoryHolds law u → memoryHolds law (f a u)) : memoryHolds law (withAttempt f s) := by
  unfold withAttempt
  repeat' split
  all_goals first | exact h | exact hf _ _ h

theorem leavingGone_mm (b : FrameBody) (s : State) : (leavingGone b s).mm = s.mm ∧ (leavingGone b s).inflight = s.inflight := by
  unfold leavingGone; repeat' split
  all_goals simp

/-- Every command keeps a law of map memory that the write of every event keeps. -/
theorem exec_memory {law : MapMemory → Prop} (k : WritesKeep law) (c : Instr) (s t : State) (h : memoryHolds law s)
    (he : exec c s = .next t) : memoryHolds law t := by
  cases c with
  | powerOn pins rom takes m =>
    cases he
    exact settle_memory k _ _ (fullStart_memory _ _ _ _ (settleMemory_law takes h))
  | resetPin lowFor pins rom takes m =>
    dsimp only [exec, execResetPin] at he
    refine whenOn_memory h (fun u hu => ?_) he
    split
    · exact settle_memory k _ _ (fullStart_memory _ _ _ _ (settleMemory_law takes hu))
    · exact hu
  | powerLoss takes =>
    cases he
    exact ⟨settleMemory_law takes h, by simp [State.reset]⟩
  | bayAbsent bay heldFor m =>
    dsimp only [exec, execBayAbsent] at he
    refine whenOn_memory h (fun u hu => ?_) he
    split
    · exact changeBay_memory k _ _ _ _ (memoryHolds_of_eq hu rfl rfl)
    · exact hu
  | bayPresent bay heldFor m =>
    dsimp only [exec, execBayPresent] at he
    refine whenOn_memory h (fun u hu => ?_) he
    split
    · exact changeBay_memory k _ _ _ _ (memoryHolds_of_eq hu rfl rfl)
    · exact hu
  | serviceAsserted heldFor m =>
    dsimp only [exec, execServiceAsserted] at he
    refine whenOn_memory h (fun u hu => ?_) he
    split
    · split
      · exact settle_memory k _ _ (memoryHolds_of_eq hu (by simp) (by simp))
      · exact memoryHolds_of_eq hu rfl rfl
    · exact hu
  | serviceReleased heldFor lines m =>
    dsimp only [exec, execServiceReleased] at he
    refine whenOn_memory h (fun u hu => ?_) he
    split
    · split
      · exact perform_memory k _ _ _ (memoryHolds_of_eq hu rfl rfl)
      · exact memoryHolds_of_eq hu rfl rfl
    · exact hu
  | requestFrameReceived f m =>
    dsimp only [exec, execRequestFrameReceived] at he
    refine whenOn_memory h (fun u hu => ?_) he
    repeat' split
    · exact memoryHolds_of_eq hu rfl rfl
    · exact hearRequester_memory _ _ hu
    · exact hu
  | ask a i w m =>
    dsimp only [exec, execAsk] at he
    exact whenOn_memory h (fun u hu => hearAskFrame_memory _ _ _ _ hu) he
  | offer a i b n d m =>
    dsimp only [exec, execOffer] at he
    refine whenOn_memory h (fun u hu => ?_) he
    split
    · exact hearOfferFrame_memory _ _ _ _ _ hu
    · exact hearMalformed_memory _ _ _ hu
  | take a d i n m =>
    dsimp only [exec, execTake] at he
    refine whenOn_memory h (fun u hu => ?_) he
    split
    · exact hearTakeFrame_memory k _ _ _ _ _ _ hu
    · exact hearMalformed_memory _ _ _ hu
  | grant a d i rs m =>
    dsimp only [exec, execGrant] at he
    refine whenOn_memory h (fun u hu => ?_) he
    split
    · exact hearGrantFrame_memory k _ _ _ _ _ _ hu
    · exact hearMalformed_memory _ _ _ hu
  | giveback a d r ls m =>
    dsimp only [exec, execGiveback] at he
    refine whenOn_memory h (fun u hu => ?_) he
    split
    · exact hearGivebackFrame_memory k _ _ _ _ _ hu
    · exact hearMalformed_memory _ _ _ hu
  | hail a b m =>
    dsimp only [exec, execHail] at he
    refine whenOn_memory h (fun u hu => ?_) he
    split
    · exact hearHailFrame_memory k _ _ _ _ hu
    · exact hearMalformed_memory _ _ _ hu
  | frameHeard f m =>
    dsimp only [exec, execFrameHeard] at he
    exact whenOn_memory h (fun u hu => hearRaw_memory k _ _ _ hu) he
  | attemptStart m =>
    dsimp only [exec, execAttemptStart] at he
    refine whenOn_memory h (fun u hu => ?_) he
    unfold beginAttempt
    repeat' split
    all_goals exact memoryHolds_of_eq hu rfl rfl
  | arbitrationLost m =>
    dsimp only [exec, execArbitrationLost] at he
    refine whenOn_memory h (fun u hu => withAttempt_memory _ hu fun a v hv => ?_) he
    unfold loseArbitration
    split
    · exact memoryHolds_of_eq hv (by simp) (by simp)
    · exact memoryHolds_of_eq hv rfl rfl
  | frameEnded m =>
    dsimp only [exec, execFrameEnded] at he
    refine whenOn_memory h (fun u hu => withAttempt_memory _ hu fun a v hv => settle_memory k _ _ ?_) he
    unfold toldEnded
    repeat' split
    all_goals first
      | exact memoryHolds_of_eq hv rfl rfl
      | exact memoryHolds_of_eq hv (leavingGone_mm _ _).1 (leavingGone_mm _ _).2
  | attemptFailed m =>
    dsimp only [exec, execAttemptFailed] at he
    refine whenOn_memory h (fun u hu => withAttempt_memory _ hu fun a v hv => settle_memory k _ _ ?_) he
    unfold failAttempt dropFrame
    repeat' split
    · exact memoryHolds_of_eq hv (by simp) (by simp)
    · exact memoryHolds_of_eq hv rfl rfl
    · exact memoryHolds_of_eq hv ((leavingGone_mm _ _).1.trans (by simp)) ((leavingGone_mm _ _).2.trans (by simp))
  | peerAgeExpiry a m =>
    dsimp only [exec, execPeerAgeExpiry] at he
    refine whenOn_memory h (fun u hu => ?_) he
    split
    · exact perform_memory k _ _ _ (memoryHolds_of_eq hu rfl rfl)
    · exact hu
  | joinTimerExpiry m =>
    dsimp only [exec, execJoinTimerExpiry] at he
    refine whenOn_memory h (fun u hu => ?_) he
    split
    · split
      · exact settle_memory k _ _ (memoryHolds_of_eq hu (by simp) (by simp))
      · exact settle_memory k _ _ (memoryHolds_of_eq hu (by simp) (by simp))
    · exact hu
  | mapMemoryWriteCompletion ok m =>
    dsimp only [exec, execMapMemoryWriteCompletion] at he
    refine whenOn_memory h (fun u hu => ?_) he
    split
    · exact hu
    · rename_i w hw
      refine settle_memory k _ _ ?_
      split
      · exact ⟨hu.2 w hw, by simp⟩
      · exact ⟨hu.1, by simp⟩
  | lookupRead m =>
    dsimp only [exec, execLookupRead] at he
    refine whenOn_memory h (takeRequest_memory k fun a r u v hv => ?_) he
    split at hv <;> simp only [Option.some.injEq, reduceCtorEq] at hv
    subst hv; simp
  | lookupWrite m =>
    dsimp only [exec, execLookupWrite] at he
    refine whenOn_memory h (takeRequest_memory k fun a r u v hv => ?_) he
    split at hv <;> simp only [Option.some.injEq, reduceCtorEq] at hv
    subst hv; simp
  | commit m =>
    dsimp only [exec, execCommit] at he
    refine whenOn_memory h (takeRequest_memory k fun a r u v hv => ?_) he
    split at hv <;> simp only [Option.some.injEq, reduceCtorEq] at hv
    subst hv; simp
  | trim m =>
    dsimp only [exec, execTrim] at he
    refine whenOn_memory h (takeRequest_memory k fun a r u v hv => ?_) he
    split at hv <;> simp only [Option.some.injEq, reduceCtorEq] at hv
    subst hv; simp
  | volumeCreate m =>
    dsimp only [exec, execVolumeCreate] at he
    refine whenOn_memory h (takeRequest_memory k fun a r u v hv => ?_) he
    split at hv <;> simp only [Option.some.injEq, reduceCtorEq] at hv
    subst hv; simp
  | volumeDelete m =>
    dsimp only [exec, execVolumeDelete] at he
    refine whenOn_memory h (takeRequest_memory k fun a r u v hv => ?_) he
    split at hv <;> simp only [Option.some.injEq, reduceCtorEq] at hv
    subst hv; simp
  | volumeGrow m =>
    dsimp only [exec, execVolumeGrow] at he
    refine whenOn_memory h (takeRequest_memory k fun a r u v hv => ?_) he
    split at hv <;> simp only [Option.some.injEq, reduceCtorEq] at hv
    subst hv; simp
  | statusPage0 m =>
    dsimp only [exec, execStatusPage0] at he
    refine whenOn_memory h (takeRequest_memory k fun a r u v hv => ?_) he
    split at hv <;> simp only [Option.some.injEq, reduceCtorEq] at hv
    subst hv; simp
  | statusPage1 m =>
    dsimp only [exec, execStatusPage1] at he
    refine whenOn_memory h (takeRequest_memory k fun a r u v hv => ?_) he
    split at hv <;> simp only [Option.some.injEq, reduceCtorEq] at hv
    subst hv; simp
  | clear m =>
    dsimp only [exec, execClear] at he
    refine whenOn_memory h (takeRequest_memory k fun a r u v hv => ?_) he
    split at hv <;> simp only [Option.some.injEq, reduceCtorEq] at hv
    subst hv; simp
  | malformedRequest m =>
    dsimp only [exec, execMalformedRequest] at he
    refine whenOn_memory h (takeRequest_memory k fun a r u v hv => ?_) he
    split at hv <;> simp only [Option.some.injEq, reduceCtorEq] at hv
    all_goals subst hv; simp
  | holdExpiry m =>
    dsimp only [exec, execHoldExpiry] at he
    refine whenOn_memory h (fun u hu => ?_) he
    repeat' split
    all_goals first | exact hu | exact perform_memory k _ _ _ hu
  | walkerPeriod m =>
    dsimp only [exec, execWalkerPeriod] at he
    refine whenOn_memory h (fun u hu => ?_) he
    split
    · exact perform_memory k _ _ _ (memoryHolds_of_eq hu rfl rfl)
    · exact hu
  | offerWindowExpiry m =>
    dsimp only [exec, execOfferWindowExpiry] at he
    refine whenOn_memory h (fun u hu => ?_) he
    split
    · exact memoryHolds_of_eq hu (by simp) (by simp)
    · exact hu
  | grantWaitExpiry m =>
    dsimp only [exec, execGrantWaitExpiry] at he
    refine whenOn_memory h (fun u hu => ?_) he
    split
    · exact memoryHolds_of_eq hu (by simp) (by simp)
    · exact hu
  | backoffExpiry m =>
    dsimp only [exec, execBackoffExpiry] at he
    refine whenOn_memory h (fun u hu => ?_) he
    split
    · exact perform_memory k _ _ _ (memoryHolds_of_eq hu rfl rfl)
    · exact hu
  | offerTimerExpiry m =>
    dsimp only [exec, execOfferTimerExpiry] at he
    refine whenOn_memory h (fun u hu => ?_) he
    repeat' split
    all_goals try exact hu
    · rename_i v hv
      rw [(offerFrame_some hv).2.2.2]
      exact memoryHolds_of_eq hu rfl rfl
  | takeWaitExpiry m =>
    dsimp only [exec, execTakeWaitExpiry] at he
    refine whenOn_memory h (fun u hu => ?_) he
    split
    · exact memoryHolds_of_eq hu rfl rfl
    · exact hu
  | returnStep m =>
    dsimp only [exec, execReturnStep] at he
    exact whenOn_memory h (fun u hu => perform_memory k _ _ _ hu) he
  | hailTimerExpiry m =>
    dsimp only [exec, execHailTimerExpiry] at he
    refine whenOn_memory h (fun u hu => ?_) he
    repeat' split
    all_goals first | exact hu | exact memoryHolds_of_eq hu rfl rfl | exact memoryHolds_of_eq hu (by simp) (by simp)
  | drainTimerExpiry m =>
    dsimp only [exec, execDrainTimerExpiry] at he
    refine whenOn_memory h (fun u hu => ?_) he
    split
    · exact perform_memory k _ _ _ (memoryHolds_of_eq hu rfl rfl)
    · exact hu

/-- Every step keeps such a law. -/
theorem step_memory {law : MapMemory → Prop} (k : WritesKeep law) (s t : State) (h : memoryHolds law s) (he : step s = .next t) :
    memoryHolds law t := by
  unfold step at he
  split at he
  · cases he; exact h
  · rename_i c rest _
    exact exec_memory k c { s with pending := rest } t (memoryHolds_of_eq h rfl rfl) he

end Sys2Proof.Machine
end

