-- ==== Sys2Proof/Laws/Writes.lean ====
section
/-! SUPPORT. What a map memory write can carry: every image an event makes, with what held when it was made. -/

namespace Sys2Proof.Machine

/-- What map memory an allocation starts from: no entry of the chunk, a logically trimmed one disposed of, or a lost one discarded. -/
inductive AllocBase (s : State) (v c : Nat) : MapMemory → Prop
  | noEntry (h : entryOf s.mm v c = none) : AllocBase s v c s.mm
  | disposed (e : Entry) (h : entryOf s.mm v c = some e) (ht : isTrimmed s.mm v c e = true) :
      AllocBase s v c (disposeEntry s.roster s.presence s.mm v c e).mm
  | discarded (e : Entry) (h : entryOf s.mm v c = some e) (hl : s.judge e.place = .lost) : AllocBase s v c (discardEntry s.mm v c e)

/-- The images of map memory that events make. -/
inductive WriteOf (s : State) : MapMemory → Prop
  | allocation (a : Station) (v c tag : Nat) (base : MapMemory) (hc : checkChunk s v c = none) (hb : AllocBase s v c base) :
      WriteOf s (seekGrain s a v c tag base).mm
  | commit (a : Station) (v c tag : Nat) (e : Entry) (x : Time) (hc : checkChunk s v c = none) (he : entryOf s.mm v c = some e)
      (hs : e.state = .pending a tag x) : WriteOf s (removePending (putEntry s.mm v c { e with state := .mapped a tag }) v c)
  | trim (a : Station) (v first count tag : Nat) (hc : checkTrim s v first count = none) :
      WriteOf s { s.mm with trims := s.mm.trims ++ [trimRangeOf s.mm a v first count tag] }
  | create (v size : Nat) (hf : (volumeOf s.mm v).state = .free) (hs : size ≠ 0) :
      WriteOf s (setVolume s.mm v { state := .active, size := clampSize size, count := 0 })
  | grow (v size : Nat) (ha : (volumeOf s.mm v).state = .active) (hs : (volumeOf s.mm v).size < clampSize size) :
      WriteOf s (setVolume s.mm v { volumeOf s.mm v with size := clampSize size })
  | delete (a : Station) (v tag : Nat) (ha : (volumeOf s.mm v).state = .active) (hr : s.mm.trims.length < Config.trimPlaces) :
      WriteOf s
        (setVolume
          { s.mm with
            trims := s.mm.trims ++
              [{ volume := v, first := 0, last := (volumeOf s.mm v).size - 1, cursor := 0, origin := .delete, requester := a,
                 tag := tag }] }
          v { volumeOf s.mm v with state := .retiring })
  | rollback (r : PendingRecord) (hr : r ∈ s.mm.pendings) : WriteOf s (rollbackChunk s.roster s.presence s.mm r.volume r.chunk).mm
  | visit (r : TrimRange) (rest : List TrimRange) (c : Nat) (e : Entry) (ht : s.mm.trims = r :: rest)
      (hn : nextEntry s.mm r = some (c, e)) : WriteOf s (visitEntry r c e s.mm s).mm
  | rangeEnd (r : TrimRange) (rest : List TrimRange) (ht : s.mm.trims = r :: rest) (hn : nextEntry s.mm r = none) :
      WriteOf s { s.mm with trims := rest }
  | freeVolume (v : Nat) : WriteOf s (setVolume s.mm v Volume.none)
  | grants (a : Station) (e : Epoch) (n : Nat) (hn : n ≤ Config.loanNumbers - s.mm.loans.length) :
      WriteOf s
        { s.mm with
          freeSets := (takeGrains s.presence n s.mm.freeSets s.rotor).sets
          loans := (makeLoans a e s.mm.loans (takeGrains s.presence n s.mm.freeSets s.rotor).grains).1 }
  | accept (a : Station) (e : Epoch) (rs : List GrantRecord) : WriteOf s (acceptGrant s.mm a e (judgeGrant s.mm a e s.mm.spares rs))
  | giveback (a : Station) (ls : List Nat) : WriteOf s (judgeGiveback a s.mm ls).mm
  | returnStep (r : ReturnStep) (hr : returnStepOf s.roster s.mm = some r) : WriteOf s r.mm
  | dropSpares (a : Station) (e k : Epoch) (hk : (peerOf s.mm a).known = some k) (hne : k ≠ e) : WriteOf s (dropOldSpares s.mm a e)
  | reclaim (a : Station) (e : Epoch) : WriteOf s (reclaimLoans s.mm a e)
  | formatHeader (h : Header) : WriteOf s { s.mm with header := some h }
  | formatContents : WriteOf s (formatContents s.mm s.profile)
  | restartCount : WriteOf s { s.mm with header := s.mm.header.map fun h => { h with restartCount := saturate h.restartCount } }
  | sweep : WriteOf s (sweepVolumes s.mm)

theorem allocate_write {s : State} {a : Station} {v c tag : Nat} {old : Option Removal} {w : MapWrite}
    (h : (allocate a v c tag old s).2 = some w) : w.image = (seekGrain s a v c tag ((old.map (·.mm)).getD s.mm)).mm := by
  unfold allocate answerReserved noWrite at h
  simp only at h
  repeat' split at h
  all_goals cases h
  rfl

theorem decideWrite_base {s : State} {a : Station} {v c tag : Nat} :
    (decideWrite s a v c tag = .allocates → checkChunk s v c = none ∧ entryOf s.mm v c = none)
      ∧ ∀ old, decideWrite s a v c tag = .replaces old → checkChunk s v c = none ∧ AllocBase s v c old.mm := by
  unfold decideWrite
  cases hc : checkChunk s v c with
  | some st => simp
  | none =>
    cases he : entryOf s.mm v c with
    | none => simp
    | some e =>
      simp only
      refine ⟨fun h => ?_, fun old h => ⟨trivial, ?_⟩⟩
      · unfold placeAnswer at h
        repeat' split at h
        all_goals cases h
      · split at h
        · rename_i ht; cases h; exact .disposed e he ht
        · split at h
          · rename_i hl; cases h; exact .discarded e he hl
          · unfold placeAnswer at h
            repeat' split at h
            all_goals cases h

/-- What seeking a grain makes of map memory. -/
theorem seekGrain_cases (s : State) (a : Station) (v c tag : Nat) (mm : MapMemory) :
    (seekGrain s a v c tag mm).mm = mm
    ∨ (mm.chunks.length < Config.mapPlaces ∧ mm.pendings.length < Config.pendingPlaces ∧
        ((∃ b g rest, (takeGrains s.presence 1 mm.freeSets s.rotor).grains = (b, g) :: rest ∧
            (seekGrain s a v c tag mm).mm = makeEntry s a v c tag { mm with freeSets := (takeGrains s.presence 1 mm.freeSets s.rotor).sets } (.here b g))
         ∨ (∃ x mm', takeSpare s.roster mm = some (x, mm') ∧ (seekGrain s a v c tag mm).mm = makeEntry s a v c tag mm' x.place))) := by
  unfold seekGrain
  split
  · exact .inl rfl
  · split
    · exact .inl rfl
    · rename_i h1 h2
      simp only
      cases hg : (takeGrains s.presence 1 mm.freeSets s.rotor).grains with
      | cons p rest => 
        obtain ⟨b, g⟩ := p
        exact .inr ⟨by omega, by omega, .inl ⟨b, g, rest, rfl, rfl⟩⟩
      | nil =>
        simp only
        cases hs : takeSpare s.roster mm with
        | none =>
          left; simp only; unfold noGrain; repeat' split
          all_goals rfl
        | some p =>
          obtain ⟨x, mm'⟩ := p
          exact .inr ⟨by omega, by omega, .inr ⟨x, mm', rfl, rfl⟩⟩

/-- Every write an event makes is one of these. -/
theorem takeTask_writeOf {t : Task} {s : State} {w : MapWrite} (h : (takeTask t s).2 = some w) : WriteOf s w.image := by
  cases t with
  | lookupWrite a v c tag =>
    simp only [takeTask, takeLookupWrite] at h
    split at h
    · cases h
    · rename_i hd
      obtain ⟨h1, h2⟩ := decideWrite_base.1 hd
      rw [allocate_write h]; exact .allocation a v c tag _ h1 (.noEntry h2)
    · rename_i old hd
      obtain ⟨h1, h2⟩ := decideWrite_base.2 old hd
      rw [allocate_write h]; exact .allocation a v c tag _ h1 h2
  | commit a v c tag =>
    simp only [takeTask, takeCommit, decideCommit] at h
    split at h
    · cases h
    · rename_i st mm hd
      split at hd
      · cases hd
      · rename_i hc
        split at hd
        · cases hd
        · rename_i e he
          split at hd
          · rename_i b t x hs
            split at hd
            · rename_i hm; obtain ⟨rfl, rfl⟩ := hm; cases hd; cases h; exact .commit b v c t e x hc he hs
            · cases hd
          · split at hd <;> cases hd
  | trim a v f n tag =>
    simp only [takeTask, takeTrim] at h
    split at h
    · cases h
    · rename_i hc; cases h; exact .trim a v f n tag hc
  | volumeCreate a v n tag =>
    simp only [takeTask, takeVolume] at h
    split at h
    · cases h
    · rename_i st mm hd
      unfold decideCreate at hd
      repeat' split at hd
      all_goals cases hd
      cases h; exact .create v n (by assumption) (by assumption)
  | volumeDelete a v tag =>
    simp only [takeTask, takeVolume] at h
    split at h
    · cases h
    · rename_i st mm hd
      unfold decideDelete at hd
      simp only at hd
      repeat' split at hd
      all_goals cases hd
      rename_i h1 h2 h3
      cases h; exact .delete a v tag (Decidable.not_not.mp h2) (Nat.lt_of_not_le h3)
  | volumeGrow a v n tag =>
    simp only [takeTask, takeVolume] at h
    split at h
    · cases h
    · rename_i st mm hd
      unfold decideGrow at hd
      simp only at hd
      repeat' split at hd
      all_goals cases hd
      rename_i h1 h2 h3 h4
      cases h; exact .grow v n (Decidable.not_not.mp h2) (by omega)
  | rollback which =>
    simp only [takeTask, takeRollback] at h
    repeat' split at h
    all_goals cases h
    rename_i r hr
    exact .rollback r (List.mem_of_find?_eq_some hr)
  | walk n =>
    simp only [takeTask] at h
    unfold takeWalk at h
    simp only at h
    repeat' split at h
    all_goals first | (cases h; done) | skip
    · cases h; exact .visit _ _ _ _ (by assumption) (by assumption)
    · cases h; exact .rangeEnd _ _ (by assumption) (by assumption)
  | freeVolume r => cases h; exact .freeVolume _
  | takeHeard a i n =>
    simp only [takeTask, takeTake] at h
    repeat' split at h
    all_goals first | (cases h; done) | skip
    rename_i o ho hp g gs e hg he
    cases h
    rw [← hg]
    refine .grants a e _ ?_
    unfold grantCountFor grantCount State.figures
    split
    · simp only; omega
    · omega
  | grantHeard a i rs =>
    simp only [takeTask, takeGrant, takeStaleGrant] at h
    repeat' split at h
    all_goals first | (cases h; done) | skip
    cases h; exact .accept _ _ _
  | givebackHeard a ls =>
    simp only [takeTask, takeGiveback] at h
    repeat' split at h
    all_goals first | (cases h; done) | skip
    cases h; exact .giveback _ _
  | returnStep =>
    simp only [takeTask, takeReturnStep] at h
    repeat' split at h
    all_goals first | (cases h; done) | skip
    cases h; exact .returnStep _ (by assumption)
  | borrowerEvent ev a =>
    simp only [takeTask, takeBorrowerEvent] at h
    repeat' split at h
    all_goals first | (cases h; done) | skip
    all_goals cases h; exact .dropSpares _ _ _ ‹_› ‹_›
  | lenderEvent ev a =>
    simp only [takeTask, takeLenderEvent] at h
    repeat' split at h
    all_goals first | (cases h; done) | skip
    all_goals cases h; exact .reclaim _ _
  | formatHeader => cases h; exact .formatHeader _
  | formatContents => cases h; exact .formatContents
  | raiseRestartCount => cases h; exact .restartCount
  | startRollback hs =>
    simp only [takeTask, takeStartRollback] at h
    split at h
    · cases h
    · rename_i r _ hp; cases h; exact .rollback r (by rw [hp]; exact List.mem_cons_self)
  | sweepRetiring =>
    simp only [takeTask, takeSweep] at h
    split at h
    · cases h
    · cases h; exact .sweep
  | mapEvent ev a => cases ev <;> cases h
  | _ => cases h

/-- A law of map memory that every such image keeps is kept by every write. -/
theorem writesKeep_of {law : MapMemory → Prop} (h : ∀ s mm, law s.mm → WriteOf s mm → law mm) : WritesKeep law :=
  fun _ s _ hl hw => h s _ hl (takeTask_writeOf hw)

end Sys2Proof.Machine
end

