-- ==== Sys2Proof/Laws/Requests.lean ====
section
/-! SUPPORT. How a request is carried through: what taking it needs, its answer without a write, and its answer after one. -/

namespace Sys2Proof.Machine


theorem offerFrame_withTasks (f : OutFrame) (ts : List Task) (w : State) : offerFrame f (withTasks ts w) = (offerFrame f w).map (withTasks ts) := by
  unfold offerFrame
  rw [show (withTasks ts w).cond = w.cond from rfl, show hasReplyPlace (withTasks ts w) = hasReplyPlace w from rfl, show hasPlace (withTasks ts w) = hasPlace w from rfl]
  repeat' split
  all_goals rfl

theorem yieldOffer_withTasks (ts : List Task) (w : State) : yieldOffer (withTasks ts w) = withTasks ts (yieldOffer w) := by
  unfold yieldOffer
  rw [show (withTasks ts w).offer = w.offer from rfl]
  split
  · rfl
  · unfold withdrawOffer
    rw [show offerDriving (withTasks ts w) = offerDriving w from rfl, show (withTasks ts w).offer = w.offer from rfl]
    repeat' split
    all_goals rfl
  · rfl

theorem startAsk_withTasks (ts : List Task) (w : State) : startAsk (withTasks ts w) = withTasks ts (startAsk w) := by
  unfold startAsk
  rw [show (withTasks ts w).cond = w.cond from rfl, show (withTasks ts w).ask = w.ask from rfl, show (withTasks ts w).mm = w.mm from rfl]
  split
  · rfl
  · dsimp only
    rw [← yieldOffer_withTasks]
    congr 1
    split
    · rfl
    · have h : ∀ f c, (offerFrame f (withTasks ts c)).getD (withTasks ts (failAsk c)) = withTasks ts ((offerFrame f c).getD (failAsk c)) := by
        intro f c
        rw [offerFrame_withTasks]
        cases offerFrame f c <;> rfl
      exact h _ { w with
        ask := { w.ask with
          state := .calling, askId := w.ask.askId + 1,
          wanted := ownWanted w.profile.maxLoan w.profile.spareTarget w.mm.spares.length, timer := none, lender := none,
          offerCount := 0 } }

theorem judgeAsk_withTasks (ts : List Task) (w : State) : judgeAsk (withTasks ts w) = withTasks ts (judgeAsk w) := by
  unfold judgeAsk
  rw [show (withTasks ts w).cond = w.cond from rfl, show (withTasks ts w).short = w.short from rfl, show (withTasks ts w).ask = w.ask from rfl, show (withTasks ts w).mm = w.mm from rfl, show (withTasks ts w).roster = w.roster from rfl, show (withTasks ts w).profile = w.profile from rfl]
  split
  · exact startAsk_withTasks ts w
  · rfl

theorem takes_can {m : Moment} {s u : State} {f : RawFrame} {rest : List RawFrame} (h : Takes m s u f rest) : canTake u = true := by
  obtain ⟨⟨⟨h1, h2, h3⟩, rfl⟩, hb, hr, hs⟩ := h
  unfold canTake isBusy
  rw [show hasReplyPlace (advance m.time s) = hasReplyPlace s from rfl]
  simp [h2, h3, hr]
  rcases hs with h | ⟨h, h'⟩ | h <;> simp [h]
  exact h'

theorem takes_run {m : Moment} {s u : State} {f : RawFrame} {rest : List RawFrame} (h : Takes m s u f rest) (handle : Station → Request → State → Option State) (v : State)
    (hh : handle f.source (parseRequest u.fresh f) {u with buffer := rest} = some v) :
    whenOn m (takeRequest handle m) s = .next (settle m v) := by
  have hc := takes_can h
  obtain ⟨⟨⟨h1, h2, h3⟩, rfl⟩, hb, hr, hs⟩ := h
  unfold whenOn takeRequest; rw [if_pos h1, if_pos hc, show (advance m.time s).buffer = s.buffer from rfl, hb]; simp only [hh]

theorem takes_place {m : Moment} {s u : State} {f : RawFrame} {rest : List RawFrame} (h : Takes m s u f rest) : hasReplyPlace u = true := by
  obtain ⟨⟨⟨h1, h2, h3⟩, rfl⟩, hb, hr, hs⟩ := h; exact hr
theorem takes_tasks {m : Moment} {s u : State} {f : RawFrame} {rest : List RawFrame} (h : Takes m s u f rest) : u.tasks = [] := by
  obtain ⟨⟨⟨h1, h2, h3⟩, rfl⟩, hb, hr, hs⟩ := h; exact h3
theorem takes_infl {m : Moment} {s u : State} {f : RawFrame} {rest : List RawFrame} (h : Takes m s u f rest) : u.inflight = none := by
  obtain ⟨⟨⟨h1, h2, h3⟩, rfl⟩, hb, hr, hs⟩ := h; exact h2
theorem takes_srv {m : Moment} {s u : State} {f : RawFrame} {rest : List RawFrame} (h : Takes m s u f rest) : servesRequests u := by
  obtain ⟨⟨⟨h1, h2, h3⟩, rfl⟩, hb, hr, hs⟩ := h; exact hs

theorem answer_ok {d : Station} {r : Reply} {u : State} (hp : hasReplyPlace u = true) (hs : servesRequests u)
    (hc : u.cond = .halted → r.status = .notReady) :
    answer d r u = pushFrame ⟨d, .reply r⟩ u := by
  unfold answer offerFrame
  have : refuses u.cond ⟨d, .reply r⟩ = false := by
    rcases hs with h | h | h
    · simp [refuses, h]
    · simp [refuses, h.1]
    · simp [refuses, h, OutFrame.sentInHalted, hc h]
  rw [this]
  simp [OutFrame.isReplyOrAlert, hp]

theorem fillReply_ok {d : Station} {r : Reply} {u : State} (hp : hasReplyPlace u = true) (hs : servesRequests u)
    (hc : u.cond = .halted → r.status = .notReady) (ts : List Task) :
    fillReply d r (withTasks ts (reserveReply u)) = pushFrame ⟨d, .reply r⟩ (withTasks ts u) := by
  unfold fillReply
  rw [show releaseReply (withTasks ts (reserveReply u)) = withTasks ts u by simp [releaseReply, withTasks, reserveReply]]
  exact answer_ok hp hs hc

/-- a request answered without a write -/
theorem reserved_answer {m : Moment} {u : State} {d : Station} {r : Reply} {t : Task} (hp : hasReplyPlace u = true)
    (hs : servesRequests u) (hc : u.cond = .halted → r.status = .notReady) (hi : u.inflight = none) (ht : u.tasks = [])
    (htk : takeTask t (reserveReply u) = answerReserved d r [] (reserveReply u)) :
    settle m (beginRequest t u) = pushFrame ⟨d, .reply r⟩ u := by
  have e : ∀ w : State, w.tasks = [] → withTasks [] w = w := by intro w h; cases w; simp only [withTasks] at *; subst h; rfl
  unfold settle
  rw [work_noWrite' (t := t) (rest := []) (s' := withTasks [.reply d r] (reserveReply u)) (by decide) (by simp [beginRequest, hi, reserveReply]) (by simp [beginRequest])]
  · rw [work_noWrite' (t := .reply d r) (rest := []) (s' := pushFrame ⟨d, .reply r⟩ u) (by decide) (by simp [withTasks, hi, reserveReply]) (by simp [withTasks])]
    · exact work_nil (by simp [pushFrame, ht])
    · rw [show withTasks [] (withTasks [.reply d r] (reserveReply u)) = withTasks [] (reserveReply u) from rfl]
      show noWrite (fillReply d r _) = _
      rw [fillReply_ok hp hs hc, e u ht]; rfl
  · rw [show withTasks [] (beginRequest t u) = reserveReply u by
      rw [show withTasks [] (beginRequest t u) = withTasks [] (reserveReply u) from rfl]; exact e _ (by simp [reserveReply, ht]), htk]
    simp [answerReserved, noWrite, withTasks, reserveReply, ht]

/-- a request answered after a write, in READY -/
theorem reserved_write {m : Moment} {u : State} {d : Station} {r : Reply} {t : Task} {mm : MapMemory} {rot : Nat} {tk : Bool} {onFail : List Task} (hp : hasReplyPlace u = true)
    (hs : u.cond = .ready) (hi : u.inflight = none) (ht : u.tasks = []) (hw : m.writes = [])
    (htk : takeTask t (reserveReply u) = (reserveReply u, some { image := mm, rotor := rot, takes := tk, onDone := [.reply d r], goOn := [], onFail := onFail })) :
    settle m (beginRequest t u) = 
      (if tk = true ∨ presentSets u ≠ presentSets { u with mm := mm } ∨ u.mm.spares.length ≠ mm.spares.length then judgeAsk else id) (pushFrame ⟨d, .reply r⟩ { u with mm := mm, rotor := rot}) := by
  have e : ∀ w : State, w.tasks = [] → withTasks [] w = w := by intro w h; cases w; simp only [withTasks] at *; subst h; rfl
  have jq : ∀ w : State, w.cond = .ready → judgeQuiet w = w := by intro w h; simp [judgeQuiet, h]
  unfold settle
  rw [hw]
  rw [work_write' (t := t) (rest := []) (by decide) (by simp [beginRequest, hi, reserveReply]) (by simp [beginRequest]) (s' := reserveReply u)
    (by
      rw [show withTasks [] (beginRequest t u) = reserveReply u by
        rw [show withTasks [] (beginRequest t u) = withTasks [] (reserveReply u) from rfl]; exact e _ (by simp [reserveReply, ht]), htk])]
  generalize hj : judgements tk (reserveReply u) { reserveReply u with mm := mm, rotor := rot, inflight := none } = js
  have hc : completeWrite { image := mm, rotor := rot, takes := tk, onDone := [.reply d r], goOn := [], onFail := onFail } (reserveReply u) = withTasks (.reply d r :: js) (reserveReply {u with mm := mm, rotor := rot}) := by
    unfold completeWrite
    dsimp only
    rw [hj]
    simp [withTasks, reserveReply, ht, hi]
  rw [hc]
  have hp' : hasReplyPlace {u with mm := mm, rotor := rot} = true := hp
  rw [work_noWrite' (t := .reply d r) (rest := js) (s' := withTasks js (pushFrame ⟨d, .reply r⟩ {u with mm := mm, rotor := rot})) (by decide) (by simp [withTasks, hi, reserveReply]) (by simp [withTasks])
    (by
      rw [show withTasks js (withTasks (.reply d r :: js) (reserveReply {u with mm := mm, rotor := rot})) = withTasks js (reserveReply {u with mm := mm, rotor := rot}) from rfl]
      show noWrite (fillReply d r _) = _
      rw [fillReply_ok hp' (.inl hs) (by intro h; simp [hs] at h)]; rfl)]
  have key : ∀ (n : Nat) (w : State), 2 < n → w.cond = .ready → w.inflight = none → w.tasks = [] → work n [] (withTasks js w) = (if tk = true ∨ presentSets u ≠ presentSets { u with mm := mm } ∨ u.mm.spares.length ≠ mm.spares.length then judgeAsk else id) w := by
    intro n w hn h1 h2 h3
    have hq : work n [] (withTasks [.judgeQuiet] w) = w := by
      rw [work_noWrite' (t := .judgeQuiet) (rest := []) (s' := w) (by omega) (by simpa [withTasks] using h2) (by simp [withTasks])
        (by rw [show withTasks [] (withTasks [.judgeQuiet] w) = withTasks [] w from rfl, e w h3]; show noWrite (judgeQuiet w) = _; rw [jq w h1]; rfl)]
      exact work_nil h3
    have hq' : ∀ k, 0 < k → ∀ w : State, w.cond = .ready → w.inflight = none → w.tasks = [] → work k [] (withTasks [.judgeQuiet] w) = w := by
      intro n hn w h1 h2 h3
      rw [work_noWrite' (t := .judgeQuiet) (rest := []) (s' := w) (by omega) (by simpa [withTasks] using h2) (by simp [withTasks])
        (by rw [show withTasks [] (withTasks [.judgeQuiet] w) = withTasks [] w from rfl, e w h3]; show noWrite (judgeQuiet w) = _; rw [jq w h1]; rfl)]
      exact work_nil h3
    have ha : ∀ w' rest', w' = withTasks rest' w → takeTask .judgeAsk w' = noWrite (judgeAsk w') := by intros; rfl
    subst hj
    unfold judgements
    rw [show presentSets (reserveReply u) = presentSets u from rfl]
    rw [show presentSets { reserveReply u with mm := mm, rotor := rot, inflight := none } = presentSets { u with mm := mm } from rfl]
    rw [show (reserveReply u).mm = u.mm from rfl]
    dsimp only
    split
    · split
      · rw [List.singleton_append]
        rw [work_noWrite' (t := .judgeAsk) (rest := [.judgeQuiet]) (s' := withTasks [.judgeQuiet] (judgeAsk w)) (by omega) (by simpa [withTasks] using h2) (by simp [withTasks])
          (by rw [show withTasks [.judgeQuiet] (withTasks [.judgeAsk, .judgeQuiet] w) = withTasks [.judgeQuiet] w from rfl]; show noWrite (judgeAsk _) = _; rw [judgeAsk_withTasks]; rfl)]
        exact hq' _ (by omega) _ (by simp [h1]) (by simp [h2]) (by simp [h3])
      · rw [List.append_nil]
        rw [work_noWrite' (t := .judgeAsk) (rest := []) (s' := judgeAsk w) (by omega) (by simpa [withTasks] using h2) (by simp [withTasks])
          (by rw [show withTasks [] (withTasks [.judgeAsk] w) = withTasks [] w from rfl, e w h3]; rfl)]
        exact work_nil (by simp [h3])
    · split
      · rw [List.nil_append]; exact hq
      · rw [List.nil_append]; rw [e w h3]; exact work_nil h3
  exact key _ _ (by decide) (by simp [pushFrame, hs]) (by simp [pushFrame, hi]) (by simp [pushFrame, ht])

/-- A request taken that is answered without a write. -/
theorem takes_answered {m : Moment} {s u : State} {f : RawFrame} {rest : List RawFrame} (h : Takes m s u f rest) (t : Task) (r : Reply)
    (hc : u.cond = .halted → r.status = .notReady)
    (htk : takeTask t (reserveReply { u with buffer := rest }) = answerReserved f.source r [] (reserveReply { u with buffer := rest })) :
    settle m (beginRequest t { u with buffer := rest }) = withAnswer f rest r u := by
  have h1 : hasReplyPlace { u with buffer := rest } = true := by have := takes_place h; exact this
  have h2 : servesRequests { u with buffer := rest } := by have := takes_srv h; exact this
  have h3 : ({ u with buffer := rest } : State).inflight = none := by have := takes_infl h; exact this
  have h4 : ({ u with buffer := rest } : State).tasks = [] := by have := takes_tasks h; exact this
  exact reserved_answer (u := { u with buffer := rest }) h1 h2 hc h3 h4 htk

/-- A request taken in READY whose write completes and is followed by its answer. -/
theorem takes_written {m : Moment} {s u : State} {f : RawFrame} {rest : List RawFrame} (h : Takes m s u f rest) (t : Task) (r : Reply)
    (mm : MapMemory) (rot : Nat) (tk : Bool) (onFail : List Task) (hr : u.cond = .ready) (hw : m.writes = [])
    (htk : takeTask t (reserveReply { u with buffer := rest })
      = (reserveReply { u with buffer := rest },
          some { image := mm, rotor := rot, takes := tk, onDone := [.reply f.source r], goOn := [], onFail := onFail })) :
    settle m (beginRequest t { u with buffer := rest })
      = (if tk = true ∨ presentSets u ≠ presentSets { u with mm := mm } ∨ u.mm.spares.length ≠ mm.spares.length then judgeAsk else id)
          (withAnswer f rest r { u with mm := mm, rotor := rot }) := by
  have h1 : hasReplyPlace { u with buffer := rest } = true := by have := takes_place h; exact this
  have h3 : ({ u with buffer := rest } : State).inflight = none := by have := takes_infl h; exact this
  have h4 : ({ u with buffer := rest } : State).tasks = [] := by have := takes_tasks h; exact this
  exact reserved_write (u := { u with buffer := rest }) h1 hr h3 h4 hw htk

end Sys2Proof.Machine
end

