-- ==== Sys2Proof/Tests/Slice0.lean ====
section
/-! SUPPORT. The model's own tests: terms the checks of WellFormed refuse, each command once or twice on a small station with what the manual
says of it, and for every statement with hypotheses a station and operands that meet them. -/

namespace Sys2Proof.Tests.Slice0

open Sys2Proof Sys2Proof.Machine

/-! ## Small stations -/

/-- Two bays of two grains; never short, never flush; one chunk a walker period. -/
def shelf : Profile :=
  { bayCount := 2, grainCounts := [2, 2], grainSizeCode := 0, lowPermille := 0, highPermille := 1000, holdTime := 5,
    walkerPeriod := 50, walkerVisits := 1, reservePermille := 0, exposureWeight := 0, maxLoan := 8, spareTarget := 4,
    backoffBase := 10, backoffCap := 1, presenceInterval := 100, serviceEdge := false, serviceActiveHigh := false,
    drainLimit := 1, serial := 7, alertEnables := BitVec.allOnes 13 }

/-- A peer shelf, PRESENT since time 0. -/
def peer : RosterRecord :=
  { state := .present, kind := some .shelf, epoch := some { serial := 50, formatCount := 1 }, lastHeard := some 0 }

/-- The peer's epoch. -/
def epoch5 : Epoch := { serial := 50, formatCount := 1 }

/-- Station 3 in READY with an empty map and volume 1 of four chunks. -/
def ready : State :=
  { State.reset with
    cond := .ready, own := 3, profile := shelf, profileRead := true, headerRead := true, poolUp := true, loanUp := true,
    outcome := .ready, presence := [true, true], bayLines := 0,
    mm := { MapMemory.blank with
      header := some { serial := 7, formatCount := 1, restartCount := 0, checkGood := true },
      geometry := some (geometryOf shelf), freeSets := [{ count := 2, held := [] }, { count := 2, held := [] }],
      volumes := [(1, { state := .active, size := 4, count := 0 })] } }

/-- The same with work done: chunk 0 MAPPED on grain (0, 0), chunk 1 PENDING on grain (0, 1) for requester 9 and tag 77, chunk 2 MAPPED on a
grain of station 5, grain (1, 0) lent to station 5 as loan 0, and one spare of station 5. -/
def working : State :=
  { ready with
    roster := [(5, peer)]
    mm := { ready.mm with
      freeSets := [{ count := 2, held := [0, 1] }, { count := 2, held := [0] }]
      volumes := [(1, { state := .active, size := 4, count := 3 })]
      chunks :=
        [(16777216, { state := .mapped 9 70, place := .here 0 0, shield := 0 }),
         (16777217, { state := .pending 9 77 20100, place := .here 0 1, shield := 0 }),
         (16777218, { state := .mapped 9 72, place := .remote 5 9 1 2 epoch5, shield := 0 })]
      pendings := [{ volume := 1, chunk := 1, requester := 9, tag := 77, expiry := 20100 }]
      loans := [(0, { borrower := 5, epoch := epoch5, bay := 1, grain := 0 })]
      spares := [{ lender := 5, loan := 4, bay := 0, grain := 7, epoch := epoch5 }]
      peers := [(5, { known := some epoch5, inUse := 1, spare := 1 })] } }

/-- An event at time 100 whose writes complete, one at time 30000, and one whose first write fails. -/
def m0 : Moment := { time := 100, writes := [] }
def m1 : Moment := { time := 30000, writes := [] }
def mf : Moment := { time := 100, writes := [.fails] }

/-- A request from station 9 to station 3. -/
def request (kind : BitVec 5) (fields : List (Nat × Nat)) : RawFrame :=
  { cls := 4, sub := 0, source := 9, dest := 3, kind := kind, payload := encodeFields fields, crc := 0 }

/-- LOOKUP of volume 1 for tag 77: READ is access 0, WRITE is access 1. -/
def lookup (access chunk : Nat) : RawFrame := request 7 [(8, 1), (24, chunk), (8, access), (16, 77)]
/-- COMMIT of a chunk of volume 1 for tag 77. -/
def commitOf (chunk : Nat) : RawFrame := request 8 [(8, 1), (24, chunk), (16, 77)]
/-- TRIM of volume 1. -/
def trimOf (first count : Nat) : RawFrame := request 9 [(8, 1), (24, first), (32, count), (16, 77)]
/-- VOLUME: action 1 CREATE, 2 DELETE, 3 GROW. -/
def volumeDo (action volume size : Nat) : RawFrame := request 10 [(8, action), (8, volume), (32, size), (16, 77)]
/-- STATUS of a page. -/
def statusOf (page : Nat) : RawFrame := request 11 [(8, page), (16, 77)]
/-- CLEAR. -/
def clearOf (flags counters : Nat) : RawFrame := request 12 [(16, flags), (8, counters), (16, 77)]

/-- A station with one request waiting. -/
def asked (s : State) (f : RawFrame) : State := { s with buffer := [f] }

/-- The station a command leaves. -/
def after (c : Instr) (s : State) : State :=
  match exec c s with
  | .next t => t
  | .fault _ => s
  | .refused _ => s

/-- A REPLY for tag 77 to station 9. -/
def told (status : Status) (volume chunk : Nat) (part : ReplyPart) : OutFrame :=
  { dest := 9, body := .reply { tag := 77, status := status, volume := volume, chunk := chunk, part := part } }

/-! ## What the checks refuse (R1, R144, R147, R155) -/

/-- A payload of 64 bytes has no length field. -/
theorem test_wf_frame_too_long :
    (Instr.frameHeard { request 7 [] with payload := List.replicate 64 0 } m0).wf = false := by decide
theorem test_wf_request_too_long :
    (Instr.requestFrameReceived { request 7 [] with payload := List.replicate 64 0 } m0).wf = false := by decide
/-- A GRANT to every station, of nine records, and of a record beyond each of its fields. -/
theorem test_wf_grant_broadcast : (Instr.grant 5 15 1 [] m0).wf = false := by decide
theorem test_wf_grant_nine :
    (Instr.grant 5 3 1 (List.replicate 9 { loan := 0, bay := 0, grain := 0 }) m0).wf = false := by decide
theorem test_wf_grant_record :
    (Instr.grant 5 3 1 [{ loan := 65536, bay := 0, grain := 0 }] m0).wf = false
      ∧ (Instr.grant 5 3 1 [{ loan := 0, bay := 32, grain := 0 }] m0).wf = false
      ∧ (Instr.grant 5 3 1 [{ loan := 0, bay := 0, grain := 1048576 }] m0).wf = false
      ∧ (Instr.grant 5 3 1 [{ loan := 65535, bay := 31, grain := 1048575 }] m0).wf = true := by decide
/-- A GIVEBACK to every station, of no loan, of nine, and of a number beyond 16 bits. -/
theorem test_wf_giveback :
    (Instr.giveback 5 15 .unused [1] m0).wf = false ∧ (Instr.giveback 5 3 .unused [] m0).wf = false
      ∧ (Instr.giveback 5 3 .unused (List.replicate 9 1) m0).wf = false
      ∧ (Instr.giveback 5 3 .unused [65536] m0).wf = false ∧ (Instr.giveback 5 3 .unused [65535] m0).wf = true := by decide
/-- An OFFER to an asking station 15, a TAKE to every station. -/
theorem test_wf_offer : (Instr.offer 5 1 15 1 0 m0).wf = false ∧ (Instr.offer 5 1 14 1 0 m0).wf = true := by decide
theorem test_wf_take : (Instr.take 5 15 1 1 m0).wf = false ∧ (Instr.take 5 14 1 1 m0).wf = true := by decide
/-- A HAIL body of station 5. -/
def hail5 (q : Nat) : HailBody :=
  { kind := .shelf, identity := 2, serial := 50, formatCount := 1, restartCount := 0, cause := 0, cond := .ready, q := q }
theorem test_wf_hail : (Instr.hail 5 (hail5 1001) m0).wf = false ∧ (Instr.hail 5 (hail5 1000) m0).wf = true := by decide
/-- A ROM that gives a grain count for fewer than 24 bays. -/
def pins : StartPins := { strap := 3, formatHeld := false, bayLines := 0, serviceHigh := true }
theorem test_wf_rom :
    (Instr.powerOn pins (some { contents := [], values := shelf }) false m0).wf = false
      ∧ (Instr.resetPin 40 pins (some { contents := [], values := shelf }) false m0).wf = false
      ∧ (Instr.powerOn pins none false m0).wf = true := by decide

/-! ## No word spells a command -/

theorem test_no_word_spells_a_command : decodeTableWord 56 0 = none ∧ State.reset.withFetchWord 56 0 = State.reset := ⟨rfl, rfl⟩

/-! ## The capacity arithmetic's worked values (R13, R78 to R81, R98) -/

/-- R78: P of 999 and rp of 1 give an RF of 1; E of 1 and ew of 1 give an EH of 1. -/
theorem test_reserves_round_up :
    reserveFloor { p := 999, f := 0, e := 0, freeLoans := 0, rp := 1, ew := 0, maxLoan := 8 } = 1
      ∧ exposureHold { p := 0, f := 0, e := 1, freeLoans := 0, rp := 0, ew := 1, maxLoan := 8 } = 1 := by decide
/-- R80: P of 25,165,824 and a lendable count of 25,000 give a q of 0. -/
theorem test_share_of_a_large_pool :
    lendableShare { p := 25165824, f := 25000, e := 0, freeLoans := 0, rp := 0, ew := 0, maxLoan := 8 } = 0 := by decide
/-- The figures of a pool of 1,000 grains with n of them free and nothing held back: q is n. -/
def share (n : Nat) : Figures := { p := 1000, f := n, e := 0, freeLoans := 0, rp := 0, ew := 0, maxLoan := 8 }
/-- R81: the delays of the bands of q in its table, at their ends. -/
theorem test_offer_delay_bands :
    [0, 1, 32, 65, 96, 388, 419, 936, 967, 968, 1000].map (fun n => offerDelay (share n))
      = [31, 30, 30, 28, 28, 18, 18, 1, 1, 0, 0] := by decide
/-- R98: base 10 ms and cap 1 s give 10, 20, 40, 80, 160 ms, the seventh 640 ms, the eighth and the last 1,000 ms. -/
theorem test_backoff_delays :
    [1, 2, 3, 4, 5, 7, 8, 255].map (backoffDelay 10 1) = [10, 20, 40, 80, 160, 640, 1000, 1000] := by decide
/-- R155: a GRANT of 8 records takes 43 bytes, page 0 takes 37, and R144's CRC is that of CRC-16 with all ones over the bits. -/
theorem test_payload_lengths :
    ((OutFrame.raw 3 { dest := 5, body := .grant 1 (List.replicate 8 { loan := 1, bay := 2, grain := 3 }) }).payload).length = 43
      ∧ ((OutFrame.raw 3 (told .ok 0 0 (.pageZero
          { condition := 0, cause := 0, restartCount := 0, identity := 2, serial := 7, formatCount := 1, p := 4, f := 4, spares := 0,
            loans := 0, pendings := 0, trims := 0, q := 1000 }))).payload).length = 37 := by decide +kernel

/-! ## Each command on a small station -/

/-- The ROM of the small shelf: its two words sum to 0. -/
def rom : ProfileRom := { contents := [(1, 0), (255, 0)], values := { shelf with grainCounts := List.replicate 24 2 } }

/-- R12, R15, R160: a rollback of the start whose write fails keeps the pool: the second bay's line is high, the first's grains are held. -/
theorem test_start_rollback_fails :
    let t := after (.powerOn { pins with bayLines := 2 } (some rom) false { time := 100, writes := [.completes, .fails] })
      { working with mm := { working.mm with freeSets := [{ count := 2, held := [0] }, { count := 2, held := [0] }] } }
    t.outcome = .halted ∧ t.presence = [true, false] ∧ t.p = 2 ∧ t.f = 1 ∧ t.mm.pendings = working.mm.pendings := by decide
/-- R157, R17: no profile ROM: JOIN, to be HALTED, with PROFILE-ABSENT and ATTENTION. -/
theorem test_power_on_without_profile :
    let t := after (.powerOn pins none false m0) State.reset
    t.cond = .join ∧ t.outcome = .halted ∧ t.faults.flags = 1 ∧ t.attention = true ∧ t.p = 0 ∧ t.joinTimer = some 400100 := by
  decide
/-- R159: the FORMAT strap held: a first format count of 1, every grain free, cause FORMAT. -/
theorem test_power_on_formats :
    let t := after (.powerOn { pins with formatHeld := true } (some rom) false m0) State.reset
    t.outcome = .ready ∧ t.cause = .format ∧ t.mm.header.map (·.formatCount) = some 1 ∧ t.p = 4 ∧ t.f = 4 := by decide
/-- R157: a pulse of 10 µs starts the station, a shorter one does not; the strap of 15 gives number 14 (R157). -/
theorem test_reset_pin :
    (after (.resetPin 40 { pins with strap := 15 } none false m0) working).own = 14
      ∧ (after (.resetPin 39 { pins with strap := 15 } none false m0) working).cond = .ready := by decide
/-- R4, R159: a format whose second write fails leaves the new header over the old free sets and their holders; R86: P is then 0. -/
theorem test_format_fails_after_the_header :
    let t := after (.resetPin 40 { pins with formatHeld := true } (some rom) false { time := 100, writes := [.completes, .fails] }) working
    t.mm = { working.mm with header := t.mm.header } ∧ t.mm.header.map (·.formatCount) = some 2 ∧ t.outcome = .halted ∧ t.p = 0 := by
  decide
/-- R6: a bay that becomes ABSENT takes its grains out of P and F and nothing out of map memory. -/
theorem test_bay_absent :
    let t := after (.bayAbsent 1 80000 m0) working
    t.presence = [true, false] ∧ t.p = 2 ∧ t.f = 0 ∧ t.mm = working.mm ∧ t.faults.has .bayChange = true := by decide
/-- R5, R15: a level of under 20 ms leaves the bay as it is; the line's level is noted. -/
theorem test_bay_line_noted :
    let t := after (.bayAbsent 1 79999 m0) working
    t.presence = [true, true] ∧ t.bayLines = 2 ∧ t.p = 4 := by decide
/-- R7: a bay that becomes PRESENT again. -/
theorem test_bay_present :
    let t := after (.bayPresent 1 80000 m0) { working with presence := [true, false] }
    t.presence = [true, true] ∧ t.p = 4 ∧ t.f = 1 := by decide
/-- R163: work left over keeps the drain going; without any the drain is over at once and HAIL(LEAVING) waits. -/
theorem test_service_asserted :
    let t := after (.serviceAsserted 80000 m0) working
    let e := after (.serviceAsserted 80000 m0) ready
    t.cond = .drain ∧ t.drainEnded = false ∧ t.drainTimer = some 4000100 ∧ e.drainEnded = true
      ∧ e.link.queue = [buildHail .leaving e] := by decide
/-- R162: a change of under 20 ms is not taken, and its level is noted. -/
theorem test_service_level_noted :
    let t := after (.serviceAsserted 79999 m0) ready
    t.cond = .ready ∧ t.servicePin = true ∧ t.serviceLine = false := by decide
/-- R166: released in QUIET: a resume start, the restart count raised. -/
theorem test_service_released :
    let t := after (.serviceReleased 80000 0 m0) { ready with cond := .quiet, servicePin := false }
    t.cond = .join ∧ t.cause = .resume ∧ t.mm.header.map (·.restartCount) = some 1 := by decide
/-- R148: a requester frame joins the buffer and is acknowledged; at 16 frames it is neither. -/
theorem test_request_buffered :
    let f := sealFrame (lookup 0 0)
    let full : State := { ready with buffer := List.replicate 16 f }
    (after (.requestFrameReceived f m0) ready).buffer = [f] ∧ (after (.requestFrameReceived f m0) ready).ackDriven = true
      ∧ (after (.requestFrameReceived f m0) full).buffer.length = 16
      ∧ (after (.requestFrameReceived f m0) full).ackDriven = false := by decide +kernel
/-- R39: a MAPPED place of the station's own; a PENDING entry and no entry read as ZERO; a PRESENT lender's place. -/
theorem test_lookup_read :
    (after (.lookupRead m0) (asked working (lookup 0 0))).link.queue = [told .ok 1 0 (.place 3 0 0)]
      ∧ (after (.lookupRead m0) (asked working (lookup 0 1))).link.queue = [told .zero 1 1 .none]
      ∧ (after (.lookupRead m0) (asked working (lookup 0 2))).link.queue = [told .ok 1 2 (.place 5 1 2)] := by decide
/-- R36: chunk 4 of four is out of range. -/
theorem test_lookup_out_of_range :
    (after (.lookupRead m0) (asked working (lookup 0 4))).link.queue = [told .range 1 4 .none] := by decide
/-- R45, R48: chunk 3 takes the one free grain, (1, 1), until 100 + 5 ms; the rotor wraps to bay 0. -/
theorem test_lookup_write_allocates :
    let t := after (.lookupWrite m0) (asked working (lookup 1 3))
    t.link.queue = [told .fresh 1 3 (.place 3 1 1)] ∧ t.rotor = 0 ∧ t.f = 0 ∧ (volumeOf t.mm 1).count = 4
      ∧ entryOf t.mm 1 3 = some { state := .pending 9 77 20100, place := .here 1 1, shield := 0 } := by decide
/-- R46: with no grain free the usable spare becomes the place. -/
theorem test_lookup_write_takes_a_spare :
    let s := { working with presence := [true, false] }
    let t := after (.lookupWrite m0) (asked s (lookup 1 3))
    t.link.queue = [told .fresh 1 3 (.place 5 0 7)] ∧ t.mm.spares = []
      ∧ peerOf t.mm 5 = { known := some epoch5, inUse := 2, spare := 0 } := by decide
/-- R49: the owner's COMMIT; another's last commit is LATE. -/
theorem test_commit :
    let t := after (.commit m0) (asked working (commitOf 1))
    t.link.queue = [told .done 1 1 .none] ∧ t.mm.pendings = []
      ∧ entryOf t.mm 1 1 = some { state := .mapped 9 77, place := .here 0 1, shield := 0 }
      ∧ (after (.commit m0) (asked working (commitOf 0))).link.queue = [told .late 1 0 .none] := by decide
/-- R163, R164: the COMMIT of the last pending record ends a drain. -/
theorem test_commit_ends_drain :
    let s : State := { working with
      cond := .drain, drainTimer := some 4000100,
      mm := { working.mm with spares := [], peers := [(5, { known := some epoch5, inUse := 1, spare := 0 })] } }
    let t := after (.commit m0) (asked s (commitOf 1))
    t.drainEnded = true ∧ t.drainTimer = none ∧ t.link.queue.length = 2 := by decide
/-- R12, R167: a COMMIT whose write fails. -/
theorem test_commit_fails :
    let t := after (.commit mf) (asked working (commitOf 1))
    t.cond = .halted ∧ t.mm = working.mm ∧ t.link.queue = [told .notReady 1 1 .none] := by decide
/-- R59, R60: the range is clamped to the volume; a count of 0 is BADREQ. -/
theorem test_trim :
    let t := after (.trim m0) (asked working (trimOf 1 4294967295))
    t.link.queue = [told .queued 1 1 .none] ∧ t.mm.trims.map (fun r => (r.first, r.last, r.cursor)) = [(1, 3, 1)]
      ∧ (after (.trim m0) (asked working (trimOf 1 0))).link.queue = [told .badReq 1 1 .none] := by decide
/-- R24: a size above 16,777,216 is clamped; an ACTIVE volume EXISTS. -/
theorem test_volume_create :
    (after (.volumeCreate m0) (asked ready (volumeDo 1 2 4294967295))).link.queue = [told .ok 2 0 (.size 16777216)]
      ∧ (after (.volumeCreate m0) (asked ready (volumeDo 1 1 9))).link.queue = [told .exists 1 0 (.size 4)] := by decide
/-- R23, R30: in HALTED NOTREADY, with the size of an ACTIVE volume where the table was read. -/
theorem test_volume_halted :
    let s := { working with cond := .halted }
    (after (.volumeCreate m0) (asked s (volumeDo 1 1 9))).link.queue = [told .notReady 1 0 (.size 4)]
      ∧ (after (.volumeCreate m0) (asked { s with headerRead := false } (volumeDo 1 1 9))).link.queue = [told .notReady 1 0 .none] := by
  decide
/-- R26: a DELETE retires the volume and queues a range over all of it. -/
theorem test_volume_delete :
    let t := after (.volumeDelete m0) (asked working (volumeDo 2 1 0))
    t.link.queue = [told .queued 1 0 .none] ∧ (volumeOf t.mm 1).state = .retiring
      ∧ t.mm.trims.map (fun r => (r.first, r.last)) = [(0, 3)] := by decide
/-- R25: GROW to 5; GROW to less than the size is BADREQ. -/
theorem test_volume_grow :
    (after (.volumeGrow m0) (asked ready (volumeDo 3 1 5))).link.queue = [told .ok 1 0 (.size 5)]
      ∧ (after (.volumeGrow m0) (asked ready (volumeDo 3 1 3))).link.queue = [told .badReq 1 0 (.size 4)] := by decide
/-- R171: page 0 of the working station: P 4, F 1, one spare, one loan, one pending record, q of 250. -/
theorem test_status_page_0 :
    (after (.statusPage0 m0) (asked working (statusOf 0))).link.queue
      = [told .ok 0 0 (.pageZero
          { condition := 0, cause := 0, restartCount := 0, identity := 2, serial := 7, formatCount := 1, p := 4, f := 1, spares := 1,
            loans := 1, pendings := 1, trims := 0, q := 250 })] := by decide
/-- R171, R172: page 1, and CLEAR of MAPMEM with the counters zeroed. -/
def faulted : State :=
  { ready with
    faults := { flags := 6, counts := { framesDropped := 1, staleGivebacks := 2, askFailures := 3, noSpaceAnswers := 4 },
                enables := BitVec.allOnes 13 }
    attention := true }
theorem test_status_page_1 :
    (after (.statusPage1 m0) (asked faulted (statusOf 1))).link.queue
      = [told .ok 0 0 (.pageOne 6
          { framesDropped := 1, staleGivebacks := 2, askFailures := 3, noSpaceAnswers := 4 })] := by decide
theorem test_clear :
    let t := after (.clear m0) (asked faulted (clearOf 6 1))
    t.link.queue = [told .ok 0 0 (.pageOne 0 Counts.zero)] ∧ t.attention = false ∧ t.faults.counts = Counts.zero := by decide
/-- R82, R112: a lendable count of 1 and a q of 250: one grain after 23 slots. -/
theorem test_ask_heard :
    (after (.ask 5 8 4 m0) working).offer
      = { state := .armed, current := some { asker := 5, askId := 8, n := 1, d := 23 }, timer := some 1572,
          endsAtReport := false } := by decide +kernel
/-- An ask of the station's own, its window open. -/
def calling : State :=
  { working with ask := { AskMachine.reset with state := .calling, askId := 8, wanted := 4, timer := some 2660 } }
/-- R93: the OFFER is taken, its count at most 8. -/
theorem test_offer_taken :
    let t := after (.offer 5 8 3 9 0 m0) calling
    t.link.queue = [{ dest := 5, body := .take 8 8 }] ∧ t.ask.state = .taking ∧ t.ask.lender = some 5 := by decide
/-- R93: an OFFER from a station that is not in the roster is not. -/
theorem test_offer_of_a_stranger : (after (.offer 6 8 3 9 0 m0) calling).ask = calling.ask := by decide
/-- An offer of the station's own to station 5, waiting for its TAKE. -/
def offering : State :=
  { working with
    offer := { state := .waiting, current := some { asker := 5, askId := 8, n := 3, d := 23 }, timer := some 9000,
               endsAtReport := false } }
/-- R119, R120: the one lendable grain under the lowest free loan number. -/
theorem test_take_granted :
    let t := after (.take 5 3 8 2 m0) offering
    t.link.queue = [{ dest := 5, body := .grant 8 [{ loan := 1, bay := 1, grain := 1 }] }] ∧ t.f = 0
      ∧ tableFind t.mm.loans 1 = some { borrower := 5, epoch := epoch5, bay := 1, grain := 1 } ∧ t.offer.state = .idle := by
  decide
/-- R116: a TAKE to another station ends the WAITING offer. -/
theorem test_take_elsewhere : (after (.take 5 6 8 2 m0) offering).offer = OfferMachine.reset := by decide
/-- An ask whose TAKE is out. -/
def taking : State :=
  { working with
    ask := { AskMachine.reset with state := .taking, askId := 8, lender := some 5, offerCount := 2, timer := some 16484 } }
/-- R96: the GRANT's record joins the spare list and the ask ends well. -/
theorem test_grant_accepted :
    let t := after (.grant 5 3 8 [{ loan := 6, bay := 2, grain := 3 }] m0) taking
    t.mm.spares.map (·.loan) = [4, 6] ∧ peerOf t.mm 5 = { known := some epoch5, inUse := 1, spare := 2 } ∧ t.ask.state = .idle
      ∧ t.ask.lastAccepted = some (5, 8) := by decide
/-- R99: a GRANT nobody asked for is handed back. -/
theorem test_grant_stale :
    (after (.grant 5 3 8 [{ loan := 6, bay := 2, grain := 3 }] m0) working).link.queue
      = [{ dest := 5, body := .giveback .unused [6] }] := by decide
/-- R123: a loan comes home. R124: a stranger's is stale. -/
theorem test_giveback :
    (after (.giveback 5 3 .unused [0] m0) working).mm.loans = [] ∧ (after (.giveback 5 3 .unused [0] m0) working).f = 2
      ∧ (after (.giveback 6 3 .unused [0] m0) working).faults.counts.staleGivebacks = 1 := by decide
/-- R134: a first HAIL; R137: HAIL(LEAVING). -/
theorem test_hail :
    (after (.hail 6 (hail5 0) m0) ready).roster = [(6, { peer with lastHeard := some 100 })]
      ∧ isPresent (after (.hail 5 { hail5 0 with cond := .leaving } m0) working).roster 5 = false := by decide
/-- R108: a new epoch of a lender whose grains are in use: DATA-LOST, its spare dropped. -/
theorem test_hail_new_epoch :
    let t := after (.hail 5 { hail5 0 with formatCount := 2 } m0) working
    t.faults.has .dataLost = true ∧ t.mm.spares = [] ∧ t.mm.loans = [] := by decide
/-- R146: the same HAIL read as bits; one bit of the CRC wrong and it is not heard. -/
theorem test_frame_heard :
    let f := OutFrame.raw 6 { dest := broadcast, body := .hail (hail5 0) }
    (after (.frameHeard f m0) ready).roster = [(6, { peer with lastHeard := some 100 })]
      ∧ (after (.frameHeard { f with crc := f.crc ^^^ 1 } m0) ready).roster = [] := by decide +kernel
/-- A REPLY queued; in hand with an attempt on the link; with its eighth attempt on the link. -/
def queued : State := { ready with link := { Link.reset with queue := [told .ok 0 0 .none] } }
def driving (f : OutFrame) (retries : Nat) : State :=
  { ready with link := { Link.reset with hand := some { frame := f, retries := retries, driving := some (f.raw 3) } } }
/-- R150: the front frame goes in hand with retry count 0 and is driven. -/
theorem test_attempt_start :
    let f := told .ok 0 0 .none
    (after (.attemptStart m0) queued).link.hand = some { frame := f, retries := 0, driving := some (f.raw 3) }
      ∧ (after (.attemptStart m0) { queued with cond := .mute }).link = queued.link := by decide +kernel
/-- R150: arbitration lost keeps the frame and its retry count. -/
theorem test_arbitration_lost :
    (after (.arbitrationLost m0) (driving (told .ok 0 0 .none) 3)).link.hand
      = some { frame := told .ok 0 0 .none, retries := 3, driving := none } := by decide
/-- R95: the GRANT wait of 256 slots runs from the end of the TAKE. -/
theorem test_frame_ended :
    let s := { driving { dest := 5, body := .take 8 2 } 0 with ask := { taking.ask with timer := none } }
    (after (.frameEnded m0) s).link.hand = none ∧ (after (.frameEnded m0) s).ask.timer = some 16484 := by decide
/-- R150: the seventh failure keeps the frame, the eighth drops it. -/
theorem test_attempt_failed :
    (after (.attemptFailed m0) (driving (told .ok 0 0 .none) 6)).link.hand
        = some { frame := told .ok 0 0 .none, retries := 7, driving := none }
      ∧ (after (.attemptFailed m0) (driving (told .ok 0 0 .none) 7)).link.hand = none
      ∧ (after (.attemptFailed m0) (driving (told .ok 0 0 .none) 7)).faults.counts.framesDropped = 1 := by decide
/-- R51, R52: the hold of chunk 1 runs out at 20100 and its grain is free again. -/
theorem test_hold_expiry :
    (after (.holdExpiry m1) working).mm.pendings = [] ∧ (after (.holdExpiry m1) working).f = 2
      ∧ after (.holdExpiry m0) working = advance 100 working := by decide
/-- The working station with a TRIM range whose walker is due. -/
def trimming (first : Nat) (origin : RangeOrigin) : State :=
  { working with
    walkerTimer := some 100
    mm := { working.mm with
      trims := [{ volume := 1, first := first, last := 3, cursor := first, origin := origin, requester := 9, tag := 77 }] } }
/-- R41, R46, R103: with no grain free, the spare that the trimmed PENDING entry's rollback returned is taken again, and R90 is judged: a short
station asks. -/
theorem test_lookup_write_takes_the_spare_back :
    let lent : Entry := { state := .pending 8 70 20100, place := .remote 5 9 1 2 epoch5, shield := 0 }
    let s : State := { trimming 1 .trim with
      profile := { shelf with lowPermille := 1000 }, presence := [true, false],
      mm := { (trimming 1 .trim).mm with chunks := [(16777217, lent)], spares := [] } }
    let t := after (.lookupWrite m0) (asked s (lookup 1 1))
    t.mm.spares = [] ∧ entryOf t.mm 1 1 = some { lent with state := .pending 9 77 20100, shield := 1 }
      ∧ t.ask.state = .calling ∧ t.link.queue.length = 2 := by decide
/-- R68: chunk 0's grain is freed; R69: chunk 2's loan goes back to station 5. -/
theorem test_walker_frees :
    (after (.walkerPeriod m0) (trimming 0 .trim)).mm.freeSets.map (·.held) = [[1], [0]]
      ∧ (after (.walkerPeriod m0) (trimming 2 .trim)).link.queue = [{ dest := 5, body := .giveback .trimmed [9] }] := by
  decide
/-- R70: the range is done. -/
theorem test_walker_ends_range :
    (after (.walkerPeriod m0) (trimming 3 .trim)).link.queue = [told .trimmed 1 3 .none]
      ∧ (after (.walkerPeriod m0) (trimming 3 .trim)).mm.trims = [] := by decide
/-- R94, R98: the window runs out: BACKOFF for 10 ms. -/
theorem test_offer_window_expiry :
    let t := after (.offerWindowExpiry m1) calling
    t.ask.state = .backoff ∧ t.ask.timer = some 70000 ∧ t.faults.counts.askFailures = 1 := by decide
/-- R95: the GRANT wait runs out. -/
theorem test_grant_wait_expiry :
    (after (.grantWaitExpiry m1) taking).ask.state = .backoff ∧ (after (.grantWaitExpiry m0) taking).ask = taking.ask := by
  decide
/-- R98: the backoff runs out, the failure count kept. -/
theorem test_backoff_expiry :
    let s := { working with ask := { AskMachine.reset with state := .backoff, failures := 4, timer := some 100 } }
    (after (.backoffExpiry m0) s).ask = { AskMachine.reset with failures := 4 } := by decide
/-- R113: the OFFER is queued. R116: the TAKE wait ends the offer. -/
theorem test_offer_timer_expiry :
    let s := { working with offer := { offering.offer with state := .armed, timer := some 100 } }
    (after (.offerTimerExpiry m0) s).link.queue = [{ dest := broadcast, body := .offer 8 5 3 23 }]
      ∧ (after (.offerTimerExpiry m0) s).offer.state = .queued := by decide
/-- The TAKE of the open offer taken, the write of its grant in progress. -/
def granting : State := after (.take 5 3 8 3 { time := 100, writes := [.staysInProgress] }) offering
/-- R116, R118: a wait that runs out during the grant's write does not end the offer; the GRANT does. -/
theorem test_take_wait_expiry_granting :
    let t := after (.takeWaitExpiry m1) granting
    t.offer = offering.offer ∧ t.link.queue = [] ∧ (after (.mapMemoryWriteCompletion true m1) t).offer = OfferMachine.reset
      ∧ (after (.mapMemoryWriteCompletion true m1) t).link.queue.length = 1 := by decide
theorem test_take_wait_expiry :
    (after (.takeWaitExpiry m1) offering).offer = OfferMachine.reset ∧ (after (.takeWaitExpiry m0) offering).offer = offering.offer := by
  decide
/-- R104: a drain returns the spare. -/
theorem test_return_step :
    let t := after (.returnStep m0) { working with cond := .drain }
    t.mm.spares = [] ∧ t.link.queue = [{ dest := 5, body := .giveback .unused [4] }]
      ∧ after (.returnStep m0) working = advance 100 working := by decide
/-- R133: three intervals of 100 ms after time 0. -/
theorem test_peer_age_expiry :
    isPresent (after (.peerAgeExpiry 5 { time := 1200000, writes := [] }) working).roster 5 = false
      ∧ isPresent (after (.peerAgeExpiry 5 { time := 1199999, writes := [] }) working).roster 5 = true := by decide
/-- R141: the HAIL timer restarts and a HAIL waits. -/
theorem test_hail_timer_expiry :
    let t := after (.hailTimerExpiry m0) { ready with hailTimer := some 100 }
    t.hailTimer = some 400100 ∧ t.link.queue = [buildHail .ready ready] := by decide
/-- R161: a good start enters READY, a failed one HALTED. -/
theorem test_join_timer_expiry :
    let s := { ready with cond := .join, joinTimer := some 100 }
    (after (.joinTimerExpiry m0) s).cond = .ready ∧ (after (.joinTimerExpiry m0) { s with outcome := .halted }).cond = .halted := by
  decide
/-- R162: READY entered with the input asserted goes on to DRAIN at once, a write in progress or not. -/
theorem test_join_timer_expiry_service :
    let s := { working with cond := .join, joinTimer := some 100, servicePin := false }
    let w : MapWrite := { image := working.mm, rotor := 0, takes := false, onDone := [], goOn := [], onFail := [] }
    (after (.joinTimerExpiry m0) s).cond = .drain ∧ (after (.joinTimerExpiry m0) { s with inflight := some w }).cond = .drain := by
  decide
/-- R165: the drain is forced. -/
theorem test_drain_timer_expiry :
    let t := after (.drainTimerExpiry m0) { working with cond := .drain, drainTimer := some 100 }
    t.mm.pendings = [] ∧ t.faults.has .drainForced = true ∧ t.drainEnded = true := by decide
/-- R157: the supply goes; map memory stays; nothing but a start is taken. -/
theorem test_power_loss :
    let t := after (.powerLoss false) working
    t.powered = false ∧ t.mm = working.mm ∧ t.roster = [] ∧ after (.attemptStart m0) t = t := by decide
/-- R36: an access that is neither READ nor WRITE. R37: NOTREADY in HALTED. -/
theorem test_malformed_request :
    (after (.malformedRequest m0) (asked working (lookup 2 0))).link.queue = [told .badReq 1 0 .none]
      ∧ (after (.malformedRequest m0) (asked { working with cond := .halted } (lookup 2 0))).link.queue
          = [told .notReady 1 0 .none] := by decide
/-- R4: a write that stays in progress takes effect when it completes, and not before. -/
theorem test_write_completion :
    let t := after (.commit { time := 100, writes := [.staysInProgress] }) (asked working (commitOf 1))
    t.mm = working.mm ∧ t.link.queue = [] ∧ (after (.mapMemoryWriteCompletion true m0) t).mm.pendings = []
      ∧ (after (.mapMemoryWriteCompletion true m0) t).link.queue = [told .done 1 1 .none] := by decide
/-- R162: the filtered level of the service input is its level when START ends. -/
theorem test_service_level_at_the_end_of_start :
    let s : State := { ready with
      cond := .start, serviceLine := false, servicePin := true,
      inflight := some { image := ready.mm, rotor := 0, takes := false, onDone := [.startDone], goOn := [], onFail := [] } }
    let t := after (.mapMemoryWriteCompletion true m0) s
    t.cond = .join ∧ t.outcome = .ready ∧ t.servicePin = false := by decide
/-- R23: an unknown action on an ACTIVE volume is BADREQ with the volume's size. -/
theorem test_unknown_volume_action :
    (after (.malformedRequest m0) (asked working (volumeDo 4 1 0))).link.queue = [told .badReq 1 0 (.size 4)] := by decide

/-- A step takes the command at the front of the queue. -/
theorem test_step_takes_the_front :
    (match step { ready with pending := [.attemptStart m0, .powerLoss false] } with
      | .next t => t.pending = [.powerLoss false] ∧ t.powered = true
      | _ => False) := ⟨rfl, rfl⟩

/-! ## Stations and operands that meet what the statements ask

Each theorem is named after its statement. Where a statement has clauses, the theorem meets each, at the ends of the ranges the clause speaks of. -/

/-- The station at an event. -/
def at_ (m : Moment) (s : State) : State := advance m.time s

theorem on_at (m : Moment) (s : State) (h : s.powered = true) : OnAt m s (at_ m s) := ⟨h, rfl⟩

theorem rest_at (m : Moment) (s : State) (h1 : s.powered = true) (h2 : s.inflight = none) (h3 : s.tasks = []) :
    RestAt m s (at_ m s) := ⟨⟨h1, h2, h3⟩, rfl⟩

theorem takes_asked (m : Moment) (s : State) (f : RawFrame) (h1 : s.powered = true) (h2 : s.inflight = none) (h3 : s.tasks = [])
    (h4 : hasReplyPlace s = true) (h5 : s.cond = .ready ∨ (s.cond = .drain ∧ s.drainEnded = false) ∨ s.cond = .halted) :
    Takes m (asked s f) (at_ m (asked s f)) f [] :=
  { calm := ⟨⟨h1, h2, h3⟩, rfl⟩, buffer := rfl, room := h4, serves := h5 }

/-- The working station with other volumes, map entries or spares; in DRAIN; in HALTED; with its lender silent. -/
def inDrain : State := { working with cond := .drain }
def inHalted : State := { working with cond := .halted }
def lenderSilent : State := { working with roster := [] }
def lenderChanged : State := { working with roster := [(5, { peer with epoch := some { serial := 50, formatCount := 2 } })] }
def bayZeroOff : State := { working with presence := [false, true] }
/-- A range over every chunk of volume 1: the entries with shield 0 are logically trimmed. -/
def allTrimmed : State := { working with mm := (trimming 0 .trim).mm }
/-- No grain free and no spare. -/
def exhausted : State := { working with presence := [true, false], mm := { working.mm with spares := [] } }

theorem takes_working (m : Moment) (f : RawFrame) : Takes m (asked working f) (at_ m (asked working f)) f [] :=
  takes_asked m working f rfl rfl rfl (by decide) (.inl rfl)
theorem takes_ready (m : Moment) (f : RawFrame) : Takes m (asked ready f) (at_ m (asked ready f)) f [] :=
  takes_asked m ready f rfl rfl rfl (by decide) (.inl rfl)
theorem takes_drain (m : Moment) (f : RawFrame) : Takes m (asked inDrain f) (at_ m (asked inDrain f)) f [] :=
  takes_asked m inDrain f rfl rfl rfl (by decide) (.inr (.inl ⟨rfl, rfl⟩))
theorem takes_halted (m : Moment) (f : RawFrame) : Takes m (asked inHalted f) (at_ m (asked inHalted f)) f [] :=
  takes_asked m inHalted f rfl rfl rfl (by decide) (.inr (.inr rfl))

/-! ### The laws hold of a station at work -/

/-- The laws of map memory hold of the working station's. -/
theorem working_canonical : Canonical working.mm :=
  { volumes := by unfold tableWfRest tableWf rising; decide
    chunks := by unfold tableWf rising; decide
    loans := by unfold tableWf rising; decide
    peers := by unfold tableWfRest tableWf rising; decide
    freeSets := by unfold FreeSet.wf rising; decide }

theorem working_fits : Fits working.mm :=
  { sizes := by decide, chunks := by decide, pendings := by decide, pendingChunks := by decide, trims := by decide,
    ranges := by decide, loans := by decide, spares := by decide }

theorem working_grains : GrainLaw working.mm := by
  refine ⟨by intro g h; cases h; rfl, ?_⟩
  intro bay fs h grain
  match bay with
  | 0 =>
    cases h
    match grain with
    | 0 => decide
    | 1 => decide
    | n + 2 => simp [localCount, loanCount, working]
  | 1 =>
    cases h
    match grain with
    | 0 => decide
    | n + 1 => simp [localCount, loanCount, working]
  | n + 2 => cases h

theorem working_pendings : PendingLaw working.mm :=
  { named := by
      intro r h
      simp only [working, List.mem_singleton] at h
      subst h
      exact ⟨_, rfl, rfl⟩
    listed := by
      intro v c e requester tag expiry hc h hs
      simp only [entryOf, chunkKey, working, tableFind, Config.maxVolume] at h hc
      split at h
      · cases h; cases hs
      · split at h
        · cases h; cases hs
          rename_i hk
          have hv : v = 1 := by omega
          have hc' : c = 1 := by omega
          subst hv hc'
          decide
        · split at h
          · cases h; cases hs
          · cases h
    once := by decide
    order := by decide }

theorem working_shields : ShieldLaw working.mm := by
  intro v c e hc h
  simp only [entryOf, chunkKey, working, tableFind, Config.maxVolume] at h hc
  split at h
  · cases h; exact Nat.zero_le _
  · split at h
    · cases h; exact Nat.zero_le _
    · split at h
      · cases h; exact Nat.zero_le _
      · cases h

theorem working_pairs : PairLaw working.mm := by unfold PairLaw; decide

/-- Of a volume that is not volume 1 the station knows nothing. -/
theorem working_volume (v : Nat) (h : v ≠ 1) : volumeOf working.mm v = Volume.none := by
  simp [volumeOf, tableGet, tableFind, working, Ne.symm h]

theorem working_volumes : VolumeLaw working.mm := by
  refine ⟨?_, by decide, by decide, by decide, by decide⟩
  intro v
  by_cases h : v = 1
  · subst h; decide
  · rw [working_volume v h]
    simp [working, Config.maxVolume, Volume.none, Ne.symm h]

theorem working_spares : SpareLaw working.mm := ⟨by decide, by decide⟩

theorem working_roster : RosterLaw working :=
  { canonical := by unfold tableWfRest tableWf rising; decide, numbers := by decide, present := by decide }

theorem working_memory (law : MapMemory → Prop) (h : law working.mm) : memoryHolds law working :=
  ⟨h, fun _ hw => nomatch hw⟩

/-- A COMMIT is waiting in the buffer and at the front of the queue. -/
def front : State := { asked working (commitOf 1) with pending := [.commit m0] }

theorem front_steps : ∃ t, step front = .next t := ⟨_, rfl⟩

theorem front_memory (law : MapMemory → Prop) (h : law working.mm) : memoryHolds law front := ⟨h, fun _ hw => nomatch hw⟩

theorem witness_StepTakesFrontCommand : front.pending = Instr.commit m0 :: [] ∧ ready.pending = [] := ⟨rfl, rfl⟩
theorem witness_LinkAndFaultsKept :
    (let s : State := { working with cond := .join, joinTimer := some 100, pending := [.joinTimerExpiry m0] }
     SilentLaw s ∧ isSilent s.cond ∧ ∃ t, step s = .next t)
      ∧ AttentionLaw front ∧ CounterLaw front ∧ (∃ t, step front = .next t)
      ∧ (let s : State := { queued with pending := [.attemptStart m0] }
         QueueLaw s ∧ ∃ t, step s = .next t) :=
  ⟨⟨fun _ _ h => (nomatch h), .inr (.inl rfl), _, rfl⟩, rfl, ⟨by decide, by decide, by decide, by decide⟩, front_steps,
   { places := by decide, replies := by decide, order := by decide, retries := fun _ h => (nomatch h), buffer := by decide }, _, rfl⟩
theorem witness_MachinesAndRosterKept :
    (let s : State := { offering with ask := calling.ask, pending := [.take 5 3 8 2 m0] }
     MachineLaw s ∧ ∃ t, step s = .next t)
      ∧ RosterLaw front ∧ ∃ t, step front = .next t :=
  ⟨⟨{ askIdle := nofun, askBackoff := nofun, askFailures := by decide, offerIdle := by decide, offerIdleTimer := nofun,
      offerArmed := nofun, offerQueued := nofun, offerWaiting := by decide,
      offered := by intro o h; cases h; decide
      apart := nofun }, _, rfl⟩,
   { canonical := working_roster.canonical, numbers := working_roster.numbers, present := working_roster.present }, front_steps⟩
theorem witness_MemoryKept : memoryHolds (fun mm => Canonical mm ∧ Fits mm) front ∧ ∃ t, step front = .next t :=
  ⟨front_memory _ ⟨working_canonical, working_fits⟩, front_steps⟩
theorem witness_VolumesKept :
    memoryHolds (fun mm => Canonical mm ∧ Fits mm ∧ VolumeLaw mm) front ∧ FreeLaw front ∧ ∃ t, step front = .next t :=
  ⟨front_memory _ ⟨working_canonical, working_fits, working_volumes⟩, ⟨rfl, nofun, nofun⟩, front_steps⟩
theorem witness_GrainsKept : memoryHolds (fun mm => Canonical mm ∧ Fits mm ∧ GrainLaw mm) front ∧ ∃ t, step front = .next t :=
  ⟨front_memory _ ⟨working_canonical, working_fits, working_grains⟩, front_steps⟩
theorem witness_PendingsKept : memoryHolds (fun mm => Canonical mm ∧ Fits mm ∧ PendingLaw mm) front ∧ ∃ t, step front = .next t :=
  ⟨front_memory _ ⟨working_canonical, working_fits, working_pendings⟩, front_steps⟩
theorem witness_ShieldsKept : memoryHolds (fun mm => Canonical mm ∧ Fits mm ∧ ShieldLaw mm) front ∧ ∃ t, step front = .next t :=
  ⟨front_memory _ ⟨working_canonical, working_fits, working_shields⟩, front_steps⟩
theorem witness_PairsKept :
    memoryHolds (fun mm => Canonical mm ∧ Fits mm ∧ PairLaw mm) front
      ∧ memoryHolds (fun mm => Canonical mm ∧ Fits mm ∧ SpareLaw mm) front ∧ ∃ t, step front = .next t :=
  ⟨front_memory _ ⟨working_canonical, working_fits, working_pairs⟩, front_memory _ ⟨working_canonical, working_fits, working_spares⟩,
   front_steps⟩

/-- A drain whose timer runs, its service input asserted. -/
def drainOn : State := { working with cond := .drain, drainTimer := some 4000100, servicePin := false }
theorem witness_DrainsKept :
    let s : State := { asked drainOn (commitOf 1) with pending := [.commit m0] }
    memoryHolds (fun mm => Canonical mm ∧ Fits mm ∧ SpareLaw mm) s ∧ RosterLaw s ∧ DrainLaw s ∧ (∃ t, step s = .next t)
      ∧ s.cond = .drain ∧ s.drainEnded = false ∧ s.drainTimer ≠ none :=
  ⟨⟨⟨working_canonical, working_fits, working_spares⟩, fun _ hw => nomatch hw⟩,
   { canonical := working_roster.canonical, numbers := working_roster.numbers, present := working_roster.present },
   fun _ _ _ => .inl rfl, ⟨_, rfl⟩, by decide⟩
theorem witness_EpochKept : AtRest working ∧ (∃ t, exec (.attemptStart m0) working = .next t)
    ∧ (∀ pins rom takes m, Instr.attemptStart m0 ≠ .powerOn pins rom takes m)
    ∧ ∀ lowFor pins rom takes m, Instr.attemptStart m0 ≠ .resetPin lowFor pins rom takes m :=
  ⟨⟨rfl, rfl, rfl⟩, ⟨_, rfl⟩, nofun, nofun⟩

/-! ### The pool and the capacity arithmetic -/

/-- Low below high, low equal to high at the top, and a state's values at the ends. -/
theorem witness_MarksShortFlush :
    (400 ≤ 1000 ∧ 600 ≤ 1000 ∧ 400 < 600) ∧ (1000 ≤ 1000 ∧ 1000 ≤ 1000)
      ∧ working.profile.lowPermille ≤ 1000 ∧ working.profile.highPermille ≤ 1000
      ∧ working.profile.lowPermille = 0 ∧ State.reset.p = 0
      ∧ highMark working.p working.profile.lowPermille working.profile.highPermille = working.p := by decide

/-- A pool whose bay 0 has nothing free: the search from the last bay on finds grain (1, 1); an empty pool finds none; a pool of two free
grains gives both to a request for three. -/
theorem witness_GrainsTaken :
    let sets := working.mm.freeSets
    let empty : List FreeSet := [{ count := 2, held := [0, 1] }, { count := 1, held := [0] }]
    let both : List FreeSet := [{ count := 2, held := [0] }, { count := 2, held := [0] }]
    1 < [true, true].length ∧ sets.length = [true, true].length ∧ (∀ x ∈ sets, x.wf)
      ∧ (takeGrains [true, true] 1 sets 1).grains = (1, 1) :: []
      ∧ empty.length = [true, true].length ∧ (∀ x ∈ empty, x.wf) ∧ (takeGrains [true, true] 1 empty 1).grains = []
      ∧ both.length = [true, true].length ∧ (∀ x ∈ both, x.wf) ∧ 3 = 2 + 1
      ∧ (takeGrains [true, true] 1 both 1).grains ≠ [] ∧ (takeGrains [true, true] 3 both 1).grains.getLast? = some (0, 1) := by
  unfold FreeSet.wf rising
  decide

/-- A COMMIT's write is in progress. -/
def committing : State := after (.commit { time := 100, writes := [.staysInProgress] }) (asked working (commitOf 1))
theorem witness_BayChanges :
    RestAt m0 working (at_ m0 working) ∧ (at_ m0 working).poolUp = true ∧ Config.lineHold ≤ 80000
      ∧ (at_ m0 working).mm.freeSets.length = (at_ m0 working).presence.length
      ∧ (at_ m0 working).mm.freeSets[1]? = some { count := 2, held := [0] } ∧ (at_ m0 working).presence[1]? = some true
      ∧ RestAt m0 bayZeroOff (at_ m0 bayZeroOff)
      ∧ (at_ m0 bayZeroOff).mm.freeSets[0]? = some { count := 2, held := [0, 1] } ∧ (at_ m0 bayZeroOff).presence[0]? = some false
      ∧ OnAt m0 committing (at_ m0 committing) ∧ (at_ m0 committing).inflight ≠ none ∧ (at_ m0 committing).poolUp = true
      ∧ (at_ m0 committing).presence[1]? = some true
      ∧ (let s := { committing with presence := [true, false] }
         OnAt m0 s (at_ m0 s) ∧ (at_ m0 s).inflight ≠ none ∧ (at_ m0 s).presence[1]? = some false)
      ∧ 79999 < Config.lineHold ∧ (at_ m0 working).presence[23]? ≠ some true :=
  ⟨rest_at _ _ rfl rfl rfl, rfl, by decide, rfl, rfl, rfl, rest_at _ _ rfl rfl rfl, rfl, rfl, on_at _ _ rfl, by decide, rfl, rfl,
   ⟨on_at _ _ rfl, by decide, rfl⟩, by decide⟩

/-- The largest pool at its largest exposure, the manual's two small cases, an empty pool, and a pool whose every grain may be lent. -/
def largest : Figures := { p := 25165824, f := 25165824, e := 4294967296, freeLoans := 65536, rp := 500, ew := 1000, maxLoan := 8 }
theorem witness_LendableFigures :
    (largest.p ≤ 25165824 ∧ largest.f ≤ largest.p ∧ largest.e ≤ 4294967296 ∧ largest.rp ≤ 500 ∧ largest.ew ≤ 1000 ∧ 0 < largest.p
        ∧ headroom largest < 0)
      ∧ (let x : Figures := { largest with p := 999, f := 999, rp := 1 }; x.p = 999 ∧ x.rp = 1)
      ∧ (let x : Figures := { largest with e := 1, ew := 1 }; x.e = 1 ∧ x.ew = 1)
      ∧ (let x : Figures := { largest with p := 0, f := 0 }; x.f ≤ x.p ∧ x.p = 0)
      ∧ (let x : Figures := { largest with e := 0, rp := 0 }; 0 < headroom x ∧ lendable x = x.p)
      ∧ (let x : Figures := { largest with f := 25000, e := 0, rp := 0 }; x.p = 25165824 ∧ lendable x = 25000 ∧ lendable x * 1000 < x.p)
      ∧ [true, false][1]? = some false := by decide

theorem witness_OfferFigures :
    (share 0).f ≤ (share 0).p ∧ (share 1000).f ≤ (share 1000).p ∧ lendableShare (share 0) ≤ lendableShare (share 1000)
      ∧ 0 < (share 1000).p ∧ 0 < lendable (share 1000) ∧ lendable (share 0) = 0 := by decide

/-! ### Requests -/

/-- The last of 16 places is free; all are taken. -/
def fifteen : State := { ready with buffer := List.replicate 15 (lookup 0 0) }
def sixteen : State := { ready with buffer := List.replicate 16 (lookup 0 0) }
/-- A malformed ASK, which has no payload, to every station, and an ALERT. -/
def badAsk : RawFrame := sealFrame { cls := 3, sub := 0, source := 6, dest := 15, kind := 6, payload := [], crc := 0 }
def alertFrame : RawFrame := OutFrame.raw 6 { dest := broadcast, body := .alert .mapMem 0 }
theorem witness_FramesHeard :
    OnAt m0 fifteen (at_ m0 fifteen) ∧ OnAt m0 sixteen (at_ m0 sixteen) ∧ OnAt m0 State.reset (at_ m0 State.reset)
      ∧ ¬ servesRequests { asked ready (lookup 0 0) with cond := .quiet }
      ∧ crcGood { sealFrame (lookup 0 0) with crc := 0 } = false ∧ { lookup 0 0 with cls := 7 }.cls = 7
      ∧ (let f := sealFrame (lookup 0 0)
         crcGood f = true ∧ f.cls ≠ 7 ∧ 7 ≤ f.kind.toNat ∧ f.kind.toNat ≤ 12 ∧ f.dest ≠ broadcast
           ∧ (at_ m0 State.reset).cond = .start
           ∧ f.dest = (at_ m0 fifteen).own ∧ handsOn (at_ m0 fifteen) = true ∧ (at_ m0 fifteen).buffer.length < Config.bufferPlaces
           ∧ (at_ m0 sixteen).cond ≠ .start ∧ Config.bufferPlaces ≤ (at_ m0 sixteen).buffer.length)
      ∧ (let f := sealFrame { lookup 0 0 with dest := 15 }
         crcGood f = true ∧ f.cls ≠ 7 ∧ 7 ≤ f.kind.toNat ∧ f.kind.toNat ≤ 12 ∧ f.dest = broadcast ∧ (at_ m0 fifteen).cond ≠ .start)
      ∧ (crcGood badAsk = true ∧ badAsk.cls ≠ 7 ∧ badAsk.kind.toNat < 7 ∧ hearFrame badAsk = .malformed)
      ∧ (crcGood alertFrame = true ∧ alertFrame.cls ≠ 7 ∧ 12 < alertFrame.kind.toNat ∧ hearFrame alertFrame = .unowned)
      ∧ (at_ m0 ready).buffer = []
      ∧ hasReplyPlace { asked ready (lookup 0 0) with link := { Link.reset with reservedReplies := 24 } } = false := by
  refine ⟨on_at _ _ rfl, on_at _ _ rfl, on_at _ _ rfl, ?_, by decide +kernel⟩
  intro h
  rcases h with h | ⟨h, -⟩ | h <;> cases h

theorem witness_RequestsRead :
    255 < 256 ∧ 16777215 < 16777216 ∧ 4294967295 < 4294967296 ∧ 65535 < 65536 ∧ (lookup 0 0).cls = 4
      ∧ (lookup 0 2).kind = 7 ∧ (lookup 0 2).payload = encodeFields [(8, 1), (24, 2), (8, 0), (16, 77)]
      ∧ 1 < 255 ∧ (lookup 255 2).payload = encodeFields [(8, 1), (24, 2), (8, 255), (16, 77)]
      ∧ (commitOf 2).kind = 8 ∧ (trimOf 0 4294967295).kind = 9 ∧ (volumeDo 4 1 4).kind = 10 ∧ 3 < 4 ∧ (statusOf 1).kind = 11
      ∧ (clearOf 8191 1).kind = 12 ∧ (clearOf 8191 1).payload = encodeFields [(16, (8191 : BitVec 13).toNat), (8, 1), (16, 77)]
      ∧ 8192 < 65536 ∧ 8192 ≤ 8192
      ∧ 7 ≤ (lookup 0 0).kind.toNat ∧ { lookup 0 0 with cls := 5 }.cls ≠ 4 ∧ { clearOf 0 0 with payload := [] }.payload.length ≠ 5 := by
  decide

/-- READ lookups: of the working station each kind of entry, and the stations in which the lender or the bay is away. -/
theorem witness_ReadLookupAnswered :
    (∀ f, Takes m0 (asked working f) (at_ m0 (asked working f)) f []) ∧ (∀ f, Takes m0 (asked inHalted f) (at_ m0 (asked inHalted f)) f [])
      ∧ Takes m0 (asked bayZeroOff (lookup 0 0)) (at_ m0 (asked bayZeroOff (lookup 0 0))) (lookup 0 0) []
      ∧ Takes m0 (asked lenderSilent (lookup 0 2)) (at_ m0 (asked lenderSilent (lookup 0 2))) (lookup 0 2) []
      ∧ Takes m0 (asked lenderChanged (lookup 0 2)) (at_ m0 (asked lenderChanged (lookup 0 2))) (lookup 0 2) []
      ∧ Takes m0 (asked allTrimmed (lookup 0 0)) (at_ m0 (asked allTrimmed (lookup 0 0))) (lookup 0 0) []
      ∧ (∀ c, c = 0 ∨ c = 1 ∨ c = 2 ∨ c = 3 ∨ c = 4 → parseRequest 0 (lookup 0 c) = .lookup false 1 c 77)
      ∧ inHalted.cond = .halted ∧ working.cond ≠ .halted ∧ (volumeOf working.mm 2).state ≠ .active
      ∧ (volumeOf working.mm 1).state = .active ∧ (volumeOf working.mm 1).size ≤ 4 ∧ 3 < (volumeOf working.mm 1).size
      ∧ entryOf working.mm 1 3 = none
      ∧ entryOf working.mm 1 0 = some { state := .mapped 9 70, place := .here 0 0, shield := 0 }
      ∧ entryOf working.mm 1 1 = some { state := .pending 9 77 20100, place := .here 0 1, shield := 0 }
      ∧ entryOf working.mm 1 2 = some { state := .mapped 9 72, place := .remote 5 9 1 2 epoch5, shield := 0 }
      ∧ coveringCount allTrimmed.mm 1 0 = 1 ∧ coveringCount working.mm 1 0 ≤ 0
      ∧ working.presence.getD 0 false = true ∧ bayZeroOff.presence.getD 0 false = false
      ∧ isPresent lenderSilent.roster 5 = false ∧ isPresent working.roster 5 = true
      ∧ (rosterOf working.roster 5).epoch = some epoch5 ∧ (rosterOf lenderChanged.roster 5).epoch ≠ some epoch5 := by
  refine ⟨takes_working m0, takes_halted m0, takes_asked _ _ _ rfl rfl rfl (by decide) (.inl rfl),
    takes_asked _ _ _ rfl rfl rfl (by decide) (.inl rfl), takes_asked _ _ _ rfl rfl rfl (by decide) (.inl rfl),
    takes_asked _ _ _ rfl rfl rfl (by decide) (.inl rfl), ?_, by decide⟩
  rintro c (rfl | rfl | rfl | rfl | rfl) <;> decide

/-- WRITE lookups of live entries that another holds, that are MAPPED, that are the requester's own, with the place in each judgement; and
those turned away. -/
theorem witness_WriteLookupAnswered :
    (∀ f, Takes m0 (asked working f) (at_ m0 (asked working f)) f []) ∧ (∀ f, Takes m0 (asked inHalted f) (at_ m0 (asked inHalted f)) f [])
      ∧ (∀ f, Takes m0 (asked inDrain f) (at_ m0 (asked inDrain f)) f [])
      ∧ Takes m0 (asked bayZeroOff (lookup 1 0)) (at_ m0 (asked bayZeroOff (lookup 1 0))) (lookup 1 0) []
      ∧ Takes m0 (asked lenderSilent (lookup 1 2)) (at_ m0 (asked lenderSilent (lookup 1 2))) (lookup 1 2) []
      ∧ (∀ c, c = 0 ∨ c = 1 ∨ c = 2 ∨ c = 3 ∨ c = 4 → parseRequest 0 (lookup 1 c) = .lookup true 1 c 77)
      ∧ coveringCount working.mm 1 0 ≤ 0
      ∧ working.judge (.here 0 0) = .usable ∧ bayZeroOff.judge (.here 0 0) = .bayOff
      ∧ working.judge (.remote 5 9 1 2 epoch5) = .usable ∧ lenderSilent.judge (.remote 5 9 1 2 epoch5) = .unreachable
      ∧ entryOf working.mm 1 1 = some { state := .pending (lookup 1 1).source 77 20100, place := .here 0 1, shield := 0 }
      ∧ { lookup 1 1 with source := 8 }.source ≠ 9
      ∧ inHalted.cond = .halted ∧ (volumeOf working.mm 2).state ≠ .active ∧ (volumeOf working.mm 1).state = .active
      ∧ (volumeOf working.mm 1).size ≤ 4 ∧ 3 < (volumeOf working.mm 1).size ∧ inDrain.cond = .drain
      ∧ entryOf inDrain.mm 1 3 = none := by
  refine ⟨takes_working m0, takes_halted m0, takes_drain m0, takes_asked _ _ _ rfl rfl rfl (by decide) (.inl rfl),
    takes_asked _ _ _ rfl rfl rfl (by decide) (.inl rfl), ?_, by decide⟩
  rintro c (rfl | rfl | rfl | rfl | rfl) <;> decide

/-- Station 3 with no grain free in a PRESENT bay and an unusable spare before the usable one. -/
def spareOnly : State :=
  { working with
    presence := [true, false]
    mm := { working.mm with
      spares := { lender := 6, loan := 0, bay := 0, grain := 0, epoch := epoch5 } :: working.mm.spares } }
theorem witness_WriteAllocates :
    Takes m0 (asked working (lookup 1 3)) (at_ m0 (asked working (lookup 1 3))) (lookup 1 3) []
      ∧ Takes m0 (asked spareOnly (lookup 1 3)) (at_ m0 (asked spareOnly (lookup 1 3))) (lookup 1 3) []
      ∧ Canonical working.mm
      ∧ parseRequest 0 (lookup 1 3) = .lookup true 1 3 77 ∧ m0.writes = [] ∧ working.cond = .ready
      ∧ (volumeOf working.mm 1).state = .active ∧ 3 < (volumeOf working.mm 1).size ∧ entryOf working.mm 1 3 = none
      ∧ working.mm.chunks.length < Config.mapPlaces ∧ working.mm.pendings.length < Config.pendingPlaces
      ∧ (takeGrains working.presence 1 working.mm.freeSets working.rotor).grains = [(1, 1)]
      ∧ (takeGrains spareOnly.presence 1 spareOnly.mm.freeSets spareOnly.rotor).grains = []
      ∧ spareOnly.mm.spares = [{ lender := 6, loan := 0, bay := 0, grain := 0, epoch := epoch5 }]
          ++ { lender := 5, loan := 4, bay := 0, grain := 7, epoch := epoch5 } :: []
      ∧ (∀ x ∈ [({ lender := 6, loan := 0, bay := 0, grain := 0, epoch := epoch5 } : Spare)], spareUsable spareOnly.roster x = false)
      ∧ spareUsable spareOnly.roster { lender := 5, loan := 4, bay := 0, grain := 7, epoch := epoch5 } = true :=
  ⟨takes_working _ _, takes_asked _ _ _ rfl rfl rfl (by decide) (.inl rfl), working_canonical, by decide⟩

/-- Without a grain or a spare: with an ask in flight, with the machine IDLE and a peer PRESENT, and in BACKOFF. -/
def exhaustedCalling : State := { exhausted with ask := calling.ask }
def exhaustedBackoff : State := { exhausted with ask := { AskMachine.reset with state := .backoff, timer := some 100 } }
/-- A chunk map of some entries of volume 0's first chunk, and a pending list at its capacity. -/
def mapOf (chunks : Table Entry) : State := { ready with mm := { ready.mm with chunks := chunks } }
def mapFull : Table Entry := List.replicate Config.mapPlaces (0, { state := .mapped 9 70, place := .here 0 0, shield := 0 })
def pendingFull : State :=
  { ready with
    mm := { ready.mm with
      pendings := List.replicate 128 { volume := 1, chunk := 0, requester := 9, tag := 1, expiry := 20100 } } }
theorem witness_WriteFindsNoGrain :
    (∀ s, s = exhausted ∨ s = exhaustedCalling ∨ s = exhaustedBackoff →
      Takes m0 (asked s (lookup 1 3)) (at_ m0 (asked s (lookup 1 3))) (lookup 1 3) [])
      ∧ parseRequest 0 (lookup 1 3) = .lookup true 1 3 77 ∧ exhausted.cond = .ready
      ∧ (volumeOf exhausted.mm 1).state = .active ∧ 3 < (volumeOf exhausted.mm 1).size ∧ entryOf exhausted.mm 1 3 = none
      ∧ exhausted.mm.chunks.length < Config.mapPlaces ∧ exhausted.mm.pendings.length < Config.pendingPlaces
      ∧ (takeGrains exhausted.presence 1 exhausted.mm.freeSets exhausted.rotor).grains = []
      ∧ takeSpare exhausted.roster exhausted.mm = none
      ∧ askInFlight exhaustedCalling = true ∧ exhausted.ask.state = .idle ∧ anyShelfPresent exhausted.roster = true
      ∧ exhausted.link.occupied + 1 < Config.outboundPlaces ∧ exhausted.mm.spares.length < Config.sparePlaces
      ∧ exhaustedBackoff.ask.state = .backoff := by
  refine ⟨?_, by decide⟩
  rintro s (rfl | rfl | rfl) <;> exact takes_asked _ _ _ rfl rfl rfl (by decide) (.inl rfl)

theorem witness_WriteFindsNoGrain_full :
    (∀ chunks, Takes m0 (asked (mapOf chunks) (lookup 1 3)) (at_ m0 (asked (mapOf chunks) (lookup 1 3))) (lookup 1 3) [])
      ∧ (∀ chunks, (mapOf chunks).cond = .ready ∧ volumeOf (mapOf chunks).mm 1 = { state := .active, size := 4, count := 0 }) ∧ 3 < 4
      ∧ tableFind mapFull (chunkKey 1 3) = none ∧ Config.mapPlaces ≤ mapFull.length
      ∧ Takes m0 (asked pendingFull (lookup 1 3)) (at_ m0 (asked pendingFull (lookup 1 3))) (lookup 1 3) []
      ∧ entryOf pendingFull.mm 1 3 = none ∧ pendingFull.mm.chunks.length < Config.mapPlaces
      ∧ Config.pendingPlaces ≤ pendingFull.mm.pendings.length := by
  refine ⟨fun c => takes_asked m0 (mapOf c) _ rfl rfl rfl rfl (.inl rfl), fun _ => ⟨rfl, rfl⟩, by decide, ?_, ?_,
    takes_asked _ _ _ rfl rfl rfl rfl (.inl rfl), rfl, by decide, Nat.le_of_eq List.length_replicate.symm⟩
  · refine tableFind_none.mpr fun p h => ?_
    rw [(List.mem_replicate.mp h).2]
    decide
  · exact Nat.le_of_eq List.length_replicate.symm

theorem allTrimmed_canonical : Canonical allTrimmed.mm :=
  { volumes := working_canonical.volumes, chunks := working_canonical.chunks, loans := working_canonical.loans,
    peers := working_canonical.peers, freeSets := working_canonical.freeSets }

theorem witness_WriteReplacesOldEntry :
    Takes m0 (asked allTrimmed (lookup 1 0)) (at_ m0 (asked allTrimmed (lookup 1 0))) (lookup 1 0) []
      ∧ Takes m0 (asked lenderChanged (lookup 1 2)) (at_ m0 (asked lenderChanged (lookup 1 2))) (lookup 1 2) []
      ∧ Canonical working.mm ∧ Canonical allTrimmed.mm
      ∧ parseRequest 0 (lookup 1 0) = .lookup true 1 0 77 ∧ parseRequest 0 (lookup 1 2) = .lookup true 1 2 77
      ∧ allTrimmed.cond = .ready ∧ (volumeOf allTrimmed.mm 1).state = .active ∧ 0 < (volumeOf allTrimmed.mm 1).count
      ∧ 2 < (volumeOf allTrimmed.mm 1).size
      ∧ entryOf allTrimmed.mm 1 0 = some { state := .mapped 9 70, place := .here 0 0, shield := 0 }
      ∧ 0 < coveringCount allTrimmed.mm 1 0
      ∧ (takeGrains [true, true] 1 (giveGrain allTrimmed.mm.freeSets 0 0) 0).grains = [(0, 0)]
      ∧ entryOf lenderChanged.mm 1 2 = some { state := .mapped 9 72, place := .remote 5 9 1 2 epoch5, shield := 0 }
      ∧ coveringCount lenderChanged.mm 1 2 ≤ 0 ∧ lenderChanged.judge (.remote 5 9 1 2 epoch5) = .lost
      ∧ (takeGrains [true, true] 1 lenderChanged.mm.freeSets 0).grains = [(1, 1)]
      ∧ allTrimmed.mm.chunks.length ≤ Config.mapPlaces ∧ allTrimmed.mm.pendings.length < Config.pendingPlaces :=
  ⟨takes_asked _ _ _ rfl rfl rfl (by decide) (.inl rfl), takes_asked _ _ _ rfl rfl rfl (by decide) (.inl rfl), working_canonical,
   allTrimmed_canonical, by decide⟩

/-- Everything logically trimmed, and no grain free in a PRESENT bay: with the spare, with none, with none in BACKOFF, with none and an ask
in flight; and with a queue that has one place left. -/
def trimmedSpare : State := { allTrimmed with presence := [true, false] }
def trimmedNone : State := { trimmedSpare with mm := { trimmedSpare.mm with spares := [] } }
def trimmedBackoff : State := { trimmedNone with ask := exhaustedBackoff.ask }
def trimmedCalling : State := { trimmedNone with ask := calling.ask }
def trimmedCrowded : State := { allTrimmed with link := { Link.reset with reservedOthers := 31 } }
/-- Chunk 1 PENDING on a grain of a lender whose epoch has changed. -/
def lostPending : State :=
  { lenderChanged with
    mm := { working.mm with
      chunks := [(16777217, { state := .pending 9 77 20100, place := .remote 5 9 1 2 epoch5, shield := 0 })] } }
theorem witness_OldEntryDisposed :
    (∀ s c, s = allTrimmed ∨ s = trimmedSpare ∨ s = trimmedNone ∨ s = trimmedBackoff ∨ s = trimmedCalling ∨ s = trimmedCrowded
        ∨ s = lostPending →
      Takes m0 (asked s (lookup 1 c)) (at_ m0 (asked s (lookup 1 c))) (lookup 1 c) [] ∧ s.cond = .ready ∧ Canonical s.mm
        ∧ (volumeOf s.mm 1).state = .active ∧ 0 < (volumeOf s.mm 1).count ∧ 2 < (volumeOf s.mm 1).size
        ∧ s.mm.chunks.length ≤ Config.mapPlaces)
      ∧ (let old : Entry := { state := .mapped 9 72, place := .remote 5 9 1 2 epoch5, shield := 0 }
         let d (s : State) := disposeEntry s.roster s.presence s.mm 1 2 old
         entryOf allTrimmed.mm 1 2 = some old ∧ old.shield < coveringCount allTrimmed.mm 1 2
           ∧ (d allTrimmed).handback ≠ none ∧ (d allTrimmed).mm.pendings.length < Config.pendingPlaces
           ∧ 31 ≤ trimmedCrowded.link.occupied ∧ allTrimmed.link.occupied + 1 < 32
           ∧ (takeGrains allTrimmed.presence 1 (d allTrimmed).mm.freeSets 0).grains = [(1, 1)]
           ∧ (takeGrains trimmedSpare.presence 1 (d trimmedSpare).mm.freeSets 0).grains = []
           ∧ (d trimmedSpare).mm.spares = [] ++ { lender := 5, loan := 4, bay := 0, grain := 7, epoch := epoch5 } :: []
           ∧ spareUsable trimmedSpare.roster { lender := 5, loan := 4, bay := 0, grain := 7, epoch := epoch5 } = true
           ∧ takeSpare trimmedNone.roster (d trimmedNone).mm = none ∧ trimmedNone.ask.state = .idle
           ∧ anyShelfPresent trimmedNone.roster = true ∧ trimmedBackoff.ask.state = .backoff ∧ askInFlight trimmedCalling = true)
      ∧ (let old : Entry := { state := .pending 9 77 20100, place := .here 0 1, shield := 0 }
         entryOf allTrimmed.mm 1 1 = some old ∧ old.shield < coveringCount allTrimmed.mm 1 1
           ∧ (disposeEntry allTrimmed.roster allTrimmed.presence allTrimmed.mm 1 1 old).handback = none)
      ∧ (let old : Entry := { state := .pending 9 77 20100, place := .remote 5 9 1 2 epoch5, shield := 0 }
         entryOf lostPending.mm 1 1 = some old ∧ coveringCount lostPending.mm 1 1 ≤ old.shield ∧ lostPending.judge old.place = .lost
           ∧ (discardEntry lostPending.mm 1 1 old).pendings.length < Config.pendingPlaces)
      ∧ judgePlace lenderSilent.roster [] (.remote 5 9 1 2 epoch5) = .unreachable
      ∧ judgePlace working.roster [] (.remote 5 9 1 2 epoch5) ≠ .lost ∧ (peerOf working.mm 5).known = some epoch5
      ∧ judgePlace lenderChanged.roster [] (.remote 5 9 1 2 epoch5) = .lost
      ∧ (peerOf { working.mm with peers := [] } 5).known ≠ some epoch5 := by
  refine ⟨?_, by decide⟩
  rintro s c (rfl | rfl | rfl | rfl | rfl | rfl | rfl)
  case inr.inr.inr.inr.inr.inr =>
    refine ⟨takes_asked _ _ _ rfl rfl rfl rfl (.inl rfl), rfl, ?_, by decide⟩
    exact { volumes := working_canonical.volumes, chunks := by unfold tableWf rising; decide, loans := working_canonical.loans,
            peers := working_canonical.peers, freeSets := working_canonical.freeSets }
  all_goals
    refine ⟨takes_asked _ _ _ rfl rfl rfl rfl (.inl rfl), rfl, ?_, by decide⟩
    exact { volumes := allTrimmed_canonical.volumes, chunks := allTrimmed_canonical.chunks, loans := allTrimmed_canonical.loans,
            peers := allTrimmed_canonical.peers, freeSets := allTrimmed_canonical.freeSets }

theorem takes_drainOn (f : RawFrame) : Takes m0 (asked drainOn f) (at_ m0 (asked drainOn f)) f [] :=
  takes_asked m0 drainOn f rfl rfl rfl (by decide) (.inr (.inl ⟨rfl, rfl⟩))
theorem witness_CommitAnswered :
    (∀ f, Takes m0 (asked working f) (at_ m0 (asked working f)) f []) ∧ (∀ f, Takes m0 (asked drainOn f) (at_ m0 (asked drainOn f)) f [])
      ∧ drainOn.cond = .drain ∧ PendingLaw (at_ m0 (asked drainOn (commitOf 1))).mm
      ∧ hasPlace (withAnswer (commitOf 1) [] { tag := 77, status := .done, volume := 1, chunk := 1, part := .none }
          { at_ m0 (asked drainOn (commitOf 1)) with
            mm := { working.mm with
              chunks := tablePut working.mm.chunks (chunkKey 1 1) { state := .mapped 9 77, place := .here 0 1, shield := 0 }
              pendings := working.mm.pendings.filter fun r => !(r.volume == 1 && r.chunk == 1) } }) = true
      ∧ (∀ f, Takes m0 (asked inHalted f) (at_ m0 (asked inHalted f)) f [])
      ∧ (∀ c, c = 0 ∨ c = 1 ∨ c = 3 ∨ c = 4 → parseRequest 0 (commitOf c) = .commit 1 c 77)
      ∧ m0.writes = [] ∧ working.cond = .ready ∧ inHalted.cond = .halted
      ∧ (volumeOf working.mm 1).state = .active ∧ 3 < (volumeOf working.mm 1).size ∧ (volumeOf working.mm 1).size ≤ 4
      ∧ (volumeOf working.mm 2).state ≠ .active
      ∧ entryOf working.mm 1 1 = some { state := .pending (commitOf 1).source 77 20100, place := .here 0 1, shield := 0 }
      ∧ entryOf working.mm 1 3 = none
      ∧ entryOf working.mm 1 0 = some { state := .mapped 9 70, place := .here 0 0, shield := 0 } ∧ 70 ≠ 77
      ∧ (commitOf 0).source = 9 ∧ { commitOf 1 with source := 8 }.source ≠ 9 := by
  refine ⟨takes_working m0, takes_drainOn, rfl, working_pendings, by decide, takes_halted m0, ?_, by decide⟩
  rintro c (rfl | rfl | rfl | rfl) <;> decide

/-- Volume 1 with a trim queue that is full, and one place short of it. -/
def trimsQueued (n : Nat) : State :=
  { ready with
    mm := { ready.mm with
      trims := List.replicate n { volume := 1, first := 0, last := 3, cursor := 0, origin := .trim, requester := 9, tag := 1 } } }
theorem takes_trims (n : Nat) (f : RawFrame) : Takes m0 (asked (trimsQueued n) f) (at_ m0 (asked (trimsQueued n) f)) f [] :=
  takes_asked _ _ _ rfl rfl rfl rfl (.inl rfl)
theorem witness_TrimAnswered :
    (∀ n f, Takes m0 (asked (trimsQueued n) f) (at_ m0 (asked (trimsQueued n) f)) f [])
      ∧ (∀ f, Takes m0 (asked inHalted f) (at_ m0 (asked inHalted f)) f [])
      ∧ (∀ f, Takes m0 (asked drainOn f) (at_ m0 (asked drainOn f)) f []) ∧ drainOn.cond ≠ .halted
      ∧ parseRequest 0 (trimOf 3 0) = .trim 1 3 0 77 ∧ parseRequest 0 (trimOf 3 1) = .trim 1 3 1 77
      ∧ parseRequest 0 (trimOf 4 1) = .trim 1 4 1 77
      ∧ inHalted.cond = .halted ∧ (trimsQueued 7).cond = .ready ∧ m0.writes = [] ∧ (volumeOf ready.mm 2).state ≠ .active
      ∧ (volumeOf (trimsQueued 7).mm 1).state = .active ∧ (volumeOf (trimsQueued 7).mm 1).size ≤ 4
      ∧ 3 < (volumeOf (trimsQueued 7).mm 1).size
      ∧ Config.trimPlaces ≤ (trimsQueued 8).mm.trims.length ∧ (trimsQueued 7).mm.trims.length < Config.trimPlaces :=
  ⟨takes_trims, takes_halted m0, takes_drainOn, by decide⟩

/-- Volume 0 FREE, 1 ACTIVE, 2 RETIRING. -/
def volumes : State :=
  { ready with
    mm := { ready.mm with
      volumes := [(1, { state := .active, size := 4, count := 0 }), (2, { state := .retiring, size := 4, count := 0 })] } }
theorem witness_VolumesAnswered :
    (∀ f, Takes m0 (asked volumes f) (at_ m0 (asked volumes f)) f []) ∧ (∀ f, Takes m0 (asked inHalted f) (at_ m0 (asked inHalted f)) f [])
      ∧ (∀ f, Takes m0 (asked drainOn f) (at_ m0 (asked drainOn f)) f []) ∧ drainOn.cond ≠ .halted
      ∧ volumes.cond ≠ .halted ∧ m0.writes = [] ∧ inHalted.cond = .halted ∧ inHalted.headerRead = true
      ∧ (volumeOf inHalted.mm 1).state = .active ∧ (volumeOf volumes.mm 0).state = .free ∧ (volumeOf volumes.mm 1).state = .active ∧ (volumeOf volumes.mm 2).state = .retiring
      ∧ parseRequest 0 (volumeDo 1 1 9) = .create 1 9 77 ∧ parseRequest 0 (volumeDo 1 2 9) = .create 2 9 77
      ∧ parseRequest 0 (volumeDo 1 0 0) = .create 0 0 77 ∧ parseRequest 0 (volumeDo 1 0 4294967295) = .create 0 4294967295 77
      ∧ parseRequest 0 (volumeDo 3 2 9) = .grow 2 9 77 ∧ parseRequest 0 (volumeDo 3 1 3) = .grow 1 3 77
      ∧ parseRequest 0 (volumeDo 3 1 4) = .grow 1 4 77 ∧ parseRequest 0 (volumeDo 3 1 5) = .grow 1 5 77
      ∧ min 3 Config.maxVolume < 4 ∧ min 4 Config.maxVolume = 4 ∧ 4 < min 5 Config.maxVolume
      ∧ parseRequest 0 (volumeDo 2 2 0) = .delete 2 77 ∧ parseRequest 0 (volumeDo 2 1 0) = .delete 1 77
      ∧ Config.trimPlaces ≤ (trimsQueued 8).mm.trims.length ∧ (trimsQueued 7).mm.trims.length < Config.trimPlaces :=
  ⟨fun f => takes_asked _ _ f rfl rfl rfl (by decide) (.inl rfl), takes_halted m0, takes_drainOn, by decide⟩

theorem witness_MapMemoryFails :
    (∀ f, Takes mf (asked working f) (at_ mf (asked working f)) f []) ∧ (∀ f, Takes mf (asked volumes f) (at_ mf (asked volumes f)) f [])
      ∧ mf.writes = [.fails] ∧ working.cond = .ready ∧ working.link.queue = [] ∧ working.link.hand = none
      ∧ working.link.reservedReplies = 0 ∧ working.link.reservedOthers = 0 ∧ working.offer.state = .idle
      ∧ (parseRequest 0 (commitOf 1) = .commit 1 1 77 ∧ (volumeOf working.mm 1).state = .active ∧ 1 < (volumeOf working.mm 1).size
          ∧ entryOf working.mm 1 1 = some { state := .pending (commitOf 1).source 77 20100, place := .here 0 1, shield := 0 })
      ∧ (0 < 1 ∧ parseRequest 0 (trimOf 3 1) = .trim 1 3 1 77 ∧ working.mm.trims.length < Config.trimPlaces)
      ∧ parseRequest 0 (volumeDo 2 1 0) = .delete 1 77
      ∧ (parseRequest 0 (volumeDo 1 0 1) = .create 0 1 77 ∧ (volumeOf volumes.mm 0).state = .free)
      ∧ ((volumeOf volumes.mm 1).size < min 5 Config.maxVolume ∧ parseRequest 0 (volumeDo 3 1 5) = .grow 1 5 77)
      ∧ (parseRequest 0 (lookup 1 3) = .lookup true 1 3 77 ∧ 3 < (volumeOf working.mm 1).size ∧ entryOf working.mm 1 3 = none
          ∧ working.mm.chunks.length < Config.mapPlaces ∧ working.mm.pendings.length < Config.pendingPlaces
          ∧ (takeGrains working.presence 1 working.mm.freeSets working.rotor).grains ≠ [])
      ∧ State.reset.cond = .start ∧ inHalted.cond = .halted ∧ inDrain.cond = .drain ∧ { ready with cond := .quiet }.cond = .quiet :=
  ⟨takes_working mf, fun f => takes_asked _ _ f rfl rfl rfl (by decide) (.inl rfl), by decide⟩

/-- The working station with nothing lent. -/
def lentNone : State := { working with mm := { working.mm with loans := [] } }
theorem witness_MapMemoryFails_events :
    (∀ s, s = trimming 0 .trim ∨ s = offering ∨ s = taking ∨ s = working ∨ s = lentNone →
        RestAt mf s (at_ mf s) ∧ s.cond = .ready ∧ s.own = 3 ∧ (3 : Station) ≠ broadcast)
      ∧ ((trimming 0 .trim).walkerTimer = some 100 ∧ 100 ≤ (at_ mf (trimming 0 .trim)).now ∧ 1 ≤ shelf.walkerVisits
          ∧ (trimming 0 .trim).mm.trims ≠ [] ∧ hasReplyPlace (trimming 0 .trim) = true)
      ∧ (offering.offer.state = .waiting ∧ offering.offer.current = some { asker := 5, askId := 8, n := 3, d := 23 }
          ∧ hasPlace offering = true ∧ isPresent offering.roster 5 = true ∧ (rosterOf offering.roster 5).epoch ≠ none
          ∧ (takeGrains offering.presence (grantCount offering.figures (2 : Byte).toNat 3) offering.mm.freeSets offering.rotor).grains ≠ [])
      ∧ (wfGrant 3 [{ loan := 6, bay := 2, grain := 3 }] = true ∧ taking.ask.state = .taking ∧ taking.ask.lender = some 5
          ∧ taking.ask.askId = 8 ∧ 1 ≤ taking.ask.offerCount ∧ (rosterOf taking.roster 5).epoch ≠ none
          ∧ pairStands taking.mm 5 6 = false ∧ taking.mm.spares.length < Config.sparePlaces)
      ∧ (wfGiveback 3 [0] = true ∧ tableFind working.mm.loans 0 = some { borrower := 5, epoch := epoch5, bay := 1, grain := 0 })
      ∧ (let h := { hail5 0 with formatCount := 2 }
         h.q ≤ 1000 ∧ (5 : Station) ≠ lentNone.own ∧ (5 : Station) ≠ broadcast ∧ h.identity = 2 ∧ h.cond ≠ .leaving
           ∧ lentNone.loanUp = true ∧ (rosterOf lentNone.roster 5).state = .present
           ∧ (rosterOf lentNone.roster 5).epoch = some epoch5 ∧ (peerOf lentNone.mm 5).known = some epoch5
           ∧ epoch5 ≠ { serial := h.serial, formatCount := h.formatCount }
           ∧ (∀ r ∈ lentNone.mm.pendings, r.requester ≠ 5) ∧ lentNone.mm.loans = []) := by
  refine ⟨?_, by decide⟩
  rintro s (rfl | rfl | rfl | rfl | rfl) <;> exact ⟨rest_at _ _ rfl rfl rfl, rfl, rfl, by decide⟩

/-- A LOOKUP of another access, one whose payload is one byte short, a VOLUME of another action, and each other kind cut short. -/
def short (f : RawFrame) (n : Nat) : RawFrame := { f with payload := f.payload.take n }
theorem witness_StatusAndMalformed :
    (∀ f, Takes m0 (asked working f) (at_ m0 (asked working f)) f []) ∧ (∀ f, Takes m0 (asked inHalted f) (at_ m0 (asked inHalted f)) f [])
      ∧ (∃ v c, parseRequest 0 (short (lookup 2 0) 6) = .malformed v c 0)
      ∧ (∃ v c, parseRequest 0 (short (lookup 2 0) 0) = .malformed v c 0)
      ∧ (∃ v c, parseRequest 0 (short (commitOf 1) 5) = .malformed v c 0)
      ∧ (∃ v c, parseRequest 0 (short (trimOf 1 1) 9) = .malformed v c 0)
      ∧ parseRequest 0 (statusOf 0) = .pageZero 77 ∧ parseRequest 0 (statusOf 1) = .pageOne 77
      ∧ parseRequest 0 (clearOf 8191 1) = .clear 8191 true 77 ∧ working.loanUp = true ∧ working.headerRead = true
      ∧ inHalted.cond = .halted
      ∧ parseRequest 0 (lookup 2 0) = .malformed 1 0 77 ∧ (lookup 2 0).kind = 7 ∧ 7 ≤ (lookup 2 0).payload.length
      ∧ (commitOf 1).kind = 8 ∧ (trimOf 1 1).kind = 9 ∧ (volumeDo 4 1 0).kind = 10 ∧ (statusOf 2).kind = 11 ∧ (clearOf 0 2).kind = 12
      ∧ parseRequest 0 (volumeDo 4 1 0) = .unknownAction 1 77 ∧ (volumeOf working.mm 1).state = .active
      ∧ parseRequest 0 (volumeDo 0 2 0) = .unknownAction 2 77 ∧ (volumeOf working.mm 2).state ≠ .active
      ∧ parseRequest 0 (short (volumeDo 1 1 0) 7) = .malformed 1 0 0 ∧ parseRequest 0 (short (volumeDo 1 1 0) 1) = .malformed 0 0 0
      ∧ parseRequest 0 (statusOf 2) = .malformed 0 0 77 ∧ parseRequest 0 (short (statusOf 2) 2) = .malformed 0 0 0
      ∧ parseRequest 0 (clearOf 0 2) = .malformed 0 0 77 ∧ parseRequest 0 (short (clearOf 0 2) 4) = .malformed 0 0 0 :=
  ⟨takes_working m0, takes_halted m0, ⟨_, _, rfl⟩, ⟨_, _, rfl⟩, ⟨_, _, rfl⟩, ⟨_, _, rfl⟩, by decide⟩

/-! ### Borrowing -/

/-- In BACKOFF until 100, its failure count at the top. -/
def inBackoff : State := { working with ask := { AskMachine.reset with state := .backoff, failures := 255, timer := some 100 } }
/-- A short station with every place of the queue taken or not, and its offer in each state. -/
def shortOf (offer : OfferMachine) (link : Link) : State :=
  { working with profile := { shelf with lowPermille := 1000 }, offer := offer, link := link }
def offerIn (st : OfferState) : OfferMachine := { offering.offer with state := st }
def drivenOffer : Link :=
  { Link.reset with
    hand := some { frame := { dest := broadcast, body := .offer 8 5 3 23 }, retries := 0,
                   driving := some ((OutFrame.mk broadcast (.offer 8 5 3 23)).raw 3) } }
theorem witness_AskStarts :
    (∀ offer, offer = OfferMachine.reset ∨ offer = offerIn .waiting ∨ offer = offerIn .armed ∨ offer = offerIn .queued →
      let s := shortOf offer Link.reset
      s.cond = .ready ∧ s.short = true ∧ s.mm.spares.length < s.profile.spareTarget ∧ s.ask.state = .idle
        ∧ anyShelfPresent s.roster = true ∧ s.mm.spares.length < 32)
      ∧ working.short = false
      ∧ hasPlace (shortOf OfferMachine.reset Link.reset) = true
      ∧ (offerIn .waiting).state = .waiting ∧ (offerIn .armed).state = .armed ∧ (offerIn .queued).state = .queued
      ∧ (offerIn .queued).current = some { asker := 5, askId := 8, n := 3, d := 23 }
      ∧ isDriving (isOfferOf { asker := 5, askId := 8, n := 3, d := 23 }) (shortOf (offerIn .queued) drivenOffer) = true
      ∧ isDriving (isOfferOf { asker := 5, askId := 8, n := 3, d := 23 }) (shortOf (offerIn .queued) Link.reset) = false
      ∧ hasPlace (shortOf OfferMachine.reset { Link.reset with reservedOthers := 32 }) = false := by
  refine ⟨?_, by decide⟩
  rintro offer (rfl | rfl | rfl | rfl) <;> decide

/-- Another station's OFFER for the ask of station 5 to which this one has an offer open, in each state of the offer. -/
def offerOpen (st : OfferState) (link : Link) : State := { working with offer := offerIn st, link := link }
theorem witness_OfferHeard :
    OnAt m0 calling (at_ m0 calling) ∧ (∀ st link, OnAt m0 (offerOpen st link) (at_ m0 (offerOpen st link)))
      ∧ (3 : Station) ≠ broadcast ∧ handsOn calling = true ∧ calling.offer.current = none
      ∧ calling.ask.state = .calling ∧ calling.ask.timer ≠ none ∧ 3 = calling.own ∧ 8 = calling.ask.askId
      ∧ isPresentShelf calling.roster 5 = true ∧ 1 ≤ (1 : Byte).toNat ∧ calling.cond ≠ .halted ∧ hasPlace calling = true
      ∧ hasPlace { calling with link := { Link.reset with reservedOthers := 32 } } = false
      ∧ isPresentShelf calling.roster 6 = false
      ∧ (5 : Station) ≠ broadcast ∧ (5 : Station) ≠ working.own ∧ (6 : Station) ≠ working.own
      ∧ (offerOpen .armed Link.reset).offer.current = some { asker := 5, askId := 8, n := 3, d := 23 }
      ∧ isDriving (isOfferOf { asker := 5, askId := 8, n := 3, d := 23 }) (offerOpen .queued Link.reset) = false
      ∧ isDriving (isOfferOf { asker := 5, askId := 8, n := 3, d := 23 }) (offerOpen .queued drivenOffer) = true
      ∧ (offerOpen .waiting Link.reset).offer.state = .waiting := by
  refine ⟨on_at _ _ rfl, fun _ _ => on_at _ _ rfl, by decide⟩

/-- Waiting for a GRANT with 31 spares; the same in DRAIN; with another known epoch of the lender, its grain in use. Eight records: one
whose loan stands, one that fills the list, five that find it full, and one beyond an offer count of seven. -/
def spares31 : State :=
  { taking with
    ask := { taking.ask with offerCount := 7 }
    mm := { taking.mm with
      spares := (List.range 31).map fun i => { lender := 5, loan := 100 + i, bay := 0, grain := i, epoch := epoch5 } } }
def spares31Drain : State := { spares31 with cond := .drain, drainTimer := some 4000100 }
def olderKnown : State :=
  { taking with
    mm := { taking.mm with
      peers := [(5, { known := some { epoch5 with formatCount := 0 }, inUse := 1, spare := 0 })], spares := [] } }
def two : List GrantRecord := [{ loan := 6, bay := 2, grain := 3 }, { loan := 65535, bay := 23, grain := 1048575 }]
def mixed : List GrantRecord := { loan := 100, bay := 0, grain := 0 } :: (List.range 7).map fun i => { loan := i, bay := 31, grain := i }
def again : List GrantRecord := [{ loan := 4, bay := 0, grain := 7 }]
theorem witness_GrantHeard :
    (∀ s, s = spares31 ∨ s = spares31Drain ∨ s = olderKnown ∨ s = taking ∨ s = working →
      RestAt m0 s (at_ m0 s) ∧ s.own = 3 ∧ actsOnPeers s = true ∧ (rosterOf s.roster 5).epoch = some epoch5)
      ∧ m0.writes = [] ∧ wfGrant 3 two = true ∧ wfGrant 3 mixed = true ∧ wfGrant 3 again = true
      ∧ spares31.ask.state = .taking ∧ spares31.ask.lender = some 5 ∧ spares31.ask.askId = 8
      ∧ (let j := judgeGrant spares31.mm 5 epoch5 spares31.mm.spares (mixed.take 7)
         j.joined = 1 ∧ j.full = [1, 2, 3, 4, 5]
           ∧ ((mixed.drop 7).filter fun r => !pairStands { spares31.mm with spares := j.spares } 5 r.loan).map (·.loan) = [6])
      ∧ spares31.cond = .ready ∧ spares31Drain.cond = .drain
      ∧ hasPlace (after (.grant 5 3 8 mixed m0) spares31Drain) = true
      ∧ (peerOf olderKnown.mm 5).known = some { epoch5 with formatCount := 0 } ∧ 0 < (peerOf olderKnown.mm 5).inUse
      ∧ (judgeGrant olderKnown.mm 5 epoch5 olderKnown.mm.spares (two.take 2)).joined = 2
      ∧ (judgeGrant taking.mm 5 epoch5 taking.mm.spares (again.take 2)).joined = 0
      ∧ working.ask.state ≠ .taking ∧ { working with ask := { AskMachine.reset with lastAccepted := some (5, 8) } }.ask.lastAccepted = some (5, 8)
      ∧ working.ask.lastAccepted ≠ some (5, 8)
      ∧ (two.filter fun r => !pairStands working.mm 5 r.loan).map (·.loan) ≠ [] ∧ hasPlace working = true
      ∧ hasPlace { working with link := { Link.reset with reservedOthers := 32 } } = false
      ∧ (two.map (·.loan)).Nodup ∧ (mixed.map (·.loan)).Nodup
      ∧ pairStands { working.mm with spares := working.mm.spares } 5 4 = true := by
  refine ⟨?_, by decide⟩
  rintro s (rfl | rfl | rfl | rfl | rfl) <;> exact ⟨rest_at _ _ rfl rfl rfl, rfl, rfl, rfl⟩

/-- A flush station whose back spare is of a station that is away; the drain with its one spare; mixed spares of one lender. -/
def flushing : State :=
  { working with
    profile := { shelf with highPermille := 100 }
    mm := { working.mm with
      freeSets := [{ count := 2, held := [0, 1] }, { count := 2, held := [] }], loans := []
      spares := working.mm.spares ++ [{ lender := 6, loan := 0, bay := 0, grain := 0, epoch := epoch5 }] } }
def fives (n : Nat) : List Spare := (List.range n).map fun i => { lender := 5, loan := i, bay := 0, grain := i, epoch := epoch5 }
theorem witness_SparesReturned :
    RestAt m0 flushing (at_ m0 flushing) ∧ RestAt m0 working (at_ m0 working) ∧ RestAt m0 drainOn (at_ m0 drainOn)
      ∧ m0.writes = [] ∧ returnDue working = false
      ∧ hasPlace { flushing with link := { Link.reset with reservedOthers := 32 } } = false
      ∧ (∀ x ∈ flushing.mm.spares, spareUsable lenderSilent.roster x = false)
      ∧ returnDue flushing = true ∧ flushing.cond = .ready ∧ flushing.flush = true ∧ hasPlace flushing = true
      ∧ flushing.mm.spares = [] ++ { lender := 5, loan := 4, bay := 0, grain := 7, epoch := epoch5 }
          :: [{ lender := 6, loan := 0, bay := 0, grain := 0, epoch := epoch5 }]
      ∧ spareUsable flushing.roster { lender := 5, loan := 4, bay := 0, grain := 7, epoch := epoch5 } = true
      ∧ (∀ x ∈ [({ lender := 6, loan := 0, bay := 0, grain := 0, epoch := epoch5 } : Spare)], spareUsable flushing.roster x = false)
      ∧ (let goes (x : Spare) : Bool := spareUsable flushing.roster x && x.lender == 5
         (flushing.mm.spares = [] ++ flushing.mm.spares ∧ flushing.mm.spares.countP goes = min 8 (flushing.mm.spares.countP goes))
           ∧ fives 9 = (fives 9).take 1 ++ (fives 9).drop 1 ∧ ((fives 9).drop 1).countP goes = min 8 ((fives 9).countP goes))
      ∧ returnDue drainOn = true ∧ drainOn.cond = .drain ∧ drainOn.mm.spares = working.mm.spares
      ∧ hasPlace (after (.returnStep m0) drainOn) = true :=
  ⟨rest_at _ _ rfl rfl rfl, rest_at _ _ rfl rfl rfl, rest_at _ _ rfl rfl rfl, by decide⟩

/-! ### Lending -/

theorem witness_AskHeard :
    OnAt m0 working (at_ m0 working) ∧ working.offer.current = none ∧ working.cond ≠ .start
      ∧ (working.cond = .ready ∧ askInFlight working = false ∧ working.short = false ∧ isPresentShelf working.roster 5 = true
          ∧ 1 ≤ offerCount working.figures (0 : Byte).toNat)
      ∧ isPresentShelf working.roster 6 = false
      ∧ (∀ st link, OnAt m0 (offerOpen st link) (at_ m0 (offerOpen st link))) ∧ handsOn (offerOpen .waiting Link.reset) = true
      ∧ (offerOpen .waiting Link.reset).offer.current = some { asker := 5, askId := 8, n := 3, d := 23 }
      ∧ (offerOpen .waiting Link.reset).offer.state ≠ .idle ∧ (5 : Station) ≠ 6 ∧ (8 : AskId) ≠ 9
      ∧ (offerOpen .armed Link.reset).offer.state ≠ .queued
      ∧ isDriving (isOfferOf { asker := 5, askId := 8, n := 3, d := 23 }) (offerOpen .queued Link.reset) = false
      ∧ isDriving (isOfferOf { asker := 5, askId := 8, n := 3, d := 23 }) (offerOpen .queued drivenOffer) = true := by
  refine ⟨on_at _ _ rfl, rfl, by decide, by decide, by decide, fun _ _ => on_at _ _ rfl, by decide⟩

def armedNow : State := { working with offer := { offering.offer with state := .armed, timer := some 100 } }
theorem witness_LoanTimersExpire :
    (OnAt m1 granting (at_ m1 granting) ∧ granting.offer.current = some { asker := 5, askId := 8, n := 3, d := 23 }
        ∧ granting.offer.timer = some 9000 ∧ ∃ w rs, granting.inflight = some w ∧ Task.granted 5 8 rs ∈ w.onDone)
      ∧ OnAt m1 calling (at_ m1 calling) ∧ OnAt m1 taking (at_ m1 taking) ∧ OnAt m0 calling (at_ m0 calling)
      ∧ RestAt m0 inBackoff (at_ m0 inBackoff) ∧ RestAt { m0 with time := 99 } inBackoff (at_ { m0 with time := 99 } inBackoff)
      ∧ OnAt m0 armedNow (at_ m0 armedNow) ∧ OnAt m1 offering (at_ m1 offering)
      ∧ inBackoff.ask.failures ≤ 255 ∧ calling.ask.failures ≤ 255 ∧ calling.faults.counts.askFailures ≤ 65535
      ∧ calling.ask.state = .calling ∧ calling.ask.timer = some 2660 ∧ 2660 ≤ (at_ m1 calling).now ∧ (at_ m0 calling).now < 2660
      ∧ taking.ask.state = .taking ∧ taking.ask.timer = some 16484 ∧ 16484 ≤ (at_ m1 taking).now ∧ (at_ m0 taking).now < 16484
      ∧ inBackoff.ask.state = .backoff ∧ inBackoff.ask.timer = some 100 ∧ 100 ≤ (at_ m0 inBackoff).now
      ∧ (at_ { m0 with time := 99 } inBackoff).now < 100
      ∧ armedNow.offer.current = some { asker := 5, askId := 8, n := 3, d := 23 } ∧ armedNow.offer.timer = some 100
      ∧ 100 ≤ (at_ m0 armedNow).now ∧ armedNow.offer.state = .armed ∧ armedNow.cond = .ready ∧ hasPlace armedNow = true
      ∧ hasPlace { armedNow with link := { Link.reset with reservedOthers := 32 } } = false
      ∧ offering.offer.timer = some 9000 ∧ 9000 ≤ (at_ m1 offering).now ∧ offering.offer.state = .waiting ∧ offering.inflight = none :=
  ⟨⟨on_at _ _ rfl, rfl, rfl, _, _, rfl, .head _⟩, on_at _ _ rfl, on_at _ _ rfl, on_at _ _ rfl, rest_at _ _ rfl rfl rfl,
   rest_at _ _ rfl rfl rfl, on_at _ _ rfl, on_at _ _ rfl, by decide⟩

theorem witness_TakeGranted :
    RestAt m0 offering (at_ m0 offering) ∧ Canonical offering.mm ∧ tableWf offering.mm.loans
      ∧ m0.writes = [] ∧ (3 : Station) ≠ broadcast ∧ 3 = offering.own
      ∧ offering.cond = .ready ∧ offering.offer.state = .waiting
      ∧ offering.offer.current = some { asker := 5, askId := 8, n := 3, d := 23 } ∧ hasPlace offering = true
      ∧ isPresent offering.roster 5 = true ∧ (rosterOf offering.roster 5).epoch = some epoch5
      ∧ (takeGrains offering.presence (grantCount offering.figures (255 : Byte).toNat 3) offering.mm.freeSets offering.rotor).grains ≠ [] :=
  ⟨rest_at _ _ rfl rfl rfl, working_canonical, working_canonical.loans, by decide⟩

theorem witness_TakeOtherwise :
    RestAt m0 offering (at_ m0 offering) ∧ RestAt m0 working (at_ m0 working) ∧ (3 : Station) ≠ broadcast ∧ (6 : Station) ≠ broadcast
      ∧ actsOnPeers offering = true ∧ actsOnPeers { offering with cond := .drain } = true ∧ 3 = offering.own ∧ 6 ≠ offering.own
      ∧ offering.offer.current = some { asker := 5, askId := 8, n := 3, d := 23 } ∧ offering.offer.state = .waiting
      ∧ hasPlace { offering with link := { Link.reset with reservedOthers := 32 } } = false ∧ hasPlace offering = true
      ∧ { offering with cond := .drain }.cond = .drain ∧ isPresent lenderSilent.roster 5 = false
      ∧ grantCount offering.figures (0 : Byte).toNat 3 = 0
      ∧ working.offer.current = none
      ∧ tableFind [((5 : Nat), ({ askId := 8, records := [] } : LastGrant))] 5 = some { askId := 8, records := [] }
      ∧ tableFind working.lastGrants 5 = none ∧ working.offer.state ≠ .waiting :=
  ⟨rest_at _ _ rfl rfl rfl, rest_at _ _ rfl rfl rfl, by decide⟩

/-- A GIVEBACK of a loan of the sender's, named twice, and of numbers that are not; in READY and in DRAIN. -/
theorem witness_GivebackHeard :
    RestAt m0 working (at_ m0 working) ∧ RestAt m0 drainOn (at_ m0 drainOn) ∧ Canonical working.mm ∧ Canonical drainOn.mm
      ∧ CounterLaw working ∧ CounterLaw drainOn
      ∧ m0.writes = [] ∧ wfGiveback 3 [0, 65535, 0] = true ∧ wfGiveback 3 (List.range 8) = true ∧ 3 = working.own ∧ 3 = drainOn.own
      ∧ actsOnPeers working = true ∧ actsOnPeers drainOn = true
      ∧ (let mine (n : Nat) : Bool := (tableFind working.mm.loans n).any fun l => l.borrower == 5
         mine 0 = true ∧ mine 65535 = false
           ∧ [0, 65535, 0].length - (([0, 65535, 0].filter mine).eraseDups).length = 2
           ∧ [0].length - (([0].filter mine).eraseDups).length = 0) :=
  ⟨rest_at _ _ rfl rfl rfl, rest_at _ _ rfl rfl rfl, working_canonical, working_canonical,
   ⟨by decide, by decide, by decide, by decide⟩, ⟨by decide, by decide, by decide, by decide⟩, by decide⟩

/-! ### The roster and frames heard -/

/-- The peer's record in each state. -/
def peerIs (st : PeerState) : State := { working with roster := [(5, { peer with state := st })] }
theorem witness_HailHeard :
    OnAt m0 working (at_ m0 working) ∧ OnAt m0 State.reset (at_ m0 State.reset) ∧ (hail5 1000).q ≤ 1000
      ∧ (∀ st, OnAt m0 (peerIs st) (at_ m0 (peerIs st)) ∧ AtRest (peerIs st))
      ∧ (∀ st link, OnAt m0 (offerOpen st link) (at_ m0 (offerOpen st link)) ∧ AtRest (offerOpen st link)
          ∧ (offerOpen st link).cond = .ready)
      ∧ OnAt m0 drainOn (at_ m0 drainOn) ∧ AtRest drainOn ∧ drainOn.cond = .drain ∧ drainOn.link.occupied < 32
      ∧ serviceAsserted drainOn = true
      ∧ (5 : Station) ≠ working.own ∧ (5 : Station) ≠ broadcast ∧ (5 : Station) ≠ State.reset.own ∧ State.reset.cond = .start
      ∧ working.cond ≠ .start ∧ (hail5 0).identity = 2 ∧ (hail5 0).cond ≠ .leaving ∧ { hail5 0 with cond := .leaving }.cond = .leaving
      ∧ { hail5 0 with identity := 1 }.identity ≠ 2 ∧ { hail5 0 with identity := 255 }.identity ≠ 2
      ∧ { hail5 0 with kind := .requester }.kind = .requester ∧ (hail5 0).kind = .shelf
      ∧ (rosterOf working.roster 5).state = .present ∧ (rosterOf (peerIs .silent).roster 5).state ≠ .present
      ∧ (rosterOf (peerIs .lost).roster 5).epoch = some epoch5 ∧ (rosterOf ready.roster 5).epoch = none
      ∧ epoch5 = { serial := (hail5 0).serial, formatCount := (hail5 0).formatCount }
      ∧ (peerOf working.mm 5).known = some epoch5 ∧ (peerOf ready.mm 5).known = none ∧ working.loanUp = true
      ∧ (∀ p ∈ working.mm.loans, p.2.borrower = 5 → p.2.epoch = epoch5)
      ∧ (∀ r ∈ working.mm.pendings, r.requester ≠ 5)
      ∧ working.offer.current = none ∧ taking.ask.state = .taking ∧ taking.ask.lender = some 5
      ∧ (offerOpen .armed Link.reset).offer.current = some { asker := 5, askId := 8, n := 3, d := 23 }
      ∧ (offerOpen .waiting Link.reset).offer.state = .waiting
      ∧ isDriving (isOfferOf { asker := 5, askId := 8, n := 3, d := 23 }) (offerOpen .queued drivenOffer) = true
      ∧ isDriving (isOfferOf { asker := 5, askId := 8, n := 3, d := 23 }) (offerOpen .queued Link.reset) = false :=
  ⟨on_at _ _ rfl, on_at _ _ rfl, by decide, fun _ => ⟨on_at _ _ rfl, rfl, rfl, rfl⟩,
   fun _ _ => ⟨on_at _ _ rfl, ⟨rfl, rfl, rfl⟩, rfl⟩, on_at _ _ rfl, ⟨rfl, rfl, rfl⟩, by decide⟩

/-- A PRESENT record that takes another epoch; a LOST one that becomes PRESENT with the epoch it had, its lender's known epoch being older. -/
def knownOlder : State :=
  { peerIs .lost with
    mm := { working.mm with peers := [(5, { known := some { epoch5 with formatCount := 0 }, inUse := 1, spare := 0 })], spares := [] } }
theorem witness_NewEpochTaken :
    RestAt m0 working (at_ m0 working) ∧ RestAt m0 knownOlder (at_ m0 knownOlder) ∧ m0.writes = []
      ∧ (let h := { hail5 1000 with formatCount := 2 }
         h.q ≤ 1000 ∧ (5 : Station) ≠ working.own ∧ (5 : Station) ≠ broadcast ∧ working.cond = .ready ∧ working.loanUp = true
           ∧ h.identity = 2 ∧ h.cond ≠ .leaving ∧ (rosterOf working.roster 5).state = .present
           ∧ (rosterOf working.roster 5).epoch = some epoch5 ∧ epoch5 ≠ { serial := h.serial, formatCount := h.formatCount }
           ∧ (peerOf working.mm 5).known = some epoch5 ∧ working.mm.pendings.length ≤ 128 ∧ 0 < (peerOf working.mm 5).inUse)
      ∧ (∀ r ∈ working.mm.pendings, r.requester ≠ 5)
      ∧ (peerOf knownOlder.mm 5).known = some { epoch5 with formatCount := 0 }
      ∧ { epoch5 with formatCount := 0 } ≠ { epoch5 with serial := (hail5 0).serial }
      ∧ (rosterOf knownOlder.roster 5).state ≠ .present ∧ (rosterOf knownOlder.roster 5).epoch = some epoch5
      ∧ (5 : Station) ≠ knownOlder.own ∧ knownOlder.cond = .ready ∧ knownOlder.loanUp = true :=
  ⟨rest_at _ _ rfl rfl rfl, rest_at _ _ rfl rfl rfl, by decide⟩

theorem witness_DuplicateMutes :
    OnAt m0 working (at_ m0 working) ∧ (hail5 1000).q ≤ 1000 ∧ working.cond ≠ .start ∧ working.cond ≠ .mute
      ∧ (let s := { ready with profileRead := false }
         OnAt m0 s (at_ m0 s) ∧ (at_ m0 s).profileRead = false)
      ∧ (let s := { working with cond := .mute }
         OnAt m0 s (at_ m0 s) ∧ (at_ m0 s).cond = .mute)
      ∧ (hail5 1000).serial ≠ working.profile.serial
      ∧ (let h := { hail5 1000 with identity := 0, serial := 7 }
         h.identity ≠ 1 ∧ h.identity ≠ 2)
      ∧ (let h := { hail5 1000 with identity := 3, serial := 7 }
         h.identity ≠ 1 ∧ h.identity ≠ 2)
      ∧ (let h := { hail5 1000 with identity := 1, serial := 7 }
         working.profileRead ≠ false ∧ h.identity = 1 ∧ h.serial = working.profile.serial) :=
  ⟨on_at _ _ rfl, by decide, by decide, by decide, ⟨on_at _ _ rfl, rfl⟩, ⟨on_at _ _ rfl, rfl⟩, by decide⟩

/-- Eight records, each field at its top. -/
def eight : List GrantRecord := List.replicate 8 { loan := 65535, bay := 31, grain := 1048575 }
theorem witness_FramesReadBack :
    (14 : Station) ≠ broadcast ∧ wfGrant 14 eight = true ∧ wfGrant 0 [] = true ∧ wfGiveback 14 (List.replicate 8 65535) = true
      ∧ (hail5 1000).q ≤ 1000 ∧ OnAt m0 ready (at_ m0 ready) ∧ OnAt m0 State.reset (at_ m0 State.reset)
      ∧ ready.cond ≠ .start ∧ State.reset.cond = .start :=
  ⟨by decide, by decide, by decide, by decide, by decide, on_at _ _ rfl, on_at _ _ rfl, by decide⟩

/-! ### The outbound queue and the link -/

theorem witness_FramesAndReports :
    (queued.link.queue.Pairwise fun a b => a.rank ≤ b.rank)
      ∧ faulted.faults.flags.getLsbD Flag.mapMem.number = true
      ∧ ready.faults.flags.getLsbD Flag.mapMem.number = false ∧ ready.faults.enables.getLsbD Flag.mapMem.number = true
      ∧ { ready.faults with enables := 0 }.enables.getLsbD Flag.mapMem.number = false
      ∧ offerFrame { dest := broadcast, body := .alert .mapMem ready.cond.code } ready ≠ none
      ∧ offerFrame { dest := broadcast, body := .alert .mapMem 0 } { ready with cond := .mute } = none := by decide

/-- A frame in hand between attempts. -/
def waiting : State :=
  { ready with link := { Link.reset with hand := some { frame := told .ok 0 0 .none, retries := 7, driving := none } } }
theorem witness_AttemptsBegin :
    OnAt m0 waiting (at_ m0 waiting) ∧ OnAt m0 queued (at_ m0 queued) ∧ OnAt m0 ready (at_ m0 ready)
      ∧ (∀ f n, OnAt m0 (driving f n) (at_ m0 (driving f n)))
      ∧ isSilent State.reset.cond ∧ ¬ isSilent ready.cond
      ∧ waiting.link.hand = some { frame := told .ok 0 0 .none, retries := 7, driving := none }
      ∧ ready.cond ≠ .halted ∧ (told .notReady 0 0 .none).sentInHalted = true ∧ (told .ok 0 0 .none).sentInHalted = false
      ∧ queued.link.hand = none ∧ queued.link.queue = told .ok 0 0 .none :: [] ∧ ready.link.queue = []
      ∧ (∃ h raw, (driving (told .ok 0 0 .none) 7).link.hand = some h ∧ h.driving = some raw) ∧ notDriving ready
      ∧ (∀ s : State, OnAt m0 { s with powered := true, cond := .halted } (at_ m0 { s with powered := true, cond := .halted }))
      ∧ (∃ h, waiting.link.hand = some h ∧ h.frame.sentInHalted = false)
      ∧ (∃ h, (driving (told .ok 0 0 .none) 7).link.hand = some h ∧ h.driving ≠ none) := by
  refine ⟨on_at _ _ rfl, on_at _ _ rfl, on_at _ _ rfl, fun _ _ => on_at _ _ rfl, .inl rfl, ?_, rfl, by decide, by decide, by decide,
    rfl, rfl, rfl, ⟨_, _, rfl, rfl⟩, fun _ h => (nomatch h), fun _ => on_at _ _ rfl, ⟨_, rfl, rfl⟩, ⟨_, rfl, nofun⟩⟩
  intro h
  rcases h with h | h | h | h <;> cases h

theorem witness_AttemptsEnd :
    (∀ f n, RestAt m0 (driving f n) (at_ m0 (driving f n)))
      ∧ (∀ f n, ∃ h raw, (driving f n).link.hand = some h ∧ h.frame = f ∧ h.retries = n ∧ h.driving = some raw)
      ∧ (∀ f n, (driving f n).cond = .ready)
      ∧ (let s := { driving { dest := broadcast, body := .ask 8 4 } 7 with ask := { calling.ask with timer := none } }
         s.ask.state = .calling ∧ s.ask.askId = 8)
      ∧ (let s := { driving { dest := 5, body := .take 8 2 } 7 with ask := { taking.ask with timer := none } }
         s.ask.state = .taking ∧ s.ask.askId = 8)
      ∧ (let s := { driving { dest := broadcast, body := .offer 8 5 3 23 } 7 with offer := { offerIn .queued with timer := none } }
         s.offer.state = .queued ∧ s.offer.current = some { asker := 5, askId := 8, n := 3, d := 23 } ∧ s.offer.endsAtReport = false)
      ∧ { offerIn .queued with endsAtReport := true }.endsAtReport = true ∧ 6 < 7 ∧ 7 ≤ 7 ∧ (hail5 0).cond ≠ .leaving := by
  refine ⟨fun _ _ => rest_at _ _ rfl rfl rfl, fun _ _ => ⟨_, _, rfl, rfl, rfl, rfl⟩, fun _ _ => rfl, by decide⟩

/-! ### The walker and the rollbacks -/

/-- Chunk 0 with a shield of 1 under its range; chunk 2's lender changed; a queue without a place. -/
def shielded : State :=
  { trimming 0 .trim with
    mm := { (trimming 0 .trim).mm with
      chunks := [(16777216, { state := .mapped 9 70, place := .here 0 0, shield := 1 })] } }
def noPlace (s : State) : State := { s with link := { Link.reset with reservedOthers := 32 } }
/-- A REMOTE PENDING entry under the walker with the spare list full: its rollback hands the grain back. -/
def remotePending : State :=
  { trimming 1 .trim with
    mm := { (trimming 1 .trim).mm with
      chunks := [(16777217, { state := .pending 9 77 20100, place := .remote 5 9 1 2 epoch5, shield := 0 })]
      spares := (List.range 32).map fun i => { lender := 5, loan := 100 + i, bay := 0, grain := i, epoch := epoch5 } } }
theorem witness_WalkerWorks :
    (∀ first origin, RestAt m0 (trimming first origin) (at_ m0 (trimming first origin))) ∧ RestAt m0 shielded (at_ m0 shielded)
      ∧ RestAt m0 remotePending (at_ m0 remotePending) ∧ RestAt m0 (noPlace remotePending) (at_ m0 (noPlace remotePending))
      ∧ tableWf working.mm.chunks
      ∧ (∀ first origin, let s : State := { trimming first origin with cond := .drain }
          RestAt m0 s (at_ m0 s) ∧ walkerWorks s = true)
      ∧ (∀ b, 3 ≤ b → b ≤ 3 → entryOf (trimming 3 .trim).mm 1 b = none)
      ∧ m0.writes = [] ∧ walkerWorks shielded = true ∧ shielded.walkerTimer = some 100 ∧ 100 ≤ (at_ m0 shielded).now
      ∧ shielded.profile.walkerVisits = 1
      ∧ shielded.mm.trims = { volume := 1, first := 0, last := 3, cursor := 0, origin := .trim, requester := 9, tag := 77 } :: []
      ∧ 3 < 16777216 ∧ entryOf shielded.mm 1 0 = some { state := .mapped 9 70, place := .here 0 0, shield := 1 }
      ∧ entryOf (trimming 0 .delete).mm 1 0 = some { state := .mapped 9 70, place := .here 0 0, shield := 0 }
      ∧ entryOf (trimming 2 .trim).mm 1 2 = some { state := .mapped 9 72, place := .remote 5 9 1 2 epoch5, shield := 0 }
      ∧ lenderChanged.judge (.remote 5 9 1 2 epoch5) = .lost ∧ (trimming 2 .trim).judge (.remote 5 9 1 2 epoch5) ≠ .lost
      ∧ (peerOf (trimming 2 .trim).mm 5).known = some epoch5 ∧ hasPlace (trimming 2 .trim) = true
      ∧ hasPlace (noPlace (trimming 2 .trim)) = false
      ∧ entryOf (trimming 1 .trim).mm 1 1 = some { state := .pending 9 77 20100, place := .here 0 1, shield := 0 }
      ∧ (rollbackChunk working.roster working.presence (trimming 1 .trim).mm 1 1).handback = none
      ∧ (rollbackChunk remotePending.roster remotePending.presence remotePending.mm 1 1).handback ≠ none
      ∧ walkerWorks { trimming 0 .trim with cond := .halted } = false ∧ { working with walkerTimer := some 100 }.mm.trims = []
      ∧ hasReplyPlace (noPlace (trimming 3 .trim)) = false ∧ hasReplyPlace (trimming 3 .trim) = true := by
  refine ⟨fun _ _ => rest_at _ _ rfl rfl rfl, rest_at _ _ rfl rfl rfl, rest_at _ _ rfl rfl rfl, rest_at _ _ rfl rfl rfl,
    working_canonical.chunks, fun _ _ => ⟨rest_at _ _ rfl rfl rfl, rfl⟩, ?_, by decide⟩
  intro b h1 h2
  have hb : b = 3 := by omega
  subst hb
  decide

/-- Two visits a period: from chunk 0 both are made; a GIVEBACK without a place stops the first; the last visit of a drain ends it. -/
def twoVisits (s : State) : State := { s with profile := { s.profile with walkerVisits := 2 } }
def lastRange : State :=
  { trimming 3 .trim with
    mm := { (trimming 3 .trim).mm with
      pendings := [], spares := [], peers := [(5, { known := some epoch5, inUse := 1, spare := 0 })],
      chunks := [(16777216, { state := .mapped 9 70, place := .here 0 0, shield := 0 })] },
    cond := .drain, drainTimer := some 4000100, servicePin := false }
theorem witness_WalkerPeriodVisits :
    (∀ s, s = twoVisits (trimming 0 .trim) ∨ s = twoVisits (noPlace remotePending) ∨ s = twoVisits lastRange →
      RestAt m0 s (at_ m0 s) ∧ walkerWorks (at_ m0 s) = true ∧ (at_ m0 s).walkerTimer = some 100 ∧ 100 ≤ (at_ m0 s).now
        ∧ (at_ m0 s).profile.walkerVisits = 1 + 1)
      ∧ m0.writes = [] ∧ 1 < 64
      ∧ (let t := after (.walkerPeriod m0) (trimming 0 .trim)
         t.mm.trims ≠ (trimming 0 .trim).mm.trims ∧ walkerWorks t = true
           ∧ ∃ w, exec (.walkerPeriod m0) { t with walkerTimer := some 100 } = .next w)
      ∧ (after (.walkerPeriod m0) (noPlace remotePending)).mm.trims = (noPlace remotePending).mm.trims
      ∧ walkerWorks (after (.walkerPeriod m0) lastRange) = false := by
  refine ⟨?_, by decide, by decide, ⟨by decide, by decide, _, rfl⟩, by decide, by decide⟩
  rintro s (rfl | rfl | rfl) <;> exact ⟨rest_at _ _ rfl rfl rfl, rfl, rfl, by decide, rfl⟩

theorem witness_RecordsRolledBack :
    (∀ m, RestAt m drainOn (at_ m drainOn)) ∧ Canonical drainOn.mm ∧ Fits drainOn.mm ∧ PendingLaw drainOn.mm
      ∧ RestAt m1 working (at_ m1 working) ∧ RestAt m0 working (at_ m0 working) ∧ Canonical working.mm ∧ Fits working.mm
      ∧ PendingLaw working.mm ∧ m1.writes = []
      ∧ working.mm.pendings = { volume := 1, chunk := 1, requester := 9, tag := 77, expiry := 20100 } :: []
      ∧ (at_ m0 working).now < 20100 ∧ 20100 ≤ (at_ m1 working).now ∧ working.cond = .ready ∧ inHalted.cond ≠ .ready
      ∧ (rosterOf working.roster 5).state = .present ∧ (rosterOf working.roster 5).lastHeard = some 0
      ∧ (at_ { m0 with time := 1199999 } working).now < 0 + 3 * working.profile.presenceInterval * 4000
      ∧ 0 + 3 * working.profile.presenceInterval * 4000 ≤ (at_ { m0 with time := 1200000 } working).now
      ∧ (rosterOf working.roster 6).state ≠ .present
      ∧ drainOn.cond = .drain ∧ serviceAsserted drainOn = true :=
  ⟨fun _ => rest_at _ _ rfl rfl rfl, working_canonical, working_fits, working_pendings, rest_at _ _ rfl rfl rfl,
   rest_at _ _ rfl rfl rfl, working_canonical, working_fits, working_pendings, by decide⟩

theorem witness_RollbackPlaces :
    entryOf working.mm 1 1 = some { state := .pending 9 77 20100, place := .here 0 1, shield := 0 }
      ∧ entryOf remotePending.mm 1 1 = some { state := .pending 9 77 20100, place := .remote 5 9 1 2 epoch5, shield := 0 }
      ∧ (isPresent lenderChanged.roster 5 = true ∧ (rosterOf lenderChanged.roster 5).epoch ≠ some epoch5)
      ∧ (rosterOf remotePending.roster 5).epoch = some epoch5 ∧ (peerOf remotePending.mm 5).known = some epoch5
      ∧ 32 ≤ remotePending.mm.spares.length ∧ (remotePending.mm.spares.take 31).length < 32 := by decide

theorem witness_WriteCompletesLater :
    (let m : Moment := { time := 100, writes := .staysInProgress :: [] }
     Takes m (asked working (commitOf 1)) (at_ m (asked working (commitOf 1))) (commitOf 1) [])
      ∧ parseRequest 0 (commitOf 1) = .commit 1 1 77 ∧ working.cond = .ready ∧ (volumeOf working.mm 1).state = .active
      ∧ 1 < (volumeOf working.mm 1).size
      ∧ entryOf working.mm 1 1 = some { state := .pending (commitOf 1).source 77 20100, place := .here 0 1, shield := 0 } :=
  ⟨takes_working _ _, by decide⟩

/-! ### Condition and starts -/

theorem witness_SupplyAndPulse :
    { ready with powered := false }.powered = false ∧ (∀ pins rom takes m, Instr.attemptStart m0 ≠ .powerOn pins rom takes m)
      ∧ (∀ takes, Instr.attemptStart m0 ≠ .powerLoss takes) ∧ ready.inflight = none
      ∧ (∃ w, (after (.commit { time := 100, writes := [.staysInProgress] }) (asked working (commitOf 1))).inflight = some w)
      ∧ OnAt m0 ready (at_ m0 ready) ∧ 39 < 40 :=
  ⟨rfl, nofun, nofun, rfl, ⟨_, rfl⟩, on_at _ _ rfl, by decide⟩

/-- A station whose header the ROM's profile does not match. -/
def otherHeader : Header := { serial := 8, formatCount := 1, restartCount := 0, checkGood := true }
def otherSerial : State := { working with mm := { working.mm with header := some otherHeader } }
/-- The same ROM with a sum that is not 0. -/
def badRom : ProfileRom := { rom with contents := [(1, 0)] }
theorem witness_StartWithoutContents :
    (∃ lowFor, 40 ≤ lowFor ∧ working.powered = true
        ∧ Instr.resetPin 40 pins none false m0 = .resetPin lowFor pins none false m0)
      ∧ (∀ r, (none : Option ProfileRom) = some r → romSumGood r.contents = false)
      ∧ (∀ r, some badRom = some r → romSumGood r.contents = false)
      ∧ romSumGood rom.contents = true ∧ pins.formatHeld = false
      ∧ (settleMemory false State.reset).geometry ≠ some (geometryOf (clampProfile rom.values))
      ∧ (settleMemory false otherSerial).header = some otherHeader ∧ otherHeader.serial ≠ (clampProfile rom.values).serial
      ∧ mf.writes = [.fails] ∧ (settleMemory false working).geometry = some (geometryOf (clampProfile rom.values))
      ∧ (settleMemory false working).header = some { serial := 7, formatCount := 1, restartCount := 0, checkGood := true }
      ∧ (7 : Word32) = (clampProfile rom.values).serial
      ∧ ({ time := 100, writes := [.completes, .fails] } : Moment).writes = [.completes, .fails]
      ∧ (settleMemory false working).pendings = { volume := 1, chunk := 1, requester := 9, tag := 77, expiry := 20100 } :: [] :=
  ⟨⟨40, by decide, rfl, rfl⟩, nofun, by intro r h; cases h; decide, by decide, rfl, by decide⟩

theorem witness_StartFormats :
    (∃ lowFor, 40 ≤ lowFor ∧ working.powered = true
        ∧ Instr.resetPin 40 { pins with formatHeld := true } (some rom) false m0
            = .resetPin lowFor { pins with formatHeld := true } (some rom) false m0)
      ∧ romSumGood rom.contents = true ∧ { pins with formatHeld := true }.formatHeld = true ∧ m0.writes = []
      ∧ (settleMemory false working).header = some { serial := 7, formatCount := 1, restartCount := 0, checkGood := true }
      ∧ (settleMemory false State.reset).header = none
      ∧ ({ time := 100, writes := [.completes, .fails] } : Moment).writes = [.completes, .fails] :=
  ⟨⟨40, by decide, rfl, rfl⟩, by decide, rfl, rfl, rfl, rfl, rfl⟩

theorem witness_StartKeepsContents :
    (∃ lowFor, 40 ≤ lowFor ∧ working.powered = true
        ∧ Instr.resetPin 40 pins (some rom) false m0 = .resetPin lowFor pins (some rom) false m0)
      ∧ romSumGood rom.contents = true ∧ pins.formatHeld = false ∧ m0.writes = []
      ∧ (settleMemory false working).geometry = some (geometryOf (clampProfile rom.values))
      ∧ (settleMemory false working).header = some { serial := 7, formatCount := 1, restartCount := 0, checkGood := true }
      ∧ (7 : Word32) = (clampProfile rom.values).serial ∧ 0 ≤ 65535 ∧ Canonical (settleMemory false working)
      ∧ Fits (settleMemory false working) ∧ PendingLaw (settleMemory false working) :=
  ⟨⟨40, by decide, rfl, rfl⟩, by decide, rfl, rfl, by decide, rfl, by decide, by decide, working_canonical, working_fits,
   working_pendings⟩

/-- QUIET with the input asserted. -/
def inQuiet : State := { ready with cond := .quiet, servicePin := false }
theorem witness_ServiceInput :
    (∀ s, s = working ∨ s = ready ∨ s = committing ∨ s = noPlace ready ∨ s = inHalted →
        OnAt m0 s (at_ m0 s) ∧ serviceAsserted s = false ∧ (s.inflight = none → s.tasks = []))
      ∧ (∀ st link, OnAt m0 (offerOpen st link) (at_ m0 (offerOpen st link)) ∧ (offerOpen st link).cond = .ready
          ∧ (offerOpen st link).tasks = [] ∧ serviceAsserted (offerOpen st link) = false)
      ∧ RestAt m0 ready (at_ m0 ready) ∧ RestAt m0 inQuiet (at_ m0 inQuiet) ∧ RosterLaw working
      ∧ 79999 < Config.lineHold ∧ Config.lineHold ≤ 80000 ∧ inHalted.cond ≠ .ready
      ∧ working.cond = .ready ∧ working.offer.state = .idle ∧ committing.inflight ≠ none ∧ committing.cond = .ready
      ∧ quietCondition working = false ∧ quietCondition ready = true ∧ hasPlace ready = true ∧ hasPlace (noPlace ready) = false
      ∧ (offerOpen .queued Link.reset).offer.current = some { asker := 5, askId := 8, n := 3, d := 23 }
      ∧ isDriving (isOfferOf { asker := 5, askId := 8, n := 3, d := 23 }) (offerOpen .queued Link.reset) = false
      ∧ isDriving (isOfferOf { asker := 5, askId := 8, n := 3, d := 23 }) (offerOpen .queued drivenOffer) = true
      ∧ serviceAsserted inQuiet = true ∧ serviceAsserted { ready with servicePin := false } = true
      ∧ inQuiet.cond = .quiet ∧ m0.writes = [] ∧ inQuiet.mm.geometry = some (geometryOf inQuiet.profile)
      ∧ inQuiet.mm.header = some { serial := 7, formatCount := 1, restartCount := 0, checkGood := true }
      ∧ (7 : Word32) = inQuiet.profile.serial ∧ inQuiet.mm.pendings = [] ∧ sweepVolumes inQuiet.mm = inQuiet.mm := by
  refine ⟨?_, fun _ _ => ⟨on_at _ _ rfl, rfl, rfl, rfl⟩, rest_at _ _ rfl rfl rfl, rest_at _ _ rfl rfl rfl, working_roster, by decide⟩
  rintro s (rfl | rfl | rfl | rfl | rfl) <;> exact ⟨on_at _ _ rfl, rfl, by decide⟩

/-- A drain whose timer runs out at 100, with work left and with none; its HAIL(LEAVING) on the link. -/
def draining (s : State) : State := { s with cond := .drain, drainTimer := some 100 }
def leaving : State :=
  { driving (buildHail .leaving ready) 0 with cond := .drain, drainEnded := true, servicePin := false }
/-- The same with the LEVEL input released. -/
def leavingReleased (retries : Nat) : State :=
  { driving (buildHail .leaving ready) retries with cond := .drain, drainEnded := true }
/-- A drain with nothing left to wait for, not yet judged. -/
def judged : State := { ready with cond := .drain, drainTimer := some 100, servicePin := false }
theorem witness_DrainEnds :
    (judged.cond = .drain ∧ judged.drainEnded = false ∧ judged.drainTimer ≠ none ∧ quietCondition judged = true
        ∧ hasPlace judged = true ∧ quietCondition (noPlace judged) = true ∧ hasPlace (noPlace judged) = false
        ∧ quietCondition (draining working) = false)
      ∧ (RestAt m0 (noPlace judged) (at_ m0 (noPlace judged)) ∧ (noPlace judged).mm.pendings = [] ∧ 32 ≤ (noPlace judged).link.occupied
        ∧ serviceAsserted (noPlace judged) = true)
      ∧ (let s : State := { driving (buildHail .leaving ready) 7 with cond := .drain, drainEnded := true, servicePin := false }
         RestAt m0 s (at_ m0 s) ∧ ∃ hand raw, s.link.hand = some hand ∧ hand.driving = some raw ∧ 7 ≤ hand.retries
           ∧ hand.frame = buildHail .leaving ready)
      ∧
    RestAt m0 (draining working) (at_ m0 (draining working)) ∧ RestAt m0 (draining ready) (at_ m0 (draining ready))
      ∧ RestAt m0 leaving (at_ m0 leaving)
      ∧ (∃ b, (buildHail .leaving ready).body = .hail b ∧ b.cond = .leaving)
      ∧ (∃ hand raw, leaving.link.hand = some hand ∧ hand.driving = some raw ∧ hand.frame = buildHail .leaving ready)
      ∧ (draining working).drainEnded = false ∧ (draining working).drainTimer = some 100
      ∧ (at_ { m0 with time := 99 } (draining working)).now < 100 ∧ 100 ≤ (at_ m0 (draining working)).now ∧ m0.writes = []
      ∧ (draining working).mm.pendings.length ≤ 128 ∧ (draining ready).mm.pendings = [] ∧ (draining ready).link.occupied + 1 < 32
      ∧ leaving.cond = .drain ∧ leaving.drainEnded = true ∧ serviceAsserted leaving = true
      ∧ (∀ n, RestAt m0 (leavingReleased n) (at_ m0 (leavingReleased n))
          ∧ ∃ hand raw, (leavingReleased n).link.hand = some hand ∧ hand.driving = some raw ∧ hand.retries = n
            ∧ hand.frame = buildHail .leaving ready)
      ∧ ((leavingReleased 7).cond = .drain ∧ (leavingReleased 7).drainEnded = true ∧ (leavingReleased 7).profile.serviceEdge = false
        ∧ serviceAsserted (leavingReleased 7) = false ∧ (leavingReleased 7).mm = inQuiet.mm
        ∧ (leavingReleased 7).profile = inQuiet.profile) :=
  ⟨by decide, ⟨rest_at _ _ rfl rfl rfl, rfl, by decide, rfl⟩, ⟨rest_at _ _ rfl rfl rfl, _, _, rfl, rfl, by decide, rfl⟩,
   rest_at _ _ rfl rfl rfl, rest_at _ _ rfl rfl rfl, rest_at _ _ rfl rfl rfl, ⟨_, rfl, rfl⟩, ⟨_, _, rfl, rfl, rfl⟩,
   rfl, rfl, by decide, by decide, rfl, by decide, rfl, by decide, rfl, rfl, rfl,
   fun _ => ⟨rest_at _ _ rfl rfl rfl, _, _, rfl, rfl, rfl, rfl⟩, by decide⟩

def joining (o : StartOutcome) : State := { ready with cond := .join, joinTimer := some 100, outcome := o }
/-- JOIN with the LEVEL input asserted, over a station at rest, one that waits for its pending record, and one with a write in progress. -/
def joiningAsserted (s : State) : State := { s with cond := .join, joinTimer := some 100, outcome := .ready, servicePin := false }
theorem witness_JoinEnds :
    (∀ s, s = ready ∨ s = noPlace ready ∨ s = working ∨ s = committing →
        OnAt m0 (joiningAsserted s) (at_ m0 (joiningAsserted s)) ∧ ((joiningAsserted s).inflight = none → (joiningAsserted s).tasks = [])
          ∧ (joiningAsserted s).profile.serviceEdge = false ∧ serviceAsserted (joiningAsserted s) = true
          ∧ (joiningAsserted s).offer.state = .idle)
      ∧ quietCondition (joiningAsserted ready) = true ∧ hasPlace (joiningAsserted ready) = true
      ∧ hasPlace (joiningAsserted (noPlace ready)) = false ∧ quietCondition (joiningAsserted working) = false
      ∧ committing.inflight ≠ none
      ∧ (∀ o, RestAt m0 (joining o) (at_ m0 (joining o))) ∧ (joining .ready).cond = .join ∧ (joining .ready).joinTimer = some 100
      ∧ (at_ { m0 with time := 99 } (joining .ready)).now < 100 ∧ 100 ≤ (at_ m0 (joining .ready)).now
      ∧ (joining .ready).outcome = .ready ∧ serviceAsserted (joining .ready) = false ∧ hasPlace (joining .ready) = true
      ∧ hasPlace (noPlace (joining .ready)) = false ∧ (joining .halted).outcome = .halted ∧ (joining .halted).link.hand = none
      ∧ (joining .halted).offer = OfferMachine.reset ∧ (joining .halted).link.occupied < 32 :=
  ⟨by rintro s (rfl | rfl | rfl | rfl) <;> exact ⟨on_at _ _ rfl, by decide, rfl, rfl, rfl⟩, by decide, by decide, by decide, by decide,
   by decide, fun _ => rest_at _ _ rfl rfl rfl, by decide⟩

/-- The HAIL timer due in each condition that hails, after HAIL(LEAVING), and in one that does not. -/
def hailing (c : Condition) (ended : Bool) : State := { ready with cond := c, drainEnded := ended, hailTimer := some 100 }
theorem witness_HailTimerRuns :
    (∀ c e, OnAt m0 (hailing c e) (at_ m0 (hailing c e))) ∧ isSilent (hailing .quiet false).cond
      ∧ (∀ c, c = Condition.ready ∨ c = .drain ∨ c = .halted → ¬ isSilent c)
      ∧ (hailing .ready false).hailTimer = some 100 ∧ (at_ { m0 with time := 99 } (hailing .ready false)).now < 100
      ∧ 100 ≤ (at_ m0 (hailing .ready false)).now ∧ (hailing .drain true).drainEnded = true
      ∧ (hailing .drain false).drainEnded = false ∧ hasPlace (noPlace (hailing .ready false)) = false
      ∧ hasPlace (hailing .halted false) = true
      ∧ State.reset.profileRead = false ∧ ready.profileRead = true ∧ State.reset.headerRead = false ∧ ready.headerRead = true
      ∧ ready.mm.header = some { serial := 7, formatCount := 1, restartCount := 0, checkGood := true } := by
  refine ⟨fun _ _ => on_at _ _ rfl, .inr (.inr (.inl rfl)), ?_, by decide⟩
  intro c hc h
  rcases hc with rfl | rfl | rfl <;> rcases h with h | h | h | h <;> cases h

end Sys2Proof.Tests.Slice0
end

/-! The marks of the pool (R13), and what short and flush can be by them (R14). -/

namespace Sys2Proof.Machine

/-! ## The quotient rounded up -/

/-- A quotient by 1,000 rounded up is the one number of thousands that covers the dividend with less than a thousand to spare. -/
theorem ceilDiv_thousand_eq_iff (x a : Nat) : ceilDiv x 1000 = a ↔ x ≤ 1000 * a ∧ 1000 * a < x + 1000 := by
  unfold ceilDiv
  omega

theorem ceilDiv_le_ceilDiv {x y : Nat} (h : x ≤ y) (b : Nat) : ceilDiv x b ≤ ceilDiv y b :=
  Nat.div_le_div_right (by omega)

theorem ceilDiv_mul_thousand (p : Nat) : ceilDiv (p * 1000) 1000 = p :=
  (ceilDiv_thousand_eq_iff _ _).2 (by omega)

/-! ## The effective high permille and the marks (R13) -/

theorem effectiveHigh_of_lt {low high : Nat} (h : low < high) : effectiveHigh low high = high := if_pos h

theorem effectiveHigh_of_le {low high : Nat} (h : high ≤ low) : effectiveHigh low high = min 1000 (low + 50) :=
  if_neg (Nat.not_lt.2 h)

theorem le_effectiveHigh {low : Nat} (hlow : low ≤ 1000) (high : Nat) : low ≤ effectiveHigh low high := by
  obtain h | h := Nat.lt_or_ge low high
  · exact h.le.trans_eq (effectiveHigh_of_lt h).symm
  · exact (le_min hlow (Nat.le_add_right low 50)).trans_eq (effectiveHigh_of_le h).symm

theorem effectiveHigh_le (low : Nat) {high : Nat} (hhigh : high ≤ 1000) : effectiveHigh low high ≤ 1000 := by
  obtain h | h := Nat.lt_or_ge low high
  · exact (effectiveHigh_of_lt h).trans_le hhigh
  · exact (effectiveHigh_of_le h).trans_le (min_le_left _ _)

theorem effectiveHigh_thousand {high : Nat} (hhigh : high ≤ 1000) : effectiveHigh 1000 high = 1000 :=
  effectiveHigh_of_le hhigh

theorem lowMark_le_highMark (p : Nat) {low : Nat} (hlow : low ≤ 1000) (high : Nat) : lowMark p low ≤ highMark p low high :=
  ceilDiv_le_ceilDiv (Nat.mul_le_mul_left p (le_effectiveHigh hlow high)) 1000

theorem highMark_le (p low : Nat) {high : Nat} (hhigh : high ≤ 1000) : highMark p low high ≤ p :=
  calc highMark p low high
      ≤ ceilDiv (p * 1000) 1000 := ceilDiv_le_ceilDiv (Nat.mul_le_mul_left p (effectiveHigh_le low hhigh)) 1000
    _ = p := ceilDiv_mul_thousand p

theorem lowMark_zero (p : Nat) : lowMark p 0 = 0 := (ceilDiv_thousand_eq_iff _ _).2 (by omega)

theorem lowMark_thousand (p : Nat) : lowMark p 1000 = p := ceilDiv_mul_thousand p

theorem highMark_thousand (p : Nat) {high : Nat} (hhigh : high ≤ 1000) : highMark p 1000 high = p := by
  rw [highMark, effectiveHigh_thousand hhigh, ceilDiv_mul_thousand]

/-! ## F is at most P (R8) -/

@[simp] theorem sumPresent_nil (f : FreeSet → Nat) (sets : List FreeSet) : sumPresent f [] sets = 0 := rfl

@[simp] theorem sumPresent_nil_sets (f : FreeSet → Nat) (presence : List Bool) : sumPresent f presence [] = 0 := by
  cases presence <;> rfl

@[simp] theorem sumPresent_cons (f : FreeSet → Nat) (present : Bool) (presence : List Bool) (x : FreeSet) (sets : List FreeSet) :
    sumPresent f (present :: presence) (x :: sets) = (if present then f x else 0) + sumPresent f presence sets := rfl

theorem sumPresent_le_sumPresent {f g : FreeSet → Nat} (h : ∀ x, f x ≤ g x) (presence : List Bool) (sets : List FreeSet) :
    sumPresent f presence sets ≤ sumPresent g presence sets := by
  induction presence generalizing sets with
  | nil => simp
  | cons present presence ih =>
    cases sets with
    | nil => simp
    | cons x sets =>
      have hbay : (if present then f x else 0) ≤ if present then g x else 0 := by
        split
        · exact h x
        · exact le_rfl
      simpa using Nat.add_le_add hbay (ih sets)

theorem FreeSet.size_le_count (x : FreeSet) : x.size ≤ x.count := Nat.sub_le _ _

theorem poolFree_le_poolSize (presence : List Bool) (sets : List FreeSet) : poolFree presence sets ≤ poolSize presence sets :=
  sumPresent_le_sumPresent FreeSet.size_le_count presence sets

theorem State.f_le_p (s : State) : s.f ≤ s.p := by
  unfold State.f State.p
  split
  · exact poolFree_le_poolSize _ _
  · exact le_rfl

/-! ## Short and flush (R14) -/

theorem State.short_iff (s : State) : s.short = true ↔ s.f < lowMark s.p s.profile.lowPermille := decide_eq_true_iff

theorem State.flush_iff (s : State) :
    s.flush = true ↔ highMark s.p s.profile.lowPermille s.profile.highPermille < s.f := decide_eq_true_iff

theorem State.short_eq_false_iff (s : State) : s.short = false ↔ lowMark s.p s.profile.lowPermille ≤ s.f := by
  rw [← Bool.not_eq_true, s.short_iff, Nat.not_lt]

theorem State.flush_eq_false_iff (s : State) :
    s.flush = false ↔ s.f ≤ highMark s.p s.profile.lowPermille s.profile.highPermille := by
  rw [← Bool.not_eq_true, s.flush_iff, Nat.not_lt]

/-- The marks stand in order, so F cannot be below the low one and above the high one. -/
theorem State.not_short_and_flush {s : State} (hlow : s.profile.lowPermille ≤ 1000) : ¬ (s.short = true ∧ s.flush = true) := by
  rw [s.short_iff, s.flush_iff]
  have hmarks := lowMark_le_highMark s.p hlow s.profile.highPermille
  omega

theorem State.short_eq_false_of_lowPermille {s : State} (hzero : s.profile.lowPermille = 0) : s.short = false := by
  rw [s.short_eq_false_iff, hzero, lowMark_zero]
  exact Nat.zero_le _

theorem State.flush_eq_false_of_highMark {s : State}
    (hmark : highMark s.p s.profile.lowPermille s.profile.highPermille = s.p) : s.flush = false := by
  rw [s.flush_eq_false_iff, hmark]
  exact s.f_le_p

/-- With P at 0 both marks are 0 and so is F. -/
theorem State.short_flush_of_p_eq_zero {s : State} (hlow : s.profile.lowPermille ≤ 1000)
    (hhigh : s.profile.highPermille ≤ 1000) (hp : s.p = 0) : s.short = false ∧ s.flush = false := by
  have hfree := s.f_le_p
  have hmarks := lowMark_le_highMark s.p hlow s.profile.highPermille
  have htop := highMark_le s.p s.profile.lowPermille hhigh
  rw [s.short_eq_false_iff, s.flush_eq_false_iff]
  omega

/-- Settles O14: the marks from the effective high permille and the order of the quotients, short and flush from the order of the marks. -/
theorem marksShortFlush : Obligations.MarksShortFlush := by
  refine ⟨fun p low high hlow hhigh => ?marks, fun s hlow hhigh => ?judgement⟩
  case marks =>
    exact ⟨effectiveHigh_of_lt, effectiveHigh_of_le, fun a => ceilDiv_thousand_eq_iff _ a, fun a => ceilDiv_thousand_eq_iff _ a,
      le_effectiveHigh hlow high, lowMark_le_highMark p hlow high, highMark_le p low hhigh,
      lowMark_zero p, effectiveHigh_thousand hhigh, lowMark_thousand p, highMark_thousand p hhigh⟩
  case judgement =>
    exact ⟨s.short_iff, s.flush_iff, s.f_le_p, State.not_short_and_flush hlow, State.short_flush_of_p_eq_zero hlow hhigh,
      State.short_eq_false_of_lowPermille, State.flush_eq_false_of_highMark⟩

end Sys2Proof.Machine

/-! READ lookups: the checks of R36 and the table of R39, case by case, and the step that answers one. -/

namespace Sys2Proof.Machine

/-! ## The checks that look at the state (R36) -/

theorem checkChunk_of_halted {s : State} (hcond : s.cond = .halted) (v c : Nat) : checkChunk s v c = some .notReady :=
  if_pos hcond

theorem checkChunk_of_not_active {s : State} {v : Nat} (hcond : s.cond ≠ .halted) (hvol : (volumeOf s.mm v).state ≠ .active)
    (c : Nat) : checkChunk s v c = some .noVol := by
  simp only [checkChunk, if_neg hcond, if_pos hvol]

theorem checkChunk_of_size_le {s : State} {v c : Nat} (hcond : s.cond ≠ .halted) (hvol : (volumeOf s.mm v).state = .active)
    (hsize : (volumeOf s.mm v).size ≤ c) : checkChunk s v c = some .range := by
  simp only [checkChunk, if_neg hcond, if_neg (not_not.2 hvol), if_pos hsize]

theorem checkChunk_of_lt_size {s : State} {v c : Nat} (hcond : s.cond ≠ .halted) (hvol : (volumeOf s.mm v).state = .active)
    (hsize : c < (volumeOf s.mm v).size) : checkChunk s v c = none := by
  simp only [checkChunk, if_neg hcond, if_neg (not_not.2 hvol), if_neg (Nat.not_le.2 hsize)]

/-! ## Logically trimmed entries (R38) and places judged (R33) -/

theorem isTrimmed_of_lt {mm : MapMemory} {v c : Nat} {e : Entry} (h : e.shield < coveringCount mm v c) :
    isTrimmed mm v c e = true :=
  decide_eq_true h

theorem isTrimmed_of_le {mm : MapMemory} {v c : Nat} {e : Entry} (h : coveringCount mm v c ≤ e.shield) :
    isTrimmed mm v c e = false :=
  decide_eq_false (Nat.not_lt.2 h)

theorem State.judge_here_of_present {s : State} {bay : Nat} (grain : Nat) (h : s.presence.getD bay false = true) :
    s.judge (.here bay grain) = .usable :=
  if_pos h

theorem State.judge_here_of_absent {s : State} {bay : Nat} (grain : Nat) (h : s.presence.getD bay false = false) :
    s.judge (.here bay grain) = .bayOff :=
  if_neg (Bool.eq_false_iff.1 h)

section remote
variable {s : State} {lender : Station} (loan bay grain : Nat) {ep : Epoch}

theorem State.judge_remote_of_not_present (ep : Epoch) (h : isPresent s.roster lender = false) :
    s.judge (.remote lender loan bay grain ep) = .unreachable :=
  if_neg (of_decide_eq_false h)

theorem State.judge_remote_of_epoch_eq (h : isPresent s.roster lender = true)
    (hep : (rosterOf s.roster lender).epoch = some ep) : s.judge (.remote lender loan bay grain ep) = .usable :=
  (if_pos (of_decide_eq_true h)).trans (if_pos hep)

theorem State.judge_remote_of_epoch_ne (h : isPresent s.roster lender = true)
    (hep : (rosterOf s.roster lender).epoch ≠ some ep) : s.judge (.remote lender loan bay grain ep) = .lost :=
  (if_pos (of_decide_eq_true h)).trans (if_neg hep)

end remote

/-! ## The table of R39 -/

theorem readAnswer_of_turned_away {s : State} {v c : Nat} {status : Status} (hcheck : checkChunk s v c = some status) :
    readAnswer s v c = (status, none) := by
  simp only [readAnswer, hcheck]

theorem readAnswer_of_no_entry {s : State} {v c : Nat} (hcheck : checkChunk s v c = none) (he : entryOf s.mm v c = none) :
    readAnswer s v c = (.zero, none) := by
  simp only [readAnswer, hcheck, he]

section entry
variable {s : State} {v c : Nat} {e : Entry} (hcheck : checkChunk s v c = none) (he : entryOf s.mm v c = some e)
include hcheck he

theorem readAnswer_of_trimmed (h : e.shield < coveringCount s.mm v c) : readAnswer s v c = (.zero, none) := by
  simp only [readAnswer, hcheck, he, isTrimmed_of_lt h, if_true]

variable (hlive : coveringCount s.mm v c ≤ e.shield)
include hlive

theorem readAnswer_of_pending {r : Station} {t : Nat} {x : Time} (hstate : e.state = .pending r t x) :
    readAnswer s v c = (.zero, none) := by
  simp only [readAnswer, hcheck, he, isTrimmed_of_le hlive, hstate, Bool.false_eq_true, if_false]

variable {r : Station} {t : Nat} (hstate : e.state = .mapped r t) {pl : Place} (hplace : e.place = pl)
include hstate hplace

theorem readAnswer_of_usable (hjudge : s.judge pl = .usable) : readAnswer s v c = (.ok, some pl) := by
  simp only [readAnswer, hcheck, he, isTrimmed_of_le hlive, hstate, hplace, hjudge, Bool.false_eq_true, if_false]

theorem readAnswer_of_bayOff (hjudge : s.judge pl = .bayOff) : readAnswer s v c = (.bayOff, none) := by
  simp only [readAnswer, hcheck, he, isTrimmed_of_le hlive, hstate, hplace, hjudge, Bool.false_eq_true, if_false]

theorem readAnswer_of_unreachable (hjudge : s.judge pl = .unreachable) : readAnswer s v c = (.unreachable, some pl) := by
  simp only [readAnswer, hcheck, he, isTrimmed_of_le hlive, hstate, hplace, hjudge, Bool.false_eq_true, if_false]

theorem readAnswer_of_lost (hjudge : s.judge pl = .lost) : readAnswer s v c = (.lost, some pl) := by
  simp only [readAnswer, hcheck, he, isTrimmed_of_le hlive, hstate, hplace, hjudge, Bool.false_eq_true, if_false]

/-- A REMOTE place is named in the answer whatever it is judged to be. -/
theorem readAnswer_place_of_remote {lender : Station} {loan bay grain : Nat} {ep : Epoch}
    (hremote : pl = .remote lender loan bay grain ep) : (readAnswer s v c).2 = some pl := by
  subst hremote
  cases hpresent : isPresent s.roster lender with
  | false =>
    rw [readAnswer_of_unreachable hcheck he hlive hstate hplace (State.judge_remote_of_not_present loan bay grain ep hpresent)]
  | true =>
    by_cases hep : (rosterOf s.roster lender).epoch = some ep
    · rw [readAnswer_of_usable hcheck he hlive hstate hplace (State.judge_remote_of_epoch_eq loan bay grain hpresent hep)]
    · rw [readAnswer_of_lost hcheck he hlive hstate hplace (State.judge_remote_of_epoch_ne loan bay grain hpresent hep)]

end entry

/-! ## The answer as a REPLY -/

/-- The part of the REPLY a READ lookup is answered with. -/
def readPart (s : State) (v c : Nat) : ReplyPart := ((readAnswer s v c).2.map (placePart s.own)).getD .none

/-- A READ lookup's status and part, read off its row of R39's table. -/
theorem readReply_of_readAnswer {s : State} {v c : Nat} {status : Status} {pl : Option Place}
    (h : readAnswer s v c = (status, pl)) :
    (readAnswer s v c).1 = status ∧ readPart s v c = (pl.map (placePart s.own)).getD .none := by
  rw [readPart, h]
  exact ⟨rfl, rfl⟩

/-- In HALTED a READ lookup is answered NOTREADY, the one REPLY that HALTED lets out. -/
theorem readAnswer_status_of_halted {s : State} (hcond : s.cond = .halted) (v c : Nat) : (readAnswer s v c).1 = .notReady :=
  (readReply_of_readAnswer (readAnswer_of_turned_away (checkChunk_of_halted hcond v c))).1

/-- A request taken whose handling is its answer alone, with nothing to write and nothing reserved. -/
theorem takes_answered_at_once {m : Moment} {s u : State} {f : RawFrame} {rest : List RawFrame} (h : Takes m s u f rest)
    (r : Reply) (hc : u.cond = .halted → r.status = .notReady) :
    settle m (answer f.source r { u with buffer := rest }) = withAnswer f rest r u := by
  have hplace : hasReplyPlace { u with buffer := rest } = true := (takes_place h :)
  have hserves : servesRequests { u with buffer := rest } := (takes_srv h :)
  rw [answer_ok hplace hserves hc]
  exact work_nil (takes_tasks h :)

theorem exec_lookupRead_of_takes {m : Moment} {s u : State} {f : RawFrame} {rest : List RawFrame} {v c tag : Nat}
    (h : Takes m s u f rest) (hparse : parseRequest u.fresh f = .lookup false v c tag) :
    exec (.lookupRead m) s
      = .next (withAnswer f rest
          { tag := tag, status := (readAnswer u v c).1, volume := v, chunk := c, part := readPart u v c } u) := by
  rw [← takes_answered_at_once h _ fun hcond => readAnswer_status_of_halted hcond v c]
  exact takes_run h _ _ (by rw [hparse]; rfl)

/-- Settles O21: the step answers with the row of R39's table, and each row is one branch of `readAnswer`. -/
theorem readLookupAnswered : Obligations.ReadLookupAnswered := by
  intro m s u f rest v c tag htakes hparse
  refine ⟨_, _, exec_lookupRead_of_takes htakes hparse, fun hcond => ?halted, fun hcond => ⟨fun hvol => ?noVol, fun hvol =>
    ⟨fun hsize => ?range, fun hsize => ?inRange⟩⟩⟩
  case halted => exact readReply_of_readAnswer (readAnswer_of_turned_away (checkChunk_of_halted hcond v c))
  case noVol => exact readReply_of_readAnswer (readAnswer_of_turned_away (checkChunk_of_not_active hcond hvol c))
  case range => exact readReply_of_readAnswer (readAnswer_of_turned_away (checkChunk_of_size_le hcond hvol hsize))
  case inRange =>
    have hcheck := checkChunk_of_lt_size hcond hvol hsize
    refine ⟨fun he => readReply_of_readAnswer (readAnswer_of_no_entry hcheck he), fun e he =>
      ⟨fun htrim => readReply_of_readAnswer (readAnswer_of_trimmed hcheck he htrim), fun hlive =>
        ⟨fun r t x hstate => readReply_of_readAnswer (readAnswer_of_pending hcheck he hlive hstate), fun r t hstate =>
          ⟨fun bay grain hplace => ?here, fun lender loan bay grain ep hplace => ?remote⟩⟩⟩⟩
    case here =>
      exact ⟨fun hbay => readReply_of_readAnswer
          (readAnswer_of_usable hcheck he hlive hstate hplace (State.judge_here_of_present grain hbay)),
        fun hbay => readReply_of_readAnswer
          (readAnswer_of_bayOff hcheck he hlive hstate hplace (State.judge_here_of_absent grain hbay))⟩
    case remote =>
      refine ⟨?part, fun hsilent => ?unreachable, fun hpresent => ⟨fun hep => ?ok, fun hep => ?lost⟩⟩
      case part => rw [readPart, readAnswer_place_of_remote hcheck he hlive hstate hplace rfl]; rfl
      case unreachable =>
        rw [readAnswer_of_unreachable hcheck he hlive hstate hplace (State.judge_remote_of_not_present loan bay grain ep hsilent)]
      case ok =>
        rw [readAnswer_of_usable hcheck he hlive hstate hplace (State.judge_remote_of_epoch_eq loan bay grain hpresent hep)]
      case lost =>
        rw [readAnswer_of_lost hcheck he hlive hstate hplace (State.judge_remote_of_epoch_ne loan bay grain hpresent hep)]

end Sys2Proof.Machine

/-! The capacity arithmetic of spec/05: the reserve floor and the exposure hold (R78), the headroom and the lendable count (R79) and the
lendable share (R80). -/

namespace Sys2Proof.Machine

/-! ## A permille of a count, rounded up (R78) -/

theorem ceilDiv_thousand_le {x a : Nat} (h : x ≤ a * 1000) : ceilDiv x 1000 ≤ a :=
  (ceilDiv_le_ceilDiv h 1000).trans_eq (ceilDiv_mul_thousand a)

theorem ceilDiv_mul_permille_eq_zero_iff (n r : Nat) : ceilDiv (n * r) 1000 = 0 ↔ n = 0 ∨ r = 0 := by
  rw [ceilDiv_thousand_eq_iff, ← Nat.mul_eq_zero]
  omega

section
variable {x : Figures}

theorem reserveFloor_eq_iff (x : Figures) (a : Nat) :
    reserveFloor x = a ↔ x.p * x.rp ≤ 1000 * a ∧ 1000 * a < x.p * x.rp + 1000 := ceilDiv_thousand_eq_iff _ a

theorem exposureHold_eq_iff (x : Figures) (a : Nat) :
    exposureHold x = a ↔ x.e * x.ew ≤ 1000 * a ∧ 1000 * a < x.e * x.ew + 1000 := ceilDiv_thousand_eq_iff _ a

theorem reserveFloor_eq_zero_iff (x : Figures) : reserveFloor x = 0 ↔ x.p = 0 ∨ x.rp = 0 := ceilDiv_mul_permille_eq_zero_iff _ _

theorem exposureHold_eq_zero_iff (x : Figures) : exposureHold x = 0 ↔ x.e = 0 ∨ x.ew = 0 := ceilDiv_mul_permille_eq_zero_iff _ _

theorem reserveFloor_le_half (hrp : x.rp ≤ 500) : reserveFloor x ≤ (x.p + 1) / 2 := by
  refine ceilDiv_thousand_le ?_
  calc x.p * x.rp
      ≤ x.p * 500 := Nat.mul_le_mul_left x.p hrp
    _ ≤ (x.p + 1) / 2 * 1000 := by omega

theorem reserveFloor_le (hp : x.p ≤ 25165824) (hrp : x.rp ≤ 500) : reserveFloor x ≤ 12582912 := by
  have hhalf := reserveFloor_le_half hrp
  omega

theorem exposureHold_le (hew : x.ew ≤ 1000) : exposureHold x ≤ x.e :=
  ceilDiv_thousand_le (Nat.mul_le_mul_left x.e hew)

theorem reserveFloor_of_small (hp : x.p = 999) (hrp : x.rp = 1) : reserveFloor x = 1 := by
  rw [reserveFloor, hp, hrp]
  decide

theorem exposureHold_of_small (he : x.e = 1) (hew : x.ew = 1) : exposureHold x = 1 := by
  rw [exposureHold, he, hew]
  decide

/-! ## The headroom and the lendable count (R79) -/

/-- The lendable count as a difference of counts that stops at 0. -/
theorem lendable_eq_sub (x : Figures) : lendable x = x.f - (reserveFloor x + exposureHold x) := by
  unfold lendable headroom
  omega

theorem headroom_neg_iff (x : Figures) : headroom x < 0 ↔ x.f < reserveFloor x + exposureHold x := by
  unfold headroom
  omega

theorem le_headroom (hp : x.p ≤ 25165824) (he : x.e ≤ 4294967296) (hrp : x.rp ≤ 500) (hew : x.ew ≤ 1000) :
    -4307550208 ≤ headroom x := by
  have hfloor := reserveFloor_le hp hrp
  have hhold := (exposureHold_le hew).trans he
  unfold headroom
  omega

theorem headroom_le_f (x : Figures) : headroom x ≤ x.f := by
  unfold headroom
  omega

theorem lendable_of_headroom_pos (h : 0 < headroom x) : (lendable x : Int) = headroom x := Int.toNat_of_nonneg h.le

theorem lendable_of_headroom_nonpos (h : headroom x ≤ 0) : lendable x = 0 := Int.toNat_of_nonpos h

theorem lendable_le_f (x : Figures) : lendable x ≤ x.f := (lendable_eq_sub x).trans_le (Nat.sub_le _ _)

theorem lendable_le_p (hf : x.f ≤ x.p) : lendable x ≤ x.p := (lendable_le_f x).trans hf

theorem lendable_eq_p_iff (hf : x.f ≤ x.p) (hp : 0 < x.p) :
    lendable x = x.p ↔ x.f = x.p ∧ reserveFloor x = 0 ∧ exposureHold x = 0 := by
  rw [lendable_eq_sub]
  omega

/-- An empty pool has no free grain and no reserve floor; only the exposure hold is left. -/
theorem figures_of_p_eq_zero (hf : x.f ≤ x.p) (hp : x.p = 0) :
    x.f = 0 ∧ reserveFloor x = 0 ∧ headroom x = -(exposureHold x : Int) ∧ lendable x = 0 := by
  have hfree : x.f = 0 := Nat.eq_zero_of_le_zero (hf.trans_eq hp)
  have hfloor : reserveFloor x = 0 := (reserveFloor_eq_zero_iff x).2 (.inl hp)
  refine ⟨hfree, hfloor, ?_, Nat.eq_zero_of_le_zero ((lendable_le_f x).trans_eq hfree)⟩
  rw [headroom, hfree, hfloor]
  omega

/-! ## The lendable share (R80) -/

theorem lendableShare_of_p_eq_zero (hp : x.p = 0) : lendableShare x = 0 := if_pos hp

theorem lendableShare_of_p_pos (hp : 0 < x.p) : lendableShare x = lendable x * 1000 / x.p := if_neg hp.ne'

theorem lendableShare_eq_iff (hp : 0 < x.p) (q : Nat) :
    lendableShare x = q ↔ x.p * q ≤ lendable x * 1000 ∧ lendable x * 1000 < x.p * q + x.p := by
  rw [lendableShare_of_p_pos hp, Nat.div_eq_iff hp, Nat.mul_comm x.p q]
  omega

theorem lendableShare_le (hf : x.f ≤ x.p) : lendableShare x ≤ 1000 := by
  obtain hp | hp := Nat.eq_zero_or_pos x.p
  · exact (lendableShare_of_p_eq_zero hp).trans_le (Nat.zero_le _)
  · rw [lendableShare_of_p_pos hp]
    exact Nat.div_le_of_le_mul (Nat.mul_le_mul_right 1000 (lendable_le_p hf))

theorem lendableShare_eq_thousand_iff (hf : x.f ≤ x.p) (hp : 0 < x.p) : lendableShare x = 1000 ↔ lendable x = x.p := by
  have hlendable := lendable_le_p hf
  rw [lendableShare_eq_iff hp]
  omega

theorem lendableShare_eq_zero_of_lt (h : lendable x * 1000 < x.p) : lendableShare x = 0 :=
  (lendableShare_of_p_pos (Nat.zero_lt_of_lt h)).trans (Nat.div_eq_of_lt h)

end

/-! ## Grains of ABSENT bays (R7, R11) -/

/-- A change of the free set of an ABSENT bay is not seen in a sum over the PRESENT ones. -/
theorem sumPresent_modify_of_absent (f : FreeSet → Nat) (g : FreeSet → FreeSet) {presence : List Bool} {bay : Nat}
    (habsent : presence[bay]? = some false) (sets : List FreeSet) :
    sumPresent f presence (sets.modify bay g) = sumPresent f presence sets := by
  induction presence generalizing bay sets with
  | nil => simp
  | cons present presence ih =>
    cases sets with
    | nil => simp
    | cons x sets =>
      cases bay with
      | zero =>
        have hpresent : present = false := by simpa using habsent
        simp [hpresent]
      | succ bay => simp [ih (by simpa using habsent)]

theorem poolFree_giveGrain_of_absent {presence : List Bool} {bay : Nat} (habsent : presence[bay]? = some false)
    (sets : List FreeSet) (grain : Nat) : poolFree presence (giveGrain sets bay grain) = poolFree presence sets :=
  sumPresent_modify_of_absent FreeSet.size _ habsent sets

/-- Settles O17: the two reserves are permilles rounded up, the headroom and the lendable count are bounded by them and by F, the share by
the lendable count. -/
theorem lendableFigures : Obligations.LendableFigures := by
  refine ⟨⟨fun x hp he hrp hew => ?reserves, fun x => reserveFloor_of_small, fun x => exposureHold_of_small⟩,
    ⟨fun x hp hf he hrp hew => ?headroom, fun presence sets bay grain habsent =>
      poolFree_giveGrain_of_absent habsent sets grain⟩,
    fun x hp hf hrp hew => ?share⟩
  case reserves =>
    exact ⟨reserveFloor_eq_iff x, exposureHold_eq_iff x, reserveFloor_le hp hrp, reserveFloor_le_half hrp,
      (exposureHold_le hew).trans he, reserveFloor_eq_zero_iff x, exposureHold_eq_zero_iff x⟩
  case headroom =>
    exact ⟨rfl, le_headroom hp he hrp hew, (headroom_le_f x).trans (mod_cast hf.trans hp), headroom_neg_iff x,
      lendable_of_headroom_pos, lendable_of_headroom_nonpos, lendable_le_f x, lendable_le_p hf, figures_of_p_eq_zero hf⟩
  case share =>
    refine ⟨lendableShare_eq_iff, lendableShare_of_p_eq_zero, lendableShare_le hf, lendableShare_eq_thousand_iff hf,
      lendable_eq_p_iff hf, fun hpos => ?unreserved, lendableShare_eq_zero_of_lt, fun htop hsmall => ?worked⟩
    case unreserved =>
      rw [reserveFloor_eq_zero_iff, exposureHold_eq_zero_iff, or_iff_right hpos.ne']
    case worked => exact lendableShare_eq_zero_of_lt (by omega)

end Sys2Proof.Machine

/-! Every write keeps map memory in its canonical form and within its capacities (R3, R18, R32, R50, R58, R101, R120). -/

namespace Sys2Proof.Machine

/-! ## Fields of map memory under its operations -/

section fields
variable (mm : MapMemory) (v c : Nat) (r : Volume) (st : Station) (p : PeerCapacity) (e : Entry)

@[simp] theorem setVolume_header : (setVolume mm v r).header = mm.header := rfl
@[simp] theorem setVolume_geometry : (setVolume mm v r).geometry = mm.geometry := rfl
@[simp] theorem setVolume_freeSets : (setVolume mm v r).freeSets = mm.freeSets := rfl
@[simp] theorem setVolume_chunks : (setVolume mm v r).chunks = mm.chunks := rfl
@[simp] theorem setVolume_pendings : (setVolume mm v r).pendings = mm.pendings := rfl
@[simp] theorem setVolume_trims : (setVolume mm v r).trims = mm.trims := rfl
@[simp] theorem setVolume_loans : (setVolume mm v r).loans = mm.loans := rfl
@[simp] theorem setVolume_spares : (setVolume mm v r).spares = mm.spares := rfl
@[simp] theorem setVolume_peers : (setVolume mm v r).peers = mm.peers := rfl

@[simp] theorem setPeer_header : (setPeer mm st p).header = mm.header := rfl
@[simp] theorem setPeer_geometry : (setPeer mm st p).geometry = mm.geometry := rfl
@[simp] theorem setPeer_freeSets : (setPeer mm st p).freeSets = mm.freeSets := rfl
@[simp] theorem setPeer_volumes : (setPeer mm st p).volumes = mm.volumes := rfl
@[simp] theorem setPeer_chunks : (setPeer mm st p).chunks = mm.chunks := rfl
@[simp] theorem setPeer_pendings : (setPeer mm st p).pendings = mm.pendings := rfl
@[simp] theorem setPeer_trims : (setPeer mm st p).trims = mm.trims := rfl
@[simp] theorem setPeer_loans : (setPeer mm st p).loans = mm.loans := rfl
@[simp] theorem setPeer_spares : (setPeer mm st p).spares = mm.spares := rfl

@[simp] theorem lowerInUse_header : (lowerInUse mm st).header = mm.header := rfl
@[simp] theorem lowerInUse_geometry : (lowerInUse mm st).geometry = mm.geometry := rfl
@[simp] theorem lowerInUse_freeSets : (lowerInUse mm st).freeSets = mm.freeSets := rfl
@[simp] theorem lowerInUse_volumes : (lowerInUse mm st).volumes = mm.volumes := rfl
@[simp] theorem lowerInUse_chunks : (lowerInUse mm st).chunks = mm.chunks := rfl
@[simp] theorem lowerInUse_pendings : (lowerInUse mm st).pendings = mm.pendings := rfl
@[simp] theorem lowerInUse_trims : (lowerInUse mm st).trims = mm.trims := rfl
@[simp] theorem lowerInUse_loans : (lowerInUse mm st).loans = mm.loans := rfl
@[simp] theorem lowerInUse_spares : (lowerInUse mm st).spares = mm.spares := rfl

@[simp] theorem removeEntry_header : (removeEntry mm v c).header = mm.header := rfl
@[simp] theorem removeEntry_geometry : (removeEntry mm v c).geometry = mm.geometry := rfl
@[simp] theorem removeEntry_freeSets : (removeEntry mm v c).freeSets = mm.freeSets := rfl
@[simp] theorem removeEntry_chunks : (removeEntry mm v c).chunks = tableErase mm.chunks (chunkKey v c) := rfl
@[simp] theorem removeEntry_pendings : (removeEntry mm v c).pendings = mm.pendings := rfl
@[simp] theorem removeEntry_trims : (removeEntry mm v c).trims = mm.trims := rfl
@[simp] theorem removeEntry_loans : (removeEntry mm v c).loans = mm.loans := rfl
@[simp] theorem removeEntry_spares : (removeEntry mm v c).spares = mm.spares := rfl
@[simp] theorem removeEntry_peers : (removeEntry mm v c).peers = mm.peers := rfl

@[simp] theorem addEntry_header : (addEntry mm v c e).header = mm.header := rfl
@[simp] theorem addEntry_geometry : (addEntry mm v c e).geometry = mm.geometry := rfl
@[simp] theorem addEntry_freeSets : (addEntry mm v c e).freeSets = mm.freeSets := rfl
@[simp] theorem addEntry_chunks : (addEntry mm v c e).chunks = tablePut mm.chunks (chunkKey v c) e := rfl
@[simp] theorem addEntry_pendings : (addEntry mm v c e).pendings = mm.pendings := rfl
@[simp] theorem addEntry_trims : (addEntry mm v c e).trims = mm.trims := rfl
@[simp] theorem addEntry_loans : (addEntry mm v c e).loans = mm.loans := rfl
@[simp] theorem addEntry_spares : (addEntry mm v c e).spares = mm.spares := rfl
@[simp] theorem addEntry_peers : (addEntry mm v c e).peers = mm.peers := rfl

@[simp] theorem putEntry_header : (putEntry mm v c e).header = mm.header := rfl
@[simp] theorem putEntry_geometry : (putEntry mm v c e).geometry = mm.geometry := rfl
@[simp] theorem putEntry_freeSets : (putEntry mm v c e).freeSets = mm.freeSets := rfl
@[simp] theorem putEntry_volumes : (putEntry mm v c e).volumes = mm.volumes := rfl
@[simp] theorem putEntry_chunks : (putEntry mm v c e).chunks = tablePut mm.chunks (chunkKey v c) e := rfl
@[simp] theorem putEntry_pendings : (putEntry mm v c e).pendings = mm.pendings := rfl
@[simp] theorem putEntry_trims : (putEntry mm v c e).trims = mm.trims := rfl
@[simp] theorem putEntry_loans : (putEntry mm v c e).loans = mm.loans := rfl
@[simp] theorem putEntry_spares : (putEntry mm v c e).spares = mm.spares := rfl
@[simp] theorem putEntry_peers : (putEntry mm v c e).peers = mm.peers := rfl

@[simp] theorem removePending_header : (removePending mm v c).header = mm.header := rfl
@[simp] theorem removePending_geometry : (removePending mm v c).geometry = mm.geometry := rfl
@[simp] theorem removePending_freeSets : (removePending mm v c).freeSets = mm.freeSets := rfl
@[simp] theorem removePending_volumes : (removePending mm v c).volumes = mm.volumes := rfl
@[simp] theorem removePending_chunks : (removePending mm v c).chunks = mm.chunks := rfl
@[simp] theorem removePending_trims : (removePending mm v c).trims = mm.trims := rfl
@[simp] theorem removePending_loans : (removePending mm v c).loans = mm.loans := rfl
@[simp] theorem removePending_spares : (removePending mm v c).spares = mm.spares := rfl
@[simp] theorem removePending_peers : (removePending mm v c).peers = mm.peers := rfl

/-- The head range's cursor moved past a chunk, on the trim queue alone. -/
def cursorMoved (c : Nat) : List TrimRange → List TrimRange
  | [] => []
  | r :: rest => { r with cursor := c + 1 } :: rest

theorem moveCursor_eq : moveCursor mm c = { mm with trims := cursorMoved c mm.trims } := by
  cases mm with | mk h g fs vs cs ps ts => cases ts <;> rfl

@[simp] theorem moveCursor_header : (moveCursor mm c).header = mm.header := by rw [moveCursor_eq]
@[simp] theorem moveCursor_geometry : (moveCursor mm c).geometry = mm.geometry := by rw [moveCursor_eq]
@[simp] theorem moveCursor_freeSets : (moveCursor mm c).freeSets = mm.freeSets := by rw [moveCursor_eq]
@[simp] theorem moveCursor_volumes : (moveCursor mm c).volumes = mm.volumes := by rw [moveCursor_eq]
@[simp] theorem moveCursor_chunks : (moveCursor mm c).chunks = mm.chunks := by rw [moveCursor_eq]
@[simp] theorem moveCursor_pendings : (moveCursor mm c).pendings = mm.pendings := by rw [moveCursor_eq]
@[simp] theorem moveCursor_trims : (moveCursor mm c).trims = cursorMoved c mm.trims := by rw [moveCursor_eq]
@[simp] theorem moveCursor_loans : (moveCursor mm c).loans = mm.loans := by rw [moveCursor_eq]
@[simp] theorem moveCursor_spares : (moveCursor mm c).spares = mm.spares := by rw [moveCursor_eq]
@[simp] theorem moveCursor_peers : (moveCursor mm c).peers = mm.peers := by rw [moveCursor_eq]

@[simp] theorem length_cursorMoved (ts : List TrimRange) : (cursorMoved c ts).length = ts.length := by cases ts <;> rfl

/-- A property of a range that its cursor has no part in is kept when the head range's cursor moves. -/
theorem forall_mem_cursorMoved {p : TrimRange → Prop} (hp : ∀ x n, p x → p { x with cursor := n }) {ts : List TrimRange}
    (h : ∀ x ∈ ts, p x) : ∀ x ∈ cursorMoved c ts, p x := by
  cases ts with
  | nil => exact h
  | cons r rest =>
    intro x hx
    obtain rfl | hx := List.mem_cons.mp hx
    · exact hp r _ (h r List.mem_cons_self)
    · exact h x (List.mem_cons_of_mem _ hx)

end fields

/-! ## What becomes of an entry that goes -/

/-- What the removal of an entry does with its grain: a LOCAL one returns to its free set; a REMOTE one is dropped, leaves its lender's
in-use count, or becomes a spare. -/
inductive GrainGone (mm : MapMemory) : Place → MapMemory → Prop
  | freed (bay grain : Nat) : GrainGone mm (.here bay grain) { mm with freeSets := giveGrain mm.freeSets bay grain }
  | dropped (lender : Station) (loan bay grain : Nat) (ep : Epoch) : GrainGone mm (.remote lender loan bay grain ep) mm
  | lowered (lender : Station) (loan bay grain : Nat) (ep : Epoch) :
      GrainGone mm (.remote lender loan bay grain ep) (lowerInUse mm lender)
  | spared (lender : Station) (loan bay grain : Nat) (ep : Epoch) (known : (peerOf mm lender).known = some ep)
      (room : mm.spares.length < Config.sparePlaces) :
      GrainGone mm (.remote lender loan bay grain ep)
        (setPeer
          { mm with spares := { lender := lender, loan := loan, bay := bay, grain := grain, epoch := ep } :: mm.spares } lender
          { peerOf mm lender with inUse := (peerOf mm lender).inUse - 1, spare := (peerOf mm lender).spare + 1 })

theorem rollbackGrain_gone (ro : Table RosterRecord) (pr : List Bool) (mm : MapMemory) (pl : Place) :
    GrainGone mm pl (rollbackGrain ro pr mm pl).mm := by
  unfold rollbackGrain
  split
  · exact .freed _ _
  · split
    · exact .dropped _ _ _ _ _
    · rename_i h
      split
      · exact .spared _ _ _ _ _ (by simpa using (not_or.mp h).2) ‹_›
      · exact .lowered _ _ _ _ _

theorem freeGrain_gone (ro : Table RosterRecord) (pr : List Bool) (mm : MapMemory) (pl : Place) :
    GrainGone mm pl (freeGrain ro pr mm pl).mm := by
  unfold freeGrain
  split
  · exact .freed _ _
  · split
    · exact .dropped _ _ _ _ _
    · dsimp only
      split
      · exact .lowered _ _ _ _ _
      · exact .dropped _ _ _ _ _
    · exact .lowered _ _ _ _ _

/-- Map memory after the entry of a chunk has gone: the pending record goes with a PENDING one, and the grain where its place says. -/
inductive EntryGone (mm : MapMemory) (v c : Nat) (e : Entry) : MapMemory → Prop
  | pending (mm' : MapMemory) (h : GrainGone (removeEntry (removePending mm v c) v c) e.place mm') : EntryGone mm v c e mm'
  | mapped (r : Station) (t : Nat) (hs : e.state = .mapped r t) (mm' : MapMemory)
      (h : GrainGone (removeEntry mm v c) e.place mm') : EntryGone mm v c e mm'

theorem rollbackChunk_gone (ro : Table RosterRecord) (pr : List Bool) {mm : MapMemory} {v c : Nat} {e : Entry}
    (he : entryOf mm v c = some e) : EntryGone mm v c e (rollbackChunk ro pr mm v c).mm := by
  simp only [rollbackChunk, he]
  exact .pending _ (rollbackGrain_gone _ _ _ _)

theorem rollbackChunk_none (ro : Table RosterRecord) (pr : List Bool) {mm : MapMemory} {v c : Nat}
    (he : entryOf mm v c = none) : (rollbackChunk ro pr mm v c).mm = removePending mm v c := by
  simp only [rollbackChunk, he]

theorem disposeEntry_gone (ro : Table RosterRecord) (pr : List Bool) {mm : MapMemory} {v c : Nat} {e : Entry}
    (he : entryOf mm v c = some e) : EntryGone mm v c e (disposeEntry ro pr mm v c e).mm := by
  unfold disposeEntry
  split
  · exact rollbackChunk_gone ro pr he
  · rename_i r t hs
    exact .mapped r t hs _ (freeGrain_gone _ _ _ _)

/-- Only a REMOTE place can be judged lost (R33). -/
theorem judgePlace_lost {ro : Table RosterRecord} {pr : List Bool} {pl : Place} (h : judgePlace ro pr pl = .lost) :
    ∃ lender loan bay grain ep, pl = .remote lender loan bay grain ep := by
  cases pl with
  | here bay grain => simp only [judgePlace] at h; split at h <;> simp at h
  | remote lender loan bay grain ep => exact ⟨lender, loan, bay, grain, ep, rfl⟩

theorem discardEntry_gone {ro : Table RosterRecord} {pr : List Bool} {mm : MapMemory} {v c : Nat} {e : Entry}
    (hl : judgePlace ro pr e.place = .lost) : EntryGone mm v c e (discardEntry mm v c e) := by
  obtain ⟨lender, loan, bay, grain, ep, hp⟩ := judgePlace_lost hl
  unfold discardEntry
  split
  · exact .pending _ (hp ▸ .dropped _ _ _ _ _)
  · rename_i r t hs
    exact .mapped r t hs _ (hp ▸ .dropped _ _ _ _ _)

/-- An allocation starts from map memory without an entry of the chunk, or with the old one gone. -/
theorem AllocBase.cases {s : State} {v c : Nat} {base : MapMemory} (h : AllocBase s v c base) :
    (entryOf s.mm v c = none ∧ base = s.mm) ∨ ∃ e, entryOf s.mm v c = some e ∧ EntryGone s.mm v c e base := by
  cases h with
  | noEntry h => exact .inl ⟨h, rfl⟩
  | disposed e h ht => exact .inr ⟨e, h, disposeEntry_gone _ _ h⟩
  | discarded e h hl => exact .inr ⟨e, h, discardEntry_gone hl⟩

/-! ## Tables that shrink and grow -/

theorem length_tableErase_le {α : Type} (t : Table α) (k : Nat) : (tableErase t k).length ≤ t.length :=
  (tableErase_sub t k).length_le

theorem length_insertPending (l : List PendingRecord) (r : PendingRecord) : (insertPending l r).length = l.length + 1 := by
  induction l with
  | nil => rfl
  | cons x l ih => unfold insertPending; split <;> simp [ih]

theorem mem_insertPending {l : List PendingRecord} {r x : PendingRecord} : x ∈ insertPending l r ↔ x = r ∨ x ∈ l := by
  induction l with
  | nil => simp [insertPending]
  | cons y l ih => unfold insertPending; split <;> simp [ih]; tauto

theorem makeLoans_length_le (b : Station) (e : Epoch) (gs : List (Nat × Nat)) (t : Table Loan) :
    (makeLoans b e t gs).1.length ≤ t.length + gs.length := by
  induction gs generalizing t with
  | nil => exact Nat.le_refl _
  | cons g gs ih =>
    refine (ih _).trans ?_
    have := length_tablePut_le t (lowestLoan t) { borrower := b, epoch := e, bay := g.1, grain := g.2 }
    simp only [List.length_cons]
    omega

theorem judgeGiveback_loans_length_le (st : Station) (ls : List Nat) (mm : MapMemory) :
    (judgeGiveback st mm ls).mm.loans.length ≤ mm.loans.length := by
  induction ls generalizing mm with
  | nil => exact Nat.le_refl _
  | cons n ls ih =>
    unfold judgeGiveback
    repeat' split
    · exact (ih _).trans (length_tableErase_le _ _)
    · exact ih _
    · exact ih _

/-- A GIVEBACK changes the loan table and the free sets alone. -/
theorem judgeGiveback_frame (st : Station) (ls : List Nat) (mm : MapMemory) :
    (judgeGiveback st mm ls).mm
      = { mm with loans := (judgeGiveback st mm ls).mm.loans, freeSets := (judgeGiveback st mm ls).mm.freeSets } := by
  induction ls generalizing mm with
  | nil => rfl
  | cons n ls ih =>
    unfold judgeGiveback
    repeat' split
    all_goals rw [ih]

theorem judgeGrant_length_le (mm : MapMemory) (st : Station) (ep : Epoch) (rs : List GrantRecord) (spares : List Spare)
    (h : spares.length ≤ Config.sparePlaces) : (judgeGrant mm st ep spares rs).spares.length ≤ Config.sparePlaces := by
  induction rs generalizing spares with
  | nil => exact h
  | cons r rs ih =>
    unfold judgeGrant
    split
    · exact ih _ h
    · split
      · exact ih _ (by simp; omega)
      · exact ih _ h

theorem pickFirst_perm {α : Type} (test : α → Bool) (n : Nat) (l : List α) :
    ((pickFirst test n l).1 ++ (pickFirst test n l).2).Perm l := by
  induction l generalizing n with
  | nil => exact .nil
  | cons x l ih =>
    cases n with
    | zero => exact .refl _
    | succ n =>
      cases ht : test x with
      | true => simpa [pickFirst, ht] using (ih n).cons x
      | false => simpa [pickFirst, ht] using List.perm_middle.trans ((ih (n + 1)).cons x)

/-! ## Within the capacities -/

/-- Both shapes together: what the laws of map memory are stated over. -/
abbrev Shaped (mm : MapMemory) : Prop := Canonical mm ∧ Fits mm

section fits
variable {mm : MapMemory}

theorem volumeOf_size_le (h : Fits mm) (v : Nat) : (volumeOf mm v).size ≤ Config.maxVolume := by
  unfold volumeOf tableGet
  cases hf : tableFind mm.volumes v with
  | none => exact Nat.zero_le _
  | some r => exact h.sizes _ (tableFind_mem hf)

theorem setVolume_fits (v : Nat) {r : Volume} (hr : r.size ≤ Config.maxVolume) (h : Fits mm) : Fits (setVolume mm v r) :=
  { h with
    sizes := fun p hp => by
      obtain rfl | hp := mem_tableSet hp
      · exact hr
      · exact h.sizes p hp }

theorem setPeer_fits (st : Station) (p : PeerCapacity) (h : Fits mm) : Fits (setPeer mm st p) := { h with }

theorem removePending_fits (v c : Nat) (h : Fits mm) : Fits (removePending mm v c) :=
  { h with
    pendings := (List.length_filter_le _ _).trans h.pendings
    pendingChunks := fun r hr => h.pendingChunks r (List.mem_filter.mp hr).1 }

theorem removeEntry_fits (v c : Nat) (h : Fits mm) : Fits (removeEntry mm v c) := by
  refine setVolume_fits v (volumeOf_size_le h v) { h with chunks := ?_ }
  exact (length_tableErase_le _ _).trans h.chunks

theorem addEntry_fits (v c : Nat) (e : Entry) (hroom : mm.chunks.length < Config.mapPlaces) (h : Fits mm) :
    Fits (addEntry mm v c e) := by
  refine setVolume_fits v (volumeOf_size_le h v) { h with chunks := ?_ }
  exact (length_tablePut_le _ _ _).trans hroom

theorem putEntry_fits {v c : Nat} (e : Entry) (hc : Canonical mm) (he : entryOf mm v c ≠ none) (h : Fits mm) :
    Fits (putEntry mm v c e) :=
  { h with chunks := (length_tablePut_of_find hc.chunks e he).trans_le h.chunks }

theorem moveCursor_fits (c : Nat) (h : Fits mm) : Fits (moveCursor mm c) := by
  rw [moveCursor_eq]
  refine { h with trims := ?_, ranges := ?_ }
  · exact (length_cursorMoved _ _).trans_le h.trims
  · exact forall_mem_cursorMoved c (fun _ _ hx => hx) h.ranges

theorem GrainGone.fits {pl : Place} {mm' : MapMemory} (g : GrainGone mm pl mm') (h : Fits mm) : Fits mm' := by
  cases g with
  | freed bay grain => exact { h with }
  | dropped => exact h
  | lowered => exact setPeer_fits _ _ h
  | spared lender loan bay grain ep known room => exact setPeer_fits _ _ { h with spares := room }

theorem EntryGone.fits {v c : Nat} {e : Entry} {mm' : MapMemory} (g : EntryGone mm v c e mm') (h : Fits mm) : Fits mm' := by
  cases g with
  | pending _ g => exact g.fits (removeEntry_fits v c (removePending_fits v c h))
  | mapped r t hs _ g => exact g.fits (removeEntry_fits v c h)

theorem AllocBase.fits {s : State} {v c : Nat} {base : MapMemory} (hb : AllocBase s v c base) (h : Fits s.mm) : Fits base := by
  obtain ⟨_, rfl⟩ | ⟨e, _, g⟩ := hb.cases
  · exact h
  · exact g.fits h

theorem makeEntry_fits {s : State} {a : Station} {v c tag : Nat} (pl : Place) (hc : c < Config.maxVolume)
    (hmap : mm.chunks.length < Config.mapPlaces) (hlist : mm.pendings.length < Config.pendingPlaces) (h : Fits mm) :
    Fits (makeEntry s a v c tag mm pl) := by
  refine { addEntry_fits v c _ hmap h with pendings := ?_, pendingChunks := ?_ }
  · exact (length_insertPending _ _).trans_le hlist
  · intro r hr
    obtain rfl | hr := mem_insertPending.mp hr
    · exact hc
    · exact h.pendingChunks r hr

theorem takeSpare_fits {ro : Table RosterRecord} {x : Spare} {mm' : MapMemory} (h : Fits mm)
    (hs : takeSpare ro mm = some (x, mm')) :
    Fits mm' ∧ mm'.chunks = mm.chunks ∧ mm'.pendings = mm.pendings := by
  unfold takeSpare at hs
  split at hs
  · cases hs
  · cases hs
    exact ⟨setPeer_fits _ _ { h with spares := (List.eraseP_sublist.length_le).trans h.spares }, rfl, rfl⟩

theorem returnStepOf_fits {ro : Table RosterRecord} {r : ReturnStep} (h : Fits mm) (hr : returnStepOf ro mm = some r) :
    Fits r.mm := by
  unfold returnStepOf at hr
  split at hr
  · cases hr
  · rename_i s _
    cases hr
    refine setPeer_fits _ _ { h with spares := ?_ }
    have := (pickFirst_perm (fun x => spareUsable ro x && x.lender == s.lender) Config.frameLoans mm.spares.reverse).length_eq
    simp only [List.length_append, List.length_reverse] at this ⊢
    have := h.spares
    omega

theorem dropOldSpares_fits (st : Station) (ep : Epoch) (h : Fits mm) : Fits (dropOldSpares mm st ep) :=
  setPeer_fits _ _ { h with spares := (List.length_filter_le _ _).trans h.spares }

theorem acceptGrant_fits (st : Station) (ep : Epoch) {j : GrantJudged} (hj : j.spares.length ≤ Config.sparePlaces) (h : Fits mm) :
    Fits (acceptGrant mm st ep j) := by
  have hjoined : Fits { mm with spares := j.spares } := { h with spares := hj }
  unfold acceptGrant
  refine setPeer_fits _ _ ?_
  split
  · exact dropOldSpares_fits _ _ hjoined
  · exact hjoined

theorem judgeGiveback_fits (st : Station) (ls : List Nat) (h : Fits mm) : Fits (judgeGiveback st mm ls).mm := by
  rw [judgeGiveback_frame]
  exact { h with loans := (judgeGiveback_loans_length_le st ls mm).trans h.loans }

theorem sweepVolumes_fits (h : Fits mm) : Fits (sweepVolumes mm) :=
  { h with sizes := fun p hp => h.sizes p (List.mem_filter.mp hp).1 }

theorem formatContents_fits (mm : MapMemory) (p : Profile) : Fits (formatContents mm p) where
  sizes := fun _ h => nomatch h
  chunks := Nat.zero_le _
  pendings := Nat.zero_le _
  pendingChunks := fun _ h => nomatch h
  trims := Nat.zero_le _
  ranges := fun _ h => nomatch h
  loans := Nat.zero_le _
  spares := Nat.zero_le _

theorem blank_fits : Fits MapMemory.blank where
  sizes := fun _ h => nomatch h
  chunks := Nat.zero_le _
  pendings := Nat.zero_le _
  pendingChunks := fun _ h => nomatch h
  trims := Nat.zero_le _
  ranges := fun _ h => nomatch h
  loans := Nat.zero_le _
  spares := Nat.zero_le _

end fits

/-! ## What the checks of a request assure -/

theorem checkChunk_none {s : State} {v c : Nat} (h : checkChunk s v c = none) :
    s.cond ≠ .halted ∧ (volumeOf s.mm v).state = .active ∧ c < (volumeOf s.mm v).size := by
  unfold checkChunk at h
  split_ifs at h with h1 h2 h3
  exact ⟨h1, not_not.mp h2, Nat.lt_of_not_le h3⟩

theorem checkTrim_none {s : State} {v first count : Nat} (h : checkTrim s v first count = none) :
    s.cond ≠ .halted ∧ count ≠ 0 ∧ (volumeOf s.mm v).state = .active ∧ first < (volumeOf s.mm v).size
      ∧ s.mm.trims.length < Config.trimPlaces := by
  unfold checkTrim at h
  split_ifs at h with h1 h2 h3 h4 h5
  exact ⟨h1, h2, not_not.mp h3, Nat.lt_of_not_le h4, Nat.lt_of_not_le h5⟩

/-- A chunk the checks of R36 let through lies below the largest nominal size. -/
theorem checkChunk_lt_maxVolume {s : State} {v c : Nat} (hf : Fits s.mm) (h : checkChunk s v c = none) : c < Config.maxVolume :=
  (checkChunk_none h).2.2.trans_le (volumeOf_size_le hf v)

/-! ## The entry a visit finds (R65) -/

theorem chunkKey_inj {v c w d : Nat} (hc : c < Config.maxVolume) (hd : d < Config.maxVolume) (h : chunkKey v c = chunkKey w d) :
    v = w ∧ c = d := by
  unfold chunkKey at h
  simp only [Config.maxVolume] at *
  omega

theorem chunkKey_div {v c : Nat} (hc : c < Config.maxVolume) : chunkKey v c / Config.maxVolume = v := by
  unfold chunkKey
  simp only [Config.maxVolume] at *
  omega

theorem chunkKey_mod {v c : Nat} (hc : c < Config.maxVolume) : chunkKey v c % Config.maxVolume = c := by
  unfold chunkKey
  simp only [Config.maxVolume] at *
  omega

theorem chunkKey_div_mod (k : Nat) : chunkKey (k / Config.maxVolume) (k % Config.maxVolume) = k := by
  unfold chunkKey
  exact Nat.div_add_mod' k Config.maxVolume

/-- The entry a visit finds is an entry of the range's volume, from the cursor to the last chunk. -/
theorem nextEntry_some {mm : MapMemory} {r : TrimRange} {c : Nat} {e : Entry} (hc : Canonical mm)
    (h : nextEntry mm r = some (c, e)) : entryOf mm r.volume c = some e ∧ r.cursor ≤ c ∧ c ≤ r.last := by
  unfold nextEntry at h
  obtain ⟨p, hp, hpe⟩ := Option.map_eq_some_iff.mp h
  cases hpe
  have hrange : chunkKey r.volume r.cursor ≤ p.1 ∧ p.1 ≤ chunkKey r.volume r.last := by simpa using List.find?_some hp
  unfold chunkKey at hrange
  have hkey : chunkKey r.volume (p.1 - chunkKey r.volume 0) = p.1 := by unfold chunkKey; omega
  refine ⟨?_, by unfold chunkKey; omega, by unfold chunkKey; omega⟩
  unfold entryOf
  rw [hkey]
  exact tableFind_of_mem hc.chunks (List.mem_of_find?_eq_some hp)

/-- What a visit does with the entry it finds: its shield is lowered, or it goes; the cursor moves past it either way. -/
theorem visitEntry_cases {mm : MapMemory} {r : TrimRange} {c : Nat} {e : Entry} (s : State)
    (he : entryOf mm r.volume c = some e) :
    (r.origin = .trim ∧ 0 < e.shield
        ∧ (visitEntry r c e mm s).mm = moveCursor (putEntry mm r.volume c { e with shield := e.shield - 1 }) c)
      ∨ ∃ mm', EntryGone mm r.volume c e mm' ∧ (visitEntry r c e mm s).mm = moveCursor mm' c := by
  unfold visitEntry
  split
  · rename_i h; exact .inl ⟨h.1, h.2, rfl⟩
  · exact .inr ⟨_, disposeEntry_gone _ _ he, rfl⟩

/-! ## Every write keeps the shape -/

theorem seekGrain_fits {s : State} {a : Station} {v c tag : Nat} {mm : MapMemory} (hc : c < Config.maxVolume) (h : Fits mm) :
    Fits (seekGrain s a v c tag mm).mm := by
  obtain he | ⟨hmap, hlist, ⟨b, g, rest, _, he⟩ | ⟨x, mm', hx, he⟩⟩ := seekGrain_cases s a v c tag mm
  · rwa [he]
  · exact he ▸ makeEntry_fits _ hc hmap hlist { h with }
  · obtain ⟨hf, hch, hpe⟩ := takeSpare_fits h hx
    exact he ▸ makeEntry_fits _ hc (hch ▸ hmap) (hpe ▸ hlist) hf

theorem rollbackChunk_fits (ro : Table RosterRecord) (pr : List Bool) {mm : MapMemory} (v c : Nat) (h : Fits mm) :
    Fits (rollbackChunk ro pr mm v c).mm := by
  cases he : entryOf mm v c with
  | none => exact rollbackChunk_none ro pr he ▸ removePending_fits v c h
  | some e => exact (rollbackChunk_gone ro pr he).fits h

theorem visitEntry_fits {mm : MapMemory} {r : TrimRange} {c : Nat} {e : Entry} (s : State) (hc : Canonical mm) (h : Fits mm)
    (hn : nextEntry mm r = some (c, e)) : Fits (visitEntry r c e mm s).mm := by
  obtain ⟨he, _, _⟩ := nextEntry_some hc hn
  obtain ⟨_, _, hv⟩ | ⟨mm', hg, hv⟩ := visitEntry_cases s he
  · exact hv ▸ moveCursor_fits c (putEntry_fits _ hc (by simp [he]) h)
  · exact hv ▸ moveCursor_fits c (hg.fits h)

theorem visitEntry_canonical {mm : MapMemory} (r : TrimRange) (c : Nat) (e : Entry) (s : State) (h : Canonical mm) :
    Canonical (visitEntry r c e mm s).mm := by
  unfold visitEntry
  split
  · exact moveCursor_canonical _ (putEntry_canonical _ _ _ h)
  · exact moveCursor_canonical _ (disposeEntry_canonical _ _ _ _ _ h)

theorem AllocBase.canonical {s : State} {v c : Nat} {base : MapMemory} (hb : AllocBase s v c base) (h : Canonical s.mm) :
    Canonical base := by
  cases hb with
  | noEntry => exact h
  | disposed e => exact disposeEntry_canonical _ _ _ _ _ h
  | discarded e => exact discardEntry_canonical _ _ _ h

theorem seekGrain_canonical {s : State} {a : Station} {v c tag : Nat} {mm : MapMemory} (h : Canonical mm) :
    Canonical (seekGrain s a v c tag mm).mm := by
  obtain he | ⟨_, _, ⟨b, g, rest, _, he⟩ | ⟨x, mm', hx, he⟩⟩ := seekGrain_cases s a v c tag mm
  · rwa [he]
  · exact he ▸ makeEntry_canonical _ (withFree_canonical h (takeGrains_wf 1 _ _ h.freeSets).1)
  · exact he ▸ makeEntry_canonical _ (takeSpare_canonical h hx)

theorem WriteOf.canonical {s : State} {mm : MapMemory} (w : WriteOf s mm) (h : Canonical s.mm) : Canonical mm := by
  cases w with
  | allocation a v c tag base hc hb => exact seekGrain_canonical (hb.canonical h)
  | commit a v c tag e x hc he hs => exact removePending_canonical _ _ (putEntry_canonical _ _ _ h)
  | trim a v first count tag hc => exact { h with }
  | create v size hf hs => exact setVolume_canonical _ _ h
  | grow v size ha hs => exact setVolume_canonical _ _ h
  | delete a v tag ha hr => exact setVolume_canonical _ _ { h with }
  | rollback r hr => exact rollbackChunk_canonical _ _ _ _ h
  | visit r rest c e ht hn => exact visitEntry_canonical _ _ _ _ h
  | rangeEnd r rest ht hn => exact { h with }
  | freeVolume v => exact setVolume_canonical _ _ h
  | grants a e n hn =>
    exact { h with freeSets := (takeGrains_wf n _ _ h.freeSets).1, loans := makeLoans_wf _ _ _ _ h.loans }
  | accept a e rs => exact acceptGrant_canonical _ _ _ h
  | giveback a ls => exact judgeGiveback_canonical _ _ h
  | returnStep r hr => exact returnStepOf_canonical h hr
  | dropSpares a e k hk hne => exact dropOldSpares_canonical _ _ h
  | reclaim a e => exact reclaimLoans_canonical _ _ h
  | formatHeader h' => exact { h with }
  | formatContents => exact formatContents_canonical _ _
  | restartCount => exact { h with }
  | sweep => exact sweepVolumes_canonical h

theorem trims_append_fits {mm : MapMemory} {r : TrimRange} (hroom : mm.trims.length < Config.trimPlaces)
    (hr : r.last < Config.maxVolume) (h : Fits mm) : Fits { mm with trims := mm.trims ++ [r] } :=
  { h with
    trims := by simpa using hroom
    ranges := fun x hx => by
      obtain hx | hx := List.mem_append.mp hx
      · exact h.ranges x hx
      · obtain rfl := List.mem_singleton.mp hx
        exact hr }

theorem pred_size_lt_maxVolume {mm : MapMemory} (h : Fits mm) (v : Nat) : (volumeOf mm v).size - 1 < Config.maxVolume := by
  have := volumeOf_size_le h v
  simp only [Config.maxVolume] at *
  omega

theorem WriteOf.fits {s : State} {mm : MapMemory} (w : WriteOf s mm) (hc : Canonical s.mm) (h : Fits s.mm) : Fits mm := by
  cases w with
  | allocation a v c tag base hk hb => exact seekGrain_fits (checkChunk_lt_maxVolume h hk) (hb.fits h)
  | commit a v c tag e x hk he hs => exact removePending_fits _ _ (putEntry_fits _ hc (by simp [he]) h)
  | trim a v first count tag hk =>
    obtain ⟨_, _, _, _, hroom⟩ := checkTrim_none hk
    exact trims_append_fits hroom ((min_le_right _ _).trans_lt (pred_size_lt_maxVolume h v)) h
  | create v size hf hs => exact setVolume_fits _ (min_le_right _ _) h
  | grow v size ha hs => exact setVolume_fits _ (min_le_right _ _) h
  | delete a v tag ha hr =>
    exact setVolume_fits _ (volumeOf_size_le h v) (trims_append_fits hr (pred_size_lt_maxVolume h v) h)
  | rollback r hr => exact rollbackChunk_fits _ _ _ _ h
  | visit r rest c e ht hn => exact visitEntry_fits s hc h hn
  | rangeEnd r rest ht hn =>
    refine { h with trims := ?_, ranges := fun x hx => h.ranges x (by rw [ht]; exact List.mem_cons_of_mem _ hx) }
    have hlen := h.trims
    rw [ht, List.length_cons] at hlen
    exact Nat.le_of_succ_le hlen
  | freeVolume v => exact setVolume_fits _ (Nat.zero_le _) h
  | grants a e n hn =>
    refine { h with loans := (makeLoans_length_le _ _ _ _).trans ?_ }
    have htaken := (takeGrains_wf (presence := s.presence) n s.mm.freeSets s.rotor hc.freeSets).2
    have hfits := h.loans
    omega
  | accept a e rs => exact acceptGrant_fits _ _ (judgeGrant_length_le _ _ _ _ _ h.spares) h
  | giveback a ls => exact judgeGiveback_fits _ _ h
  | returnStep r hr => exact returnStepOf_fits h hr
  | dropSpares a e k hk hne => exact dropOldSpares_fits _ _ h
  | reclaim a e => exact { h with loans := (List.length_filter_le _ _).trans h.loans }
  | formatHeader h' => exact { h with }
  | formatContents => exact formatContents_fits _ _
  | restartCount => exact { h with }
  | sweep => exact sweepVolumes_fits h

theorem WriteOf.shaped {s : State} {mm : MapMemory} (w : WriteOf s mm) (h : Shaped s.mm) : Shaped mm :=
  ⟨w.canonical h.1, w.fits h.1 h.2⟩

/-- Settles O6: every image an event writes keeps the canonical form and the capacities. -/
theorem memoryKept : Obligations.MemoryKept :=
  step_memory (writesKeep_of fun _ _ h w => w.shaped h)

end Sys2Proof.Machine

/-! Every step keeps the shields within the covering counts (R62) and the pending list with the PENDING entries (R50). -/

namespace Sys2Proof.Machine

/-! ## Map memory after an entry has gone -/

section gone
variable {mm mm' : MapMemory} {v c : Nat} {e : Entry}

theorem GrainGone.chunks {pl : Place} (g : GrainGone mm pl mm') : mm'.chunks = mm.chunks := by cases g <;> rfl
theorem GrainGone.trims {pl : Place} (g : GrainGone mm pl mm') : mm'.trims = mm.trims := by cases g <;> rfl
theorem GrainGone.pendings {pl : Place} (g : GrainGone mm pl mm') : mm'.pendings = mm.pendings := by cases g <;> rfl
theorem GrainGone.volumes {pl : Place} (g : GrainGone mm pl mm') : mm'.volumes = mm.volumes := by cases g <;> rfl
theorem GrainGone.loans {pl : Place} (g : GrainGone mm pl mm') : mm'.loans = mm.loans := by cases g <;> rfl
theorem GrainGone.geometry {pl : Place} (g : GrainGone mm pl mm') : mm'.geometry = mm.geometry := by cases g <;> rfl

theorem EntryGone.chunks (g : EntryGone mm v c e mm') : mm'.chunks = tableErase mm.chunks (chunkKey v c) := by
  cases g with
  | pending _ g => exact g.chunks
  | mapped r t hs _ g => exact g.chunks

theorem EntryGone.trims (g : EntryGone mm v c e mm') : mm'.trims = mm.trims := by
  cases g with
  | pending _ g => exact g.trims
  | mapped r t hs _ g => exact g.trims

theorem EntryGone.loans (g : EntryGone mm v c e mm') : mm'.loans = mm.loans := by
  cases g with
  | pending _ g => exact g.loans
  | mapped r t hs _ g => exact g.loans

theorem EntryGone.geometry (g : EntryGone mm v c e mm') : mm'.geometry = mm.geometry := by
  cases g with
  | pending _ g => exact g.geometry
  | mapped r t hs _ g => exact g.geometry

theorem EntryGone.volumes (g : EntryGone mm v c e mm') : mm'.volumes = (removeEntry mm v c).volumes := by
  cases g with
  | pending _ g => exact g.volumes
  | mapped r t hs _ g => exact g.volumes

theorem EntryGone.pendings (g : EntryGone mm v c e mm') :
    mm'.pendings = (removePending mm v c).pendings ∨ (∃ r t, e.state = .mapped r t) ∧ mm'.pendings = mm.pendings := by
  cases g with
  | pending _ g => exact .inl g.pendings
  | mapped r t hs _ g => exact .inr ⟨⟨r, t, hs⟩, g.pendings⟩

theorem EntryGone.entryOf_same (g : EntryGone mm v c e mm') (hc : Canonical mm) : entryOf mm' v c = none := by
  rw [entryOf, g.chunks]
  exact tableFind_erase_same hc.chunks _

end gone

/-- A record still found after another has been taken out was found before. -/
theorem tableFind_of_erase {α : Type} {t : Table α} (w : tableWf t) {k j : Nat} {x : α} (h : tableFind (tableErase t k) j = some x) :
    j ≠ k ∧ tableFind t j = some x := by
  have hjk : j ≠ k := by
    rintro rfl
    rw [tableFind_erase_same w] at h
    cases h
  exact ⟨hjk, by rwa [tableFind_erase_other t hjk] at h⟩

theorem takeSpare_frame {ro : Table RosterRecord} {mm mm' : MapMemory} {x : Spare} (hs : takeSpare ro mm = some (x, mm')) :
    mm' = { mm with spares := mm'.spares, peers := mm'.peers } := by
  unfold takeSpare at hs
  split at hs
  · cases hs
  · cases hs; rfl

/-- An allocation leaves map memory as it is, or makes the entry and its pending record where the pool or the spare list gave a place. -/
theorem seekGrain_made (s : State) (a : Station) (v c tag : Nat) (mm : MapMemory) :
    (seekGrain s a v c tag mm).mm = mm
    ∨ ∃ mm' pl, (seekGrain s a v c tag mm).mm = makeEntry s a v c tag mm' pl
        ∧ mm' = { mm with freeSets := mm'.freeSets, spares := mm'.spares, peers := mm'.peers } := by
  obtain he | ⟨_, _, ⟨b, g, rest, _, he⟩ | ⟨x, mm', hx, he⟩⟩ := seekGrain_cases s a v c tag mm
  · exact .inl he
  · exact .inr ⟨_, _, he, rfl⟩
  · exact .inr ⟨_, _, he, by rw [takeSpare_frame hx]⟩

/-- The map memory an allocation starts from holds no entry of the chunk. -/
theorem AllocBase.entryOf_none {s : State} {v c : Nat} {base : MapMemory} (hb : AllocBase s v c base) (hc : Canonical s.mm) :
    entryOf base v c = none := by
  obtain ⟨h, rfl⟩ | ⟨e, _, g⟩ := hb.cases
  · exact h
  · exact g.entryOf_same hc

/-! ## The first entry a range still covers (R65) -/

theorem nextEntry_none {mm : MapMemory} {r : TrimRange} (h : nextEntry mm r = none) {c : Nat} (hfrom : r.cursor ≤ c)
    (hto : c ≤ r.last) : entryOf mm r.volume c = none := by
  unfold nextEntry at h
  rw [Option.map_eq_none_iff, List.find?_eq_none] at h
  refine tableFind_none.mpr fun p hp hk => h p hp ?_
  simp only [hk, chunkKey, Bool.and_eq_true, decide_eq_true_eq]
  omega

theorem find_first_lt {α : Type} {t : Table α} (w : tableWf t) {test : Nat × α → Bool} {p q : Nat × α} (h : t.find? test = some p)
    (hq : q ∈ t) (ht : test q = true) : p.1 ≤ q.1 := by
  induction t with
  | nil => cases hq
  | cons x t ih =>
    obtain ⟨hfirst, hrest⟩ := tableWf_cons.mp w
    rw [List.find?_cons] at h
    split at h
    · cases h
      obtain rfl | hq := List.mem_cons.mp hq
      · exact Nat.le_refl _
      · exact (hfirst q hq).le
    · obtain rfl | hq := List.mem_cons.mp hq
      · simp_all
      · exact ih hrest h hq

/-- The entry a visit finds is the first from the cursor on. -/
theorem nextEntry_first {mm : MapMemory} {r : TrimRange} {c d : Nat} {e : Entry} (hc : Canonical mm)
    (h : nextEntry mm r = some (c, e)) (hfrom : r.cursor ≤ d) (hd : d < c) : entryOf mm r.volume d = none := by
  obtain ⟨_, _, hlast⟩ := nextEntry_some hc h
  unfold nextEntry at h
  obtain ⟨p, hp, hpe⟩ := Option.map_eq_some_iff.mp h
  cases hpe
  cases hfind : entryOf mm r.volume d with
  | none => rfl
  | some x =>
    unfold chunkKey at hd hlast
    have hle := find_first_lt hc.chunks hp (tableFind_mem hfind) (by
      rw [Bool.and_eq_true]
      constructor <;> refine decide_eq_true ?_ <;> unfold chunkKey <;> omega)
    unfold chunkKey at hle
    omega

/-! ## Shields and covering counts (R61, R62) -/

section shields
variable {mm mm' : MapMemory}

theorem coveringCount_of_trims (h : mm'.trims = mm.trims) (v c : Nat) : coveringCount mm' v c = coveringCount mm v c := by
  rw [coveringCount, coveringCount, h]

/-- A change of map memory keeps the shields' law when each entry it leaves has no larger shield and no smaller covering count. -/
theorem ShieldLaw.of_entries (h : ShieldLaw mm)
    (hsub : ∀ v c e, c < Config.maxVolume → entryOf mm' v c = some e →
      ∃ d, entryOf mm v c = some d ∧ (d.shield ≤ coveringCount mm v c → e.shield ≤ coveringCount mm' v c)) : ShieldLaw mm' := by
  intro v c e hc he
  obtain ⟨d, hd, hle⟩ := hsub v c e hc he
  exact hle (h v c d hc hd)

theorem ShieldLaw.of_eq (h : ShieldLaw mm) (hchunks : mm'.chunks = mm.chunks) (htrims : mm'.trims = mm.trims) : ShieldLaw mm' :=
  h.of_entries fun v c e _ he => ⟨e, by rwa [entryOf, hchunks] at he, by rw [coveringCount_of_trims htrims]; exact id⟩

/-- Fewer entries under at least the same ranges. -/
theorem ShieldLaw.of_erase (h : ShieldLaw mm) (hc : Canonical mm) {k : Nat} (hchunks : mm'.chunks = tableErase mm.chunks k)
    (htrims : mm'.trims = mm.trims) : ShieldLaw mm' :=
  h.of_entries fun v c e _ he =>
    ⟨e, (tableFind_of_erase hc.chunks (by rwa [entryOf, hchunks] at he)).2, by rw [coveringCount_of_trims htrims]; exact id⟩

theorem ShieldLaw.of_put (h : ShieldLaw mm) {v c : Nat} {e : Entry} (hc : c < Config.maxVolume)
    (hchunks : mm'.chunks = tablePut mm.chunks (chunkKey v c) e) (htrims : mm'.trims = mm.trims)
    (hle : e.shield ≤ coveringCount mm v c) : ShieldLaw mm' := by
  intro w d x hd hx
  rw [coveringCount_of_trims htrims]
  rw [entryOf, hchunks] at hx
  by_cases hk : chunkKey w d = chunkKey v c
  · obtain ⟨rfl, rfl⟩ := chunkKey_inj hd hc hk
    rw [tableFind_put_same] at hx
    cases hx
    exact hle
  · rw [tableFind_put_other _ _ hk] at hx
    exact h w d x hd hx

theorem ShieldLaw.of_append (h : ShieldLaw mm) (r : TrimRange) (hchunks : mm'.chunks = mm.chunks)
    (htrims : mm'.trims = mm.trims ++ [r]) : ShieldLaw mm' :=
  h.of_entries fun v c e _ he => by
    refine ⟨e, by rwa [entryOf, hchunks] at he, fun hle => hle.trans ?_⟩
    rw [coveringCount, coveringCount, htrims, List.countP_append]
    exact Nat.le_add_right _ _

theorem covers_iff (v c : Nat) (r : TrimRange) :
    covers v c r = true ↔ r.volume = v ∧ r.first ≤ c ∧ c ≤ r.last ∧ r.cursor ≤ c := by
  simp [covers, and_assoc]

/-- A chunk outside what the head range has still to visit has the same covering count without it. -/
theorem coveringCount_tail {r : TrimRange} {rest : List TrimRange} (htrims : mm.trims = r :: rest) (hrest : mm'.trims = rest)
    {v c : Nat} (hout : covers v c r = false) : coveringCount mm' v c = coveringCount mm v c := by
  rw [coveringCount, coveringCount, htrims, hrest, List.countP_cons, hout]
  rfl

/-- A chunk the moved cursor has not passed is covered by the head range as before. -/
theorem coveringCount_cursorMoved {r : TrimRange} {rest : List TrimRange} (htrims : mm.trims = r :: rest) {n : Nat}
    (hmoved : mm'.trims = cursorMoved n mm.trims) {v c : Nat} (hc : r.volume = v → r.cursor ≤ c → n < c) (hn : r.cursor ≤ n) :
    coveringCount mm' v c = coveringCount mm v c := by
  have hcovers : covers v c { r with cursor := n + 1 } = covers v c r := by
    rw [Bool.eq_iff_iff, covers_iff, covers_iff]
    refine ⟨fun ⟨h1, h2, h3, h4⟩ => ⟨h1, h2, h3, ?_⟩, fun ⟨h1, h2, h3, h4⟩ => ⟨h1, h2, h3, hc h1 h4⟩⟩
    dsimp only at h4
    omega
  simp only [coveringCount, hmoved, htrims, cursorMoved, List.countP_cons, hcovers]

/-- Moving the cursor takes at most one from a covering count. -/
theorem coveringCount_le_cursorMoved (n v c : Nat) (hmoved : mm'.trims = cursorMoved n mm.trims) :
    coveringCount mm v c ≤ coveringCount mm' v c + 1 := by
  simp only [coveringCount, hmoved]
  cases mm.trims with
  | nil => simp
  | cons r rest =>
    simp only [cursorMoved, List.countP_cons]
    split <;> omega

theorem EntryGone.shieldLaw {v c : Nat} {e : Entry} (g : EntryGone mm v c e mm') (hc : Canonical mm) (h : ShieldLaw mm) :
    ShieldLaw mm' := h.of_erase hc g.chunks g.trims

theorem AllocBase.shieldLaw {s : State} {v c : Nat} {base : MapMemory} (hb : AllocBase s v c base) (hc : Canonical s.mm)
    (h : ShieldLaw s.mm) : ShieldLaw base := by
  obtain ⟨_, rfl⟩ | ⟨e, _, g⟩ := hb.cases
  · exact h
  · exact g.shieldLaw hc h

theorem seekGrain_shieldLaw {s : State} {a : Station} {v c tag : Nat} {mm : MapMemory} (hc : c < Config.maxVolume)
    (h : ShieldLaw mm) : ShieldLaw (seekGrain s a v c tag mm).mm := by
  obtain he | ⟨mm', pl, he, hm⟩ := seekGrain_made s a v c tag mm
  · rwa [he]
  · rw [he, hm]
    exact h.of_put hc rfl rfl (Nat.le_refl _)

/-- Where the head range has moved on past `n`, the law holds again once the entry it passed has gone or has a lowered shield. -/
theorem ShieldLaw.of_visit (h : ShieldLaw mm) (hc : Canonical mm) {r : TrimRange} {rest : List TrimRange}
    (htrims : mm.trims = r :: rest) {n : Nat} {e : Entry} (hnext : nextEntry mm r = some (n, e))
    (hmoved : mm'.trims = cursorMoved n mm.trims)
    (hother : ∀ k, k ≠ chunkKey r.volume n → tableFind mm'.chunks k = tableFind mm.chunks k)
    (hsame : ∀ x, tableFind mm'.chunks (chunkKey r.volume n) = some x → x.shield + 1 ≤ e.shield) : ShieldLaw mm' := by
  obtain ⟨he, hfrom, hto⟩ := nextEntry_some hc hnext
  intro v c x hlt hx
  rw [entryOf] at hx
  by_cases hk : chunkKey v c = chunkKey r.volume n
  · rw [hk] at hx
    have hone := coveringCount_le_cursorMoved n v c hmoved
    have hold := h v c e hlt (by rw [entryOf, hk]; exact he)
    have hless := hsame x hx
    omega
  · rw [hother _ hk] at hx
    rw [coveringCount_cursorMoved htrims hmoved ?_ hfrom]
    · exact h v c x hlt hx
    · rintro rfl hcur
      by_contra hle
      have hne : c ≠ n := fun hcn => hk (by rw [hcn])
      have hnone := nextEntry_first hc hnext hcur (by omega : c < n)
      rw [entryOf, hx] at hnone
      cases hnone

theorem visitEntry_shieldLaw {r : TrimRange} {rest : List TrimRange} {n : Nat} {e : Entry} (s : State) (hc : Canonical mm)
    (htrims : mm.trims = r :: rest) (hnext : nextEntry mm r = some (n, e)) (h : ShieldLaw mm) :
    ShieldLaw (visitEntry r n e mm s).mm := by
  obtain ⟨he, _, _⟩ := nextEntry_some hc hnext
  obtain ⟨_, hpos, hv⟩ | ⟨mm', g, hv⟩ := visitEntry_cases s he
  · rw [hv]
    refine h.of_visit hc htrims hnext (by simp) (fun k hk => ?_) fun x hx => ?_
    · simpa using tableFind_put_other _ _ hk
    · simp only [moveCursor_chunks, putEntry_chunks, tableFind_put_same, Option.some.injEq] at hx
      subst hx
      dsimp only
      omega
  · rw [hv]
    refine h.of_visit hc htrims hnext (by rw [moveCursor_trims, g.trims]) (fun k hk => ?_) fun x hx => ?_
    · rw [moveCursor_chunks, g.chunks]
      exact tableFind_erase_other _ hk
    · rw [moveCursor_chunks, g.chunks, tableFind_erase_same hc.chunks] at hx
      cases hx

end shields

theorem acceptGrant_frame (mm : MapMemory) (st : Station) (ep : Epoch) (j : GrantJudged) :
    acceptGrant mm st ep j = { mm with spares := (acceptGrant mm st ep j).spares, peers := (acceptGrant mm st ep j).peers } := by
  unfold acceptGrant
  split <;> rfl

theorem returnStepOf_frame {ro : Table RosterRecord} {mm : MapMemory} {r : ReturnStep} (hr : returnStepOf ro mm = some r) :
    r.mm = { mm with spares := r.mm.spares, peers := r.mm.peers } := by
  unfold returnStepOf at hr
  split at hr
  · cases hr
  · cases hr; rfl

/-- The writes that leave the chunk map, the pending list and the trim queue as they are. -/
inductive MapUnchanged (mm mm' : MapMemory) : Prop
  | intro (chunks : mm'.chunks = mm.chunks) (pendings : mm'.pendings = mm.pendings) (trims : mm'.trims = mm.trims)

theorem ShieldLaw.of_unchanged {mm mm' : MapMemory} (h : ShieldLaw mm) (u : MapUnchanged mm mm') : ShieldLaw mm' :=
  have ⟨hc, _, ht⟩ := u
  h.of_eq hc ht

/-- The parts of a write that the map and its lists see; every other write leaves them unchanged. -/
inductive MapWriteOf (s : State) (mm : MapMemory) : Prop
  | unchanged (h : MapUnchanged s.mm mm)
  | emptied (hc : mm.chunks = []) (hp : mm.pendings = []) (ht : mm.trims = [])
  | allocation (a : Station) (v c tag : Nat) (base : MapMemory) (hc : checkChunk s v c = none) (hb : AllocBase s v c base)
      (h : mm = (seekGrain s a v c tag base).mm)
  | commit (a : Station) (v c tag : Nat) (e : Entry) (x : Time) (hc : checkChunk s v c = none) (he : entryOf s.mm v c = some e)
      (hs : e.state = .pending a tag x) (h : mm = removePending (putEntry s.mm v c { e with state := .mapped a tag }) v c)
  | range (r : TrimRange) (hc : mm.chunks = s.mm.chunks) (hp : mm.pendings = s.mm.pendings) (ht : mm.trims = s.mm.trims ++ [r])
  | rollback (r : PendingRecord) (hr : r ∈ s.mm.pendings) (h : mm = (rollbackChunk s.roster s.presence s.mm r.volume r.chunk).mm)
  | visit (r : TrimRange) (rest : List TrimRange) (c : Nat) (e : Entry) (ht : s.mm.trims = r :: rest)
      (hn : nextEntry s.mm r = some (c, e)) (h : mm = (visitEntry r c e s.mm s).mm)
  | rangeEnd (r : TrimRange) (rest : List TrimRange) (ht : s.mm.trims = r :: rest) (hn : nextEntry s.mm r = none)
      (h : mm = { s.mm with trims := rest })

theorem WriteOf.map {s : State} {mm : MapMemory} (w : WriteOf s mm) : MapWriteOf s mm := by
  cases w with
  | allocation a v c tag base hc hb => exact .allocation a v c tag base hc hb rfl
  | commit a v c tag e x hc he hs => exact .commit a v c tag e x hc he hs rfl
  | trim a v first count tag hc => exact .range _ rfl rfl rfl
  | create v size hf hs => exact .unchanged ⟨rfl, rfl, rfl⟩
  | grow v size ha hs => exact .unchanged ⟨rfl, rfl, rfl⟩
  | delete a v tag ha hr => exact .range _ rfl rfl rfl
  | rollback r hr => exact .rollback r hr rfl
  | visit r rest c e ht hn => exact .visit r rest c e ht hn rfl
  | rangeEnd r rest ht hn => exact .rangeEnd r rest ht hn rfl
  | freeVolume v => exact .unchanged ⟨rfl, rfl, rfl⟩
  | grants a e n hn => exact .unchanged ⟨rfl, rfl, rfl⟩
  | accept a e rs => rw [acceptGrant_frame]; exact .unchanged ⟨rfl, rfl, rfl⟩
  | giveback a ls => rw [judgeGiveback_frame]; exact .unchanged ⟨rfl, rfl, rfl⟩
  | returnStep r hr => rw [returnStepOf_frame hr]; exact .unchanged ⟨rfl, rfl, rfl⟩
  | dropSpares a e k hk hne => exact .unchanged ⟨rfl, rfl, rfl⟩
  | reclaim a e => exact .unchanged ⟨rfl, rfl, rfl⟩
  | formatHeader h' => exact .unchanged ⟨rfl, rfl, rfl⟩
  | formatContents => exact .emptied rfl rfl rfl
  | restartCount => exact .unchanged ⟨rfl, rfl, rfl⟩
  | sweep => exact .unchanged ⟨rfl, rfl, rfl⟩

theorem entryOf_of_empty {mm : MapMemory} (h : mm.chunks = []) (v c : Nat) : entryOf mm v c = none := by rw [entryOf, h]; rfl

theorem WriteOf.shieldLaw {s : State} {mm : MapMemory} (w : WriteOf s mm) (hs : Shaped s.mm) (h : ShieldLaw s.mm) :
    ShieldLaw mm := by
  obtain ⟨hc, hf⟩ := hs
  cases w.map with
  | unchanged u => exact h.of_unchanged u
  | emptied hchunks => intro v c e _ he; rw [entryOf_of_empty hchunks] at he; cases he
  | allocation a v c tag base hk hb hm =>
    rw [hm]
    exact seekGrain_shieldLaw (checkChunk_lt_maxVolume hf hk) (hb.shieldLaw hc h)
  | commit a v c tag e x hk he hs hm =>
    rw [hm]
    have hlt := checkChunk_lt_maxVolume hf hk
    exact h.of_put hlt rfl rfl (h v c e hlt he)
  | range r hchunks _ htrims => exact h.of_append r hchunks htrims
  | rollback r hr hm =>
    rw [hm]
    cases he : entryOf s.mm r.volume r.chunk with
    | none => rw [rollbackChunk_none _ _ he]; exact h.of_eq rfl rfl
    | some e => exact (rollbackChunk_gone _ _ he).shieldLaw hc h
  | visit r rest c e ht hn hm => rw [hm]; exact visitEntry_shieldLaw s hc ht hn h
  | rangeEnd r rest ht hn hm =>
    rw [hm]
    refine h.of_entries fun v c e hlt he => ⟨e, he, fun hle => ?_⟩
    rw [coveringCount_tail ht rfl]
    · exact hle
    · rw [← Bool.not_eq_true, covers_iff]
      rintro ⟨rfl, _, hto, hfrom⟩
      have hnone := nextEntry_none hn hfrom hto
      rw [show entryOf s.mm r.volume c = some e from he] at hnone
      cases hnone

/-- Settles O10: a range that moves on or ends passes no entry but one whose shield it lowers or that goes. -/
theorem shieldsKept : Obligations.ShieldsKept :=
  step_memory (writesKeep_of fun _ _ ⟨hc, hf, h⟩ w =>
    ⟨w.canonical hc, w.fits hc hf, w.shieldLaw ⟨hc, hf⟩ h⟩)

/-! ## The pending list and the PENDING entries (R50) -/

section pendings
variable {mm mm' : MapMemory}

theorem mem_removePending {v c : Nat} {r : PendingRecord} :
    r ∈ (removePending mm v c).pendings ↔ r ∈ mm.pendings ∧ ¬ (r.volume = v ∧ r.chunk = c) := by
  simp [removePending, Classical.or_iff_not_imp_left]

theorem insertPending_perm (l : List PendingRecord) (r : PendingRecord) : (insertPending l r).Perm (r :: l) := by
  induction l with
  | nil => exact .refl _
  | cons x l ih =>
    unfold insertPending
    split
    · exact .refl _
    · exact (ih.cons x).trans (.swap r x l)

theorem insertPending_order {l : List PendingRecord} (r : PendingRecord) (h : l.Pairwise fun a b => a.expiry ≤ b.expiry) :
    (insertPending l r).Pairwise fun a b => a.expiry ≤ b.expiry := by
  induction l with
  | nil => simp [insertPending]
  | cons x l ih =>
    obtain ⟨hx, hl⟩ := List.pairwise_cons.mp h
    unfold insertPending
    split
    · rename_i hlt
      refine List.pairwise_cons.mpr ⟨fun y hy => ?_, h⟩
      obtain rfl | hy := List.mem_cons.mp hy
      · exact hlt.le
      · exact hlt.le.trans (hx y hy)
    · rename_i hle
      refine List.pairwise_cons.mpr ⟨fun y hy => ?_, ih hl⟩
      obtain rfl | hy := mem_insertPending.mp hy
      · exact Nat.le_of_not_lt hle
      · exact hx y hy

theorem PendingLaw.of_eq (h : PendingLaw mm) (hchunks : mm'.chunks = mm.chunks) (hpendings : mm'.pendings = mm.pendings) :
    PendingLaw mm' := by
  have hentry : ∀ v c, entryOf mm' v c = entryOf mm v c := fun v c => by rw [entryOf, entryOf, hchunks]
  obtain ⟨hnamed, hlisted, honce, horder⟩ := h
  refine ⟨?_, ?_, by rwa [hpendings], by rwa [hpendings]⟩
  · simpa only [hpendings, hentry] using hnamed
  · simpa only [hpendings, hentry] using hlisted

/-- An entry changed in what the list does not name. -/
theorem PendingLaw.of_put (h : PendingLaw mm) {v c : Nat} {d e : Entry} (hd : entryOf mm v c = some d)
    (hstate : e.state = d.state) (hchunks : mm'.chunks = tablePut mm.chunks (chunkKey v c) e)
    (hpendings : mm'.pendings = mm.pendings) : PendingLaw mm' := by
  have hentry : ∀ k, (tableFind mm'.chunks k).map (·.state) = (tableFind mm.chunks k).map (·.state) := by
    intro k
    rw [hchunks]
    by_cases hk : k = chunkKey v c
    · subst hk
      rw [tableFind_put_same, show tableFind mm.chunks (chunkKey v c) = some d from hd]
      simp [hstate]
    · rw [tableFind_put_other _ _ hk]
  obtain ⟨hnamed, hlisted, honce, horder⟩ := h
  refine ⟨fun r hr => ?_, fun w x f a t y hx hf hs => ?_, by rwa [hpendings], by rwa [hpendings]⟩
  · obtain ⟨f, hf, hs⟩ := hnamed r (hpendings ▸ hr)
    have hmap := hentry (chunkKey r.volume r.chunk)
    rw [show tableFind mm.chunks _ = some f from hf] at hmap
    obtain ⟨g, hg, hgs⟩ := Option.map_eq_some_iff.mp hmap
    exact ⟨g, hg, hgs.trans hs⟩
  · have hmap := hentry (chunkKey w x)
    rw [show tableFind mm'.chunks _ = some f from hf] at hmap
    obtain ⟨g, hg, hgs⟩ := Option.map_eq_some_iff.mp hmap.symm
    rw [hpendings]
    exact hlisted w x g a t y hx hg (hgs.trans hs)

/-- The entry of a chunk has gone or is no longer PENDING, and its record has left the list. -/
theorem PendingLaw.of_unlisted (h : PendingLaw mm) (hf : Fits mm) {v c : Nat} (hc : c < Config.maxVolume)
    (hpendings : mm'.pendings = (removePending mm v c).pendings)
    (hother : ∀ k, k ≠ chunkKey v c → tableFind mm'.chunks k = tableFind mm.chunks k)
    (hsame : ∀ e a t x, entryOf mm' v c = some e → e.state ≠ .pending a t x) : PendingLaw mm' := by
  obtain ⟨hnamed, hlisted, honce, horder⟩ := h
  constructor
  case named =>
    intro r hr
    rw [hpendings, mem_removePending] at hr
    obtain ⟨hr, hne⟩ := hr
    rw [entryOf, hother _ fun hk => hne (chunkKey_inj (hf.pendingChunks r hr) hc hk)]
    exact hnamed r hr
  case listed =>
    intro w d e a t x hd he hs
    rw [hpendings, mem_removePending]
    by_cases hk : chunkKey w d = chunkKey v c
    · obtain ⟨rfl, rfl⟩ := chunkKey_inj hd hc hk
      exact absurd hs (hsame e a t x he)
    · rw [entryOf, hother _ hk] at he
      refine ⟨hlisted w d e a t x hd he hs, ?_⟩
      rintro ⟨rfl, rfl⟩
      exact hk rfl
  case once =>
    rw [hpendings]
    exact honce.sublist (List.filter_sublist.map _)
  case order =>
    rw [hpendings]
    exact horder.sublist List.filter_sublist

/-- The record of a MAPPED entry's chunk is in no list. -/
theorem PendingLaw.not_mem_of_mapped (h : PendingLaw mm) {v c : Nat} {e : Entry} {a : Station} {t : Nat}
    (he : entryOf mm v c = some e) (hs : e.state = .mapped a t) : ∀ r ∈ mm.pendings, ¬ (r.volume = v ∧ r.chunk = c) := by
  rintro r hr ⟨rfl, rfl⟩
  obtain ⟨d, hd, hstate⟩ := h.named r hr
  rw [he] at hd
  cases hd
  rw [hs] at hstate
  cases hstate

theorem PendingLaw.not_mem_of_none (h : PendingLaw mm) {v c : Nat} (he : entryOf mm v c = none) :
    ∀ r ∈ mm.pendings, ¬ (r.volume = v ∧ r.chunk = c) := by
  rintro r hr ⟨rfl, rfl⟩
  obtain ⟨d, hd, _⟩ := h.named r hr
  rw [he] at hd
  cases hd

theorem removePending_of_not_mem {v c : Nat} (h : ∀ r ∈ mm.pendings, ¬ (r.volume = v ∧ r.chunk = c)) :
    (removePending mm v c).pendings = mm.pendings := by
  refine List.filter_eq_self.mpr fun r hr => ?_
  simpa [Classical.or_iff_not_imp_left] using h r hr

theorem EntryGone.pendingLaw {v c : Nat} {e : Entry} (g : EntryGone mm v c e mm') (hs : Shaped mm) (hc : c < Config.maxVolume)
    (he : entryOf mm v c = some e) (h : PendingLaw mm) : PendingLaw mm' := by
  refine h.of_unlisted hs.2 hc ?_ (fun k hk => by rw [g.chunks]; exact tableFind_erase_other _ hk) fun x a t y hx => ?_
  · obtain hp | ⟨⟨a, t, hm⟩, hp⟩ := g.pendings
    · exact hp
    · rw [hp, removePending_of_not_mem (h.not_mem_of_mapped he hm)]
  · rw [g.entryOf_same hs.1] at hx
    cases hx

theorem AllocBase.pendingLaw {s : State} {v c : Nat} {base : MapMemory} (hb : AllocBase s v c base) (hs : Shaped s.mm)
    (hc : c < Config.maxVolume) (h : PendingLaw s.mm) : PendingLaw base := by
  obtain ⟨_, rfl⟩ | ⟨e, he, g⟩ := hb.cases
  · exact h
  · exact g.pendingLaw hs hc he h

theorem makeEntry_pendingLaw {s : State} {a : Station} {v c tag : Nat} (pl : Place)
    (hlt : ∀ r ∈ mm.pendings, r.chunk < Config.maxVolume) (hc : c < Config.maxVolume) (hnone : entryOf mm v c = none)
    (h : PendingLaw mm) : PendingLaw (makeEntry s a v c tag mm pl) := by
  have hnew := h.not_mem_of_none hnone
  obtain ⟨hnamed, hlisted, honce, horder⟩ := h
  constructor
  case named =>
    intro r hr
    obtain rfl | hr := mem_insertPending.mp hr
    · exact ⟨_, tableFind_put_same _ _ _, rfl⟩
    · obtain ⟨e, he, hstate⟩ := hnamed r hr
      refine ⟨e, ?_, hstate⟩
      rw [← he]
      exact tableFind_put_other _ _ fun hk => hnew r hr (chunkKey_inj (hlt r hr) hc hk)
  case listed =>
    intro w d e b t x hd he hstate
    refine mem_insertPending.mpr ?_
    by_cases hk : chunkKey w d = chunkKey v c
    · obtain ⟨rfl, rfl⟩ := chunkKey_inj hd hc hk
      have hput := (tableFind_put_same mm.chunks (chunkKey w d) _).symm.trans he
      cases hput
      cases hstate
      exact .inl rfl
    · exact .inr (hlisted w d e b t x hd ((tableFind_put_other _ _ hk).symm.trans he) hstate)
  case once =>
    refine ((insertPending_perm _ _).map _).nodup_iff.mpr (List.nodup_cons.mpr ⟨fun hmem => ?_, honce⟩)
    obtain ⟨r, hr, hrc⟩ := List.mem_map.mp hmem
    cases hrc
    exact hnew r hr ⟨rfl, rfl⟩
  case order => exact insertPending_order _ horder

theorem seekGrain_pendingLaw {s : State} {a : Station} {v c tag : Nat} (hf : Fits mm) (hc : c < Config.maxVolume)
    (hnone : entryOf mm v c = none) (h : PendingLaw mm) : PendingLaw (seekGrain s a v c tag mm).mm := by
  obtain he | ⟨base, pl, he, hm⟩ := seekGrain_made s a v c tag mm
  · rwa [he]
  · rw [he, hm]
    exact makeEntry_pendingLaw pl hf.pendingChunks hc hnone (h.of_eq rfl rfl)

theorem visitEntry_pendingLaw {r : TrimRange} {n : Nat} {e : Entry} (s : State) (hs : Shaped mm) (hn : n < Config.maxVolume)
    (he : entryOf mm r.volume n = some e) (h : PendingLaw mm) : PendingLaw (visitEntry r n e mm s).mm := by
  obtain ⟨_, _, hv⟩ | ⟨mm', g, hv⟩ := visitEntry_cases s he
  · rw [hv]
    exact h.of_put (e := { e with shield := e.shield - 1 }) he rfl (moveCursor_chunks _ _) (moveCursor_pendings _ _)
  · rw [hv]
    exact (g.pendingLaw hs hn he h).of_eq (moveCursor_chunks _ _) (moveCursor_pendings _ _)

theorem emptied_pendingLaw (hchunks : mm.chunks = []) (hpendings : mm.pendings = []) : PendingLaw mm where
  named := by simp [hpendings]
  listed := by
    intro v c e a t x _ he
    rw [entryOf_of_empty hchunks] at he
    cases he
  once := by simp [hpendings]
  order := by simp [hpendings]

end pendings

theorem WriteOf.pendingLaw {s : State} {mm : MapMemory} (w : WriteOf s mm) (hs : Shaped s.mm) (h : PendingLaw s.mm) :
    PendingLaw mm := by
  have ⟨hc, hf⟩ := hs
  cases w.map with
  | unchanged u =>
    obtain ⟨hchunks, hpendings, _⟩ := u
    exact h.of_eq hchunks hpendings
  | emptied hchunks hpendings => exact emptied_pendingLaw hchunks hpendings
  | allocation a v c tag base hk hb hm =>
    have hlt := checkChunk_lt_maxVolume hf hk
    rw [hm]
    exact seekGrain_pendingLaw (hb.fits hf) hlt (hb.entryOf_none hc) (hb.pendingLaw hs hlt h)
  | commit a v c tag e x hk he hstate hm =>
    rw [hm]
    refine h.of_unlisted hf (checkChunk_lt_maxVolume hf hk) rfl (fun k hne => tableFind_put_other _ _ hne) fun d b t y hd => ?_
    have hput := (tableFind_put_same _ _ _).symm.trans hd
    cases hput
    exact nofun
  | range r hchunks hpendings _ => exact h.of_eq hchunks hpendings
  | rollback r hr hm =>
    rw [hm]
    obtain ⟨e, he, _⟩ := h.named r hr
    exact (rollbackChunk_gone _ _ he).pendingLaw hs (hf.pendingChunks r hr) he h
  | visit r rest c e ht hn hm =>
    obtain ⟨he, _, hto⟩ := nextEntry_some hc hn
    have hlt : c < Config.maxVolume := hto.trans_lt (hf.ranges r (ht ▸ List.mem_cons_self))
    rw [hm]
    exact visitEntry_pendingLaw s hs hlt he h
  | rangeEnd r rest ht hn hm => rw [hm]; exact h.of_eq rfl rfl

/-- Settles O9: an entry and its pending record come and go together, and a new record takes its place by expiry. -/
theorem pendingsKept : Obligations.PendingsKept :=
  step_memory (writesKeep_of fun _ _ ⟨hc, hf, h⟩ w =>
    ⟨w.canonical hc, w.fits hc hf, w.pendingLaw ⟨hc, hf⟩ h⟩)

end Sys2Proof.Machine

/-! Every step keeps the pairs of lender and loan apart, the spares with their lenders' records (R101, R106), and each grain with its one
holder (R4). -/

namespace Sys2Proof.Machine

/-! ## Counting over a table that gains, loses or changes a record -/

section tables
variable {α : Type} {t : Table α} {k : Nat} {x y : α}

theorem tablePut_perm_of_none (h : tableFind t k = none) (x : α) : (tablePut t k x).Perm ((k, x) :: t) := by
  induction t with
  | nil => exact .refl _
  | cons p t ih =>
    obtain ⟨hp, ht⟩ : p.1 ≠ k ∧ ∀ q ∈ t, q.1 ≠ k := by simpa using tableFind_none.mp h
    unfold tablePut
    split
    · exact .refl _
    · rw [if_neg (Ne.symm hp)]
      exact ((ih (tableFind_none.mpr ht)).cons p).trans (.swap _ _ _)

theorem tableErase_perm (h : tableFind t k = some x) : t.Perm ((k, x) :: tableErase t k) := by
  induction t with
  | nil => cases h
  | cons p t ih =>
    unfold tableFind at h
    unfold tableErase
    split at h
    · rename_i hp
      subst hp
      cases h
      rw [if_pos rfl]
    · rename_i hp
      rw [if_neg hp]
      exact ((ih h).cons p).trans (.swap _ _ _)

theorem tablePut_perm_of_some (w : tableWf t) (h : tableFind t k = some x) (y : α) :
    (tablePut t k y).Perm ((k, y) :: tableErase t k) := by
  induction t with
  | nil => cases h
  | cons p t ih =>
    obtain ⟨hfirst, hrest⟩ := tableWf_cons.mp w
    unfold tableFind at h
    unfold tablePut tableErase
    split at h
    · rename_i hp
      subst hp
      simp
    · rename_i hp
      have hlt := hfirst _ (tableFind_mem h)
      rw [if_neg (by omega), if_neg (Ne.symm hp), if_neg hp]
      exact ((ih hrest h).cons p).trans (.swap _ _ _)

theorem countP_tablePut_of_none (h : tableFind t k = none) (x : α) (test : Nat × α → Bool) :
    (tablePut t k x).countP test = t.countP test + if test (k, x) then 1 else 0 := by
  rw [(tablePut_perm_of_none h x).countP_eq, List.countP_cons]

theorem countP_tableErase (h : tableFind t k = some x) (test : Nat × α → Bool) :
    t.countP test = (tableErase t k).countP test + if test (k, x) then 1 else 0 := by
  rw [(tableErase_perm h).countP_eq, List.countP_cons]

/-- A record changed in what is not tested. -/
theorem countP_tablePut_of_some (w : tableWf t) (h : tableFind t k = some x) {test : Nat × α → Bool}
    (htest : test (k, y) = test (k, x)) : (tablePut t k y).countP test = t.countP test := by
  rw [(tablePut_perm_of_some w h y).countP_eq, countP_tableErase h, List.countP_cons, htest]

end tables

theorem eraseP_perm_of_find? {α : Type} {l : List α} {test : α → Bool} {x : α} (h : l.find? test = some x) :
    l.Perm (x :: l.eraseP test) := by
  induction l with
  | nil => cases h
  | cons y l ih =>
    rw [List.find?_cons] at h
    rw [List.eraseP_cons]
    split at h
    · rename_i hy
      cases h
      rw [hy]
      exact .refl _
    · rename_i hy
      rw [hy]
      exact ((ih h).cons y).trans (.swap _ _ _)

/-! ## The pairs of lender and loan number (R101) -/

section pairs
variable {mm mm' : MapMemory} {lender : Station} {loan : Nat}

/-- The (lender, loan number) pair of a place, if it is REMOTE. -/
def Place.pair : Place → Option (Station × Nat)
  | .remote lender loan _ _ _ => some (lender, loan)
  | .here _ _ => none

/-- How often a pair stands among the spares and the REMOTE entries. -/
def pairCount (mm : MapMemory) (lender : Station) (loan : Nat) : Nat :=
  mm.spares.countP (fun x => (x.lender, x.loan) == (lender, loan))
    + mm.chunks.countP (fun p => p.2.place.pair == some (lender, loan))

theorem count_loanPairs (mm : MapMemory) (lender : Station) (loan : Nat) :
    (loanPairs mm).count (lender, loan) = pairCount mm lender loan := by
  have hpairs : loanPairs mm = mm.spares.map (fun x => (x.lender, x.loan)) ++ mm.chunks.filterMap fun p => p.2.place.pair := rfl
  rw [hpairs, List.count_append, List.count_eq_countP, List.count_eq_countP, List.countP_map, List.countP_filterMap]
  unfold pairCount
  congr 1
  refine List.countP_congr fun p _ => ?_
  cases p.2.place.pair <;> simp

theorem pairLaw_iff : PairLaw mm ↔ ∀ lender loan, pairCount mm lender loan ≤ 1 := by
  rw [PairLaw, List.nodup_iff_count_le_one]
  simp only [Prod.forall, count_loanPairs]

/-- The law is kept where no pair stands more often. -/
theorem PairLaw.of_le (h : PairLaw mm) (hle : ∀ lender loan, pairCount mm' lender loan ≤ pairCount mm lender loan) : PairLaw mm' :=
  pairLaw_iff.mpr fun lender loan => (hle lender loan).trans (pairLaw_iff.mp h lender loan)

theorem PairLaw.of_spares_le (h : PairLaw mm) (hchunks : mm'.chunks = mm.chunks)
    (hspares : ∀ test, mm'.spares.countP test ≤ mm.spares.countP test) : PairLaw mm' :=
  h.of_le fun lender loan => by
    unfold pairCount
    rw [hchunks]
    exact Nat.add_le_add_right (hspares _) _

theorem PairLaw.of_eq (h : PairLaw mm) (hchunks : mm'.chunks = mm.chunks) (hspares : mm'.spares = mm.spares) : PairLaw mm' :=
  h.of_spares_le hchunks fun _ => by rw [hspares]

/-- A pair that does not stand in map memory has count 0. -/
theorem pairCount_of_not_stands (h : pairStands mm lender loan = false) : pairCount mm lender loan = 0 := by
  have hstands : pairStands mm lender loan
      = (mm.spares.any (fun x => (x.lender, x.loan) == (lender, loan))
          || mm.chunks.any fun p => p.2.place.pair == some (lender, loan)) := by
    unfold pairStands
    congr 2
    funext p
    cases p.2.place <;> rfl
  rw [hstands, Bool.or_eq_false_iff, List.any_eq_false, List.any_eq_false] at h
  obtain ⟨hspares, hchunks⟩ := h
  unfold pairCount
  rw [List.countP_eq_zero.mpr fun x hx => hspares x hx, List.countP_eq_zero.mpr fun p hp => hchunks p hp]

theorem EntryGone.pairCount_le {v c : Nat} {e : Entry} (g : EntryGone mm v c e mm') (he : entryOf mm v c = some e)
    (lender : Station) (loan : Nat) : pairCount mm' lender loan ≤ pairCount mm lender loan := by
  have hchunks := countP_tableErase he fun p => p.2.place.pair == some (lender, loan)
  have hspares : mm'.spares.countP (fun x => (x.lender, x.loan) == (lender, loan))
      ≤ mm.spares.countP (fun x => (x.lender, x.loan) == (lender, loan))
        + if e.place.pair == some (lender, loan) then 1 else 0 := by
    have hgone : ∀ base, base.spares = mm.spares → GrainGone base e.place mm' →
        mm'.spares.countP (fun x => (x.lender, x.loan) == (lender, loan))
          ≤ mm.spares.countP (fun x => (x.lender, x.loan) == (lender, loan))
            + if e.place.pair == some (lender, loan) then 1 else 0 := by
      intro base hbase g
      rw [← hbase]
      generalize e.place = pl at g ⊢
      cases g with
      | spared l n b gr ep known room =>
        simp only [setPeer_spares, List.countP_cons, Place.pair]
        rfl
      | _ => exact Nat.le_add_right _ _
    cases g with
    | pending _ g => exact hgone (removeEntry (removePending mm v c) v c) rfl g
    | mapped r t hs _ g => exact hgone (removeEntry mm v c) rfl g
  unfold pairCount
  rw [g.chunks]
  dsimp only at hchunks
  omega

theorem EntryGone.pairLaw {v c : Nat} {e : Entry} (g : EntryGone mm v c e mm') (he : entryOf mm v c = some e) (h : PairLaw mm) :
    PairLaw mm' := h.of_le (g.pairCount_le he)

theorem AllocBase.pairLaw {s : State} {v c : Nat} {base : MapMemory} (hb : AllocBase s v c base) (h : PairLaw s.mm) :
    PairLaw base := by
  obtain ⟨_, rfl⟩ | ⟨e, he, g⟩ := hb.cases
  · exact h
  · exact g.pairLaw he h

/-- An entry added holds a place whose pair has left the spare list, if it has one. -/
theorem PairLaw.of_makeEntry (h : PairLaw mm) {base : MapMemory} {s : State} {a : Station} {v c tag : Nat} {pl : Place}
    (hnone : entryOf base v c = none) (hchunks : base.chunks = mm.chunks)
    (hspares : ∀ lender loan, base.spares.countP (fun x => (x.lender, x.loan) == (lender, loan))
        + (if pl.pair == some (lender, loan) then 1 else 0)
      ≤ mm.spares.countP (fun x => (x.lender, x.loan) == (lender, loan))) : PairLaw (makeEntry s a v c tag base pl) := by
  refine h.of_le fun lender loan => ?_
  have hle := hspares lender loan
  have hput := countP_tablePut_of_none hnone
    { state := .pending a tag (msFromNow s s.profile.holdTime), place := pl, shield := coveringCount base v c }
    fun p => p.2.place.pair == some (lender, loan)
  rw [hchunks] at hput
  have hmade : pairCount (makeEntry s a v c tag base pl) lender loan
      = base.spares.countP (fun x => (x.lender, x.loan) == (lender, loan))
        + (tablePut mm.chunks (chunkKey v c)
            { state := .pending a tag (msFromNow s s.profile.holdTime), place := pl, shield := coveringCount base v c }).countP
          (fun p => p.2.place.pair == some (lender, loan)) := by
    rw [← hchunks]
    rfl
  rw [hmade, hput, pairCount]
  dsimp only
  omega

theorem seekGrain_pairLaw {s : State} {a : Station} {v c tag : Nat} (hnone : entryOf mm v c = none) (h : PairLaw mm) :
    PairLaw (seekGrain s a v c tag mm).mm := by
  obtain he | ⟨_, _, ⟨b, g, rest, _, he⟩ | ⟨x, mm', hx, he⟩⟩ := seekGrain_cases s a v c tag mm
  · rwa [he]
  · rw [he]
    exact h.of_makeEntry hnone rfl fun lender loan => Nat.le_refl _
  · rw [he]
    have hframe := takeSpare_frame hx
    refine h.of_makeEntry (by rw [hframe]; exact hnone) (by rw [hframe]) fun lender loan => ?_
    unfold takeSpare at hx
    split at hx
    · cases hx
    · rename_i y hy
      cases hx
      rw [(eraseP_perm_of_find? hy).countP_eq, List.countP_cons]
      exact Nat.le_refl _

theorem pairCount_putEntry {v c : Nat} {d e : Entry} (hc : Canonical mm) (hd : entryOf mm v c = some d) (hplace : e.place = d.place) :
    pairCount (putEntry mm v c e) lender loan = pairCount mm lender loan := by
  unfold pairCount
  rw [putEntry_chunks, putEntry_spares, countP_tablePut_of_some hc.chunks hd (by rw [hplace])]

theorem visitEntry_pairLaw {r : TrimRange} {n : Nat} {e : Entry} (s : State) (hc : Canonical mm)
    (he : entryOf mm r.volume n = some e) (h : PairLaw mm) : PairLaw (visitEntry r n e mm s).mm := by
  obtain ⟨_, _, hv⟩ | ⟨mm', g, hv⟩ := visitEntry_cases s he
  · rw [hv]
    have hput : PairLaw (putEntry mm r.volume n { e with shield := e.shield - 1 }) :=
      h.of_le fun _ _ => (pairCount_putEntry (e := { e with shield := e.shield - 1 }) hc he rfl).le
    exact hput.of_eq (moveCursor_chunks _ _) (moveCursor_spares _ _)
  · rw [hv]
    exact (g.pairLaw he h).of_eq (moveCursor_chunks _ _) (moveCursor_spares _ _)

/-- A GRANT's record joins only where its pair does not stand yet (R96). -/
theorem judgeGrant_pairLaw (st : Station) (ep : Epoch) (rs : List GrantRecord) (spares : List Spare)
    (h : PairLaw { mm with spares := spares }) : PairLaw { mm with spares := (judgeGrant mm st ep spares rs).spares } := by
  induction rs generalizing spares with
  | nil => exact h
  | cons r rs ih =>
    unfold judgeGrant
    split
    · exact ih _ h
    · rename_i hstands
      split
      · refine ih _ (pairLaw_iff.mpr fun lender loan => ?_)
        have hold := pairLaw_iff.mp h lender loan
        unfold pairCount at *
        simp only [List.countP_append, List.countP_singleton]
        split
        · rename_i hsame
          have hpair : (st, r.loan) = (lender, loan) := by simpa using hsame
          cases hpair
          have hzero := pairCount_of_not_stands (by simpa using hstands)
          unfold pairCount at hzero
          simp only at hzero
          omega
        · simpa using hold
      · exact ih _ h

theorem acceptGrant_pairLaw (st : Station) (ep : Epoch) {j : GrantJudged} (h : PairLaw { mm with spares := j.spares }) :
    PairLaw (acceptGrant mm st ep j) := by
  unfold acceptGrant
  refine PairLaw.of_eq (mm := if _ then _ else _) ?_ rfl rfl
  split
  · exact h.of_spares_le rfl fun test => List.filter_sublist.countP_le
  · exact h

theorem returnStepOf_spares_countP_le {ro : Table RosterRecord} {r : ReturnStep} (hr : returnStepOf ro mm = some r)
    (test : Spare → Bool) : r.mm.spares.countP test ≤ mm.spares.countP test := by
  unfold returnStepOf at hr
  split at hr
  · cases hr
  · rename_i s _
    cases hr
    have hperm := (pickFirst_perm (fun x => spareUsable ro x && x.lender == s.lender) Config.frameLoans mm.spares.reverse).countP_eq test
    rw [List.countP_append, List.countP_reverse] at hperm
    simp only [setPeer_spares, List.countP_reverse]
    omega

theorem WriteOf.pairLaw {s : State} {mm : MapMemory} (w : WriteOf s mm) (hc : Canonical s.mm) (h : PairLaw s.mm) : PairLaw mm := by
  cases w with
  | allocation a v c tag base hk hb => exact seekGrain_pairLaw (hb.entryOf_none hc) (hb.pairLaw h)
  | commit a v c tag e x hk he hs =>
    exact h.of_le fun _ _ => (pairCount_putEntry (e := { e with state := .mapped a tag }) hc he rfl).le
  | rollback r hr =>
    cases he : entryOf s.mm r.volume r.chunk with
    | none => rw [rollbackChunk_none _ _ he]; exact h.of_eq rfl rfl
    | some e => exact (rollbackChunk_gone _ _ he).pairLaw he h
  | visit r rest c e ht hn => exact visitEntry_pairLaw s hc (nextEntry_some hc hn).1 h
  | accept a e rs => exact acceptGrant_pairLaw _ _ (judgeGrant_pairLaw _ _ _ _ h)
  | giveback a ls => rw [judgeGiveback_frame]; exact h.of_eq rfl rfl
  | returnStep r hr =>
    exact h.of_spares_le (by rw [returnStepOf_frame hr]) (returnStepOf_spares_countP_le hr)
  | dropSpares a e k hk hne => exact h.of_spares_le rfl fun test => List.filter_sublist.countP_le
  | formatContents => exact List.nodup_nil
  | trim | create | grow | delete | rangeEnd | freeVolume | grants | reclaim | formatHeader | restartCount | sweep =>
    exact h.of_eq rfl rfl

end pairs

/-! ## The spares and their lenders' records (R101, R106) -/

section spares
variable {mm mm' : MapMemory}

theorem peerOf_setPeer_same (hc : Canonical mm) (st : Station) (p : PeerCapacity) : peerOf (setPeer mm st p) st = p :=
  tableGet_set_same hc.peers.1 _ _

theorem peerOf_setPeer_other {st other : Station} (p : PeerCapacity) (h : other ≠ st) :
    peerOf (setPeer mm st p) other = peerOf mm other :=
  tableGet_set_other _ _ fun hn => h (BitVec.eq_of_toNat_eq hn)

theorem peerOf_of_peers (h : mm'.peers = mm.peers) (st : Station) : peerOf mm' st = peerOf mm st := by rw [peerOf, peerOf, h]

/-- How many spares a lender has in the list. -/
def sparesOf (mm : MapMemory) (st : Station) : Nat := mm.spares.countP fun x => x.lender == st

theorem SpareLaw.of_eq (h : SpareLaw mm) (hspares : mm'.spares = mm.spares) (hpeers : mm'.peers = mm.peers) : SpareLaw mm' where
  epochs := by simpa only [hspares, peerOf_of_peers hpeers] using h.epochs
  counts := by simpa only [hspares, peerOf_of_peers hpeers] using h.counts

/-- One lender's record and spares are changed together, the spares of the others stay. -/
theorem SpareLaw.of_lender (h : SpareLaw mm) {st : Station}
    (hpeers : ∀ other, other ≠ st → peerOf mm' other = peerOf mm other)
    (hepochs : ∀ x ∈ mm'.spares, x.lender = st → (peerOf mm' st).known = some x.epoch)
    (hsub : ∀ x ∈ mm'.spares, x.lender ≠ st → x ∈ mm.spares)
    (hothers : ∀ other, other ≠ st → sparesOf mm' other = sparesOf mm other)
    (hcount : (peerOf mm' st).spare = sparesOf mm' st) : SpareLaw mm' where
  epochs x hx := by
    by_cases hl : x.lender = st
    · rw [hl]; exact hepochs x hx hl
    · rw [hpeers _ hl]; exact h.epochs x (hsub x hx hl)
  counts other := by
    by_cases hl : other = st
    · rw [hl]; exact hcount
    · rw [hpeers _ hl]; exact (h.counts other).trans (hothers other hl).symm

/-- A lender's record changed in its in-use count alone. -/
theorem SpareLaw.of_setPeer (h : SpareLaw mm) (hc : Canonical mm) {st : Station} {p : PeerCapacity}
    (hknown : p.known = (peerOf mm st).known) (hspare : p.spare = (peerOf mm st).spare) : SpareLaw (setPeer mm st p) := by
  refine h.of_lender (st := st) (fun other hne => peerOf_setPeer_other p hne) (fun x hx hl => ?_) (fun x hx _ => hx)
    (fun _ _ => rfl) ?_
  · rw [peerOf_setPeer_same hc, hknown, ← hl]
    exact h.epochs x hx
  · rw [peerOf_setPeer_same hc, hspare]
    exact h.counts st

theorem sparesOf_cons (x : Spare) (st : Station) (l : List Spare) :
    (x :: l).countP (fun y => y.lender == st) = l.countP (fun y => y.lender == st) + if x.lender = st then 1 else 0 := by
  rw [List.countP_cons]
  simp

theorem GrainGone.spareLaw {pl : Place} (g : GrainGone mm pl mm') (hc : Canonical mm) (h : SpareLaw mm) : SpareLaw mm' := by
  cases g with
  | freed => exact h.of_eq rfl rfl
  | dropped => exact h
  | lowered => exact h.of_setPeer hc rfl rfl
  | spared lender loan bay grain ep known room =>
    have hsame : ∀ l p, peerOf (setPeer { mm with spares := l } lender p) lender = p :=
      fun l p => peerOf_setPeer_same (mm := { mm with spares := l }) { hc with } lender p
    refine h.of_lender (st := lender) (fun other hne => peerOf_setPeer_other _ hne) (fun x hx hl => ?_) (fun x hx hl => ?_)
      (fun other hne => ?_) ?_
    · rw [hsame]
      obtain rfl | hx := List.mem_cons.mp hx
      · exact known
      · rw [← hl]; exact h.epochs x hx
    · obtain rfl | hx := List.mem_cons.mp hx
      · exact absurd rfl hl
      · exact hx
    · exact (sparesOf_cons _ _ _).trans (if_neg (Ne.symm hne) ▸ rfl)
    · rw [hsame]
      have hold := h.counts lender
      have hcons := sparesOf_cons { lender := lender, loan := loan, bay := bay, grain := grain, epoch := ep } lender mm.spares
      rw [if_pos rfl] at hcons
      simp only [sparesOf, setPeer_spares]
      omega

theorem EntryGone.spareLaw {v c : Nat} {e : Entry} (g : EntryGone mm v c e mm') (hc : Canonical mm) (h : SpareLaw mm) :
    SpareLaw mm' := by
  cases g with
  | pending _ g => exact g.spareLaw (removeEntry_canonical _ _ (removePending_canonical _ _ hc)) (h.of_eq rfl rfl)
  | mapped r t hs _ g => exact g.spareLaw (removeEntry_canonical _ _ hc) (h.of_eq rfl rfl)

theorem AllocBase.spareLaw {s : State} {v c : Nat} {base : MapMemory} (hb : AllocBase s v c base) (hc : Canonical s.mm)
    (h : SpareLaw s.mm) : SpareLaw base := by
  obtain ⟨_, rfl⟩ | ⟨e, he, g⟩ := hb.cases
  · exact h
  · exact g.spareLaw hc h

/-- Spares of one lender leave the list, and its spare count falls by their number. -/
theorem SpareLaw.of_removed (h : SpareLaw mm) (hc : Canonical mm) {st : Station} {out kept : List Spare}
    (hperm : mm.spares.Perm (out ++ kept)) (hout : ∀ x ∈ out, x.lender = st) {p : PeerCapacity}
    (hknown : p.known = (peerOf mm st).known) (hspare : p.spare = (peerOf mm st).spare - out.length) :
    SpareLaw (setPeer { mm with spares := kept } st p) := by
  have hsame : peerOf (setPeer { mm with spares := kept } st p) st = p :=
    peerOf_setPeer_same (mm := { mm with spares := kept }) { hc with } st p
  have hsub : ∀ x ∈ kept, x ∈ mm.spares := fun x hx => hperm.mem_iff.mpr (List.mem_append_right _ hx)
  have hcounts : ∀ other, sparesOf mm other = out.countP (fun x => x.lender == other) + kept.countP (fun x => x.lender == other) := by
    intro other
    rw [sparesOf, hperm.countP_eq, List.countP_append]
  refine h.of_lender (st := st) (fun other hne => peerOf_setPeer_other p hne) (fun x hx hl => ?_) (fun x hx _ => hsub x hx)
    (fun other hne => ?_) ?_
  · rw [hsame, hknown, ← hl]
    exact h.epochs x (hsub x hx)
  · rw [hcounts other, List.countP_eq_zero.mpr, Nat.zero_add]
    · rfl
    · intro x hx
      simpa [hout x hx] using Ne.symm hne
  · have hall : out.countP (fun x => x.lender == st) = out.length := List.countP_eq_length.mpr fun x hx => by simp [hout x hx]
    have hold := h.counts st
    have hsplit := hcounts st
    rw [hsame, hspare, hold]
    simp only [sparesOf, setPeer_spares] at *
    omega

theorem takeSpare_spareLaw {ro : Table RosterRecord} {x : Spare} (hc : Canonical mm) (h : SpareLaw mm)
    (hs : takeSpare ro mm = some (x, mm')) : SpareLaw mm' := by
  unfold takeSpare at hs
  split at hs
  · cases hs
  · rename_i hx
    cases hs
    exact h.of_removed hc (out := [x]) (eraseP_perm_of_find? hx) (by simp) rfl rfl

theorem mem_pickFirst {α : Type} {test : α → Bool} {n : Nat} {l : List α} : ∀ x ∈ (pickFirst test n l).1, test x = true := by
  induction l generalizing n with
  | nil => exact nofun
  | cons y l ih =>
    cases n with
    | zero => exact nofun
    | succ n =>
      cases ht : test y with
      | true =>
        simp only [pickFirst, ht, if_true, List.mem_cons]
        rintro x (rfl | hx)
        · exact ht
        · exact ih x hx
      | false => simpa [pickFirst, ht] using ih (n := n + 1)

theorem returnStepOf_spareLaw {ro : Table RosterRecord} {r : ReturnStep} (hc : Canonical mm) (h : SpareLaw mm)
    (hr : returnStepOf ro mm = some r) : SpareLaw r.mm := by
  unfold returnStepOf at hr
  split at hr
  · cases hr
  · rename_i s _
    cases hr
    refine h.of_removed hc ((List.reverse_perm _).symm.trans ((pickFirst_perm _ _ _).symm.trans
      ((List.reverse_perm _).symm.append_left _))) (fun x hx => ?_) rfl rfl
    have htest := mem_pickFirst x hx
    simp only [Bool.and_eq_true, beq_iff_eq] at htest
    exact htest.2

/-- Where a lender's known epoch goes, so do all its spares (R108). -/
theorem dropOldSpares_spareLaw {st : Station} {ep k : Epoch} (hc : Canonical mm) (hknown : (peerOf mm st).known = some k)
    (hne : k ≠ ep) (h : SpareLaw mm) : SpareLaw (dropOldSpares mm st ep) := by
  have hsame : peerOf (dropOldSpares mm st ep) st = { known := some ep, inUse := 0, spare := 0 } :=
    peerOf_setPeer_same (mm := { mm with spares := _ }) { hc with } st _
  have hgone : ∀ x ∈ (dropOldSpares mm st ep).spares, x.lender ≠ st := by
    intro x hx hl
    obtain ⟨hx, htest⟩ := List.mem_filter.mp hx
    have hepoch := h.epochs x hx
    rw [hl, hknown] at hepoch
    cases hepoch
    simp [hl, hne] at htest
  refine h.of_lender (st := st) (fun other ho => peerOf_setPeer_other _ ho) (fun x hx hl => absurd hl (hgone x hx))
    (fun x hx _ => (List.mem_filter.mp hx).1) (fun other ho => ?_) ?_
  · refine (List.countP_filter ..).trans (List.countP_congr fun x _ => ?_)
    by_cases hl : x.lender = other
    · simp [hl, ho]
    · simp [hl]
  · rw [hsame]
    exact (List.countP_eq_zero.mpr fun x hx => by simpa using hgone x hx).symm

/-- The spares a GRANT adds stand behind the old ones, and are the lender's under the epoch of the GRANT. -/
theorem judgeGrant_spares (mm : MapMemory) (st : Station) (ep : Epoch) (rs : List GrantRecord) (spares : List Spare) :
    ∃ new, (judgeGrant mm st ep spares rs).spares = spares ++ new ∧ (judgeGrant mm st ep spares rs).joined = new.length
      ∧ ∀ x ∈ new, x.lender = st ∧ x.epoch = ep := by
  induction rs generalizing spares with
  | nil => exact ⟨[], by simp [judgeGrant]⟩
  | cons r rs ih =>
    unfold judgeGrant
    split
    · exact ih _
    · split
      · obtain ⟨new, hnew, hjoined, hall⟩ := ih (spares ++ [{ lender := st, loan := r.loan, bay := r.bay, grain := r.grain, epoch := ep }])
        refine ⟨{ lender := st, loan := r.loan, bay := r.bay, grain := r.grain, epoch := ep } :: new, by simp [hnew],
          by simp [hjoined], fun x hx => ?_⟩
        obtain rfl | hx := List.mem_cons.mp hx
        · exact ⟨rfl, rfl⟩
        · exact hall x hx
      · exact ih _

/-- New spares of a lender under its known epoch, counted in its record. -/
theorem SpareLaw.of_joined (h : SpareLaw mm) (hc : Canonical mm) {st : Station} {ep : Epoch} {new : List Spare}
    (hnew : ∀ x ∈ new, x.lender = st ∧ x.epoch = ep) (hold : ∀ x ∈ mm.spares, x.lender = st → x.epoch = ep) {p : PeerCapacity}
    (hknown : p.known = some ep) (hspare : p.spare = (peerOf mm st).spare + new.length) :
    SpareLaw (setPeer { mm with spares := mm.spares ++ new } st p) := by
  have hsame : peerOf (setPeer { mm with spares := mm.spares ++ new } st p) st = p :=
    peerOf_setPeer_same (mm := { mm with spares := mm.spares ++ new }) { hc with } st p
  refine h.of_lender (st := st) (fun other hne => peerOf_setPeer_other p hne) (fun x hx hl => ?_) (fun x hx hl => ?_)
    (fun other hne => ?_) ?_
  · rw [hsame, hknown]
    obtain hx | hx := List.mem_append.mp hx
    · rw [hold x hx hl]
    · rw [(hnew x hx).2]
  · obtain hx | hx := List.mem_append.mp hx
    · exact hx
    · exact absurd (hnew x hx).1 hl
  · simp only [sparesOf, setPeer_spares, List.countP_append]
    rw [List.countP_eq_zero (l := new).mpr fun x hx => by simpa [(hnew x hx).1] using Ne.symm hne, Nat.add_zero]
  · have hcount := h.counts st
    have hall : new.countP (fun x => x.lender == st) = new.length := List.countP_eq_length.mpr fun x hx => by simp [(hnew x hx).1]
    rw [hsame, hspare]
    simp only [sparesOf, setPeer_spares, List.countP_append]
    omega

theorem dropOldSpares_append {st : Station} {ep : Epoch} {new : List Spare} (hnew : ∀ x ∈ new, x.lender = st ∧ x.epoch = ep) :
    dropOldSpares { mm with spares := mm.spares ++ new } st ep
      = { dropOldSpares mm st ep with spares := (dropOldSpares mm st ep).spares ++ new } := by
  have hkept : new.filter (fun s => !(s.lender == st && s.epoch != ep)) = new :=
    List.filter_eq_self.mpr fun x hx => by simp [(hnew x hx).1, (hnew x hx).2]
  unfold dropOldSpares
  simp only [List.filter_append, hkept]
  rfl

theorem acceptGrant_spareLaw {st : Station} {ep : Epoch} (rs : List GrantRecord) (hc : Canonical mm) (h : SpareLaw mm) :
    SpareLaw (acceptGrant mm st ep (judgeGrant mm st ep mm.spares rs)) := by
  obtain ⟨new, hspares, hjoined, hnew⟩ := judgeGrant_spares mm st ep rs mm.spares
  unfold acceptGrant
  simp only [hspares, hjoined]
  split
  · rename_i hother
    obtain ⟨k, hk⟩ := Option.ne_none_iff_exists'.mp hother.1
    have hne : k ≠ ep := fun hke => hother.2 (by rw [hk, hke])
    have hsame : peerOf (dropOldSpares mm st ep) st = { known := some ep, inUse := 0, spare := 0 } :=
      peerOf_setPeer_same (mm := { mm with spares := _ }) { hc with } st _
    have hdrop := dropOldSpares_spareLaw hc hk hne h
    rw [dropOldSpares_append hnew]
    refine hdrop.of_joined (dropOldSpares_canonical _ _ hc) hnew (fun x hx hl => ?_) rfl rfl
    have hepoch := hdrop.epochs x hx
    rw [hl, hsame] at hepoch
    exact (Option.some.inj hepoch).symm
  · rename_i hsame
    refine h.of_joined hc hnew (fun x hx hl => ?_) rfl rfl
    have hepoch := h.epochs x hx
    rw [hl] at hepoch
    by_contra hne
    exact hsame ⟨by simp [hepoch], by simpa [hepoch] using hne⟩

theorem seekGrain_spareLaw {s : State} {a : Station} {v c tag : Nat} (hc : Canonical mm) (h : SpareLaw mm) :
    SpareLaw (seekGrain s a v c tag mm).mm := by
  obtain he | ⟨_, _, ⟨b, g, rest, _, he⟩ | ⟨x, mm', hx, he⟩⟩ := seekGrain_cases s a v c tag mm
  · rwa [he]
  · rw [he]; exact h.of_eq rfl rfl
  · rw [he]; exact (takeSpare_spareLaw hc h hx).of_eq rfl rfl

theorem visitEntry_spareLaw {r : TrimRange} {n : Nat} {e : Entry} (s : State) (hc : Canonical mm)
    (he : entryOf mm r.volume n = some e) (h : SpareLaw mm) : SpareLaw (visitEntry r n e mm s).mm := by
  obtain ⟨_, _, hv⟩ | ⟨mm', g, hv⟩ := visitEntry_cases s he
  · rw [hv]; exact h.of_eq (moveCursor_spares _ _) (moveCursor_peers _ _)
  · rw [hv]; exact (g.spareLaw hc h).of_eq (moveCursor_spares _ _) (moveCursor_peers _ _)

theorem emptied_spareLaw (hspares : mm.spares = []) (hpeers : mm.peers = []) : SpareLaw mm where
  epochs := by simp [hspares]
  counts st := by
    rw [hspares, peerOf, hpeers]
    rfl

theorem WriteOf.spareLaw {s : State} {mm : MapMemory} (w : WriteOf s mm) (hc : Canonical s.mm) (h : SpareLaw s.mm) :
    SpareLaw mm := by
  cases w with
  | allocation a v c tag base hk hb => exact seekGrain_spareLaw (hb.canonical hc) (hb.spareLaw hc h)
  | rollback r hr =>
    cases he : entryOf s.mm r.volume r.chunk with
    | none => rw [rollbackChunk_none _ _ he]; exact h.of_eq rfl rfl
    | some e => exact (rollbackChunk_gone _ _ he).spareLaw hc h
  | visit r rest c e ht hn => exact visitEntry_spareLaw s hc (nextEntry_some hc hn).1 h
  | accept a e rs => exact acceptGrant_spareLaw rs hc h
  | giveback a ls => rw [judgeGiveback_frame]; exact h.of_eq rfl rfl
  | returnStep r hr => exact returnStepOf_spareLaw hc h hr
  | dropSpares a e k hk hne => exact dropOldSpares_spareLaw hc hk hne h
  | formatContents => exact emptied_spareLaw rfl rfl
  | commit | trim | create | grow | delete | rangeEnd | freeVolume | grants | reclaim | formatHeader | restartCount | sweep =>
    exact h.of_eq rfl rfl

end spares

/-- Settles O11: a pair moves between the spare list and the map or leaves both, and each spare is counted in its lender's record. -/
theorem pairsKept : Obligations.PairsKept :=
  ⟨step_memory (writesKeep_of fun _ _ ⟨hc, hf, h⟩ w => ⟨w.canonical hc, w.fits hc hf, w.pairLaw hc h⟩),
    step_memory (writesKeep_of fun _ _ ⟨hc, hf, h⟩ w => ⟨w.canonical hc, w.fits hc hf, w.spareLaw hc h⟩)⟩

end Sys2Proof.Machine

/-! Every step keeps each grain free or with its one holder (R4). -/

namespace Sys2Proof.Machine

section grains
variable {mm mm' : MapMemory}

/-- How many LOCAL entries and loan records hold a grain. -/
def holderCount (mm : MapMemory) (bay grain : Nat) : Nat := localCount mm bay grain + loanCount mm bay grain

@[simp] theorem FreeSet.give_count (x : FreeSet) (g : Nat) : (x.give g).count = x.count := rfl
@[simp] theorem FreeSet.take_count (x : FreeSet) (g : Nat) : (x.take g).count = x.count := rfl

theorem FreeSet.mem_give_held {x : FreeSet} {g k : Nat} : k ∈ (x.give g).held ↔ k ∈ x.held ∧ k ≠ g := by
  simp [FreeSet.give]

theorem FreeSet.mem_take_held {x : FreeSet} {g k : Nat} : k ∈ (x.take g).held ↔ k = g ∨ k ∈ x.held := mem_insertRising

theorem map_count_modify (sets : List FreeSet) (bay : Nat) {f : FreeSet → FreeSet} (hf : ∀ x, (f x).count = x.count) :
    (sets.modify bay f).map (·.count) = sets.map (·.count) := by
  refine List.ext_getElem? fun i => ?_
  simp only [List.getElem?_map, List.getElem?_modify]
  by_cases hi : bay = i
  · simp only [if_pos hi]
    cases sets[i]? <;> simp [hf]
  · simp only [if_neg hi]
    cases sets[i]? <;> simp

/-- The free set of a bay after the set of a bay has been changed. -/
theorem getElem?_modify_some {sets : List FreeSet} {b bay : Nat} {f : FreeSet → FreeSet} {x : FreeSet}
    (h : (sets.modify b f)[bay]? = some x) : ∃ y, sets[bay]? = some y ∧ x = if bay = b then f y else y := by
  rw [List.getElem?_modify] at h
  obtain ⟨y, hy, rfl⟩ := Option.map_eq_some_iff.mp h
  refine ⟨y, hy, ?_⟩
  by_cases hb : b = bay
  · simp [hb]
  · simp [hb, Ne.symm hb]

theorem GrainLaw.of_eq (h : GrainLaw mm) (hgeometry : mm'.geometry = mm.geometry) (hsets : mm'.freeSets = mm.freeSets)
    (hcount : ∀ bay grain, holderCount mm' bay grain = holderCount mm bay grain) : GrainLaw mm' where
  geometry := by rw [hgeometry, hsets]; exact h.geometry
  holders bay x hx grain := (hcount bay grain).trans (h.holders bay x (hsets ▸ hx) grain)

/-- A holder's grain returns to its free set. -/
theorem GrainLaw.of_given (h : GrainLaw mm) {b g : Nat} (hgeometry : mm'.geometry = mm.geometry)
    (hsets : mm'.freeSets = giveGrain mm.freeSets b g)
    (hcount : ∀ bay grain, holderCount mm bay grain = holderCount mm' bay grain + if bay = b ∧ grain = g then 1 else 0) :
    GrainLaw mm' where
  geometry geo hgeo := by
    rw [hsets, giveGrain, map_count_modify _ _ fun x => FreeSet.give_count x g]
    exact h.geometry geo (hgeometry ▸ hgeo)
  holders bay x hx grain := by
    rw [hsets] at hx
    obtain ⟨y, hy, rfl⟩ := getElem?_modify_some hx
    have hold : holderCount mm bay grain = _ := h.holders bay y hy grain
    have hcnt := hcount bay grain
    change holderCount mm' bay grain = _
    by_cases hb : bay = b
    · simp only [if_pos hb, FreeSet.mem_give_held]
      by_cases hg : grain = g
      · rw [if_pos ⟨hb, hg⟩] at hcnt
        rw [if_neg fun hm => hm.2 hg]
        split at hold <;> omega
      · rw [if_neg fun hm => hg hm.2] at hcnt
        simp only [hg, not_false_eq_true, and_true, ne_eq]
        omega
    · rw [if_neg hb]
      rw [if_neg fun hm => hb hm.1] at hcnt
      omega

/-- A free grain leaves its free set for a new holder. -/
theorem GrainLaw.of_taken (h : GrainLaw mm) {b g : Nat} {x : FreeSet} (hx : mm.freeSets[b]? = some x) (hfree : g ∉ x.held)
    (hgeometry : mm'.geometry = mm.geometry) (hsets : mm'.freeSets = mm.freeSets.modify b (·.take g))
    (hcount : ∀ bay grain, holderCount mm' bay grain = holderCount mm bay grain + if bay = b ∧ grain = g then 1 else 0) :
    GrainLaw mm' where
  geometry geo hgeo := by
    rw [hsets, map_count_modify _ _ fun x => FreeSet.take_count x g]
    exact h.geometry geo (hgeometry ▸ hgeo)
  holders bay z hz grain := by
    rw [hsets] at hz
    obtain ⟨y, hy, rfl⟩ := getElem?_modify_some hz
    have hold : holderCount mm bay grain = _ := h.holders bay y hy grain
    change holderCount mm' bay grain = _
    rw [hcount bay grain, hold]
    by_cases hb : bay = b
    · subst hb
      obtain rfl : x = y := Option.some.inj (hx.symm.trans hy)
      simp only [if_true, FreeSet.mem_take_held, true_and]
      by_cases hg : grain = g
      · subst hg
        simp [hfree]
      · simp [hg]
    · simp [hb]

theorem holderCount_of_eq (hchunks : mm'.chunks = mm.chunks) (hloans : mm'.loans = mm.loans) (bay grain : Nat) :
    holderCount mm' bay grain = holderCount mm bay grain := by
  unfold holderCount localCount loanCount
  rw [hchunks, hloans]

theorem GrainLaw.of_same (h : GrainLaw mm) (hgeometry : mm'.geometry = mm.geometry) (hsets : mm'.freeSets = mm.freeSets)
    (hchunks : mm'.chunks = mm.chunks) (hloans : mm'.loans = mm.loans) : GrainLaw mm' :=
  h.of_eq hgeometry hsets (holderCount_of_eq hchunks hloans)

theorem holderCount_of_erase {k : Nat} {e : Entry} (he : tableFind mm.chunks k = some e)
    (hchunks : mm'.chunks = tableErase mm.chunks k) (hloans : mm'.loans = mm.loans) (bay grain : Nat) :
    holderCount mm bay grain = holderCount mm' bay grain + if e.place = .here bay grain then 1 else 0 := by
  have hcount := countP_tableErase he fun p => p.2.place == .here bay grain
  unfold holderCount localCount loanCount
  rw [hchunks, hloans, hcount]
  simp only [beq_iff_eq]
  omega

theorem holderCount_of_put {k : Nat} {e : Entry} (hnone : tableFind mm.chunks k = none)
    (hchunks : mm'.chunks = tablePut mm.chunks k e) (hloans : mm'.loans = mm.loans) (bay grain : Nat) :
    holderCount mm' bay grain = holderCount mm bay grain + if e.place = .here bay grain then 1 else 0 := by
  have hcount := countP_tablePut_of_none hnone e fun p => p.2.place == .here bay grain
  unfold holderCount localCount loanCount
  rw [hchunks, hloans, hcount]
  simp only [beq_iff_eq]
  omega

theorem holderCount_makeEntry (s : State) (a : Station) {v c : Nat} (tag : Nat) (base : MapMemory) (pl : Place)
    (hnone : entryOf mm v c = none) (hchunks : base.chunks = mm.chunks) (hloans : base.loans = mm.loans) (bay grain : Nat) :
    holderCount (makeEntry s a v c tag base pl) bay grain = holderCount mm bay grain + if pl = .here bay grain then 1 else 0 :=
  holderCount_of_put (mm' := makeEntry s a v c tag base pl) hnone (by rw [← hchunks]; rfl) hloans bay grain

theorem GrainLaw.of_putEntry (h : GrainLaw mm) {v c : Nat} {d e : Entry} (hc : Canonical mm) (hd : entryOf mm v c = some d)
    (hplace : e.place = d.place) : GrainLaw (putEntry mm v c e) :=
  h.of_eq rfl rfl fun bay grain => by
    unfold holderCount localCount
    rw [putEntry_chunks, countP_tablePut_of_some hc.chunks hd (by rw [hplace])]
    rfl

/-- What a gone entry's grain does to the free sets. -/
theorem GrainGone.freeSets {pl : Place} (g : GrainGone mm pl mm') :
    (∃ bay grain, pl = .here bay grain ∧ mm'.freeSets = giveGrain mm.freeSets bay grain)
      ∨ (∀ bay grain, pl ≠ .here bay grain) ∧ mm'.freeSets = mm.freeSets := by
  cases g with
  | freed bay grain => exact .inl ⟨bay, grain, rfl, rfl⟩
  | _ => exact .inr ⟨nofun, rfl⟩

theorem EntryGone.freeSets {v c : Nat} {e : Entry} (g : EntryGone mm v c e mm') :
    (∃ bay grain, e.place = .here bay grain ∧ mm'.freeSets = giveGrain mm.freeSets bay grain)
      ∨ (∀ bay grain, e.place ≠ .here bay grain) ∧ mm'.freeSets = mm.freeSets := by
  cases g with
  | pending _ g => exact g.freeSets
  | mapped r t hs _ g => exact g.freeSets

theorem EntryGone.grainLaw {v c : Nat} {e : Entry} (g : EntryGone mm v c e mm') (he : entryOf mm v c = some e)
    (h : GrainLaw mm) : GrainLaw mm' := by
  have hcount := holderCount_of_erase he g.chunks g.loans
  obtain ⟨b, gr, hplace, hsets⟩ | ⟨hplace, hsets⟩ := g.freeSets
  · refine h.of_given g.geometry hsets fun bay grain => ?_
    rw [hcount, hplace]
    simp only [Place.here.injEq, eq_comm]
  · refine h.of_eq g.geometry hsets fun bay grain => ?_
    rw [hcount, if_neg (hplace bay grain)]
    rfl

theorem AllocBase.grainLaw {s : State} {v c : Nat} {base : MapMemory} (hb : AllocBase s v c base) (h : GrainLaw s.mm) :
    GrainLaw base := by
  obtain ⟨_, rfl⟩ | ⟨e, he, g⟩ := hb.cases
  · exact h
  · exact g.grainLaw he h

/-! ## Grains the pool hands out -/

/-- One search of the pool: nothing to give, or the lowest free grain of a PRESENT bay. -/
theorem firstOffer_free {presence : List Bool} {sets : List FreeSet} {order : List Nat} {b g : Nat} (w : ∀ x ∈ sets, x.wf)
    (h : firstOffer presence sets order = some (b, g)) :
    presence.getD b false = true ∧ ∃ x, sets[b]? = some x ∧ g < x.count ∧ g ∉ x.held ∧ ∀ k, k < g → k ∈ x.held := by
  obtain ⟨_, hp, x, hx, hg⟩ := firstOffer_some h
  exact ⟨hp, x, hx, FreeSet.lowest_spec (w _ (List.mem_of_getElem? hx)) hg⟩

theorem takeGrains_one_cons {presence : List Bool} {sets : List FreeSet} {rotor b g : Nat} {rest : List (Nat × Nat)}
    (h : (takeGrains presence 1 sets rotor).grains = (b, g) :: rest) :
    firstOffer presence sets (searchOrder presence.length rotor) = some (b, g)
      ∧ (takeGrains presence 1 sets rotor).sets = sets.modify b (·.take g) := by
  unfold takeGrains at *
  split at h
  · cases h
  · rename_i b' g' hoffer
    cases h
    exact ⟨hoffer, rfl⟩

theorem seekGrain_grainLaw {s : State} {a : Station} {v c tag : Nat} (hc : Canonical mm) (hnone : entryOf mm v c = none)
    (h : GrainLaw mm) : GrainLaw (seekGrain s a v c tag mm).mm := by
  obtain he | ⟨_, _, ⟨b, g, rest, hg, he⟩ | ⟨x, mm', hx, he⟩⟩ := seekGrain_cases s a v c tag mm
  · rwa [he]
  · obtain ⟨hoffer, hsets⟩ := takeGrains_one_cons hg
    obtain ⟨_, y, hy, _, hfree, _⟩ := firstOffer_free hc.freeSets hoffer
    rw [he, hsets]
    refine h.of_taken hy hfree rfl rfl fun bay grain => ?_
    refine (holderCount_makeEntry (mm := mm) s a tag _ _ hnone ?_ ?_ bay grain).trans ?_
    · rfl
    · rfl
    · simp only [Place.here.injEq, eq_comm]
  · rw [he, takeSpare_frame hx]
    refine h.of_eq rfl rfl fun bay grain => ?_
    refine (holderCount_makeEntry (mm := mm) s a tag _ _ hnone ?_ ?_ bay grain).trans (if_neg ?_ ▸ rfl)
    · rfl
    · rfl
    · simp [Spare.place]

theorem tableFind_lowestLoan {t : Table Loan} (w : tableWf t) : tableFind t (lowestLoan t) = none := by
  refine tableFind_none.mpr fun p hp hk => ?_
  obtain ⟨_, hmissing, _⟩ := lowestMissing_spec w fun x _ => Nat.zero_le x
  have hmem := mem_tableKeys hp
  rw [hk] at hmem
  exact hmissing hmem

/-- Each grain of a grant leaves its free set for a loan record of its own (R119). -/
theorem grants_grainLaw (a : Station) (ep : Epoch) (presence : List Bool) (n rotor : Nat) (hc : Canonical mm) (h : GrainLaw mm) :
    GrainLaw
      { mm with
        freeSets := (takeGrains presence n mm.freeSets rotor).sets
        loans := (makeLoans a ep mm.loans (takeGrains presence n mm.freeSets rotor).grains).1 } := by
  induction n generalizing mm rotor with
  | zero => exact h
  | succ n ih =>
    unfold takeGrains
    split
    · exact h
    · rename_i b g hoffer
      obtain ⟨_, x, hx, hlt, hfree, _⟩ := firstOffer_free hc.freeSets hoffer
      refine ih (mm := { mm with
        freeSets := mm.freeSets.modify b (·.take g)
        loans := tablePut mm.loans (lowestLoan mm.loans) { borrower := a, epoch := ep, bay := b, grain := g } }) _
        { hc with freeSets := modify_take_wf hc.freeSets hx hlt, loans := tableWf_put _ _ hc.loans } ?_
      refine h.of_taken hx hfree rfl rfl fun bay grain => ?_
      have hput := countP_tablePut_of_none (tableFind_lowestLoan hc.loans) { borrower := a, epoch := ep, bay := b, grain := g }
        fun p => p.2.bay == bay && p.2.grain == grain
      unfold holderCount localCount loanCount
      simp only [hput, Bool.and_eq_true, beq_iff_eq, eq_comm (a := b), eq_comm (a := g)]
      omega

/-! ## Loans that come home -/

theorem judgeGiveback_grainLaw (st : Station) (ls : List Nat) (h : GrainLaw mm) : GrainLaw (judgeGiveback st mm ls).mm := by
  induction ls generalizing mm with
  | nil => exact h
  | cons n ls ih =>
    unfold judgeGiveback
    repeat' split
    · rename_i l hl _
      refine ih (h.of_given rfl rfl fun bay grain => ?_)
      have herase := countP_tableErase hl fun p => p.2.bay == bay && p.2.grain == grain
      unfold holderCount localCount loanCount
      simp only [herase, Bool.and_eq_true, beq_iff_eq, eq_comm (a := l.bay), eq_comm (a := l.grain)]
      omega
    · exact ih h
    · exact ih h

/-- The free set of a bay after the grains of several loans have come home. -/
theorem getElem?_foldl_giveGrain (ls : List (Nat × Loan)) {sets : List FreeSet} {bay : Nat} {x : FreeSet}
    (h : (ls.foldl (fun fs p => giveGrain fs p.2.bay p.2.grain) sets)[bay]? = some x) :
    ∃ y, sets[bay]? = some y ∧ ∀ grain, grain ∈ x.held ↔ grain ∈ y.held ∧ ∀ p ∈ ls, ¬ (p.2.bay = bay ∧ p.2.grain = grain) := by
  induction ls generalizing sets with
  | nil => exact ⟨x, h, by simp⟩
  | cons p ls ih =>
    obtain ⟨z, hz, hmem⟩ := ih h
    obtain ⟨y, hy, rfl⟩ := getElem?_modify_some hz
    refine ⟨y, hy, fun grain => (hmem grain).trans ?_⟩
    by_cases hb : bay = p.2.bay
    · simp only [if_pos hb]
      simp only [FreeSet.mem_give_held, List.forall_mem_cons, ← hb, true_and, and_assoc, ne_eq, eq_comm (a := grain)]
    · simp [hb, Ne.symm hb]

theorem map_count_foldl_giveGrain (ls : List (Nat × Loan)) (sets : List FreeSet) :
    (ls.foldl (fun fs p => giveGrain fs p.2.bay p.2.grain) sets).map (·.count) = sets.map (·.count) := by
  induction ls generalizing sets with
  | nil => rfl
  | cons p ls ih => exact (ih _).trans (map_count_modify _ _ fun _ => rfl)

theorem reclaimLoans_grainLaw (st : Station) (ep : Epoch) (h : GrainLaw mm) : GrainLaw (reclaimLoans mm st ep) where
  geometry geo hgeo := (map_count_foldl_giveGrain _ _).trans (h.geometry geo hgeo)
  holders bay x hx grain := by
    obtain ⟨y, hy, hmem⟩ := getElem?_foldl_giveGrain _ hx
    have hold := h.holders bay y hy grain
    have hsplit : loanCount mm bay grain
        = (mm.loans.filter fun p => isOldLoan st ep p.2).countP (fun p => p.2.bay == bay && p.2.grain == grain)
          + loanCount (reclaimLoans mm st ep) bay grain := by
      rw [loanCount, List.countP_eq_countP_filter_add mm.loans _ fun p => isOldLoan st ep p.2]
      rfl
    have hlocal : localCount (reclaimLoans mm st ep) bay grain = localCount mm bay grain := rfl
    rw [hlocal]
    simp only [hmem]
    by_cases hback : ∀ p ∈ mm.loans.filter (fun p => isOldLoan st ep p.2), ¬ (p.2.bay = bay ∧ p.2.grain = grain)
    · have hnone : (mm.loans.filter fun p => isOldLoan st ep p.2).countP (fun p => p.2.bay == bay && p.2.grain == grain) = 0 :=
        List.countP_eq_zero.mpr fun p hp => by simpa using hback p hp
      simp only [and_iff_left hback]
      omega
    · rw [if_neg fun hm => hback hm.2]
      have hsome : 0 < (mm.loans.filter fun p => isOldLoan st ep p.2).countP (fun p => p.2.bay == bay && p.2.grain == grain) := by
        push Not at hback
        obtain ⟨p, hp, hpb, hpg⟩ := hback
        exact List.countP_pos_iff.mpr ⟨p, hp, by simp [hpb, hpg]⟩
      split at hold <;> omega

/-! ## Every write -/

theorem formatContents_grainLaw (mm : MapMemory) (p : Profile) : GrainLaw (formatContents mm p) where
  geometry geo hgeo := by
    cases hgeo
    exact List.map_map.trans (List.map_id _)
  holders bay x hx grain := by
    obtain ⟨n, _, rfl⟩ := List.mem_map.mp (List.mem_of_getElem? hx)
    rfl

theorem visitEntry_grainLaw {r : TrimRange} {n : Nat} {e : Entry} (s : State) (hc : Canonical mm)
    (he : entryOf mm r.volume n = some e) (h : GrainLaw mm) : GrainLaw (visitEntry r n e mm s).mm := by
  have hmoved : ∀ {base : MapMemory}, GrainLaw base → GrainLaw (moveCursor base n) := fun hb =>
    hb.of_same (moveCursor_geometry _ _) (moveCursor_freeSets _ _) (moveCursor_chunks _ _) (moveCursor_loans _ _)
  obtain ⟨_, _, hv⟩ | ⟨mm', g, hv⟩ := visitEntry_cases s he
  · rw [hv]; exact hmoved (h.of_putEntry hc he rfl)
  · rw [hv]; exact hmoved (g.grainLaw he h)

theorem WriteOf.grainLaw {s : State} {mm : MapMemory} (w : WriteOf s mm) (hc : Canonical s.mm) (h : GrainLaw s.mm) :
    GrainLaw mm := by
  cases w with
  | allocation a v c tag base hk hb => exact seekGrain_grainLaw (hb.canonical hc) (hb.entryOf_none hc) (hb.grainLaw h)
  | commit a v c tag e x hk he hs => exact (h.of_putEntry (e := { e with state := .mapped a tag }) hc he rfl).of_same rfl rfl rfl rfl
  | rollback r hr =>
    cases he : entryOf s.mm r.volume r.chunk with
    | none => rw [rollbackChunk_none _ _ he]; exact h.of_same rfl rfl rfl rfl
    | some e => exact (rollbackChunk_gone _ _ he).grainLaw he h
  | visit r rest c e ht hn => exact visitEntry_grainLaw s hc (nextEntry_some hc hn).1 h
  | grants a e n hn => exact grants_grainLaw a e s.presence n s.rotor hc h
  | accept a e rs => rw [acceptGrant_frame]; exact h.of_same rfl rfl rfl rfl
  | giveback a ls => exact judgeGiveback_grainLaw a ls h
  | returnStep r hr => rw [returnStepOf_frame hr]; exact h.of_same rfl rfl rfl rfl
  | reclaim a e => exact reclaimLoans_grainLaw a e h
  | formatContents => exact formatContents_grainLaw _ _
  | trim | create | grow | delete | rangeEnd | freeVolume | dropSpares | formatHeader | restartCount | sweep =>
    exact h.of_same rfl rfl rfl rfl

/-- Settles O8: a grain leaves its free set for one new holder, and returns to it when that holder goes. -/
theorem grainsKept : Obligations.GrainsKept :=
  step_memory (writesKeep_of fun _ _ ⟨hc, hf, h⟩ w => ⟨w.canonical hc, w.fits hc hf, w.grainLaw hc h⟩)

end grains

end Sys2Proof.Machine

/-! The volumes' counts and entries over every write (R18, R20, R26, R27, R29). -/

namespace Sys2Proof.Machine

section volumes
variable {mm mm' : MapMemory}

/-! ## Volume records after a write -/

theorem volumeOf_of_volumes (h : mm'.volumes = mm.volumes) (v : Nat) : volumeOf mm' v = volumeOf mm v := by
  rw [volumeOf, volumeOf, h]

theorem volumeOf_setVolume_same (hc : Canonical mm) (v : Nat) (r : Volume) : volumeOf (setVolume mm v r) v = r :=
  tableGet_set_same hc.volumes.1 _ _

theorem volumeOf_setVolume_other {v w : Nat} (r : Volume) (h : w ≠ v) : volumeOf (setVolume mm v r) w = volumeOf mm w :=
  tableGet_set_other _ _ h

theorem tableFind_filter {α : Type} {t : Table α} (w : tableWf t) (test : Nat × α → Bool) (k : Nat) :
    tableFind (t.filter test) k = (tableFind t k).filter fun x => test (k, x) := by
  cases hf : tableFind t k with
  | none => exact tableFind_none.mpr fun p hp => tableFind_none.mp hf p (List.mem_filter.mp hp).1
  | some x =>
    cases ht : test (k, x) with
    | true =>
      rw [Option.filter_some, if_pos ht]
      exact tableFind_of_mem (tableWf_filter test w) (List.mem_filter.mpr ⟨tableFind_mem hf, ht⟩)
    | false =>
      simp only [Option.filter, ht, Bool.false_eq_true, if_false]
      refine tableFind_none.mpr fun p hp hk => ?_
      obtain ⟨hmem, htest⟩ := List.mem_filter.mp hp
      have hsame := tableFind_of_mem w hmem
      rw [hk, hf] at hsame
      obtain ⟨j, y⟩ := p
      cases hsame
      cases hk
      rw [ht] at htest
      cases htest

/-- How many entries a volume has. -/
def entryCount (mm : MapMemory) (v : Nat) : Nat := mm.chunks.countP fun p => p.1 / Config.maxVolume == v

/-- The state and the size of a volume, which the entries' places are judged by. -/
def sameVolumes (mm mm' : MapMemory) : Prop :=
  ∀ v, (volumeOf mm' v).state = (volumeOf mm v).state ∧ (volumeOf mm' v).size = (volumeOf mm v).size

theorem sameVolumes_of_eq (h : mm'.volumes = mm.volumes) : sameVolumes mm mm' := fun v => by
  rw [volumeOf_of_volumes h]
  exact ⟨rfl, rfl⟩

theorem sameVolumes_setCount (hc : Canonical mm) (v n : Nat) :
    sameVolumes mm (setVolume mm v { volumeOf mm v with count := n }) := fun w => by
  by_cases hw : w = v
  · subst hw
    rw [volumeOf_setVolume_same hc]
    exact ⟨rfl, rfl⟩
  · rw [volumeOf_setVolume_other _ hw]
    exact ⟨rfl, rfl⟩

/-- The law is kept where states and sizes stay, each entry left lies as an entry lay before, and every range is as before up to what its
cursor has passed. -/
theorem VolumeLaw.of_same (h : VolumeLaw mm) (hsame : sameVolumes mm mm')
    (hcounts : ∀ v, (volumeOf mm' v).count = entryCount mm' v)
    (hplaced : ∀ p ∈ mm'.chunks, (volumeOf mm (p.1 / Config.maxVolume)).state ≠ .free
      ∧ p.1 % Config.maxVolume < (volumeOf mm (p.1 / Config.maxVolume)).size)
    (hretiring : ∀ p ∈ mm'.chunks, (volumeOf mm (p.1 / Config.maxVolume)).state = .retiring →
      ∃ r ∈ mm'.trims, r.volume = p.1 / Config.maxVolume ∧ r.origin = .delete
        ∧ r.cursor ≤ p.1 % Config.maxVolume ∧ p.1 % Config.maxVolume ≤ r.last)
    (hranges : (mm'.trims.map fun r => (r.volume, r.origin)) = mm.trims.map fun r => (r.volume, r.origin)) : VolumeLaw mm' where
  counts := hcounts
  placed p hp := by
    obtain ⟨hstate, hsize⟩ := hsame (p.1 / Config.maxVolume)
    rw [hstate, hsize]
    exact hplaced p hp
  retiring p hp hret := hretiring p hp ((hsame _).1.symm.trans hret)
  deletes r hr hdel := by
    have hmem : (r.volume, r.origin) ∈ mm.trims.map fun r => (r.volume, r.origin) := hranges ▸ List.mem_map_of_mem hr
    obtain ⟨x, hx, hxr⟩ := List.mem_map.mp hmem
    obtain ⟨hvol, horigin⟩ := Prod.mk.inj hxr
    rw [(hsame _).1, ← hvol]
    exact h.deletes x hx (horigin.trans hdel)
  once := by
    have hfilter : ∀ ts : List TrimRange, (ts.filter fun r => r.origin = .delete).map (·.volume)
        = ((ts.map fun r => (r.volume, r.origin)).filter fun p => p.2 = .delete).map (·.1) := by
      intro ts
      rw [List.filter_map, List.map_map]
      rfl
    rw [hfilter, hranges, ← hfilter]
    exact h.once

theorem VolumeLaw.of_unchanged (h : VolumeLaw mm) (hvolumes : mm'.volumes = mm.volumes) (hchunks : mm'.chunks = mm.chunks)
    (htrims : mm'.trims = mm.trims) : VolumeLaw mm' := by
  refine h.of_same (sameVolumes_of_eq hvolumes) (fun v => ?_) ?_ ?_ (by rw [htrims])
  · rw [volumeOf_of_volumes hvolumes, entryCount, hchunks]
    exact h.counts v
  · rw [hchunks]; exact h.placed
  · rw [hchunks, htrims]; exact h.retiring

/-! ## Entries that change, come and go -/

/-- An entry changed without being added: the law sees only its key. -/
theorem VolumeLaw.of_put (h : VolumeLaw mm) {k : Nat} {d e : Entry} (hc : Canonical mm) (hd : tableFind mm.chunks k = some d)
    (hvolumes : mm'.volumes = mm.volumes) (hchunks : mm'.chunks = tablePut mm.chunks k e) (htrims : mm'.trims = mm.trims) :
    VolumeLaw mm' := by
  have hkeys : ∀ p ∈ mm'.chunks, ∃ q ∈ mm.chunks, q.1 = p.1 := by
    rw [hchunks]
    intro p hp
    obtain rfl | hp := mem_tablePut hp
    · exact ⟨_, tableFind_mem hd, rfl⟩
    · exact ⟨p, hp, rfl⟩
  refine h.of_same (sameVolumes_of_eq hvolumes) (fun v => ?_) (fun p hp => ?_) (fun p hp => ?_) (by rw [htrims])
  · have hput := countP_tablePut_of_some (y := e) hc.chunks hd (test := fun p => p.1 / Config.maxVolume == v) rfl
    rw [volumeOf_of_volumes hvolumes, entryCount, hchunks, hput]
    exact h.counts v
  · obtain ⟨q, hq, hqp⟩ := hkeys p hp
    rw [← hqp]
    exact h.placed q hq
  · obtain ⟨q, hq, hqp⟩ := hkeys p hp
    rw [← hqp, htrims]
    exact h.retiring q hq

/-- An entry of a chunk has gone and its volume's count with it. -/
theorem VolumeLaw.of_removed (h : VolumeLaw mm) (hc : Canonical mm) {v c : Nat} {e : Entry} (hlt : c < Config.maxVolume)
    (he : entryOf mm v c = some e) (hvolumes : mm'.volumes = (removeEntry mm v c).volumes)
    (hchunks : mm'.chunks = tableErase mm.chunks (chunkKey v c))
    (hretiring : ∀ p ∈ mm'.chunks, (volumeOf mm (p.1 / Config.maxVolume)).state = .retiring →
      ∃ r ∈ mm'.trims, r.volume = p.1 / Config.maxVolume ∧ r.origin = .delete
        ∧ r.cursor ≤ p.1 % Config.maxVolume ∧ p.1 % Config.maxVolume ≤ r.last)
    (hranges : (mm'.trims.map fun r => (r.volume, r.origin)) = mm.trims.map fun r => (r.volume, r.origin)) : VolumeLaw mm' := by
  have hset : mm'.volumes = (setVolume mm v { volumeOf mm v with count := (volumeOf mm v).count - 1 }).volumes := hvolumes
  have hsub : ∀ p ∈ mm'.chunks, p ∈ mm.chunks := fun p hp => (tableErase_sub _ _).subset (hchunks ▸ hp)
  refine h.of_same (fun w => ?_) (fun w => ?_) (fun p hp => h.placed p (hsub p hp)) hretiring hranges
  · rw [volumeOf_of_volumes hset]
    exact sameVolumes_setCount hc v _ w
  · have herase := countP_tableErase he fun p => p.1 / Config.maxVolume == w
    have hcount := h.counts w
    simp only [chunkKey_div hlt, beq_iff_eq] at herase
    rw [volumeOf_of_volumes hset, entryCount, hchunks]
    by_cases hw : w = v
    · subst hw
      rw [volumeOf_setVolume_same hc]
      simp only [if_true] at herase ⊢
      omega
    · rw [volumeOf_setVolume_other _ hw]
      rw [if_neg (Ne.symm hw)] at herase
      omega

theorem EntryGone.volumeLaw {v c : Nat} {e : Entry} (g : EntryGone mm v c e mm') (hc : Canonical mm) (hlt : c < Config.maxVolume)
    (he : entryOf mm v c = some e) (h : VolumeLaw mm) : VolumeLaw mm' := by
  refine h.of_removed hc hlt he g.volumes g.chunks (fun p hp => ?_) (by rw [g.trims])
  rw [g.trims]
  exact h.retiring p ((tableErase_sub _ _).subset (g.chunks ▸ hp))

theorem EntryGone.sameVolumes {v c : Nat} {e : Entry} (g : EntryGone mm v c e mm') (hc : Canonical mm) : sameVolumes mm mm' :=
  fun w => by
    rw [volumeOf_of_volumes g.volumes]
    exact sameVolumes_setCount hc v _ w

theorem makeEntry_volumeLaw {s : State} {a : Station} {v c tag : Nat} (pl : Place) (hc : Canonical mm)
    (hactive : (volumeOf mm v).state = .active) (hsize : c < (volumeOf mm v).size) (hlt : c < Config.maxVolume)
    (hnone : entryOf mm v c = none) (h : VolumeLaw mm) : VolumeLaw (makeEntry s a v c tag mm pl) := by
  have hset : (makeEntry s a v c tag mm pl).volumes
      = (setVolume mm v { volumeOf mm v with count := (volumeOf mm v).count + 1 }).volumes := rfl
  have hmem : ∀ p ∈ (makeEntry s a v c tag mm pl).chunks, p.1 = chunkKey v c ∨ p ∈ mm.chunks := by
    intro p hp
    obtain rfl | hp := mem_tablePut hp
    · exact .inl rfl
    · exact .inr hp
  refine h.of_same (fun w => ?_) (fun w => ?_) (fun p hp => ?_) (fun p hp hret => ?_) rfl
  · rw [volumeOf_of_volumes hset]
    exact sameVolumes_setCount hc v _ w
  · have hput := countP_tablePut_of_none hnone
      { state := .pending a tag (msFromNow s s.profile.holdTime), place := pl, shield := coveringCount mm v c }
      fun p => p.1 / Config.maxVolume == w
    have hcount := h.counts w
    simp only [chunkKey_div hlt, beq_iff_eq] at hput
    rw [volumeOf_of_volumes hset]
    refine Eq.trans ?_ hput.symm
    by_cases hw : w = v
    · subst hw
      rw [volumeOf_setVolume_same hc, if_pos rfl, ← hcount]
    · rw [volumeOf_setVolume_other _ hw, if_neg (Ne.symm hw), hcount]
      rfl
  · obtain hk | hp := hmem p hp
    · rw [hk, chunkKey_div hlt, chunkKey_mod hlt, hactive]
      exact ⟨nofun, hsize⟩
    · exact h.placed p hp
  · obtain hk | hp := hmem p hp
    · rw [hk, chunkKey_div hlt, hactive] at hret
      cases hret
    · exact h.retiring p hp hret

/-- An allocation's base has the volume as the checks of R36 found it. -/
theorem AllocBase.volumeLaw {s : State} {v c : Nat} {base : MapMemory} (hb : AllocBase s v c base) (hs : Shaped s.mm)
    (hk : checkChunk s v c = none) (h : VolumeLaw s.mm) :
    VolumeLaw base ∧ (volumeOf base v).state = .active ∧ c < (volumeOf base v).size := by
  obtain ⟨_, hactive, hsize⟩ := checkChunk_none hk
  obtain ⟨_, rfl⟩ | ⟨e, he, g⟩ := hb.cases
  · exact ⟨h, hactive, hsize⟩
  · obtain ⟨hstate, hsz⟩ := g.sameVolumes hs.1 v
    rw [hstate, hsz]
    exact ⟨g.volumeLaw hs.1 (checkChunk_lt_maxVolume hs.2 hk) he h, hactive, hsize⟩

theorem seekGrain_volumeLaw {s : State} {a : Station} {v c tag : Nat} (hc : Canonical mm)
    (hactive : (volumeOf mm v).state = .active) (hsize : c < (volumeOf mm v).size) (hlt : c < Config.maxVolume)
    (hnone : entryOf mm v c = none) (h : VolumeLaw mm) : VolumeLaw (seekGrain s a v c tag mm).mm := by
  obtain he | ⟨_, _, ⟨b, g, rest, _, he⟩ | ⟨x, mm', hx, he⟩⟩ := seekGrain_cases s a v c tag mm
  · rwa [he]
  · rw [he]
    exact makeEntry_volumeLaw _ (withFree_canonical hc (takeGrains_wf 1 _ _ hc.freeSets).1) hactive hsize hlt hnone
      (h.of_unchanged rfl rfl rfl)
  · have hframe := takeSpare_frame hx
    have hv : mm'.volumes = mm.volumes := by rw [hframe]
    have hch : mm'.chunks = mm.chunks := by rw [hframe]
    have ht : mm'.trims = mm.trims := by rw [hframe]
    rw [he]
    refine makeEntry_volumeLaw _ (takeSpare_canonical hc hx) ?_ ?_ hlt ?_ (h.of_unchanged hv hch ht)
    · rwa [volumeOf_of_volumes hv]
    · rwa [volumeOf_of_volumes hv]
    · rwa [entryOf, hch]

/-! ## Visits and the end of a range (R65, R27) -/

theorem map_cursorMoved (n : Nat) (ts : List TrimRange) :
    ((cursorMoved n ts).map fun r => (r.volume, r.origin)) = ts.map fun r => (r.volume, r.origin) := by
  cases ts <;> rfl

/-- An entry the head range's cursor has not passed is still within it, and one of another range within that. -/
theorem VolumeLaw.retiring_cursorMoved (h : VolumeLaw mm) {r : TrimRange} {rest : List TrimRange} (ht : mm.trims = r :: rest)
    {n : Nat} {p : Nat × Entry} (hp : p ∈ mm.chunks) (hret : (volumeOf mm (p.1 / Config.maxVolume)).state = .retiring)
    (hpassed : r.origin = .delete → r.volume = p.1 / Config.maxVolume → r.cursor ≤ p.1 % Config.maxVolume →
      n < p.1 % Config.maxVolume) :
    ∃ x ∈ cursorMoved n mm.trims, x.volume = p.1 / Config.maxVolume ∧ x.origin = .delete
      ∧ x.cursor ≤ p.1 % Config.maxVolume ∧ p.1 % Config.maxVolume ≤ x.last := by
  obtain ⟨x, hx, hvol, hdel, hfrom, hto⟩ := h.retiring p hp hret
  rw [ht] at hx ⊢
  obtain rfl | hx := List.mem_cons.mp hx
  · exact ⟨_, List.mem_cons_self, hvol, hdel, hpassed hdel hvol hfrom, hto⟩
  · exact ⟨x, List.mem_cons_of_mem _ hx, hvol, hdel, hfrom, hto⟩

theorem visitEntry_volumeLaw {r : TrimRange} {rest : List TrimRange} {n : Nat} {e : Entry} (s : State) (hs : Shaped mm)
    (ht : mm.trims = r :: rest) (hnext : nextEntry mm r = some (n, e)) (h : VolumeLaw mm) :
    VolumeLaw (visitEntry r n e mm s).mm := by
  obtain ⟨he, _, hto⟩ := nextEntry_some hs.1 hnext
  have hlt : n < Config.maxVolume := hto.trans_lt (hs.2.ranges r (ht ▸ List.mem_cons_self))
  obtain ⟨horigin, _, hv⟩ | ⟨mm', g, hv⟩ := visitEntry_cases s he
  · have hput : VolumeLaw (putEntry mm r.volume n { e with shield := e.shield - 1 }) := h.of_put hs.1 he rfl rfl rfl
    rw [hv]
    refine hput.of_same (sameVolumes_of_eq (moveCursor_volumes _ _)) (fun v => ?_) ?_ (fun p hp hret => ?_) ?_
    · rw [volumeOf_of_volumes (moveCursor_volumes _ _), entryCount, moveCursor_chunks]
      exact hput.counts v
    · rw [moveCursor_chunks]; exact hput.placed
    · rw [moveCursor_chunks] at hp
      rw [moveCursor_trims]
      exact hput.retiring_cursorMoved ht hp hret fun hdel => by rw [horigin] at hdel; cases hdel
    · rw [moveCursor_trims, map_cursorMoved]
  · rw [hv]
    refine h.of_removed hs.1 hlt he ((moveCursor_volumes _ _).trans g.volumes) ((moveCursor_chunks _ _).trans g.chunks)
      (fun p hp hret => ?_) ?_
    · rw [moveCursor_chunks, g.chunks] at hp
      rw [moveCursor_trims, g.trims]
      have hmem := (tableErase_sub _ _).subset hp
      refine h.retiring_cursorMoved ht hmem hret fun _ hvol hfrom => ?_
      have hfind : entryOf mm r.volume (p.1 % Config.maxVolume) = some p.2 := by
        rw [entryOf, hvol, chunkKey_div_mod]
        exact tableFind_of_mem hs.1.chunks hmem
      have hne : p.1 % Config.maxVolume ≠ n := by
        rintro hn
        have hk : p.1 = chunkKey r.volume n := by rw [← hn, hvol, chunkKey_div_mod]
        exact tableFind_none.mp (tableFind_erase_same hs.1.chunks _) p hp hk
      by_contra hle
      rw [nextEntry_first hs.1 hnext hfrom (by omega)] at hfind
      cases hfind
    · rw [moveCursor_trims, g.trims, map_cursorMoved]

/-- A DELETE range with no entry left has no entry left of its whole volume. -/
theorem VolumeLaw.no_entry_of_delete (h : VolumeLaw mm) (hc : Canonical mm) {r : TrimRange} {rest : List TrimRange}
    (ht : mm.trims = r :: rest) (hnone : nextEntry mm r = none) (hdel : r.origin = .delete) :
    ∀ p ∈ mm.chunks, p.1 / Config.maxVolume ≠ r.volume := by
  intro p hp hvol
  have hret : (volumeOf mm (p.1 / Config.maxVolume)).state = .retiring := by
    rw [hvol]; exact h.deletes r (ht ▸ List.mem_cons_self) hdel
  obtain ⟨x, hx, hxv, hxd, hfrom, hto⟩ := h.retiring p hp hret
  have honce := h.once
  rw [ht, List.filter_cons_of_pos (by simpa using hdel), List.map_cons, List.nodup_cons] at honce
  rw [ht] at hx
  obtain rfl | hx := List.mem_cons.mp hx
  · have hfind := nextEntry_none hnone hfrom hto
    rw [hxv, entryOf, chunkKey_div_mod, tableFind_of_mem hc.chunks hp] at hfind
    cases hfind
  · exact honce.1 (List.mem_map.mpr ⟨x, List.mem_filter.mpr ⟨hx, by simpa using hxd⟩, hxv.trans hvol⟩)

theorem rangeEnd_volumeLaw {r : TrimRange} {rest : List TrimRange} (hc : Canonical mm) (ht : mm.trims = r :: rest)
    (hnone : nextEntry mm r = none) (h : VolumeLaw mm) : VolumeLaw { mm with trims := rest } where
  counts := h.counts
  placed := h.placed
  retiring p hp hret := by
    obtain ⟨x, hx, hxv, hxd, hfrom, hto⟩ := h.retiring p hp hret
    rw [ht] at hx
    obtain rfl | hx := List.mem_cons.mp hx
    · exact absurd hxv.symm (h.no_entry_of_delete hc ht hnone hxd p hp)
    · exact ⟨x, hx, hxv, hxd, hfrom, hto⟩
  deletes x hx := h.deletes x (ht ▸ List.mem_cons_of_mem _ hx)
  once := by
    have honce := h.once
    rw [ht] at honce
    exact honce.sublist (((List.sublist_cons_self r rest).filter _).map _)

/-- The end of a DELETE range leaves its volume emptied: it is the one range of the volume (R26, R27). -/
theorem rangeEnd_emptied {r : TrimRange} {rest : List TrimRange} (hc : Canonical mm) (ht : mm.trims = r :: rest)
    (hnone : nextEntry mm r = none) (hdel : r.origin = .delete) (h : VolumeLaw mm) :
    Emptied { mm with trims := rest } r.volume where
  state := h.deletes r (ht ▸ List.mem_cons_self) hdel
  entries := h.no_entry_of_delete hc ht hnone hdel
  ranges x hx hxd hxv := by
    have honce := h.once
    rw [ht, List.filter_cons_of_pos (by simpa using hdel), List.map_cons, List.nodup_cons] at honce
    exact honce.1 (List.mem_map.mpr ⟨x, List.mem_filter.mpr ⟨hx, by simpa using hxd⟩, hxv⟩)

/-! ## Volumes made, grown, retired and freed -/

theorem entryCount_eq_zero {v : Nat} (h : ∀ p ∈ mm.chunks, p.1 / Config.maxVolume ≠ v) : entryCount mm v = 0 :=
  List.countP_eq_zero.mpr fun p hp => by simpa using h p hp

/-- One volume's record is set: the law asks of it what it says of that volume. -/
theorem VolumeLaw.of_setVolume (h : VolumeLaw mm) (hc : Canonical mm) {v : Nat} {r : Volume} (hcount : r.count = entryCount mm v)
    (hplaced : ∀ p ∈ mm.chunks, p.1 / Config.maxVolume = v → r.state ≠ .free ∧ p.1 % Config.maxVolume < r.size)
    (hretiring : r.state = .retiring → ∀ p ∈ mm.chunks, p.1 / Config.maxVolume = v →
      ∃ x ∈ mm.trims, x.volume = v ∧ x.origin = .delete ∧ x.cursor ≤ p.1 % Config.maxVolume ∧ p.1 % Config.maxVolume ≤ x.last)
    (hdeletes : ∀ x ∈ mm.trims, x.origin = .delete → x.volume = v → r.state = .retiring) : VolumeLaw (setVolume mm v r) where
  counts w := by
    by_cases hw : w = v
    · subst hw
      rw [volumeOf_setVolume_same hc]
      exact hcount
    · rw [volumeOf_setVolume_other r hw]
      exact h.counts w
  placed p hp := by
    by_cases hw : p.1 / Config.maxVolume = v
    · rw [hw, volumeOf_setVolume_same hc]
      exact hplaced p hp hw
    · rw [volumeOf_setVolume_other r hw]
      exact h.placed p hp
  retiring p hp hret := by
    by_cases hw : p.1 / Config.maxVolume = v
    · rw [hw, volumeOf_setVolume_same hc] at hret
      rw [hw]
      exact hretiring hret p hp hw
    · rw [volumeOf_setVolume_other r hw] at hret
      exact h.retiring p hp hret
  deletes x hx hdel := by
    by_cases hw : x.volume = v
    · rw [hw, volumeOf_setVolume_same hc]
      exact hdeletes x hx hdel hw
    · rw [volumeOf_setVolume_other r hw]
      exact h.deletes x hx hdel
  once := h.once

/-- A range of a TRIM adds nothing the law asks for. -/
theorem VolumeLaw.of_trimRange (h : VolumeLaw mm) {r : TrimRange} (horigin : r.origin = .trim) :
    VolumeLaw { mm with trims := mm.trims ++ [r] } where
  counts := h.counts
  placed := h.placed
  retiring p hp hret := by
    obtain ⟨x, hx, hrange⟩ := h.retiring p hp hret
    exact ⟨x, List.mem_append_left _ hx, hrange⟩
  deletes x hx hdel := by
    obtain hx | hx := List.mem_append.mp hx
    · exact h.deletes x hx hdel
    · obtain rfl := List.mem_singleton.mp hx
      rw [horigin] at hdel
      cases hdel
  once := by
    rw [List.filter_append]
    simpa [horigin] using h.once

theorem create_volumeLaw {v size : Nat} (hc : Canonical mm) (hfree : (volumeOf mm v).state = .free) (h : VolumeLaw mm) :
    VolumeLaw (setVolume mm v { state := .active, size := size, count := 0 }) := by
  have hnone : ∀ p ∈ mm.chunks, p.1 / Config.maxVolume ≠ v := fun p hp hw => (h.placed p hp).1 (hw ▸ hfree)
  refine h.of_setVolume hc (entryCount_eq_zero hnone).symm (fun p hp hw => absurd hw (hnone p hp)) nofun fun x hx hdel hw => ?_
  have hret := h.deletes x hx hdel
  rw [hw, hfree] at hret
  cases hret

theorem VolumeLaw.no_delete_of_active (h : VolumeLaw mm) {v : Nat} (hactive : (volumeOf mm v).state = .active) :
    ∀ x ∈ mm.trims, x.origin = .delete → x.volume ≠ v := by
  intro x hx hdel hw
  have hret := h.deletes x hx hdel
  rw [hw, hactive] at hret
  cases hret

theorem grow_volumeLaw {v size : Nat} (hc : Canonical mm) (hactive : (volumeOf mm v).state = .active)
    (hsize : (volumeOf mm v).size < size) (h : VolumeLaw mm) :
    VolumeLaw (setVolume mm v { volumeOf mm v with size := size }) := by
  refine h.of_setVolume hc (h.counts v) (fun p hp hw => ?_) (fun hret => ?_) fun x hx hdel hw =>
    absurd hw (h.no_delete_of_active hactive x hx hdel)
  · obtain ⟨hstate, hlt⟩ := h.placed p hp
    rw [hw] at hstate hlt
    exact ⟨hstate, hlt.trans hsize⟩
  · rw [show (volumeOf mm v).state = .retiring from hret] at hactive
    cases hactive

theorem delete_volumeLaw {a : Station} {v tag : Nat} (hc : Canonical mm) (hactive : (volumeOf mm v).state = .active)
    (h : VolumeLaw mm) :
    VolumeLaw
      (setVolume
        { mm with
          trims := mm.trims ++
            [{ volume := v, first := 0, last := (volumeOf mm v).size - 1, cursor := 0, origin := .delete, requester := a,
               tag := tag }] }
        v { volumeOf mm v with state := .retiring }) := by
  have hbelow : ∀ p ∈ mm.chunks, p.1 / Config.maxVolume = v → p.1 % Config.maxVolume < (volumeOf mm v).size :=
    fun p hp hw => hw ▸ (h.placed p hp).2
  have hsame : ∀ ts r, volumeOf (setVolume { mm with trims := ts } v r) v = r := fun ts r =>
    volumeOf_setVolume_same (mm := { mm with trims := ts }) { hc with } v r
  have hother : ∀ ts w r, w ≠ v → volumeOf (setVolume { mm with trims := ts } v r) w = volumeOf mm w := fun ts w r hw =>
    volumeOf_setVolume_other (mm := { mm with trims := ts }) r hw
  constructor
  case counts =>
    intro w
    by_cases hw : w = v
    · subst hw
      rw [hsame]
      exact h.counts w
    · rw [hother _ _ _ hw]
      exact h.counts w
  case placed =>
    intro p hp
    by_cases hw : p.1 / Config.maxVolume = v
    · rw [hw, hsame]
      exact ⟨nofun, hbelow p hp hw⟩
    · rw [hother _ _ _ hw]
      exact h.placed p hp
  case retiring =>
    intro p hp hret
    by_cases hw : p.1 / Config.maxVolume = v
    · have hlt := hbelow p hp hw
      exact ⟨_, List.mem_append_right _ (List.mem_singleton_self _), hw.symm, rfl, Nat.zero_le _, Nat.le_sub_one_of_lt hlt⟩
    · rw [hother _ _ _ hw] at hret
      obtain ⟨x, hx, hrange⟩ := h.retiring p hp hret
      exact ⟨x, List.mem_append_left _ hx, hrange⟩
  case deletes =>
    intro x hx hdel
    by_cases hw : x.volume = v
    · rw [hw, hsame]
    · rw [hother _ _ _ hw]
      obtain hx | hx := List.mem_append.mp hx
      · exact h.deletes x hx hdel
      · exact absurd (congrArg TrimRange.volume (List.mem_singleton.mp hx)) hw
  case once =>
    show ((List.filter (fun r => decide (r.origin = .delete)) (mm.trims ++ [_])).map (·.volume)).Nodup
    rw [List.filter_append, List.map_append]
    refine List.nodup_append.mpr ⟨h.once, by simp, ?_⟩
    rintro w hw u hu rfl
    obtain ⟨x, hx, rfl⟩ := List.mem_map.mp hw
    obtain ⟨hx, hxd⟩ := List.mem_filter.mp hx
    exact h.no_delete_of_active hactive x hx (by simpa using hxd) (by simpa using hu)

/-- An emptied volume made FREE (R27). -/
theorem freeVolume_volumeLaw {v : Nat} (hc : Canonical mm) (hempty : Emptied mm v) (h : VolumeLaw mm) :
    VolumeLaw (setVolume mm v Volume.none) :=
  h.of_setVolume hc (entryCount_eq_zero hempty.entries).symm (fun p hp hw => absurd hw (hempty.entries p hp)) nofun
    fun x hx hdel hw => absurd hw (hempty.ranges x hx hdel)

/-- A start's sweep frees the RETIRING volumes without a DELETE range, which have no entry (R29). -/
theorem sweepVolumes_volumeLaw (hc : Canonical mm) (h : VolumeLaw mm) : VolumeLaw (sweepVolumes mm) := by
  have hswept : ∀ v, volumeOf (sweepVolumes mm) v = volumeOf mm v
      ∨ (volumeOf mm v).state = .retiring ∧ (∀ r ∈ mm.trims, r.volume = v → r.origin ≠ .delete)
        ∧ volumeOf (sweepVolumes mm) v = Volume.none := by
    intro v
    unfold volumeOf tableGet sweepVolumes
    dsimp only
    rw [tableFind_filter hc.volumes.1]
    cases hf : tableFind mm.volumes v with
    | none => exact .inl rfl
    | some r =>
      by_cases hgone : r.state = .retiring ∧ ∀ x ∈ mm.trims, x.volume = v → x.origin ≠ .delete
      · refine .inr ⟨hgone.1, hgone.2, ?_⟩
        rw [Option.filter_some, if_neg (by simpa using hgone)]
        rfl
      · refine .inl ?_
        rw [Option.filter_some, if_pos (by simpa [or_iff_not_imp_left] using hgone)]
  have hkept : ∀ p ∈ mm.chunks, volumeOf (sweepVolumes mm) (p.1 / Config.maxVolume) = volumeOf mm (p.1 / Config.maxVolume) := by
    intro p hp
    obtain hsame | ⟨hret, hnone, _⟩ := hswept (p.1 / Config.maxVolume)
    · exact hsame
    · obtain ⟨r, hr, hv, hd, _⟩ := h.retiring p hp hret
      exact absurd hd (hnone r hr hv)
  constructor
  case counts =>
    intro v
    obtain hsame | ⟨hret, hnone, hvol⟩ := hswept v
    · rw [hsame]; exact h.counts v
    · rw [hvol]
      refine (entryCount_eq_zero fun p hp hw => ?_).symm
      obtain ⟨r, hr, hv, hd, _⟩ := h.retiring p hp (hw ▸ hret)
      exact hnone r hr (hv.trans hw) hd
  case placed => intro p hp; rw [hkept p hp]; exact h.placed p hp
  case retiring => intro p hp hret; rw [hkept p hp] at hret; exact h.retiring p hp hret
  case deletes =>
    intro r hr hdel
    obtain hsame | ⟨_, hnone, _⟩ := hswept r.volume
    · rw [hsame]; exact h.deletes r hr hdel
    · exact absurd hdel (hnone r hr rfl)
  case once => exact h.once

theorem formatContents_volumeLaw (mm : MapMemory) (p : Profile) : VolumeLaw (formatContents mm p) where
  counts _ := rfl
  placed := nofun
  retiring := nofun
  deletes := nofun
  once := List.nodup_nil

/-! ## The write of each event -/

/-- What a write that touches neither the volumes nor the map leaves: the chunk map, its lists, the volume table and the station's epoch. -/
structure VolumesUnchanged (mm mm' : MapMemory) : Prop where
  volumes : mm'.volumes = mm.volumes
  chunks : mm'.chunks = mm.chunks
  trims : mm'.trims = mm.trims
  epoch : mm'.header.map Header.epoch = mm.header.map Header.epoch
  geometry : mm'.geometry = mm.geometry

/-- The images events make, the events of a format and the one that makes a volume FREE left out. -/
inductive PlainWriteOf (s : State) : MapMemory → Prop
  | allocation (a : Station) (v c tag : Nat) (base : MapMemory) (hc : checkChunk s v c = none) (hb : AllocBase s v c base) :
      PlainWriteOf s (seekGrain s a v c tag base).mm
  | commit (a : Station) (v c tag : Nat) (e : Entry) (he : entryOf s.mm v c = some e) :
      PlainWriteOf s (removePending (putEntry s.mm v c { e with state := .mapped a tag }) v c)
  | trim (a : Station) (v first count tag : Nat) :
      PlainWriteOf s { s.mm with trims := s.mm.trims ++ [trimRangeOf s.mm a v first count tag] }
  | create (v size : Nat) (hf : (volumeOf s.mm v).state = .free) :
      PlainWriteOf s (setVolume s.mm v { state := .active, size := clampSize size, count := 0 })
  | grow (v size : Nat) (ha : (volumeOf s.mm v).state = .active) (hs : (volumeOf s.mm v).size < clampSize size) :
      PlainWriteOf s (setVolume s.mm v { volumeOf s.mm v with size := clampSize size })
  | delete (a : Station) (v tag : Nat) (ha : (volumeOf s.mm v).state = .active) :
      PlainWriteOf s
        (setVolume
          { s.mm with
            trims := s.mm.trims ++
              [{ volume := v, first := 0, last := (volumeOf s.mm v).size - 1, cursor := 0, origin := .delete, requester := a,
                 tag := tag }] }
          v { volumeOf s.mm v with state := .retiring })
  | rollback (r : PendingRecord) (hr : r ∈ s.mm.pendings) : PlainWriteOf s (rollbackChunk s.roster s.presence s.mm r.volume r.chunk).mm
  | visit (r : TrimRange) (rest : List TrimRange) (c : Nat) (e : Entry) (ht : s.mm.trims = r :: rest)
      (hn : nextEntry s.mm r = some (c, e)) : PlainWriteOf s (visitEntry r c e s.mm s).mm
  | rangeEnd (r : TrimRange) (rest : List TrimRange) (ht : s.mm.trims = r :: rest) (hn : nextEntry s.mm r = none) :
      PlainWriteOf s { s.mm with trims := rest }
  | sweep : PlainWriteOf s (sweepVolumes s.mm)
  | other (mm : MapMemory) (h : VolumesUnchanged s.mm mm) : PlainWriteOf s mm

/-- Whether an event is none of those a range's end and a format alone bring. -/
def isPlain (t : Task) : Bool :=
  match t with
  | .freeVolume _ => false
  | .formatHeader => false
  | .formatContents => false
  | _ => true

theorem decideVolume_plain {s : State} {d : VolumeDecision} {a : Station} {v tag : Nat} {w : MapWrite}
    (hd : ∀ st mm, d = (st, some mm) → PlainWriteOf s mm) (h : (takeVolume a v tag d s).2 = some w) : PlainWriteOf s w.image := by
  unfold takeVolume at h
  split at h
  · cases h
  · cases h
    exact hd _ _ rfl

/-- Every write a plain event makes is one of these. -/
theorem takeTask_plainWriteOf {t : Task} {s : State} {w : MapWrite} (ht : isPlain t = true) (h : (takeTask t s).2 = some w) :
    PlainWriteOf s w.image := by
  cases t with
  | freeVolume r => cases ht
  | formatHeader => cases ht
  | formatContents => cases ht
  | lookupWrite a v c tag =>
    simp only [takeTask, takeLookupWrite] at h
    split at h
    · cases h
    · rename_i hd
      obtain ⟨hc, he⟩ := decideWrite_base.1 hd
      rw [allocate_write h]
      exact .allocation a v c tag _ hc (.noEntry he)
    · rename_i old hd
      obtain ⟨hc, hb⟩ := decideWrite_base.2 old hd
      rw [allocate_write h]
      exact .allocation a v c tag _ hc hb
  | commit a v c tag =>
    simp only [takeTask, takeCommit, decideCommit] at h
    split at h
    · cases h
    · rename_i hd
      repeat' split at hd
      all_goals cases hd
      cases h
      exact .commit a v c tag _ ‹_›
  | trim a v f n tag =>
    simp only [takeTask, takeTrim] at h
    split at h
    · cases h
    · cases h
      exact .trim a v f n tag
  | volumeCreate a v n tag =>
    refine decideVolume_plain (fun st mm hd => ?_) h
    unfold decideCreate at hd
    repeat' split at hd
    all_goals cases hd
    exact .create v n ‹_›
  | volumeDelete a v tag =>
    refine decideVolume_plain (fun st mm hd => ?_) h
    unfold decideDelete at hd
    dsimp only at hd
    repeat' split at hd
    all_goals cases hd
    exact .delete a v tag (Decidable.not_not.mp ‹_›)
  | volumeGrow a v n tag =>
    refine decideVolume_plain (fun st mm hd => ?_) h
    unfold decideGrow at hd
    dsimp only at hd
    repeat' split at hd
    all_goals cases hd
    exact .grow v n (Decidable.not_not.mp ‹_›) (by omega)
  | rollback which =>
    simp only [takeTask, takeRollback] at h
    repeat' split at h
    all_goals cases h
    rename_i r hr
    exact .rollback r (List.mem_of_find?_eq_some hr)
  | startRollback hs =>
    simp only [takeTask, takeStartRollback] at h
    split at h
    · cases h
    · rename_i r _ hp
      cases h
      exact .rollback r (by rw [hp]; exact List.mem_cons_self)
  | walk n =>
    simp only [takeTask] at h
    unfold takeWalk at h
    dsimp only at h
    repeat' split at h
    all_goals cases h
    · exact .visit _ _ _ _ ‹_› ‹_›
    · exact .rangeEnd _ _ ‹_› ‹_›
  | takeHeard a i n =>
    simp only [takeTask, takeTake] at h
    repeat' split at h
    all_goals cases h
    exact .other _ ⟨rfl, rfl, rfl, rfl, rfl⟩
  | grantHeard a i rs =>
    simp only [takeTask, takeGrant, takeStaleGrant] at h
    repeat' split at h
    all_goals cases h
    dsimp only
    rw [acceptGrant_frame]
    exact .other _ ⟨rfl, rfl, rfl, rfl, rfl⟩
  | givebackHeard a ls =>
    simp only [takeTask, takeGiveback] at h
    repeat' split at h
    all_goals cases h
    dsimp only
    rw [judgeGiveback_frame]
    exact .other _ ⟨rfl, rfl, rfl, rfl, rfl⟩
  | returnStep =>
    simp only [takeTask, takeReturnStep] at h
    repeat' split at h
    all_goals cases h
    dsimp only
    rw [returnStepOf_frame ‹_›]
    exact .other _ ⟨rfl, rfl, rfl, rfl, rfl⟩
  | borrowerEvent ev a =>
    simp only [takeTask, takeBorrowerEvent] at h
    repeat' split at h
    all_goals cases h
    all_goals exact .other _ ⟨rfl, rfl, rfl, rfl, rfl⟩
  | lenderEvent ev a =>
    simp only [takeTask, takeLenderEvent] at h
    repeat' split at h
    all_goals cases h
    all_goals exact .other _ ⟨rfl, rfl, rfl, rfl, rfl⟩
  | raiseRestartCount =>
    cases h
    exact .other _ ⟨rfl, rfl, rfl, by simp only [Option.map_map]; rfl, rfl⟩
  | sweepRetiring =>
    simp only [takeTask, takeSweep] at h
    split at h
    · cases h
    · cases h
      exact .sweep
  | mapEvent ev a => cases ev <;> cases h
  | _ => cases h

theorem PlainWriteOf.volumeLaw {s : State} {mm : MapMemory} (w : PlainWriteOf s mm) (hs : Shaped s.mm) (h : VolumeLaw s.mm) :
    VolumeLaw mm := by
  have ⟨hc, hf⟩ := hs
  cases w with
  | allocation a v c tag base hk hb =>
    obtain ⟨hlaw, hactive, hsize⟩ := hb.volumeLaw hs hk h
    exact seekGrain_volumeLaw (hb.canonical hc) hactive hsize (checkChunk_lt_maxVolume hf hk) (hb.entryOf_none hc) hlaw
  | commit a v c tag e he => exact h.of_put hc he rfl rfl rfl
  | trim a v first count tag => exact h.of_trimRange rfl
  | create v size hfv => exact create_volumeLaw hc hfv h
  | grow v size ha hsz => exact grow_volumeLaw hc ha hsz h
  | delete a v tag ha => exact delete_volumeLaw hc ha h
  | rollback r hr =>
    cases he : entryOf s.mm r.volume r.chunk with
    | none => rw [rollbackChunk_none _ _ he]; exact h.of_unchanged rfl rfl rfl
    | some e => exact (rollbackChunk_gone _ _ he).volumeLaw hc (hf.pendingChunks r hr) he h
  | visit r rest c e ht hn => exact visitEntry_volumeLaw s hs ht hn h
  | rangeEnd r rest ht hn => exact rangeEnd_volumeLaw hc ht hn h
  | sweep => exact sweepVolumes_volumeLaw hc h
  | other _ u => exact h.of_unchanged u.volumes u.chunks u.trims

/-! ## The station's epoch and geometry -/

theorem GrainGone.header {pl : Place} (g : GrainGone mm pl mm') : mm'.header = mm.header ∧ mm'.geometry = mm.geometry := by
  cases g <;> exact ⟨rfl, rfl⟩

theorem EntryGone.header {v c : Nat} {e : Entry} (g : EntryGone mm v c e mm') : mm'.header = mm.header ∧ mm'.geometry = mm.geometry := by
  cases g with
  | pending _ h => exact h.header
  | mapped _ _ _ _ h => exact h.header

theorem AllocBase.header {s : State} {v c : Nat} {base : MapMemory} (hb : AllocBase s v c base) :
    base.header = s.mm.header ∧ base.geometry = s.mm.geometry := by
  obtain ⟨_, rfl⟩ | ⟨e, _, g⟩ := hb.cases
  · exact ⟨rfl, rfl⟩
  · exact g.header

theorem seekGrain_header (s : State) (a : Station) (v c tag : Nat) :
    (seekGrain s a v c tag mm).mm.header = mm.header ∧ (seekGrain s a v c tag mm).mm.geometry = mm.geometry := by
  obtain h | ⟨_, _, ⟨_, _, _, _, h⟩ | ⟨x, m, hx, h⟩⟩ := seekGrain_cases s a v c tag mm
  · rw [h]; exact ⟨rfl, rfl⟩
  · rw [h]; exact ⟨rfl, rfl⟩
  · rw [h, takeSpare_frame hx]; exact ⟨rfl, rfl⟩

theorem rollbackChunk_header (ro : Table RosterRecord) (pr : List Bool) (v c : Nat) :
    (rollbackChunk ro pr mm v c).mm.header = mm.header ∧ (rollbackChunk ro pr mm v c).mm.geometry = mm.geometry := by
  cases he : entryOf mm v c with
  | none => rw [rollbackChunk_none _ _ he]; exact ⟨rfl, rfl⟩
  | some e => exact (rollbackChunk_gone _ _ he).header

theorem visitEntry_header (r : TrimRange) (c : Nat) {e : Entry} (s : State) :
    (visitEntry r c e mm s).mm.header = mm.header ∧ (visitEntry r c e mm s).mm.geometry = mm.geometry := by
  unfold visitEntry
  split
  · simp
  · unfold disposeEntry
    split
    · simpa using rollbackChunk_header _ _ _ _
    · have hgone := (freeGrain_gone s.roster s.presence (removeEntry mm r.volume c) e.place).header
      simpa using hgone

/-- No plain event writes another epoch or another geometry record (R130). -/
theorem PlainWriteOf.header {s : State} {mm : MapMemory} (w : PlainWriteOf s mm) :
    mm.header.map Header.epoch = s.mm.header.map Header.epoch ∧ mm.geometry = s.mm.geometry := by
  have of_eq {m : MapMemory} (h : m.header = s.mm.header ∧ m.geometry = s.mm.geometry) :
      m.header.map Header.epoch = s.mm.header.map Header.epoch ∧ m.geometry = s.mm.geometry := ⟨by rw [h.1], h.2⟩
  cases w with
  | allocation a v c tag base hk hb =>
    have hseek := seekGrain_header (mm := base) s a v c tag
    exact of_eq ⟨hseek.1.trans hb.header.1, hseek.2.trans hb.header.2⟩
  | rollback r hr => exact of_eq (rollbackChunk_header _ _ _ _)
  | visit r rest c e ht hn => exact of_eq (visitEntry_header _ _ _)
  | other _ u => exact ⟨u.epoch, u.geometry⟩
  | commit | trim | create | grow | delete | rangeEnd | sweep => exact ⟨rfl, rfl⟩

end volumes

end Sys2Proof.Machine

/-! What every command comes to: gentle changes that leave map memory alone, then the taking of events; or a write that ends, a start, a
loss of supply. -/

namespace Sys2Proof.Machine

/-! ## The drain's fields under the operations that leave them alone -/

@[simp] theorem answer_drainEnded (d : Station) (r : Reply) (s : State) : (answer d r s).drainEnded = s.drainEnded := (congrArg State.drainEnded (answer_frame d r s) :)
@[simp] theorem answer_drainTimer (d : Station) (r : Reply) (s : State) : (answer d r s).drainTimer = s.drainTimer := (congrArg State.drainTimer (answer_frame d r s) :)
@[simp] theorem fillReply_drainEnded (d : Station) (r : Reply) (s : State) : (fillReply d r s).drainEnded = s.drainEnded := (congrArg State.drainEnded (fillReply_frame d r s) :)
@[simp] theorem fillReply_drainTimer (d : Station) (r : Reply) (s : State) : (fillReply d r s).drainTimer = s.drainTimer := (congrArg State.drainTimer (fillReply_frame d r s) :)
@[simp] theorem queueHail_drainEnded (s : State) : (queueHail s).drainEnded = s.drainEnded := (congrArg State.drainEnded (queueHail_frame s) :)
@[simp] theorem queueHail_drainTimer (s : State) : (queueHail s).drainTimer = s.drainTimer := (congrArg State.drainTimer (queueHail_frame s) :)
@[simp] theorem withdraw_drainEnded (p : FrameBody → Bool) (s : State) : (withdraw p s).drainEnded = s.drainEnded := (congrArg State.drainEnded (withdraw_frame p s) :)
@[simp] theorem withdraw_drainTimer (p : FrameBody → Bool) (s : State) : (withdraw p s).drainTimer = s.drainTimer := (congrArg State.drainTimer (withdraw_frame p s) :)
@[simp] theorem report_drainEnded (f : Flag) (s : State) : (report f s).drainEnded = s.drainEnded := (congrArg State.drainEnded (report_frame f s) :)
@[simp] theorem report_drainTimer (f : Flag) (s : State) : (report f s).drainTimer = s.drainTimer := (congrArg State.drainTimer (report_frame f s) :)
@[simp] theorem sendGiveback_drainEnded (d : Station) (r : GivebackReason) (l : List Nat) (s : State) : (sendGiveback d r l s).drainEnded = s.drainEnded := (congrArg State.drainEnded (sendGiveback_frame d r l s) :)
@[simp] theorem sendGiveback_drainTimer (d : Station) (r : GivebackReason) (l : List Nat) (s : State) : (sendGiveback d r l s).drainTimer = s.drainTimer := (congrArg State.drainTimer (sendGiveback_frame d r l s) :)
@[simp] theorem withdrawOffer_drainEnded (b : Bool) (s : State) : (withdrawOffer b s).drainEnded = s.drainEnded := (congrArg State.drainEnded (withdrawOffer_frame b s) :)
@[simp] theorem withdrawOffer_drainTimer (b : Bool) (s : State) : (withdrawOffer b s).drainTimer = s.drainTimer := (congrArg State.drainTimer (withdrawOffer_frame b s) :)
@[simp] theorem yieldOffer_drainEnded (s : State) : (yieldOffer s).drainEnded = s.drainEnded := (congrArg State.drainEnded (yieldOffer_frame s) :)
@[simp] theorem yieldOffer_drainTimer (s : State) : (yieldOffer s).drainTimer = s.drainTimer := (congrArg State.drainTimer (yieldOffer_frame s) :)
@[simp] theorem stopOffer_drainEnded (s : State) : (stopOffer s).drainEnded = s.drainEnded := (congrArg State.drainEnded (stopOffer_frame s) :)
@[simp] theorem stopOffer_drainTimer (s : State) : (stopOffer s).drainTimer = s.drainTimer := (congrArg State.drainTimer (stopOffer_frame s) :)
@[simp] theorem failAsk_drainEnded (s : State) : (failAsk s).drainEnded = s.drainEnded := (congrArg State.drainEnded (failAsk_frame s) :)
@[simp] theorem failAsk_drainTimer (s : State) : (failAsk s).drainTimer = s.drainTimer := (congrArg State.drainTimer (failAsk_frame s) :)
@[simp] theorem startAsk_drainEnded (s : State) : (startAsk s).drainEnded = s.drainEnded := (congrArg State.drainEnded (startAsk_frame s) :)
@[simp] theorem startAsk_drainTimer (s : State) : (startAsk s).drainTimer = s.drainTimer := (congrArg State.drainTimer (startAsk_frame s) :)
@[simp] theorem judgeAsk_drainEnded (s : State) : (judgeAsk s).drainEnded = s.drainEnded := (congrArg State.drainEnded (judgeAsk_frame s) :)
@[simp] theorem judgeAsk_drainTimer (s : State) : (judgeAsk s).drainTimer = s.drainTimer := (congrArg State.drainTimer (judgeAsk_frame s) :)
@[simp] theorem toldDropped_drainEnded (b : FrameBody) (s : State) : (toldDropped b s).drainEnded = s.drainEnded := (congrArg State.drainEnded (toldDropped_frame b s) :)
@[simp] theorem toldDropped_drainTimer (b : FrameBody) (s : State) : (toldDropped b s).drainTimer = s.drainTimer := (congrArg State.drainTimer (toldDropped_frame b s) :)
@[simp] theorem toldRemoved_drainEnded (l : List OutFrame) (s : State) : (toldRemoved l s).drainEnded = s.drainEnded := (congrArg State.drainEnded (toldRemoved_frame l s) :)
@[simp] theorem toldRemoved_drainTimer (l : List OutFrame) (s : State) : (toldRemoved l s).drainTimer = s.drainTimer := (congrArg State.drainTimer (toldRemoved_frame l s) :)
@[simp] theorem endOfferOf_drainEnded (a : Station) (i : AskId) (s : State) : (endOfferOf a i s).drainEnded = s.drainEnded := (congrArg State.drainEnded (endOfferOf_frame a i s) :)
@[simp] theorem endOfferOf_drainTimer (a : Station) (i : AskId) (s : State) : (endOfferOf a i s).drainTimer = s.drainTimer := (congrArg State.drainTimer (endOfferOf_frame a i s) :)
@[simp] theorem sendGranted_drainEnded (b : Station) (i : AskId) (rs : List GrantRecord) (s : State) : (sendGranted b i rs s).drainEnded = s.drainEnded := (congrArg State.drainEnded (sendGranted_frame b i rs s) :)
@[simp] theorem sendGranted_drainTimer (b : Station) (i : AskId) (rs : List GrantRecord) (s : State) : (sendGranted b i rs s).drainTimer = s.drainTimer := (congrArg State.drainTimer (sendGranted_frame b i rs s) :)
@[simp] theorem failAskOf_drainEnded (st : Station) (s : State) : (failAskOf st s).drainEnded = s.drainEnded := (congrArg State.drainEnded (failAskOf_frame st s) :)
@[simp] theorem failAskOf_drainTimer (st : Station) (s : State) : (failAskOf st s).drainTimer = s.drainTimer := (congrArg State.drainTimer (failAskOf_frame st s) :)
@[simp] theorem stopOfferTo_drainEnded (st : Station) (s : State) : (stopOfferTo st s).drainEnded = s.drainEnded := (congrArg State.drainEnded (stopOfferTo_frame st s) :)
@[simp] theorem stopOfferTo_drainTimer (st : Station) (s : State) : (stopOfferTo st s).drainTimer = s.drainTimer := (congrArg State.drainTimer (stopOfferTo_frame st s) :)
@[simp] theorem reportStale_drainEnded (n : Nat) (s : State) : (reportStale n s).drainEnded = s.drainEnded := (congrArg State.drainEnded (reportStale_frame n s) :)
@[simp] theorem reportStale_drainTimer (n : Nat) (s : State) : (reportStale n s).drainTimer = s.drainTimer := (congrArg State.drainTimer (reportStale_frame n s) :)
@[simp] theorem reportDataLost_drainEnded (st : Station) (e : Epoch) (s : State) : (reportDataLost st e s).drainEnded = s.drainEnded := (congrArg State.drainEnded (reportDataLost_frame st e s) :)
@[simp] theorem reportDataLost_drainTimer (st : Station) (e : Epoch) (s : State) : (reportDataLost st e s).drainTimer = s.drainTimer := (congrArg State.drainTimer (reportDataLost_frame st e s) :)
@[simp] theorem emptyLastGrantOf_drainEnded (st : Station) (s : State) : (emptyLastGrantOf st s).drainEnded = s.drainEnded := (congrArg State.drainEnded (emptyLastGrantOf_frame st s) :)
@[simp] theorem emptyLastGrantOf_drainTimer (st : Station) (s : State) : (emptyLastGrantOf st s).drainTimer = s.drainTimer := (congrArg State.drainTimer (emptyLastGrantOf_frame st s) :)
@[simp] theorem hearAsk_drainEnded (st : Station) (i : AskId) (w : Nat) (s : State) : (hearAsk st i w s).drainEnded = s.drainEnded := (congrArg State.drainEnded (hearAsk_frame st i w s) :)
@[simp] theorem hearAsk_drainTimer (st : Station) (i : AskId) (w : Nat) (s : State) : (hearAsk st i w s).drainTimer = s.drainTimer := (congrArg State.drainTimer (hearAsk_frame st i w s) :)
@[simp] theorem takeOffer_drainEnded (st : Station) (n : Nat) (s : State) : (takeOffer st n s).drainEnded = s.drainEnded := (congrArg State.drainEnded (takeOffer_frame st n s) :)
@[simp] theorem takeOffer_drainTimer (st : Station) (n : Nat) (s : State) : (takeOffer st n s).drainTimer = s.drainTimer := (congrArg State.drainTimer (takeOffer_frame st n s) :)
@[simp] theorem rivalOffer_drainEnded (st : Station) (i : AskId) (a : Station) (s : State) : (rivalOffer st i a s).drainEnded = s.drainEnded := (congrArg State.drainEnded (rivalOffer_frame st i a s) :)
@[simp] theorem rivalOffer_drainTimer (st : Station) (i : AskId) (a : Station) (s : State) : (rivalOffer st i a s).drainTimer = s.drainTimer := (congrArg State.drainTimer (rivalOffer_frame st i a s) :)
@[simp] theorem hearOffer_drainEnded (st : Station) (i : AskId) (a : Station) (n : Nat) (s : State) : (hearOffer st i a n s).drainEnded = s.drainEnded := (congrArg State.drainEnded (hearOffer_frame st i a n s) :)
@[simp] theorem hearOffer_drainTimer (st : Station) (i : AskId) (a : Station) (n : Nat) (s : State) : (hearOffer st i a n s).drainTimer = s.drainTimer := (congrArg State.drainTimer (hearOffer_frame st i a n s) :)
@[simp] theorem hearTakeElsewhere_drainEnded (st : Station) (i : AskId) (s : State) : (hearTakeElsewhere st i s).drainEnded = s.drainEnded := (congrArg State.drainEnded (hearTakeElsewhere_frame st i s) :)
@[simp] theorem hearTakeElsewhere_drainTimer (st : Station) (i : AskId) (s : State) : (hearTakeElsewhere st i s).drainTimer = s.drainTimer := (congrArg State.drainTimer (hearTakeElsewhere_frame st i s) :)

/-! ## Plain events and gentle changes -/

/-- What a command does before any event is taken: map memory and the write in progress stay, only plain events are added, and the laws of
the roster and of a drain are kept. -/
structure Gentle (s t : State) : Prop where
  pending : t.pending = s.pending
  now : s.now ≤ t.now
  mm : t.mm = s.mm
  inflight : t.inflight = s.inflight
  tasks : ∃ ts, t.tasks = s.tasks ++ ts ∧ ∀ x ∈ ts, isPlain x = true
  roster : RosterLaw s → RosterLaw t
  drain : RosterLaw s → DrainLaw s → DrainLaw t

theorem Gentle.refl (s : State) : Gentle s s where
  pending := rfl
  now := Nat.le_refl _
  mm := rfl
  inflight := rfl
  tasks := ⟨[], by simp⟩
  roster := id
  drain _ := id

theorem Gentle.trans {s t u : State} (h : Gentle s t) (k : Gentle t u) : Gentle s u where
  pending := k.pending.trans h.pending
  now := h.now.trans k.now
  mm := k.mm.trans h.mm
  inflight := k.inflight.trans h.inflight
  tasks := by
    obtain ⟨ts, ht, hp⟩ := h.tasks
    obtain ⟨us, hu, hq⟩ := k.tasks
    refine ⟨ts ++ us, by rw [hu, ht, List.append_assoc], fun x hx => ?_⟩
    obtain hx | hx := List.mem_append.mp hx
    · exact hp x hx
    · exact hq x hx
  roster hr := k.roster (h.roster hr)
  drain hr hd := k.drain (h.roster hr) (h.drain hr hd)

/-! ## The law of a drain -/

theorem quietCondition_of_eq {s t : State} (hm : t.mm = s.mm) (hr : t.roster = s.roster) : quietCondition t = quietCondition s := by
  unfold quietCondition
  rw [hm, hr]

theorem DrainLaw.of_cond {t : State} (h : t.cond ≠ .drain) : DrainLaw t := fun hc => absurd hc h

theorem DrainLaw.of_ended {t : State} (h : t.drainEnded = true) : DrainLaw t := fun _ he => absurd (h.symm.trans he) nofun

/-- A drain that goes on as it was, with no event of its judging gone. -/
theorem DrainLaw.of_same {s t : State} (h : DrainLaw s) (hc : t.cond = s.cond) (he : t.drainEnded = s.drainEnded)
    (hd : t.drainTimer = s.drainTimer) (hm : t.mm = s.mm) (hr : t.roster = s.roster)
    (ht : Task.judgeQuiet ∈ s.tasks → Task.judgeQuiet ∈ t.tasks) : DrainLaw t := by
  intro h1 h2 h3
  rw [quietCondition_of_eq hm hr]
  exact (h (hc ▸ h1) (he ▸ h2) (hd ▸ h3)).imp_right ht

/-! ## The kinds of gentle changes -/

/-- A change of fields that no law here reads. -/
structure Calm (s t : State) : Prop where
  pending : t.pending = s.pending := by simp
  now : t.now = s.now := by simp
  mm : t.mm = s.mm := by simp
  inflight : t.inflight = s.inflight := by simp
  tasks : t.tasks = s.tasks := by simp
  roster : t.roster = s.roster := by simp
  cond : t.cond = s.cond := by simp
  drainEnded : t.drainEnded = s.drainEnded := by simp
  drainTimer : t.drainTimer = s.drainTimer := by simp

theorem RosterLaw.of_roster {s t : State} (h : RosterLaw s) (hr : t.roster = s.roster) : RosterLaw t where
  canonical := hr ▸ h.canonical
  numbers := hr ▸ h.numbers
  present := hr ▸ h.present

theorem Calm.gentle {s t : State} (h : Calm s t) : Gentle s t where
  pending := h.pending
  now := h.now.ge
  mm := h.mm
  inflight := h.inflight
  tasks := ⟨[], by simp [h.tasks]⟩
  roster hr := hr.of_roster h.roster
  drain _ hd := hd.of_same h.cond h.drainEnded h.drainTimer h.mm h.roster (by rw [h.tasks]; exact id)

/-- A change of condition or of the drain that leaves a drain's law holding by itself. -/
structure Turned (s t : State) : Prop where
  pending : t.pending = s.pending := by simp
  now : t.now = s.now := by simp
  mm : t.mm = s.mm := by simp
  inflight : t.inflight = s.inflight := by simp
  roster : t.roster = s.roster := by simp
  tasks : ∃ ts, t.tasks = s.tasks ++ ts ∧ ∀ x ∈ ts, isPlain x = true
  drain : DrainLaw t

theorem Turned.gentle {s t : State} (h : Turned s t) : Gentle s t where
  pending := h.pending
  now := h.now.ge
  mm := h.mm
  inflight := h.inflight
  tasks := h.tasks
  roster hr := hr.of_roster h.roster
  drain _ _ := h.drain

theorem gentle_advance (t : Time) (s : State) : Gentle s (advance t s) where
  pending := rfl
  now := Nat.le_max_left _ _
  mm := rfl
  inflight := rfl
  tasks := ⟨[], by simp⟩
  roster hr := hr.of_roster rfl
  drain _ hd := hd.of_same rfl rfl rfl rfl rfl id

theorem gentle_addTasks {ts : List Task} (hts : ∀ x ∈ ts, isPlain x = true) (s : State) :
    Gentle s (withTasks (s.tasks ++ ts) s) where
  pending := rfl
  now := Nat.le_refl _
  mm := rfl
  inflight := rfl
  tasks := ⟨ts, rfl, hts⟩
  roster hr := hr.of_roster rfl
  drain _ hd := hd.of_same rfl rfl rfl rfl rfl (List.mem_append_left _)

/-- Events given to a station that has none left to take. -/
theorem gentle_setTasks {ts : List Task} (hts : ∀ x ∈ ts, isPlain x = true) {s : State} (hs : s.tasks = []) :
    Gentle s (withTasks ts s) := by
  simpa [hs] using gentle_addTasks hts s

/-! ## Conditions entered, drains ended -/

@[simp] theorem enterSilence_cond (c : Condition) (s : State) : (enterSilence c s).cond = c := by
  unfold enterSilence
  simp

@[simp] theorem enterHalted_cond (s : State) : (enterHalted s).cond = .halted := by
  unfold enterHalted
  simp

@[simp] theorem enterQuiet_cond (s : State) : (enterQuiet s).cond = .quiet := by
  unfold enterQuiet
  simp

/-- QUIET may bring a resume start with it (R162). -/
theorem enterQuiet_tasks (s : State) : ∃ ts, (enterQuiet s).tasks = s.tasks ++ ts ∧ ∀ x ∈ ts, isPlain x = true := by
  unfold enterQuiet
  refine ⟨_, by simp; rfl, fun x hx => ?_⟩
  split at hx
  · obtain rfl := List.mem_singleton.mp hx
    rfl
  · cases hx

theorem gentle_enterSilence {c : Condition} (hc : c ≠ .drain) (s : State) : Gentle s (enterSilence c s) :=
  Turned.gentle { tasks := ⟨[], by simp⟩, drain := .of_cond (by simpa using hc) }

theorem gentle_enterQuiet (s : State) : Gentle s (enterQuiet s) :=
  Turned.gentle { tasks := enterQuiet_tasks s, drain := .of_cond (by simp) }

theorem gentle_enterHalted (s : State) : Gentle s (enterHalted s) :=
  Turned.gentle { tasks := ⟨[], by simp⟩, drain := .of_cond (by simp) }

theorem gentle_duplicateHeard (s : State) : Gentle s (duplicateHeard s) := by
  have hreport : Gentle s (report .duplicate s) := Calm.gentle {}
  unfold duplicateHeard
  dsimp only
  split
  · exact hreport
  · exact hreport.trans (gentle_enterSilence (c := .mute) nofun _)

/-- A drain that ends goes on to HAIL(LEAVING), or straight to QUIET (R164). -/
theorem endDrain_cases (s : State) :
    endDrain s = pushFrame (buildHail .leaving { s with drainEnded := true, drainTimer := none, walkerTimer := none })
        { s with drainEnded := true, drainTimer := none, walkerTimer := none }
      ∨ endDrain s = enterQuiet { s with drainEnded := true, drainTimer := none, walkerTimer := none } := by
  unfold endDrain
  dsimp only
  cases h : offerFrame (buildHail .leaving { s with drainEnded := true, drainTimer := none, walkerTimer := none })
      { s with drainEnded := true, drainTimer := none, walkerTimer := none } with
  | none => exact .inr rfl
  | some t => exact .inl (offerFrame_some h).2.2.2

theorem gentle_endDrain (s : State) : Gentle s (endDrain s) := by
  obtain h | h := endDrain_cases s
  · rw [h]
    exact Turned.gentle { tasks := ⟨[], by simp⟩, drain := .of_ended rfl }
  · have hended : Gentle s { s with drainEnded := true, drainTimer := none, walkerTimer := none } :=
      Turned.gentle { tasks := ⟨[], by simp⟩, drain := .of_ended rfl }
    rw [h]
    exact hended.trans (gentle_enterQuiet _)

theorem endDrain_drainLaw (s : State) : DrainLaw (endDrain s) := by
  obtain h | h := endDrain_cases s
  · rw [h]; exact .of_ended rfl
  · rw [h]; exact .of_cond (by simp)

/-- Once the quiet condition has been judged, a drain that goes on has something to wait for. -/
theorem judgeQuiet_drainLaw (s : State) : DrainLaw (judgeQuiet s) := by
  unfold judgeQuiet
  split
  · exact endDrain_drainLaw s
  · rename_i h
    intro hc he hd
    refine .inl ?_
    rw [← Bool.not_eq_true]
    exact fun hq => h ⟨hc, he, Option.isSome_iff_ne_none.mpr hd, hq⟩

theorem gentle_judgeQuiet (s : State) : Gentle s (judgeQuiet s) := by
  unfold judgeQuiet
  split
  · exact gentle_endDrain s
  · exact .refl s

theorem enterDrain_drainLaw (s : State) : DrainLaw (enterDrain s) := judgeQuiet_drainLaw _

theorem judgeQuiet_tasks (s : State) : ∃ ts, (judgeQuiet s).tasks = s.tasks ++ ts ∧ ∀ x ∈ ts, isPlain x = true :=
  (gentle_judgeQuiet s).tasks

theorem gentle_enterDrain (s : State) : Gentle s (enterDrain s) := by
  refine Turned.gentle { tasks := ?_, drain := enterDrain_drainLaw s }
  obtain ⟨ts, ht, hp⟩ := judgeQuiet_tasks (yieldOffer
    { s with cond := .drain, drainEnded := false, drainTimer := some (s.now + s.profile.drainLimit * Config.second) })
  exact ⟨ts, by simpa [enterDrain] using ht, hp⟩

theorem gentle_judgeService (s : State) : Gentle s (judgeService s) := by
  unfold judgeService
  split
  · exact gentle_enterDrain s
  · exact .refl s

theorem gentle_leavingGone (b : FrameBody) (s : State) : Gentle s (leavingGone b s) := by
  unfold leavingGone
  repeat' split
  · exact gentle_enterQuiet s
  · exact .refl s
  · exact .refl s

/-! ## The roster's records -/

theorem mem_tableSet_same {α : Type} [DecidableEq α] {d v : α} {t : Table α} (k : Nat) (h : v ≠ d) : (k, v) ∈ tableSet d t k v := by
  unfold tableSet
  rw [if_neg h]
  exact tableFind_mem (tableFind_put_same t k v)

theorem mem_tableSet_of_ne {α : Type} [DecidableEq α] {d v : α} {t : Table α} {k : Nat} {p : Nat × α} (w : tableWf t) (hp : p ∈ t)
    (hk : p.1 ≠ k) : p ∈ tableSet d t k v := by
  have hfind := tableFind_of_mem w hp
  refine tableFind_mem (k := p.1) (v := p.2) ?_
  unfold tableSet
  split
  · rwa [tableFind_erase_other t hk]
  · rwa [tableFind_put_other t v hk]

theorem toNat_lt_of_ne_broadcast {st : Station} (h : st ≠ broadcast) : st.toNat < 15 := by
  have hne : st.toNat ≠ 15 := fun hn => h (BitVec.eq_of_toNat_eq hn)
  have := st.isLt
  omega

/-- A roster record set anew. -/
def setRoster (st : Station) (r : RosterRecord) (s : State) : State :=
  { s with roster := tableSet RosterRecord.none s.roster st.toNat r }

theorem RosterLaw.set {s : State} (h : RosterLaw s) {st : Station} (hst : st ≠ broadcast) {r : RosterRecord}
    (hr : r.state = .present → r.kind ≠ none ∧ r.epoch ≠ none ∧ r.lastHeard ≠ none) : RosterLaw (setRoster st r s) where
  canonical := tableWfRest_set _ _ h.canonical
  numbers p hp := by
    obtain rfl | hp := mem_tableSet hp
    · exact toNat_lt_of_ne_broadcast hst
    · exact h.numbers p hp
  present p hp hstate := by
    obtain rfl | hp := mem_tableSet hp
    · exact hr hstate
    · exact h.present p hp hstate

theorem rosterOf_mem {s : State} {st : Station} (h : rosterOf s.roster st ≠ RosterRecord.none) :
    (st.toNat, rosterOf s.roster st) ∈ s.roster := by
  unfold rosterOf tableGet at *
  cases hf : tableFind s.roster st.toNat with
  | none => rw [hf] at h; exact absurd rfl h
  | some r => exact tableFind_mem hf

/-- What a PRESENT record holds, read by its station. -/
theorem RosterLaw.present_rosterOf {s : State} (h : RosterLaw s) {st : Station} (hp : (rosterOf s.roster st).state = .present) :
    (rosterOf s.roster st).kind ≠ none ∧ (rosterOf s.roster st).epoch ≠ none ∧ (rosterOf s.roster st).lastHeard ≠ none :=
  h.present _ (rosterOf_mem fun hn => by rw [hn] at hp; cases hp) hp

/-- A record that stays PRESENT where it was leaves a drain its reasons to wait; for one that ceases to be, the quiet condition is to be
judged. -/
theorem DrainLaw.set {s : State} (hr : RosterLaw s) (h : DrainLaw s) {st : Station} {r : RosterRecord}
    (hstay : (rosterOf s.roster st).state = .present → r.state = .present) : DrainLaw (setRoster st r s) := by
  intro hc he hd
  refine (h hc he hd).imp_left fun hq => ?_
  rw [← Bool.not_eq_true] at hq ⊢
  refine fun hquiet => hq ?_
  simp only [quietCondition, setRoster, Bool.and_eq_true, List.all_eq_true, Bool.or_eq_true] at hquiet ⊢
  obtain ⟨hlists, hall⟩ := hquiet
  refine ⟨hlists, fun p hp => ?_⟩
  by_cases hk : p.1 = st.toNat
  · by_cases hpres : p.2.state = .present
    · have hrec : rosterOf s.roster st = p.2 := tableGet_of_find (hk ▸ tableFind_of_mem hr.canonical.1 hp)
      have hnew := hstay (hrec ▸ hpres)
      obtain hno | hzero := hall (st.toNat, r) (mem_tableSet_same (t := s.roster) st.toNat
        fun hn : r = RosterRecord.none => by rw [hn] at hnew; cases hnew)
      · exact absurd hnew (of_decide_eq_true hno)
      · exact .inr (hk ▸ hzero)
    · exact .inl (decide_eq_true hpres)
  · exact hall p (mem_tableSet_of_ne hr.canonical.1 hp hk)

theorem noteSource_eq {st : Station} {s : State} (h : ¬ (st = broadcast ∨ st = s.own)) :
    noteSource st s = setRoster st { rosterOf s.roster st with lastHeard := some s.now } s := by
  unfold noteSource
  rw [if_neg h]
  rfl

theorem gentle_noteSource (st : Station) (s : State) : Gentle s (noteSource st s) := by
  by_cases hst : st = broadcast ∨ st = s.own
  · unfold noteSource
    rw [if_pos hst]
    exact .refl s
  · rw [noteSource_eq hst]
    exact
      { pending := rfl, now := Nat.le_refl _, mm := rfl, inflight := rfl, tasks := ⟨[], by simp [setRoster]⟩
        roster := fun hr => hr.set (fun h => hst (.inl h)) fun hp =>
          have ⟨hkind, hepoch, _⟩ := hr.present_rosterOf hp
          ⟨hkind, hepoch, nofun⟩
        drain := fun hr hd => hd.set hr id }

/-- A record set together with the events its change raises: one that ceases to be PRESENT brings the judging of the quiet condition. -/
theorem gentle_setRoster {st : Station} {r : RosterRecord} {s : State} (hst : RosterLaw s → st ≠ broadcast)
    (hr : r.state = .present → r.kind ≠ none ∧ r.epoch ≠ none ∧ r.lastHeard ≠ none) {ts : List Task}
    (hts : ∀ x ∈ ts, isPlain x = true)
    (hleft : (rosterOf s.roster st).state = .present → r.state ≠ .present → Task.judgeQuiet ∈ ts) :
    Gentle s (withTasks (s.tasks ++ ts) (setRoster st r s)) where
  pending := rfl
  now := Nat.le_refl _
  mm := rfl
  inflight := rfl
  tasks := ⟨ts, rfl, hts⟩
  roster hl := (hl.set (hst hl) hr).of_roster rfl
  drain hl hd := by
    by_cases hgone : (rosterOf s.roster st).state = .present ∧ r.state ≠ .present
    · exact fun _ _ _ => .inr (List.mem_append_right _ (hleft hgone.1 hgone.2))
    · have hlaw : DrainLaw (setRoster st r s) := hd.set hl fun hp => by_contra fun hn => hgone ⟨hp, hn⟩
      exact hlaw.of_same rfl rfl rfl rfl rfl (List.mem_append_left _)

/-! ## A command's run: gentle changes, and then what is to be taken -/

/-- Gentle changes, and then, if the command takes events, their taking. -/
def Runs (s t : State) : Prop := Gentle s t ∨ ∃ m u, Gentle s u ∧ t = settle m u

theorem Gentle.runs {s t : State} (h : Gentle s t) : Runs s t := .inl h

theorem Calm.runs {s t : State} (h : Calm s t) : Runs s t := h.gentle.runs

theorem Runs.refl (s : State) : Runs s s := (Gentle.refl s).runs

theorem Gentle.then {s t u : State} (h : Gentle s t) (k : Runs t u) : Runs s u := by
  obtain k | ⟨m, v, k, rfl⟩ := k
  · exact .inl (h.trans k)
  · exact .inr ⟨m, v, h.trans k, rfl⟩

theorem Gentle.settles {s t : State} (h : Gentle s t) (m : Moment) : Runs s (settle m t) := .inr ⟨m, t, h, rfl⟩

theorem runs_perform {ts : List Task} (hts : ∀ x ∈ ts, isPlain x = true) (m : Moment) (s : State) : Runs s (perform m ts s) :=
  (gentle_addTasks hts s).settles m

theorem runs_perform_one {t : Task} (ht : isPlain t = true) (m : Moment) (s : State) : Runs s (perform m [t] s) :=
  runs_perform (by simpa using ht) m s

/-- Whether a command makes a full start (R157). -/
def startsFully (c : Instr) : Bool :=
  match c with
  | .powerOn _ _ _ _ => true
  | .resetPin _ _ _ _ _ => true
  | _ => false

/-- What a command comes to: its run, the end of a write in progress, a full start, or the loss of supply. -/
inductive Shape (c : Instr) (s : State) : State → Prop
  | runs (t : State) (h : Runs s t) : Shape c s t
  | writeEnded (m : Moment) (w : MapWrite) (ok : Bool) (hw : s.inflight = some w) :
      Shape c s (settle m (if ok then completeWrite w (advance m.time s) else failWrite w (advance m.time s)))
  | started (m : Moment) (cause : RestartCause) (pins : StartPins) (rom : Option ProfileRom) (takes : Bool)
      (hc : startsFully c = true) :
      Shape c s (settle m (fullStart cause pins rom { advance m.time s with mm := settleMemory takes s }))
  | supplyLost (takes : Bool) :
      Shape c s { State.reset with powered := false, pending := s.pending, now := s.now, fresh := s.fresh, mm := settleMemory takes s }

/-! ## Frames heard -/

theorem noteSource_lastHeard {st : Station} {s : State} (hb : st ≠ broadcast) (ho : st ≠ s.own) :
    (rosterOf (noteSource st s).roster st).lastHeard ≠ none := by
  rw [noteSource_eq (not_or.mpr ⟨hb, ho⟩)]
  have hne : ({ rosterOf s.roster st with lastHeard := some s.now } : RosterRecord) ≠ RosterRecord.none :=
    fun h => nomatch congrArg RosterRecord.lastHeard h
  have hput : rosterOf (setRoster st { rosterOf s.roster st with lastHeard := some s.now } s).roster st
      = { rosterOf s.roster st with lastHeard := some s.now } := by
    unfold rosterOf setRoster tableSet
    exact (if_neg (by exact hne)) ▸ tableGet_of_find (tableFind_put_same _ _ _)
  rw [hput]
  exact nofun

@[simp] theorem noteSource_own (st : Station) (s : State) : (noteSource st s).own = s.own := by
  unfold noteSource
  split <;> rfl

/-- A frame heard goes on with its source noted, so that a record it may move holds a time (R132). -/
theorem runs_hear {st : Station} {acks : Bool} {f : State → State} {s : State}
    (hf : ∀ u, (st ≠ broadcast → st ≠ u.own → (rosterOf u.roster st).lastHeard ≠ none) → Runs u (f u)) :
    Runs s (hear st acks f s) := by
  unfold hear
  split
  · exact Calm.runs {}
  · have hacks : Gentle s { s with ackDriven := acks } := Calm.gentle {}
    exact (hacks.trans (gentle_noteSource st _)).then
      (hf _ fun hb ho => noteSource_lastHeard hb (by simpa using ho))

theorem runs_hearMalformed (st dest : Station) (s : State) : Runs s (hearMalformed st dest s) := runs_hear fun u _ => .refl u

/-- Every frame but a HAIL goes on without touching the roster again. -/
theorem runs_hear_of {st : Station} {acks : Bool} {f : State → State} {s : State} (hf : ∀ u, Runs u (f u)) :
    Runs s (hear st acks f s) := runs_hear fun u _ => hf u

theorem runs_hearAskFrame (st : Station) (i : AskId) (w : Nat) (s : State) : Runs s (hearAskFrame st i w s) :=
  runs_hear_of fun u => by
    split
    · exact Calm.runs {}
    · exact .refl u

theorem runs_hearOfferFrame (st : Station) (i : AskId) (a : Station) (n : Nat) (s : State) : Runs s (hearOfferFrame st i a n s) :=
  runs_hear_of fun u => by
    split
    · exact Calm.runs {}
    · exact .refl u

theorem runs_hearTakeFrame (st dest : Station) (i : AskId) (n : Nat) (m : Moment) (s : State) :
    Runs s (hearTakeFrame st dest i n m s) :=
  runs_hear_of fun u => by
    repeat' split
    · exact runs_perform_one rfl m u
    · exact Calm.runs {}
    · exact .refl u

theorem runs_hearGrantFrame (st dest : Station) (i : AskId) (rs : List GrantRecord) (m : Moment) (s : State) :
    Runs s (hearGrantFrame st dest i rs m s) :=
  runs_hear_of fun u => by
    split
    · exact runs_perform_one rfl m u
    · exact .refl u

theorem runs_hearGivebackFrame (st dest : Station) (ls : List Nat) (m : Moment) (s : State) :
    Runs s (hearGivebackFrame st dest ls m s) :=
  runs_hear_of fun u => by
    split
    · exact runs_perform_one rfl m u
    · exact .refl u

theorem eventTasks_plain (st : Station) (evs : List RosterEvent) : ∀ x ∈ evs.flatMap (eventTasks st), isPlain x = true := by
  intro x hx
  obtain ⟨ev, _, hx⟩ := List.mem_flatMap.mp hx
  cases ev <;> simp [eventTasks] at hx
  case peerPresent => obtain rfl | rfl | rfl := hx <;> rfl
  case peerLost => obtain rfl | rfl | rfl | rfl := hx <;> rfl
  case peerNewEpoch => obtain rfl | rfl | rfl | rfl := hx <;> rfl

/-- A record a HAIL makes PRESENT holds its kind and epoch, and keeps when it was heard. -/
theorem hailRecord_present {r : RosterRecord} {h : HailBody} (hp : (hailRecord r h).1.state = .present) :
    (hailRecord r h).1.kind ≠ none ∧ (hailRecord r h).1.epoch ≠ none ∧ (hailRecord r h).1.lastHeard = r.lastHeard := by
  unfold hailRecord at *
  dsimp only at *
  split at hp
  · cases hp
  · split at hp
    · cases hp
    · rename_i hl
      rw [if_neg hl]
      exact ⟨nofun, nofun, rfl⟩

/-- A record a HAIL ends the presence of raises PEER-LOST (R134, R137). -/
theorem hailRecord_lost {r : RosterRecord} {h : HailBody} (hp : r.state = .present) (hl : (hailRecord r h).1.state ≠ .present) :
    .peerLost ∈ (hailRecord r h).2 := by
  unfold hailRecord at *
  dsimp only at *
  split
  · simp [hp]
  · rename_i e he
    rw [he] at hl
    dsimp only at hl
    split
    · simp
    · rename_i hc
      rw [if_neg hc] at hl
      exact absurd rfl hl

theorem mem_eventTasks_of_lost (st : Station) {evs : List RosterEvent} (h : .peerLost ∈ evs) :
    Task.judgeQuiet ∈ evs.flatMap (eventTasks st) :=
  List.mem_flatMap.mpr ⟨_, h, by simp [eventTasks]⟩

theorem runs_hearHailFrame (st : Station) (h : HailBody) (m : Moment) (s : State) : Runs s (hearHailFrame st h m s) :=
  runs_hear fun u hu => by
    unfold hearHail
    split
    · split
      · exact (gentle_duplicateHeard u).runs
      · exact .refl u
    · rename_i ho
      split
      · exact .refl u
      · rename_i hb
        exact (gentle_setRoster (fun _ => hb)
          (fun hp => have ⟨hkind, hepoch, hheard⟩ := hailRecord_present hp; ⟨hkind, hepoch, hheard ▸ hu hb ho⟩)
          (eventTasks_plain st _) fun hp hl => mem_eventTasks_of_lost st (hailRecord_lost hp hl)).settles m

theorem runs_hearRequester (f : RawFrame) (s : State) : Runs s (hearRequester f s) := by
  unfold hearRequester
  split
  · exact runs_hearMalformed _ _ _
  · refine runs_hear_of fun u => ?_
    split
    · exact Calm.runs {}
    · exact .refl u

theorem runs_hearRaw (f : RawFrame) (m : Moment) (s : State) : Runs s (hearRaw f m s) := by
  unfold hearRaw
  split
  · exact Calm.runs {}
  · split
    · exact runs_hearRequester f s
    · split
      · exact runs_hearAskFrame _ _ _ _
      · exact runs_hearOfferFrame _ _ _ _ _
      · exact runs_hearTakeFrame _ _ _ _ _ _
      · exact runs_hearGrantFrame _ _ _ _ _ _
      · exact runs_hearGivebackFrame _ _ _ _ _
      · exact runs_hearHailFrame _ _ _ _
      · exact runs_hear_of fun u => .refl u
      · exact runs_hearMalformed _ _ _

/-! ## Attempts, requests and the other commands -/

theorem runs_withAttempt {f : Hand → State → State} {s : State} (hf : ∀ h, Runs s (f h s)) : Runs s (withAttempt f s) := by
  unfold withAttempt
  repeat' split
  · exact hf _
  · exact .refl s
  · exact .refl s

theorem gentle_toldEnded (b : FrameBody) (s : State) : Gentle s (toldEnded b s) := by
  unfold toldEnded
  split
  · split
    · exact Calm.gentle {}
    · exact .refl s
  · split
    · exact Calm.gentle {}
    · exact .refl s
  · split
    · split
      · exact Calm.gentle {}
      · exact Calm.gentle {}
    · exact .refl s
  · exact gentle_leavingGone b s

theorem gentle_dropFrame (h : Hand) (s : State) : Gentle s (dropFrame h s) := by
  have hdropped : Gentle s (toldDropped h.frame.body (countUp .framesDropped (report .frameDropped (clearHand s)))) :=
    Calm.gentle {}
  exact hdropped.trans (gentle_leavingGone _ _)

theorem gentle_failAttempt (h : Hand) (s : State) : Gentle s (failAttempt h s) := by
  unfold failAttempt
  repeat' split
  · exact Calm.gentle {}
  · exact Calm.gentle {}
  · exact gentle_dropFrame h s

theorem gentle_loseArbitration (h : Hand) (s : State) : Gentle s (loseArbitration h s) := by
  unfold loseArbitration
  split
  · exact Calm.gentle {}
  · exact Calm.gentle {}

theorem gentle_beginAttempt (s : State) : Gentle s (beginAttempt s) := by
  unfold beginAttempt
  repeat' split
  all_goals exact Calm.gentle {}

/-- A request is taken only when no event is left to take, so that its own replace none (R34). -/
theorem canTake_tasks {s : State} (h : canTake s = true) : s.tasks = [] := by
  simp only [canTake, isBusy, Bool.and_eq_true, Bool.not_eq_true', Bool.or_eq_false_iff, Bool.not_eq_false'] at h
  exact List.isEmpty_iff.mp h.1.1.2

theorem runs_takeRequest {handle : Station → Request → State → Option State} {m : Moment} {s : State}
    (hh : ∀ a r u v, u.tasks = [] → handle a r u = some v → Gentle u v) : Runs s (takeRequest handle m s) := by
  unfold takeRequest
  split
  · rename_i hcan
    split
    · exact .refl s
    · rename_i f rest _
      split
      · rename_i v hv
        have hpop : Gentle s { s with buffer := rest } := Calm.gentle {}
        exact (hpop.trans (hh _ _ _ _ (canTake_tasks hcan :) hv)).settles m
      · exact .refl s
  · exact .refl s

theorem gentle_beginRequest {t : Task} (ht : isPlain t = true) {s : State} (hs : s.tasks = []) : Gentle s (beginRequest t s) := by
  have hreserve : Gentle s (reserveReply s) := Calm.gentle {}
  exact hreserve.trans (gentle_setTasks (by simpa using ht) (by simpa using hs))

/-- A request that is handed to the map engine as an event of its own. -/
theorem gentle_of_some_beginRequest {t : Task} (ht : isPlain t = true) {u v : State} (hu : u.tasks = [])
    (h : some (beginRequest t u) = some v) : Gentle u v := by
  cases h
  exact gentle_beginRequest ht hu

theorem runs_changeBay (bay : Nat) (p : Bool) (m : Moment) (s : State) : Runs s (changeBay bay p m s) := by
  unfold changeBay
  split
  · have hreport : Gentle s (report .bayChange { s with presence := s.presence.set bay p }) := Calm.gentle {}
    exact hreport.then (runs_perform_one rfl m _)
  · exact .refl s

/-- A command that acts while the supply is on runs from the time of its event. -/
theorem shape_whenOn {c : Instr} {m : Moment} {f : State → State} {s : State} (hf : ∀ u, Runs u (f u)) :
    ∃ t, whenOn m f s = .next t ∧ Shape c s t := by
  refine ⟨_, rfl, .runs _ ?_⟩
  split
  · exact (gentle_advance m.time s).then (hf _)
  · exact .refl s

theorem shape_takeRequest {c : Instr} {m : Moment} {handle : Station → Request → State → Option State} {s : State}
    (hh : ∀ a r u v, u.tasks = [] → handle a r u = some v → Gentle u v) :
    ∃ t, whenOn m (takeRequest handle m) s = .next t ∧ Shape c s t :=
  shape_whenOn fun _ => runs_takeRequest hh

/-- Every command answers a next state, of one of four shapes. -/
theorem exec_shape (c : Instr) (s : State) : ∃ t, exec c s = .next t ∧ Shape c s t := by
  cases c with
  | powerOn pins rom takes m => exact ⟨_, rfl, .started m .power pins rom takes rfl⟩
  | resetPin lowFor pins rom takes m =>
    refine ⟨_, rfl, ?_⟩
    dsimp only
    split
    · split
      · exact .started m .pin pins rom takes rfl
      · exact .runs _ (gentle_advance m.time s).runs
    · exact .runs _ (.refl s)
  | powerLoss takes => exact ⟨_, rfl, .supplyLost takes⟩
  | mapMemoryWriteCompletion ok m =>
    refine ⟨_, rfl, ?_⟩
    dsimp only
    split
    · split
      · exact .runs _ (gentle_advance m.time s).runs
      · exact .writeEnded m _ ok ‹_›
    · exact .runs _ (.refl s)
  | bayAbsent bay heldFor m =>
    dsimp only [exec, execBayAbsent]
    refine shape_whenOn fun u => ?_
    have htell : Gentle u (tellLine bay true u) := Calm.gentle {}
    split
    · exact htell.then (runs_changeBay _ _ _ _)
    · exact htell.runs
  | bayPresent bay heldFor m =>
    dsimp only [exec, execBayPresent]
    refine shape_whenOn fun u => ?_
    have htell : Gentle u (tellLine bay false u) := Calm.gentle {}
    split
    · exact htell.then (runs_changeBay _ _ _ _)
    · exact htell.runs
  | serviceAsserted heldFor m =>
    dsimp only [exec, execServiceAsserted]
    refine shape_whenOn fun u => ?_
    repeat' split
    · have hpin : Gentle u { tellService u.profile.serviceActiveHigh u with servicePin := u.profile.serviceActiveHigh } :=
        Calm.gentle {}
      exact (hpin.trans (gentle_enterDrain _)).settles m
    · exact Calm.runs {}
    · exact Calm.runs {}
  | serviceReleased heldFor lines m =>
    dsimp only [exec, execServiceReleased]
    refine shape_whenOn fun u => ?_
    repeat' split
    · have hpin : Gentle u { tellService (!u.profile.serviceActiveHigh) u with
          servicePin := !u.profile.serviceActiveHigh, bayLines := lines } := Calm.gentle {}
      exact hpin.then (runs_perform_one rfl m _)
    · exact Calm.runs {}
    · exact Calm.runs {}
  | requestFrameReceived f m =>
    dsimp only [exec, execRequestFrameReceived]
    refine shape_whenOn fun u => ?_
    repeat' split
    · exact Calm.runs {}
    · exact runs_hearRequester f u
    · exact .refl u
  | ask a i w m =>
    dsimp only [exec, execAsk]
    exact shape_whenOn fun u => runs_hearAskFrame _ _ _ u
  | offer a i b n d m =>
    dsimp only [exec, execOffer]
    refine shape_whenOn fun u => ?_
    split
    · exact runs_hearOfferFrame _ _ _ _ u
    · exact runs_hearMalformed _ _ u
  | take a d i n m =>
    dsimp only [exec, execTake]
    refine shape_whenOn fun u => ?_
    split
    · exact runs_hearTakeFrame _ _ _ _ _ u
    · exact runs_hearMalformed _ _ u
  | grant a d i rs m =>
    dsimp only [exec, execGrant]
    refine shape_whenOn fun u => ?_
    split
    · exact runs_hearGrantFrame _ _ _ _ _ u
    · exact runs_hearMalformed _ _ u
  | giveback a d r ls m =>
    dsimp only [exec, execGiveback]
    refine shape_whenOn fun u => ?_
    split
    · exact runs_hearGivebackFrame _ _ _ _ u
    · exact runs_hearMalformed _ _ u
  | hail a b m =>
    dsimp only [exec, execHail]
    refine shape_whenOn fun u => ?_
    split
    · exact runs_hearHailFrame _ _ _ u
    · exact runs_hearMalformed _ _ u
  | frameHeard f m =>
    dsimp only [exec, execFrameHeard]
    exact shape_whenOn fun u => runs_hearRaw f m u
  | attemptStart m =>
    dsimp only [exec, execAttemptStart]
    refine shape_whenOn fun u => ?_
    split
    · exact (gentle_beginAttempt u).runs
    · exact .refl u
  | arbitrationLost m =>
    dsimp only [exec, execArbitrationLost]
    exact shape_whenOn fun u => runs_withAttempt fun h => (gentle_loseArbitration h u).runs
  | frameEnded m =>
    dsimp only [exec, execFrameEnded]
    refine shape_whenOn fun u => runs_withAttempt fun h => ?_
    have hclear : Gentle u (clearHand u) := Calm.gentle {}
    exact (hclear.trans (gentle_toldEnded _ _)).settles m
  | attemptFailed m =>
    dsimp only [exec, execAttemptFailed]
    exact shape_whenOn fun u => runs_withAttempt fun h => (gentle_failAttempt h u).settles m
  | holdExpiry m =>
    dsimp only [exec, execHoldExpiry]
    refine shape_whenOn fun u => ?_
    repeat' split
    · exact .refl u
    · exact runs_perform_one rfl m u
    · exact .refl u
  | walkerPeriod m =>
    dsimp only [exec, execWalkerPeriod]
    refine shape_whenOn fun u => ?_
    split
    · have htimer : Gentle u { u with walkerTimer := some (u.now + u.profile.walkerPeriod * Config.microsecond) } :=
        Calm.gentle {}
      exact htimer.then (runs_perform_one rfl m _)
    · exact .refl u
  | offerWindowExpiry m =>
    dsimp only [exec, execOfferWindowExpiry]
    refine shape_whenOn fun u => ?_
    split
    · exact Calm.runs {}
    · exact .refl u
  | grantWaitExpiry m =>
    dsimp only [exec, execGrantWaitExpiry]
    refine shape_whenOn fun u => ?_
    split
    · exact Calm.runs {}
    · exact .refl u
  | backoffExpiry m =>
    dsimp only [exec, execBackoffExpiry]
    refine shape_whenOn fun u => ?_
    split
    · have hidle : Gentle u { u with ask := { u.ask with state := .idle, timer := none } } := Calm.gentle {}
      exact hidle.then (runs_perform_one rfl m _)
    · exact .refl u
  | offerTimerExpiry m =>
    dsimp only [exec, execOfferTimerExpiry]
    refine shape_whenOn fun u => ?_
    split
    · exact .refl u
    · split
      · split
        · rename_i v hv
          rw [(offerFrame_some hv).2.2.2]
          exact Calm.runs {}
        · exact Calm.runs {}
      · exact .refl u
  | takeWaitExpiry m =>
    dsimp only [exec, execTakeWaitExpiry]
    refine shape_whenOn fun u => ?_
    split
    · exact Calm.runs {}
    · exact .refl u
  | returnStep m =>
    dsimp only [exec, execReturnStep]
    exact shape_whenOn fun u => runs_perform_one rfl m u
  | peerAgeExpiry a m =>
    dsimp only [exec, execPeerAgeExpiry]
    refine shape_whenOn fun u => ?_
    split
    · rename_i hlost
      have hnum (hr : RosterLaw u) : a ≠ broadcast := by
        rintro rfl
        have hmem := rosterOf_mem (st := broadcast) (s := u) fun hn => by rw [hn] at hlost; exact nomatch hlost.2.1
        exact absurd (hr.numbers _ hmem) (Nat.lt_irrefl 15)
      have hmember : Task.judgeQuiet ∈ eventTasks a .peerLost := by simp [eventTasks]
      have hplain : ∀ x ∈ eventTasks a .peerLost, isPlain x = true := fun x hx =>
        eventTasks_plain a [.peerLost] x (by simpa using hx)
      exact (gentle_setRoster hnum (r := { rosterOf u.roster a with state := .lost }) nofun hplain fun _ _ => hmember).settles m
    · exact .refl u
  | hailTimerExpiry m =>
    dsimp only [exec, execHailTimerExpiry]
    refine shape_whenOn fun u => ?_
    repeat' split
    · exact Calm.runs {}
    · have htimer : Gentle u { u with hailTimer := some (presenceDeadline u) } := Calm.gentle {}
      have hqueue : Gentle { u with hailTimer := some (presenceDeadline u) } (queueHail { u with hailTimer := some (presenceDeadline u) }) := Calm.gentle {}
      exact (htimer.trans hqueue).runs
    · exact .refl u
  | joinTimerExpiry m =>
    dsimp only [exec, execJoinTimerExpiry]
    refine shape_whenOn fun u => ?_
    split
    · rename_i hjoin
      have hjoined : Gentle u { u with joinTimer := none, hailTimer := some (presenceDeadline u) } := Calm.gentle {}
      split
      · have hready : Gentle u (judgeAsk (queueHail { u with
            joinTimer := none, hailTimer := some (presenceDeadline u), cond := .ready
            walkerTimer := some (u.now + u.profile.walkerPeriod * Config.microsecond) })) :=
          Turned.gentle { tasks := ⟨[], by simp⟩, drain := .of_cond (by simp) }
        exact (hready.trans (gentle_judgeService _)).settles m
      · have hhail (v : State) : Gentle v (queueHail v) := Calm.gentle {}
        exact ((hjoined.trans (gentle_enterHalted _)).trans (hhail _)).settles m
    · exact .refl u
  | drainTimerExpiry m =>
    dsimp only [exec, execDrainTimerExpiry]
    refine shape_whenOn fun u => ?_
    split
    · have hoff : Gentle u { u with drainTimer := none } :=
        Turned.gentle { tasks := ⟨[], by simp⟩, drain := fun _ _ h => absurd rfl h }
      refine hoff.then (runs_perform ?_ m _)
      intro x hx
      simp only [List.mem_cons, List.not_mem_nil, or_false] at hx
      obtain rfl | rfl := hx <;> rfl
    · exact .refl u
  | malformedRequest m =>
    dsimp only [exec, execMalformedRequest]
    refine shape_takeRequest fun a r u v hu hv => ?_
    split at hv
    · cases hv; exact Calm.gentle {}
    · cases hv; exact Calm.gentle {}
    · cases hv
  | lookupRead m =>
    dsimp only [exec, execLookupRead]
    refine shape_takeRequest fun a r u v hu hv => ?_
    split at hv
    · cases hv; exact Calm.gentle {}
    · cases hv
  | statusPage0 m =>
    dsimp only [exec, execStatusPage0]
    refine shape_takeRequest fun a r u v hu hv => ?_
    split at hv
    · cases hv; exact Calm.gentle {}
    · cases hv
  | statusPage1 m =>
    dsimp only [exec, execStatusPage1]
    refine shape_takeRequest fun a r u v hu hv => ?_
    split at hv
    · cases hv; exact Calm.gentle {}
    · cases hv
  | clear m =>
    dsimp only [exec, execClear]
    refine shape_takeRequest fun a r u v hu hv => ?_
    split at hv
    · cases hv; exact Calm.gentle {}
    · cases hv
  | lookupWrite m =>
    dsimp only [exec, execLookupWrite]
    refine shape_takeRequest fun a r u v hu hv => ?_
    split at hv
    · exact gentle_of_some_beginRequest rfl hu hv
    · cases hv
  | commit m =>
    dsimp only [exec, execCommit]
    refine shape_takeRequest fun a r u v hu hv => ?_
    split at hv
    · exact gentle_of_some_beginRequest rfl hu hv
    · cases hv
  | trim m =>
    dsimp only [exec, execTrim]
    refine shape_takeRequest fun a r u v hu hv => ?_
    split at hv
    · exact gentle_of_some_beginRequest rfl hu hv
    · cases hv
  | volumeCreate m =>
    dsimp only [exec, execVolumeCreate]
    refine shape_takeRequest fun a r u v hu hv => ?_
    split at hv
    · exact gentle_of_some_beginRequest rfl hu hv
    · cases hv
  | volumeDelete m =>
    dsimp only [exec, execVolumeDelete]
    refine shape_takeRequest fun a r u v hu hv => ?_
    split at hv
    · exact gentle_of_some_beginRequest rfl hu hv
    · cases hv
  | volumeGrow m =>
    dsimp only [exec, execVolumeGrow]
    refine shape_takeRequest fun a r u v hu hv => ?_
    split at hv
    · exact gentle_of_some_beginRequest rfl hu hv
    · cases hv

end Sys2Proof.Machine

/-! What taking one event leaves, and the obligations that follow from it and from what every command comes to. -/

namespace Sys2Proof.Machine

/-! ## What taking an event leaves at once -/

/-- What taking one event leaves at once: no event is added but plain ones, and the laws of the roster and of a drain are kept. -/
structure EventTaken (s t : State) : Prop where
  pending : t.pending = s.pending
  now : s.now ≤ t.now
  tasks : ∀ x ∈ t.tasks, isPlain x = true ∨ x ∈ s.tasks
  roster : RosterLaw s → RosterLaw t
  drain : RosterLaw s → DrainLaw s → DrainLaw t

theorem Gentle.taken {s t : State} (h : Gentle s t) : EventTaken s t where
  pending := h.pending
  now := h.now
  tasks x hx := by
    obtain ⟨ts, ht, hp⟩ := h.tasks
    rw [ht, List.mem_append] at hx
    exact hx.symm.imp_left (hp x)
  roster := h.roster
  drain := h.drain

theorem Calm.taken {s t : State} (h : Calm s t) : EventTaken s t := h.gentle.taken

/-- A calm change with events put before those that wait. -/
theorem Calm.taken_before {s t : State} (h : Calm s t) {ts : List Task} (hts : ∀ x ∈ ts, isPlain x = true) :
    EventTaken s (withTasks (ts ++ s.tasks) t) where
  pending := h.pending
  now := h.now.ge
  tasks x hx := (List.mem_append.mp hx).imp_left (hts x)
  roster hr := hr.of_roster h.roster
  drain _ hd := hd.of_same h.cond h.drainEnded h.drainTimer h.mm h.roster fun hq => List.mem_append_right _ hq

/-- A start that goes on or ends: the roster is empty or as it was, and no drain is on. -/
theorem EventTaken.of_start {s t : State} (hpending : t.pending = s.pending) (hnow : t.now = s.now) (htasks : ∀ x ∈ t.tasks, isPlain x = true)
    (hroster : t.roster = s.roster ∨ t.roster = []) (hcond : t.cond ≠ .drain) : EventTaken s t where
  pending := hpending
  now := hnow.ge
  tasks x hx := .inl (htasks x hx)
  roster hr := by
    obtain h | h := hroster
    · exact hr.of_roster h
    · exact ⟨h ▸ ⟨List.Pairwise.nil, nofun⟩, h ▸ nofun, h ▸ nofun⟩
  drain _ _ := .of_cond hcond

theorem gentle_mapMemError (s : State) : Gentle s (mapMemError s) := by
  have hreport : Gentle s (report .mapMem s) := Calm.gentle {}
  refine hreport.trans ?_
  unfold mapMemError
  dsimp only
  split
  · exact Calm.gentle {}
  · exact Calm.gentle {}
  · exact gentle_enterHalted _
  · exact gentle_enterHalted _
  · have htimer (u : State) : Gentle u (queueHail { u with hailTimer := some (presenceDeadline u) }) := Calm.gentle {}
    exact (gentle_enterHalted _).trans (htimer _)
  · exact .refl _
  · exact .refl _

theorem handbackTasks_plain (b : Bool) (h : Option Handback) : ∀ x ∈ handbackTasks b h, isPlain x = true := by
  cases h <;> simp [handbackTasks, isPlain]

theorem releaseTasks_plain (h : Option Handback) : ∀ x ∈ releaseTasks h, isPlain x = true := by
  cases h <;> simp [releaseTasks, isPlain]

theorem failedRequest_plain (a : Station) (tag v c : Nat) : ∀ x ∈ failedRequest a tag v c, isPlain x = true := by
  simp [failedRequest, isPlain]

theorem unusedTasks_plain (a : Station) (ls : List Nat) : ∀ x ∈ unusedTasks a ls, isPlain x = true := by
  unfold unusedTasks
  split <;> simp [isPlain]

theorem presentTasks_plain (ev : RosterEvent) (a : Station) (s : State) : ∀ x ∈ presentTasks ev a s, isPlain x = true := by
  unfold presentTasks
  split <;> simp [isPlain]

theorem handbackFrames_plain (hs : List (Station × Nat)) : ∀ x ∈ handbackFrames hs, isPlain x = true := by
  intro x hx
  obtain ⟨p, _, hx⟩ := List.mem_flatMap.mp hx
  obtain ⟨ls, _, rfl⟩ := List.mem_map.mp hx
  rfl

theorem seekGrain_also_plain (s : State) (a : Station) (v c tag : Nat) (mm : MapMemory) :
    ∀ x ∈ (seekGrain s a v c tag mm).also, isPlain x = true := by
  unfold seekGrain noGrain
  dsimp only
  repeat' split
  all_goals simp [isPlain]

@[simp] theorem checkHeader_roster (s : State) : (checkHeader s).roster = s.roster := by
  unfold checkHeader
  split <;> simp [enterJoin]

theorem checkHeader_cond (s : State) : (checkHeader s).cond = s.cond ∨ (checkHeader s).cond = .join := by
  unfold checkHeader
  split <;> simp [enterJoin]

theorem checkHeader_tasks (s : State) : (checkHeader s).tasks = s.tasks ∨
    (checkHeader s).tasks = [.raiseRestartCount, .raisePool, .startRollback [], .sweepRetiring, .startDone] := by
  unfold checkHeader
  split <;> simp [enterJoin]

@[simp] theorem checkHeader_pending (s : State) : (checkHeader s).pending = s.pending := by
  unfold checkHeader
  split <;> simp [enterJoin]

@[simp] theorem checkHeader_now (s : State) : (checkHeader s).now = s.now := by
  unfold checkHeader
  split <;> simp [enterJoin]

/-- A start that checks the header, from a state that holds neither roster nor event. -/
theorem checkHeader_taken {s u : State} (hpending : u.pending = s.pending) (hnow : u.now = s.now) (htasks : u.tasks = [])
    (hroster : u.roster = []) (hcond : u.cond = .start) : EventTaken s (checkHeader u) := by
  refine .of_start ((checkHeader_pending u).trans hpending) ((checkHeader_now u).trans hnow) (fun x hx => ?_)
    (.inr ((checkHeader_roster u).trans hroster)) ?_
  · obtain h | h := checkHeader_tasks u
    · rw [h, htasks] at hx
      cases hx
    · rw [h] at hx
      simp only [List.mem_cons, List.not_mem_nil, or_false] at hx
      obtain rfl | rfl | rfl | rfl | rfl := hx <;> rfl
  · obtain h | h := checkHeader_cond u
    · rw [h, hcond]; exact nofun
    · rw [h]; exact nofun

theorem resumeStart_taken (s : State) : EventTaken s (resumeStart s) := checkHeader_taken rfl rfl rfl rfl rfl

theorem failStart_taken (s : State) : EventTaken s (failStart s) := by
  unfold failStart enterJoin
  exact .of_start (by simp) (by simp) (by simp) (.inl (by simp)) (by simp)

theorem endStart_taken (s : State) : EventTaken s (endStart s) := by
  have h : Gentle s (endStart s) := Turned.gentle
    { tasks := ⟨[], by simp [endStart, enterJoin]⟩, drain := .of_cond (by simp [endStart, enterJoin])
      pending := by simp [endStart, enterJoin], now := by simp [endStart, enterJoin], mm := by simp [endStart, enterJoin]
      inflight := by simp [endStart, enterJoin], roster := by simp [endStart, enterJoin] }
  exact h.taken

/-- A request answered in its reserved place. -/
theorem answerReserved_taken (a : Station) (r : Reply) {also : List Task} (halso : ∀ x ∈ also, isPlain x = true) (s : State) :
    EventTaken s (answerReserved a r also s).1 := by
  have h := Calm.taken_before (s := s) {} (ts := also ++ [.reply a r]) (t := s) (by
    intro x hx
    obtain hx | hx := List.mem_append.mp hx
    · exact halso x hx
    · obtain rfl := List.mem_singleton.mp hx
      rfl)
  simpa [answerReserved, noWrite, withTasks] using h

theorem allocate_taken (a : Station) (v c tag : Nat) (old : Option Removal) (s : State) : EventTaken s (allocate a v c tag old s).1 := by
  unfold allocate
  dsimp only
  split
  · exact answerReserved_taken _ _ (by simp) _
  · split
    · exact answerReserved_taken _ _ (by simp) _
    · split
      · exact answerReserved_taken _ _ (seekGrain_also_plain _ _ _ _ _ _) _
      · unfold reserveHandback
        split
        · exact Calm.taken {}
        · exact Calm.taken {}

theorem takeVolume_taken (a : Station) (v tag : Nat) (d : VolumeDecision) (s : State) : EventTaken s (takeVolume a v tag d s).1 := by
  unfold takeVolume writing
  split
  · exact answerReserved_taken _ _ (by simp) _
  · exact Calm.taken {}

/-- Every event, taken, leaves what waits and what the laws say. -/
theorem takeTask_taken (t : Task) (s : State) : EventTaken s (takeTask t s).1 := by
  have calm {u : State} (h : Calm s u) : EventTaken s u := h.taken
  have before {u : State} (h : Calm s u) {ts : List Task} (hts : ∀ x ∈ ts, isPlain x = true) :
      EventTaken s { u with tasks := ts ++ s.tasks } := h.taken_before hts
  have plain_one {x : Task} (hx : isPlain x = true) : ∀ y ∈ [x], isPlain y = true := by simpa using hx
  cases t with
  | lookupWrite a v c tag =>
    simp only [takeTask, takeLookupWrite]
    split
    · exact answerReserved_taken _ _ (by simp) _
    · exact allocate_taken _ _ _ _ _ _
    · exact allocate_taken _ _ _ _ _ _
  | commit a v c tag =>
    simp only [takeTask, takeCommit, writing]
    split
    · exact answerReserved_taken _ _ (by simp) _
    · exact calm {}
  | trim a v f n tag =>
    simp only [takeTask, takeTrim, writing]
    split
    · exact answerReserved_taken _ _ (by simp) _
    · exact calm {}
  | volumeCreate a v n tag => exact takeVolume_taken _ _ _ _ _
  | volumeDelete a v tag => exact takeVolume_taken _ _ _ _ _
  | volumeGrow a v n tag => exact takeVolume_taken _ _ _ _ _
  | mapEvent ev a =>
    cases ev with
    | peerPresent => exact calm (u := s) {}
    | peerLost => exact before (u := s) {} (plain_one (x := .rollback (.requester a)) rfl)
    | peerNewEpoch => exact before (u := s) {} (plain_one (x := .rollback (.requester a)) rfl)
  | rollback which =>
    simp only [takeTask, takeRollback, writing, noWrite]
    repeat' split
    all_goals exact calm {}
  | startRollback hs =>
    simp only [takeTask, takeStartRollback, writing, noWrite]
    split
    · exact before {} (handbackFrames_plain hs)
    · exact calm {}
  | sweepRetiring =>
    simp only [takeTask, takeSweep, writing, noWrite]
    split <;> exact calm {}
  | walk n =>
    simp only [takeTask]
    unfold takeWalk reserveHandback writing noWrite
    dsimp only
    repeat' split
    all_goals exact calm {}
  | takeHeard a i n =>
    simp only [takeTask, takeTake, noWrite]
    repeat' split
    · exact calm {}
    · exact calm {}
    · exact calm {}
    · exact offerFrame_getD (P := fun u => EventTaken s u) _ _ _ (calm {}) (calm {})
    · exact calm (u := s) {}
    · exact calm (u := s) {}
    · exact calm (u := s) {}
  | grantHeard a i rs =>
    have stale : EventTaken s (takeStaleGrant a i rs s).1 := by
      unfold takeStaleGrant noWrite
      split
      · exact calm {}
      · exact before {} (unusedTasks_plain _ _)
    have handed (ls ls' : List Nat) : ∀ x ∈ unusedTasks a ls ++ unusedTasks a ls', isPlain x = true := fun x hx =>
      (List.mem_append.mp hx).elim (unusedTasks_plain _ _ x) (unusedTasks_plain _ _ x)
    simp only [takeTask, takeGrant, noWrite]
    repeat' split
    · exact before {} (handed _ _)
    · exact calm {}
    · exact stale
    · exact stale
    · exact calm {}
  | givebackHeard a ls =>
    simp only [takeTask, takeGiveback, writing, noWrite]
    repeat' split
    all_goals exact calm {}
  | returnStep =>
    simp only [takeTask, takeReturnStep, writing, noWrite]
    repeat' split
    all_goals exact calm {}
  | borrowerEvent ev a =>
    simp only [takeTask, takeBorrowerEvent, writing, noWrite]
    repeat' split
    · exact calm {}
    · exact before {} (presentTasks_plain _ _ _)
    · exact before {} (presentTasks_plain _ _ _)
    · exact calm {}
    · exact before {} (presentTasks_plain _ _ _)
    · exact before {} (presentTasks_plain _ _ _)
    · exact calm (u := s) {}
  | lenderEvent ev a =>
    simp only [takeTask, takeLenderEvent, writing, noWrite]
    repeat' split
    all_goals exact calm {}
  | mapMemError => exact (gentle_mapMemError s).taken
  | judgeQuiet => exact (gentle_judgeQuiet s).taken
  | endForcedDrain =>
    simp only [takeTask, noWrite]
    split
    · have hreport : Gentle s (report .drainForced s) := Calm.gentle {}
      exact (hreport.trans (gentle_endDrain _)).taken
    · exact calm {}
  | resume =>
    simp only [takeTask, noWrite]
    split
    · exact resumeStart_taken s
    · exact calm {}
  | formatFailed =>
    simp only [takeTask, noWrite]
    split
    · have hfail := failStart_taken { s with headerRead := false }
      exact ⟨hfail.pending, hfail.now, hfail.tasks, fun hr => hfail.roster (hr.of_roster rfl), fun hr hd =>
        hfail.drain (hr.of_roster rfl) (hd.of_same rfl rfl rfl rfl rfl id)⟩
    · exact calm {}
  | startFailed =>
    simp only [takeTask, noWrite]
    split
    · exact failStart_taken s
    · exact calm {}
  | startDone =>
    simp only [takeTask, noWrite]
    split
    · exact endStart_taken s
    · exact calm {}
  | raisePool =>
    simp only [takeTask, noWrite, raisePool]
    split
    · exact calm {}
    · exact calm {}
  | giveback reserved lender reason loans =>
    simp only [takeTask, noWrite]
    split
    · exact calm {}
    · exact calm {}
  | freeVolume | formatHeader | formatContents | raiseRestartCount => exact calm (u := s) {}
  | reply | releaseReply | releaseOther | report | count | startAsk | judgeAsk | askSucceeded | failAskOf | granted | endOfferOf
  | emptyLastGrants | emptyLastGrantOf =>
    simp only [takeTask, noWrite]
    exact calm {}

/-! ## The events a write brings with it -/

/-- The end of a DELETE range: the one write whose event makes a volume FREE (R27). -/
structure DeleteEnds (s : State) (w : MapWrite) (r : TrimRange) : Prop where
  done : w.onDone = [.freeVolume r]
  head : ∃ rest, s.mm.trims = r :: rest ∧ w.image = { s.mm with trims := rest }
  origin : r.origin = .delete
  finished : nextEntry s.mm r = none

/-- What a write brings with it, whether it completes or fails, is plain, but for the end of a DELETE range. -/
theorem takeTask_brings {t : Task} {s : State} {w : MapWrite} (h : (takeTask t s).2 = some w) :
    (∀ x ∈ w.goOn ++ w.onFail, isPlain x = true) ∧ ((∀ x ∈ w.onDone, isPlain x = true) ∨ ∃ r, DeleteEnds s w r) := by
  cases t with
  | lookupWrite a v c tag =>
    have of_allocate (old : Option Removal) (h : (allocate a v c tag old s).2 = some w) :
        (∀ x ∈ w.goOn ++ w.onFail, isPlain x = true) ∧ ((∀ x ∈ w.onDone, isPlain x = true) ∨ ∃ r, DeleteEnds s w r) := by
      unfold allocate answerReserved noWrite at h
      dsimp only at h
      repeat' split at h
      all_goals cases h
      refine ⟨fun x hx => ?_, .inl fun x hx => ?_⟩
      · simp only [List.nil_append, List.mem_append] at hx
        exact hx.elim (releaseTasks_plain _ x) (failedRequest_plain _ _ _ _ x)
      · simp only [List.mem_append, List.mem_singleton] at hx
        obtain (hx | hx) | rfl := hx
        · exact handbackTasks_plain _ _ x hx
        · exact seekGrain_also_plain _ _ _ _ _ _ x hx
        · rfl
    simp only [takeTask, takeLookupWrite] at h
    split at h
    · cases h
    · exact of_allocate _ h
    · exact of_allocate _ h
  | walk n =>
    simp only [takeTask] at h
    unfold takeWalk writing at h
    dsimp only at h
    repeat' split at h
    all_goals cases h
    · refine ⟨fun x hx => ?_, .inl (handbackTasks_plain _ _)⟩
      simp only [List.mem_append, List.mem_singleton] at hx
      obtain rfl | hx | rfl := hx
      · rfl
      · exact releaseTasks_plain _ x hx
      · rfl
    · rename_i r rest htrims _ hover _
      refine ⟨by simp [isPlain], ?_⟩
      cases ho : r.origin with
      | trim => exact .inl (by simp [rangeEndTasks, ho, isPlain])
      | delete => exact .inr ⟨r, by simp [rangeEndTasks, ho], ⟨rest, htrims, rfl⟩, ho, hover⟩
  | grantHeard a i rs =>
    simp only [takeTask, takeGrant, takeStaleGrant] at h
    repeat' split at h
    all_goals cases h
    refine ⟨by simp [isPlain], .inl fun x hx => ?_⟩
    simp only [List.mem_cons, List.mem_append] at hx
    obtain rfl | hx | hx := hx
    · rfl
    · exact unusedTasks_plain _ _ x hx
    · exact unusedTasks_plain _ _ x hx
  | rollback which =>
    simp only [takeTask, takeRollback] at h
    repeat' split at h
    all_goals cases h
    exact ⟨by simp [isPlain], .inl (handbackTasks_plain _ _)⟩
  | borrowerEvent ev a =>
    simp only [takeTask, takeBorrowerEvent] at h
    repeat' split at h
    all_goals cases h
    all_goals
      refine ⟨fun x hx => ?_, .inl (by simp [isPlain])⟩
      obtain hx | hx := List.mem_append.mp hx
      · exact presentTasks_plain _ _ _ x hx
      · obtain rfl := List.mem_singleton.mp hx
        rfl
  | volumeCreate a v n tag | volumeDelete a v tag | volumeGrow a v n tag =>
    simp only [takeTask, takeVolume] at h
    split at h
    · cases h
    · cases h
      exact ⟨by simp [failedRequest, isPlain], .inl (by simp [isPlain])⟩
  | _ =>
    simp only [takeTask, takeCommit, takeTrim, takeTake, takeGiveback, takeReturnStep, takeMapEvent, takeLenderEvent, takeStartRollback,
      takeSweep, writing, noWrite, answerReserved, takeFreeVolume, takeFormatHeader, takeFormatContents, takeRestartCount] at h
    repeat' split at h
    all_goals cases h
    all_goals exact ⟨by simp [failedRequest, isPlain], .inl (by simp [isPlain])⟩

/-! ## Commands, carried through -/

theorem work_pending_now (n : Nat) (fates : List WriteFate) (s : State) :
    (work n fates s).pending = s.pending ∧ s.now ≤ (work n fates s).now := by
  refine work_keeps (I := fun u => u.pending = s.pending ∧ s.now ≤ u.now) ?_ ?_ n fates s ⟨rfl, Nat.le_refl _⟩
  · intro t rest u u' ⟨hp, hn⟩ _ _ e
    have h := takeTask_taken t (withTasks rest u)
    rw [e] at h
    exact ⟨h.pending.trans hp, hn.trans h.now⟩
  · intro t rest u u' w ⟨hp, hn⟩ _ _ e
    have h := takeTask_taken t (withTasks rest u)
    rw [e] at h
    have hu' : u'.pending = s.pending ∧ s.now ≤ u'.now := ⟨h.pending.trans hp, hn.trans h.now⟩
    exact ⟨hu', hu', hu'⟩

theorem fullStart_pending_now (cause : RestartCause) (pins : StartPins) (rom : Option ProfileRom) (s : State) :
    (fullStart cause pins rom s).pending = s.pending ∧ (fullStart cause pins rom s).now = s.now := by
  have hclamped (b : Bool) (u : State) : (reportClamped b u).pending = u.pending ∧ (reportClamped b u).now = u.now := by
    unfold reportClamped
    split <;> simp
  unfold fullStart
  dsimp only
  split
  · simp [enterJoin, hclamped, blankStart]
  · split
    · simp [hclamped, blankStart]
    · simp [hclamped, blankStart]

/-- Settles O2: gentle changes, events taken, a start and a loss of supply all keep the waiting commands and the time. -/
theorem commandsComplete : Obligations.CommandsComplete := by
  intro c s
  obtain ⟨t, he, hshape⟩ := exec_shape c s
  refine ⟨t, he, ?_⟩
  cases hshape with
  | runs t h =>
    obtain h | ⟨m, u, h, rfl⟩ := h
    · exact ⟨h.pending, h.now⟩
    · obtain ⟨hp, hn⟩ := work_pending_now workBound m.writes u
      exact ⟨hp.trans h.pending, h.now.trans hn⟩
  | writeEnded m w ok hw =>
    obtain ⟨hp, hn⟩ := work_pending_now workBound m.writes
      (if ok then completeWrite w (advance m.time s) else failWrite w (advance m.time s))
    refine ⟨hp.trans ?_, le_trans ?_ hn⟩
    · split <;> rfl
    · have hmax : s.now ≤ max s.now m.time := Nat.le_max_left _ _
      split <;> exact hmax
  | started m cause pins rom takes _ =>
    obtain ⟨hp, hn⟩ := work_pending_now workBound m.writes
      (fullStart cause pins rom { advance m.time s with mm := settleMemory takes s })
    obtain ⟨hsp, hsn⟩ := fullStart_pending_now cause pins rom { advance m.time s with mm := settleMemory takes s }
    exact ⟨hp.trans hsp, (Nat.le_max_left _ _).trans (hsn ▸ hn)⟩
  | supplyLost takes => exact ⟨rfl, Nat.le_refl _⟩

/-- A step is a command with the queue's rest, or the idling of a station that has none (R157; log entries 3 and 5). -/
theorem step_cases (s : State) : step s = .next s ∨ ∃ c rest, s.pending = c :: rest ∧ step s = exec c { s with pending := rest } := by
  unfold step
  split
  · exact .inl rfl
  · rename_i c rest hp
    exact .inr ⟨c, rest, hp, rfl⟩

/-! ## The epoch (R130) -/

/-- Whether an event is a stage of a format. -/
def isFormat (t : Task) : Bool :=
  match t with
  | .formatHeader => true
  | .formatContents => true
  | _ => false

theorem isFormat_of_plain {t : Task} (h : isPlain t = true) : isFormat t = false := by
  cases t <;> first | rfl | cases h

theorem judgements_plain (b : Bool) (before after : State) : ∀ x ∈ judgements b before after, isPlain x = true := by
  unfold judgements
  intro x hx
  obtain hx | hx := List.mem_append.mp hx
  all_goals
    split at hx
    · obtain rfl := List.mem_singleton.mp hx
      rfl
    · cases hx

/-- The station's epoch and geometry record are as given, and no stage of a format is to come. -/
structure EpochStays (e : Option Epoch) (g : Option Geometry) (s : State) : Prop where
  epoch : s.mm.header.map Header.epoch = e
  geometry : s.mm.geometry = g
  tasks : ∀ x ∈ s.tasks, isFormat x = false

end Sys2Proof.Machine

/-! The epoch, the volumes and the drain over every step. -/

namespace Sys2Proof.Machine

theorem EpochStays.of_taken {e : Option Epoch} {g : Option Geometry} {t : Task} {rest : List Task} {s s' : State} {o : Option MapWrite}
    (h : EpochStays e g s) (ht : s.tasks = t :: rest) (htaken : takeTask t (withTasks rest s) = (s', o)) :
    EpochStays e g s' := by
  have hstate := takeTask_taken t (withTasks rest s)
  have hmm := (takeTask_atOnce t (withTasks rest s)).1
  rw [htaken] at hstate hmm
  refine ⟨by rw [hmm]; exact h.epoch, by rw [hmm]; exact h.geometry, fun x hx => ?_⟩
  obtain hp | hx := hstate.tasks x hx
  · exact isFormat_of_plain hp
  · exact h.tasks x (ht ▸ List.mem_cons_of_mem _ hx)

/-- No event but a stage of a format writes another epoch (R130). -/
theorem takeTask_header {t : Task} {s : State} {w : MapWrite} (hf : isFormat t = false) (h : (takeTask t s).2 = some w) :
    w.image.header.map Header.epoch = s.mm.header.map Header.epoch ∧ w.image.geometry = s.mm.geometry := by
  cases hp : isPlain t with
  | true => exact (takeTask_plainWriteOf hp h).header
  | false =>
    cases t with
    | freeVolume r => cases h; exact ⟨rfl, rfl⟩
    | formatHeader => cases hf
    | formatContents => cases hf
    | _ => cases hp

theorem brings_not_format {t : Task} {s : State} {w : MapWrite} (h : (takeTask t s).2 = some w) :
    (∀ x ∈ w.onDone, isFormat x = false) ∧ ∀ x ∈ w.goOn ++ w.onFail, isFormat x = false := by
  obtain ⟨hrest, hdone⟩ := takeTask_brings h
  refine ⟨fun x hx => ?_, fun x hx => isFormat_of_plain (hrest x hx)⟩
  obtain hp | ⟨r, hr⟩ := hdone
  · exact isFormat_of_plain (hp x hx)
  · rw [hr.done] at hx
    obtain rfl := List.mem_singleton.mp hx
    rfl

theorem work_epochStays {e : Option Epoch} {g : Option Geometry} (n : Nat) (fates : List WriteFate) {s : State}
    (h : EpochStays e g s) : EpochStays e g (work n fates s) := by
  refine work_keeps (I := EpochStays e g) (fun t rest u u' hu _ ht htaken => hu.of_taken ht htaken) ?_ n fates s h
  intro t rest u u' w hu _ ht htaken
  have hleft := hu.of_taken ht htaken
  have hwrite : (takeTask t (withTasks rest u)).2 = some w := by rw [htaken]
  have himage := takeTask_header (hu.tasks t (ht ▸ List.mem_cons_self)) hwrite
  obtain ⟨hdone, hrest⟩ := brings_not_format hwrite
  refine ⟨⟨himage.1.trans hu.epoch, himage.2.trans hu.geometry, fun x hx => ?_⟩, ⟨hleft.epoch, hleft.geometry, fun x hx => ?_⟩,
    hleft.epoch, hleft.geometry, hleft.tasks⟩
  · simp only [completeWrite, List.mem_append] at hx
    obtain ((hx | hx) | hx) | hx := hx
    · exact hdone x hx
    · exact isFormat_of_plain (judgements_plain _ _ _ x hx)
    · exact hrest x (List.mem_append_left _ hx)
    · exact hleft.tasks x hx
  · simp only [failWrite, List.mem_append] at hx
    obtain hx | hx := hx
    · exact hrest x (List.mem_append_right _ hx)
    · exact hleft.tasks x hx

/-- Settles O13: a station at rest that no full start takes runs gentle changes and plain events, and those write no epoch. -/
theorem epochKept : Obligations.EpochKept := by
  intro c s t ⟨_, hidle, htasks⟩ hpower hreset he
  obtain ⟨t', he', hshape⟩ := exec_shape c s
  obtain rfl : t' = t := by
    rw [he] at he'
    cases he'
    rfl
  cases hshape with
  | runs _ hruns =>
    have of_gentle {u : State} (h : Gentle s u) : EpochStays (s.mm.header.map Header.epoch) s.mm.geometry u := by
      obtain ⟨ts, ht, hp⟩ := h.tasks
      refine ⟨by rw [h.mm], by rw [h.mm], fun x hx => isFormat_of_plain (hp x ?_)⟩
      simpa [ht, htasks] using hx
    obtain h | ⟨m, u, h, rfl⟩ := hruns
    · exact ⟨(of_gentle h).epoch, (of_gentle h).geometry⟩
    · have hdone := work_epochStays workBound m.writes (of_gentle h)
      exact ⟨hdone.epoch, hdone.geometry⟩
  | writeEnded m w ok hw => rw [hidle] at hw; cases hw
  | started m cause pins rom takes hc =>
    cases c with
    | powerOn pins rom takes m => exact absurd rfl (hpower _ _ _ _)
    | resetPin lowFor pins rom takes m => exact absurd rfl (hreset _ _ _ _ _)
    | _ => cases hc
  | supplyLost takes =>
    have hsettled : settleMemory takes s = s.mm := by
      unfold settleMemory
      rw [hidle]
    exact ⟨by rw [hsettled], by rw [hsettled]⟩

/-! ## Volumes made FREE (R27) -/

theorem isFreeing_of_plain {t : Task} (h : isPlain t = true) : isFreeing t = false := by
  cases t <;> first | rfl | cases h

/-- With no such event waiting, and no write in progress, no volume is to be made FREE. -/
theorem FreeLaw.of_none {s : State} (ht : ∀ x ∈ s.tasks, isFreeing x = false) (hi : s.inflight = none) : FreeLaw s where
  next := List.all_eq_true.mpr fun x hx => by rw [ht x (List.mem_of_mem_drop hx)]; rfl
  head r rest h := by
    have hr := ht (.freeVolume r) (h ▸ List.mem_cons_self)
    cases hr
  write w hw := by
    rw [hi] at hw
    cases hw

/-- After the event at the front, none that makes a volume FREE waits. -/
theorem FreeLaw.rest {s : State} (h : FreeLaw s) {t : Task} {rest : List Task} (ht : s.tasks = t :: rest) :
    ∀ x ∈ rest, isFreeing x = false := by
  have hnext := h.next
  rw [ht] at hnext
  simpa using hnext

theorem FreeLaw.left {s s' : State} (h : FreeLaw s) {t : Task} {rest : List Task} {o : Option MapWrite} (ht : s.tasks = t :: rest)
    (htaken : takeTask t (withTasks rest s) = (s', o)) : ∀ x ∈ s'.tasks, isFreeing x = false := by
  have hstate := takeTask_taken t (withTasks rest s)
  rw [htaken] at hstate
  intro x hx
  obtain hp | hx := hstate.tasks x hx
  · exact isFreeing_of_plain hp
  · exact h.rest ht x hx

/-- A write that carries the law: its image keeps the volumes, and the volume it has made FREE after it is emptied. -/
structure FreesEmptied (w : MapWrite) : Prop where
  rest : ∀ x ∈ w.onDone.drop 1 ++ w.goOn ++ w.onFail, isFreeing x = false
  head : ∀ r ts, w.onDone = .freeVolume r :: ts → Emptied w.image r.volume

theorem takeTask_freesEmptied {t : Task} {s : State} {w : MapWrite} (hc : Canonical s.mm) (hv : VolumeLaw s.mm)
    (h : (takeTask t s).2 = some w) : FreesEmptied w := by
  obtain ⟨hrest, hdone⟩ := takeTask_brings h
  obtain hp | ⟨r, hr⟩ := hdone
  · refine ⟨fun x hx => ?_, fun r ts hd => ?_⟩
    · simp only [List.append_assoc, List.mem_append] at hx
      obtain hx | hx := hx
      · exact isFreeing_of_plain (hp x (List.mem_of_mem_drop hx))
      · exact isFreeing_of_plain (hrest x (List.mem_append.mpr hx))
    · have hpr := hp (.freeVolume r) (hd ▸ List.mem_cons_self)
      cases hpr
  · obtain ⟨rest, htrims, himage⟩ := hr.head
    refine ⟨fun x hx => ?_, fun r' ts hd => ?_⟩
    · rw [hr.done] at hx
      exact isFreeing_of_plain (hrest x (by simpa using hx))
    · rw [hr.done] at hd
      obtain ⟨h1, _⟩ := List.cons.inj hd
      obtain rfl := Task.freeVolume.inj h1
      rw [himage]
      exact rangeEnd_emptied hc htrims hr.finished hr.origin hv

/-- The write of an event keeps the volumes' law, where a volume it makes FREE is emptied (R27). -/
theorem takeTask_volumeLaw {t : Task} {s : State} {w : MapWrite} (hs : Shaped s.mm) (hv : VolumeLaw s.mm)
    (hfree : ∀ r, t = .freeVolume r → Emptied s.mm r.volume) (h : (takeTask t s).2 = some w) : VolumeLaw w.image := by
  cases hp : isPlain t with
  | true => exact (takeTask_plainWriteOf hp h).volumeLaw hs hv
  | false =>
    cases t with
    | freeVolume r => cases h; exact freeVolume_volumeLaw hs.1 (hfree r rfl) hv
    | formatHeader => cases h; exact hv.of_unchanged rfl rfl rfl
    | formatContents => cases h; exact formatContents_volumeLaw _ _
    | _ => cases hp

/-- What the volumes' law needs of a station. -/
def volumesHold (s : State) : Prop := memoryHolds (fun mm => Canonical mm ∧ Fits mm ∧ VolumeLaw mm) s ∧ FreeLaw s

/-- A write that completes leaves the law holding. -/
theorem volumesHold_completeWrite {w : MapWrite} {s : State} (hw : Canonical w.image ∧ Fits w.image ∧ VolumeLaw w.image)
    (hf : FreesEmptied w) (ht : ∀ x ∈ s.tasks, isFreeing x = false) : volumesHold (completeWrite w s) := by
  refine ⟨⟨hw, by simp⟩, ?_⟩
  have hjudge (b : Bool) (u v : State) : ∀ x ∈ judgements b u v, isFreeing x = false := fun x hx =>
    isFreeing_of_plain (judgements_plain _ _ _ x hx)
  obtain hdone | ⟨r, ts, hdone⟩ : (∀ x ∈ w.onDone, isFreeing x = false) ∨ ∃ r ts, w.onDone = .freeVolume r :: ts := by
    cases hd : w.onDone with
    | nil => exact .inl nofun
    | cons y ts =>
      have hts : ∀ x ∈ ts, isFreeing x = false := fun x hx => hf.rest x (by simp [hd, hx])
      cases y with
      | freeVolume r => exact .inr ⟨r, ts, rfl⟩
      | _ => exact .inl fun x hx => (List.mem_cons.mp hx).elim (fun h => h ▸ rfl) (hts x)
  · refine .of_none (fun x hx => ?_) rfl
    simp only [completeWrite, List.mem_append] at hx
    obtain ((hx | hx) | hx) | hx := hx
    · exact hdone x hx
    · exact hjudge _ _ _ x hx
    · exact hf.rest x (by simp [hx])
    · exact ht x hx
  · refine ⟨List.all_eq_true.mpr fun x hx => ?_, fun r' rest h => ?_, by simp⟩
    · simp only [completeWrite, hdone, List.cons_append, List.drop_succ_cons, List.drop_zero, List.mem_append] at hx
      obtain ((hx | hx) | hx) | hx := hx
      · rw [hf.rest x (by simp [hdone, hx])]; rfl
      · rw [hjudge _ _ _ x hx]; rfl
      · rw [hf.rest x (by simp [hx])]; rfl
      · rw [ht x hx]; rfl
    · simp only [completeWrite, hdone, List.cons_append, List.cons.injEq, Task.freeVolume.injEq] at h
      exact ⟨rfl, h.1 ▸ hf.head r ts hdone⟩

theorem volumesHold_failWrite {w : MapWrite} {s : State} (hm : Canonical s.mm ∧ Fits s.mm ∧ VolumeLaw s.mm)
    (hf : FreesEmptied w) (ht : ∀ x ∈ s.tasks, isFreeing x = false) : volumesHold (failWrite w s) := by
  refine ⟨⟨hm, by simp⟩, .of_none (fun x hx => ?_) rfl⟩
  simp only [failWrite, List.mem_append] at hx
  exact hx.elim (fun hx => hf.rest x (by simp [hx])) (ht x)

theorem work_volumesHold (n : Nat) (fates : List WriteFate) {s : State} (h : volumesHold s) : volumesHold (work n fates s) := by
  refine work_keeps (I := volumesHold) ?_ ?_ n fates s h
  · intro t rest u u' ⟨hm, hf⟩ hi ht htaken
    have hat := takeTask_atOnce t (withTasks rest u)
    rw [htaken] at hat
    exact ⟨memoryHolds_of_none hm hat.1 (hat.2 hi), .of_none (hf.left ht htaken) (hat.2 hi)⟩
  · intro t rest u u' w ⟨hm, hf⟩ hi ht htaken
    have hat := takeTask_atOnce t (withTasks rest u)
    have hwrite : (takeTask t (withTasks rest u)).2 = some w := by rw [htaken]
    have hleft := hf.left ht htaken
    obtain ⟨hc, hfit, hv⟩ := hm.1
    have hshaped : Shaped w.image := (takeTask_writeOf hwrite).shaped ⟨hc, hfit⟩
    have himage : VolumeLaw w.image := takeTask_volumeLaw (s := withTasks rest u) ⟨hc, hfit⟩ hv
      (fun r hr => (hf.head r rest (hr ▸ ht)).2) hwrite
    have hfrees : FreesEmptied w := takeTask_freesEmptied (s := withTasks rest u) hc hv hwrite
    rw [htaken] at hat
    have hmm : Canonical u'.mm ∧ Fits u'.mm ∧ VolumeLaw u'.mm := hat.1 ▸ ⟨hc, hfit, hv⟩
    refine ⟨volumesHold_completeWrite ⟨hshaped.1, hshaped.2, himage⟩ hfrees hleft, volumesHold_failWrite hmm hfrees hleft,
      ⟨hmm, fun v hv => ?_⟩, ?_, ?_, ?_⟩
    · cases hv
      exact ⟨hshaped.1, hshaped.2, himage⟩
    · exact List.all_eq_true.mpr fun x hx => by rw [hleft x (List.mem_of_mem_drop hx)]; rfl
    · intro r rest' h
      have hr := hleft (.freeVolume r) (h ▸ List.mem_cons_self)
      cases hr
    · intro v hv
      cases hv
      exact ⟨List.all_eq_true.mpr fun x hx => by rw [hfrees.rest x hx]; rfl, hfrees.head⟩

theorem Gentle.volumesHold {s t : State} (h : Gentle s t) (hs : volumesHold s) : volumesHold t := by
  obtain ⟨hm, hf⟩ := hs
  obtain ⟨ts, ht, hp⟩ := h.tasks
  refine ⟨memoryHolds_of_eq hm h.mm h.inflight, ?_, ?_, ?_⟩
  · have hnext := List.all_eq_true.mp hf.next
    refine List.all_eq_true.mpr fun x hx => ?_
    cases hs : s.tasks with
    | nil =>
      rw [ht, hs, List.nil_append] at hx
      rw [isFreeing_of_plain (hp x (List.mem_of_mem_drop hx))]
      rfl
    | cons y rest =>
      rw [hs] at hnext
      simp only [ht, hs, List.cons_append, List.drop_succ_cons, List.drop_zero, List.mem_append] at hx hnext
      obtain hx | hx := hx
      · exact hnext x hx
      · rw [isFreeing_of_plain (hp x hx)]
        rfl
  · intro r rest hr
    rw [h.inflight, h.mm]
    cases hs : s.tasks with
    | nil =>
      rw [ht, hs, List.nil_append] at hr
      have hpr := hp (.freeVolume r) (hr ▸ List.mem_cons_self)
      cases hpr
    | cons y rest' =>
      rw [ht, hs, List.cons_append] at hr
      obtain ⟨rfl, _⟩ := List.cons.inj hr
      exact hf.head r rest' hs
  · intro w hw
    exact hf.write w (h.inflight ▸ hw)

/-- While a write is in progress, no event that waits makes a volume FREE. -/
theorem FreeLaw.waiting {s : State} (h : FreeLaw s) {w : MapWrite} (hw : s.inflight = some w) : ∀ x ∈ s.tasks, isFreeing x = false := by
  intro x hx
  cases ht : s.tasks with
  | nil => rw [ht] at hx; cases hx
  | cons y rest =>
    rw [ht] at hx
    obtain rfl | hx := List.mem_cons.mp hx
    · cases x with
      | freeVolume r =>
        have hidle := (h.head r rest ht).1
        rw [hw] at hidle
        cases hidle
      | _ => rfl
    · exact h.rest ht x hx

theorem fullStart_tasks_plain (cause : RestartCause) (pins : StartPins) (rom : Option ProfileRom) (s : State) :
    ∀ x ∈ (fullStart cause pins rom s).tasks, isFreeing x = false := by
  have hclamped (b : Bool) (u : State) : (reportClamped b u).tasks = u.tasks := by
    unfold reportClamped
    split <;> simp
  intro x hx
  unfold fullStart at hx
  dsimp only at hx
  split at hx
  · simp [enterJoin, hclamped, blankStart, State.reset] at hx
  · split at hx
    · simp only [List.mem_cons, List.not_mem_nil, or_false] at hx
      obtain rfl | rfl | rfl | rfl := hx <;> rfl
    · rename_i r _ _
      obtain h | h := checkHeader_tasks (reportClamped (decide (pins.strap = 15) || profileClamped r.values)
        { blankStart cause pins s with
          profile := clampProfile r.values, profileRead := true
          faults := { (blankStart cause pins s).faults with enables := (clampProfile r.values).alertEnables } })
      · rw [h] at hx
        simp [hclamped, blankStart, State.reset] at hx
      · rw [h] at hx
        simp only [List.mem_cons, List.not_mem_nil, or_false] at hx
        obtain rfl | rfl | rfl | rfl | rfl := hx <;> rfl

/-- Settles O7: every shape of a command keeps the volumes' law and the law of the volume that is next to be FREE. -/
theorem volumesKept : Obligations.VolumesKept := by
  intro s t hm hf he
  have hold : volumesHold s := ⟨hm, hf⟩
  obtain hidle | ⟨c, rest, hp, hcmd⟩ := step_cases s
  · rw [hidle] at he
    cases he
    exact hold
  · have hold' : volumesHold { s with pending := rest } := ⟨memoryHolds_of_eq hm rfl rfl, hf.next, hf.head, hf.write⟩
    obtain ⟨t', he', hshape⟩ := exec_shape c { s with pending := rest }
    obtain rfl : t' = t := by
      rw [hcmd, he'] at he
      cases he
      rfl
    have law_of (u : State) (h : volumesHold u) :
        memoryHolds (fun mm => Canonical mm ∧ Fits mm ∧ VolumeLaw mm) u ∧ FreeLaw u := h
    refine law_of _ ?_
    cases hshape with
    | runs _ hruns =>
      obtain h | ⟨m, u, h, rfl⟩ := hruns
      · exact h.volumesHold hold'
      · exact work_volumesHold _ _ (h.volumesHold hold')
    | writeEnded m w ok hw =>
      obtain ⟨hrest, hhead⟩ := hf.write w hw
      have hfrees : FreesEmptied w := ⟨fun x hx => by simpa using List.all_eq_true.mp hrest x hx, hhead⟩
      refine work_volumesHold _ _ ?_
      split
      · exact volumesHold_completeWrite (hm.2 w hw) hfrees (hf.waiting hw)
      · exact volumesHold_failWrite hm.1 hfrees (hf.waiting hw)
    | started m cause pins rom takes hc =>
      have hmm := fullStart_memory cause pins rom { advance m.time { s with pending := rest } with mm := settleMemory takes { s with pending := rest } }
        (settleMemory_law takes hold'.1)
      exact work_volumesHold _ _ ⟨hmm, .of_none (fullStart_tasks_plain _ _ _ _) (fullStart_mm _ _ _ _).2⟩
    | supplyLost takes =>
      exact ⟨⟨settleMemory_law takes hold'.1, by simp [State.reset]⟩, .of_none nofun rfl⟩

end Sys2Proof.Machine

/-! A drain over every step (R163, R164). -/

namespace Sys2Proof.Machine

/-- By the law of the spares, a lender's spare count is read off the spare list. -/
theorem spare_of_spares {mm mm' : MapMemory} (h : SpareLaw mm) (h' : SpareLaw mm') (hs : mm'.spares = mm.spares) {k : Nat} (hk : k < 15) :
    (tableGet PeerCapacity.none mm'.peers k).spare = (tableGet PeerCapacity.none mm.peers k).spare := by
  have hnum : (BitVec.ofNat 4 k).toNat = k := by
    rw [BitVec.toNat_ofNat]
    omega
  have hcount := h.counts (BitVec.ofNat 4 k)
  have hcount' := h'.counts (BitVec.ofNat 4 k)
  rw [peerOf, hnum] at hcount hcount'
  rw [hcount, hcount', hs]

/-- A write that leaves the pending list, the trim queue and the spare list alone leaves the quiet condition as it was. -/
theorem quietCondition_of_lists {s t : State} (hr : RosterLaw s) (hroster : t.roster = s.roster) (h : SpareLaw s.mm)
    (h' : SpareLaw t.mm) (hp : t.mm.pendings = s.mm.pendings) (htr : t.mm.trims = s.mm.trims) (hs : t.mm.spares = s.mm.spares) :
    quietCondition t = quietCondition s := by
  have hpeers : ∀ p ∈ s.roster,
      (decide (p.2.state ≠ .present) || decide ((tableGet PeerCapacity.none t.mm.peers p.1).spare = 0))
        = (decide (p.2.state ≠ .present) || decide ((tableGet PeerCapacity.none s.mm.peers p.1).spare = 0)) := fun p hp => by
    rw [spare_of_spares h h' hs (hr.numbers p hp)]
  unfold quietCondition
  rw [hp, htr, hroster]
  congr 1
  rw [Bool.eq_iff_iff, List.all_eq_true, List.all_eq_true]
  exact forall₂_congr fun p hp => by rw [hpeers p hp]

/-- What the law of a drain needs of a station. -/
structure DrainsHold (s : State) : Prop where
  memory : memoryHolds (fun mm => Canonical mm ∧ Fits mm ∧ SpareLaw mm) s
  roster : RosterLaw s
  drain : DrainLaw s

theorem spares_writesKeep : WritesKeep fun mm => Canonical mm ∧ Fits mm ∧ SpareLaw mm :=
  writesKeep_of fun _ _ ⟨hc, hf, hl⟩ w => ⟨w.canonical hc, w.fits hc hf, w.spareLaw hc hl⟩

/-- A write that completes brings the judging of the quiet condition where it changes what that reads. -/
theorem completeWrite_drainLaw {w : MapWrite} {s : State} (hr : RosterLaw s) (h : SpareLaw s.mm) (h' : SpareLaw w.image)
    (hd : DrainLaw s) : DrainLaw (completeWrite w s) := by
  intro hc he ht
  by_cases hlists : s.mm.pendings ≠ w.image.pendings ∨ s.mm.trims ≠ w.image.trims ∨ s.mm.spares ≠ w.image.spares
  · right
    have hjudge : Task.judgeQuiet ∈ judgements w.takes s { s with mm := w.image, rotor := w.rotor, inflight := none } := by
      unfold judgements
      rw [if_pos hlists]
      simp
    simp only [completeWrite, List.mem_append]
    exact .inl (.inl (.inr hjudge))
  · obtain ⟨hp, htr, hs⟩ : s.mm.pendings = w.image.pendings ∧ s.mm.trims = w.image.trims ∧ s.mm.spares = w.image.spares := by
      simpa using hlists
    rw [quietCondition_of_lists (s := s) (t := completeWrite w s) hr rfl h h' hp.symm htr.symm hs.symm]
    exact (hd hc he ht).imp_right fun hq => List.mem_append_right _ hq

theorem failWrite_drainLaw {w : MapWrite} {s : State} (hd : DrainLaw s) : DrainLaw (failWrite w s) :=
  hd.of_same rfl rfl rfl rfl rfl (List.mem_append_right _)

/-- The event at the front gone: if it was the judging of the quiet condition, that has been done. -/
theorem takeTask_drainLaw {t : Task} {rest : List Task} {s : State} (hr : RosterLaw s) (hd : DrainLaw s) (ht : s.tasks = t :: rest) :
    DrainLaw (takeTask t (withTasks rest s)).1 := by
  by_cases hq : t = .judgeQuiet
  · rw [hq]
    exact judgeQuiet_drainLaw _
  · have hrest : DrainLaw (withTasks rest s) := hd.of_same rfl rfl rfl rfl rfl fun h => by
      rw [ht] at h
      exact (List.mem_cons.mp h).resolve_left (Ne.symm hq)
    exact (takeTask_taken t (withTasks rest s)).drain (hr.of_roster rfl) hrest

theorem work_drainsHold (n : Nat) (fates : List WriteFate) {s : State} (h : DrainsHold s) : DrainsHold (work n fates s) := by
  refine work_keeps (I := DrainsHold) ?_ ?_ n fates s h
  · intro t rest u u' hu hi ht htaken
    have hat := takeTask_atOnce t (withTasks rest u)
    have hdrain := takeTask_drainLaw hu.roster hu.drain ht
    have hroster := (takeTask_taken t (withTasks rest u)).roster (hu.roster.of_roster rfl)
    rw [htaken] at hat hdrain hroster
    exact ⟨memoryHolds_of_none hu.memory hat.1 (hat.2 hi), hroster, hdrain⟩
  · intro t rest u u' w hu hi ht htaken
    have hat := takeTask_atOnce t (withTasks rest u)
    have hdrain := takeTask_drainLaw hu.roster hu.drain ht
    have hroster := (takeTask_taken t (withTasks rest u)).roster (hu.roster.of_roster rfl)
    have himage := spares_writesKeep t (withTasks rest u) w hu.memory.1 (by rw [htaken])
    rw [htaken] at hat hdrain hroster
    have hmm : Canonical u'.mm ∧ Fits u'.mm ∧ SpareLaw u'.mm := hat.1 ▸ hu.memory.1
    refine ⟨⟨⟨himage, by simp⟩, hroster.of_roster rfl, completeWrite_drainLaw hroster hmm.2.2 himage.2.2 hdrain⟩,
      ⟨⟨hmm, by simp⟩, hroster.of_roster rfl, failWrite_drainLaw hdrain⟩,
      ⟨hmm, fun v hv => ?_⟩, hroster.of_roster rfl, hdrain.of_same rfl rfl rfl rfl rfl id⟩
    cases hv
    exact himage

theorem Gentle.drainsHold {s t : State} (h : Gentle s t) (hs : DrainsHold s) : DrainsHold t :=
  ⟨memoryHolds_of_eq hs.memory h.mm h.inflight, h.roster hs.roster, h.drain hs.roster hs.drain⟩

theorem RosterLaw.of_empty {s : State} (h : s.roster = []) : RosterLaw s :=
  ⟨h ▸ ⟨List.Pairwise.nil, nofun⟩, h ▸ nofun, h ▸ nofun⟩

theorem fullStart_cond_roster (cause : RestartCause) (pins : StartPins) (rom : Option ProfileRom) (s : State) :
    (fullStart cause pins rom s).cond ≠ .drain ∧ (fullStart cause pins rom s).roster = [] := by
  have hclamped (b : Bool) (u : State) : (reportClamped b u).cond = u.cond ∧ (reportClamped b u).roster = u.roster := by
    unfold reportClamped
    split <;> simp
  unfold fullStart
  dsimp only
  split
  · simp [enterJoin, hclamped, blankStart, State.reset]
  · split
    · simp [hclamped, blankStart, State.reset]
    · refine ⟨?_, by simp [hclamped, blankStart, State.reset]⟩
      rename_i r _ _
      obtain h | h := checkHeader_cond (reportClamped (decide (pins.strap = 15) || profileClamped r.values)
        { blankStart cause pins s with
          profile := clampProfile r.values, profileRead := true
          faults := { (blankStart cause pins s).faults with enables := (clampProfile r.values).alertEnables } })
      · rw [h]
        simp [hclamped, blankStart, State.reset]
      · rw [h]
        nofun

/-- Settles O12: a drain keeps its law through every shape of a command. -/
theorem drainsKept : Obligations.DrainsKept := by
  intro s t hm hr hd he
  obtain hidle | ⟨c, rest, hp, hcmd⟩ := step_cases s
  · rw [hidle] at he
    cases he
    exact hd
  · have hold : DrainsHold { s with pending := rest } :=
      ⟨memoryHolds_of_eq hm rfl rfl, hr.of_roster rfl, hd.of_same rfl rfl rfl rfl rfl id⟩
    obtain ⟨t', he', hshape⟩ := exec_shape c { s with pending := rest }
    obtain rfl : t' = t := by
      rw [hcmd, he'] at he
      cases he
      rfl
    cases hshape with
    | runs _ hruns =>
      obtain h | ⟨m, u, h, rfl⟩ := hruns
      · exact (h.drainsHold hold).drain
      · exact (work_drainsHold _ _ (h.drainsHold hold)).drain
    | writeEnded m w ok hw =>
      have hmemory := hm.2 w hw
      refine (work_drainsHold _ _ ?_).drain
      split
      · exact ⟨⟨hmemory, by simp⟩, hr.of_roster rfl,
          completeWrite_drainLaw (hr.of_roster rfl) hm.1.2.2 hmemory.2.2 (hd.of_same rfl rfl rfl rfl rfl id)⟩
      · exact ⟨⟨hm.1, by simp⟩, hr.of_roster rfl, failWrite_drainLaw (hd.of_same rfl rfl rfl rfl rfl id)⟩
    | started m cause pins rom takes hc =>
      have hmm := fullStart_memory cause pins rom
        { advance m.time { s with pending := rest } with mm := settleMemory takes { s with pending := rest } }
        (settleMemory_law takes hold.memory)
      obtain ⟨hcond, hroster⟩ := fullStart_cond_roster cause pins rom
        { advance m.time { s with pending := rest } with mm := settleMemory takes { s with pending := rest } }
      exact (work_drainsHold _ _ ⟨hmm, .of_empty hroster, .of_cond hcond⟩).drain
    | supplyLost takes => exact .of_cond nofun

end Sys2Proof.Machine

/-! The queue of commands, the station after reset, the offer's figures, the supply, the outbound queue's order, reports and rollbacks. -/

namespace Sys2Proof.Machine

/-- Settles O1. -/
theorem stepTakesFrontCommand : Obligations.StepTakesFrontCommand := by
  refine ⟨fun c rest s hp => ?_, fun s hp => ?_⟩
  · unfold step
    rw [hp]
  · unfold step
    rw [hp]

/-! ## The station right after reset -/

theorem blank_holds : Canonical MapMemory.blank ∧ Fits MapMemory.blank ∧ VolumeLaw MapMemory.blank ∧ GrainLaw MapMemory.blank
    ∧ PendingLaw MapMemory.blank ∧ ShieldLaw MapMemory.blank ∧ PairLaw MapMemory.blank ∧ SpareLaw MapMemory.blank :=
  ⟨blank_canonical, blank_fits, ⟨fun _ => rfl, nofun, nofun, nofun, List.nodup_nil⟩, ⟨nofun, nofun⟩, emptied_pendingLaw rfl rfl,
    fun _ _ _ _ he => (nomatch he), List.nodup_nil, emptied_spareLaw rfl rfl⟩

theorem reset_queueLaw : QueueLaw State.reset := ⟨by decide, by decide, List.Pairwise.nil, nofun, Nat.zero_le _⟩

theorem reset_machineLaw : MachineLaw State.reset where
  askIdle _ := rfl
  askBackoff := nofun
  askFailures := Nat.zero_le _
  offerIdle := by simp [State.reset, OfferMachine.reset]
  offerIdleTimer _ := rfl
  offerArmed := nofun
  offerQueued := nofun
  offerWaiting := nofun
  offered := nofun
  apart := nofun

/-- Settles O3: every structure is empty and every machine idle. -/
theorem resetSound : Obligations.ResetSound :=
  ⟨⟨rfl, rfl, rfl⟩, fun _ => nofun, rfl, reset_queueLaw, reset_machineLaw, .of_empty rfl,
    ⟨Nat.zero_le _, Nat.zero_le _, Nat.zero_le _, Nat.zero_le _⟩, .of_none nofun rfl, .of_cond nofun, blank_holds, nofun⟩

/-! ## The offer's figures (R81, R82, R84) -/

theorem offerDelay_eq_iff (x : Figures) (d : Nat) :
    offerDelay x = d ↔ 1000 * d ≤ (1000 - lendableShare x) * 31 ∧ (1000 - lendableShare x) * 31 < 1000 * d + 1000 := by
  unfold offerDelay
  omega

theorem clampWanted_eq (wanted : Nat) : clampWanted wanted = if wanted = 0 then 1 else min wanted 8 := by
  unfold clampWanted clampNat
  split_ifs <;> omega

theorem offerCount_of_none {x : Figures} {wanted : Nat} (h : x.p = 0 ∨ lendable x = 0) : offerCount x wanted = 0 := if_pos h

theorem offerCount_of_some {x : Figures} {wanted : Nat} (hp : 0 < x.p) (hl : 0 < lendable x) :
    offerCount x wanted = min (min (if wanted = 0 then 1 else min wanted 8) (lendable x)) (min x.maxLoan x.freeLoans) := by
  unfold offerCount
  rw [if_neg (by omega), clampWanted_eq]

theorem grantCount_eq (x : Figures) (asked offered : Nat) :
    grantCount x asked offered = min (min (min asked 8) offered) (min (lendable x) x.freeLoans) := by
  have hclamp : clampNat 0 8 asked = min asked 8 := by
    unfold clampNat
    split_ifs <;> omega
  rw [grantCount, hclamp]

/-- The least of four values is one of them and below each. -/
theorem min_four (a b c d : Nat) :
    (min (min a b) (min c d) ≤ a ∧ min (min a b) (min c d) ≤ b ∧ min (min a b) (min c d) ≤ c ∧ min (min a b) (min c d) ≤ d)
      ∧ (min (min a b) (min c d) = a ∨ min (min a b) (min c d) = b ∨ min (min a b) (min c d) = c ∨ min (min a b) (min c d) = d) := by
  omega

/-- Settles O18: the delay is a quotient of the lendable share, the counts least of four values. -/
theorem offerFigures : Obligations.OfferFigures := by
  refine ⟨fun x hf => ?delay, fun x wanted asked offered => ⟨offerCount_of_none, fun hp hl => ?offer, ?grant⟩⟩
  case delay =>
    have hshare := lendableShare_le hf
    refine ⟨hshare, ?_, ?_, ?_, offerDelay_eq_iff x, fun y _ hle => ?_⟩
    all_goals
      unfold offerDelay
      omega
  case offer =>
    dsimp only
    rw [offerCount_of_some hp hl]
    exact min_four _ _ _ _
  case grant =>
    dsimp only
    rw [grantCount_eq]
    exact min_four _ _ _ _

/-! ## The supply and the reset pin (R157) -/

theorem whenOn_off {m : Moment} {f : State → State} {s : State} (h : s.powered = false) : whenOn m f s = .next s := by
  unfold whenOn
  rw [if_neg (by simp [h])]

theorem whenOn_on {m : Moment} {f : State → State} {s : State} (h : s.powered = true) : whenOn m f s = .next (f (advance m.time s)) := by
  unfold whenOn
  rw [if_pos h]

/-- Settles O53. -/
theorem supplyAndPulse : Obligations.SupplyAndPulse := by
  refine ⟨fun c s hoff hon hloss => ?off, fun takes s => ⟨fun hi => ?idle, fun w hw => ?writing⟩,
    fun lowFor pins rom takes m s u ⟨hon, hu⟩ hshort => ?pulse⟩
  case off =>
    cases c with
    | powerOn pins rom takes m => exact absurd rfl (hon _ _ _ _)
    | powerLoss takes => exact absurd rfl (hloss _)
    | _ =>
      simp only [exec, execResetPin, execBayAbsent, execBayPresent, execServiceAsserted, execServiceReleased, execJoinTimerExpiry,
        execDrainTimerExpiry, execMapMemoryWriteCompletion, execHoldExpiry, execWalkerPeriod, execOfferWindowExpiry,
        execGrantWaitExpiry, execBackoffExpiry, execOfferTimerExpiry, execTakeWaitExpiry, execReturnStep, execHailTimerExpiry,
        execRequestFrameReceived, execAsk, execOffer, execTake, execGrant, execGiveback, execHail, execFrameHeard,
        execPeerAgeExpiry, execAttemptStart, execArbitrationLost, execFrameEnded, execAttemptFailed, execLookupRead,
        execLookupWrite, execCommit, execTrim, execVolumeCreate, execVolumeDelete, execVolumeGrow, execStatusPage0,
        execStatusPage1, execClear, execMalformedRequest]
      exact whenOn_off hoff
  case idle =>
    have hsettled : settleMemory takes s = s.mm := by
      unfold settleMemory
      rw [hi]
    show execPowerLoss takes s = _
    unfold execPowerLoss
    rw [hsettled]
  case writing =>
    have hsettled : settleMemory takes s = if takes then w.image else s.mm := by
      unfold settleMemory
      rw [hw]
    show execPowerLoss takes s = _
    unfold execPowerLoss
    rw [hsettled]
  case pulse =>
    subst hu
    show execResetPin lowFor pins rom takes m s = _
    unfold execResetPin
    have hno : ¬ Config.resetHold ≤ lowFor := Nat.not_le.mpr hshort
    rw [whenOn_on hon, if_neg hno]

/-! ## The outbound queue and reports (R149, R153, R169, R170) -/

/-- In a queue in order, a frame joins behind those it does not precede. -/
theorem insertFrame_eq {q : List OutFrame} (f : OutFrame) (h : q.Pairwise fun a b => a.rank ≤ b.rank) :
    insertFrame q f = q.filter (fun x => decide (x.rank ≤ f.rank)) ++ f :: q.filter (fun x => !decide (x.rank ≤ f.rank)) := by
  induction q with
  | nil => rfl
  | cons x rest ih =>
    obtain ⟨hx, hrest⟩ := List.pairwise_cons.mp h
    unfold insertFrame
    split
    · rename_i hlt
      have hbehind : ∀ y ∈ x :: rest, ¬ y.rank ≤ f.rank := fun y hy => by
        obtain rfl | hy := List.mem_cons.mp hy
        · omega
        · have := hx y hy
          omega
      rw [List.filter_eq_nil_iff.mpr fun y hy => by simpa using hbehind y hy,
        List.filter_eq_self.mpr fun y hy => by simpa using hbehind y hy, List.nil_append]
    · rename_i hle
      have hfront : decide (x.rank ≤ f.rank) = true := decide_eq_true (Nat.not_lt.mp hle)
      simp [ih hrest, hfront]

theorem sentInHalted_iff (f : OutFrame) :
    f.sentInHalted = true ↔ (∃ h, f.body = .hail h) ∨ ∃ r, f.body = .reply r ∧ r.status = .notReady := by
  unfold OutFrame.sentInHalted
  cases f.body <;> simp

theorem isReplyOrAlert_iff (f : OutFrame) : f.isReplyOrAlert = true ↔ (∃ r, f.body = .reply r) ∨ ∃ g c, f.body = .alert g c := by
  unfold OutFrame.isReplyOrAlert
  cases f.body <;> simp

theorem refuses_iff (cond : Condition) (f : OutFrame) :
    refuses cond f = true ↔ cond = .quiet ∨ cond = .mute ∨ (cond = .halted ∧ f.sentInHalted = false) := by
  unfold refuses
  cases cond <;> simp

theorem hasPlace_iff (s : State) : hasPlace s = true ↔ s.link.occupied < 32 := decide_eq_true_iff

theorem hasReplyPlace_iff (s : State) : hasReplyPlace s = true ↔ s.link.occupied < 32 ∧ s.link.replies < 24 := by
  unfold hasReplyPlace
  rw [Bool.and_eq_true, hasPlace_iff]
  exact and_congr_right' decide_eq_true_iff

theorem offerFrame_eq_some_iff (f : OutFrame) (s : State) :
    offerFrame f s = some (pushFrame f s)
      ↔ refuses s.cond f = false ∧ s.link.occupied < 32 ∧ (f.isReplyOrAlert = true → s.link.replies < 24) := by
  unfold offerFrame
  split
  · rename_i hrefused
    simp [hrefused]
  · rename_i hlets
    have hlet : refuses s.cond f = false := by simpa using hlets
    split
    · rename_i hreply
      have hroom : refuses s.cond f = false ∧ s.link.occupied < 32 ∧ (f.isReplyOrAlert = true → s.link.replies < 24)
          ↔ hasReplyPlace s = true := by simp [hlet, hreply, hasReplyPlace_iff]
      rw [hroom]
      cases hasReplyPlace s <;> simp
    · rename_i hother
      have hroom : refuses s.cond f = false ∧ s.link.occupied < 32 ∧ (f.isReplyOrAlert = true → s.link.replies < 24)
          ↔ hasPlace s = true := by simp [hlet, hother, hasPlace_iff]
      rw [hroom]
      cases hasPlace s <;> simp

theorem report_of_silent {f : Flag} {s : State} (h : s.faults.flags.getLsbD f.number = true ∨ s.faults.enables.getLsbD f.number = false) :
    report f s = judgeAttention { s with faults := s.faults.set f } := by
  have hquiet : (!s.faults.has f && s.faults.enabled f) = false := by
    obtain h | h := h <;> simp [FaultRecord.has, FaultRecord.enabled, h]
  simp [report, hquiet]

theorem report_of_alert {f : Flag} {s : State} (hclear : s.faults.flags.getLsbD f.number = false)
    (hon : s.faults.enables.getLsbD f.number = true) :
    report f s = judgeAttention ((offerFrame { dest := broadcast, body := .alert f s.cond.code } { s with faults := s.faults.set f }).getD
      { s with faults := s.faults.set f }) := by
  have halert : (!s.faults.has f && s.faults.enabled f) = true := by simp [FaultRecord.has, FaultRecord.enabled, hclear, hon]
  simp [report, halert]

/-- Whether a frame is let in does not hang on the fault record. -/
theorem offerFrame_faults (f : OutFrame) (r : FaultRecord) (s : State) :
    offerFrame f { s with faults := r } = (offerFrame f s).map fun u => { u with faults := r } := by
  unfold offerFrame hasReplyPlace hasPlace
  dsimp only
  repeat' split
  all_goals rfl

/-- Settles O45. -/
theorem framesAndReports : Obligations.FramesAndReports := by
  refine ⟨⟨fun q f h => insertFrame_eq f h, fun f s => ?_⟩, fun f s => ⟨report_of_silent, fun hclear hon => ⟨fun hnone => ?_, fun hsome => ?_⟩⟩⟩
  · rw [offerFrame_eq_some_iff, ← Bool.not_eq_true, refuses_iff, ← Bool.not_eq_true, sentInHalted_iff, isReplyOrAlert_iff]
  · rw [report_of_alert hclear hon, offerFrame_faults, hnone]
    rfl
  · obtain ⟨t, ht⟩ := Option.ne_none_iff_exists'.mp hsome
    rw [report_of_alert hclear hon, offerFrame_faults, ht, (offerFrame_some ht).2.2.2]
    rfl

/-! ## Rollbacks (R52) -/

theorem judgePlace_remote_lost_iff {roster : Table RosterRecord} {presence : List Bool} {lender : Station} {loan bay grain : Nat} {ep : Epoch} :
    judgePlace roster presence (.remote lender loan bay grain ep) = .lost
      ↔ isPresent roster lender = true ∧ (rosterOf roster lender).epoch ≠ some ep := by
  unfold judgePlace isPresent
  dsimp only
  split_ifs with h1 h2
  · simp [h2]
  · simp [h1, h2]
  · simp [h1]

/-- Settles O51: the entry and its pending record go, and the grain where its place and the lender's record say. -/
theorem rollbackPlaces : Obligations.RollbackPlaces := by
  intro roster presence mm v c e he
  dsimp only
  have hroll : rollbackChunk roster presence mm v c = rollbackGrain roster presence (removeEntry (removePending mm v c) v c) e.place := by
    simp only [rollbackChunk, he]
  rw [hroll]
  refine ⟨fun bay grain hp => ?_, fun lender loan bay grain ep hp => ?_⟩
  · rw [hp]
    exact ⟨rfl, rfl⟩
  · rw [hp]
    unfold rollbackGrain
    simp only [judgePlace_remote_lost_iff]
    refine ⟨fun hlost => ?_, fun hkept hroom => ?_, fun hkept hfull => ?_⟩
    · rw [if_pos (by exact hlost)]
      exact ⟨rfl, rfl⟩
    · rw [if_neg (by exact hkept), if_pos (by exact hroom)]
      exact ⟨rfl, rfl⟩
    · rw [if_neg (by exact hkept), if_neg (by exact Nat.not_lt.mpr hfull)]
      exact ⟨rfl, rfl⟩

end Sys2Proof.Machine

/-! How a chain of events is carried through: each event of the chain taken, its write completed, failed or left in progress. -/

namespace Sys2Proof.Machine

/-! ## Leading from one state to another -/

/-- Taking `k` events leads from one state, and the fates still to be met, to another. -/
def Leads (k : Nat) (fates fates' : List WriteFate) (s t : State) : Prop := ∀ n, k ≤ n → work n fates s = work (n - k) fates' t

theorem Leads.refl (fates : List WriteFate) (s : State) : Leads 0 fates fates s s := fun _ _ => rfl

theorem Leads.trans {k l : Nat} {f f' f'' : List WriteFate} {s t u : State} (h : Leads k f f' s t) (h' : Leads l f' f'' t u) :
    Leads (k + l) f f'' s u := fun n hn => by
  rw [h n (by omega), h' (n - k) (by omega), Nat.sub_sub]

/-- A chain that leaves no event to take is where the settling ends. -/
theorem Leads.settle_eq {k : Nat} {m : Moment} {f f' : List WriteFate} {s t : State} (h : Leads k f f' s t) (hw : m.writes = f)
    (hk : k ≤ workBound) (ht : t.tasks = []) : settle m s = t := by
  subst hw
  exact (h workBound hk).trans (work_nil ht)

/-- A chain that leaves a write in progress is where the settling ends. -/
theorem Leads.settle_busy {k : Nat} {m : Moment} {f f' : List WriteFate} {s t : State} (h : Leads k f f' s t) (hw : m.writes = f)
    (hk : k ≤ workBound) (ht : t.inflight.isSome = true) : settle m s = t := by
  subst hw
  exact (h workBound hk).trans (work_busy ht)

section one
variable {fates : List WriteFate} {s s' : State} {t : Task} {rest : List Task} {w : MapWrite}

theorem leads_noWrite (hi : s.inflight = none) (ht : s.tasks = t :: rest) (h : takeTask t (withTasks rest s) = (s', none)) :
    Leads 1 fates fates s s' := fun _ hn => work_noWrite' hn hi ht h

theorem leads_write (hi : s.inflight = none) (ht : s.tasks = t :: rest) (h : takeTask t (withTasks rest s) = (s', some w)) :
    Leads 1 [] [] s (completeWrite w s') := fun _ hn => work_write' hn hi ht h

theorem leads_fails (hi : s.inflight = none) (ht : s.tasks = t :: rest) (h : takeTask t (withTasks rest s) = (s', some w)) :
    Leads 1 (.fails :: fates) fates s (failWrite w s') := fun n hn => by
  obtain ⟨n, rfl⟩ := Nat.exists_eq_add_of_le' hn
  exact work_fails hi ht h

theorem leads_stays (hi : s.inflight = none) (ht : s.tasks = t :: rest) (h : takeTask t (withTasks rest s) = (s', some w)) :
    Leads 1 (.staysInProgress :: fates) fates s { s' with inflight := some w } := fun n hn => by
  obtain ⟨n, rfl⟩ := Nat.exists_eq_add_of_le' hn
  rw [work_stays hi ht h, work_busy rfl]

end one

/-! ## Events that do one thing and read no event that waits -/

theorem withTasks_withTasks (ts us : List Task) (s : State) : withTasks ts (withTasks us s) = withTasks ts s := rfl

theorem withTasks_self {s : State} {ts : List Task} (h : s.tasks = ts) : withTasks ts s = s := by
  cases s
  simp only [withTasks] at *
  subst h
  rfl

/-- An event that makes no write, does `g`, and leaves the events that wait and the write port alone. -/
structure Does (t : Task) (g : State → State) : Prop where
  takes : ∀ s, takeTask t s = (g s, none)
  tasks : ∀ ts s, g (withTasks ts s) = withTasks ts (g s)
  inflight : ∀ s, (g s).inflight = s.inflight

theorem Does.leads {t : Task} {g : State → State} (h : Does t g) {fates : List WriteFate} {rest : List Task} {s : State}
    (hi : s.inflight = none) : Leads 1 fates fates (withTasks (t :: rest) s) (withTasks rest (g s)) :=
  leads_noWrite hi rfl (by rw [withTasks_withTasks, h.takes, h.tasks])

theorem answer_withTasks (d : Station) (r : Reply) (ts : List Task) (s : State) :
    answer d r (withTasks ts s) = withTasks ts (answer d r s) := by
  unfold answer
  rw [offerFrame_withTasks]
  cases offerFrame { dest := d, body := .reply r } s <;> rfl

theorem fillReply_withTasks (d : Station) (r : Reply) (ts : List Task) (s : State) :
    fillReply d r (withTasks ts s) = withTasks ts (fillReply d r s) := answer_withTasks d r ts (releaseReply s)

theorem report_withTasks (f : Flag) (ts : List Task) (s : State) : report f (withTasks ts s) = withTasks ts (report f s) := by
  have hoffer : offerFrame { dest := broadcast, body := .alert f s.cond.code } (withTasks ts { s with faults := s.faults.set f })
      = (offerFrame { dest := broadcast, body := .alert f s.cond.code } { s with faults := s.faults.set f }).map (withTasks ts) :=
    offerFrame_withTasks _ _ _
  unfold report
  dsimp only
  split
  · have hw : { withTasks ts s with faults := (withTasks ts s).faults.set f } = withTasks ts { s with faults := s.faults.set f } := rfl
    rw [if_pos (by assumption), hw]
    show judgeAttention ((offerFrame { dest := broadcast, body := .alert f s.cond.code } _).getD _) = _
    rw [hoffer]
    cases offerFrame { dest := broadcast, body := .alert f s.cond.code } { s with faults := s.faults.set f } <;> rfl
  · rw [if_neg (by assumption)]
    rfl

theorem sendGiveback_withTasks (a : Station) (r : GivebackReason) (ls : List Nat) (ts : List Task) (s : State) :
    sendGiveback a r ls (withTasks ts s) = withTasks ts (sendGiveback a r ls s) := by
  unfold sendGiveback
  rw [offerFrame_withTasks, report_withTasks]
  cases offerFrame { dest := a, body := .giveback r ls } s <;> rfl

theorem endOfferOf_withTasks (a : Station) (i : AskId) (ts : List Task) (s : State) :
    endOfferOf a i (withTasks ts s) = withTasks ts (endOfferOf a i s) := by
  unfold endOfferOf
  rw [show (withTasks ts s).offer = s.offer from rfl]
  split <;> rfl

theorem sendGranted_withTasks (a : Station) (i : AskId) (rs : List GrantRecord) (ts : List Task) (s : State) :
    sendGranted a i rs (withTasks ts s) = withTasks ts (sendGranted a i rs s) := by
  unfold sendGranted
  dsimp only
  rw [show releaseOther (withTasks ts s) = withTasks ts (releaseOther s) from rfl, offerFrame_withTasks, report_withTasks,
    ← endOfferOf_withTasks]
  cases offerFrame { dest := a, body := .grant i rs } (releaseOther s) <;> rfl

theorem failAskOf_withTasks (a : Station) (ts : List Task) (s : State) : failAskOf a (withTasks ts s) = withTasks ts (failAskOf a s) := by
  unfold failAskOf
  rw [show (withTasks ts s).ask = s.ask from rfl]
  split <;> rfl

theorem withdrawOffer_withTasks (b : Bool) (ts : List Task) (s : State) :
    withdrawOffer b (withTasks ts s) = withTasks ts (withdrawOffer b s) := by
  unfold withdrawOffer
  rw [show offerDriving (withTasks ts s) = offerDriving s from rfl, show (withTasks ts s).offer = s.offer from rfl]
  repeat' split
  all_goals rfl

theorem stopOffer_withTasks (ts : List Task) (s : State) : stopOffer (withTasks ts s) = withTasks ts (stopOffer s) := by
  unfold stopOffer
  rw [show (withTasks ts s).offer = s.offer from rfl]
  split
  · rfl
  · exact withdrawOffer_withTasks _ _ _
  · rfl

theorem toldDropped_withTasks (b : FrameBody) (ts : List Task) (s : State) :
    toldDropped b (withTasks ts s) = withTasks ts (toldDropped b s) := by
  unfold toldDropped
  rw [show (withTasks ts s).ask = s.ask from rfl, show (withTasks ts s).offer = s.offer from rfl,
    show grantAccepted (withTasks ts s) = grantAccepted s from rfl]
  cases b with
  | ask | take | offer => dsimp only; split <;> rfl
  | grant | giveback => exact report_withTasks _ _ _
  | reply | hail | alert => rfl

theorem toldRemoved_withTasks (fs : List OutFrame) (ts : List Task) (s : State) :
    toldRemoved fs (withTasks ts s) = withTasks ts (toldRemoved fs s) := by
  unfold toldRemoved
  induction fs generalizing s with
  | nil => rfl
  | cons f fs ih => rw [List.foldl_cons, List.foldl_cons, toldDropped_withTasks, ih]

theorem queueHail_withTasks (ts : List Task) (s : State) : queueHail (withTasks ts s) = withTasks ts (queueHail s) := by
  unfold queueHail
  rw [show buildHail (hailConditionIn (withTasks ts s).cond) (withTasks ts s) = buildHail (hailConditionIn s.cond) s from rfl,
    offerFrame_withTasks]
  cases offerFrame (buildHail (hailConditionIn s.cond) s) s <;> rfl

theorem enterHalted_withTasks (ts : List Task) (s : State) : enterHalted (withTasks ts s) = withTasks ts (enterHalted s) := by
  have hstop := stopOffer_withTasks ts
    { s with cond := .halted, drainTimer := none, drainEnded := false, walkerTimer := none, ask := s.ask.stopped }
  have hstop' : stopOffer { withTasks ts s with
        cond := .halted, drainTimer := none, drainEnded := false, walkerTimer := none, ask := (withTasks ts s).ask.stopped }
      = withTasks ts (stopOffer { s with
          cond := .halted, drainTimer := none, drainEnded := false, walkerTimer := none, ask := s.ask.stopped }) := hstop
  unfold enterHalted
  dsimp only
  rw [hstop', ← toldRemoved_withTasks]
  rfl

theorem mapMemError_withTasks (ts : List Task) (s : State) : mapMemError (withTasks ts s) = withTasks ts (mapMemError s) := by
  unfold mapMemError
  dsimp only
  rw [report_withTasks, show (withTasks ts (report .mapMem s)).cond = (report .mapMem s).cond from rfl, enterHalted_withTasks]
  split
  · rfl
  · rfl
  · rfl
  · rfl
  · exact queueHail_withTasks ts { enterHalted (report .mapMem s) with hailTimer := some (presenceDeadline (enterHalted (report .mapMem s))) }
  · rfl
  · rfl

theorem does_reply (d : Station) (r : Reply) : Does (.reply d r) (fillReply d r) :=
  ⟨fun _ => rfl, fillReply_withTasks d r, fun s => by simp⟩

theorem does_releaseReply : Does .releaseReply releaseReply := ⟨fun _ => rfl, fun _ _ => rfl, fun _ => rfl⟩

theorem does_releaseOther : Does .releaseOther releaseOther := ⟨fun _ => rfl, fun _ _ => rfl, fun _ => rfl⟩

theorem does_giveback (a : Station) (r : GivebackReason) (ls : List Nat) : Does (.giveback false a r ls) (sendGiveback a r ls) :=
  ⟨fun _ => rfl, sendGiveback_withTasks a r ls, fun s => by simp⟩

theorem does_giveback_reserved (a : Station) (r : GivebackReason) (ls : List Nat) :
    Does (.giveback true a r ls) (fun s => sendGiveback a r ls (releaseOther s)) :=
  ⟨fun _ => rfl, fun ts s => sendGiveback_withTasks a r ls ts (releaseOther s), fun s => by simp⟩

theorem does_report (f : Flag) : Does (.report f) (report f) := ⟨fun _ => rfl, report_withTasks f, fun s => by simp⟩

theorem does_count (c : Counter) : Does (.count c) (countUp c) := ⟨fun _ => rfl, fun _ _ => rfl, fun _ => rfl⟩

theorem does_mapMemError : Does .mapMemError mapMemError := ⟨fun _ => rfl, mapMemError_withTasks, fun s => (gentle_mapMemError s).inflight⟩

theorem does_startAsk : Does .startAsk startAsk := ⟨fun _ => rfl, startAsk_withTasks, fun s => by simp⟩

theorem does_judgeAsk : Does .judgeAsk judgeAsk := ⟨fun _ => rfl, judgeAsk_withTasks, fun s => by simp⟩

theorem does_askSucceeded (a : Station) (i : AskId) : Does (.askSucceeded a i) (askSucceeded a i) :=
  ⟨fun _ => rfl, fun _ _ => rfl, fun _ => rfl⟩

theorem does_granted (a : Station) (i : AskId) (rs : List GrantRecord) : Does (.granted a i rs) (sendGranted a i rs) :=
  ⟨fun _ => rfl, sendGranted_withTasks a i rs, fun s => by simp⟩

theorem does_endOfferOf (a : Station) (i : AskId) : Does (.endOfferOf a i) (endOfferOf a i) :=
  ⟨fun _ => rfl, endOfferOf_withTasks a i, fun s => by simp⟩

theorem does_emptyLastGrants (ls : List Nat) : Does (.emptyLastGrants ls) (emptyLastGrants ls) :=
  ⟨fun _ => rfl, fun _ _ => rfl, fun _ => rfl⟩

/-! ## The judgements after a write -/

/-- R90 judged, where a write calls for it (R8, R46, R96, R101, R103). -/
def askJudged (takes : Bool) (before after s : State) : State :=
  if takes = true ∨ presentSets before ≠ presentSets after ∨ before.mm.spares.length ≠ after.mm.spares.length then judgeAsk s else s

/-- The quiet condition judged, where a write calls for it (R163). -/
def quietJudged (before after s : State) : State :=
  if before.mm.pendings ≠ after.mm.pendings ∨ before.mm.trims ≠ after.mm.trims ∨ before.mm.spares ≠ after.mm.spares then judgeQuiet s
  else s

theorem askJudged_of_takes (before after s : State) : askJudged true before after s = judgeAsk s := if_pos (.inl rfl)

theorem judgeAsk_of_cond {s : State} (h : s.cond ≠ .ready) : judgeAsk s = s := if_neg fun hc => h hc.1

theorem askJudged_of_cond {takes : Bool} {before after s : State} (h : s.cond ≠ .ready) : askJudged takes before after s = s := by
  unfold askJudged
  split
  · exact judgeAsk_of_cond h
  · rfl

theorem askJudged_of_same {before after s : State} (hf : presentSets before = presentSets after)
    (hs : before.mm.spares.length = after.mm.spares.length) : askJudged false before after s = s := by
  unfold askJudged
  rw [if_neg]
  simp [hf, hs]

theorem judgeQuiet_of_cond {s : State} (h : s.cond ≠ .drain) : judgeQuiet s = s := if_neg fun hc => h hc.1

theorem judgeQuiet_of_not_quiet {s : State} (h : quietCondition s = false) : judgeQuiet s = s :=
  if_neg fun hc => Bool.false_ne_true (h.symm.trans hc.2.2.2)

theorem quietJudged_of_cond {before after s : State} (h : s.cond ≠ .drain) : quietJudged before after s = s := by
  unfold quietJudged
  split
  · exact judgeQuiet_of_cond h
  · rfl

@[simp] theorem askJudged_inflight (takes : Bool) (before after s : State) : (askJudged takes before after s).inflight = s.inflight := by
  unfold askJudged
  split <;> simp

@[simp] theorem askJudged_cond (takes : Bool) (before after s : State) : (askJudged takes before after s).cond = s.cond := by
  unfold askJudged
  split <;> simp

@[simp] theorem askJudged_tasks (takes : Bool) (before after s : State) : (askJudged takes before after s).tasks = s.tasks := by
  unfold askJudged
  split <;> simp

@[simp] theorem askJudged_mm (takes : Bool) (before after s : State) : (askJudged takes before after s).mm = s.mm := by
  unfold askJudged
  split <;> simp

/-- What a write calls for, taken: R90 first, then the quiet condition. -/
theorem leads_judgements {fates : List WriteFate} (takes : Bool) (before after : State) (rest : List Task) {s : State}
    (hi : s.inflight = none) :
    ∃ k ≤ 2, Leads k fates fates (withTasks (judgements takes before after ++ rest) s)
      (quietJudged before after (withTasks rest (askJudged takes before after s))) := by
  have hquiet (v : State) (hv : v.inflight = none) : Leads 1 fates fates (withTasks (.judgeQuiet :: rest) v) (judgeQuiet (withTasks rest v)) :=
    leads_noWrite hv rfl rfl
  unfold judgements askJudged quietJudged
  split
  · split
    · exact ⟨2, Nat.le_refl 2, (does_judgeAsk.leads hi).trans (hquiet _ (by simpa using hi))⟩
    · exact ⟨1, by omega, does_judgeAsk.leads hi⟩
  · split
    · exact ⟨1, by omega, hquiet s hi⟩
    · exact ⟨0, by omega, .refl _ _⟩

/-! ## Requests -/

/-- The station with the oldest request taken and the place of its answer reserved. -/
def reserved (rest : List RawFrame) (u : State) : State := reserveReply { u with buffer := rest }

section request
variable {m : Moment} {s u : State} {f : RawFrame} {rest : List RawFrame}

/-- The REPLY of a request goes into its place, whatever the write before it has made of map memory. -/
theorem fillReply_reserved (h : Takes m s u f rest) {r : Reply} (hc : u.cond = .halted → r.status = .notReady) (mm : MapMemory)
    (rot : Nat) : fillReply f.source r { reserved rest u with mm := mm, rotor := rot } = withAnswer f rest r { u with mm := mm, rotor := rot } := by
  have hplace : hasReplyPlace { u with buffer := rest, mm := mm, rotor := rot } = true := (takes_place h :)
  have hserves : servesRequests { u with buffer := rest, mm := mm, rotor := rot } := (takes_srv h :)
  exact fillReply_ok (u := { u with buffer := rest, mm := mm, rotor := rot }) hplace hserves hc u.tasks

/-- A request whose write completes and is followed by its answer, and by what the write calls for. -/
theorem leads_written (h : Takes m s u f rest) {t : Task} {r : Reply} {mm : MapMemory} {rot : Nat} {tk : Bool} {onFail : List Task}
    (hc : u.cond ≠ .halted)
    (htk : takeTask t (reserved rest u)
      = (reserved rest u, some { image := mm, rotor := rot, takes := tk, onDone := [.reply f.source r], goOn := [], onFail := onFail })) :
    ∃ k ≤ 4, Leads k [] [] (beginRequest t { u with buffer := rest })
      (quietJudged u { u with mm := mm } (askJudged tk u { u with mm := mm } (withAnswer f rest r { u with mm := mm, rotor := rot }))) := by
  have hi : (beginRequest t { u with buffer := rest }).inflight = none := (takes_infl h :)
  have htasks : (reserved rest u).tasks = [] := (takes_tasks h :)
  have hstart : withTasks [] (beginRequest t { u with buffer := rest }) = reserved rest u := withTasks_self htasks
  have hwrite := leads_write (w := { image := mm, rotor := rot, takes := tk, onDone := [.reply f.source r], goOn := [], onFail := onFail })
    hi rfl (by rw [hstart]; exact htk)
  have hreply := (does_reply f.source r).leads (fates := [])
    (rest := judgements tk (reserved rest u) { reserved rest u with mm := mm, rotor := rot, inflight := none } ++ [])
    (s := { reserved rest u with mm := mm, rotor := rot, inflight := none }) rfl
  obtain ⟨k, hk, hjudged⟩ := leads_judgements (fates := []) tk (reserved rest u)
    { reserved rest u with mm := mm, rotor := rot, inflight := none } [] (s := withAnswer f rest r { u with mm := mm, rotor := rot })
    (takes_infl h :)
  have hidle : ({ reserved rest u with mm := mm, rotor := rot, inflight := none } : State) = { reserved rest u with mm := mm, rotor := rot } := by
    have : (reserved rest u).inflight = none := (takes_infl h :)
    rw [← this]
  have hcomplete : completeWrite { image := mm, rotor := rot, takes := tk, onDone := [.reply f.source r], goOn := [], onFail := onFail }
      (reserved rest u)
      = withTasks (.reply f.source r :: (judgements tk (reserved rest u) { reserved rest u with mm := mm, rotor := rot, inflight := none } ++ []))
          { reserved rest u with mm := mm, rotor := rot, inflight := none } := by
    unfold completeWrite
    dsimp only
    rw [htasks]
    simp [withTasks]
  rw [hcomplete] at hwrite
  rw [hidle, fillReply_reserved h (fun hh => absurd hh hc), ← hidle] at hreply
  refine ⟨1 + 1 + k, by omega, (hwrite.trans hreply).trans ?_⟩
  have hend : withTasks [] (askJudged tk (reserved rest u) { reserved rest u with mm := mm, rotor := rot, inflight := none }
      (withAnswer f rest r { u with mm := mm, rotor := rot }))
      = askJudged tk u { u with mm := mm } (withAnswer f rest r { u with mm := mm, rotor := rot }) := by
    refine withTasks_self ?_
    rw [askJudged_tasks]
    exact (takes_tasks h :)
  rw [hend] at hjudged
  exact hjudged

end request

end Sys2Proof.Machine

/-! Requests answered: WRITE lookups that allocate nothing, COMMIT, TRIM and VOLUME. -/

namespace Sys2Proof.Machine

section request
variable {m : Moment} {s u : State} {f : RawFrame} {rest : List RawFrame}

/-! ## Requests carried through -/

/-- A request that the map engine takes as an event of its own. -/
theorem exec_lookupWrite_of_takes (h : Takes m s u f rest) {v c tag : Nat} (hparse : parseRequest u.fresh f = .lookup true v c tag) :
    exec (.lookupWrite m) s = .next (settle m (beginRequest (.lookupWrite f.source v c tag) { u with buffer := rest })) :=
  takes_run h _ _ (by rw [hparse])

theorem exec_commit_of_takes (h : Takes m s u f rest) {v c tag : Nat} (hparse : parseRequest u.fresh f = .commit v c tag) :
    exec (.commit m) s = .next (settle m (beginRequest (.commit f.source v c tag) { u with buffer := rest })) :=
  takes_run h _ _ (by rw [hparse])

theorem exec_trim_of_takes (h : Takes m s u f rest) {v first count tag : Nat}
    (hparse : parseRequest u.fresh f = .trim v first count tag) :
    exec (.trim m) s = .next (settle m (beginRequest (.trim f.source v first count tag) { u with buffer := rest })) :=
  takes_run h _ _ (by rw [hparse])

theorem exec_volumeCreate_of_takes (h : Takes m s u f rest) {v size tag : Nat} (hparse : parseRequest u.fresh f = .create v size tag) :
    exec (.volumeCreate m) s = .next (settle m (beginRequest (.volumeCreate f.source v size tag) { u with buffer := rest })) :=
  takes_run h _ _ (by rw [hparse])

theorem exec_volumeGrow_of_takes (h : Takes m s u f rest) {v size tag : Nat} (hparse : parseRequest u.fresh f = .grow v size tag) :
    exec (.volumeGrow m) s = .next (settle m (beginRequest (.volumeGrow f.source v size tag) { u with buffer := rest })) :=
  takes_run h _ _ (by rw [hparse])

theorem exec_volumeDelete_of_takes (h : Takes m s u f rest) {v tag : Nat} (hparse : parseRequest u.fresh f = .delete v tag) :
    exec (.volumeDelete m) s = .next (settle m (beginRequest (.volumeDelete f.source v tag) { u with buffer := rest })) :=
  takes_run h _ _ (by rw [hparse])

/-- A request whose write completes, in READY: the answer, and R90 judged where the write calls for it. -/
theorem settle_written_ready (h : Takes m s u f rest) (hw : m.writes = []) (hc : u.cond = .ready) {t : Task} {r : Reply} {mm : MapMemory}
    {rot : Nat} {tk : Bool} {onFail : List Task}
    (htk : takeTask t (reserved rest u)
      = (reserved rest u, some { image := mm, rotor := rot, takes := tk, onDone := [.reply f.source r], goOn := [], onFail := onFail })) :
    settle m (beginRequest t { u with buffer := rest })
      = askJudged tk u { u with mm := mm } (withAnswer f rest r { u with mm := mm, rotor := rot }) := by
  obtain ⟨k, hk, hleads⟩ := leads_written h (by rw [hc]; exact nofun) htk
  have hcond : (askJudged tk u { u with mm := mm } (withAnswer f rest r { u with mm := mm, rotor := rot })).cond ≠ .drain := by
    rw [askJudged_cond]
    exact fun hd => nomatch hc.symm.trans hd
  rw [quietJudged_of_cond hcond] at hleads
  refine hleads.settle_eq hw (hk.trans (by decide)) ?_
  rw [askJudged_tasks]
  exact (takes_tasks h :)

/-- A request whose write completes without taking a grain or changing a free set, a list or the spares: the answer alone. -/
theorem settle_written_still (h : Takes m s u f rest) (hw : m.writes = []) (hc : u.cond ≠ .halted) {t : Task} {r : Reply} {mm : MapMemory}
    {onFail : List Task}
    (htk : takeTask t (reserved rest u)
      = (reserved rest u,
          some { image := mm, rotor := u.rotor, takes := false, onDone := [.reply f.source r], goOn := [], onFail := onFail }))
    (hfree : mm.freeSets = u.mm.freeSets) (hspares : mm.spares = u.mm.spares)
    (hquiet : quietJudged u { u with mm := mm } (withAnswer f rest r { u with mm := mm }) = withAnswer f rest r { u with mm := mm }) :
    settle m (beginRequest t { u with buffer := rest }) = withAnswer f rest r { u with mm := mm } := by
  obtain ⟨k, hk, hleads⟩ := leads_written h hc htk
  have hsets : presentSets u = presentSets { u with mm := mm } := by
    unfold presentSets
    rw [hfree]
  rw [askJudged_of_same hsets (congrArg List.length hspares.symm)] at hleads
  have hleads' : Leads k [] [] (beginRequest t { u with buffer := rest }) (withAnswer f rest r { u with mm := mm }) := by
    rw [← hquiet]
    exact hleads
  exact hleads'.settle_eq hw (hk.trans (by decide)) (takes_tasks h :)

/-- After a write that leaves a range in the trim queue, the quiet condition does not hold. -/
theorem quietJudged_of_trims {before after s : State} (h : s.mm.trims ≠ []) : quietJudged before after s = s := by
  unfold quietJudged
  split
  · refine judgeQuiet_of_not_quiet ?_
    unfold quietCondition
    cases ht : s.mm.trims with
    | nil => exact absurd ht h
    | cons r rest => simp
  · rfl

/-- A write that changes no list calls for no judging of the quiet condition. -/
theorem quietJudged_of_same {before after s : State} (hp : before.mm.pendings = after.mm.pendings) (ht : before.mm.trims = after.mm.trims)
    (hs : before.mm.spares = after.mm.spares) : quietJudged before after s = s := by
  unfold quietJudged
  rw [if_neg]
  simp [hp, ht, hs]

/-! ## WRITE lookups (R38, R40 to R44) -/

theorem decideWrite_of_turned_away {v c tag : Nat} {a : Station} {status : Status} (hcheck : checkChunk s v c = some status) :
    decideWrite s a v c tag = .answered status none := by
  simp only [decideWrite, hcheck]

theorem decideWrite_of_no_entry {v c tag : Nat} {a : Station} (hcheck : checkChunk s v c = none) (he : entryOf s.mm v c = none) :
    decideWrite s a v c tag = .allocates := by
  simp only [decideWrite, hcheck, he]

theorem decideWrite_of_trimmed {v c tag : Nat} {a : Station} {e : Entry} (hcheck : checkChunk s v c = none)
    (he : entryOf s.mm v c = some e) (ht : e.shield < coveringCount s.mm v c) :
    decideWrite s a v c tag = .replaces (disposeEntry s.roster s.presence s.mm v c e) := by
  simp only [decideWrite, hcheck, he, isTrimmed_of_lt ht, if_true]

section live
variable {v c tag : Nat} {a : Station} {e : Entry} (hcheck : checkChunk s v c = none) (he : entryOf s.mm v c = some e)
  (hlive : coveringCount s.mm v c ≤ e.shield)
include hcheck he hlive

theorem decideWrite_of_lost (hl : s.judge e.place = .lost) :
    decideWrite s a v c tag = .replaces { mm := discardEntry s.mm v c e, handback := none } := by
  simp only [decideWrite, hcheck, he, isTrimmed_of_le hlive, hl, if_true, Bool.false_eq_true, if_false]

theorem decideWrite_of_mapped (hl : s.judge e.place ≠ .lost) {r : Station} {t : Nat} (hs : e.state = .mapped r t) :
    decideWrite s a v c tag = placeAnswer .ok e.place (s.judge e.place) := by
  simp only [decideWrite, hcheck, he, isTrimmed_of_le hlive, if_neg hl, hs, Bool.false_eq_true, if_false]

theorem decideWrite_of_owner (hl : s.judge e.place ≠ .lost) {x : Time} (hs : e.state = .pending a tag x) :
    decideWrite s a v c tag = placeAnswer .fresh e.place (s.judge e.place) := by
  simp only [decideWrite, hcheck, he, isTrimmed_of_le hlive, if_neg hl, hs, Bool.false_eq_true, if_false, and_self, if_true]

theorem decideWrite_of_other (hl : s.judge e.place ≠ .lost) {r : Station} {t : Nat} {x : Time} (hs : e.state = .pending r t x)
    (hne : r ≠ a ∨ t ≠ tag) : decideWrite s a v c tag = .answered .held none := by
  have hno : ¬ (r = a ∧ t = tag) := fun ⟨h1, h2⟩ => hne.elim (· h1) (· h2)
  simp only [decideWrite, hcheck, he, isTrimmed_of_le hlive, if_neg hl, hs, Bool.false_eq_true, if_false, if_neg hno]

end live

/-- A WRITE lookup decided without an allocation is answered, and changes nothing. -/
theorem exec_lookupWrite_answered (h : Takes m s u f rest) {v c tag : Nat} (hparse : parseRequest u.fresh f = .lookup true v c tag)
    {status : Status} {pl : Option Place} (hd : decideWrite u f.source v c tag = .answered status pl)
    (hc : u.cond = .halted → status = .notReady) :
    exec (.lookupWrite m) s
      = .next (withAnswer f rest
          { tag := tag, status := status, volume := v, chunk := c, part := (pl.map (placePart u.own)).getD .none } u) := by
  rw [exec_lookupWrite_of_takes h hparse, takes_answered h _ (placeReply u.own tag status v c pl) hc]
  · rfl
  have hd' : decideWrite (reserved rest u) f.source v c tag = .answered status pl := hd
  show takeLookupWrite f.source v c tag (reserved rest u) = _
  unfold takeLookupWrite
  rw [hd']
  rfl

/-- In DRAIN nothing is allocated (R44). -/
theorem exec_lookupWrite_quiesced (h : Takes m s u f rest) {v c tag : Nat} (hparse : parseRequest u.fresh f = .lookup true v c tag)
    (hc : u.cond = .drain) (hd : decideWrite u f.source v c tag = .allocates ∨ ∃ old, decideWrite u f.source v c tag = .replaces old) :
    exec (.lookupWrite m) s
      = .next (withAnswer f rest { tag := tag, status := .quiesced, volume := v, chunk := c, part := .none } u) := by
  have hnothalted : u.cond = .halted → (.quiesced : Status) = .notReady := fun hh => nomatch hc.symm.trans hh
  have hrefused (old : Option Removal) : allocate f.source v c tag old (reserved rest u)
      = answerReserved f.source (plainReply tag .quiesced v c) [] (reserved rest u) := by
    have hdrain : (reserved rest u).cond = .drain := hc
    unfold allocate
    dsimp only
    rw [if_pos hdrain]
  rw [exec_lookupWrite_of_takes h hparse, takes_answered h _ (plainReply tag .quiesced v c) hnothalted]
  · rfl
  · show takeLookupWrite f.source v c tag (reserved rest u) = _
    unfold takeLookupWrite
    obtain hd | ⟨old, hd⟩ := hd
    · rw [show decideWrite (reserved rest u) f.source v c tag = _ from hd]
      exact hrefused none
    · rw [show decideWrite (reserved rest u) f.source v c tag = _ from hd]
      exact hrefused (some old)

/-- Settles O22: each row is one branch of `decideWrite`. -/
theorem writeLookupAnswered : Obligations.WriteLookupAnswered := by
  refine ⟨fun m s u f rest v c tag e h hparse hcond hvol hsize he hlive hlost => ?live, fun m s u f rest v c tag h hparse => ?away⟩
  case live =>
    have hcheck := checkChunk_of_lt_size hcond hvol hsize
    have nothalted {st : Status} : u.cond = .halted → st = .notReady := fun hh => absurd hh hcond
    have placed {st : Status} (hd : decideWrite u f.source v c tag = placeAnswer st e.place (u.judge e.place)) :
        ∃ status part, exec (.lookupWrite m) s
            = .next (withAnswer f rest { tag := tag, status := status, volume := v, chunk := c, part := part } u)
          ∧ (u.judge e.place = .usable → part = placePart u.own e.place ∧ status = st)
          ∧ (u.judge e.place = .bayOff → status = .bayOff ∧ part = .none)
          ∧ (u.judge e.place = .unreachable → status = .unreachable ∧ part = placePart u.own e.place) := by
      cases hj : u.judge e.place with
      | usable =>
        rw [hj] at hd
        exact ⟨_, _, exec_lookupWrite_answered h hparse hd nothalted, fun _ => ⟨rfl, rfl⟩, nofun, nofun⟩
      | bayOff =>
        rw [hj] at hd
        exact ⟨_, _, exec_lookupWrite_answered h hparse hd nothalted, nofun, fun _ => ⟨rfl, rfl⟩, nofun⟩
      | unreachable =>
        rw [hj] at hd
        exact ⟨_, _, exec_lookupWrite_answered h hparse hd nothalted, nofun, nofun, fun _ => ⟨rfl, rfl⟩⟩
      | lost => exact absurd hj hlost
    cases hs : e.state with
    | mapped r t =>
      obtain ⟨status, part, hexec, hu, hb, hr⟩ := placed (decideWrite_of_mapped hcheck he hlive hlost hs)
      exact ⟨status, part, hexec, nofun, fun _ => ⟨fun hj => ⟨(hu hj).1, fun _ => (hu hj).2, fun ⟨_, hx⟩ => nomatch hx⟩, hb, hr⟩⟩
    | pending r t x =>
      by_cases hown : r = f.source ∧ t = tag
      · obtain ⟨rfl, rfl⟩ := hown
        obtain ⟨status, part, hexec, hu, hb, hr⟩ := placed (decideWrite_of_owner hcheck he hlive hlost hs)
        refine ⟨status, part, hexec, fun r t x hp hne => ?_, fun _ => ⟨fun hj => ⟨(hu hj).1, ?_, fun _ => (hu hj).2⟩, hb, hr⟩⟩
        swap
        · rintro ⟨_, _, hx⟩
          cases hx
        obtain ⟨rfl, rfl, _⟩ := EntryState.pending.inj hp
        simp at hne
      · have hne : r ≠ f.source ∨ t ≠ tag := by
          by_contra hno
          rw [not_or, not_not, not_not] at hno
          exact hown hno
        refine ⟨.held, .none, exec_lookupWrite_answered h hparse (decideWrite_of_other hcheck he hlive hlost hs hne) nothalted,
          fun _ _ _ _ _ => ⟨rfl, rfl⟩, fun hmine => ?_⟩
        obtain ⟨_, _, hx⟩ | ⟨_, hx⟩ := hmine
        · cases hx
        · cases hx
          exact absurd ⟨rfl, rfl⟩ hown
  case away =>
    refine ⟨fun hcond => ?_, fun hcond => ⟨fun hvol => ?_, fun hvol => ⟨fun hsize => ?_, fun hsize hdrain hold => ?_⟩⟩⟩
    · exact exec_lookupWrite_answered h hparse (decideWrite_of_turned_away (checkChunk_of_halted hcond v c)) fun _ => rfl
    · exact exec_lookupWrite_answered h hparse (decideWrite_of_turned_away (checkChunk_of_not_active hcond hvol c)) (absurd · hcond)
    · exact exec_lookupWrite_answered h hparse (decideWrite_of_turned_away (checkChunk_of_size_le hcond hvol hsize)) (absurd · hcond)
    · have hcheck := checkChunk_of_lt_size hcond hvol hsize
      refine exec_lookupWrite_quiesced h hparse hdrain ?_
      cases he : entryOf u.mm v c with
      | none => exact .inl (decideWrite_of_no_entry hcheck he)
      | some e =>
        by_cases ht : e.shield < coveringCount u.mm v c
        · exact .inr ⟨_, decideWrite_of_trimmed hcheck he ht⟩
        · exact .inr ⟨_, decideWrite_of_lost hcheck he (Nat.not_lt.mp ht) ((hold e he).resolve_left ht)⟩

end request

end Sys2Proof.Machine

/-! COMMIT, TRIM and VOLUME requests answered. -/

namespace Sys2Proof.Machine

section request
variable {m : Moment} {s u : State} {f : RawFrame} {rest : List RawFrame}

/-! ## What a request read from its payload can name -/

theorem readFields_lt {ws : List Nat} {bits : List Bool} {vs : List Nat} (h : readFields ws bits = some vs) :
    List.Forall₂ (fun w v => v < 2 ^ w) ws vs := by
  induction ws generalizing bits vs with
  | nil =>
    unfold readFields at h
    split at h
    · cases h
      exact .nil
    · cases h
  | cons w ws ih =>
    unfold readFields at h
    obtain ⟨vs', hrest, rfl⟩ := Option.map_eq_some_iff.mp h
    have hlen : (bits.take w).length ≤ w := by simp
    exact .cons ((numberOf_lt _).trans_le (Nat.pow_le_pow_right (by decide) hlen)) (ih hrest)

theorem parseFields_lt {ws : List Nat} {p : List Byte} {vs : List Nat} (h : parseFields ws p = some vs) :
    List.Forall₂ (fun w v => v < 2 ^ w) ws vs := by
  unfold parseFields at h
  split at h
  · exact readFields_lt h
  · cases h

theorem malformedRequest_eq (fresh kind : Nat) (p : List Byte) : ∃ v c t, malformedRequest fresh kind p = .malformed v c t := by
  unfold malformedRequest
  repeat' split
  all_goals exact ⟨_, _, _, rfl⟩

/-- A request that is not malformed is the one its payload spells. -/
theorem requestOf_of_parseRequest {fresh : Nat} {req : Request} (h : parseRequest fresh f = req)
    (hgood : ∀ v c t, req ≠ .malformed v c t) : requestOf f.kind.toNat f.payload = some req := by
  obtain ⟨v, c, t, hbad⟩ := malformedRequest_eq fresh f.kind.toNat f.payload
  unfold parseRequest at h
  rw [hbad] at h
  split at h
  · cases hr : requestOf f.kind.toNat f.payload with
    | some r =>
      rw [hr] at h
      exact congrArg some h
    | none =>
      rw [hr] at h
      exact absurd h.symm (hgood v c t)
  · exact absurd h.symm (hgood v c t)

/-- A COMMIT names a chunk its field can hold. -/
theorem parseRequest_commit_lt {fresh v c tag : Nat} (h : parseRequest fresh f = .commit v c tag) : c < Config.maxVolume := by
  have hr := requestOf_of_parseRequest h nofun
  unfold requestOf at hr
  repeat' split at hr
  all_goals cases hr
  rename_i hfields
  cases parseFields_lt hfields with
  | cons _ hrest =>
    cases hrest with
    | cons hc _ => exact hc

/-! ## COMMIT (R49) -/

/-- A COMMIT that makes no write is answered, and changes nothing. -/
theorem exec_commit_answered (h : Takes m s u f rest) {v c tag : Nat} (hparse : parseRequest u.fresh f = .commit v c tag)
    {status : Status} (hd : decideCommit u f.source v c tag = (status, none)) (hc : u.cond = .halted → status = .notReady) :
    exec (.commit m) s
      = .next (withAnswer f rest { tag := tag, status := status, volume := v, chunk := c, part := .none } u) := by
  rw [exec_commit_of_takes h hparse, takes_answered h _ (plainReply tag status v c) hc]
  · rfl
  have hd' : decideCommit (reserved rest u) f.source v c tag = (status, none) := hd
  show takeCommit f.source v c tag (reserved rest u) = _
  unfold takeCommit
  rw [hd']
  rfl

/-- A COMMIT that makes a write. -/
theorem takeTask_commit {v c tag : Nat} {mm : MapMemory} {status : Status} (hd : decideCommit u f.source v c tag = (status, some mm)) :
    takeTask (.commit f.source v c tag) (reserved rest u)
      = (reserved rest u, some
          { image := mm, rotor := u.rotor, takes := false, onDone := [.reply f.source (plainReply tag status v c)], goOn := []
            onFail := failedRequest f.source tag v c }) := by
  have hd' : decideCommit (reserved rest u) f.source v c tag = (status, some mm) := hd
  show takeCommit f.source v c tag (reserved rest u) = _
  unfold takeCommit
  rw [hd']
  rfl

/-- Map memory after an owner's COMMIT (R49, R50). -/
def committed (mm : MapMemory) (v c : Nat) (e : Entry) (a : Station) (tag : Nat) : MapMemory :=
  removePending (putEntry mm v c { e with state := .mapped a tag }) v c

theorem decideCommit_of_owner {v c tag : Nat} {a : Station} {e : Entry} {x : Time} (hcheck : checkChunk s v c = none)
    (he : entryOf s.mm v c = some e) (hs : e.state = .pending a tag x) :
    decideCommit s a v c tag = (.done, some (committed s.mm v c e a tag)) := by
  simp only [decideCommit, hcheck, he, hs, and_self, if_true, committed]

theorem decideCommit_of_turned_away {v c tag : Nat} {a : Station} {status : Status} (hcheck : checkChunk s v c = some status) :
    decideCommit s a v c tag = (status, none) := by
  simp only [decideCommit, hcheck]

theorem decideCommit_of_no_entry {v c tag : Nat} {a : Station} (hcheck : checkChunk s v c = none) (he : entryOf s.mm v c = none) :
    decideCommit s a v c tag = (.late, none) := by
  simp only [decideCommit, hcheck, he]

theorem decideCommit_of_repeat {v c tag : Nat} {a : Station} {e : Entry} (hcheck : checkChunk s v c = none)
    (he : entryOf s.mm v c = some e) (hs : e.state = .mapped a tag) : decideCommit s a v c tag = (.done, none) := by
  simp only [decideCommit, hcheck, he, hs, and_self, if_true]

theorem decideCommit_of_other_mapped {v c tag : Nat} {a r : Station} {t : Nat} {e : Entry} (hcheck : checkChunk s v c = none)
    (he : entryOf s.mm v c = some e) (hs : e.state = .mapped r t) (hne : r ≠ a ∨ t ≠ tag) : decideCommit s a v c tag = (.late, none) := by
  have hno : ¬ (r = a ∧ t = tag) := fun ⟨h1, h2⟩ => hne.elim (· h1) (· h2)
  simp only [decideCommit, hcheck, he, hs, if_neg hno]

theorem decideCommit_of_other_pending {v c tag : Nat} {a r : Station} {t : Nat} {x : Time} {e : Entry} (hcheck : checkChunk s v c = none)
    (he : entryOf s.mm v c = some e) (hs : e.state = .pending r t x) (hne : r ≠ a ∨ t ≠ tag) :
    decideCommit s a v c tag = (.late, none) := by
  have hno : ¬ (r = a ∧ t = tag) := fun ⟨h1, h2⟩ => hne.elim (· h1) (· h2)
  simp only [decideCommit, hcheck, he, hs, if_neg hno]

/-- The record of a PENDING entry is in the list, so its COMMIT shortens the list. -/
theorem committed_pendings_ne {mm : MapMemory} (h : PendingLaw mm) {v c : Nat} (hc : c < Config.maxVolume) {e : Entry} {a : Station} {tag : Nat}
    {x : Time} (he : entryOf mm v c = some e) (hs : e.state = .pending a tag x) :
    mm.pendings ≠ (committed mm v c e a tag).pendings := by
  intro heq
  have hmem := h.listed v c e a tag x hc he hs
  have hgone : (⟨v, c, a, tag, x⟩ : PendingRecord) ∉ (committed mm v c e a tag).pendings := by
    simp [committed, removePending]
  exact hgone (heq ▸ hmem)

end request

/-- With a place for HAIL(LEAVING), the end of a drain brings no event. -/
theorem judgeQuiet_tasks_of_place {s : State} (hplace : hasPlace s = true) (ht : s.tasks = []) : (judgeQuiet s).tasks = [] := by
  unfold judgeQuiet
  split
  · rename_i hc
    have hoffered : offerFrame (buildHail .leaving { s with drainEnded := true, drainTimer := none, walkerTimer := none })
        { s with drainEnded := true, drainTimer := none, walkerTimer := none }
        = some (pushFrame (buildHail .leaving { s with drainEnded := true, drainTimer := none, walkerTimer := none })
            { s with drainEnded := true, drainTimer := none, walkerTimer := none }) := by
      have hroom : hasPlace { s with drainEnded := true, drainTimer := none, walkerTimer := none } = true := hplace
      have hlets : refuses s.cond (buildHail .leaving { s with drainEnded := true, drainTimer := none, walkerTimer := none }) = false := by
        rw [hc.1]
        rfl
      unfold offerFrame
      rw [if_neg (by simpa using hlets), if_neg (by simp [buildHail, OutFrame.isReplyOrAlert]), if_pos hroom]
    unfold endDrain
    dsimp only
    rw [hoffered]
    exact ht
  · exact ht

/-- Settles O27. -/
theorem commitAnswered : Obligations.CommitAnswered := by
  refine ⟨fun m s u f rest v c tag expiry pl shield h hparse hw hvol hsize he => ?owner, fun m s u f rest v c tag h hparse => ?others⟩
  case owner =>
    have hnothalted (hc : u.cond = .ready ∨ u.cond = .drain) : u.cond ≠ .halted := by
      obtain hc | hc := hc <;> rw [hc] <;> exact nofun
    have hwrite (hc : u.cond = .ready ∨ u.cond = .drain) := takeTask_commit (f := f) (rest := rest)
      (decideCommit_of_owner (checkChunk_of_lt_size (hnothalted hc) hvol hsize) he rfl)
    refine ⟨fun hc => ?_, fun hc hlaw hplace => ?_⟩
    · rw [exec_commit_of_takes h hparse, settle_written_still h hw (hnothalted (.inl hc)) (hwrite (.inl hc)) rfl rfl
        (quietJudged_of_cond (by show u.cond ≠ .drain; rw [hc]; exact nofun))]
      rfl
    · obtain ⟨k, hk, hleads⟩ := leads_written h (hnothalted (.inr hc)) (hwrite (.inr hc))
      have hlists := committed_pendings_ne hlaw (parseRequest_commit_lt hparse) he rfl
      have hjudged (w : State) :
          quietJudged u { u with mm := committed u.mm v c ⟨.pending f.source tag expiry, pl, shield⟩ f.source tag } w = judgeQuiet w :=
        if_pos (.inl hlists)
      rw [hjudged, askJudged_of_cond (by show u.cond ≠ .ready; rw [hc]; exact nofun)] at hleads
      rw [exec_commit_of_takes h hparse]
      refine congrArg Host.Outcome.next (hleads.settle_eq hw (hk.trans (by decide)) ?_)
      exact judgeQuiet_tasks_of_place hplace (takes_tasks h :)
  case others =>
    refine ⟨fun hc => ?_, fun hc => ⟨fun hvol => ?_, fun hvol => ⟨fun hsize => ?_, fun hsize => ⟨fun he => ?_, fun e he =>
      ⟨fun hs => ?_, fun r t hs hne => ?_, fun r t x hs hne => ?_⟩⟩⟩⟩⟩
    · exact exec_commit_answered h hparse (decideCommit_of_turned_away (checkChunk_of_halted hc v c)) fun _ => rfl
    · exact exec_commit_answered h hparse (decideCommit_of_turned_away (checkChunk_of_not_active hc hvol c)) (absurd · hc)
    · exact exec_commit_answered h hparse (decideCommit_of_turned_away (checkChunk_of_size_le hc hvol hsize)) (absurd · hc)
    · exact exec_commit_answered h hparse (decideCommit_of_no_entry (checkChunk_of_lt_size hc hvol hsize) he) (absurd · hc)
    · exact exec_commit_answered h hparse (decideCommit_of_repeat (checkChunk_of_lt_size hc hvol hsize) he hs) (absurd · hc)
    · exact exec_commit_answered h hparse (decideCommit_of_other_mapped (checkChunk_of_lt_size hc hvol hsize) he hs hne) (absurd · hc)
    · exact exec_commit_answered h hparse (decideCommit_of_other_pending (checkChunk_of_lt_size hc hvol hsize) he hs hne) (absurd · hc)

/-! ## TRIM (R59, R60) -/

section trim
variable {m : Moment} {s u : State} {f : RawFrame} {rest : List RawFrame}

theorem exec_trim_answered (h : Takes m s u f rest) {v first count tag : Nat} (hparse : parseRequest u.fresh f = .trim v first count tag)
    {status : Status} (hd : checkTrim u v first count = some status) (hc : u.cond = .halted → status = .notReady) :
    exec (.trim m) s = .next (withAnswer f rest { tag := tag, status := status, volume := v, chunk := first, part := .none } u) := by
  rw [exec_trim_of_takes h hparse, takes_answered h _ (plainReply tag status v first) hc]
  · rfl
  have hd' : checkTrim (reserved rest u) v first count = some status := hd
  show takeTrim f.source v first count tag (reserved rest u) = _
  unfold takeTrim
  rw [hd']
  rfl

theorem takeTask_trim {v first count tag : Nat} (hd : checkTrim u v first count = none) :
    takeTask (.trim f.source v first count tag) (reserved rest u)
      = (reserved rest u, some
          { image := { u.mm with trims := u.mm.trims ++ [trimRangeOf u.mm f.source v first count tag] }
            rotor := u.rotor, takes := false, onDone := [.reply f.source (plainReply tag .queued v first)], goOn := []
            onFail := failedRequest f.source tag v first }) := by
  have hd' : checkTrim (reserved rest u) v first count = none := hd
  show takeTrim f.source v first count tag (reserved rest u) = _
  unfold takeTrim
  rw [hd']
  rfl

theorem checkTrim_of_halted {v first count : Nat} (hc : s.cond = .halted) : checkTrim s v first count = some .notReady := if_pos hc

theorem checkTrim_of_zero {v first count : Nat} (hc : s.cond ≠ .halted) (hn : count = 0) : checkTrim s v first count = some .badReq := by
  simp only [checkTrim, if_neg hc, if_pos hn]

theorem checkTrim_of_not_active {v first count : Nat} (hc : s.cond ≠ .halted) (hn : count ≠ 0) (hv : (volumeOf s.mm v).state ≠ .active) :
    checkTrim s v first count = some .noVol := by
  simp only [checkTrim, if_neg hc, if_neg hn, if_pos hv]

theorem checkTrim_of_size_le {v first count : Nat} (hc : s.cond ≠ .halted) (hn : count ≠ 0) (hv : (volumeOf s.mm v).state = .active)
    (hsize : (volumeOf s.mm v).size ≤ first) : checkTrim s v first count = some .range := by
  simp only [checkTrim, if_neg hc, if_neg hn, if_neg (not_not.2 hv), if_pos hsize]

theorem checkTrim_of_full {v first count : Nat} (hc : s.cond ≠ .halted) (hn : count ≠ 0) (hv : (volumeOf s.mm v).state = .active)
    (hsize : first < (volumeOf s.mm v).size) (hroom : Config.trimPlaces ≤ s.mm.trims.length) :
    checkTrim s v first count = some .busy := by
  simp only [checkTrim, if_neg hc, if_neg hn, if_neg (not_not.2 hv), if_neg (Nat.not_le.2 hsize), if_pos hroom]

theorem checkTrim_of_room {v first count : Nat} (hc : s.cond ≠ .halted) (hn : count ≠ 0) (hv : (volumeOf s.mm v).state = .active)
    (hsize : first < (volumeOf s.mm v).size) (hroom : s.mm.trims.length < Config.trimPlaces) : checkTrim s v first count = none := by
  simp only [checkTrim, if_neg hc, if_neg hn, if_neg (not_not.2 hv), if_neg (Nat.not_le.2 hsize), if_neg (Nat.not_le.2 hroom)]

end trim

/-- Settles O28. -/
theorem trimAnswered : Obligations.TrimAnswered := by
  intro m s u f rest v first count tag h hparse
  refine ⟨fun hc => ?_, fun hc => ⟨fun hn => ?_, fun hn => ⟨fun hv => ?_, fun hv => ⟨fun hsize => ?_, fun hsize =>
    ⟨fun hroom => ?_, fun hroom hw => ⟨_, rfl, ?_⟩⟩⟩⟩⟩⟩
  · exact exec_trim_answered h hparse (checkTrim_of_halted hc) fun _ => rfl
  · exact exec_trim_answered h hparse (checkTrim_of_zero hc hn) (absurd · hc)
  · exact exec_trim_answered h hparse (checkTrim_of_not_active hc hn.ne' hv) (absurd · hc)
  · exact exec_trim_answered h hparse (checkTrim_of_size_le hc hn.ne' hv hsize) (absurd · hc)
  · exact exec_trim_answered h hparse (checkTrim_of_full hc hn.ne' hv hsize hroom) (absurd · hc)
  · rw [exec_trim_of_takes h hparse, settle_written_still h hw hc (takeTask_trim (checkTrim_of_room hc hn.ne' hv hsize hroom)) rfl rfl
      (quietJudged_of_trims (by simp [withAnswer, pushFrame]))]
    rfl

/-! ## VOLUME (R23 to R26) -/

section volume
variable {m : Moment} {s u : State} {f : RawFrame} {rest : List RawFrame}

/-- A VOLUME action that changes nothing is answered. -/
theorem settle_volume_answered (h : Takes m s u f rest) {t : Task} {d : State → VolumeDecision} {v tag : Nat} {status : Status}
    (ht : takeTask t (reserved rest u) = takeVolume f.source v tag (d (reserved rest u)) (reserved rest u))
    (hd : d (reserved rest u) = (status, none)) (hc : u.cond = .halted → status = .notReady) :
    settle m (beginRequest t { u with buffer := rest }) = withAnswer f rest (volumeReply (volumesRead u) u.mm tag status v) u := by
  refine takes_answered h t (volumeReply (volumesRead u) u.mm tag status v) hc ?_
  show takeTask t (reserved rest u) = _
  rw [ht, hd]
  rfl

/-- A VOLUME action that changes the volume table or appends a DELETE range. -/
theorem settle_volume_written (h : Takes m s u f rest) (hw : m.writes = []) (hc : u.cond ≠ .halted) {t : Task} {d : State → VolumeDecision}
    {v tag : Nat} {status : Status} {mm : MapMemory}
    (ht : takeTask t (reserved rest u) = takeVolume f.source v tag (d (reserved rest u)) (reserved rest u))
    (hd : d (reserved rest u) = (status, some mm)) (hfree : mm.freeSets = u.mm.freeSets) (hspares : mm.spares = u.mm.spares)
    (hquiet : ∀ w : State, w.mm = mm → quietJudged u { u with mm := mm } w = w) :
    settle m (beginRequest t { u with buffer := rest })
      = withAnswer f rest (volumeReply (volumesRead u) mm tag status v) { u with mm := mm } := by
  refine settle_written_still h hw hc (r := volumeReply (volumesRead u) mm tag status v) (onFail := failedRequest f.source tag v 0) ?_
    hfree hspares (hquiet _ rfl)
  rw [ht, hd]
  rfl

theorem volumeReply_of_active {read : Bool} {mm : MapMemory} {tag v : Nat} {status : Status} (hread : read = true)
    (ha : (volumeOf mm v).state = .active) :
    volumeReply read mm tag status v = { tag := tag, status := status, volume := v, chunk := 0, part := .size (volumeOf mm v).size } := by
  simp only [volumeReply, hread, ha, and_self, if_true]

theorem volumeReply_of_not_active {read : Bool} {mm : MapMemory} {tag v : Nat} {status : Status}
    (ha : (volumeOf mm v).state ≠ .active) :
    volumeReply read mm tag status v = { tag := tag, status := status, volume := v, chunk := 0, part := .none } := by
  simp only [volumeReply, ha, and_false, if_false]

theorem volumesRead_of_not_halted (hc : u.cond ≠ .halted) : volumesRead u = true := by
  simp [volumesRead, hc]

theorem volumesRead_of_halted (hc : u.cond = .halted) : volumesRead u = u.headerRead := by
  simp [volumesRead, hc]

/-- Map memory after a DELETE that is taken (R26). -/
def deleting (mm : MapMemory) (a : Station) (v tag : Nat) : MapMemory :=
  setVolume
    { mm with
      trims := mm.trims ++
        [{ volume := v, first := 0, last := (volumeOf mm v).size - 1, cursor := 0, origin := .delete, requester := a, tag := tag }] }
    v { volumeOf mm v with state := .retiring }

/-- A record of a volume that is not the resting one is put into the table. -/
theorem setVolume_put {mm : MapMemory} {v : Nat} {r : Volume} (hr : r.state ≠ .free) :
    setVolume mm v r = { mm with volumes := tablePut mm.volumes v r } := by
  unfold setVolume tableSet
  rw [if_neg fun h => hr (by rw [h]; rfl)]

theorem volumeOf_put {mm : MapMemory} (v : Nat) (r : Volume) : volumeOf { mm with volumes := tablePut mm.volumes v r } v = r :=
  tableGet_of_find (tableFind_put_same _ _ _)

end volume

/-- Settles O29. -/
theorem volumesAnswered : Obligations.VolumesAnswered := by
  refine ⟨fun m s u f rest v size tag h hc hw => ⟨fun hparse => ?create, fun hparse => ?grow, fun hparse => ?delete⟩,
    fun m s u f rest v size tag h hc => ⟨fun hparse => ?haltedCreate, fun hparse => ?haltedGrow, fun hparse => ?haltedDelete⟩⟩
  case create =>
    have hread := volumesRead_of_not_halted hc
    have answered {status : Status} (hd : decideCreate u v size = (status, none)) : exec (.volumeCreate m) s
        = .next (withAnswer f rest (volumeReply (volumesRead u) u.mm tag status v) u) := by
      rw [exec_volumeCreate_of_takes h hparse]
      exact congrArg Host.Outcome.next (settle_volume_answered h (d := fun w => decideCreate w v size) rfl hd (absurd · hc))
    refine ⟨fun ha => ?_, fun hr => ?_, fun hf hz => ?_, fun hf hpos => ?_⟩
    · rw [answered (status := .exists) (by simp only [decideCreate, if_neg hc, ha]), volumeReply_of_active hread ha]
    · rw [answered (status := .busy) (by simp only [decideCreate, if_neg hc, hr]), volumeReply_of_not_active (by rw [hr]; exact nofun)]
    · rw [answered (status := .badReq) (by simp only [decideCreate, if_neg hc, hf, if_pos hz]),
        volumeReply_of_not_active (by rw [hf]; exact nofun)]
    · have hd : decideCreate (reserved rest u) v size = (.ok, some (setVolume u.mm v { state := .active, size := clampSize size, count := 0 })) := by
        have hd' : decideCreate u v size = (.ok, some (setVolume u.mm v { state := .active, size := clampSize size, count := 0 })) := by
          simp only [decideCreate, if_neg hc, hf, if_neg hpos.ne']
        exact hd'
      rw [exec_volumeCreate_of_takes h hparse, settle_volume_written h hw hc (d := fun w => decideCreate w v size) rfl hd rfl rfl
        fun w _ => quietJudged_of_same rfl rfl rfl, setVolume_put (r := { state := .active, size := clampSize size, count := 0 }) nofun, volumeReply_of_active hread (by rw [volumeOf_put]), volumeOf_put]
      rfl
  case grow =>
    have hread := volumesRead_of_not_halted hc
    have answered {status : Status} (hd : decideGrow u v size = (status, none)) : exec (.volumeGrow m) s
        = .next (withAnswer f rest (volumeReply (volumesRead u) u.mm tag status v) u) := by
      rw [exec_volumeGrow_of_takes h hparse]
      exact congrArg Host.Outcome.next (settle_volume_answered h (d := fun w => decideGrow w v size) rfl hd (absurd · hc))
    refine ⟨fun ha => ?_, fun ha hlt => ?_, fun ha heq => ?_, fun ha hlt => ?_⟩
    · rw [answered (status := .noVol) (by simp only [decideGrow, if_neg hc, if_pos ha]), volumeReply_of_not_active ha]
    · have hlt' : clampSize size < (volumeOf u.mm v).size := hlt
      rw [answered (status := .badReq) (by simp only [decideGrow, if_neg hc, if_neg (not_not.2 ha), if_pos hlt']), volumeReply_of_active hread ha]
    · have heq' : clampSize size = (volumeOf u.mm v).size := heq
      rw [answered (status := .ok) (by simp only [decideGrow, if_neg hc, if_neg (not_not.2 ha), heq', lt_irrefl, if_false, if_true]),
        volumeReply_of_active hread ha]
    · have hlt' : (volumeOf u.mm v).size < clampSize size := hlt
      have hd : decideGrow (reserved rest u) v size = (.ok, some (setVolume u.mm v { volumeOf u.mm v with size := clampSize size })) := by
        have hd' : decideGrow u v size = (.ok, some (setVolume u.mm v { volumeOf u.mm v with size := clampSize size })) := by
          simp only [decideGrow, if_neg hc, if_neg (not_not.2 ha), if_neg (Nat.not_lt.2 hlt'.le), if_neg hlt'.ne']
        exact hd'
      have hactive : ({ volumeOf u.mm v with size := clampSize size } : Volume).state = .active := ha
      rw [exec_volumeGrow_of_takes h hparse, settle_volume_written h hw hc (d := fun w => decideGrow w v size) rfl hd rfl rfl
        fun w _ => quietJudged_of_same rfl rfl rfl, setVolume_put (by rw [hactive]; exact nofun),
        volumeReply_of_active hread (by rw [volumeOf_put]; exact ha), volumeOf_put]
      rfl
  case delete =>
    have hread := volumesRead_of_not_halted hc
    have answered {status : Status} (hd : decideDelete u f.source v tag = (status, none)) : exec (.volumeDelete m) s
        = .next (withAnswer f rest (volumeReply (volumesRead u) u.mm tag status v) u) := by
      rw [exec_volumeDelete_of_takes h hparse]
      exact congrArg Host.Outcome.next (settle_volume_answered h (d := fun w => decideDelete w f.source v tag) rfl hd (absurd · hc))
    refine ⟨fun ha => ?_, fun ha hfull => ?_, fun ha hroom => ?_⟩
    · rw [answered (status := .noVol) (by simp only [decideDelete, if_neg hc, if_pos ha]), volumeReply_of_not_active ha]
    · rw [answered (status := .busy) (by simp only [decideDelete, if_neg hc, if_neg (not_not.2 ha), if_pos hfull]),
        volumeReply_of_active hread ha]
    · have hd : decideDelete (reserved rest u) f.source v tag = (.queued, some (deleting u.mm f.source v tag)) := by
        have hd' : decideDelete u f.source v tag = (.queued, some (deleting u.mm f.source v tag)) := by
          simp only [decideDelete, if_neg hc, if_neg (not_not.2 ha), if_neg (Nat.not_le.2 hroom), deleting]
        exact hd'
      have hput : deleting u.mm f.source v tag = _ := setVolume_put (r := { volumeOf u.mm v with state := .retiring }) nofun
      have hretiring : (volumeOf (deleting u.mm f.source v tag) v).state ≠ .active := by
        rw [hput, volumeOf_put]
        exact nofun
      rw [exec_volumeDelete_of_takes h hparse, settle_volume_written h hw hc (d := fun w => decideDelete w f.source v tag) rfl hd rfl rfl
        fun w hmm => quietJudged_of_trims (by rw [hmm]; simp [deleting]), volumeReply_of_not_active hretiring, hput]
  case haltedCreate =>
    rw [exec_volumeCreate_of_takes h hparse, settle_volume_answered h (d := fun w => decideCreate w v size) rfl (if_pos hc) fun _ => rfl,
      volumesRead_of_halted hc]
    rfl
  case haltedGrow =>
    rw [exec_volumeGrow_of_takes h hparse, settle_volume_answered h (d := fun w => decideGrow w v size) rfl (if_pos hc) fun _ => rfl,
      volumesRead_of_halted hc]
    rfl
  case haltedDelete =>
    rw [exec_volumeDelete_of_takes h hparse, settle_volume_answered h (d := fun w => decideDelete w f.source v tag) rfl (if_pos hc)
      fun _ => rfl, volumesRead_of_halted hc]
    rfl

end Sys2Proof.Machine

/-! Grains taken from the pool (R9, R10), and a bay's change of presence (R5 to R8). -/

namespace Sys2Proof.Machine

/-! ## Free sets and their sums -/

theorem FreeSet.has_iff {x : FreeSet} {g : Nat} : x.has g = true ↔ g < x.count ∧ g ∉ x.held := by
  simp [FreeSet.has]

theorem FreeSet.has_take (x : FreeSet) (g k : Nat) : (x.take g).has k = (x.has k && k != g) := by
  rw [Bool.eq_iff_iff, Bool.and_eq_true, bne_iff_ne, FreeSet.has_iff, FreeSet.has_iff, FreeSet.mem_take_held, FreeSet.take_count]
  tauto

theorem FreeSet.held_length_le {x : FreeSet} (w : x.wf) : x.held.length ≤ x.count := by
  have hsub : x.held.Subperm (List.range x.count) := (rising_nodup w.1).subperm fun k hk => List.mem_range.mpr (w.2 k hk)
  simpa using hsub.length_le

theorem FreeSet.size_take {x : FreeSet} {g : Nat} (w : x.wf) (hg : g < x.count) (hfree : g ∉ x.held) : x.size = (x.take g).size + 1 := by
  have hlen : (x.take g).held.length = x.held.length + 1 := length_insertRising hfree
  have hle : (x.take g).held.length ≤ x.count := FreeSet.held_length_le (FreeSet.take_wf w hg)
  unfold FreeSet.size
  rw [FreeSet.take_count]
  omega

theorem FreeSet.size_of_lowest_none {x : FreeSet} (w : x.wf) (h : x.lowest = none) : x.size = 0 := by
  have hspec := lowestMissing_spec w.1 (n := 0) fun _ _ => Nat.zero_le _
  unfold FreeSet.lowest at h
  simp only at h
  split at h
  · cases h
  · unfold FreeSet.size
    omega

/-- The sum over the PRESENT bays after a change of one of them. -/
theorem sumPresent_modify_of_present (f : FreeSet → Nat) (h : FreeSet → FreeSet) {presence : List Bool} {sets : List FreeSet} {bay : Nat}
    {x : FreeSet} (hp : presence[bay]? = some true) (hx : sets[bay]? = some x) :
    sumPresent f presence (sets.modify bay h) + f x = sumPresent f presence sets + f (h x) := by
  induction presence generalizing sets bay with
  | nil => cases hp
  | cons p presence ih =>
    cases sets with
    | nil => cases hx
    | cons y sets =>
      cases bay with
      | zero =>
        cases hp
        cases hx
        simp only [List.modify_zero_cons, sumPresent_cons, if_true]
        omega
      | succ bay =>
        have := ih (bay := bay) (sets := sets) hp hx
        simp only [List.modify_succ_cons, sumPresent_cons]
        omega

theorem sumPresent_eq_zero {f : FreeSet → Nat} {presence : List Bool} {sets : List FreeSet}
    (h : ∀ (bay : Nat) x, presence[bay]? = some true → sets[bay]? = some x → f x = 0) : sumPresent f presence sets = 0 := by
  induction presence generalizing sets with
  | nil => rfl
  | cons p presence ih =>
    cases sets with
    | nil => rfl
    | cons y sets =>
      rw [sumPresent_cons, ih fun bay x hp hx => h (bay + 1) x hp hx]
      cases p with
      | false => rfl
      | true => exact h 0 y rfl rfl

/-! ## One search (R9) -/

theorem firstOffer_none {presence : List Bool} {sets : List FreeSet} {order : List Nat} (h : firstOffer presence sets order = none) :
    ∀ b ∈ order, bayOffers presence sets b = none := by
  induction order with
  | nil => nofun
  | cons b order ih =>
    unfold firstOffer at h
    split at h
    · cases h
    · rename_i hb
      exact List.forall_mem_cons.mpr ⟨hb, ih h⟩

theorem firstOffer_split {presence : List Bool} {sets : List FreeSet} {order : List Nat} {b g : Nat}
    (h : firstOffer presence sets order = some (b, g)) :
    ∃ before after, order = before ++ b :: after ∧ ∀ x ∈ before, bayOffers presence sets x = none := by
  induction order with
  | nil => cases h
  | cons x order ih =>
    unfold firstOffer at h
    split at h
    · cases h
      exact ⟨[], order, rfl, nofun⟩
    · rename_i hx
      obtain ⟨before, after, horder, hbefore⟩ := ih h
      exact ⟨x :: before, after, by rw [horder]; rfl, List.forall_mem_cons.mpr ⟨hx, hbefore⟩⟩

theorem getElem?_searchOrder {n rotor i : Nat} (hi : i < n) : (searchOrder n rotor)[i]? = some ((rotor + i) % n) := by
  simp [searchOrder, hi]

/-- A search goes round all bays. -/
theorem mem_searchOrder {n rotor bay : Nat} (hr : rotor < n) (hb : bay < n) : bay ∈ searchOrder n rotor := by
  refine List.mem_map.mpr ⟨(bay + n - rotor) % n, List.mem_range.mpr (Nat.mod_lt _ (by omega)), ?_⟩
  rw [Nat.add_mod_mod, show rotor + (bay + n - rotor) = bay + n by omega, Nat.add_mod_right, Nat.mod_eq_of_lt hb]

theorem lt_length_of_getElem? {α : Type} {l : List α} {i : Nat} {x : α} (h : l[i]? = some x) : i < l.length :=
  (List.getElem?_eq_some_iff.mp h).1

section take
variable {presence : List Bool} {sets : List FreeSet} {rotor : Nat}

/-- When no PRESENT bay has a grain to give, none is free. -/
theorem poolFree_of_no_offer (hr : rotor < presence.length) (w : ∀ x ∈ sets, x.wf)
    (h : firstOffer presence sets (searchOrder presence.length rotor) = none) : poolFree presence sets = 0 := by
  refine sumPresent_eq_zero fun bay x hp hx => ?_
  have hoffers := firstOffer_none h bay (mem_searchOrder hr (lt_length_of_getElem? hp))
  unfold bayOffers at hoffers
  rw [List.getD_eq_getElem?_getD, hp, hx] at hoffers
  exact FreeSet.size_of_lowest_none (w x (List.mem_of_getElem? hx)) hoffers

/-- What one search that finds a grain takes. -/
structure GrainTaken (presence : List Bool) (sets : List FreeSet) (rotor bay grain : Nat) (x : FreeSet) : Prop where
  present : presence[bay]? = some true
  set : sets[bay]? = some x
  lt : grain < x.count
  free : grain ∉ x.held
  lowest : ∀ g, g < grain → g ∈ x.held
  poolFree : poolFree presence sets = poolFree presence (sets.modify bay (·.take grain)) + 1
  poolSize : poolSize presence (sets.modify bay (·.take grain)) = poolSize presence sets
  wf : ∀ y ∈ sets.modify bay (·.take grain), y.wf
  searched : ∃ steps, steps < presence.length ∧ bay = (rotor + steps) % presence.length
    ∧ ∀ i, i < steps → bayOffers presence sets ((rotor + i) % presence.length) = none

theorem grainTaken (w : ∀ x ∈ sets, x.wf) {bay grain : Nat}
    (h : firstOffer presence sets (searchOrder presence.length rotor) = some (bay, grain)) :
    ∃ x, GrainTaken presence sets rotor bay grain x := by
  obtain ⟨hpresent, x, hx, hlt, hfree, hlow⟩ := firstOffer_free w h
  obtain ⟨before, after, horder, hbefore⟩ := firstOffer_split h
  have hp : presence[bay]? = some true := by
    rw [List.getD_eq_getElem?_getD] at hpresent
    cases hp : presence[bay]? with
    | none => rw [hp] at hpresent; cases hpresent
    | some b => rw [hp] at hpresent; exact congrArg some hpresent
  have hsize := FreeSet.size_take (w x (List.mem_of_getElem? hx)) hlt hfree
  have hf := sumPresent_modify_of_present FreeSet.size (·.take grain) hp hx
  have hc := sumPresent_modify_of_present (·.count) (·.take grain) hp hx
  have hlen : before.length < presence.length := by
    have := congrArg List.length horder
    simp [searchOrder] at this
    omega
  have hat (i : Nat) (hi : i < presence.length) : (before ++ bay :: after)[i]? = some ((rotor + i) % presence.length) :=
    horder ▸ getElem?_searchOrder hi
  refine ⟨x, hp, hx, hlt, hfree, hlow, ?_, ?_, modify_take_wf w hx hlt, before.length, hlen, ?_, fun i hi => ?_⟩
  · unfold Machine.poolFree
    omega
  · unfold Machine.poolSize
    rw [FreeSet.take_count] at hc
    omega
  · have := hat before.length hlen
    rw [List.getElem?_append_right (Nat.le_refl _), Nat.sub_self] at this
    exact Option.some.inj this
  · have := hat i (by omega)
    rw [List.getElem?_append_left hi] at this
    exact hbefore _ (List.mem_of_getElem? this)

theorem takeGrains_of_no_offer (n : Nat) (h : firstOffer presence sets (searchOrder presence.length rotor) = none) :
    takeGrains presence n sets rotor = { grains := [], sets := sets, rotor := rotor } := by
  cases n with
  | zero => rfl
  | succ n => simp only [takeGrains, h]

theorem takeGrains_of_offer (n : Nat) {b g : Nat} (h : firstOffer presence sets (searchOrder presence.length rotor) = some (b, g)) :
    takeGrains presence (n + 1) sets rotor
      = { takeGrains presence n (sets.modify b (·.take g)) ((b + 1) % presence.length) with
          grains := (b, g) :: (takeGrains presence n (sets.modify b (·.take g)) ((b + 1) % presence.length)).grains } := by
  simp only [takeGrains, h]

/-! ## Several grains (R10) -/

/-- What a request for `n` grains gives, and how the pool stands after it. -/
structure GrainsGiven (presence : List Bool) (n : Nat) (sets : List FreeSet) (rotor : Nat) (t : Taken) : Prop where
  count : t.grains.length = min n (poolFree presence sets)
  free : poolFree presence sets = poolFree presence t.sets + t.grains.length
  size : poolSize presence t.sets = poolSize presence sets
  once : t.grains.Nodup
  given : ∀ p ∈ t.grains, presence[p.1]? = some true ∧ ∃ x, sets[p.1]? = some x ∧ x.has p.2 = true
  bays : t.sets.length = sets.length
  others : ∀ bay x, sets[bay]? = some x →
    ∃ y, t.sets[bay]? = some y ∧ y.count = x.count ∧ ∀ g, y.has g = (x.has g && !t.grains.contains (bay, g))
  still : t.grains = [] → t.rotor = rotor
  turned : ∀ p, t.grains.getLast? = some p → t.rotor = (p.1 + 1) % presence.length

theorem grainsGiven_none {n : Nat} (h : n = 0 ∨ poolFree presence sets = 0) :
    GrainsGiven presence n sets rotor { grains := [], sets := sets, rotor := rotor } where
  count := by simp only [List.length_nil]; omega
  free := rfl
  size := rfl
  once := .nil
  given := nofun
  bays := rfl
  others bay x hx := ⟨x, hx, rfl, fun g => by simp⟩
  still _ := rfl
  turned := nofun

/-- A set of a bay before and after one grain of the pool has been taken. -/
theorem getElem?_modify_take {bay b g : Nat} {y : FreeSet} (h : (sets.modify b (·.take g))[bay]? = some y) :
    ∃ x, sets[bay]? = some x ∧ y.count = x.count ∧ ∀ k, y.has k = (x.has k && !decide ((bay, k) = (b, g))) := by
  obtain ⟨x, hx, rfl⟩ := getElem?_modify_some h
  refine ⟨x, hx, ?_, fun k => ?_⟩
  · split <;> simp
  · split
    · rename_i hb
      subst hb
      rw [FreeSet.has_take]
      simp [bne, Bool.beq_eq_decide_eq]
    · rename_i hb
      simp [hb]

theorem GrainsGiven.cons {n bay grain : Nat} {x : FreeSet} (h : GrainTaken presence sets rotor bay grain x) {t : Taken}
    (ht : GrainsGiven presence n (sets.modify bay (·.take grain)) ((bay + 1) % presence.length) t) :
    GrainsGiven presence (n + 1) sets rotor { t with grains := (bay, grain) :: t.grains } where
  count := by
    have := ht.count
    have := h.poolFree
    simp only [List.length_cons]
    omega
  free := by
    have := ht.free
    have := h.poolFree
    simp only [List.length_cons]
    omega
  size := ht.size.trans h.poolSize
  once := by
    refine List.nodup_cons.mpr ⟨fun hmem => ?_, ht.once⟩
    obtain ⟨_, y, hy, hhas⟩ := ht.given _ hmem
    obtain ⟨_, _, _, hk⟩ := getElem?_modify_take hy
    simp [hk] at hhas
  given := by
    refine List.forall_mem_cons.mpr ⟨⟨h.present, x, h.set, FreeSet.has_iff.mpr ⟨h.lt, h.free⟩⟩, fun p hp => ?_⟩
    obtain ⟨hpresent, y, hy, hhas⟩ := ht.given p hp
    obtain ⟨z, hz, _, hk⟩ := getElem?_modify_take hy
    rw [hk, Bool.and_eq_true] at hhas
    exact ⟨hpresent, z, hz, hhas.1⟩
  bays := ht.bays.trans (List.length_modify ..)
  others b z hz := by
    obtain ⟨y, hy⟩ : ∃ y, (sets.modify bay (·.take grain))[b]? = some y := by
      rw [List.getElem?_modify, hz]
      exact ⟨_, rfl⟩
    obtain ⟨z', hz', hcount, hk⟩ := getElem?_modify_take hy
    obtain rfl : z = z' := Option.some.inj (hz.symm.trans hz')
    obtain ⟨y', hy', hcount', hk'⟩ := ht.others b y hy
    refine ⟨y', hy', hcount'.trans hcount, fun g => ?_⟩
    rw [hk', hk, List.contains_cons, Bool.not_or, Bool.and_assoc, Bool.beq_eq_decide_eq]
  still := nofun
  turned p hp := by
    cases hg : t.grains with
    | nil =>
      simp only [hg, List.getLast?_singleton, Option.some.injEq] at hp
      subst hp
      exact ht.still hg
    | cons q qs =>
      refine ht.turned p ?_
      rw [hg] at hp ⊢
      exact hp

theorem takeGrains_given (n : Nat) (hr : rotor < presence.length) (w : ∀ x ∈ sets, x.wf) :
    GrainsGiven presence n sets rotor (takeGrains presence n sets rotor) := by
  induction n generalizing sets rotor with
  | zero => exact grainsGiven_none (.inl rfl)
  | succ n ih =>
    cases ho : firstOffer presence sets (searchOrder presence.length rotor) with
    | none =>
      rw [takeGrains_of_no_offer _ ho]
      exact grainsGiven_none (.inr (poolFree_of_no_offer hr w ho))
    | some p =>
      obtain ⟨x, hx⟩ := grainTaken w ho
      rw [takeGrains_of_offer n ho]
      exact .cons hx (ih (Nat.mod_lt _ (by omega)) hx.wf)

end take

/-- Settles O15: one search is `grainTaken`; a request for several is one search after another (`takeGrains_given`). -/
theorem grainsTaken : Obligations.GrainsTaken := by
  refine ⟨fun presence sets rotor hr hlen w => ?one, fun presence sets rotor n hr hlen w => ?several⟩
  case one =>
    cases ho : firstOffer presence sets (searchOrder presence.length rotor) with
    | none =>
      rw [takeGrains_of_no_offer _ ho]
      exact ⟨fun _ => ⟨rfl, rfl, poolFree_of_no_offer hr w ho⟩, nofun⟩
    | some p =>
      obtain ⟨b, g⟩ := p
      obtain ⟨x, hx⟩ := grainTaken w ho
      rw [takeGrains_of_offer 0 ho]
      refine ⟨nofun, fun bay grain more hmore => ?_⟩
      cases hmore
      refine ⟨rfl, hx.present, ⟨x, hx.set, FreeSet.has_iff.mpr ⟨hx.lt, hx.free⟩, fun k hk => ?_, x.take g, ?_, rfl,
        x.has_take g⟩, rfl, hx.poolFree, hx.searched⟩
      · rw [Bool.eq_false_iff, Ne, FreeSet.has_iff]
        exact fun hhas => hhas.2 (hx.lowest k hk)
      · exact (List.modify_eq_set_getElem? ..).trans (by rw [hx.set]; rfl)
  case several =>
    have h := takeGrains_given n hr w
    refine ⟨h.count, h.free, h.size, h.once, h.given, h.bays, h.others, h.still, h.turned, fun k hk => ?_⟩
    subst hk
    cases ho : firstOffer presence sets (searchOrder presence.length rotor) with
    | none =>
      rw [takeGrains_of_no_offer 1 ho]
      exact fun hne => absurd rfl hne
    | some p =>
      rw [takeGrains_of_offer 0 ho, takeGrains_of_offer k ho]
      exact fun _ => ⟨rfl, rfl, rfl⟩

/-! ## Events performed -/

/-- An event that makes no write, performed by a station at rest. -/
theorem Does.perform {t : Task} {g : State → State} (h : Does t g) (m : Moment) {s : State} (hi : s.inflight = none) (ht : s.tasks = []) :
    Machine.perform m [t] s = g s := by
  have hleads : Leads 1 m.writes m.writes (withTasks [t] s) (withTasks [] (g s)) := h.leads hi
  have hend : withTasks [] (g s) = g s := withTasks_self (by
    rw [← withTasks_self ht, h.tasks]
    rfl)
  unfold Machine.perform
  rw [ht, List.nil_append, hleads.settle_eq rfl (by decide) rfl, hend]

/-- While a map memory write is in progress what is performed waits. -/
theorem perform_busy (m : Moment) (ts : List Task) {s : State} (hi : s.inflight ≠ none) :
    perform m ts s = withTasks (s.tasks ++ ts) s := by
  refine (Leads.refl m.writes _).settle_busy rfl (by decide) ?_
  exact Option.isSome_iff_ne_none.mpr hi

/-! ## Bays (R5 to R8) -/

theorem sumPresent_set (f : FreeSet → Nat) {presence : List Bool} {sets : List FreeSet} {bay : Nat} {x : FreeSet} {was : Bool} (now : Bool)
    (hp : presence[bay]? = some was) (hx : sets[bay]? = some x) :
    sumPresent f (presence.set bay now) sets + (if was then f x else 0) = sumPresent f presence sets + (if now then f x else 0) := by
  induction presence generalizing sets bay with
  | nil => cases hp
  | cons p presence ih =>
    cases sets with
    | nil => cases hx
    | cons y sets =>
      cases bay with
      | zero =>
        cases hp
        cases hx
        simp only [List.set_cons_zero, sumPresent_cons]
        omega
      | succ bay =>
        have := ih (bay := bay) (sets := sets) hp hx
        simp only [List.set_cons_succ, sumPresent_cons]
        omega

/-- The station with a bay's change of presence reported. -/
def bayChanged (bay : Nat) (present : Bool) (s : State) : State := report .bayChange { s with presence := s.presence.set bay present }

theorem report_p (f : Flag) (s : State) : (report f s).p = s.p := (congrArg State.p (report_frame f s) :)

theorem report_f (f : Flag) (s : State) : (report f s).f = s.f := (congrArg State.f (report_frame f s) :)

theorem bayChanged_figures {s : State} {bay : Nat} {x : FreeSet} {was : Bool} (now : Bool) (hup : s.poolUp = true)
    (hp : s.presence[bay]? = some was) (hx : s.mm.freeSets[bay]? = some x) :
    (bayChanged bay now s).p + (if was then x.count else 0) = s.p + (if now then x.count else 0)
      ∧ (bayChanged bay now s).f + (if was then x.size else 0) = s.f + (if now then x.size else 0) := by
  have hp' : (bayChanged bay now s).p = sumPresent (·.count) (s.presence.set bay now) s.mm.freeSets := by
    rw [bayChanged, report_p]
    exact if_pos hup
  have hf' : (bayChanged bay now s).f = sumPresent FreeSet.size (s.presence.set bay now) s.mm.freeSets := by
    rw [bayChanged, report_f]
    exact if_pos hup
  rw [hp', hf', show s.p = sumPresent (·.count) s.presence s.mm.freeSets from if_pos hup,
    show s.f = sumPresent FreeSet.size s.presence s.mm.freeSets from if_pos hup]
  exact ⟨sumPresent_set _ now hp hx, sumPresent_set _ now hp hx⟩

theorem changeBay_of_change {bay : Nat} {present : Bool} (m : Moment) {s : State} (hup : s.poolUp = true)
    (hp : s.presence[bay]? = some (!present)) : changeBay bay present m s = perform m [.judgeAsk] (bayChanged bay present s) :=
  if_pos (by rw [hup, hp]; simp)

theorem changeBay_of_same {bay : Nat} {present : Bool} (m : Moment) {s : State} (hp : s.presence[bay]? ≠ some (!present)) :
    changeBay bay present m s = s :=
  if_neg (by simp [hp])

section bay
variable {bay : Fin 24} {heldFor : Nat} {m : Moment} {s u : State} (h : OnAt m s u)
include h

theorem exec_bayAbsent_on : exec (.bayAbsent bay heldFor m) s
    = .next (if Config.lineHold ≤ heldFor then changeBay bay false m (tellLine bay true u) else tellLine bay true u) := by
  obtain ⟨hon, rfl⟩ := h
  dsimp only [exec, execBayAbsent]
  rw [whenOn_on hon]

theorem exec_bayPresent_on : exec (.bayPresent bay heldFor m) s
    = .next (if Config.lineHold ≤ heldFor then changeBay bay true m (tellLine bay false u) else tellLine bay false u) := by
  obtain ⟨hon, rfl⟩ := h
  dsimp only [exec, execBayPresent]
  rw [whenOn_on hon]

end bay

/-- Settles O16: a change of a bay is `bayChanged` with R90 judged, at once or behind the write in progress. -/
theorem bayChanges : Obligations.BayChanges := by
  refine ⟨fun bay heldFor m s u x hrest hup hheld _ hx => ?rest, fun bay heldFor m s u hon hbusy hup hheld => ?busy,
    fun bay heldFor m s u hon => ?still⟩
  case rest =>
    obtain ⟨⟨hon, hidle, htasks⟩, rfl⟩ := hrest
    have on : OnAt m s (advance m.time s) := ⟨hon, rfl⟩
    have performed (present high : Bool) : perform m [.judgeAsk] (bayChanged bay present (tellLine bay high (advance m.time s)))
        = judgeAsk (bayChanged bay present (tellLine bay high (advance m.time s))) :=
      does_judgeAsk.perform m (by simp [bayChanged, hidle]) (by simp [bayChanged, htasks])
    refine ⟨fun hp => ⟨_, ?_, rfl, ?_⟩, fun hp => ⟨_, ?_, rfl, ?_⟩⟩
    · rw [exec_bayAbsent_on on, if_pos hheld, changeBay_of_change (s := tellLine bay true (advance m.time s)) m hup hp, performed]
      rfl
    · obtain ⟨h1, h2⟩ := bayChanged_figures (s := tellLine bay true (advance m.time s)) false hup hp hx
      exact ⟨h1.symm, h2.symm⟩
    · rw [exec_bayPresent_on on, if_pos hheld, changeBay_of_change (s := tellLine bay false (advance m.time s)) m hup hp, performed]
      rfl
    · exact bayChanged_figures (s := tellLine bay false (advance m.time s)) true hup hp hx
  case busy =>
    have performed (present high : Bool) : perform m [.judgeAsk] (bayChanged bay present (tellLine bay high u))
        = { bayChanged bay present (tellLine bay high u) with tasks := u.tasks ++ [.judgeAsk] } := by
      rw [perform_busy m _ (by simpa [bayChanged] using hbusy)]
      simp [bayChanged, withTasks]
    refine ⟨fun hp => ?_, fun hp => ?_⟩
    · rw [exec_bayAbsent_on hon, if_pos hheld, changeBay_of_change (s := tellLine bay true u) m hup hp, performed]
      rfl
    · rw [exec_bayPresent_on hon, if_pos hheld, changeBay_of_change (s := tellLine bay false u) m hup hp, performed]
      rfl
  case still =>
    refine ⟨fun hs => ?_, fun hs => ?_⟩
    · rw [exec_bayAbsent_on hon]
      split
      · rename_i hle
        rw [changeBay_of_same (s := tellLine bay true u) m (hs.resolve_left (Nat.not_lt.mpr hle))]
        rfl
      · rfl
    · rw [exec_bayPresent_on hon]
      split
      · rename_i hle
        rw [changeBay_of_same (s := tellLine bay false u) m (hs.resolve_left (Nat.not_lt.mpr hle))]
        rfl
      · rfl

end Sys2Proof.Machine

/-! Frames as bits: what is read back of a payload (R144 to R147, R155), and which frames are heard and buffered (R132, R148). -/

namespace Sys2Proof.Machine

/-! ## Fields read back -/

theorem fieldBits_append (fs gs : List (Nat × Nat)) : fieldBits (fs ++ gs) = fieldBits fs ++ fieldBits gs := List.flatMap_append

theorem fieldBits_cons (f : Nat × Nat) (fs : List (Nat × Nat)) : fieldBits (f :: fs) = bitsOf f.1 f.2 ++ fieldBits fs := rfl

theorem length_encodeFields (fs : List (Nat × Nat)) : (encodeFields fs).length = ((fs.map Prod.fst).sum + 7) / 8 := by
  unfold encodeFields
  rw [length_packBytes, length_fieldBits]

theorem bytesBits_encodeFields (fs : List (Nat × Nat)) : ∃ n, bytesBits (encodeFields fs) = fieldBits fs ++ List.replicate n false :=
  ⟨_, bytesBits_packBytes _ _ (by omega)⟩

@[simp] theorem length_bytesBits (p : List Byte) : (bytesBits p).length = 8 * p.length := by
  induction p with
  | nil => rfl
  | cons b p ih =>
    have : bytesBits (b :: p) = bitsOf 8 b.toNat ++ bytesBits p := rfl
    rw [this, List.length_append, length_bitsOf, ih, List.length_cons]
    omega

theorem bytesBits_append (p q : List Byte) : bytesBits (p ++ q) = bytesBits p ++ bytesBits q := List.flatMap_append

theorem bytesBits_drop (p : List Byte) (k : Nat) : bytesBits (p.drop k) = (bytesBits p).drop (8 * k) := by
  by_cases hk : k ≤ p.length
  · conv_rhs => rw [← List.take_append_drop k p, bytesBits_append]
    rw [List.drop_left' (by simp [hk])]
  · rw [List.drop_of_length_le (by omega), List.drop_of_length_le (by simp; omega)]
    rfl

theorem bytesBits_take (p : List Byte) (k : Nat) : bytesBits (p.take k) = (bytesBits p).take (8 * k) := by
  by_cases hk : k ≤ p.length
  · conv_rhs => rw [← List.take_append_drop k p, bytesBits_append]
    rw [List.take_left' (by simp [hk])]
  · rw [List.take_of_length_le (by omega), List.take_of_length_le (by simp; omega)]

/-- The bytes of a field are read at its place in the layout. -/
theorem bytesAt_encodeFields (before : List (Nat × Nat)) {w n : Nat} (after : List (Nat × Nat)) {pos len : Nat}
    (hpos : (before.map Prod.fst).sum = 8 * pos) (hlen : w = 8 * len) :
    bytesAt (encodeFields (before ++ (w, n) :: after)) pos len = n % 2 ^ w := by
  obtain ⟨j, hbits⟩ := bytesBits_encodeFields (before ++ (w, n) :: after)
  have hroom : pos + len ≤ (encodeFields (before ++ (w, n) :: after)).length := by
    rw [length_encodeFields]
    simp only [List.map_append, List.map_cons, List.sum_append, List.sum_cons]
    omega
  have hbefore : (fieldBits before).length = 8 * pos := (length_fieldBits before).trans hpos
  have hw : (bitsOf w n).length = 8 * len := (length_bitsOf w n).trans hlen
  unfold bytesAt
  rw [if_pos hroom, bytesBits_take, bytesBits_drop, hbits, fieldBits_append, fieldBits_cons, List.append_assoc,
    List.drop_left' hbefore, List.append_assoc, List.take_left' hw, numberOf_bitsOf]

/-- A field keeps the low bits of its value. -/
theorem bitsOf_mod (w n : Nat) : bitsOf w (n % 2 ^ w) = bitsOf w n := by
  have := bitsOf_numberOf (bitsOf w n)
  rwa [numberOf_bitsOf, length_bitsOf] at this

theorem fieldBits_mod (fs : List (Nat × Nat)) : fieldBits (fs.map fun f => (f.1, f.2 % 2 ^ f.1)) = fieldBits fs := by
  induction fs with
  | nil => rfl
  | cons f fs ih => rw [List.map_cons, fieldBits_cons, fieldBits_cons, ih, bitsOf_mod]

/-- The values of a layout are read back, each as far as its field holds it. -/
theorem parseFields_encodeFields_mod (fs : List (Nat × Nat)) :
    parseFields (fs.map Prod.fst) (encodeFields fs) = some (fs.map fun f => f.2 % 2 ^ f.1) := by
  have hparse := parseFields_encodeFields (fs.map fun f => (f.1, f.2 % 2 ^ f.1)) fun f hf => by
    obtain ⟨g, _, rfl⟩ := List.mem_map.mp hf
    exact Nat.mod_lt _ (Nat.two_pow_pos _)
  have hsame : encodeFields (fs.map fun f => (f.1, f.2 % 2 ^ f.1)) = encodeFields fs := by
    unfold encodeFields
    rw [fieldBits_mod]
  rw [hsame, List.map_map, List.map_map] at hparse
  exact hparse

/-! ## Requests read (R155) -/

theorem parseRequest_of_class {fresh : Nat} {f : RawFrame} (hcls : f.cls = 4) (hlen : f.payload.length ≤ Config.maxPayload) :
    parseRequest fresh f = (requestOf f.kind.toNat f.payload).getD (malformedRequest fresh f.kind.toNat f.payload) :=
  if_pos ⟨by rw [hcls]; rfl, hlen⟩

theorem parseRequest_of_fields {fresh : Nat} {f : RawFrame} {fs : List (Nat × Nat)} (hcls : f.cls = 4)
    (hfs : ((fs.map Prod.fst).sum + 7) / 8 ≤ Config.maxPayload) (hp : f.payload = encodeFields fs) :
    parseRequest fresh f = (requestOf f.kind.toNat (encodeFields fs)).getD (malformedRequest fresh f.kind.toNat (encodeFields fs)) := by
  rw [parseRequest_of_class hcls (by rw [hp, length_encodeFields]; exact hfs), hp]

section layouts
variable {v c a n tag fresh : Nat} (hv : v < 256) (hc : c < 16777216) (htag : tag < 65536)

include hv hc htag in
theorem parseFields_lookup (ha : a < 256) : parseFields [8, 24, 8, 16] (encodeFields [(8, v), (24, c), (8, a), (16, tag)]) = some [v, c, a, tag] :=
  parseFields_encodeFields [(8, v), (24, c), (8, a), (16, tag)] (by simp; omega)

include hv hc htag in
theorem parseFields_commit : parseFields [8, 24, 16] (encodeFields [(8, v), (24, c), (16, tag)]) = some [v, c, tag] :=
  parseFields_encodeFields [(8, v), (24, c), (16, tag)] (by simp; omega)

include hv hc htag in
theorem parseFields_trim (hn : n < 4294967296) :
    parseFields [8, 24, 32, 16] (encodeFields [(8, v), (24, c), (32, n), (16, tag)]) = some [v, c, n, tag] :=
  parseFields_encodeFields [(8, v), (24, c), (32, n), (16, tag)] (by simp; omega)

include hv htag in
theorem parseFields_volume (hn : n < 4294967296) (ha : a < 256) :
    parseFields [8, 8, 32, 16] (encodeFields [(8, a), (8, v), (32, n), (16, tag)]) = some [a, v, n, tag] :=
  parseFields_encodeFields [(8, a), (8, v), (32, n), (16, tag)] (by simp; omega)

include htag in
theorem parseFields_status (ha : a < 256) : parseFields [8, 16] (encodeFields [(8, a), (16, tag)]) = some [a, tag] :=
  parseFields_encodeFields [(8, a), (16, tag)] (by simp; omega)

include htag in
theorem parseFields_clear {flags z : Nat} (hf : flags < 65536) (hz : z < 256) :
    parseFields [16, 8, 16] (encodeFields [(16, flags), (8, z), (16, tag)]) = some [flags, z, tag] :=
  parseFields_encodeFields [(16, flags), (8, z), (16, tag)] (by simp; omega)

include hv hc htag in
/-- The names of the answer to a LOOKUP whose payload has its layout. -/
theorem malformedRequest_lookup (fresh a : Nat) :
    malformedRequest fresh 7 (encodeFields [(8, v), (24, c), (8, a), (16, tag)]) = .malformed v c tag := by
  have hvol := bytesAt_encodeFields [] (w := 8) (n := v) [(24, c), (8, a), (16, tag)] (pos := 0) (len := 1) rfl rfl
  have hchunk := bytesAt_encodeFields [(8, v)] (w := 24) (n := c) [(8, a), (16, tag)] (pos := 1) (len := 3) rfl rfl
  have htagAt := bytesAt_encodeFields [(8, v), (24, c), (8, a)] (w := 16) (n := tag) [] (pos := 5) (len := 2) rfl rfl
  have hlen : (encodeFields [(8, v), (24, c), (8, a), (16, tag)]).length = 7 := by
    simp [length_encodeFields]
  rw [Nat.mod_eq_of_lt (by exact hv), List.nil_append] at hvol
  rw [Nat.mod_eq_of_lt (by exact hc), List.singleton_append] at hchunk
  rw [Nat.mod_eq_of_lt (by exact htag)] at htagAt
  unfold malformedRequest
  rw [if_pos rfl]
  congr 1
  · unfold namedVolume
    rw [hlen, if_pos (by decide)]
    exact hvol
  · unfold namedChunk
    rw [hlen, if_pos (by decide)]
    exact hchunk

include htag in
theorem malformedRequest_status (fresh a : Nat) : malformedRequest fresh 11 (encodeFields [(8, a), (16, tag)]) = .malformed 0 0 tag := by
  have htagAt := bytesAt_encodeFields [(8, a)] (w := 16) (n := tag) [] (pos := 1) (len := 2) rfl rfl
  rw [Nat.mod_eq_of_lt (by exact htag)] at htagAt
  exact congrArg (Request.malformed 0 0) htagAt

include htag in
theorem malformedRequest_clear (fresh flags z : Nat) :
    malformedRequest fresh 12 (encodeFields [(16, flags), (8, z), (16, tag)]) = .malformed 0 0 tag := by
  have htagAt := bytesAt_encodeFields [(16, flags), (8, z)] (w := 16) (n := tag) [] (pos := 3) (len := 2) rfl rfl
  rw [Nat.mod_eq_of_lt (by exact htag)] at htagAt
  exact congrArg (Request.malformed 0 0) htagAt

end layouts

/-- A payload of another length spells no request. -/
theorem requestOf_of_length {k : BitVec 5} {p : List Byte} (hlo : 7 ≤ k.toNat) (hhi : k.toNat ≤ 12)
    (h : p.length ≠ (if k = 7 then 7 else if k = 8 then 6 else if k = 9 then 10 else if k = 10 then 8 else if k = 11 then 3 else 5)) :
    requestOf k.toNat p = none := by
  obtain rfl | rfl | rfl | rfl | rfl | rfl : k = 7 ∨ k = 8 ∨ k = 9 ∨ k = 10 ∨ k = 11 ∨ k = 12 := by bv_omega
  all_goals
    simp at h
    simp [requestOf, parseFields, h]

/-- Settles O20: each layout is read back field by field, and what its field values do not allow is malformed. -/
theorem requestsRead : Obligations.RequestsRead := by
  intro fresh f v c n tag hv hc hn htag hcls
  refine ⟨fun hk => ⟨fun hp => ?_, fun hp => ?_, fun a ha ha' hp => ?_⟩, fun hk hp => ?_, fun hk hp => ?_,
    fun hk => ⟨fun hp => ?_, fun hp => ?_, fun hp => ?_, fun a ha ha' hp => ?_⟩,
    fun hk => ⟨fun hp => ?_, fun hp => ?_, fun a ha ha' hp => ?_⟩,
    fun hk => ⟨fun flags => ⟨fun hp => ?_, fun hp => ?_⟩, fun flags z hf hz hbad hp => ?_⟩, fun g hlo hhi hbad => ?_⟩
  · rw [parseRequest_of_fields hcls (by simp [Config.maxPayload]) hp, hk]
    simp [requestOf, parseFields_lookup hv hc htag]
  · rw [parseRequest_of_fields hcls (by simp [Config.maxPayload]) hp, hk]
    simp [requestOf, parseFields_lookup hv hc htag]
  · rw [parseRequest_of_fields hcls (by simp [Config.maxPayload]) hp, hk]
    have hnone : requestOf 7 (encodeFields [(8, v), (24, c), (8, a), (16, tag)]) = none := by
      simp [requestOf, parseFields_lookup hv hc htag ha', show a ≠ 0 by omega, show a ≠ 1 by omega]
    exact (congrArg (Option.getD · _) hnone).trans (malformedRequest_lookup hv hc htag fresh a)
  · rw [parseRequest_of_fields hcls (by simp [Config.maxPayload]) hp, hk]
    simp [requestOf, parseFields_commit hv hc htag]
  · rw [parseRequest_of_fields hcls (by simp [Config.maxPayload]) hp, hk]
    simp [requestOf, parseFields_trim hv hc htag hn]
  · rw [parseRequest_of_fields hcls (by simp [Config.maxPayload]) hp, hk]
    simp [requestOf, parseFields_volume hv htag hn]
  · rw [parseRequest_of_fields hcls (by simp [Config.maxPayload]) hp, hk]
    simp [requestOf, parseFields_volume hv htag hn]
  · rw [parseRequest_of_fields hcls (by simp [Config.maxPayload]) hp, hk]
    simp [requestOf, parseFields_volume hv htag hn]
  · rw [parseRequest_of_fields hcls (by simp [Config.maxPayload]) hp, hk]
    simp [requestOf, parseFields_volume hv htag hn ha', show a ≠ 1 by omega, show a ≠ 2 by omega, show a ≠ 3 by omega]
  · rw [parseRequest_of_fields hcls (by simp [Config.maxPayload]) hp, hk]
    simp [requestOf, parseFields_status htag]
  · rw [parseRequest_of_fields hcls (by simp [Config.maxPayload]) hp, hk]
    simp [requestOf, parseFields_status htag]
  · rw [parseRequest_of_fields hcls (by simp [Config.maxPayload]) hp, hk]
    have hnone : requestOf 11 (encodeFields [(8, a), (16, tag)]) = none := by
      simp [requestOf, parseFields_status htag ha', show a ≠ 0 by omega, show a ≠ 1 by omega]
    exact (congrArg (Option.getD · _) hnone).trans (malformedRequest_status htag fresh a)
  · rw [parseRequest_of_fields hcls (by simp [Config.maxPayload]) hp, hk]
    have := flags.isLt
    simp [requestOf, parseFields_clear htag (flags := flags.toNat) (by omega), this]
  · rw [parseRequest_of_fields hcls (by simp [Config.maxPayload]) hp, hk]
    have := flags.isLt
    simp [requestOf, parseFields_clear htag (flags := flags.toNat) (by omega), this]
  · rw [parseRequest_of_fields hcls (by simp [Config.maxPayload]) hp, hk]
    have hnone : requestOf 12 (encodeFields [(16, flags), (8, z), (16, tag)]) = none := by
      simp [requestOf, parseFields_clear htag hf hz]
      omega
    exact (congrArg (Option.getD · _) hnone).trans (malformedRequest_clear htag fresh flags z)
  · obtain ⟨v', c', t, hm⟩ := malformedRequest_eq fresh g.kind.toNat g.payload
    refine ⟨v', c', t, ?_⟩
    unfold parseRequest
    split
    · rename_i hgood
      have hclass : g.cls = 4 := BitVec.eq_of_toNat_eq hgood.1
      rw [requestOf_of_length hlo hhi (hbad.resolve_left (absurd hclass)), Option.getD_none, hm]
    · exact hm

end Sys2Proof.Machine

/-! Frames heard (R132, R146 to R148): what is noted, acknowledged and buffered, and how the station's own frames read (R144, R155). -/

namespace Sys2Proof.Machine

/-! ## Hearing -/

theorem hear_of_start {st : Station} {acks : Bool} {f : State → State} {u : State} (h : u.cond = .start) :
    hear st acks f u = { u with ackDriven := false } := if_pos h

theorem withHeard_eq (st : Station) (acks : Bool) (u : State) : noteSource st { u with ackDriven := acks } = withHeard st acks u := by
  unfold withHeard noteSource
  dsimp only
  split <;> rfl

theorem hear_of_not_start {st : Station} {acks : Bool} {f : State → State} {u : State} (h : u.cond ≠ .start) :
    hear st acks f u = f (withHeard st acks u) := by
  rw [← withHeard_eq]
  exact if_neg h

theorem hearMalformed_of_not_start (st dest : Station) {u : State} (h : u.cond ≠ .start) :
    hearMalformed st dest u = withHeard st ((dest == u.own || dest == broadcast) && handsOn u) u := hear_of_not_start h

theorem withHeard_frame (st : Station) (acks : Bool) (u : State) :
    withHeard st acks u = { u with roster := (withHeard st acks u).roster, ackDriven := acks } := by
  unfold withHeard noteSource
  dsimp only
  split <;> rfl

theorem not_start_of_handsOn {u : State} (h : handsOn u = true) : u.cond ≠ .start := by
  intro hs
  simp [handsOn, hs] at h

theorem bufferTakes_withHeard (f : RawFrame) (st : Station) (acks : Bool) (u : State) :
    bufferTakes f (withHeard st acks u) = bufferTakes f u := by
  rw [withHeard_frame]
  rfl

theorem bufferTakes_iff {f : RawFrame} {u : State} :
    bufferTakes f u = true ↔ f.dest = u.own ∧ handsOn u = true ∧ u.buffer.length < Config.bufferPlaces := by
  simp [bufferTakes, and_assoc]

/-- A requester frame that the buffer takes. -/
theorem hearRequester_taken {f : RawFrame} {u : State} (hd : f.dest ≠ broadcast) (h : bufferTakes f u = true) :
    hearRequester f u = { withHeard f.source true u with buffer := u.buffer ++ [f] } := by
  have hs := not_start_of_handsOn (bufferTakes_iff.mp h).2.1
  unfold hearRequester
  rw [if_neg hd, hear_of_not_start hs, bufferTakes_withHeard, if_pos h, h, withHeard_frame]

/-- One that it does not take is noted alone. -/
theorem hearRequester_left {f : RawFrame} {u : State} (hd : f.dest ≠ broadcast) (hs : u.cond ≠ .start) (h : bufferTakes f u = false) :
    hearRequester f u = withHeard f.source false u := by
  unfold hearRequester
  rw [if_neg hd, hear_of_not_start hs, bufferTakes_withHeard, h]
  rfl

theorem hearRequester_broadcast {f : RawFrame} {u : State} (hd : f.dest = broadcast) (hs : u.cond ≠ .start) :
    hearRequester f u = withHeard f.source (handsOn u) u := by
  unfold hearRequester
  rw [if_pos hd, hearMalformed_of_not_start _ _ hs, hd]
  simp

theorem hearRequester_of_start {f : RawFrame} {u : State} (hs : u.cond = .start) : hearRequester f u = { u with ackDriven := false } := by
  unfold hearRequester hearMalformed
  split <;> exact hear_of_start hs

/-! ## The commands of frames -/

/-- A frame that is not heard at all: its CRC is bad or its class is 7. -/
def unheard (f : RawFrame) : Bool := !crcGood f || f.cls.toNat == 7

theorem unheard_iff {f : RawFrame} : unheard f = true ↔ crcGood f = false ∨ f.cls = 7 := by
  unfold unheard
  rw [Bool.or_eq_true, Bool.not_eq_true', beq_iff_eq]
  exact or_congr_right ⟨fun h => BitVec.eq_of_toNat_eq h, fun h => by rw [h]; rfl⟩

theorem unheard_eq_false {f : RawFrame} (hcrc : crcGood f = true) (hcls : f.cls ≠ 7) : unheard f = false := by
  rw [Bool.eq_false_iff, Ne, unheard_iff]
  rintro (h | h)
  · exact Bool.false_ne_true (h.symm.trans hcrc)
  · exact hcls h

theorem isRequesterFrame_iff {f : RawFrame} : isRequesterFrame f = true ↔ 7 ≤ f.kind.toNat ∧ f.kind.toNat ≤ 12 := by
  simp [isRequesterFrame]

section command
variable {f : RawFrame} {m : Moment} {s u : State} (h : OnAt m s u)
include h

theorem exec_requestFrameReceived_on : exec (.requestFrameReceived f m) s
    = .next (if unheard f then { u with ackDriven := false } else if isRequesterFrame f then hearRequester f u else u) := by
  obtain ⟨hon, rfl⟩ := h
  dsimp only [exec, execRequestFrameReceived]
  rw [whenOn_on hon]
  rfl

theorem exec_frameHeard_on : exec (.frameHeard f m) s = .next (hearRaw f m u) := by
  obtain ⟨hon, rfl⟩ := h
  exact whenOn_on hon

end command

theorem hearRaw_unheard {f : RawFrame} (m : Moment) (u : State) (h : unheard f = true) : hearRaw f m u = { u with ackDriven := false } :=
  if_pos h

theorem hearRaw_requester {f : RawFrame} (m : Moment) (u : State) (h : unheard f = false) (hr : isRequesterFrame f = true) :
    hearRaw f m u = hearRequester f u := (if_neg (ne_true_of_eq_false h)).trans (if_pos hr)

/-- A frame of a kind that is not a requester's, as it is handed on. -/
def hearOther (f : RawFrame) (m : Moment) (heard : Heard) (s : State) : State :=
  match heard with
  | .ask askId wanted => hearAskFrame f.source askId wanted s
  | .offer askId asker count _ => hearOfferFrame f.source askId asker count s
  | .take askId count => hearTakeFrame f.source f.dest askId count m s
  | .grant askId records => hearGrantFrame f.source f.dest askId records m s
  | .giveback _ loans => hearGivebackFrame f.source f.dest loans m s
  | .hail h => hearHailFrame f.source h m s
  | .unowned => hear f.source (f.dest == broadcast && handsOn s) id s
  | .malformed => hearMalformed f.source f.dest s

theorem hearRaw_other {f : RawFrame} (m : Moment) (u : State) (h : unheard f = false) (hr : isRequesterFrame f = false) :
    hearRaw f m u = hearOther f m (hearFrame f) u :=
  (if_neg (ne_true_of_eq_false h)).trans ((if_neg (ne_true_of_eq_false hr)).trans (by unfold hearOther; rfl))

/-! ## Requests that are not taken -/

theorem canTake_iff {u : State} : canTake u = true ↔ isBusy u = false ∧ hasReplyPlace u = true ∧ servesRequests u := by
  unfold canTake servesRequests
  simp only [Bool.and_eq_true, Bool.or_eq_true, Bool.not_eq_true', decide_eq_true_eq, and_assoc, or_assoc]

theorem takeRequest_of_nothing {handle : Station → Request → State → Option State} {m : Moment} {u : State}
    (h : u.buffer = [] ∨ hasReplyPlace u = false ∨ ¬ servesRequests u) : takeRequest handle m u = u := by
  unfold takeRequest
  split
  · rename_i hcan
    obtain ⟨_, hplace, hserves⟩ := canTake_iff.mp hcan
    obtain hb | hp | hs := h
    · rw [hb]
    · rw [hp] at hplace
      cases hplace
    · exact absurd hserves hs
  · rfl

theorem whenOn_takeRequest_of_nothing {handle : Station → Request → State → Option State} {m : Moment} {s u : State} (hon : OnAt m s u)
    (h : u.buffer = [] ∨ hasReplyPlace u = false ∨ ¬ servesRequests u) : whenOn m (takeRequest handle m) s = .next u := by
  obtain ⟨hp, rfl⟩ := hon
  rw [whenOn_on hp, takeRequest_of_nothing h]

/-- Settles O19: a requester frame goes to the buffer or is noted alone, and without work a request command does nothing. -/
theorem framesHeard : Obligations.FramesHeard := by
  refine ⟨fun f m s u hon => ⟨fun hbad => ?_, fun hcrc hcls hlo hhi => ?received⟩, fun f m s u hon => ⟨fun hbad => ?_, fun hlo hhi => ?_,
    fun hcrc hcls hkind hs => ?other⟩, fun c m s u hon hc hnothing => ?requests⟩
  · rw [exec_requestFrameReceived_on hon, if_pos (unheard_iff.mpr hbad)]
  case received =>
    have hexec : exec (.requestFrameReceived f m) s = .next (hearRequester f u) := by
      rw [exec_requestFrameReceived_on hon, unheard_eq_false hcrc hcls, if_neg Bool.false_ne_true,
        if_pos (isRequesterFrame_iff.mpr ⟨hlo, hhi⟩)]
    rw [hexec]
    refine ⟨fun hs => ?_, fun hs hd => ?_, fun hd hown hhands hroom => ?_, fun hd hs hno => ?_⟩
    · rw [hearRequester_of_start hs]
    · rw [hearRequester_broadcast hd hs]
    · rw [hearRequester_taken hd (bufferTakes_iff.mpr ⟨hown, hhands, hroom⟩)]
    · rw [hearRequester_left hd hs]
      rw [Bool.eq_false_iff, Ne, bufferTakes_iff]
      rintro ⟨hown, hhands, hroom⟩
      obtain h | h | h := hno
      · exact h hown
      · exact Bool.false_ne_true (h.symm.trans hhands)
      · exact absurd hroom (Nat.not_lt.mpr h)
  · rw [exec_frameHeard_on hon, hearRaw_unheard m u (unheard_iff.mpr hbad)]
  · have hr := isRequesterFrame_iff.mpr ⟨hlo, hhi⟩
    rw [exec_frameHeard_on hon, exec_requestFrameReceived_on hon]
    cases hu : unheard f with
    | true => rw [hearRaw_unheard m u hu, if_pos rfl]
    | false => rw [hearRaw_requester m u hu hr, if_neg Bool.false_ne_true, if_pos hr]
  case other =>
    have hr : isRequesterFrame f = false := by
      rw [Bool.eq_false_iff, Ne, isRequesterFrame_iff]
      omega
    rw [exec_frameHeard_on hon, hearRaw_other m u (unheard_eq_false hcrc hcls) hr]
    refine ⟨fun hheard => ?_, fun hheard => ?_⟩
    · rw [hheard]
      exact congrArg _ (hearMalformed_of_not_start _ _ hs)
    · rw [hheard]
      exact congrArg _ (hear_of_not_start hs)
  case requests =>
    obtain rfl | rfl | rfl | rfl | rfl | rfl | rfl | rfl | rfl | rfl | rfl := hc
    all_goals exact whenOn_takeRequest_of_nothing hon hnothing

/-! ## The station's own frames (R144, R145, R155) -/

theorem crcGood_sealFrame (f : RawFrame) : crcGood (sealFrame f) = true := by
  have hcovered : coveredBits (sealFrame f) = coveredBits f := rfl
  have hcrc : (sealFrame f).crc = crc16 (coveredBits f) := by dsimp only [sealFrame]
  unfold crcGood
  simp only [hcovered, hcrc, BEq.rfl]

section raw
variable {own dest : Station} {b : FrameBody}

theorem unheard_raw : unheard (OutFrame.raw own { dest := dest, body := b }) = false := by
  refine unheard_eq_false (crcGood_sealFrame _) ?_
  show BitVec.ofNat 3 b.cls ≠ 7
  cases b <;> exact nofun

theorem isRequesterFrame_raw : isRequesterFrame (OutFrame.raw own { dest := dest, body := b }) = false := by
  have hkind : (OutFrame.raw own { dest := dest, body := b }).kind = BitVec.ofNat 5 b.kind := rfl
  unfold isRequesterFrame
  rw [hkind]
  cases b <;> rfl

/-- A frame of the station's own is judged by its payload. -/
theorem hearFrame_raw (hlen : (encodeFields b.fields).length ≤ Config.maxPayload) (hd : destFits b.kind dest = true) :
    hearFrame (OutFrame.raw own { dest := dest, body := b }) = heardOf b.kind (b.sub % 32) (encodeFields b.fields) := by
  have hkind : (OutFrame.raw own { dest := dest, body := b }).kind.toNat = b.kind := by
    show (BitVec.ofNat 5 b.kind).toNat = b.kind
    cases b <;> rfl
  have hcls : (OutFrame.raw own { dest := dest, body := b }).cls.toNat = classOf b.kind := by
    show (BitVec.ofNat 3 b.cls).toNat = classOf b.kind
    cases b <;> rfl
  unfold hearFrame
  rw [hkind, hcls, if_pos ⟨hlen, rfl, hd⟩]
  exact congrArg (heardOf b.kind · _) (BitVec.toNat_ofNat _ _)

/-- A frame of the station's own, heard, is the event its bits spell. -/
theorem exec_frameHeard_raw {m : Moment} {s : State} {heard : Heard} (hlen : (encodeFields b.fields).length ≤ Config.maxPayload)
    (hd : destFits b.kind dest = true) (hh : heardOf b.kind (b.sub % 32) (encodeFields b.fields) = heard) :
    exec (.frameHeard (OutFrame.raw own { dest := dest, body := b }) m) s
      = whenOn m (hearOther (OutFrame.raw own { dest := dest, body := b }) m heard) s := by
  have hsame : hearRaw (OutFrame.raw own { dest := dest, body := b }) m = hearOther (OutFrame.raw own { dest := dest, body := b }) m heard := by
    funext u
    rw [hearRaw_other m u unheard_raw isRequesterFrame_raw, hearFrame_raw hlen hd, hh]
  exact congrArg (whenOn m · s) hsame

end raw

theorem heardOf_ask (askId : AskId) (n : Byte) : heardOf 6 0 (encodeFields [(8, askId.toNat), (8, n.toNat)]) = .ask askId n.toNat := by
  have hparse := parseFields_encodeFields [(8, askId.toNat), (8, n.toNat)] (by simp [askId.isLt, n.isLt])
  have hread : parseFields [8, 8] (encodeFields [(8, askId.toNat), (8, n.toNat)]) = some [askId.toNat, n.toNat] := hparse
  simp [heardOf, hread]

theorem heardOf_take (askId : AskId) (n : Byte) : heardOf 2 0 (encodeFields [(8, askId.toNat), (8, n.toNat)]) = .take askId n.toNat := by
  have hparse := parseFields_encodeFields [(8, askId.toNat), (8, n.toNat)] (by simp [askId.isLt, n.isLt])
  have hread : parseFields [8, 8] (encodeFields [(8, askId.toNat), (8, n.toNat)]) = some [askId.toNat, n.toNat] := hparse
  simp [heardOf, hread]

theorem heardOf_offer (askId : AskId) {asker : Station} (ha : asker ≠ broadcast) (n : Byte) (d : BitVec 5) :
    heardOf 5 d.toNat (encodeFields [(8, askId.toNat), (8, asker.toNat), (8, n.toNat), (8, d.toNat)])
      = .offer askId asker n.toNat d.toNat := by
  have hasker := toNat_lt_of_ne_broadcast ha
  have hd := d.isLt
  have hparse := parseFields_encodeFields [(8, askId.toNat), (8, asker.toNat), (8, n.toNat), (8, d.toNat)]
    (by simp [askId.isLt, n.isLt]; omega)
  have hread : parseFields [8, 8, 8, 8] (encodeFields [(8, askId.toNat), (8, asker.toNat), (8, n.toNat), (8, d.toNat)])
      = some [askId.toNat, asker.toNat, n.toNat, d.toNat] := hparse
  simp [heardOf, hread, show asker.toNat ≤ 14 by omega]

theorem map_fst_grantFields (rs : List GrantRecord) : (grantFields rs).map Prod.fst = (List.replicate rs.length [16, 5, 20]).flatten := by
  induction rs with
  | nil => rfl
  | cons r rs ih =>
    rw [List.length_cons, List.replicate_succ, List.flatten_cons, ← ih]
    rfl

theorem grantRecords_grantFields (rs : List GrantRecord) : grantRecords ((grantFields rs).map Prod.snd) = rs := by
  induction rs with
  | nil => rfl
  | cons r rs ih => exact congrArg (r :: ·) ih

theorem grantFields_lt {rs : List GrantRecord} (h : ∀ r ∈ rs, r.wf = true) : ∀ f ∈ grantFields rs, f.2 < 2 ^ f.1 := by
  intro f hf
  obtain ⟨r, hr, hf⟩ := List.mem_flatMap.mp hf
  have hwf := h r hr
  simp only [GrantRecord.wf, Bool.and_eq_true, decide_eq_true_eq] at hwf
  obtain ⟨⟨hl, hb⟩, hg⟩ := hwf
  simp only [List.mem_cons, List.not_mem_nil, or_false] at hf
  obtain rfl | rfl | rfl := hf
  · exact hl
  · exact hb
  · exact hg

theorem heardOf_grant (askId : AskId) {rs : List GrantRecord} (hn : rs.length ≤ Config.frameLoans) (h : ∀ r ∈ rs, r.wf = true) :
    heardOf 3 0 (encodeFields ([(8, askId.toNat), (8, rs.length)] ++ grantFields rs)) = .grant askId rs := by
  have hlen : rs.length < 256 := Nat.lt_of_le_of_lt hn (by decide)
  have hcount := bytesAt_encodeFields [(8, askId.toNat)] (w := 8) (n := rs.length) (grantFields rs) (pos := 1) (len := 1) rfl rfl
  rw [Nat.mod_eq_of_lt (by exact hlen)] at hcount
  have hparse := parseFields_encodeFields ([(8, askId.toNat), (8, rs.length)] ++ grantFields rs)
    (List.forall_mem_append.mpr ⟨by simp [askId.isLt, hlen], grantFields_lt h⟩)
  rw [List.map_append, List.map_append, map_fst_grantFields] at hparse
  have hread : parseFields ([8, 8] ++ (List.replicate rs.length [16, 5, 20]).flatten)
      (encodeFields ([(8, askId.toNat), (8, rs.length)] ++ grantFields rs))
      = some (askId.toNat :: rs.length :: (grantFields rs).map Prod.snd) := hparse
  unfold heardOf
  rw [if_neg (by decide), if_neg (by decide), if_pos rfl,
    show bytesAt (encodeFields ([(8, askId.toNat), (8, rs.length)] ++ grantFields rs)) 1 1 = rs.length from hcount, hread]
  simp [hn, grantRecords_grantFields]

theorem reasonOf_reasonCode (r : GivebackReason) : reasonOf (reasonCode r) = some r := by cases r <;> rfl

theorem heardOf_giveback (reason : GivebackReason) {ls : List Nat} (hne : 1 ≤ ls.length) (hn : ls.length ≤ Config.frameLoans)
    (h : ∀ l ∈ ls, l < 65536) :
    heardOf 4 0 (encodeFields ([(8, reasonCode reason), (8, ls.length)] ++ ls.map fun l => (16, l))) = .giveback reason ls := by
  have hlen : ls.length < 256 := Nat.lt_of_le_of_lt hn (by decide)
  have hreason : reasonCode reason < 256 := by cases reason <;> decide
  have hcount := bytesAt_encodeFields [(8, reasonCode reason)] (w := 8) (n := ls.length) (ls.map fun l => (16, l)) (pos := 1) (len := 1)
    rfl rfl
  rw [Nat.mod_eq_of_lt (by exact hlen)] at hcount
  have hparse := parseFields_encodeFields ([(8, reasonCode reason), (8, ls.length)] ++ ls.map fun l => (16, l))
    (List.forall_mem_append.mpr ⟨by simp [hreason, hlen], by simpa using h⟩)
  rw [List.map_append, List.map_append, List.map_map, List.map_map,
    show (Prod.fst ∘ fun l : Nat => (16, l)) = Function.const Nat 16 from rfl, List.map_const,
    show (Prod.snd ∘ fun l : Nat => (16, l)) = id from rfl, List.map_id] at hparse
  have hread : parseFields ([8, 8] ++ List.replicate ls.length 16)
      (encodeFields ([(8, reasonCode reason), (8, ls.length)] ++ ls.map fun l => (16, l)))
      = some (reasonCode reason :: ls.length :: ls) := hparse
  unfold heardOf
  rw [if_neg (by decide), if_neg (by decide), if_neg (by decide), if_pos rfl,
    show bytesAt (encodeFields ([(8, reasonCode reason), (8, ls.length)] ++ ls.map fun l => (16, l))) 1 1 = ls.length from hcount, hread]
  simp only [reasonOf_reasonCode]
  rw [if_pos ⟨hne, hn⟩]

theorem heardOf_hail {h : HailBody} (hq : h.q ≤ 1000) : heardOf 13 0 (encodeFields (hailFields h)) = .hail h := by
  have hkind : hailKindCode h.kind < 256 := by cases h.kind <;> decide
  have hcond : hailConditionCode h.cond < 256 := by cases h.cond <;> decide
  have hparse := parseFields_encodeFields (hailFields h) (by
    simp [hailFields, h.identity.isLt, h.serial.isLt, h.formatCount.isLt, h.restartCount.isLt, h.cause.isLt, hkind, hcond]
    omega)
  have hread : parseFields [8, 8, 32, 32, 16, 8, 8, 16] (encodeFields (hailFields h))
      = some [hailKindCode h.kind, h.identity.toNat, h.serial.toNat, h.formatCount.toNat, h.restartCount.toNat, h.cause.toNat,
        hailConditionCode h.cond, h.q] := hparse
  have hk : hailKindOf (hailKindCode h.kind) = some h.kind := by cases h.kind <;> rfl
  have hc : hailConditionOf (hailConditionCode h.cond) = some h.cond := by cases h.cond <;> rfl
  simp [heardOf, hread, hk, hc, hq]

theorem heardOf_alert (flag : Flag) (condition : Nat) : heardOf 14 0 (encodeFields [(8, flag.number), (8, condition)]) = .unowned := by
  have hparse := parseFields_encodeFields_mod [(8, flag.number), (8, condition)]
  have hread : parseFields [8, 8] (encodeFields [(8, flag.number), (8, condition)]) = some [flag.number % 256, condition % 256] := hparse
  have hle : flag.number % 256 ≤ 12 := by cases flag <;> decide
  simp [heardOf, hread, hle]

theorem length_replyPart (part : ReplyPart) : ∃ n, partLength part.code = some n ∧ (part.fields.map Prod.fst).sum = 8 * n ∧ n ≤ 29 := by
  cases part with
  | none => exact ⟨0, rfl, rfl, by decide⟩
  | place => exact ⟨5, rfl, rfl, by decide⟩
  | size => exact ⟨4, rfl, rfl, by decide⟩
  | pageZero => exact ⟨29, rfl, by simp [ReplyPart.fields], by decide⟩
  | pageOne => exact ⟨10, rfl, rfl, by decide⟩

theorem length_encodeFields_reply (r : Reply) : ∃ n, partLength r.part.code = some n ∧ (encodeFields r.fields).length = 8 + n ∧ n ≤ 29 := by
  obtain ⟨n, hn, hsum, hle⟩ := length_replyPart r.part
  refine ⟨n, hn, ?_, hle⟩
  rw [length_encodeFields]
  unfold Reply.fields
  simp only [List.map_append, List.map_cons, List.map_nil, List.sum_append, List.sum_cons, List.sum_nil]
  omega

theorem heardOf_reply (r : Reply) : heardOf 1 0 (encodeFields r.fields) = .unowned := by
  obtain ⟨n, hn, hlen, _⟩ := length_encodeFields_reply r
  have hstatus := bytesAt_encodeFields [(16, r.tag)] (w := 8) (n := r.status.code)
    ([(8, r.volume), (24, r.chunk), (8, r.part.code)] ++ r.part.fields) (pos := 2) (len := 1) rfl rfl
  have hcode := bytesAt_encodeFields [(16, r.tag), (8, r.status.code), (8, r.volume), (24, r.chunk)] (w := 8) (n := r.part.code)
    r.part.fields (pos := 7) (len := 1) rfl rfl
  have hs : r.status.code % 2 ^ 8 ≤ 19 := by cases r.status <;> decide
  have hc : r.part.code % 2 ^ 8 = r.part.code := by cases r.part <;> rfl
  have hfits : replyFits (encodeFields r.fields) = true := by
    unfold replyFits
    rw [show bytesAt (encodeFields r.fields) 2 1 = _ from hstatus, show bytesAt (encodeFields r.fields) 7 1 = _ from hcode, hc, hn]
    simp [hlen]
    exact hs
  unfold heardOf
  rw [if_pos rfl, if_pos hfits]

theorem destFits_broadcast {b : FrameBody} (hb : b.kind = 5 ∨ b.kind = 6 ∨ b.kind = 13 ∨ b.kind = 14) : destFits b.kind broadcast = true := by
  unfold destFits
  rw [if_pos hb]
  rfl

theorem destFits_station {b : FrameBody} (hb : b.kind ≤ 4) {dest : Station} (hd : dest ≠ broadcast) : destFits b.kind dest = true := by
  unfold destFits
  rw [if_neg (by omega)]
  exact bne_iff_ne.mpr hd

/-- Settles O44: each frame's payload is read back field by field, and what it spells is handed on as the command of its kind is. -/
theorem framesReadBack : Obligations.FramesReadBack := by
  intro source dest askId n m s
  have noted {b : FrameBody} {u : State} {dest : Station} {acks : Bool} (hon : OnAt m s u)
      (hlen : (encodeFields b.fields).length ≤ Config.maxPayload) (hd : destFits b.kind dest = true)
      (hh : heardOf b.kind (b.sub % 32) (encodeFields b.fields) = .unowned) (hacks : (dest == broadcast && handsOn u) = acks) :
      exec (.frameHeard (OutFrame.raw source { dest := dest, body := b }) m) s
        = .next (if u.cond = .start then { u with ackDriven := false } else withHeard source acks u) := by
    obtain ⟨hp, rfl⟩ := hon
    rw [exec_frameHeard_raw hlen hd hh, whenOn_on hp]
    subst hacks
    split
    · rename_i hs
      exact congrArg _ (hear_of_start hs)
    · rename_i hs
      exact congrArg _ (hear_of_not_start hs)
  refine ⟨?_, fun asker d ha => ?_, fun hd => ?_, fun records hw => ?_, fun reason loans hw => ?_, fun h hq => ?_, fun u hon =>
    ⟨fun flag condition => ?_, fun hd r => ?_⟩⟩
  · exact exec_frameHeard_raw (b := .ask askId n.toNat) (by simp [length_encodeFields, FrameBody.fields, Config.maxPayload]) (destFits_broadcast (by simp [FrameBody.kind]))
      (heardOf_ask askId n)
  · have hsub : FrameBody.sub (.offer askId asker n.toNat d.toNat) % 32 = d.toNat := Nat.mod_eq_of_lt d.isLt
    rw [exec_frameHeard_raw (b := .offer askId asker n.toNat d.toNat) (heard := .offer askId asker n.toNat d.toNat)
      (by simp [length_encodeFields, FrameBody.fields, Config.maxPayload]) (destFits_broadcast (by simp [FrameBody.kind]))
      (by rw [hsub]; exact heardOf_offer askId ha n d)]
    dsimp only [exec, execOffer]
    rw [show wfOffer asker = true from bne_iff_ne.mpr ha]
    rfl
  · rw [exec_frameHeard_raw (b := .take askId n.toNat) (by simp [length_encodeFields, FrameBody.fields, Config.maxPayload])
      (destFits_station (by simp [FrameBody.kind]) hd) (heardOf_take askId n)]
    dsimp only [exec, execTake]
    rw [show wfTake dest = true from bne_iff_ne.mpr hd]
    rfl
  · obtain ⟨⟨hd, hn⟩, hwf⟩ : (dest ≠ broadcast ∧ records.length ≤ Config.frameLoans) ∧ ∀ r ∈ records, r.wf = true := by
      simpa [wfGrant] using hw
    have hlen : (encodeFields (FrameBody.fields (.grant askId records))).length ≤ Config.maxPayload := by
      have hsum : ((grantFields records).map Prod.fst).sum = 41 * records.length := by
        rw [map_fst_grantFields]
        simp [Nat.mul_comm]
      rw [length_encodeFields]
      simp only [FrameBody.fields, List.map_append, List.sum_append, hsum, List.map_cons, List.map_nil, List.sum_cons, List.sum_nil]
      simp only [Config.frameLoans, Config.maxPayload] at *
      omega
    rw [exec_frameHeard_raw hlen (destFits_station (by simp [FrameBody.kind]) hd) (heardOf_grant askId hn hwf)]
    dsimp only [exec, execGrant]
    rw [hw]
    rfl
  · obtain ⟨⟨⟨hd, hne⟩, hn⟩, hwf⟩ :
        ((dest ≠ broadcast ∧ 1 ≤ loans.length) ∧ loans.length ≤ Config.frameLoans) ∧ ∀ l ∈ loans, l < 65536 := by
      simpa [wfGiveback] using hw
    have hlen : (encodeFields (FrameBody.fields (.giveback reason loans))).length ≤ Config.maxPayload := by
      have hsum : ((loans.map fun l => (16, l)).map Prod.fst).sum = 16 * loans.length := by
        rw [List.map_map, show (Prod.fst ∘ fun l : Nat => (16, l)) = Function.const Nat 16 from rfl, List.map_const]
        simp [Nat.mul_comm]
      rw [length_encodeFields]
      simp only [FrameBody.fields, List.map_append, List.sum_append, hsum, List.map_cons, List.map_nil, List.sum_cons, List.sum_nil]
      simp only [Config.frameLoans, Config.maxPayload] at *
      omega
    rw [exec_frameHeard_raw hlen (destFits_station (by simp [FrameBody.kind]) hd) (heardOf_giveback reason hne hn hwf)]
    dsimp only [exec, execGiveback]
    rw [hw]
    rfl
  · rw [exec_frameHeard_raw (b := .hail h) (by simp [length_encodeFields, FrameBody.fields, hailFields, Config.maxPayload])
      (destFits_broadcast (by simp [FrameBody.kind])) (heardOf_hail hq)]
    dsimp only [exec, execHail]
    rw [show h.wf = true from decide_eq_true hq]
    rfl
  · exact noted (b := .alert flag condition) hon (by simp [length_encodeFields, FrameBody.fields, Config.maxPayload]) (destFits_broadcast (by simp [FrameBody.kind]))
      (heardOf_alert flag condition) (by simp)
  · obtain ⟨k, _, hlen, hle⟩ := length_encodeFields_reply r
    refine noted (b := .reply r) hon ?_ (destFits_station (by simp [FrameBody.kind]) hd) (heardOf_reply r) (by simp [hd])
    show (encodeFields r.fields).length ≤ Config.maxPayload
    rw [hlen]
    simp only [Config.maxPayload]
    omega

end Sys2Proof.Machine

/-! The ask and offer machines: asks started and failed (R90 to R98), offers made, heard and ended (R93, R112 to R118). -/

namespace Sys2Proof.Machine

/-! ## Frames offered -/

theorem refuses_of_works {c : Condition} (f : OutFrame) (h : c = .ready ∨ c = .drain) : refuses c f = false := by
  obtain rfl | rfl := h <;> rfl

theorem offerFrame_of_place {f : OutFrame} {s : State} (hc : s.cond = .ready ∨ s.cond = .drain) (hf : f.isReplyOrAlert = false)
    (hp : hasPlace s = true) : offerFrame f s = some (pushFrame f s) := by
  unfold offerFrame
  rw [refuses_of_works f hc, if_neg Bool.false_ne_true, hf, if_neg Bool.false_ne_true, if_pos hp]

theorem offerFrame_of_no_place (f : OutFrame) {s : State} (hp : hasPlace s = false) : offerFrame f s = none := by
  unfold offerFrame hasReplyPlace
  rw [hp]
  simp

theorem works_of_actsOnPeers {s : State} : actsOnPeers s = true ↔ s.cond = .ready ∨ s.cond = .drain := by simp [actsOnPeers]

theorem works_of_handsOn {s : State} (h : handsOn s = true) (hc : s.cond ≠ .halted) : s.cond = .ready ∨ s.cond = .drain := by
  simpa [handsOn, hc] using h

theorem handsOn_of_works {s : State} (h : s.cond = .ready ∨ s.cond = .drain) : handsOn s = true := by
  obtain h | h := h <;> simp [handsOn, h]

/-! ## Timers -/

theorem isDue_iff {timer : Option Time} {now : Time} : isDue timer now = true ↔ ∃ x, timer = some x ∧ x ≤ now := by
  cases timer <;> simp [isDue]

theorem isDue_of_le {timer : Option Time} {now x : Time} (h : timer = some x) (hx : x ≤ now) : isDue timer now = true :=
  isDue_iff.mpr ⟨x, h, hx⟩

theorem isDue_of_lt {timer : Option Time} {now : Time} (h : ∀ x, timer = some x → now < x) : isDue timer now = false := by
  rw [Bool.eq_false_iff, Ne, isDue_iff]
  rintro ⟨x, hx, hle⟩
  exact absurd (h x hx) (Nat.not_lt.mpr hle)

/-! ## Commands that the supply lets act -/

section commands
variable {m : Moment} {s u : State} (h : OnAt m s u)
include h

theorem whenOn_at (f : State → State) : whenOn m f s = .next (f u) := by
  obtain ⟨hon, rfl⟩ := h
  exact whenOn_on hon

theorem exec_offerWindowExpiry_on : exec (.offerWindowExpiry m) s
    = .next (if u.ask.state = .calling ∧ isDue u.ask.timer u.now = true then failAsk u else u) := by
  dsimp only [exec, execOfferWindowExpiry]
  rw [whenOn_at h]

theorem exec_grantWaitExpiry_on : exec (.grantWaitExpiry m) s
    = .next (if u.ask.state = .taking ∧ isDue u.ask.timer u.now = true then failAsk u else u) := by
  dsimp only [exec, execGrantWaitExpiry]
  rw [whenOn_at h]

theorem exec_takeWaitExpiry_on : exec (.takeWaitExpiry m) s
    = .next (if u.offer.state = .waiting ∧ isDue u.offer.timer u.now = true ∧ grantStanding u = false then endOffer u else u) := by
  dsimp only [exec, execTakeWaitExpiry]
  rw [whenOn_at h]

end commands

theorem RestAt.onAt {m : Moment} {s u : State} (h : RestAt m s u) : OnAt m s u := ⟨h.1.1, h.2⟩

theorem RestAt.inflight {m : Moment} {s u : State} (h : RestAt m s u) : u.inflight = none := by
  obtain ⟨⟨_, hi, _⟩, rfl⟩ := h
  exact hi

theorem RestAt.tasks {m : Moment} {s u : State} (h : RestAt m s u) : u.tasks = [] := by
  obtain ⟨⟨_, _, ht⟩, rfl⟩ := h
  exact ht

/-! ## A failed ask (R98) -/

theorem saturate_eq {n : Nat} (h : n ≤ 65535) : saturate n = min 65535 (n + 1) := by
  unfold saturate Config.counterTop
  split <;> omega

/-- The station with its ask failed. -/
def askFailed (u : State) : State :=
  let n := min 255 (u.ask.failures + 1)
  { u with
    ask := { u.ask with
      state := .backoff, failures := n, lender := none, offerCount := 0, wanted := 0,
      timer := some (u.now + min (u.profile.backoffBase * 2 ^ (n - 1)) (u.profile.backoffCap * 1000) * 4000) }
    faults := { u.faults with counts := { u.faults.counts with askFailures := min 65535 (u.faults.counts.askFailures + 1) } } }

theorem failAsk_eq {u : State} (hf : u.ask.failures ≤ 255) (hc : u.faults.counts.askFailures ≤ 65535) : failAsk u = askFailed u := by
  have hn : (if u.ask.failures < Config.failureTop then u.ask.failures + 1 else u.ask.failures) = min 255 (u.ask.failures + 1) := by
    unfold Config.failureTop
    split <;> omega
  unfold failAsk askFailed
  dsimp only
  rw [hn, ← saturate_eq hc]
  rfl

theorem grantStanding_iff {s : State} {o : OpenOffer} (ho : s.offer.current = some o) :
    grantStanding s = true ↔ ∃ w, s.inflight = some w ∧ ∃ rs, Task.granted o.asker o.askId rs ∈ w.onDone := by
  unfold grantStanding
  rw [ho]
  cases hi : s.inflight with
  | none => simp
  | some w =>
    simp only [Option.any_some, List.any_eq_true, Option.some.injEq, exists_eq_left']
    constructor
    · rintro ⟨t, ht, htest⟩
      cases t with
      | granted b i rs =>
        simp only [Bool.and_eq_true, beq_iff_eq] at htest
        obtain ⟨rfl, rfl⟩ := htest
        exact ⟨rs, ht⟩
      | _ => cases htest
    · rintro ⟨rs, ht⟩
      exact ⟨_, ht, by simp⟩

/-- Settles O32: each command acts exactly when its machine's timer has run out. -/
theorem loanTimersExpire : Obligations.LoanTimersExpire := by
  refine ⟨fun m s u hon hf hc => ?failed, fun m s u x hrest hstate hx => ?backoff, fun m s u o x hon ho hx hdue => ?offers⟩
  case failed =>
    refine ⟨failAsk_eq hf hc, fun hstate x hx hle => ?_, fun hstate x hx hle => ?_, fun hno => ?_, fun hno => ?_⟩
    · rw [exec_offerWindowExpiry_on hon, if_pos ⟨hstate, isDue_of_le hx hle⟩, failAsk_eq hf hc]
      rfl
    · rw [exec_grantWaitExpiry_on hon, if_pos ⟨hstate, isDue_of_le hx hle⟩, failAsk_eq hf hc]
      rfl
    · rw [exec_offerWindowExpiry_on hon, if_neg]
      rintro ⟨hstate, hdue⟩
      obtain h | h := hno
      · exact h hstate
      · exact Bool.false_ne_true ((isDue_of_lt h).symm.trans hdue)
    · rw [exec_grantWaitExpiry_on hon, if_neg]
      rintro ⟨hstate, hdue⟩
      obtain h | h := hno
      · exact h hstate
      · exact Bool.false_ne_true ((isDue_of_lt h).symm.trans hdue)
  case backoff =>
    have hexec : exec (.backoffExpiry m) s
        = .next (if u.ask.state = .backoff ∧ isDue u.ask.timer u.now = true then
            perform m [.judgeAsk] { u with ask := { u.ask with state := .idle, timer := none } }
          else u) := by
      dsimp only [exec, execBackoffExpiry]
      rw [whenOn_at hrest.onAt]
    rw [hexec]
    refine ⟨fun hle => ?_, fun hlt => ?_⟩
    · rw [if_pos ⟨hstate, isDue_of_le hx hle⟩]
      exact congrArg _ (does_judgeAsk.perform m hrest.inflight hrest.tasks)
    · have hnot : isDue u.ask.timer u.now = false := isDue_of_lt fun y hy => by
        obtain rfl : x = y := Option.some.inj (hx.symm.trans hy)
        exact hlt
      rw [if_neg fun h => Bool.false_ne_true (hnot.symm.trans h.2)]
  case offers =>
    refine ⟨fun hstate hworks => ?_, fun hstate hno => ?_, fun w rs hw hmem => ?_⟩
    · have hready : u.offer.state = .armed ∧ isDue u.offer.timer u.now = true := ⟨hstate, isDue_of_le hx hdue⟩
      refine ⟨fun hp => ?_, fun hp => ?_⟩
      · have hoffer := offerFrame_of_place (f := { dest := broadcast, body := .offer o.askId o.asker o.n o.d }) hworks rfl hp
        dsimp only [exec, execOfferTimerExpiry]
        rw [whenOn_at hon]
        simp only [ho, if_pos hready, hoffer, pushFrame]
      · have hoffer := offerFrame_of_no_place { dest := broadcast, body := .offer o.askId o.asker o.n o.d } hp
        dsimp only [exec, execOfferTimerExpiry]
        rw [whenOn_at hon]
        simp only [ho, if_pos hready, hoffer]
        rfl
    · have hstanding : grantStanding u = false := by
        rw [Bool.eq_false_iff, Ne, grantStanding_iff ho]
        rintro ⟨w, hw, rs, hmem⟩
        exact hno w hw rs hmem
      rw [exec_takeWaitExpiry_on hon, if_pos ⟨hstate, isDue_of_le hx hdue, hstanding⟩]
      rfl
    · have hstanding : grantStanding u = true := (grantStanding_iff ho).mpr ⟨w, hw, rs, hmem⟩
      rw [exec_takeWaitExpiry_on hon, if_neg fun h => Bool.false_ne_true (h.2.2.symm.trans hstanding)]

/-! ## An offer withdrawn (R112, R114, R117) -/

theorem offerDriving_of {s : State} {o : OpenOffer} (ho : s.offer.current = some o) : offerDriving s = isDriving (isOfferOf o) s := by
  unfold offerDriving
  rw [ho]
  rfl

theorem withdrawOffer_driving {s : State} {o : OpenOffer} (later : Bool) (ho : s.offer.current = some o)
    (hd : isDriving (isOfferOf o) s = true) :
    withdrawOffer later s = { s with offer := { s.offer with endsAtReport := s.offer.endsAtReport || later } } := by
  unfold withdrawOffer
  rw [offerDriving_of ho, if_pos hd]

theorem withdrawOffer_not_driving {s : State} {o : OpenOffer} (later : Bool) (ho : s.offer.current = some o)
    (hd : isDriving (isOfferOf o) s = false) :
    withdrawOffer later s = withdraw (isOfferOf o) { s with offer := OfferMachine.reset } := by
  unfold withdrawOffer
  rw [offerDriving_of ho, hd, if_neg Bool.false_ne_true, ho]
  rfl

theorem withdrawOffer_false_driving {s : State} {o : OpenOffer} (ho : s.offer.current = some o)
    (hd : isDriving (isOfferOf o) s = true) : withdrawOffer false s = s := by
  rw [withdrawOffer_driving false ho hd, Bool.or_false]

theorem yieldOffer_of_armed {s : State} (h : s.offer.state = .armed) : yieldOffer s = { s with offer := OfferMachine.reset } := by
  unfold yieldOffer
  rw [h]
  rfl

theorem yieldOffer_of_queued {s : State} (h : s.offer.state = .queued) : yieldOffer s = withdrawOffer false s := by
  unfold yieldOffer
  rw [h]

theorem yieldOffer_of_stays {s : State} (h : s.offer.state = .idle ∨ s.offer.state = .waiting) : yieldOffer s = s := by
  unfold yieldOffer
  obtain h | h := h <;> rw [h]

/-! ## An ask started (R90, R91) -/

/-- The station with an ask of its own begun, before its frame is queued. -/
def asking (s : State) : State :=
  { s with
    ask := { s.ask with
      state := .calling, askId := s.ask.askId + 1,
      wanted := min s.profile.maxLoan (min (32 - s.mm.spares.length) (max 1 (s.profile.spareTarget - s.mm.spares.length))),
      timer := none, lender := none, offerCount := 0 } }

/-- The ASK of the ask begun. -/
def askFrame (s : State) : OutFrame := { dest := broadcast, body := .ask (asking s).ask.askId (asking s).ask.wanted }

theorem startAsk_eq {s : State} (hc : s.cond = .ready) (hi : s.ask.state = .idle) (hroom : s.mm.spares.length < 32) :
    startAsk s = yieldOffer ((offerFrame (askFrame s) (asking s)).getD (failAsk (asking s))) := by
  unfold startAsk
  rw [if_neg (by simp [hc, hi])]
  dsimp only
  rw [if_neg (by exact Nat.not_le.mpr hroom)]
  rfl

theorem startAsk_of_place {s : State} (hc : s.cond = .ready) (hi : s.ask.state = .idle) (hroom : s.mm.spares.length < 32)
    (hp : hasPlace s = true) : startAsk s = yieldOffer (pushFrame (askFrame s) (asking s)) := by
  have hoffer : offerFrame (askFrame s) (asking s) = some _ := offerFrame_of_place (.inl hc) rfl hp
  rw [startAsk_eq hc hi hroom, hoffer]
  rfl

theorem startAsk_of_no_place {s : State} (hc : s.cond = .ready) (hi : s.ask.state = .idle) (hroom : s.mm.spares.length < 32)
    (hp : hasPlace s = false) : startAsk s = yieldOffer (failAsk (asking s)) := by
  rw [startAsk_eq hc hi hroom, offerFrame_of_no_place _ (by exact hp)]
  rfl

theorem failAsk_offer (s : State) : (failAsk s).offer = s.offer := (congrArg State.offer (failAsk_frame s) :)

/-- Settles O33: `judgeAsk` starts an ask under the conditions of R90, and the open offer yields to it. -/
theorem askStarts : Obligations.AskStarts := by
  refine fun s => ⟨fun hnot => if_neg hnot, fun hdue hroom => ?_⟩
  obtain ⟨hc, _, _, hi, _⟩ := id hdue
  have hstart : judgeAsk s = startAsk s := if_pos hdue
  rw [hstart]
  refine ⟨fun hp => ?_, fun hp ho => ?_⟩
  · rw [startAsk_of_place hc hi hroom hp]
    refine ⟨fun ho => yieldOffer_of_stays ho, fun ho => yieldOffer_of_armed ho, fun ho o hcur => ?_⟩
    rw [yieldOffer_of_queued (by exact ho)]
    refine ⟨fun hd => ?_, fun hd => ?_⟩
    · exact withdrawOffer_false_driving (o := o) hcur hd
    · exact withdrawOffer_not_driving (o := o) false hcur hd
  · rw [startAsk_of_no_place hc hi hroom hp]
    exact yieldOffer_of_stays (by rw [failAsk_offer]; exact ho)

/-! ## What hearing a frame leaves of the roster -/

theorem tableGet_set_same_of_ne {α : Type} [DecidableEq α] {d v : α} (h : v ≠ d) (t : Table α) (k : Nat) :
    tableGet d (tableSet d t k v) k = v := by
  unfold tableSet
  rw [if_neg h]
  exact tableGet_of_find (tableFind_put_same _ _ _)

theorem rosterOf_noteSource (source st : Station) (u : State) :
    rosterOf (noteSource source u).roster st = rosterOf u.roster st
      ∨ rosterOf (noteSource source u).roster st = { rosterOf u.roster st with lastHeard := some u.now } := by
  by_cases h : source = broadcast ∨ source = u.own
  · exact .inl (by rw [noteSource, if_pos h])
  · rw [noteSource_eq h]
    unfold setRoster rosterOf
    by_cases hst : st = source
    · subst hst
      have hne : { rosterOf u.roster st with lastHeard := some u.now } ≠ RosterRecord.none := fun h =>
        Option.some_ne_none _ (congrArg RosterRecord.lastHeard h)
      exact .inr (tableGet_set_same_of_ne hne _ _)
    · exact .inl (tableGet_set_other _ _ fun h => hst (BitVec.eq_of_toNat_eq h))

section heard
variable (source st : Station) (acks : Bool) (u : State)

theorem rosterOf_withHeard_state : (rosterOf (withHeard source acks u).roster st).state = (rosterOf u.roster st).state := by
  obtain h | h := rosterOf_noteSource source st u <;> exact (congrArg RosterRecord.state h).trans rfl

theorem rosterOf_withHeard_kind : (rosterOf (withHeard source acks u).roster st).kind = (rosterOf u.roster st).kind := by
  obtain h | h := rosterOf_noteSource source st u <;> exact (congrArg RosterRecord.kind h).trans rfl

theorem rosterOf_withHeard_epoch : (rosterOf (withHeard source acks u).roster st).epoch = (rosterOf u.roster st).epoch := by
  obtain h | h := rosterOf_noteSource source st u <;> exact (congrArg RosterRecord.epoch h).trans rfl

theorem isPresent_withHeard : isPresent (withHeard source acks u).roster st = isPresent u.roster st := by
  unfold isPresent
  rw [rosterOf_withHeard_state]

theorem isPresentShelf_withHeard : isPresentShelf (withHeard source acks u).roster st = isPresentShelf u.roster st := by
  unfold isPresentShelf
  rw [isPresent_withHeard, rosterOf_withHeard_kind]

end heard

section heardFields
variable (source : Station) (acks : Bool) (u : State)

@[simp] theorem withHeard_own : (withHeard source acks u).own = u.own := (congrArg State.own (withHeard_frame source acks u) :)
@[simp] theorem withHeard_cond : (withHeard source acks u).cond = u.cond := (congrArg State.cond (withHeard_frame source acks u) :)
@[simp] theorem withHeard_now : (withHeard source acks u).now = u.now := (congrArg State.now (withHeard_frame source acks u) :)
@[simp] theorem withHeard_ask : (withHeard source acks u).ask = u.ask := (congrArg State.ask (withHeard_frame source acks u) :)
@[simp] theorem withHeard_offer : (withHeard source acks u).offer = u.offer := (congrArg State.offer (withHeard_frame source acks u) :)
@[simp] theorem withHeard_link : (withHeard source acks u).link = u.link := (congrArg State.link (withHeard_frame source acks u) :)
@[simp] theorem withHeard_mm : (withHeard source acks u).mm = u.mm := (congrArg State.mm (withHeard_frame source acks u) :)
@[simp] theorem withHeard_rotor : (withHeard source acks u).rotor = u.rotor := (congrArg State.rotor (withHeard_frame source acks u) :)
@[simp] theorem withHeard_presence : (withHeard source acks u).presence = u.presence :=
  (congrArg State.presence (withHeard_frame source acks u) :)
@[simp] theorem withHeard_profile : (withHeard source acks u).profile = u.profile :=
  (congrArg State.profile (withHeard_frame source acks u) :)
@[simp] theorem withHeard_lastGrants : (withHeard source acks u).lastGrants = u.lastGrants :=
  (congrArg State.lastGrants (withHeard_frame source acks u) :)
@[simp] theorem withHeard_faults : (withHeard source acks u).faults = u.faults :=
  (congrArg State.faults (withHeard_frame source acks u) :)
@[simp] theorem withHeard_attention : (withHeard source acks u).attention = u.attention :=
  (congrArg State.attention (withHeard_frame source acks u) :)
@[simp] theorem withHeard_inflight : (withHeard source acks u).inflight = u.inflight :=
  (congrArg State.inflight (withHeard_frame source acks u) :)
@[simp] theorem withHeard_tasks : (withHeard source acks u).tasks = u.tasks := (congrArg State.tasks (withHeard_frame source acks u) :)
@[simp] theorem withHeard_profileRead : (withHeard source acks u).profileRead = u.profileRead :=
  (congrArg State.profileRead (withHeard_frame source acks u) :)
@[simp] theorem withHeard_loanUp : (withHeard source acks u).loanUp = u.loanUp :=
  (congrArg State.loanUp (withHeard_frame source acks u) :)
@[simp] theorem withHeard_ackDriven : (withHeard source acks u).ackDriven = acks :=
  (congrArg State.ackDriven (withHeard_frame source acks u) :)
@[simp] theorem withHeard_figures : (withHeard source acks u).figures = u.figures :=
  (congrArg State.figures (withHeard_frame source acks u) :)
@[simp] theorem withHeard_short : (withHeard source acks u).short = u.short := (congrArg State.short (withHeard_frame source acks u) :)
@[simp] theorem withHeard_handsOn : handsOn (withHeard source acks u) = handsOn u := (congrArg handsOn (withHeard_frame source acks u) :)
@[simp] theorem withHeard_actsOnPeers : actsOnPeers (withHeard source acks u) = actsOnPeers u :=
  (congrArg actsOnPeers (withHeard_frame source acks u) :)
@[simp] theorem withHeard_hasPlace : hasPlace (withHeard source acks u) = hasPlace u :=
  (congrArg hasPlace (withHeard_frame source acks u) :)
@[simp] theorem withHeard_askInFlight : askInFlight (withHeard source acks u) = askInFlight u :=
  (congrArg askInFlight (withHeard_frame source acks u) :)
@[simp] theorem withHeard_isDriving (test : FrameBody → Bool) : isDriving test (withHeard source acks u) = isDriving test u :=
  (congrArg (isDriving test) (withHeard_frame source acks u) :)

end heardFields

/-! ## OFFER heard (R93, R114) -/

theorem exec_offer_heard {source asker : Station} {askId : AskId} {count : Byte} {d : BitVec 5} {m : Moment} {s u : State}
    (hon : OnAt m s u) (ha : asker ≠ broadcast) (hh : handsOn u = true) :
    exec (.offer source askId asker count d m) s = .next (hearOffer source askId asker count.toNat (withHeard source true u)) := by
  dsimp only [exec, execOffer]
  rw [whenOn_at hon, show wfOffer asker = true from bne_iff_ne.mpr ha, if_pos rfl, hearOfferFrame,
    hear_of_not_start (not_start_of_handsOn hh), withHeard_handsOn, hh, if_pos rfl]

theorem offerMatches_iff {source asker : Station} {askId : AskId} {count : Nat} {s : State} :
    offerMatches source askId asker count s = true ↔
      s.ask.state = .calling ∧ s.ask.timer ≠ none ∧ asker = s.own ∧ askId = s.ask.askId ∧ isPresentShelf s.roster source = true ∧ 1 ≤ count := by
  simp [offerMatches, and_assoc, Option.isSome_iff_ne_none]

theorem rivalOffer_of_none {source asker : Station} {askId : AskId} {s : State}
    (h : ∀ o, s.offer.current = some o → o.asker ≠ asker ∨ o.askId ≠ askId) : rivalOffer source askId asker s = s := by
  refine if_neg fun ⟨_, hany⟩ => ?_
  cases ho : s.offer.current with
  | none => simp [ho] at hany
  | some o =>
    simp only [ho, Option.any_some, Bool.and_eq_true, beq_iff_eq] at hany
    exact (h o ho).elim (· hany.1) (· hany.2)

theorem rivalOffer_of_same {source : Station} {s : State} {o : OpenOffer} (hs : source ≠ s.own) (ho : s.offer.current = some o) :
    rivalOffer source o.askId o.asker s
      = match s.offer.state with
        | .armed => endOffer s
        | .queued => withdrawOffer false s
        | _ => s := if_pos ⟨hs, by simp [ho]⟩

/-- The station that takes an OFFER, before its TAKE is queued. -/
def taking (source : Station) (n : Nat) (s : State) : State :=
  { s with ask := { s.ask with state := .taking, lender := some source, offerCount := n, timer := none } }

theorem takeOffer_of_place {source : Station} {count : Nat} {s : State} (hc : s.cond = .ready ∨ s.cond = .drain) (hp : hasPlace s = true) :
    takeOffer source count s
      = pushFrame { dest := source, body := .take s.ask.askId (min count 8) } (taking source (min count 8) s) := by
  have hoffer : offerFrame { dest := source, body := .take s.ask.askId (min count 8) } (taking source (min count 8) s) = some _ :=
    offerFrame_of_place hc rfl hp
  exact congrArg (Option.getD · _) hoffer

theorem takeOffer_of_no_place {source : Station} {count : Nat} {s : State} (hp : hasPlace s = false) :
    takeOffer source count s = failAsk (taking source (min count 8) s) := by
  have hoffer : offerFrame { dest := source, body := .take s.ask.askId (min count 8) } (taking source (min count 8) s) = none :=
    offerFrame_of_no_place _ hp
  exact congrArg (Option.getD · _) hoffer

/-- Settles O34: the ask machine takes what `offerMatches` says, and the offer machine yields to a rival. -/
theorem offerHeard : Obligations.OfferHeard := by
  refine ⟨fun source askId asker count d m s u hon ha hh hother => ?_,
    fun source askId asker count d m s u o hon hh ha hown hsource ho hoa hoi => ?_⟩
  · rw [exec_offer_heard hon ha hh]
    have hmatches : offerMatches source askId asker count.toNat (withHeard source true u) = true ↔
        u.ask.state = .calling ∧ u.ask.timer ≠ none ∧ asker = u.own ∧ askId = u.ask.askId ∧ isPresentShelf u.roster source = true
          ∧ 1 ≤ count.toNat := by
      rw [offerMatches_iff, withHeard_ask, withHeard_own, isPresentShelf_withHeard]
    refine ⟨fun hfits hc hp => ?_, fun hfits hc hp => ?_, fun hnot => ?_⟩
    · obtain ⟨_, _, _, rfl, _⟩ := id hfits
      unfold hearOffer
      rw [if_pos (hmatches.mpr hfits), takeOffer_of_place (by simpa using works_of_handsOn hh hc) (by simpa using hp),
        rivalOffer_of_none (by simpa [taking] using hother)]
      simp [taking]
    · unfold hearOffer
      rw [if_pos (hmatches.mpr hfits), takeOffer_of_no_place (by simpa using hp),
        rivalOffer_of_none (by rw [failAsk_offer]; simpa [taking] using hother)]
      simp [taking]
    · unfold hearOffer
      rw [if_neg fun h => hnot (hmatches.mp h), rivalOffer_of_none (by simpa using hother)]
  · subst hoa hoi
    have hmatches : offerMatches source o.askId o.asker count.toNat (withHeard source true u) ≠ true := by
      rw [Ne, offerMatches_iff, withHeard_own]
      exact fun h => hown h.2.2.1
    rw [exec_offer_heard hon ha hh, hearOffer, if_neg hmatches, rivalOffer_of_same (by simpa using hsource) (by simpa using ho),
      withHeard_offer]
    refine ⟨fun hstate => ?_, fun hstate hd => ?_, fun hstate => ?_⟩
    · rw [hstate]
      rfl
    · rw [hstate]
      exact congrArg _ (withdrawOffer_not_driving false (by simpa using ho) (by simpa using hd))
    · obtain hstate | ⟨hstate, hd⟩ := hstate
      · rw [hstate]
      · rw [hstate]
        exact congrArg _ (withdrawOffer_false_driving (by simpa using ho) (by simpa using hd))

/-! ## ASK heard (R112) -/

theorem exec_ask_heard {source : Station} {askId : AskId} {wanted : Byte} {m : Moment} {s u : State} (hon : OnAt m s u)
    (hs : u.cond ≠ .start) :
    exec (.ask source askId wanted m) s
      = .next (if handsOn u = true then hearAsk source askId wanted.toNat (withHeard source (handsOn u) u)
          else withHeard source (handsOn u) u) := by
  dsimp only [exec, execAsk]
  rw [whenOn_at hon, hearAskFrame, hear_of_not_start hs, withHeard_handsOn]

theorem hearAsk_of_none {source : Station} {askId : AskId} {wanted : Nat} {s : State} (ho : s.offer.current = none) :
    hearAsk source askId wanted s = judgeOffer source askId wanted s := by
  unfold hearAsk
  rw [ho]

theorem hearAsk_of_ignored {source : Station} {askId : AskId} {wanted : Nat} {s : State} {o : OpenOffer} (ho : s.offer.current = some o)
    (h : o.asker ≠ source ∨ o.askId = askId) : hearAsk source askId wanted s = s := by
  unfold hearAsk
  simp only [ho, if_pos h]

section new
variable {source : Station} {askId : AskId} {wanted : Nat} {s : State} {o : OpenOffer} (ho : s.offer.current = some o)
  (ha : o.asker = source) (hi : o.askId ≠ askId)
include ho ha hi

theorem hearAsk_of_new (hq : s.offer.state ≠ .queued) : hearAsk source askId wanted s = judgeOffer source askId wanted (endOffer s) := by
  unfold hearAsk
  simp only [ho, if_neg (show ¬ (o.asker ≠ source ∨ o.askId = askId) from fun h => h.elim (· ha) hi), if_neg hq]
  rfl

theorem hearAsk_of_new_queued (hq : s.offer.state = .queued) :
    hearAsk source askId wanted s
      = if (withdrawOffer true s).offer.current.isNone then judgeOffer source askId wanted (withdrawOffer true s)
        else withdrawOffer true s := by
  unfold hearAsk
  simp only [ho, if_neg (show ¬ (o.asker ≠ source ∨ o.askId = askId) from fun h => h.elim (· ha) hi), if_pos hq]

end new

/-- Settles O37: an ASK is judged from IDLE by `judgeOffer`, and an open offer's fate decides whether it is. -/
theorem askHeard : Obligations.AskHeard := by
  refine ⟨fun source askId wanted m s u hon hnone hs => ?_, fun source askId wanted m s u o hon hh ho hidle => ?_⟩
  · rw [exec_ask_heard hon hs]
    refine ⟨fun hfits => ?_, fun hnot => ?_⟩
    · have hh : handsOn u = true := handsOn_of_works (.inl hfits.1)
      rw [hh, if_pos rfl, hearAsk_of_none (by simpa using hnone), judgeOffer,
        if_pos (by simpa [isPresentShelf_withHeard] using hfits)]
      simp [Config.slot]
    · split
      · rw [hearAsk_of_none (by simpa using hnone), judgeOffer, if_neg (by simpa [isPresentShelf_withHeard] using hnot)]
      · rfl
  · rw [exec_ask_heard hon (not_start_of_handsOn hh), hh, if_pos rfl]
    have ho' : (withHeard source true u).offer.current = some o := by simpa using ho
    refine ⟨fun hign => ?_, fun ha hi => ⟨fun hstate => ?_, fun hstate hd => ?_, fun hstate hd => ?_⟩⟩
    · rw [hearAsk_of_ignored ho' hign]
    · rw [hearAsk_of_new ho' ha hi (by simpa using hstate)]
      rfl
    · rw [hearAsk_of_new_queued ho' ha hi (by simpa using hstate), withdrawOffer_not_driving true ho' (by simpa using hd)]
      rfl
    · rw [hearAsk_of_new_queued ho' ha hi (by simpa using hstate), withdrawOffer_driving true ho' (by simpa using hd)]
      simp [ho]

end Sys2Proof.Machine

/-! Lending: TAKE answered by a GRANT or otherwise (R116, R118 to R122), and loans that come home (R123, R124). -/

namespace Sys2Proof.Machine

/-! ## One event performed by a station at rest -/

section perform
variable {m : Moment} {s s' : State} {t : Task} {w : MapWrite} (hi : s.inflight = none) (ht : s.tasks = [])
include hi ht

/-- An event that makes no write, performed. -/
theorem perform_noWrite (htk : takeTask t s = (s', none)) (ht' : s'.tasks = []) : perform m [t] s = s' := by
  unfold perform
  rw [ht, List.nil_append]
  exact (leads_noWrite (s := withTasks [t] s) hi rfl (by rw [withTasks_withTasks, withTasks_self ht]; exact htk)).settle_eq
    (m := m) rfl (by decide) ht'

/-- An event whose write completes, performed: what the write brings, carried through from there. -/
theorem perform_write {k : Nat} {v : State} (hw : m.writes = []) (htk : takeTask t s = (s', some w))
    (h : Leads k [] [] (completeWrite w s') v) (hk : k ≤ 1000) (hv : v.tasks = []) : perform m [t] s = v := by
  unfold perform
  rw [ht, List.nil_append]
  have hwrite := leads_write (t := t) (w := w) (s := withTasks [t] s) hi rfl (by rw [withTasks_withTasks, withTasks_self ht]; exact htk)
  exact (hwrite.trans h).settle_eq hw (by simp only [workBound]; omega) hv

end perform

/-! ## Events taken one after another, and a write with what it brings -/

/-- Events that make no write, which together do `g`. -/
structure DoesAll (ts : List Task) (g : State → State) : Prop where
  leads : ∀ {fates : List WriteFate} {rest : List Task} {s : State}, s.inflight = none →
    Leads ts.length fates fates (withTasks (ts ++ rest) s) (withTasks rest (g s))
  inflight : ∀ s, (g s).inflight = s.inflight

theorem DoesAll.nil : DoesAll [] id where
  leads _ := .refl _ _
  inflight _ := rfl

theorem DoesAll.cons {t : Task} {ts : List Task} {f g : State → State} (h : Does t f) (hs : DoesAll ts g) :
    DoesAll (t :: ts) (g ∘ f) where
  leads {fates rest s} hi := by
    have hlast := hs.leads (fates := fates) (rest := rest) ((h.inflight s).trans hi)
    rw [List.length_cons, Nat.add_comm]
    exact (h.leads hi).trans hlast
  inflight s := (hs.inflight (f s)).trans (h.inflight s)

theorem Does.one {t : Task} {f : State → State} (h : Does t f) : DoesAll [t] f := ⟨h.leads, h.inflight⟩

/-- The station as the completion of a write leaves it, before anything that follows it. -/
def written (w : MapWrite) (s : State) : State := { s with mm := w.image, rotor := w.rotor, inflight := none }

theorem completeWrite_eq (w : MapWrite) (s : State) :
    completeWrite w s
      = withTasks (w.onDone ++ (judgements w.takes s (written w s) ++ (w.goOn ++ s.tasks))) (written w s) := by
  unfold completeWrite
  simp [written, withTasks]

/-- A write that leaves the lists alone calls for no judging of the quiet condition. -/
theorem quietJudged_written {w : MapWrite} {s : State} (v : State) (hp : w.image.pendings = s.mm.pendings) (ht : w.image.trims = s.mm.trims)
    (hs : w.image.spares = s.mm.spares) : quietJudged s (written w s) v = v :=
  quietJudged_of_same hp.symm ht.symm hs.symm

/-- A write completed: what it brings is done, then what its changes call for is judged. -/
theorem leads_completed {fates : List WriteFate} {w : MapWrite} {g : State → State} (h : DoesAll w.onDone g) (s : State) :
    ∃ k ≤ w.onDone.length + 2, Leads k fates fates (completeWrite w s)
      (quietJudged s (written w s) (withTasks (w.goOn ++ s.tasks) (askJudged w.takes s (written w s) (g (written w s))))) := by
  obtain ⟨k, hk, hjudged⟩ := leads_judgements (fates := fates) w.takes s (written w s) (w.goOn ++ s.tasks) (s := g (written w s))
    ((h.inflight _).trans rfl)
  rw [completeWrite_eq]
  exact ⟨w.onDone.length + k, by omega, (h.leads rfl).trans hjudged⟩

/-- An event whose write completes, performed by a station at rest, when nothing waits after it. -/
theorem perform_completed {m : Moment} {s s' : State} {t : Task} {w : MapWrite} {g : State → State} (hi : s.inflight = none)
    (ht : s.tasks = []) (hw : m.writes = []) (htk : takeTask t s = (s', some w)) (h : DoesAll w.onDone g) (hlen : w.onDone.length ≤ 100)
    (hnext : w.goOn = []) (htasks : s'.tasks = [])
    (hend : (quietJudged s' (written w s') (withTasks [] (askJudged w.takes s' (written w s') (g (written w s'))))).tasks = []) :
    perform m [t] s = quietJudged s' (written w s') (withTasks [] (askJudged w.takes s' (written w s') (g (written w s')))) := by
  obtain ⟨k, hk, hleads⟩ := leads_completed (fates := []) h s'
  rw [hnext, htasks, List.append_nil] at hleads
  exact perform_write hi ht hw htk hleads (by omega) hend

/-! ## TAKE heard -/

theorem acksPeer_eq (dest : Station) {u : State} (h : actsOnPeers u = true) : acksPeer dest u = (dest == u.own) := by simp [acksPeer, h]

theorem not_start_of_actsOnPeers {u : State} (h : actsOnPeers u = true) : u.cond ≠ .start :=
  not_start_of_handsOn (handsOn_of_works (works_of_actsOnPeers.mp h))

theorem exec_take_heard {source dest : Station} {askId : AskId} {count : Byte} {m : Moment} {s u : State} (hon : OnAt m s u)
    (hd : dest ≠ broadcast) (hacts : actsOnPeers u = true) :
    exec (.take source dest askId count m) s
      = .next (if dest = u.own then perform m [.takeHeard source askId count.toNat] (withHeard source (dest == u.own) u)
          else hearTakeElsewhere source askId (withHeard source (dest == u.own) u)) := by
  dsimp only [exec, execTake]
  rw [whenOn_at hon, show wfTake dest = true from bne_iff_ne.mpr hd, if_pos rfl, hearTakeFrame,
    hear_of_not_start (not_start_of_actsOnPeers hacts), acksPeer_eq dest hacts, withHeard_actsOnPeers, hacts, if_pos rfl, withHeard_own]

theorem takeMatches_of {source : Station} {askId : AskId} {s : State} {o : OpenOffer}
    (hstate : s.offer.state = .queued ∨ s.offer.state = .waiting) (ho : s.offer.current = some o) (ha : o.asker = source)
    (hi : o.askId = askId) : takeMatches source askId s = some o := by
  unfold takeMatches
  rw [if_pos hstate, ho]
  simp [ha, hi, Option.filter]

theorem takeMatches_none {source : Station} {askId : AskId} {s : State}
    (h : ∀ o, ¬ (s.offer.current = some o ∧ (s.offer.state = .queued ∨ s.offer.state = .waiting) ∧ o.asker = source ∧ o.askId = askId)) :
    takeMatches source askId s = none := by
  unfold takeMatches
  split
  · rename_i hstate
    cases ho : s.offer.current with
    | none => rfl
    | some o =>
      have hno : ¬ (o.asker = source ∧ o.askId = askId) := fun hb => h o ⟨ho, hstate, hb⟩
      simpa [Option.filter] using hno
  · rfl

section take
variable {source : Station} {askId : AskId} {count : Nat} {s : State} {o : OpenOffer} (hacts : actsOnPeers s = true)
include hacts

theorem takeTake_of_no_place (ho : takeMatches source askId s = some o) (hp : hasPlace s = false) :
    takeTake source askId count s = noWrite (endOffer s) := by
  unfold takeTake
  simp only [hacts, ho, hp, if_true, Bool.false_eq_true, if_false]

theorem takeTake_of_empty (ho : takeMatches source askId s = some o) (hp : hasPlace s = true) (hg : grantCountFor source count o s = 0) :
    takeTake source askId count s
      = noWrite (endOffer (setLastGrant source askId [] (pushFrame { dest := source, body := .grant askId [] } s))) := by
  unfold takeTake
  simp only [hacts, ho, hp, hg, takeGrains, if_true]

theorem takeTake_of_grains (ho : takeMatches source askId s = some o) (hp : hasPlace s = true) {taken : Taken} {epoch : Epoch}
    (htaken : taken = takeGrains s.presence (grantCountFor source count o s) s.mm.freeSets s.rotor) (hg : taken.grains ≠ [])
    (he : (rosterOf s.roster source).epoch = some epoch) :
    takeTake source askId count s
      = (reserveOther s,
          some
            { image := { s.mm with freeSets := taken.sets, loans := (makeLoans source epoch s.mm.loans taken.grains).1 }
              rotor := taken.rotor, takes := true
              onDone := [.granted source askId (makeLoans source epoch s.mm.loans taken.grains).2], goOn := []
              onFail := [.releaseOther, .endOfferOf source askId, .mapMemError] }) := by
  unfold takeTake
  simp only [hacts, ho, hp, ← htaken, he, if_true]
  cases hgs : taken.grains with
  | nil => exact absurd hgs hg
  | cons g gs => rfl

theorem takeTake_of_last (ho : takeMatches source askId s = none) :
    takeTake source askId count s
      = match tableFind s.lastGrants source.toNat with
        | some last =>
          if last.askId = askId then noWrite ((offerFrame { dest := source, body := .grant askId last.records } s).getD s) else noWrite s
        | none => noWrite s := by
  unfold takeTake
  simp only [hacts, ho, if_true] <;> rfl

end take

theorem hearTakeElsewhere_of_waiting {source : Station} {askId : AskId} {s : State} {o : OpenOffer} (hw : s.offer.state = .waiting)
    (ho : s.offer.current = some o) (ha : o.asker = source) (hi : o.askId = askId) : hearTakeElsewhere source askId s = endOffer s :=
  if_pos ⟨hw, by simp [ho, ha, hi]⟩

theorem hearTakeElsewhere_of_not_waiting {source : Station} {askId : AskId} {s : State} (hw : s.offer.state ≠ .waiting) :
    hearTakeElsewhere source askId s = s := if_neg fun h => hw h.1

/-- Settles O39: each row is one branch of `takeTake`, or the offer that another station's TAKE ends. -/
theorem takeOtherwise : Obligations.TakeOtherwise := by
  intro source dest askId count m s u hrest hd hacts
  have hexec := exec_take_heard (source := source) (askId := askId) (count := count) hrest.onAt hd hacts
  have hacts' : actsOnPeers (withHeard source (dest == u.own) u) = true := by simpa using hacts
  have performed {s' : State} (htk : takeTake source askId count.toNat (withHeard source (dest == u.own) u) = noWrite s')
      (ht : s'.tasks = []) : perform m [.takeHeard source askId count.toNat] (withHeard source (dest == u.own) u) = s' :=
    perform_noWrite (by simpa using hrest.inflight) (by simpa using hrest.tasks) htk ht
  refine ⟨fun hown o ⟨ho, hstate, ha, hi⟩ => ?_, fun hown hno => ?_, fun hother => ⟨fun hw o ho ha hi => ?_, fun hw => ?_⟩⟩
  · have hmatch : takeMatches source askId (withHeard source (dest == u.own) u) = some o :=
      takeMatches_of (by simpa using hstate) (by simpa using ho) ha hi
    refine ⟨fun hp => ?_, fun hp hcase => ?_⟩
    · rw [hexec, if_pos hown, performed (takeTake_of_no_place hacts' hmatch (by simpa using hp)) (by simpa using hrest.tasks)]
      rfl
    · have hg : grantCountFor source count.toNat o (withHeard source (dest == u.own) u) = 0 := by
        unfold grantCountFor
        rw [withHeard_cond, isPresent_withHeard, withHeard_figures]
        split
        · rename_i hready
          obtain hc | hp | hz := hcase
          · exact nomatch hready.1.symm.trans hc
          · exact nomatch hp.symm.trans hready.2
          · exact hz
        · rfl
      rw [hexec, if_pos hown, performed (takeTake_of_empty hacts' hmatch (by simpa using hp) hg) (by simpa using hrest.tasks)]
      simp [endOffer, setLastGrant, pushFrame]
  · have hmatch : takeMatches source askId (withHeard source (dest == u.own) u) = none := takeMatches_none (by simpa using hno)
    have hlast := takeTake_of_last (count := count.toNat) hacts' hmatch
    rw [withHeard_lastGrants] at hlast
    refine ⟨fun last hl hi hp => ?_, fun hl => ?_⟩
    · have hoffer : offerFrame { dest := source, body := .grant askId last.records } (withHeard source (dest == u.own) u) = some _ :=
        offerFrame_of_place (works_of_actsOnPeers.mp hacts') rfl (by simpa using hp)
      simp only [hl, if_pos hi, hoffer] at hlast
      rw [hexec, if_pos hown, performed hlast (by simpa using hrest.tasks)]
      rfl
    · rw [hexec, if_pos hown]
      refine congrArg _ (performed ?_ (by simpa using hrest.tasks))
      rw [hlast]
      cases hf : tableFind u.lastGrants source.toNat with
      | none => rfl
      | some last => exact if_neg (hl last hf)
  · rw [hexec, if_neg hother, hearTakeElsewhere_of_waiting (by simpa using hw) (by simpa using ho) ha hi]
    rfl
  · rw [hexec, if_neg hother, hearTakeElsewhere_of_not_waiting (by simpa using hw)]

/-! ## Loan records made (R119, R120) -/

theorem tableFind_ne_none_of_lt_lowestLoan {t : Table Loan} (w : tableWf t) {n : Nat} (h : n < lowestLoan t) : tableFind t n ≠ none := by
  obtain ⟨_, _, hbelow, _⟩ := lowestMissing_spec (n := 0) (l := tableKeys t) w fun _ _ => Nat.zero_le _
  obtain ⟨p, hp, rfl⟩ := List.mem_map.mp (hbelow n (Nat.zero_le _) h)
  rw [tableFind_of_mem w hp]
  exact Option.some_ne_none _

/-- What the loan records of a grant are. -/
structure LoansMade (borrower : Station) (epoch : Epoch) (t : Table Loan) (grains : List (Nat × Nat))
    (made : Table Loan × List GrantRecord) : Prop where
  places : made.2.map (fun r => (r.bay, r.grain)) = grains
  rises : (made.2.map fun r => r.loan).Pairwise (· < ·)
  records : ∀ r ∈ made.2, tableFind t r.loan = none
    ∧ tableFind made.1 r.loan = some { borrower := borrower, epoch := epoch, bay := r.bay, grain := r.grain }
    ∧ ∀ n, n < r.loan → tableFind made.1 n ≠ none
  others : ∀ n, (∀ r ∈ made.2, r.loan ≠ n) → tableFind made.1 n = tableFind t n
  length : made.1.length = t.length + grains.length
  wf : tableWf made.1

theorem LoansMade.kept {borrower : Station} {epoch : Epoch} {t : Table Loan} {grains : List (Nat × Nat)}
    {made : Table Loan × List GrantRecord} (h : LoansMade borrower epoch t grains made) {n : Nat} (hn : tableFind t n ≠ none) :
    tableFind made.1 n = tableFind t n :=
  h.others n fun r hr heq => hn (heq ▸ (h.records r hr).1)

theorem makeLoans_made (borrower : Station) (epoch : Epoch) (grains : List (Nat × Nat)) {t : Table Loan} (w : tableWf t) :
    LoansMade borrower epoch t grains (makeLoans borrower epoch t grains) := by
  induction grains generalizing t with
  | nil => exact ⟨rfl, .nil, nofun, fun _ _ => rfl, rfl, w⟩
  | cons p grains ih =>
    obtain ⟨bay, grain⟩ := p
    have hnone := tableFind_lowestLoan w
    have hbelow (n : Nat) (h : n < lowestLoan t) : tableFind t n ≠ none := tableFind_ne_none_of_lt_lowestLoan w h
    have h := ih (tableWf_put (lowestLoan t) { borrower := borrower, epoch := epoch, bay := bay, grain := grain } w)
    have hput : tableFind (tablePut t (lowestLoan t) { borrower := borrower, epoch := epoch, bay := bay, grain := grain }) (lowestLoan t)
        = some { borrower := borrower, epoch := epoch, bay := bay, grain := grain } := tableFind_put_same _ _ _
    have hputOther {n : Nat} (hn : n ≠ lowestLoan t) :
        tableFind (tablePut t (lowestLoan t) { borrower := borrower, epoch := epoch, bay := bay, grain := grain }) n = tableFind t n :=
      tableFind_put_other _ _ hn
    have hlater : ∀ r ∈ (makeLoans borrower epoch
        (tablePut t (lowestLoan t) { borrower := borrower, epoch := epoch, bay := bay, grain := grain }) grains).2, lowestLoan t < r.loan := by
      intro r hr
      have hfree := (h.records r hr).1
      by_contra hle
      obtain heq | hlt := (Nat.not_lt.mp hle).eq_or_lt
      · rw [heq, hput] at hfree
        cases hfree
      · rw [hputOther (Nat.ne_of_lt hlt)] at hfree
        exact hbelow _ hlt hfree
    refine ⟨?_, ?_, ?_, fun n hn => ?_, ?_, h.wf⟩
    · exact congrArg ((bay, grain) :: ·) h.places
    · exact List.pairwise_cons.mpr ⟨by simpa using hlater, h.rises⟩
    · refine List.forall_mem_cons.mpr ⟨⟨hnone, ?_, fun n hn => ?_⟩, fun r hr => ⟨?_, (h.records r hr).2⟩⟩
      · exact (h.kept (by rw [hput]; exact Option.some_ne_none _)).trans hput
      · have hkept : tableFind (tablePut t (lowestLoan t) _) n = tableFind t n := hputOther (Nat.ne_of_lt hn)
        exact fun hgone => hbelow n hn (hkept ▸ (h.kept (hkept ▸ hbelow n hn)).symm.trans hgone)
      · exact (hputOther (Nat.ne_of_gt (hlater r hr))).symm.trans (h.records r hr).1
    · obtain ⟨hne, hrest⟩ := List.forall_mem_cons.mp hn
      exact (h.others n hrest).trans (hputOther (Ne.symm hne))
    · have hlen := h.length
      have hperm := (tablePut_perm_of_none hnone { borrower := borrower, epoch := epoch, bay := bay, grain := grain }).length_eq
      simp only [List.length_cons] at hperm ⊢
      exact hlen.trans (by omega)

/-! ## TAKE granted (R118, R119) -/

theorem hasPlace_of_occupied {s t : State} (h : s.link.occupied = t.link.occupied) : hasPlace s = hasPlace t := by
  unfold hasPlace
  rw [h]

theorem endOfferOf_of_same {s : State} {o : OpenOffer} (ho : s.offer.current = some o) : endOfferOf o.asker o.askId s = endOffer s :=
  if_pos (by simp [ho])

theorem sendGranted_of_place {askId : AskId} {borrower : Station} {rs : List GrantRecord} {s : State} {o : OpenOffer}
    (hc : s.cond = .ready ∨ s.cond = .drain) (hp : hasPlace (releaseOther s) = true) (ho : s.offer.current = some o)
    (ha : o.asker = borrower) (hi : o.askId = askId) :
    sendGranted borrower askId rs s
      = { pushFrame { dest := borrower, body := .grant askId rs } (releaseOther s) with
          lastGrants := tablePut s.lastGrants borrower.toNat { askId := askId, records := rs }, offer := OfferMachine.reset } := by
  subst ha hi
  have hoffer : offerFrame { dest := o.asker, body := .grant o.askId rs } (releaseOther s) = some _ := offerFrame_of_place hc rfl hp
  unfold sendGranted
  simp only [hoffer, Option.getD_some]
  rw [endOfferOf_of_same (by simpa [setLastGrant] using ho)]
  rfl

/-- Settles O38: the write, the GRANT in its reserved place, then R90; the records by `makeLoans_made`. -/
theorem takeGranted : Obligations.TakeGranted := by
  refine ⟨fun source dest askId count m s u o epoch taken hrest hw hd hown hc hstate ho ha hi hp hpresent he hcan htaken hg => ?_,
    fun borrower epoch t grains w => ?_⟩
  · subst hown
    have hacts : actsOnPeers u = true := works_of_actsOnPeers.mpr (.inl hc)
    have hcount : grantCountFor source count.toNat o (withHeard source true u) = grantCount u.figures count.toNat o.n := by
      unfold grantCountFor
      rw [withHeard_cond, isPresent_withHeard, withHeard_figures, if_pos ⟨hc, hpresent⟩]
    have htk := takeTake_of_grains (source := source) (askId := askId) (count := count.toNat) (s := withHeard source true u)
      (taken := taken) (epoch := epoch) (by simpa using hacts) (takeMatches_of (by simpa using hstate) (by simpa using ho) ha hi)
      (by simpa using hp) (by rw [hcount]; simpa using htaken) hg ((rosterOf_withHeard_epoch _ _ _ _).trans he)
    have hrun := perform_completed (m := m) (t := .takeHeard source askId count.toNat) (by simpa using hrest.inflight)
      (by simpa using hrest.tasks) hw htk (does_granted source askId _).one (Nat.le_of_ble_eq_true rfl) rfl
      (by simpa using hrest.tasks)
    rw [askJudged_of_takes, quietJudged_written _ rfl rfl rfl,
      sendGranted_of_place (.inl (by simpa [written] using hc)) (by rw [hasPlace_of_occupied (t := u) (by simp [written, Link.occupied])]; exact hp)
        (by simpa [written] using ho) ha hi, ← judgeAsk_withTasks] at hrun
    rw [exec_take_heard hrest.onAt hd hacts, if_pos rfl, beq_self_eq_true, hrun (by simp)]
    have hidle : (none : Option MapWrite) = u.inflight := hrest.inflight.symm
    have hempty : ([] : List Task) = u.tasks := hrest.tasks.symm
    simp [written, withTasks, pushFrame, releaseOther, reserveOther, hidle, hempty]
  · have h := makeLoans_made borrower epoch grains w
    exact ⟨h.places, h.rises, h.records, h.others, h.length, h.wf⟩

end Sys2Proof.Machine

/-! Loans that come home: GIVEBACK heard (R123, R124). -/

namespace Sys2Proof.Machine

/-! ## Free sets that only gain grains -/

/-- A free set that has gained grains of its own bay. -/
def FreeSet.Gains (x y : FreeSet) : Prop := y.count = x.count ∧ y.held.Sublist x.held

theorem FreeSet.Gains.refl (x : FreeSet) : FreeSet.Gains x x := ⟨rfl, List.Sublist.refl _⟩

theorem FreeSet.Gains.trans {x y z : FreeSet} (h : FreeSet.Gains x y) (h' : FreeSet.Gains y z) : FreeSet.Gains x z :=
  ⟨h'.1.trans h.1, h'.2.trans h.2⟩

theorem FreeSet.gains_give (x : FreeSet) (g : Nat) : FreeSet.Gains x (x.give g) := ⟨rfl, List.filter_sublist⟩

theorem FreeSet.Gains.size_le {x y : FreeSet} (h : FreeSet.Gains x y) : x.size ≤ y.size := by
  have := h.2.length_le
  unfold FreeSet.size
  rw [h.1]
  omega

theorem FreeSet.Gains.eq_of_size {x y : FreeSet} (h : FreeSet.Gains x y) (w : x.wf) (hs : x.size = y.size) : x = y := by
  have hlen := FreeSet.held_length_le w
  have hle := h.2.length_le
  unfold FreeSet.size at hs
  rw [h.1] at hs
  have hheld := h.2.eq_of_length (by omega)
  cases x
  cases y
  simp only [FreeSet.mk.injEq]
  exact ⟨h.1.symm, hheld.symm⟩

theorem forall₂_gains_refl (sets : List FreeSet) : List.Forall₂ FreeSet.Gains sets sets := List.forall₂_same.mpr fun x _ => .refl x

theorem forall₂_gains_giveGrain (sets : List FreeSet) (bay grain : Nat) : List.Forall₂ FreeSet.Gains sets (giveGrain sets bay grain) := by
  unfold giveGrain
  induction sets generalizing bay with
  | nil => cases bay <;> exact .nil
  | cons x sets ih =>
    cases bay with
    | zero => exact .cons (x.gains_give grain) (forall₂_gains_refl sets)
    | succ bay => exact .cons (.refl x) (ih bay)

theorem forall₂_gains_trans {a b c : List FreeSet} (h : List.Forall₂ FreeSet.Gains a b) (h' : List.Forall₂ FreeSet.Gains b c) :
    List.Forall₂ FreeSet.Gains a c := by
  induction h generalizing c with
  | nil => exact h'
  | cons hx _ ih =>
    cases h' with
    | cons hy hrest => exact .cons (hx.trans hy) (ih hrest)

/-- The free sets of the PRESENT bays, in order. -/
def setsOfPresent (presence : List Bool) (sets : List FreeSet) : List (Option FreeSet) :=
  List.zipWith (fun p x => if p then some x else none) presence sets

theorem presentSets_eq (s : State) : presentSets s = setsOfPresent s.presence s.mm.freeSets := rfl

theorem poolFree_cons (p : Bool) (presence : List Bool) (x : FreeSet) (sets : List FreeSet) :
    poolFree (p :: presence) (x :: sets) = (if p then x.size else 0) + poolFree presence sets := sumPresent_cons ..

/-- Sets that only gain grains free none in a PRESENT bay exactly when F stays. -/
theorem poolFree_eq_iff {sets sets' : List FreeSet} (h : List.Forall₂ FreeSet.Gains sets sets') (w : ∀ x ∈ sets, x.wf) (presence : List Bool) :
    poolFree presence sets ≤ poolFree presence sets'
      ∧ (poolFree presence sets = poolFree presence sets' ↔ setsOfPresent presence sets = setsOfPresent presence sets') := by
  induction h generalizing presence with
  | nil => exact ⟨Nat.le_refl _, by simp⟩
  | @cons x y sets sets' hx hrest ih =>
    cases presence with
    | nil => exact ⟨Nat.le_refl _, by simp [poolFree, setsOfPresent]⟩
    | cons p presence =>
      obtain ⟨wx, wsets⟩ := List.forall_mem_cons.mp w
      obtain ⟨hle, hiff⟩ := ih wsets presence
      have hsize := hx.size_le
      rw [poolFree_cons, poolFree_cons]
      unfold setsOfPresent at hiff ⊢
      rw [List.zipWith_cons_cons, List.zipWith_cons_cons, List.cons.injEq, ← hiff]
      cases p with
      | false => simp [hle]
      | true =>
        simp only [if_true, Option.some.injEq]
        refine ⟨by omega, fun heq => ⟨hx.eq_of_size wx (by omega), by omega⟩, fun ⟨hxy, hrest⟩ => by rw [hxy, hrest]⟩

theorem FreeSet.has_give (x : FreeSet) (g k : Nat) : (x.give g).has k = true ↔ x.has k = true ∨ (k = g ∧ k < x.count) := by
  rw [FreeSet.has_iff, FreeSet.has_iff, FreeSet.mem_give_held, FreeSet.give_count]
  tauto

/-! ## The numbers of a GIVEBACK judged (R123, R124) -/

/-- Whether a loan number has a record of the sender. -/
def isLoanOf (sender : Station) (t : Table Loan) (n : Nat) : Bool := (tableFind t n).any fun l => l.borrower == sender

section judged
variable {sender : Station} {mm : MapMemory}

theorem isLoanOf_iff {t : Table Loan} {n : Nat} : isLoanOf sender t n = true ↔ ∃ l, tableFind t n = some l ∧ l.borrower = sender := by
  unfold isLoanOf
  cases tableFind t n <;> simp

theorem isLoanOf_erase {t : Table Loan} (w : tableWf t) (n k : Nat) :
    isLoanOf sender (tableErase t n) k = (!(k == n) && isLoanOf sender t k) := by
  unfold isLoanOf
  by_cases hk : k = n
  · rw [hk, tableFind_erase_same w]
    simp
  · rw [tableFind_erase_other t hk]
    simp [hk]

/-- Map memory with one loan of the sender home. -/
def loanHome (mm : MapMemory) (n : Nat) (l : Loan) : MapMemory :=
  { mm with loans := tableErase mm.loans n, freeSets := giveGrain mm.freeSets l.bay l.grain }

theorem judgeGiveback_valid {n : Nat} {l : Loan} (ls : List Nat) (hl : tableFind mm.loans n = some l) (hb : l.borrower = sender) :
    judgeGiveback sender mm (n :: ls)
      = { judgeGiveback sender (loanHome mm n l) ls with removed := n :: (judgeGiveback sender (loanHome mm n l) ls).removed } := by
  conv_lhs => unfold judgeGiveback
  simp only [hl, if_pos hb]
  rfl

theorem judgeGiveback_stale {n : Nat} (ls : List Nat) (h : isLoanOf sender mm.loans n = false) :
    judgeGiveback sender mm (n :: ls) = { judgeGiveback sender mm ls with stale := (judgeGiveback sender mm ls).stale + 1 } := by
  conv_lhs => unfold judgeGiveback
  cases hl : tableFind mm.loans n with
  | none => rfl
  | some l =>
    have hb : l.borrower ≠ sender := fun hb => Bool.false_ne_true (h.symm.trans (isLoanOf_iff.mpr ⟨l, hl, hb⟩))
    simp only [if_neg hb]

/-- What a GIVEBACK comes to, whatever numbers it names. -/
structure GivebackOf (sender : Station) (mm : MapMemory) (ls : List Nat) (j : GivebackJudged) : Prop where
  removed : j.removed = (ls.filter (isLoanOf sender mm.loans)).eraseDups
  stale : j.stale + j.removed.length = ls.length
  loans : ∀ n, tableFind j.mm.loans n = if ls.contains n && isLoanOf sender mm.loans n then none else tableFind mm.loans n
  gains : List.Forall₂ FreeSet.Gains mm.freeSets j.mm.freeSets
  sets : ∀ bay x, mm.freeSets[bay]? = some x → ∃ y, j.mm.freeSets[bay]? = some y ∧ y.count = x.count
    ∧ ∀ g, y.has g = true ↔ x.has g = true
        ∨ (g < x.count ∧ ∃ n ∈ ls, ∃ l, tableFind mm.loans n = some l ∧ l.borrower = sender ∧ l.bay = bay ∧ l.grain = g)

theorem GivebackOf.stale_cons {ls : List Nat} {n : Nat} {j : GivebackJudged} (h : GivebackOf sender mm ls j)
    (hn : isLoanOf sender mm.loans n = false) : GivebackOf sender mm (n :: ls) { j with stale := j.stale + 1 } where
  removed := by
    rw [List.filter_cons_of_neg (ne_true_of_eq_false hn)]
    exact h.removed
  stale := by
    have := h.stale
    simp only [List.length_cons]
    omega
  loans k := by
    have hloans := h.loans k
    rw [List.contains_cons]
    by_cases hk : k = n
    · subst hk
      rw [hn] at hloans ⊢
      rw [Bool.and_false] at hloans ⊢
      exact hloans
    · rw [beq_false_of_ne hk, Bool.false_or]
      exact hloans
  gains := h.gains
  sets bay x hx := by
    obtain ⟨y, hy, hcount, hhas⟩ := h.sets bay x hx
    refine ⟨y, hy, hcount, fun g => (hhas g).trans (or_congr_right (and_congr_right fun _ => ?_))⟩
    constructor
    · rintro ⟨k, hk, hl⟩
      exact ⟨k, List.mem_cons_of_mem _ hk, hl⟩
    · rintro ⟨k, hk, l, hl, hb, hplace⟩
      obtain rfl | hk := List.mem_cons.mp hk
      · exact absurd (isLoanOf_iff.mpr ⟨l, hl, hb⟩) (ne_true_of_eq_false hn)
      · exact ⟨k, hk, l, hl, hb, hplace⟩

theorem GivebackOf.valid_cons (w : tableWf mm.loans) {ls : List Nat} {n : Nat} {l : Loan} {j : GivebackJudged}
    (hl : tableFind mm.loans n = some l) (hb : l.borrower = sender) (h : GivebackOf sender (loanHome mm n l) ls j) :
    GivebackOf sender mm (n :: ls) { j with removed := n :: j.removed } where
  removed := by
    have herase : isLoanOf sender (loanHome mm n l).loans = fun k => !(k == n) && isLoanOf sender mm.loans k :=
      funext fun k => isLoanOf_erase w n k
    rw [List.filter_cons_of_pos (isLoanOf_iff.mpr ⟨l, hl, hb⟩), List.eraseDups_cons, List.filter_filter, h.removed, herase]
  stale := by
    have := h.stale
    simp only [List.length_cons]
    omega
  loans k := by
    have hloans := h.loans k
    rw [show (loanHome mm n l).loans = tableErase mm.loans n from rfl, isLoanOf_erase w] at hloans
    rw [List.contains_cons]
    by_cases hk : k = n
    · subst hk
      rw [beq_self_eq_true, Bool.true_or, Bool.true_and, if_pos (isLoanOf_iff.mpr ⟨l, hl, hb⟩)]
      rw [tableFind_erase_same w, ite_self] at hloans
      exact hloans
    · rw [beq_false_of_ne hk, Bool.not_false, Bool.true_and, tableFind_erase_other _ hk] at hloans
      rw [beq_false_of_ne hk, Bool.false_or]
      exact hloans
  gains := forall₂_gains_trans (forall₂_gains_giveGrain _ _ _) h.gains
  sets bay x hx := by
    have hx' : (loanHome mm n l).freeSets[bay]? = some (if bay = l.bay then x.give l.grain else x) := by
      show (mm.freeSets.modify l.bay (·.give l.grain))[bay]? = _
      rw [List.getElem?_modify, hx]
      show some (if l.bay = bay then x.give l.grain else x) = _
      simp only [eq_comm]
    obtain ⟨y, hy, hcount, hhas⟩ := h.sets bay _ hx'
    have hsame : (if bay = l.bay then x.give l.grain else x).count = x.count := by split <;> rfl
    have hgiven (g : Nat) : (if bay = l.bay then x.give l.grain else x).has g = true
        ↔ x.has g = true ∨ (g < x.count ∧ l.bay = bay ∧ l.grain = g) := by
      split
      · rename_i hbay
        rw [FreeSet.has_give]
        exact or_congr_right ⟨fun ⟨hg, hlt⟩ => ⟨hlt, hbay.symm, hg.symm⟩, fun ⟨hlt, _, hg⟩ => ⟨hg.symm, hlt⟩⟩
      · rename_i hbay
        simp [Ne.symm hbay]
    refine ⟨y, hy, hcount.trans hsame, fun g => ?_⟩
    rw [hhas g, hsame, hgiven g, or_assoc, ← and_or_left]
    refine or_congr_right (and_congr_right fun _ => ⟨?_, ?_⟩)
    · rintro (hplace | ⟨k, hk, l', hl', hrest⟩)
      · exact ⟨n, List.mem_cons_self, l, hl, hb, hplace⟩
      · exact ⟨k, List.mem_cons_of_mem _ hk, l', (tableFind_of_erase w hl').2, hrest⟩
    · rintro ⟨k, hk, l', hl', hb', hplace⟩
      by_cases hkn : k = n
      · subst hkn
        obtain rfl : l = l' := Option.some.inj (hl.symm.trans hl')
        exact .inl hplace
      · obtain rfl | hk := List.mem_cons.mp hk
        · exact absurd rfl hkn
        · exact .inr ⟨k, hk, l', (tableFind_erase_other _ hkn).trans hl', hb', hplace⟩

theorem judgeGiveback_of (sender : Station) (ls : List Nat) {mm : MapMemory} (w : tableWf mm.loans) :
    GivebackOf sender mm ls (judgeGiveback sender mm ls) := by
  induction ls generalizing mm with
  | nil =>
    exact ⟨rfl, rfl, fun n => by simp [judgeGiveback], forall₂_gains_refl _, fun bay x hx => ⟨x, hx, rfl, fun g => by simp⟩⟩
  | cons n ls ih =>
    cases hn : isLoanOf sender mm.loans n with
    | false => exact judgeGiveback_stale ls hn ▸ (ih w).stale_cons hn
    | true =>
      obtain ⟨l, hl, hb⟩ := isLoanOf_iff.mp hn
      exact judgeGiveback_valid ls hl hb ▸ (ih (mm := loanHome mm n l) (tableWf_erase n w)).valid_cons w hl hb

end judged

/-! ## Stale numbers reported (R124) -/

@[simp] theorem report_enables (f : Flag) (s : State) : (report f s).faults.enables = s.faults.enables := by
  unfold report judgeAttention
  dsimp only
  split
  · exact offerFrame_getD (P := fun t => t.faults.enables = s.faults.enables) _ _ _ rfl rfl
  · rfl

@[simp] theorem report_counts (f : Flag) (s : State) : (report f s).faults.counts = s.faults.counts := by
  unfold report judgeAttention
  dsimp only
  split
  · exact offerFrame_getD (P := fun t => t.faults.counts = s.faults.counts) _ _ _ rfl rfl
  · rfl

@[simp] theorem report_flags (f : Flag) (s : State) : (report f s).faults.flags = s.faults.flags ||| f.bit := by
  unfold report judgeAttention
  dsimp only
  split
  · exact offerFrame_getD (P := fun t => t.faults.flags = s.faults.flags ||| f.bit) _ _ _ rfl rfl
  · rfl

theorem reportStale_faults (n : Nat) {s : State} (h : s.faults.counts.staleGivebacks ≤ 65535) :
    (reportStale n s).faults
      = { flags := if n = 0 then s.faults.flags else s.faults.flags ||| Flag.staleGiveback.bit
          counts := { s.faults.counts with staleGivebacks := min 65535 (s.faults.counts.staleGivebacks + n) }
          enables := s.faults.enables } := by
  induction n generalizing s with
  | zero =>
    have hcount : min 65535 (s.faults.counts.staleGivebacks + 0) = s.faults.counts.staleGivebacks := by omega
    rw [hcount]
    rfl
  | succ n ih =>
    have hcounts : (countUp .staleGivebacks (report .staleGiveback s)).faults.counts
        = { s.faults.counts with staleGivebacks := min 65535 (s.faults.counts.staleGivebacks + 1) } := by
      simp only [countUp, report_counts, Counts.raise, saturate_eq h]
    have hflags : (countUp .staleGivebacks (report .staleGiveback s)).faults.flags = s.faults.flags ||| Flag.staleGiveback.bit := by
      simp [countUp]
    have hmin : min 65535 (min 65535 (s.faults.counts.staleGivebacks + 1) + n) = min 65535 (s.faults.counts.staleGivebacks + (n + 1)) := by
      omega
    rw [reportStale, ih (by rw [hcounts]; exact Nat.min_le_left _ _), hcounts, hflags]
    simp [countUp, BitVec.or_assoc, hmin]

/-! ## The command -/

theorem exec_giveback_heard {source dest : Station} {reason : GivebackReason} {loans : List Nat} {m : Moment} {s u : State}
    (hon : OnAt m s u) (hwf : wfGiveback dest loans = true) (hd : dest = u.own) (hacts : actsOnPeers u = true) :
    exec (.giveback source dest reason loans m) s = .next (perform m [.givebackHeard source loans] (withHeard source true u)) := by
  subst hd
  dsimp only [exec, execGiveback]
  rw [whenOn_at hon, hwf, if_pos rfl, hearGivebackFrame, hear_of_not_start (not_start_of_actsOnPeers hacts), acksPeer_eq _ hacts,
    withHeard_actsOnPeers, withHeard_own, hacts, beq_self_eq_true, Bool.true_and, if_pos rfl]

theorem takeGiveback_of_acts {source : Station} {loans : List Nat} {s : State} (hacts : actsOnPeers s = true) :
    takeGiveback source loans s
      = if (judgeGiveback source s.mm loans).removed.isEmpty then noWrite (reportStale (judgeGiveback source s.mm loans).stale s)
        else writing (reportStale (judgeGiveback source s.mm loans).stale s) (judgeGiveback source s.mm loans).mm
          [.emptyLastGrants (judgeGiveback source s.mm loans).removed] [] [.mapMemError] := by
  unfold takeGiveback
  rw [if_pos hacts]

/-- The station after a GIVEBACK, before R90 is judged. -/
def givenBack (source : Station) (loans : List Nat) (v : State) : State :=
  let j := judgeGiveback source v.mm loans
  emptyLastGrants j.removed { reportStale j.stale v with mm := j.mm }

theorem judgeGiveback_of_none {source : Station} {mm : MapMemory} {loans : List Nat}
    (h : (judgeGiveback source mm loans).removed = []) : (judgeGiveback source mm loans).mm = mm := by
  induction loans with
  | nil => rfl
  | cons n loans ih =>
    cases hn : isLoanOf source mm.loans n with
    | false =>
      rw [judgeGiveback_stale loans hn] at h ⊢
      exact ih h
    | true =>
      obtain ⟨l, hl, hb⟩ := isLoanOf_iff.mp hn
      rw [judgeGiveback_valid loans hl hb] at h
      cases h

/-- A GIVEBACK performed by a station at rest: the loans home, then R90 if a PRESENT bay gained a grain. -/
theorem perform_giveback {source : Station} {loans : List Nat} {m : Moment} {v : State} (hi : v.inflight = none) (ht : v.tasks = [])
    (hw : m.writes = []) (hacts : actsOnPeers v = true) (hcan : Canonical v.mm) :
    perform m [.givebackHeard source loans] v
      = if poolFree v.presence v.mm.freeSets ≠ poolFree v.presence (judgeGiveback source v.mm loans).mm.freeSets then
          judgeAsk (givenBack source loans v) else givenBack source loans v := by
  have hof := judgeGiveback_of source loans hcan.loans
  have hjudged := judgeGiveback_frame source loans v.mm
  have hset := poolFree_eq_iff hof.gains hcan.freeSets v.presence
  have htk := takeGiveback_of_acts (source := source) (loans := loans) hacts
  set j := judgeGiveback source v.mm loans with hj
  by_cases hempty : j.removed = []
  · have hmm : j.mm = v.mm := judgeGiveback_of_none hempty
    have hend : givenBack source loans v = reportStale j.stale v := by
      have hfilter : (reportStale j.stale v).lastGrants.filter (fun p => !p.2.records.any fun r => j.removed.contains r.loan)
          = (reportStale j.stale v).lastGrants := by simp [hempty]
      unfold givenBack emptyLastGrants
      simp only [← hj, hmm, hfilter]
      have hsame : (reportStale j.stale v).mm = v.mm := by simp
      cases hv : reportStale j.stale v
      simp only [hv] at hsame
      rw [hsame]
    rw [hmm, if_neg (fun h => h rfl), hend]
    refine perform_noWrite hi ht ?_ (by simpa using ht)
    show takeGiveback source loans v = _
    rw [htk, hempty]
    rfl
  · have hrun := perform_completed (m := m) (t := .givebackHeard source loans) (w :=
        { image := j.mm, rotor := (reportStale j.stale v).rotor, takes := false, onDone := [.emptyLastGrants j.removed], goOn := [],
          onFail := [.mapMemError] }) hi ht hw (by
        show takeGiveback source loans v = _
        rw [htk, if_neg (by simpa using hempty)]
        rfl) (does_emptyLastGrants j.removed).one (Nat.le_of_ble_eq_true rfl) rfl (by simpa using ht)
    have hfields : j.mm.pendings = v.mm.pendings ∧ j.mm.trims = v.mm.trims ∧ j.mm.spares = v.mm.spares := by
      rw [hjudged]
      exact ⟨rfl, rfl, rfl⟩
    obtain ⟨hp, htr, hs⟩ := hfields
    rw [quietJudged_written _ (by simpa using hp) (by simpa using htr) (by simpa using hs)] at hrun
    have hidle : (none : Option MapWrite) = (reportStale j.stale v).inflight := by simpa using hi.symm
    have hnotasks : (reportStale j.stale v).tasks = [] := by simpa using ht
    have hgiven : emptyLastGrants j.removed (written
        { image := j.mm, rotor := (reportStale j.stale v).rotor, takes := false, onDone := [.emptyLastGrants j.removed], goOn := [],
          onFail := [.mapMemError] } (reportStale j.stale v)) = givenBack source loans v := by
      unfold givenBack written
      simp only [hidle, ← hj]
    rw [hgiven] at hrun
    have htasks : (givenBack source loans v).tasks = [] := by simpa [givenBack] using ht
    rw [hrun (by simp)]
    unfold askJudged
    rw [presentSets_eq, presentSets_eq]
    simp only [written, reportStale_presence, reportStale_mm, Bool.false_eq_true, false_or, hs, ne_eq, not_true_eq_false, or_false]
    by_cases hpool : poolFree v.presence v.mm.freeSets = poolFree v.presence j.mm.freeSets
    · rw [if_neg (fun h => h (hset.2.mp hpool)), if_neg (fun h => h hpool)]
      exact withTasks_self htasks
    · rw [if_pos (fun h => hpool (hset.2.mpr h)), if_pos hpool]
      exact withTasks_self (by simpa using htasks)

/-- Settles O40: `judgeGiveback` sorts the numbers, and the write of the valid ones is followed by R90. -/
theorem givebackHeard : Obligations.GivebackHeard := by
  intro source dest reason loans m s u hrest hw hwf hd hacts hcan hcounters mine stale
  have hmine : mine = isLoanOf source u.mm.loans := rfl
  have hof := judgeGiveback_of source loans hcan.loans
  have hframe := judgeGiveback_frame source loans u.mm
  have hstale : (judgeGiveback source u.mm loans).stale = stale := by
    have := hof.stale
    have hremoved := congrArg List.length hof.removed
    show _ = loans.length - ((loans.filter mine).eraseDups).length
    rw [hmine]
    omega
  have hfaults : (reportStale stale (withHeard source true u)).faults = _ := reportStale_faults stale (by rw [withHeard_faults]; exact hcounters.2.1)
  have hmm : (givenBack source loans (withHeard source true u)).mm = (judgeGiveback source u.mm loans).mm := by
    simp [givenBack, emptyLastGrants]
  have hfaultsEnd : (givenBack source loans (withHeard source true u)).faults = (reportStale stale (withHeard source true u)).faults := by
    simp [givenBack, emptyLastGrants, hstale]
  refine ⟨givenBack source loans (withHeard source true u), ?_, ?_, ?_, ?_, ?_, ?_, ?_, fun hnone => ?_⟩
  · rw [exec_giveback_heard hrest.onAt hwf hd hacts, perform_giveback (by simpa using hrest.inflight) (by simpa using hrest.tasks) hw
      (by simpa using hacts) (by simpa using hcan), hmm]
    simp
  · have hlast (p : Nat × LastGrant) : (p.2.records.any fun r => (judgeGiveback source u.mm loans).removed.contains r.loan)
        = p.2.records.any fun r => loans.contains r.loan && mine r.loan := by
      refine congrArg (List.any p.2.records) (funext fun r => ?_)
      rw [Bool.eq_iff_iff, List.contains_iff_mem, hof.removed, List.mem_eraseDups, List.mem_filter, Bool.and_eq_true,
        List.contains_iff_mem, hmine]
    unfold givenBack emptyLastGrants
    dsimp only
    rw [reportStale_frame]
    simp only [withHeard_mm, withHeard_lastGrants, hlast]
    congr 1
  · intro n
    rw [hmm, hof.loans n, hmine]
  · intro bay x hx
    rw [hmm]
    exact hof.sets bay x hx
  · rw [hfaultsEnd, hfaults]
    simp
  · rw [hfaultsEnd, hfaults]
    simp
  · rw [hfaultsEnd, hfaults]
    simp
  · simp [givenBack, emptyLastGrants, hstale, hnone, reportStale]

end Sys2Proof.Machine

/-! The attempts on the link (R145, R150, R153) and the HAIL timer (R140 to R142). -/

namespace Sys2Proof.Machine

theorem transmits_iff {u : State} : transmits u = true ↔ ¬ isSilent u.cond := by
  unfold transmits isSilent
  cases u.cond <;> simp

/-! ## The start of an attempt -/

section begin
variable {u : State}

theorem beginAttempt_of_hand {h : Hand} (hh : u.link.hand = some h) (hd : h.driving = none)
    (hc : u.cond ≠ .halted ∨ h.frame.sentInHalted = true) :
    beginAttempt u = { u with link := { u.link with hand := some { h with driving := some (h.frame.raw u.own) } } } := by
  have hgo : (decide (u.cond ≠ .halted) || h.frame.sentInHalted) = true := by simpa using hc
  unfold beginAttempt
  simp only [hh, hd, hgo, Option.isNone_none, Bool.and_true, if_true]
  rfl

theorem beginAttempt_of_hand_stays {h : Hand} (hh : u.link.hand = some h)
    (hstay : h.driving ≠ none ∨ (u.cond = .halted ∧ h.frame.sentInHalted = false)) : beginAttempt u = u := by
  have hno : ¬ (h.driving.isNone && (decide (u.cond ≠ .halted) || h.frame.sentInHalted)) = true := by
    rcases hstay with hd | ⟨hc, hs⟩
    · simp [hd]
    · simp [hc, hs]
  unfold beginAttempt
  simp only [hh, if_neg hno]

theorem beginAttempt_of_front {f : OutFrame} {rest : List OutFrame} (hh : u.link.hand = none) (hq : u.link.queue = f :: rest)
    (hc : u.cond ≠ .halted ∨ f.sentInHalted = true) :
    beginAttempt u
      = { u with link := { u.link with queue := rest, hand := some { frame := f, retries := 0, driving := some (f.raw u.own) } } } := by
  have hgo : (decide (u.cond ≠ .halted) || f.sentInHalted) = true := by simpa using hc
  unfold beginAttempt
  simp only [hh, hq, hgo, if_true]
  rfl

theorem beginAttempt_of_front_stays {f : OutFrame} {rest : List OutFrame} (hh : u.link.hand = none) (hq : u.link.queue = f :: rest)
    (hc : u.cond = .halted) (hs : f.sentInHalted = false) : beginAttempt u = u := by
  unfold beginAttempt
  simp [hh, hq, hc, hs]

theorem beginAttempt_of_nothing (hh : u.link.hand = none) (hq : u.link.queue = []) : beginAttempt u = u := by
  unfold beginAttempt
  simp only [hh, hq]

end begin

/-! ## An attempt on the link -/

section attempt
variable {m : Moment} {s u : State} {h : Hand}

theorem exec_attemptStart_on (hon : OnAt m s u) : exec (.attemptStart m) s = .next (if transmits u then beginAttempt u else u) := by
  dsimp only [exec, execAttemptStart]
  rw [whenOn_at hon]

theorem exec_attemptStart_transmits (hon : OnAt m s u) (hc : ¬ isSilent u.cond) : exec (.attemptStart m) s = .next (beginAttempt u) := by
  rw [exec_attemptStart_on hon, if_pos (transmits_iff.mpr hc)]

theorem exec_attemptStart_stays (hon : OnAt m s u) (hb : beginAttempt u = u) : exec (.attemptStart m) s = .next u := by
  rw [exec_attemptStart_on hon, hb, ite_self]

theorem withAttempt_of_hand {raw : RawFrame} {f : Hand → State → State} (hh : u.link.hand = some h) (hd : h.driving = some raw) :
    withAttempt f u = f h u := by
  unfold withAttempt
  simp only [hh, hd, Option.isSome_some, if_true]

theorem withAttempt_of_notDriving {f : Hand → State → State} (h : notDriving u) : withAttempt f u = u := by
  unfold withAttempt
  cases hh : u.link.hand with
  | none => rfl
  | some x => simp only [h x hh, Option.isSome_none, Bool.false_eq_true, if_false]

theorem removedByHalt_iff : removedByHalt h u = true ↔ u.cond = .halted ∧ h.frame.sentInHalted = false := by
  simp [removedByHalt]

theorem removedByHalt_of_works (hc : u.cond = .ready ∨ u.cond = .drain) : removedByHalt h u = false := by
  obtain hc | hc := hc <;> simp [removedByHalt, hc]

end attempt

/-- Settles O46: each branch of `beginAttempt` and of `loseArbitration`. -/
theorem attemptsBegin : Obligations.AttemptsBegin := by
  refine ⟨fun m s u hon => ⟨fun hsilent => ?_, fun h hh hd hc hgo => ?_, fun f rest hh hq hc hgo => ?_, fun h hh hstay => ?_,
    fun f rest hh hq hc hs => ?_, fun hh hq => ?_, sentInHalted_iff⟩, fun m s u hon => ?_⟩
  · rw [exec_attemptStart_on hon, if_neg fun ht => transmits_iff.mp ht hsilent]
  · rw [exec_attemptStart_transmits hon hc, beginAttempt_of_hand hh hd hgo]
  · rw [exec_attemptStart_transmits hon hc, beginAttempt_of_front hh hq hgo]
  · exact exec_attemptStart_stays hon (beginAttempt_of_hand_stays hh hstay)
  · exact exec_attemptStart_stays hon (beginAttempt_of_front_stays hh hq hc hs)
  · exact exec_attemptStart_stays hon (beginAttempt_of_nothing hh hq)
  · have hexec : exec (.arbitrationLost m) s = .next (withAttempt loseArbitration u) := by
      dsimp only [exec, execArbitrationLost]
      rw [whenOn_at hon]
    rw [hexec]
    refine ⟨fun h raw hh hd => ?_, fun hno => by rw [withAttempt_of_notDriving hno]⟩
    rw [withAttempt_of_hand hh hd]
    unfold loseArbitration
    refine ⟨fun hstay => ?_, fun hc hs => ?_⟩
    · rw [if_neg]
      intro hremoved
      obtain ⟨hc, hs⟩ := removedByHalt_iff.mp hremoved
      exact hstay.elim (fun h => h hc) fun h => Bool.false_ne_true (hs.symm.trans h)
    · rw [if_pos (removedByHalt_iff.mpr ⟨hc, hs⟩)]
      rfl

/-! ## The HAIL timer -/

/-- The station with its HAIL timer restarted. -/
def hailTimed (s : State) : State := { s with hailTimer := some (s.now + s.profile.presenceInterval * 4000) }

theorem exec_hailTimerExpiry_on {m : Moment} {s u : State} (hon : OnAt m s u) :
    exec (.hailTimerExpiry m) s
      = .next (if isDue u.hailTimer u.now = true ∧ (u.cond = .ready ∨ u.cond = .drain ∨ u.cond = .halted) then
          (if u.drainEnded then hailTimed u else queueHail (hailTimed u))
        else u) := by
  dsimp only [exec, execHailTimerExpiry]
  rw [whenOn_at hon]
  rfl

theorem not_isSilent_iff {c : Condition} : ¬ isSilent c ↔ c = .ready ∨ c = .drain ∨ c = .halted := by
  unfold isSilent
  cases c <;> simp

theorem refuses_hail {c : Condition} (hc : ¬ isSilent c) (d : Station) (h : HailBody) : refuses c { dest := d, body := .hail h } = false := by
  rw [← Bool.not_eq_true, refuses_iff]
  rintro (rfl | rfl | ⟨_, hs⟩)
  · exact hc (.inr (.inr (.inl rfl)))
  · exact hc (.inr (.inr (.inr rfl)))
  · cases hs

theorem queueHail_of_place {s : State} (hc : ¬ isSilent s.cond) (hp : hasPlace s = true) :
    queueHail s = pushFrame (buildHail (hailConditionIn s.cond) s) s := by
  unfold queueHail
  rw [(offerFrame_eq_some_iff (buildHail (hailConditionIn s.cond) s) s).mpr
    ⟨refuses_hail hc _ _, (hasPlace_iff s).mp hp, fun h => nomatch h⟩]
  rfl

theorem queueHail_of_no_place {s : State} (hp : hasPlace s = false) : queueHail s = s := by
  unfold queueHail
  rw [offerFrame_of_no_place _ hp]
  rfl

/-- Settles O60: the timer's branches, and what `buildHail` reads. -/
theorem hailTimerRuns : Obligations.HailTimerRuns := by
  refine ⟨fun m s u x hon hx => ?_, fun s cond => ⟨_, rfl, rfl, rfl, rfl, rfl, ?_, ?_, ?_, ?_, ?_⟩⟩
  · rw [exec_hailTimerExpiry_on hon]
    refine ⟨fun hno => ?_, fun hle hc => ?_⟩
    · rw [if_neg]
      rintro ⟨hdue, hc⟩
      obtain hlt | hs := hno
      · exact Bool.false_ne_true ((isDue_of_lt fun y hy => Option.some.inj (hx.symm.trans hy) ▸ hlt).symm.trans hdue)
      · exact not_isSilent_iff.mpr hc hs
    · rw [if_pos ⟨isDue_of_le hx hle, not_isSilent_iff.mp hc⟩]
      refine ⟨fun he => by rw [if_pos he]; rfl, fun he => ?_⟩
      rw [if_neg (ne_true_of_eq_false he)]
      refine ⟨fun hp => by rw [queueHail_of_no_place (s := hailTimed u) hp]; rfl, fun hp => ?_⟩
      rw [queueHail_of_place (s := hailTimed u) hc hp]
      have hqueued (c : Condition) (hc : u.cond = c) :
          Host.Outcome.next (pushFrame (buildHail (hailConditionIn (hailTimed u).cond) (hailTimed u)) (hailTimed u))
            = (.next (pushFrame (buildHail (hailConditionIn c) (hailTimed u)) (hailTimed u)) : Result) :=
        congrArg (fun c => Host.Outcome.next (pushFrame (buildHail (hailConditionIn c) (hailTimed u)) (hailTimed u))) hc
      exact ⟨hqueued .ready, hqueued .drain, hqueued .halted⟩
  · intro hr
    simp [State.identity, State.serial, State.formatCount, hr]
  · intro hr
    simp [State.serial, hr]
  · rintro hr (hh | hh) <;> simp [State.identity, State.formatCount, hr, hh]
  · rintro (hh | hh) <;> simp [State.restartCount, hh]
  · intro x hr hx
    refine ⟨?_, fun hp => ⟨?_, ?_⟩⟩ <;> simp [State.restartCount, State.identity, State.formatCount, *]

end Sys2Proof.Machine

/-! How an attempt on the link ends, and what the owner of its frame does (R150, R151). -/

namespace Sys2Proof.Machine

@[simp] theorem report_ask (f : Flag) (s : State) : (report f s).ask = s.ask := (congrArg State.ask (report_frame f s) :)

@[simp] theorem report_offer (f : Flag) (s : State) : (report f s).offer = s.offer := (congrArg State.offer (report_frame f s) :)

theorem leavingGone_of_not_leaving {b : FrameBody} (h : ∀ x, b = .hail x → x.cond ≠ .leaving) (s : State) : leavingGone b s = s := by
  unfold leavingGone
  cases b with
  | hail x => exact if_neg fun hl => h x rfl hl.1
  | _ => rfl

/-! ## The owner told of an end -/

theorem toldEnded_ask {askId : AskId} {w : Nat} {s : State} (hs : s.ask.state = .calling) (hi : s.ask.askId = askId) :
    toldEnded (.ask askId w) s = { s with ask := { s.ask with timer := some (s.now + Config.offerWindow) } } := if_pos ⟨hs, hi⟩

theorem grantAccepted_of_idle {s : State} (hi : s.inflight = none) : grantAccepted s = false := by
  unfold grantAccepted
  rw [hi]
  rfl

theorem toldEnded_take {askId : AskId} {n : Nat} {s : State} (hs : s.ask.state = .taking) (hi : s.ask.askId = askId)
    (hidle : s.inflight = none) :
    toldEnded (.take askId n) s = { s with ask := { s.ask with timer := some (s.now + Config.grantWait) } } :=
  if_pos ⟨hs, hi, grantAccepted_of_idle hidle⟩

theorem isOfferOf_self (o : OpenOffer) (n d : Nat) : isOfferOf o (.offer o.askId o.asker n d) = true := by simp [isOfferOf]

theorem toldEnded_offer {o : OpenOffer} {n d : Nat} {s : State} (hs : s.offer.state = .queued) (ho : s.offer.current = some o) :
    toldEnded (.offer o.askId o.asker n d) s
      = if s.offer.endsAtReport then endOffer s
        else { s with offer := { s.offer with state := .waiting, timer := some (s.now + Config.takeWait) } } := by
  unfold toldEnded
  rw [ho]
  exact if_pos ⟨hs, isOfferOf_self o n d⟩

/-! ## The owner told of a drop -/

theorem toldDropped_ask {askId : AskId} {w : Nat} {s : State} (hs : s.ask.state = .calling) (hi : s.ask.askId = askId) :
    toldDropped (.ask askId w) s = failAsk s := if_pos ⟨hs, hi⟩

theorem toldDropped_take {askId : AskId} {n : Nat} {s : State} (hs : s.ask.state = .taking) (hi : s.ask.askId = askId)
    (hidle : s.inflight = none) : toldDropped (.take askId n) s = failAsk s := if_pos ⟨hs, hi, grantAccepted_of_idle hidle⟩

theorem toldDropped_offer {o : OpenOffer} {n d : Nat} {s : State} (hs : s.offer.state = .queued) (ho : s.offer.current = some o) :
    toldDropped (.offer o.askId o.asker n d) s = endOffer s := by
  unfold toldDropped
  rw [ho]
  exact if_pos ⟨hs, isOfferOf_self o n d⟩

/-! ## The commands -/

section command
variable {m : Moment} {s u : State} {h : Hand} {raw : RawFrame}

theorem exec_frameEnded_on (hon : OnAt m s u) (hh : u.link.hand = some h) (hd : h.driving = some raw) :
    exec (.frameEnded m) s = .next (settle m (toldEnded h.frame.body (clearHand u))) := by
  dsimp only [exec, execFrameEnded]
  rw [whenOn_at hon, withAttempt_of_hand hh hd]

theorem exec_frameEnded_told (hrest : RestAt m s u) (hh : u.link.hand = some h) (hd : h.driving = some raw) {v : State}
    (hv : toldEnded h.frame.body (clearHand u) = v) (ht : v.tasks = []) : exec (.frameEnded m) s = .next v := by
  rw [exec_frameEnded_on hrest.onAt hh hd, hv, settle_nil ht]

theorem exec_attemptFailed_on (hon : OnAt m s u) (hh : u.link.hand = some h) (hd : h.driving = some raw) :
    exec (.attemptFailed m) s = .next (settle m (failAttempt h u)) := by
  dsimp only [exec, execAttemptFailed]
  rw [whenOn_at hon, withAttempt_of_hand hh hd]

/-- The station with the frame in hand dropped, its owner not yet told. -/
def handDropped (u : State) : State := countUp .framesDropped (report .frameDropped (clearHand u))

theorem failAttempt_of_retry (hc : u.cond = .ready ∨ u.cond = .drain) (hn : h.retries < 7) :
    failAttempt h u = { u with link := { u.link with hand := some { h with retries := h.retries + 1, driving := none } } } := by
  unfold failAttempt
  rw [if_neg (ne_true_of_eq_false (removedByHalt_of_works hc)), if_pos (by exact hn)]

theorem failAttempt_of_last (hc : u.cond = .ready ∨ u.cond = .drain) (hn : 7 ≤ h.retries) :
    failAttempt h u = leavingGone h.frame.body (toldDropped h.frame.body (handDropped u)) := by
  unfold failAttempt
  rw [if_neg (ne_true_of_eq_false (removedByHalt_of_works hc)), if_neg (by exact Nat.not_lt.mpr hn)]
  rfl

/-- The eighth failure of a frame that is not HAIL(LEAVING), its owner's answer leaving nothing to take. -/
theorem exec_attemptFailed_last (hrest : RestAt m s u) (hh : u.link.hand = some h) (hd : h.driving = some raw)
    (hc : u.cond = .ready ∨ u.cond = .drain) (hn : 7 ≤ h.retries) (hb : ∀ x, h.frame.body = .hail x → x.cond ≠ .leaving) {v : State}
    (hv : toldDropped h.frame.body (handDropped u) = v) (ht : v.tasks = []) : exec (.attemptFailed m) s = .next v := by
  rw [exec_attemptFailed_on hrest.onAt hh hd, failAttempt_of_last hc hn, leavingGone_of_not_leaving hb, hv, settle_nil ht]

end command

/-- Settles O47: each owner is told by its own branch of `toldEnded` or of `toldDropped`. -/
theorem attemptsEnd : Obligations.AttemptsEnd := by
  refine ⟨fun m s u h raw hrest hh hd => ?_, fun m s u h raw hrest hh hd hc => ?_⟩
  · intro gone
    have htold {v : State} := exec_frameEnded_told (v := v) hrest hh hd
    refine ⟨fun askId w hb hs hi => ?_, fun askId n hb hs hi => ?_, fun o hb hs ho => ⟨fun he => ?_, fun he => ?_⟩, fun hb => ?_⟩
    · exact htold (hb ▸ toldEnded_ask hs hi) hrest.tasks
    · exact htold (hb ▸ toldEnded_take hs hi hrest.inflight) hrest.tasks
    · exact htold (hb ▸ (toldEnded_offer (s := gone) hs ho).trans (if_neg (ne_true_of_eq_false he))) hrest.tasks
    · exact htold (hb ▸ (toldEnded_offer (s := gone) hs ho).trans (if_pos he)) hrest.tasks
    · refine htold ?_ hrest.tasks
      obtain ⟨r, hb⟩ | ⟨i, rs, hb⟩ | ⟨r, ls, hb⟩ | ⟨f, c, hb⟩ | ⟨b, hb, hl⟩ := hb <;> rw [hb]
      · rfl
      · rfl
      · rfl
      · rfl
      · exact leavingGone_of_not_leaving (fun x hx => FrameBody.hail.inj hx ▸ hl) gone
  · intro dropped
    have hdropped : handDropped u = dropped := rfl
    have ht : (handDropped u).tasks = [] := by simpa [handDropped, clearHand] using hrest.tasks
    have hidle : (handDropped u).inflight = none := by simpa [handDropped, clearHand] using hrest.inflight
    have hask : (handDropped u).ask = u.ask := by simp [handDropped, clearHand]
    have hoffer : (handDropped u).offer = u.offer := by simp [handDropped, clearHand]
    refine ⟨fun hn => ?_, fun hn => ?_⟩
    · rw [exec_attemptFailed_on hrest.onAt hh hd, failAttempt_of_retry hc hn]
      exact congrArg _ (settle_nil hrest.tasks)
    rw [← hdropped]
    refine ⟨fun hb => ?_, fun askId w hb hi hs => ?_, fun o hb hs ho => ?_, fun askId rs hb => ?_, fun reason ls hb => ?_⟩
    · obtain ⟨r, hb⟩ | ⟨f, c, hb⟩ | ⟨b, hb, hl⟩ := hb
      · exact exec_attemptFailed_last hrest hh hd hc hn (by simp [hb]) (by rw [hb]; rfl) ht
      · exact exec_attemptFailed_last hrest hh hd hc hn (by simp [hb]) (by rw [hb]; rfl) ht
      · refine exec_attemptFailed_last hrest hh hd hc hn (fun x hx => ?_) (by rw [hb]; rfl) ht
        exact FrameBody.hail.inj (hb.symm.trans hx) ▸ hl
    · have hfail : toldDropped h.frame.body (handDropped u) = failAsk (handDropped u) := by
        obtain hb | hb := hb <;> rw [hb] at hs ⊢
        · exact toldDropped_ask (by rw [hask, hs, if_pos rfl]) (by rw [hask, hi])
        · exact toldDropped_take (by rw [hask, hs, if_neg (fun h => nomatch h)]) (by rw [hask, hi]) hidle
      refine exec_attemptFailed_last hrest hh hd hc hn (fun x hx => ?_) hfail ht
      obtain hb | hb := hb <;> exact nomatch hb.symm.trans hx
    · refine exec_attemptFailed_last hrest hh hd hc hn (by simp [hb]) ?_ ht
      rw [hb]
      exact toldDropped_offer (by rw [hoffer, hs]) (by rw [hoffer, ho])
    · exact exec_attemptFailed_last hrest hh hd hc hn (by simp [hb]) (by rw [hb]; rfl) (by simpa using ht)
    · exact exec_attemptFailed_last hrest hh hd hc hn (by simp [hb]) (by rw [hb]; rfl) (by simpa using ht)

end Sys2Proof.Machine

/-! QUIET, MUTE and HALTED refuse every ALERT, so the owners told on the way in change nothing but the fault record (R143, R153, R168). -/

namespace Sys2Proof.Machine

/-! ## Flags -/

theorem Flag.getLsbD_bit (f g : Flag) : f.bit.getLsbD g.number = decide (f = g) := by
  cases f <;> cases g <;> rfl

theorem report_has (f g : Flag) (s : State) : (report f s).faults.has g = (s.faults.has g || decide (f = g)) := by
  unfold FaultRecord.has
  rw [report_flags, BitVec.getLsbD_or, Flag.getLsbD_bit]

theorem report_has_self (f : Flag) (s : State) : (report f s).faults.has f = true := by simp [report_has]

theorem report_has_of_has {g : Flag} {s : State} (f : Flag) (h : s.faults.has g = true) : (report f s).faults.has g = true := by
  rw [report_has, h, Bool.true_or]

/-! ## Reports that reach no queue -/

/-- `t` is `s` with flags set, and nothing else changed. -/
structure Reported (s t : State) : Prop where
  frame : t = { s with faults := t.faults, attention := t.attention }
  flags : ∀ f : Flag, s.faults.has f = true → t.faults.has f = true
  counts : t.faults.counts = s.faults.counts

theorem Reported.refl (s : State) : Reported s s := ⟨rfl, fun _ h => h, rfl⟩

theorem Reported.trans {s t u : State} (h : Reported s t) (k : Reported t u) : Reported s u where
  frame := by rw [k.frame, h.frame]
  flags f hf := k.flags f (h.flags f hf)
  counts := k.counts.trans h.counts

/-- The conditions that refuse an ALERT (R153). -/
def RefusesAlerts (c : Condition) : Prop := c = .quiet ∨ c = .mute ∨ c = .halted

theorem RefusesAlerts.refuses {c : Condition} (hc : RefusesAlerts c) (d : Station) (f : Flag) (b : Nat) :
    refuses c { dest := d, body := .alert f b } = true := by
  obtain rfl | rfl | rfl := hc <;> rfl

theorem report_of_refuses {s : State} (hc : RefusesAlerts s.cond) (f : Flag) : Reported s (report f s) where
  frame := by
    have hnone : offerFrame { dest := broadcast, body := .alert f s.cond.code } { s with faults := s.faults.set f } = none := by
      unfold offerFrame
      exact if_pos (hc.refuses _ _ _)
    unfold report judgeAttention
    dsimp only
    rw [hnone, Option.getD_none, ite_self]
  flags _ := report_has_of_has f
  counts := report_counts f s

/-- Both machines IDLE. -/
def MachinesIdle (s : State) : Prop := s.ask.state = .idle ∧ s.offer.state = .idle

theorem toldDropped_of_refuses {s : State} (hc : RefusesAlerts s.cond) (hidle : MachinesIdle s) (b : FrameBody) :
    Reported s (toldDropped b s) := by
  obtain ⟨hask, hoffer⟩ := hidle
  cases b with
  | ask i w =>
    rw [toldDropped, if_neg (fun h => by simp [hask] at h)]
    exact .refl s
  | take i n =>
    rw [toldDropped, if_neg (fun h => by simp [hask] at h)]
    exact .refl s
  | offer i a n d =>
    rw [toldDropped, if_neg (fun h => by simp [hoffer] at h)]
    exact .refl s
  | grant i rs => exact report_of_refuses hc _
  | giveback r ls => exact report_of_refuses hc _
  | reply r => exact .refl s
  | hail h => exact .refl s
  | alert f c => exact .refl s

theorem toldRemoved_of_refuses {s : State} (hc : RefusesAlerts s.cond) (hidle : MachinesIdle s) (fs : List OutFrame) :
    Reported s (toldRemoved fs s) := by
  induction fs generalizing s with
  | nil => exact .refl s
  | cons f fs ih =>
    have htold := toldDropped_of_refuses hc hidle f.body
    have hcond : (toldDropped f.body s).cond = s.cond := by simp
    have hidle' : MachinesIdle (toldDropped f.body s) := by
      rw [htold.frame]
      exact hidle
    exact htold.trans (ih (by rwa [hcond]) hidle')

/-! ## Silence entered -/

/-- The station in silence, the owners of its frames not yet told. -/
def silenced (c : Condition) (s : State) : State :=
  { s with
    cond := c, joinTimer := none, drainTimer := none, drainEnded := false, hailTimer := none, walkerTimer := none, buffer := [],
    ask := s.ask.stopped, offer := OfferMachine.reset, link := { s.link with queue := [], hand := none } }

theorem enterSilence_reported {c : Condition} (hc : c = .quiet ∨ c = .mute) (s : State) : Reported (silenced c s) (enterSilence c s) :=
  toldRemoved_of_refuses (s := silenced c s) (hc.imp_right .inl) ⟨rfl, rfl⟩ s.link.frames

/-! ## A duplicate station number (R143) -/

theorem withHeard_own_eq (acks : Bool) (u : State) : withHeard u.own acks u = { u with ackDriven := acks } := by
  unfold withHeard noteSource
  rw [if_pos (.inr rfl)]

theorem isDuplicate_iff {h : HailBody} {s : State} :
    isDuplicate h s = true ↔ s.profileRead = false ∨ (h.identity ≠ 1 ∧ h.identity ≠ 2) ∨ h.serial ≠ s.profile.serial := by
  simp [isDuplicate, or_assoc]

theorem exec_hail_heard {source : Station} {h : HailBody} {m : Moment} {s u : State} (hon : OnAt m s u) (hq : h.q ≤ 1000)
    (hs : u.cond ≠ .start) : exec (.hail source h m) s = .next (hearHail source h m (withHeard source (handsOn u) u)) := by
  have hwf : h.wf = true := decide_eq_true hq
  dsimp only [exec, execHail]
  rw [whenOn_at hon, if_pos hwf, hearHailFrame, hear_of_not_start hs]

theorem exec_hail_own {h : HailBody} {m : Moment} {s u : State} (hon : OnAt m s u) (hq : h.q ≤ 1000) (hs : u.cond ≠ .start) :
    exec (.hail u.own h m) s
      = .next (if isDuplicate h u then duplicateHeard { u with ackDriven := handsOn u } else { u with ackDriven := handsOn u }) := by
  rw [exec_hail_heard hon hq hs, withHeard_own_eq]
  unfold hearHail
  rw [if_pos rfl]
  rfl

/-- Settles O43: the three answers to a HAIL under the station's own number. -/
theorem duplicateMutes : Obligations.DuplicateMutes := by
  intro h m s u hon hq hs differs
  rw [exec_hail_own hon hq hs]
  have hduplicate : isDuplicate h u = true ↔ differs := isDuplicate_iff
  refine ⟨fun hd hc => ?_, fun hd hc => ?_, fun hd => ?_⟩
  · rw [if_pos (hduplicate.mpr hd)]
    let v : State := { u with ackDriven := handsOn u }
    have hmuted : duplicateHeard v = enterSilence .mute (report .duplicate v) := by
      unfold duplicateHeard
      exact if_neg (by simpa using hc)
    have hsilent := enterSilence_reported (.inr rfl) (report .duplicate v)
    rw [hmuted]
    have hf := hsilent.frame
    refine ⟨_, rfl, congrArg State.cond hf, hsilent.flags _ (report_has_self _ _), by simp [v], congrArg (·.link.queue) hf,
      congrArg (·.link.hand) hf, congrArg State.buffer hf, congrArg (·.ask.state) hf, congrArg (·.ask.timer) hf, congrArg State.offer hf,
      congrArg State.joinTimer hf, congrArg State.drainTimer hf, congrArg State.hailTimer hf, congrArg State.walkerTimer hf, by simp [v],
      by simp [v]⟩
  · have hands : handsOn u = false := by simp [handsOn, hc]
    rw [if_pos (hduplicate.mpr hd), hands]
    unfold duplicateHeard
    rw [if_pos (by simpa using hc)]
  · rw [if_neg fun h => hd (hduplicate.mp h)]

end Sys2Proof.Machine

/-! The end of a drain, and the resume start (R15, R160, R163, R164, R166). -/

namespace Sys2Proof.Machine

theorem settle_idle {s : State} (m : Moment) (h : s.inflight = none → s.tasks = []) : settle m s = s := by
  cases hi : s.inflight with
  | none => exact settle_nil (h hi)
  | some w => exact work_busy (by rw [hi]; rfl)

/-! ## QUIET entered -/

/-- QUIET entered with no resume to make: the silence of `silenced`, flags apart. -/
theorem enterQuiet_reported {s : State} (h : s.profile.serviceEdge = true ∨ serviceAsserted s = true) :
    Reported (silenced .quiet s) (enterQuiet s) := by
  have hno : (!s.profile.serviceEdge && !serviceAsserted s) = false := by
    rcases h with h | h <;> simp [h]
  have hsame : enterQuiet s = enterSilence .quiet s := by
    unfold enterQuiet
    rw [hno]
    exact withTasks_self (by simp)
  rw [hsame]
  exact enterSilence_reported (.inl rfl) s

theorem enterQuiet_tasks_eq (s : State) :
    (enterQuiet s).tasks = s.tasks ++ (if s.profile.serviceEdge = false ∧ serviceAsserted s = false then [.resume] else []) := by
  unfold enterQuiet
  simp

/-- QUIET entered, whether a resume follows or not. -/
theorem enterQuiet_eq (s : State) :
    ∃ v, Reported (silenced .quiet s) v ∧ enterQuiet s = withTasks (enterQuiet s).tasks v :=
  ⟨enterSilence .quiet s, enterSilence_reported (.inl rfl) s, rfl⟩

/-! ## The drain ended (R163, R164) -/

/-- The station with its drain over, nothing queued yet. -/
def drainOver (s : State) : State := { s with drainEnded := true, drainTimer := none, walkerTimer := none }

theorem endDrain_eq (s : State) :
    endDrain s = (offerFrame (buildHail .leaving (drainOver s)) (drainOver s)).getD (enterQuiet (drainOver s)) := by
  unfold endDrain drainOver
  dsimp only
  split <;> rename_i h <;> rw [h] <;> rfl

theorem endDrain_of_place {s : State} (hc : s.cond = .drain) (hp : hasPlace s = true) :
    endDrain s = pushFrame (buildHail .leaving (drainOver s)) (drainOver s) := by
  have hnot : ¬ isSilent (drainOver s).cond := not_isSilent_iff.mpr (.inr (.inl hc))
  rw [endDrain_eq, (offerFrame_eq_some_iff (buildHail .leaving (drainOver s)) (drainOver s)).mpr
    ⟨refuses_hail hnot _ _, (hasPlace_iff s).mp hp, fun h => nomatch h⟩]
  rfl

theorem endDrain_of_no_place {s : State} (hp : hasPlace s = false) : endDrain s = enterQuiet (drainOver s) := by
  rw [endDrain_eq, offerFrame_of_no_place _ (s := drainOver s) hp]
  rfl

theorem judgeQuiet_of_quiet {s : State} (hc : s.cond = .drain) (he : s.drainEnded = false) (ht : s.drainTimer ≠ none)
    (hq : quietCondition s = true) : judgeQuiet s = endDrain s := if_pos ⟨hc, he, Option.isSome_iff_ne_none.mpr ht, hq⟩

/-- What QUIET leaves, as the drains that end for want of a place tell it. -/
theorem quiet_fields {s t : State} (h : Reported (silenced .quiet s) t) :
    t.cond = .quiet ∧ t.link.queue = [] ∧ t.link.hand = none ∧ t.buffer = [] ∧ t.ask.state = .idle ∧ t.offer = OfferMachine.reset
      ∧ t.hailTimer = none ∧ t.walkerTimer = none ∧ t.mm = s.mm := by
  have hf := h.frame
  exact ⟨congrArg State.cond hf, congrArg (·.link.queue) hf, congrArg (·.link.hand) hf, congrArg State.buffer hf,
    congrArg (·.ask.state) hf, congrArg State.offer hf, congrArg State.hailTimer hf, congrArg State.walkerTimer hf,
    (congrArg State.mm hf).trans rfl⟩

/-! ## The quiet condition (R163) -/

theorem quietCondition_iff {s : State} (h : RosterLaw s) :
    quietCondition s = true ↔ s.mm.pendings = [] ∧ s.mm.trims = []
      ∧ ∀ st : Station, isPresent s.roster st = true → (peerOf s.mm st).spare = 0 := by
  unfold quietCondition
  rw [Bool.and_eq_true, Bool.and_eq_true, List.isEmpty_iff, List.isEmpty_iff, and_assoc, List.all_eq_true]
  refine and_congr_right fun _ => and_congr_right fun _ => ⟨fun hall st hp => ?_, fun hall p hp => ?_⟩
  · cases hfind : tableFind s.roster st.toNat with
    | none =>
      have hnone : rosterOf s.roster st = RosterRecord.none := by simp [rosterOf, tableGet, hfind]
      simp [isPresent, hnone, RosterRecord.none] at hp
    | some r =>
      have hrec : rosterOf s.roster st = r := tableGet_of_find hfind
      have hmem := hall _ (tableFind_mem hfind)
      rw [isPresent, hrec] at hp
      simpa [peerOf, of_decide_eq_true hp] using hmem
  · have hlt := h.numbers p hp
    have hnat : (BitVec.ofNat 4 p.1).toNat = p.1 := by
      rw [BitVec.toNat_ofNat]
      exact Nat.mod_eq_of_lt (by omega)
    have hrec : rosterOf s.roster (BitVec.ofNat 4 p.1) = p.2 :=
      tableGet_of_find (by rw [hnat]; exact tableFind_of_mem h.canonical.1 hp)
    rw [Bool.or_eq_true, decide_eq_true_iff, decide_eq_true_iff, ← imp_iff_not_or]
    intro hpresent
    have hspare := hall (BitVec.ofNat 4 p.1) (by simp [isPresent, hrec, hpresent])
    rwa [peerOf, hnat] at hspare

/-! ## Writes of a start (R160) -/

theorem written_of_idle {w : MapWrite} {s : State} (hi : s.inflight = none) : written w s = { s with mm := w.image, rotor := w.rotor } := by
  unfold written
  rw [hi]

/-- A write of a start that completes: START judges nothing. -/
theorem leads_start_write {fates : List WriteFate} {s s' : State} {t : Task} {rest : List Task} {w : MapWrite} (hf : fates = [])
    (hi : s.inflight = none) (ht : s.tasks = t :: rest) (h : takeTask t (withTasks rest s) = (s', some w)) (hdone : w.onDone = [])
    (hc : s'.cond = .start) : ∃ k ≤ 3, Leads k fates fates s (withTasks (w.goOn ++ s'.tasks) (written w s')) := by
  subst hf
  obtain ⟨k, hk, hleads⟩ := leads_completed (fates := []) (w := w) (hdone ▸ DoesAll.nil) s'
  rw [hdone, List.length_nil] at hk
  have hdrain : (withTasks (w.goOn ++ s'.tasks) (askJudged w.takes s' (written w s') (written w s'))).cond ≠ .drain := by
    simp [withTasks, written, hc]
  have hready : (written w s').cond ≠ .ready := by simp [written, hc]
  rw [id, quietJudged_of_cond hdrain, askJudged_of_cond hready] at hleads
  exact ⟨1 + k, by omega, (leads_write hi ht h).trans hleads⟩

/-- The header with its restart count raised. -/
def restartCounted (mm : MapMemory) : MapMemory :=
  { mm with header := mm.header.map fun h => { h with restartCount := saturate h.restartCount } }

/-- The stages of a start over a valid header. -/
def startStages : List Task := [.raiseRestartCount, .raisePool, .startRollback [], .sweepRetiring, .startDone]

theorem checkHeader_of_valid {s : State} (h : headerValid s.profile s.mm = true) :
    checkHeader s = { s with headerRead := true, tasks := startStages } := if_pos h

theorem checkHeader_of_not_valid {s : State} (h : headerValid s.profile s.mm = false) : checkHeader s = enterJoin .halted (report .mapMem s) :=
  if_neg (ne_true_of_eq_false h)

/-- The first two stages: the restart count, then the pool. -/
theorem leads_stages_pool {s : State} (hi : s.inflight = none) (hc : s.cond = .start) (ht : s.tasks = startStages) :
    ∃ k ≤ 4, Leads k [] [] s (withTasks [.startRollback [], .sweepRetiring, .startDone] (raisePool { s with mm := restartCounted s.mm })) := by
  obtain ⟨k, hk, hcount⟩ := leads_start_write (s' := withTasks startStages.tail s) (w :=
      { image := restartCounted s.mm, rotor := s.rotor, takes := false, onDone := [], goOn := [], onFail := [.startFailed] })
    rfl hi ht rfl rfl hc
  rw [written_of_idle (s := withTasks startStages.tail s) hi] at hcount
  refine ⟨k + 1, by omega, hcount.trans (leads_noWrite hi rfl ?_)⟩
  show noWrite (if s.cond = .start then _ else _) = _
  rw [if_pos hc]
  rfl

/-- The last two stages: the sweep, then JOIN. -/
theorem leads_stages_end {s : State} (hi : s.inflight = none) (hc : s.cond = .start) (ht : s.tasks = [.sweepRetiring, .startDone]) :
    ∃ k ≤ 4, Leads k [] [] s (endStart (withTasks [] { s with mm := sweepVolumes s.mm })) := by
  have hdone {v : State} (hvi : v.inflight = none) (hvc : v.cond = .start) (hvt : v.tasks = [.startDone]) :
      Leads 1 [] [] v (endStart (withTasks [] v)) := by
    refine leads_noWrite hvi hvt ?_
    show noWrite (if v.cond = .start then _ else _) = _
    rw [if_pos hvc]
    rfl
  by_cases hsame : sweepVolumes s.mm = s.mm
  · refine ⟨1 + 1, by omega, (leads_noWrite hi ht (s' := withTasks [.startDone] s) (if_pos hsame)).trans ?_⟩
    rw [hsame]
    exact hdone hi hc rfl
  · obtain ⟨k, hk, hsweep⟩ := leads_start_write (s' := withTasks [.startDone] s) (w :=
        { image := sweepVolumes s.mm, rotor := s.rotor, takes := false, onDone := [], goOn := [], onFail := [.startFailed] })
      rfl hi ht (if_neg hsame) rfl hc
    rw [written_of_idle (s := withTasks [.startDone] s) hi] at hsweep
    exact ⟨k + 1, by omega, hsweep.trans (hdone hi hc rfl)⟩

/-- The stages of a start that has no pending record to roll back. -/
theorem leads_stages {s : State} (hi : s.inflight = none) (hc : s.cond = .start) (ht : s.tasks = startStages) (hp : s.mm.pendings = []) :
    ∃ k ≤ 9, Leads k [] [] s (endStart (withTasks [] (raisePool { s with mm := sweepVolumes (restartCounted s.mm) }))) := by
  obtain ⟨k, hk, hpool⟩ := leads_stages_pool hi hc ht
  have hroll : Leads 1 [] [] (withTasks [.startRollback [], .sweepRetiring, .startDone] (raisePool { s with mm := restartCounted s.mm }))
      (withTasks [.sweepRetiring, .startDone] (raisePool { s with mm := restartCounted s.mm })) := by
    refine leads_noWrite hi rfl ?_
    simp only [takeTask, takeStartRollback, withTasks, raisePool, restartCounted, hp]
    rfl
  obtain ⟨l, hl, hend⟩ := leads_stages_end (s := withTasks [.sweepRetiring, .startDone] (raisePool { s with mm := restartCounted s.mm }))
    hi hc rfl
  exact ⟨k + 1 + l, by omega, (hpool.trans hroll).trans hend⟩

/-! ## The resume start (R166) -/

/-- The state a resume start checks the header from. -/
def resumeBlank (s : State) : State :=
  { State.reset with
    pending := s.pending, now := s.now, mm := s.mm, fresh := s.fresh, cause := .resume, own := s.own, profile := s.profile,
    profileRead := s.profileRead, faults := s.faults, bayLines := s.bayLines, serviceLine := s.serviceLine,
    servicePin := s.servicePin }

theorem resumeStart_eq (s : State) : resumeStart s = checkHeader (resumeBlank s) := rfl

theorem leads_resume {fates : List WriteFate} {s : State} (hi : s.inflight = none) (hc : s.cond = .quiet) {rest : List Task}
    (ht : s.tasks = .resume :: rest) : Leads 1 fates fates s (resumeStart s) := by
  refine leads_noWrite hi ht ?_
  show noWrite (if s.cond = .quiet then _ else _) = _
  rw [if_pos hc]
  rfl

/-- The station a resume start over valid contents leaves. -/
def resumed (s : State) : State :=
  endStart (withTasks [] (raisePool { resumeBlank s with headerRead := true, mm := sweepVolumes (restartCounted s.mm) }))

theorem leads_resume_valid {s : State} (hi : s.inflight = none) (hc : s.cond = .quiet) {rest : List Task} (ht : s.tasks = .resume :: rest)
    (hv : headerValid s.profile s.mm = true) (hp : s.mm.pendings = []) : ∃ k ≤ 10, Leads k [] [] s (resumed s) := by
  have hstart : resumeStart s = { resumeBlank s with headerRead := true, tasks := startStages } := checkHeader_of_valid (s := resumeBlank s) hv
  obtain ⟨k, hk, hstages⟩ := leads_stages (s := { resumeBlank s with headerRead := true, tasks := startStages }) rfl rfl rfl hp
  exact ⟨1 + k, by omega, (leads_resume hi hc ht).trans (hstart ▸ hstages)⟩

theorem headerValid_of {p : Profile} {mm : MapMemory} {h : Header} (hg : mm.geometry = some (geometryOf p)) (hh : mm.header = some h)
    (hcheck : h.checkGood = true) (hserial : h.serial = p.serial) : headerValid p mm = true := by
  unfold headerValid
  simp [hg, hh, hcheck, hserial]

/-- A resume start over valid contents that need no sweep, as R166 has it. -/
theorem resumed_eq {s : State} {h : Header} (hh : s.mm.header = some h) (hn : h.restartCount ≤ 65535) (hsweep : sweepVolumes s.mm = s.mm) :
    resumed s =
      { State.reset with
        pending := s.pending
        now := s.now
        fresh := s.fresh
        cond := .join
        outcome := .ready
        cause := .resume
        own := s.own
        profile := s.profile
        profileRead := s.profileRead
        headerRead := true
        poolUp := true
        loanUp := true
        joinTimer := some (s.now + s.profile.presenceInterval * 4000)
        serviceLine := s.serviceLine
        servicePin := s.serviceLine
        bayLines := s.bayLines
        presence := (List.range s.profile.bayCount).map fun b => !s.bayLines.getLsbD b
        faults := s.faults
        attention := decide (s.faults.flags &&& s.faults.enables ≠ 0)
        mm := { s.mm with header := some { h with restartCount := min 65535 (h.restartCount + 1) } } } := by
  have hmm : sweepVolumes (restartCounted s.mm) = { s.mm with header := some { h with restartCount := min 65535 (h.restartCount + 1) } } := by
    have hcounted : restartCounted s.mm = { s.mm with header := some { h with restartCount := min 65535 (h.restartCount + 1) } } := by
      unfold restartCounted
      rw [hh, ← saturate_eq hn]
      rfl
    have hvolumes := congrArg MapMemory.volumes hsweep
    rw [hcounted]
    unfold sweepVolumes at hvolumes ⊢
    dsimp only at hvolumes ⊢
    rw [hvolumes]
  have hattention : attentionOf .join s.faults = decide (s.faults.flags &&& s.faults.enables ≠ 0) := rfl
  unfold resumed
  rw [hmm, ← hattention]
  rfl

end Sys2Proof.Machine

/-! The service input (R162, R166) and the end of JOIN (R161). -/

namespace Sys2Proof.Machine

/-! ## DRAIN entered -/

/-- A drain just entered through the service input, which is asserted. -/
structure Draining (v : State) : Prop where
  cond : v.cond = .drain
  ended : v.drainEnded = false
  timer : v.drainTimer ≠ none
  asserted : serviceAsserted v = true
  settled : v.inflight = none → v.tasks = []

section draining
variable {v : State} (h : Draining v) (m : Moment)
include h

theorem Draining.goes_on (hq : quietCondition v = false) : settle m (judgeQuiet v) = v := by
  rw [judgeQuiet_of_not_quiet hq]
  exact settle_idle m h.settled

theorem Draining.leaves (hq : quietCondition v = true) (hp : hasPlace v = true) :
    settle m (judgeQuiet v) = pushFrame (buildHail .leaving (drainOver v)) (drainOver v) := by
  rw [judgeQuiet_of_quiet h.cond h.ended h.timer hq, endDrain_of_place h.cond hp]
  exact settle_idle m h.settled

theorem Draining.falls_silent (hq : quietCondition v = true) (hp : hasPlace v = false) :
    Reported (silenced .quiet (drainOver v)) (settle m (judgeQuiet v)) := by
  have hquiet := enterQuiet_reported (s := drainOver v) (.inr h.asserted)
  rw [judgeQuiet_of_quiet h.cond h.ended h.timer hq, endDrain_of_no_place hp, settle_idle m]
  · exact hquiet
  · rw [hquiet.frame]
    exact h.settled

end draining

/-! ## The service input -/

section service
variable {heldFor : Nat} {lines : BitVec 24} {m : Moment} {s u : State} (hon : OnAt m s u)
include hon

theorem exec_serviceAsserted_short (hle : heldFor < Config.lineHold) :
    exec (.serviceAsserted heldFor m) s = .next { u with serviceLine := u.profile.serviceActiveHigh } := by
  dsimp only [exec, execServiceAsserted]
  rw [whenOn_at hon, if_neg fun h => Nat.not_le.mpr hle h.1]
  rfl

theorem exec_serviceAsserted_taken (hle : Config.lineHold ≤ heldFor) (ha : serviceAsserted u = false) :
    exec (.serviceAsserted heldFor m) s
      = .next (if u.cond = .ready then
            settle m (enterDrain { u with serviceLine := u.profile.serviceActiveHigh, servicePin := u.profile.serviceActiveHigh })
          else { u with serviceLine := u.profile.serviceActiveHigh, servicePin := u.profile.serviceActiveHigh }) := by
  dsimp only [exec, execServiceAsserted]
  rw [whenOn_at hon, if_pos ⟨hle, ha⟩]
  rfl

theorem exec_serviceReleased_short (hle : heldFor < Config.lineHold) :
    exec (.serviceReleased heldFor lines m) s = .next { u with serviceLine := !u.profile.serviceActiveHigh } := by
  dsimp only [exec, execServiceReleased]
  rw [whenOn_at hon, if_neg fun h => Nat.not_le.mpr hle h.1]
  rfl

/-- The station with a release of the service input taken. -/
def released (u : State) : State :=
  { u with serviceLine := !u.profile.serviceActiveHigh, servicePin := !u.profile.serviceActiveHigh }

theorem exec_serviceReleased_taken (hle : Config.lineHold ≤ heldFor) (ha : serviceAsserted u = true) :
    exec (.serviceReleased heldFor lines m) s
      = .next (if u.cond = .quiet then perform m [.resume] { released u with bayLines := lines } else released u) := by
  dsimp only [exec, execServiceReleased]
  rw [whenOn_at hon, if_pos ⟨hle, ha⟩]
  rfl

end service

/-- Settles O57: the offer yields, and what is left is a drain just entered; a release in QUIET runs the resume start. -/
theorem serviceInput : Obligations.ServiceInput := by
  refine ⟨fun heldFor m s u hon hsettled ha => ⟨fun hlt => exec_serviceAsserted_short hon hlt, fun hle hc => ?_, fun hle hc drain hdrain => ?_⟩,
    fun s hr => quietCondition_iff hr, fun heldFor lines m s u h hrest ha => ⟨fun hlt => exec_serviceReleased_short hrest.onAt hlt,
      fun hle hc => ?_, fun hle hc hw hgeo hh hcheck hserial hn hp hsweep => ?_⟩⟩
  · rw [exec_serviceAsserted_taken hon hle ha, if_neg hc]
  · rw [exec_serviceAsserted_taken hon hle ha, if_pos hc]
    let entered : State := { u with
      serviceLine := u.profile.serviceActiveHigh, servicePin := u.profile.serviceActiveHigh, cond := .drain, drainEnded := false,
      drainTimer := some (u.now + u.profile.drainLimit * Config.second) }
    have hentered : Draining entered :=
      ⟨rfl, rfl, (fun h => nomatch h), beq_self_eq_true u.profile.serviceActiveHigh, hsettled⟩
    have hyield : yieldOffer entered = drain ∧ Draining drain ∧ quietCondition drain = quietCondition u := by
      obtain ⟨ho, rfl⟩ | ⟨ho, rfl⟩ | ⟨o, ho, hcur, ⟨hd, rfl⟩ | ⟨hd, rfl⟩⟩ := hdrain
      · exact ⟨yieldOffer_of_armed (by exact ho), ⟨rfl, rfl, (fun h => nomatch h), hentered.asserted, hsettled⟩, rfl⟩
      · exact ⟨yieldOffer_of_stays (by exact ho), hentered, rfl⟩
      · exact ⟨(yieldOffer_of_queued (by exact ho)).trans (withdrawOffer_false_driving (o := o) hcur hd), hentered, rfl⟩
      · exact ⟨(yieldOffer_of_queued (by exact ho)).trans (withdrawOffer_not_driving (o := o) false hcur hd),
          ⟨rfl, rfl, (fun h => nomatch h), hentered.asserted, hsettled⟩, rfl⟩
    obtain ⟨hyield, hdraining, hquiet⟩ := hyield
    have hdrain : enterDrain { u with serviceLine := u.profile.serviceActiveHigh, servicePin := u.profile.serviceActiveHigh } = judgeQuiet drain :=
      congrArg judgeQuiet hyield
    rw [hdrain, ← hquiet]
    refine ⟨fun hq => by rw [hdraining.goes_on m hq], fun hq hp => by rw [hdraining.leaves m hq hp]; rfl, fun hq hp => ?_⟩
    obtain ⟨h1, h2, h3, h4, h5, h6, h7, h8, h9⟩ := quiet_fields (hdraining.falls_silent m hq hp)
    have hmm : drain.mm = u.mm := by
      rw [← hyield]
      simp [entered]
    exact ⟨_, rfl, h1, h2, h3, h4, h5, h6, h7, h8, h9.trans hmm⟩
  · rw [exec_serviceReleased_taken hrest.onAt hle ha, if_neg hc]
    rfl
  · rw [exec_serviceReleased_taken hrest.onAt hle ha, if_pos hc]
    let told : State := { released u with bayLines := lines, tasks := [.resume] }
    obtain ⟨k, hk, hleads⟩ := leads_resume_valid (s := told) (rest := []) hrest.inflight hc rfl
      (headerValid_of (p := u.profile) (mm := u.mm) hgeo hh hcheck hserial) hp
    have hperform : perform m [.resume] { released u with bayLines := lines } = resumed told := by
      have htasks : withTasks (u.tasks ++ [.resume]) { released u with bayLines := lines } = told := by
        rw [hrest.tasks]
        rfl
      exact (congrArg (settle m) htasks).trans (hleads.settle_eq hw (hk.trans (by decide)) rfl)
    rw [hperform, resumed_eq (s := told) (h := h) hh hn hsweep]
    rfl

/-! ## JOIN is over (R161) -/

theorem startAsk_offer_of_idle {s : State} (h : s.offer.state = .idle) : (startAsk s).offer = s.offer := by
  unfold startAsk
  split
  · rfl
  · dsimp only
    let calling : State := { s with
      ask := { s.ask with
        state := .calling, askId := s.ask.askId + 1, timer := none, lender := none, offerCount := 0
        wanted := ownWanted s.profile.maxLoan s.profile.spareTarget s.mm.spares.length } }
    have hkeep (t : State) (ht : t.offer = s.offer) : (yieldOffer t).offer = s.offer := by
      rw [yieldOffer_of_stays (.inl (ht ▸ h)), ht]
    refine hkeep _ ?_
    split
    · exact failAsk_offer calling
    · exact offerFrame_getD (P := fun t => t.offer = s.offer) _ calling _ rfl (failAsk_offer calling)

theorem judgeAsk_offer_of_idle {s : State} (h : s.offer.state = .idle) : (judgeAsk s).offer = s.offer := by
  unfold judgeAsk
  split
  · exact startAsk_offer_of_idle h
  · rfl

/-- The station right after JOIN, READY and its first HAIL not yet queued. -/
def joined (u : State) : State :=
  { u with
    cond := .ready, joinTimer := none, hailTimer := some (u.now + u.profile.presenceInterval * 4000)
    walkerTimer := some (u.now + u.profile.walkerPeriod * 4) }

/-- The station right after JOIN, its first HAIL queued if there was a place for it, and R90 judged. -/
def joinedAsked (u : State) : State := judgeAsk (if hasPlace u then pushFrame (buildHail .ready (joined u)) (joined u) else joined u)

theorem queueHail_joined (u : State) :
    queueHail (joined u) = if hasPlace u then pushFrame (buildHail .ready (joined u)) (joined u) else joined u := by
  cases hp : hasPlace u with
  | true => exact queueHail_of_place (s := joined u) (not_isSilent_iff.mpr (.inl rfl)) hp
  | false => exact queueHail_of_no_place (s := joined u) hp

/-- What JOIN and R90 leave as they were. -/
structure JoinKeeps (u v : State) : Prop where
  mm : v.mm = u.mm
  roster : v.roster = u.roster
  now : v.now = u.now
  profile : v.profile = u.profile
  pin : v.servicePin = u.servicePin
  inflight : v.inflight = u.inflight
  tasks : v.tasks = u.tasks

theorem JoinKeeps.judgeAsk {u v : State} (h : JoinKeeps u v) : JoinKeeps u (judgeAsk v) where
  mm := by simpa using h.mm
  roster := by simpa using h.roster
  now := by simpa using h.now
  profile := by simpa using h.profile
  pin := (congrArg State.servicePin (judgeAsk_frame v)).trans h.pin
  inflight := by simpa using h.inflight
  tasks := by simpa using h.tasks

theorem joinedAsked_keeps (u : State) : JoinKeeps u (joinedAsked u) := by
  refine JoinKeeps.judgeAsk ?_
  split <;> exact ⟨rfl, rfl, rfl, rfl, rfl, rfl, rfl⟩

theorem joinedAsked_offer {u : State} (h : u.offer.state = .idle) : (joinedAsked u).offer.state = .idle := by
  unfold joinedAsked
  rw [judgeAsk_offer_of_idle] <;> split <;> exact h

section join
variable {m : Moment} {s u : State} {x : Time} (hon : OnAt m s u) (hc : u.cond = .join) (hx : u.joinTimer = some x)
include hon hx

theorem exec_joinTimerExpiry_early (hlt : u.now < x) : exec (.joinTimerExpiry m) s = .next u := by
  dsimp only [exec, execJoinTimerExpiry]
  rw [whenOn_at hon, if_neg]
  rintro ⟨_, hdue⟩
  exact Bool.false_ne_true ((isDue_of_lt fun y hy => Option.some.inj (hx.symm.trans hy) ▸ hlt).symm.trans hdue)

include hc

theorem exec_joinTimerExpiry_ready (hle : x ≤ u.now) (ho : u.outcome = .ready) :
    exec (.joinTimerExpiry m) s = .next (settle m (judgeService (joinedAsked u))) := by
  dsimp only [exec, execJoinTimerExpiry]
  rw [whenOn_at hon, if_pos ⟨hc, isDue_of_le hx hle⟩, joinedAsked, ← queueHail_joined]
  split
  · rfl
  · rename_i h
    exact nomatch ho.symm.trans h

theorem exec_joinTimerExpiry_halted (hle : x ≤ u.now) (ho : u.outcome = .halted) :
    exec (.joinTimerExpiry m) s
      = .next (settle m (queueHail (enterHalted
          { u with joinTimer := none, hailTimer := some (u.now + u.profile.presenceInterval * 4000) }))) := by
  dsimp only [exec, execJoinTimerExpiry]
  rw [whenOn_at hon, if_pos ⟨hc, isDue_of_le hx hle⟩]
  split
  · rename_i h
    exact nomatch ho.symm.trans h
  · rfl

end join

/-! ## HALTED entered with nothing in hand -/

/-- The station in HALTED, with the frames HALTED does not send taken from its queue. -/
def haltedQueue (s : State) : State :=
  { s with
    cond := .halted, drainTimer := none, drainEnded := false, walkerTimer := none, ask := s.ask.stopped
    link := { s.link with queue := s.link.queue.filter OutFrame.sentInHalted } }

theorem enterHalted_reported {s : State} (hh : s.link.hand = none) (ho : s.offer = OfferMachine.reset) :
    Reported (haltedQueue s) (enterHalted s) := by
  have hstop : stopOffer { s with
      cond := .halted, drainTimer := none, drainEnded := false, walkerTimer := none, ask := s.ask.stopped }
      = { s with cond := .halted, drainTimer := none, drainEnded := false, walkerTimer := none, ask := s.ask.stopped } := by
    unfold stopOffer
    simp only [ho]
    rfl
  have hentered : ∃ fs, enterHalted s = toldRemoved fs (haltedQueue s) := by
    unfold enterHalted
    dsimp only
    rw [hstop]
    refine ⟨_, congrArg _ ?_⟩
    unfold haltedQueue
    simp only [hh, Option.filter_none]
  obtain ⟨fs, hentered⟩ := hentered
  rw [hentered]
  exact toldRemoved_of_refuses (s := haltedQueue s) (.inr (.inr rfl)) ⟨rfl, by rw [show (haltedQueue s).offer = s.offer from rfl, ho]; rfl⟩ fs

theorem mem_insertFrame {q : List OutFrame} {f x : OutFrame} : x ∈ insertFrame q f ↔ x = f ∨ x ∈ q := by
  induction q with
  | nil => simp [insertFrame]
  | cons y q ih =>
    unfold insertFrame
    split
    · simp
    · simp only [List.mem_cons, ih]
      tauto

/-- Settles O59: JOIN over READY, over the drain that follows at once, or over HALTED. -/
theorem joinEnds : Obligations.JoinEnds := by
  intro m s u x hon hsettled hc hx
  have hkeeps := joinedAsked_keeps u
  refine ⟨fun hlt => exec_joinTimerExpiry_early hon hx hlt, fun hle ho hs => ?_, fun hle ho he ha hidle => ?_,
    fun hle ho hh hoffer hplace => ?_⟩
  · have hstays : judgeService (joinedAsked u) = joinedAsked u := by
      unfold judgeService serviceAsserted
      rw [hkeeps.profile, hkeeps.pin]
      refine if_neg ?_
      rcases hs with hs | hs
      · simp [hs]
      · rw [show (u.servicePin == u.profile.serviceActiveHigh) = false from hs]
        simp
    rw [exec_joinTimerExpiry_ready hon hc hx hle ho, hstays, settle_idle m (by rw [hkeeps.inflight, hkeeps.tasks]; exact hsettled)]
    unfold joinedAsked
    refine ⟨fun hp => by rw [if_pos hp]; rfl, fun hp => by rw [if_neg (ne_true_of_eq_false hp)]; rfl⟩
  · rw [exec_joinTimerExpiry_ready hon hc hx hle ho]
    let drainUntil (t : Time) : State := { joinedAsked u with cond := .drain, drainEnded := false, drainTimer := some t }
    let drain := drainUntil (u.now + u.profile.drainLimit * 4000000)
    have huntil : (joinedAsked u).now + (joinedAsked u).profile.drainLimit * Config.second = u.now + u.profile.drainLimit * 4000000 := by
      rw [hkeeps.now, hkeeps.profile]
      rfl
    have hasserted : serviceAsserted (joinedAsked u) = true := by
      unfold serviceAsserted
      rw [hkeeps.profile, hkeeps.pin]
      exact ha
    have hservice : judgeService (joinedAsked u) = judgeQuiet drain := by
      unfold judgeService
      rw [hasserted, hkeeps.profile, he]
      refine (if_pos (by decide)).trans ?_
      exact congrArg judgeQuiet ((yieldOffer_of_stays (s := drainUntil _) (.inl (joinedAsked_offer hidle))).trans
        (congrArg drainUntil huntil))
    have hdraining : Draining drain :=
      ⟨rfl, rfl, (fun h => nomatch h), hasserted, by
        show (joinedAsked u).inflight = none → (joinedAsked u).tasks = []
        rw [hkeeps.inflight, hkeeps.tasks]
        exact hsettled⟩
    have hquiet : quietCondition drain = quietCondition u := by
      unfold quietCondition
      rw [show drain.mm = u.mm from hkeeps.mm, show drain.roster = u.roster from hkeeps.roster]
    rw [hservice, ← hquiet]
    refine ⟨fun hq => by rw [hdraining.goes_on m hq]; rfl, fun hq hp => by rw [hdraining.leaves m hq hp]; rfl, fun hq hp => ?_⟩
    have hsilent := hdraining.falls_silent m hq hp
    obtain ⟨h1, h2, h3, h4, h5, h6, h7, h8, h9⟩ := quiet_fields hsilent
    exact ⟨_, rfl, h1, h2, h3, h4, h5, h6, h7, h8, congrArg State.drainTimer hsilent.frame, h9.trans hkeeps.mm⟩
  · rw [exec_joinTimerExpiry_halted hon hc hx hle ho]
    let v : State := { u with joinTimer := none, hailTimer := some (u.now + u.profile.presenceInterval * 4000) }
    have hhalted := enterHalted_reported (s := v) hh hoffer
    have hf := hhalted.frame
    have hcond : (enterHalted v).cond = .halted := congrArg State.cond hf
    have hp : hasPlace (enterHalted v) = true := by
      have hlink : (enterHalted v).link = (haltedQueue v).link := (congrArg State.link hf).trans rfl
      have hlen := List.length_filter_le OutFrame.sentInHalted u.link.queue
      rw [hasPlace_iff, hlink]
      have hoccupied : (haltedQueue v).link.occupied ≤ u.link.occupied := by
        show (u.link.queue.filter OutFrame.sentInHalted).length + (if u.link.hand.isSome then 1 else 0) + u.link.reservedReplies
          + u.link.reservedOthers ≤ u.link.queue.length + (if u.link.hand.isSome then 1 else 0) + u.link.reservedReplies
          + u.link.reservedOthers
        omega
      omega
    rw [queueHail_of_place (not_isSilent_iff.mpr (.inr (.inr hcond))) hp, hcond]
    have hidle : (pushFrame (buildHail .notReady (enterHalted v)) (enterHalted v)).inflight = none
        → (pushFrame (buildHail .notReady (enterHalted v)) (enterHalted v)).tasks = [] := by
      show (enterHalted v).inflight = none → (enterHalted v).tasks = []
      rw [enterHalted_inflight, enterHalted_tasks]
      exact hsettled
    obtain ⟨hail, hbuilt, _, hail_cond, _⟩ := hailTimerRuns.2 (enterHalted v) .notReady
    refine ⟨_, hail, rfl, ?_⟩
    rw [show hailConditionIn .halted = .notReady from rfl, settle_idle m hidle]
    refine ⟨hcond, congrArg State.joinTimer hf, congrArg State.hailTimer hf, congrArg State.walkerTimer hf, (congrArg State.mm hf).trans rfl,
      hail_cond, mem_insertFrame.mpr (.inl hbuilt.symm), fun f hmem => ?_⟩
    obtain rfl | hmem := mem_insertFrame.mp hmem
    · rfl
    · have hqueue : (enterHalted v).link.queue = u.link.queue.filter OutFrame.sentInHalted := congrArg (·.link.queue) hf
      rw [hqueue] at hmem
      exact (List.mem_filter.mp hmem).2

end Sys2Proof.Machine

/-! Pending records rolled back one after another (R51 to R53, R165), with all that may happen between two of them. -/

namespace Sys2Proof.Machine

/-! ## What passes a rollback by -/

/-- What the events between two rollbacks leave alone: the roster, the condition but for a drain that ends, the flags that are set. Only a
drain that ends adds an event, and that is the resume start. -/
structure Passes (s t : State) : Prop where
  inflight : t.inflight = s.inflight
  roster : t.roster = s.roster
  presence : t.presence = s.presence
  profile : t.profile = s.profile
  pin : t.servicePin = s.servicePin
  ackDriven : t.ackDriven = s.ackDriven
  loanUp : t.loanUp = s.loanUp
  flags : ∀ f : Flag, s.faults.has f = true → t.faults.has f = true
  pendings : ∀ r ∈ t.mm.pendings, r ∈ s.mm.pendings
  trims : t.mm.trims = s.mm.trims
  loans : t.mm.loans = s.mm.loans
  cond : t.cond = s.cond ∨ (s.cond = .drain ∧ s.drainTimer ≠ none ∧ t.cond = .quiet ∧ t.mm.pendings = [] ∧ t.mm.trims = [])
  timer : s.drainTimer = none → t.drainTimer = none
  tasks : ∃ extra, t.tasks = s.tasks ++ extra ∧ (extra = [] ∨ (extra = [.resume] ∧ s.cond = .drain ∧ t.cond = .quiet
    ∧ s.profile.serviceEdge = false ∧ serviceAsserted s = false))

theorem Passes.refl (s : State) : Passes s s where
  inflight := rfl
  roster := rfl
  presence := rfl
  profile := rfl
  pin := rfl
  ackDriven := rfl
  loanUp := rfl
  flags _ h := h
  pendings _ h := h
  trims := rfl
  loans := rfl
  cond := .inl rfl
  timer h := h
  tasks := ⟨[], by simp⟩

theorem Passes.asserted {s t : State} (h : Passes s t) : serviceAsserted t = serviceAsserted s := by
  unfold serviceAsserted
  rw [h.pin, h.profile]

theorem Passes.trans {s t u : State} (h : Passes s t) (k : Passes t u) : Passes s u where
  inflight := k.inflight.trans h.inflight
  roster := k.roster.trans h.roster
  presence := k.presence.trans h.presence
  profile := k.profile.trans h.profile
  pin := k.pin.trans h.pin
  ackDriven := k.ackDriven.trans h.ackDriven
  loanUp := k.loanUp.trans h.loanUp
  flags f hf := k.flags f (h.flags f hf)
  pendings r hr := h.pendings r (k.pendings r hr)
  trims := k.trims.trans h.trims
  loans := k.loans.trans h.loans
  cond := by
    obtain hc | ⟨hc, ht, hq, hp, htr⟩ := h.cond
    · obtain hc' | ⟨hd, ht, hq, hp, htr⟩ := k.cond
      · exact .inl (hc'.trans hc)
      · exact .inr ⟨hc ▸ hd, fun hn => ht (h.timer hn), hq, hp, htr⟩
    · obtain hc' | ⟨hd, _⟩ := k.cond
      · exact .inr ⟨hc, ht, hc'.trans hq, List.eq_nil_iff_forall_not_mem.mpr fun r hr => by simpa [hp] using k.pendings r hr,
          k.trims.trans htr⟩
      · exact nomatch hq.symm.trans hd
  timer hn := k.timer (h.timer hn)
  tasks := by
    obtain ⟨extra, he, hextra⟩ := h.tasks
    obtain ⟨more, hm, hmore⟩ := k.tasks
    refine ⟨extra ++ more, by rw [hm, he, List.append_assoc], ?_⟩
    obtain rfl | ⟨rfl, hc, hq, hedge, ha⟩ := hextra
    · obtain rfl | ⟨rfl, hc, hq, hedge, ha⟩ := hmore
      · exact .inl rfl
      · refine .inr ⟨rfl, ?_, hq, h.profile ▸ hedge, h.asserted ▸ ha⟩
        obtain hc' | ⟨_, _, hq', _⟩ := h.cond
        · exact hc'.symm.trans hc
        · exact nomatch hq'.symm.trans hc
    · obtain rfl | ⟨rfl, hc', _⟩ := hmore
      · refine .inr ⟨by simp, hc, ?_, hedge, ha⟩
        obtain hsame | ⟨hd, _⟩ := k.cond
        · exact hsame.trans hq
        · exact nomatch hq.symm.trans hd
      · exact nomatch hq.symm.trans hc'

/-- A change of nothing but the link, the machines, the fault record and the last grants. -/
theorem passes_of_frame {s t : State} (h : t = { s with
    ask := t.ask, offer := t.offer, link := t.link, faults := t.faults, attention := t.attention, lastGrants := t.lastGrants })
    (hf : ∀ f : Flag, s.faults.has f = true → t.faults.has f = true) : Passes s t where
  inflight := by rw [h]
  roster := by rw [h]
  presence := by rw [h]
  profile := by rw [h]
  pin := by rw [h]
  ackDriven := by rw [h]
  loanUp := by rw [h]
  flags := hf
  pendings r hr := by rwa [h] at hr
  trims := by rw [h]
  loans := by rw [h]
  cond := .inl (by rw [h])
  timer hn := by rw [h]; exact hn
  tasks := ⟨[], by rw [h]; simp⟩

theorem passes_report (f : Flag) (s : State) : Passes s (report f s) :=
  passes_of_frame (by rw [report_frame]) fun _ => report_has_of_has f

theorem passes_sendGiveback (st : Station) (r : GivebackReason) (ls : List Nat) (s : State) : Passes s (sendGiveback st r ls s) := by
  unfold sendGiveback
  refine offerFrame_getD (P := Passes s) _ s _ ?_ (passes_report _ s)
  exact passes_of_frame rfl fun _ h => h

theorem passes_failAsk (s : State) : Passes s (failAsk s) := passes_of_frame (by rw [failAsk_frame]) fun _ h => h

theorem passes_failAskOf (st : Station) (s : State) : Passes s (failAskOf st s) := by
  unfold failAskOf
  split
  · exact passes_failAsk s
  · exact .refl s

theorem passes_yieldOffer (s : State) : Passes s (yieldOffer s) :=
  passes_of_frame (by rw [yieldOffer_frame]) fun f h => by rwa [yieldOffer_frame]

theorem passes_stopOffer (s : State) : Passes s (stopOffer s) :=
  passes_of_frame (by rw [stopOffer_frame]) fun f h => by rwa [stopOffer_frame]

theorem passes_stopOfferTo (st : Station) (s : State) : Passes s (stopOfferTo st s) := by
  unfold stopOfferTo
  split
  · exact passes_stopOffer s
  · exact .refl s

theorem passes_startAsk (s : State) : Passes s (startAsk s) := by
  unfold startAsk
  split
  · exact .refl s
  · dsimp only
    have hcalling (a : AskMachine) : Passes s { s with ask := a } := passes_of_frame rfl fun _ h => h
    refine Passes.trans ?_ (passes_yieldOffer _)
    split
    · exact (hcalling _).trans (passes_failAsk _)
    · refine offerFrame_getD (P := Passes s) _ _ _ ?_ ?_
      · exact passes_of_frame rfl fun _ h => h
      · exact (hcalling _).trans (passes_failAsk _)

theorem passes_judgeAsk (s : State) : Passes s (judgeAsk s) := by
  unfold judgeAsk
  split
  · exact passes_startAsk s
  · exact .refl s

theorem passes_emptyLastGrantOf (st : Station) (s : State) : Passes s (emptyLastGrantOf st s) := passes_of_frame rfl fun _ h => h

theorem passes_judgeQuiet (s : State) : Passes s (judgeQuiet s) := by
  unfold judgeQuiet
  split
  · rename_i hq
    obtain ⟨hc, _, ht, hquiet⟩ := hq
    have htimer : s.drainTimer ≠ none := Option.isSome_iff_ne_none.mp ht
    have hover : Passes s (drainOver s) :=
      { Passes.refl s with cond := .inl rfl, timer := fun _ => rfl, tasks := ⟨[], by simp [drainOver]⟩ }
    cases hp : hasPlace s with
    | true =>
      rw [endDrain_of_place hc hp]
      exact hover.trans (passes_of_frame rfl fun _ h => h)
    | false =>
      rw [endDrain_of_no_place hp]
      obtain ⟨v, hv, he⟩ := enterQuiet_eq (drainOver s)
      have hsilent {α : Type} (field : State → α) :=
        congrArg field hv.frame
      have hempty : s.mm.pendings = [] ∧ s.mm.trims = [] := by
        unfold quietCondition at hquiet
        simp only [Bool.and_eq_true, List.isEmpty_iff] at hquiet
        exact hquiet.1
      rw [he]
      exact {
        inflight := hsilent State.inflight
        roster := hsilent State.roster
        presence := hsilent State.presence
        profile := hsilent State.profile
        pin := hsilent State.servicePin
        ackDriven := hsilent State.ackDriven
        loanUp := hsilent State.loanUp
        flags := fun f h => hv.flags f h
        pendings := fun r hr => by
          have hmm : v.mm = s.mm := hsilent State.mm
          exact hmm ▸ hr
        trims := hsilent (·.mm.trims)
        loans := hsilent (·.mm.loans)
        cond := .inr ⟨hc, htimer, hsilent State.cond, (hsilent (·.mm.pendings)).trans hempty.1,
          (hsilent (·.mm.trims)).trans hempty.2⟩
        timer := fun _ => hsilent State.drainTimer
        tasks := by
          refine ⟨_, enterQuiet_tasks_eq (drainOver s), ?_⟩
          split
          · rename_i hlevel
            exact .inr ⟨rfl, hc, hsilent State.cond, hlevel.1, hlevel.2⟩
          · exact .inl rfl }
  · exact .refl s

/-! ## Events that wait stay behind those that are taken -/

theorem enterSilence_withTasks (c : Condition) (ts : List Task) (s : State) :
    enterSilence c (withTasks ts s) = withTasks ts (enterSilence c s) := toldRemoved_withTasks s.link.frames ts (silenced c s)

theorem enterQuiet_withTasks_append (pre : List Task) (s : State) :
    enterQuiet (withTasks (pre ++ s.tasks) s) = withTasks (pre ++ (enterQuiet s).tasks) (enterQuiet s) := by
  have htasks := enterQuiet_tasks_eq (withTasks (pre ++ s.tasks) s)
  have hsame (v : State) : enterQuiet v = withTasks (enterQuiet v).tasks (enterSilence .quiet v) := rfl
  rw [hsame (withTasks (pre ++ s.tasks) s), htasks, enterSilence_withTasks, withTasks_withTasks, enterQuiet_tasks_eq, ← List.append_assoc]
  rfl

theorem endDrain_withTasks_append (pre : List Task) (s : State) :
    endDrain (withTasks (pre ++ s.tasks) s) = withTasks (pre ++ (endDrain s).tasks) (endDrain s) := by
  have hoffer (ts : List Task) : offerFrame (buildHail .leaving (drainOver (withTasks ts s))) (drainOver (withTasks ts s))
      = (offerFrame (buildHail .leaving (drainOver s)) (drainOver s)).map (withTasks ts) :=
    offerFrame_withTasks (buildHail .leaving (drainOver s)) ts (drainOver s)
  rw [endDrain_eq, endDrain_eq, hoffer]
  cases h : offerFrame (buildHail .leaving (drainOver s)) (drainOver s) with
  | none => exact enterQuiet_withTasks_append pre (drainOver s)
  | some t =>
    rw [(offerFrame_some h).2.2.2]
    rfl

theorem judgeQuiet_withTasks_append (pre : List Task) (s : State) :
    judgeQuiet (withTasks (pre ++ s.tasks) s) = withTasks (pre ++ (judgeQuiet s).tasks) (judgeQuiet s) := by
  by_cases h : s.cond = .drain ∧ s.drainEnded = false ∧ s.drainTimer.isSome = true ∧ quietCondition s = true
  · rw [show judgeQuiet s = endDrain s from if_pos h, ← endDrain_withTasks_append]
    exact if_pos h
  · rw [show judgeQuiet s = s from if_neg h]
    exact if_neg h

theorem quietJudged_withTasks_append (before after : State) (pre : List Task) (s : State) :
    quietJudged before after (withTasks (pre ++ s.tasks) s)
      = withTasks (pre ++ (quietJudged before after s).tasks) (quietJudged before after s) := by
  unfold quietJudged
  split
  · exact judgeQuiet_withTasks_append pre s
  · rfl

theorem quietJudged_mm (before after s : State) : (quietJudged before after s).mm = s.mm := by
  unfold quietJudged
  split
  · exact judgeQuiet_mm s
  · rfl

theorem passes_quietJudged (before after s : State) : Passes s (quietJudged before after s) := by
  unfold quietJudged
  split
  · exact passes_judgeQuiet s
  · exact .refl s

theorem passes_askJudged (takes : Bool) (before after s : State) : Passes s (askJudged takes before after s) := by
  unfold askJudged
  split
  · exact passes_judgeAsk s
  · exact .refl s

/-! ## The loop -/

/-- Map memory with the records a rollback takes rolled back, one after another from the front. -/
inductive RollsBack (which : RollbackOf) (roster : Table RosterRecord) (presence : List Bool) : MapMemory → MapMemory → Prop
  | done {mm : MapMemory} : mm.pendings.find? which.takes = none → RollsBack which roster presence mm mm
  | next {mm mm' : MapMemory} {r : PendingRecord} : mm.pendings.find? which.takes = some r →
      RollsBack which roster presence (rollbackChunk roster presence mm r.volume r.chunk).mm mm' → RollsBack which roster presence mm mm'

section chunk
variable (ro : Table RosterRecord) (pr : List Bool) (mm : MapMemory) (v c : Nat)

theorem rollbackChunk_kept : (rollbackChunk ro pr mm v c).mm.pendings = (removePending mm v c).pendings
    ∧ (rollbackChunk ro pr mm v c).mm.trims = mm.trims ∧ (rollbackChunk ro pr mm v c).mm.loans = mm.loans := by
  unfold rollbackChunk
  split
  · exact ⟨rfl, rfl, rfl⟩
  · rename_i e _
    have hgone := rollbackGrain_gone ro pr (removeEntry (removePending mm v c) v c) e.place
    exact ⟨hgone.pendings, hgone.trims, hgone.loans⟩

end chunk

theorem length_removePending_lt {mm : MapMemory} {r : PendingRecord} (h : r ∈ mm.pendings) :
    (removePending mm r.volume r.chunk).pendings.length < mm.pendings.length :=
  List.length_filter_lt_length_iff_exists.mpr ⟨r, h, by simp⟩

/-- What GIVEBACKs without a reserved place do. -/
theorem doesAll_handback (hb : Option Handback) :
    ∃ g, DoesAll (handbackTasks false hb) g ∧ ∀ v, Passes v (g v) ∧ (g v).mm = v.mm ∧ (g v).tasks = v.tasks := by
  cases hb with
  | none => exact ⟨id, .nil, fun v => ⟨.refl v, rfl, rfl⟩⟩
  | some h =>
    exact ⟨_, (does_giveback h.lender h.reason [h.loan]).one, fun v => ⟨passes_sendGiveback .., sendGiveback_mm .., sendGiveback_tasks ..⟩⟩

/-- The write of a rollback, and what follows it until the next rollback of the same records. -/
theorem leads_rollback_one {which : RollbackOf} {s : State} (hi : s.inflight = none) (hc : which.allowedIn s.cond = true) {r : PendingRecord}
    (hr : s.mm.pendings.find? which.takes = some r) :
    ∃ k ≤ 4, ∃ t, Leads k [] [] (withTasks (.rollback which :: s.tasks) s) (withTasks (.rollback which :: t.tasks) t) ∧ Passes s t
      ∧ t.mm = (rollbackChunk s.roster s.presence s.mm r.volume r.chunk).mm := by
  have hkept := rollbackChunk_kept s.roster s.presence s.mm r.volume r.chunk
  obtain ⟨g, hdoes, hg⟩ := doesAll_handback (rollbackChunk s.roster s.presence s.mm r.volume r.chunk).handback
  set d := rollbackChunk s.roster s.presence s.mm r.volume r.chunk with hd
  let w : MapWrite := { image := d.mm, rotor := s.rotor, takes := false, onDone := handbackTasks false d.handback, goOn := [.rollback which],
                        onFail := [.mapMemError] }
  have htk : takeTask (.rollback which) (withTasks s.tasks (withTasks (.rollback which :: s.tasks) s)) = (s, some w) := by
    show takeRollback which s = _
    unfold takeRollback
    rw [if_pos hc]
    simp only [hr, ← hd]
    rfl
  obtain ⟨k, hk, hdone⟩ := leads_completed (fates := []) (w := w) hdoes s
  obtain ⟨hpass, hmm, htasks⟩ := hg (written w s)
  let asked := askJudged false s (written w s) (g (written w s))
  have hwritten : Passes s (written w s) := by
    refine { Passes.refl s with inflight := hi.symm, pendings := fun x hx => ?_, trims := hkept.2.1, loans := hkept.2.2,
                                cond := .inl rfl, tasks := ⟨[], by simp [written]⟩ }
    have hx : x ∈ d.mm.pendings := hx
    rw [hkept.1] at hx
    exact (mem_removePending.mp hx).1
  have hasked : Passes s asked := (hwritten.trans hpass).trans (passes_askJudged ..)
  have hwaits : asked.tasks = s.tasks := by
    rw [askJudged_tasks, htasks]
    rfl
  have hend : withTasks (w.goOn ++ s.tasks) asked = withTasks ([.rollback which] ++ asked.tasks) asked := by rw [hwaits]
  rw [show askJudged w.takes s (written w s) (g (written w s)) = asked from rfl, hend, quietJudged_withTasks_append] at hdone
  have hstart : Leads 1 [] [] (withTasks (.rollback which :: s.tasks) s) (completeWrite w s) := leads_write hi rfl htk
  have hlen : w.onDone.length ≤ 1 := by
    show (handbackTasks false d.handback).length ≤ 1
    cases d.handback <;> simp [handbackTasks]
  refine ⟨1 + k, by omega, quietJudged s (written w s) asked, hstart.trans hdone, hasked.trans (passes_quietJudged ..), ?_⟩
  rw [quietJudged_mm, askJudged_mm, hmm]
  rfl

theorem leads_rollback_none {fates : List WriteFate} {which : RollbackOf} {s : State} (hi : s.inflight = none)
    (hr : s.mm.pendings.find? which.takes = none) : Leads 1 fates fates (withTasks (.rollback which :: s.tasks) s) s := by
  refine leads_noWrite hi rfl ?_
  show takeRollback which s = _
  unfold takeRollback
  simp only [hr, ite_self]
  rfl

/-- A rollback of all the records it takes, in a condition that makes it or with no record left. -/
theorem leads_rollback (which : RollbackOf) (n : Nat) {s : State} (hi : s.inflight = none) (hn : s.mm.pendings.length ≤ n)
    (hc : which.allowedIn s.cond = true ∨ s.mm.pendings = []) :
    ∃ k ≤ 4 * n + 1, ∃ t, Leads k [] [] (withTasks (.rollback which :: s.tasks) s) t ∧ Passes s t
      ∧ RollsBack which s.roster s.presence s.mm t.mm := by
  induction n generalizing s with
  | zero =>
    have hnone : s.mm.pendings.find? which.takes = none := by rw [List.length_eq_zero_iff.mp (Nat.le_zero.mp hn), List.find?_nil]
    exact ⟨1, by omega, s, leads_rollback_none hi hnone, .refl s, .done hnone⟩
  | succ n ih =>
    cases hr : s.mm.pendings.find? which.takes with
    | none => exact ⟨1, by omega, s, leads_rollback_none hi hr, .refl s, .done hr⟩
    | some r =>
      have hmem := List.mem_of_find?_eq_some hr
      have hallowed : which.allowedIn s.cond = true := hc.resolve_right fun he => by simp [he] at hmem
      obtain ⟨k, hk, t, hleads, hpass, hmm⟩ := leads_rollback_one hi hallowed hr
      have hlt := length_removePending_lt hmem
      have hpend : t.mm.pendings = (removePending s.mm r.volume r.chunk).pendings := by rw [hmm, (rollbackChunk_kept ..).1]
      obtain ⟨l, hl, t', hleads', hpass', hrolls⟩ := ih (hpass.inflight.trans hi) (by rw [hpend]; omega)
        (hpass.cond.imp (fun h => by rw [h]; exact hallowed) fun h => h.2.2.2.1)
      refine ⟨k + l, by omega, t', hleads.trans hleads', hpass.trans hpass', .next hr ?_⟩
      rw [hpass.roster, hpass.presence, hmm] at hrolls
      exact hrolls

end Sys2Proof.Machine

/-! What a rollback of several records comes to (R51 to R53), and the ends of a drain (R163 to R165). -/

namespace Sys2Proof.Machine

/-! ## Map memory after the loop -/

section chunk
variable (ro : Table RosterRecord) (pr : List Bool) {mm : MapMemory} {v c : Nat}

theorem rollbackChunk_chunks : (rollbackChunk ro pr mm v c).mm.chunks = tableErase mm.chunks (chunkKey v c)
    ∨ entryOf mm v c = none ∧ (rollbackChunk ro pr mm v c).mm.chunks = mm.chunks := by
  cases he : entryOf mm v c with
  | none => exact .inr ⟨rfl, by rw [rollbackChunk_none ro pr he]; rfl⟩
  | some e => exact .inl (rollbackChunk_gone ro pr he).chunks

theorem rollbackChunk_entryOf_same (hc : Canonical mm) : entryOf (rollbackChunk ro pr mm v c).mm v c = none := by
  obtain h | ⟨he, h⟩ := rollbackChunk_chunks ro pr (mm := mm) (v := v) (c := c)
  · rw [entryOf, h]
    exact tableFind_erase_same hc.chunks _
  · rw [entryOf, h]
    exact he

theorem rollbackChunk_entryOf_other {w d : Nat} (hne : chunkKey w d ≠ chunkKey v c) :
    entryOf (rollbackChunk ro pr mm v c).mm w d = entryOf mm w d := by
  obtain h | ⟨_, h⟩ := rollbackChunk_chunks ro pr (mm := mm) (v := v) (c := c)
  · rw [entryOf, h]
    exact tableFind_erase_other _ hne
  · rw [entryOf, h, entryOf]

end chunk

section rolls
variable {which : RollbackOf} {ro : Table RosterRecord} {pr : List Bool} {mm mm' : MapMemory}

theorem RollsBack.none_taken (h : RollsBack which ro pr mm mm') : ∀ r ∈ mm'.pendings, which.takes r = false := by
  induction h with
  | done hnone => exact fun r hr => by simpa using List.find?_eq_none.mp hnone r hr
  | next _ _ ih => exact ih

theorem RollsBack.entry_none (h : RollsBack which ro pr mm mm') (hc : Canonical mm) {v c : Nat} (he : entryOf mm v c = none) :
    entryOf mm' v c = none := by
  induction h with
  | done _ => exact he
  | @next mm mm' r hr _ ih =>
    refine ih (rollbackChunk_canonical ro pr _ _ hc) ?_
    by_cases hk : chunkKey v c = chunkKey r.volume r.chunk
    · have hsame := rollbackChunk_entryOf_same ro pr (v := r.volume) (c := r.chunk) hc
      rw [entryOf, ← hk] at hsame
      exact hsame
    · rw [rollbackChunk_entryOf_other ro pr hk, he]

/-- Which records and entries a rollback takes, where the pending list names each chunk once. -/
structure RolledBack (which : RollbackOf) (mm mm' : MapMemory) : Prop where
  pendings : mm'.pendings = mm.pendings.filter fun r => !which.takes r
  gone : ∀ r ∈ mm.pendings, which.takes r = true → entryOf mm' r.volume r.chunk = none
  kept : ∀ v c, c < Config.maxVolume → (∀ r ∈ mm.pendings, which.takes r = true → ¬ (r.volume = v ∧ r.chunk = c)) →
    entryOf mm' v c = entryOf mm v c

theorem filter_removePending {l : List PendingRecord} (ho : (l.map fun r => (r.volume, r.chunk)).Nodup) {r : PendingRecord} (hr : r ∈ l)
    (ht : which.takes r = true) :
    (l.filter fun x => !(x.volume == r.volume && x.chunk == r.chunk)).filter (fun x => !which.takes x) = l.filter fun x => !which.takes x := by
  rw [List.filter_filter]
  refine List.filter_congr fun x hx => ?_
  by_cases hsame : x.volume = r.volume ∧ x.chunk = r.chunk
  · obtain rfl : x = r := List.inj_on_of_nodup_map ho hx hr (by rw [hsame.1, hsame.2])
    simp [ht]
  · have : (x.volume == r.volume && x.chunk == r.chunk) = false := by simpa using hsame
    simp [this]

theorem RollsBack.rolledBack (h : RollsBack which ro pr mm mm') (hc : Canonical mm) (hb : ∀ r ∈ mm.pendings, r.chunk < Config.maxVolume)
    (ho : (mm.pendings.map fun r => (r.volume, r.chunk)).Nodup) : RolledBack which mm mm' := by
  induction h with
  | @done mm hnone =>
    have hnot : ∀ r ∈ mm.pendings, which.takes r = false := fun r hr => by simpa using List.find?_eq_none.mp hnone r hr
    refine ⟨(List.filter_eq_self.mpr fun r hr => by simp [hnot r hr]).symm, fun r hr ht => ?_, fun _ _ _ _ => rfl⟩
    exact nomatch ht.symm.trans (hnot r hr)
  | @next mm mm' r hr hrolls ih =>
    have hmem := List.mem_of_find?_eq_some hr
    have htakes : which.takes r = true := List.find?_some hr
    have hpend : (rollbackChunk ro pr mm r.volume r.chunk).mm.pendings = (removePending mm r.volume r.chunk).pendings :=
      (rollbackChunk_kept ..).1
    have hcan := rollbackChunk_canonical ro pr r.volume r.chunk hc
    have hsub : ∀ x ∈ (rollbackChunk ro pr mm r.volume r.chunk).mm.pendings, x ∈ mm.pendings := fun x hx =>
      (mem_removePending.mp (hpend ▸ hx)).1
    have hrest := ih hcan (fun x hx => hb x (hsub x hx)) (by
      rw [hpend]
      exact ho.sublist (List.filter_sublist.map _))
    refine ⟨?_, fun x hx ht => ?_, fun v c hlt hkept => ?_⟩
    · rw [hrest.pendings, hpend]
      exact filter_removePending ho hmem htakes
    · by_cases hsame : x.volume = r.volume ∧ x.chunk = r.chunk
      · rw [hsame.1, hsame.2]
        exact hrolls.entry_none hcan (rollbackChunk_entryOf_same ro pr hc)
      · exact hrest.gone x (hpend ▸ mem_removePending.mpr ⟨hx, hsame⟩) ht
    · rw [hrest.kept v c hlt fun x hx ht => hkept x (hsub x hx) ht]
      refine rollbackChunk_entryOf_other ro pr fun hk => ?_
      obtain ⟨hv, hch⟩ := chunkKey_inj hlt (hb r hmem) hk
      exact hkept r hmem htakes ⟨hv.symm, hch.symm⟩

end rolls

/-! ## The resume start that may follow -/

/-- What a resume start leaves of map memory with no pending record, and of the flags. -/
structure Resumes (s t : State) : Prop where
  pendings : t.mm.pendings = s.mm.pendings
  chunks : t.mm.chunks = s.mm.chunks
  trims : t.mm.trims = s.mm.trims
  loans : t.mm.loans = s.mm.loans
  flags : ∀ f : Flag, s.faults.has f = true → t.faults.has f = true

theorem leads_resume_kept {s : State} (hi : s.inflight = none) (hc : s.cond = .quiet) (ht : s.tasks = [.resume]) (hp : s.mm.pendings = []) :
    ∃ k ≤ 10, ∃ t, Leads k [] [] s t ∧ t.tasks = [] ∧ Resumes s t := by
  cases hv : headerValid s.profile s.mm with
  | true =>
    obtain ⟨k, hk, hleads⟩ := leads_resume_valid hi hc ht hv hp
    exact ⟨k, hk, _, hleads, rfl, rfl, rfl, rfl, rfl, fun _ h => h⟩
  | false =>
    have hstart := (resumeStart_eq s).trans (checkHeader_of_not_valid (s := resumeBlank s) hv)
    refine ⟨1, by omega, _, leads_resume hi hc ht, ?_⟩
    rw [hstart]
    have hmm : (report .mapMem (resumeBlank s)).mm = s.mm := report_mm ..
    refine ⟨report_tasks .mapMem (resumeBlank s), congrArg MapMemory.pendings hmm, congrArg MapMemory.chunks hmm, congrArg MapMemory.trims hmm,
      congrArg MapMemory.loans hmm, fun f hf => report_has_of_has (s := resumeBlank s) .mapMem hf⟩

/-- A run that only passes rollbacks by is over, but for the resume start of a drain that ended in QUIET. -/
theorem settle_of_passes {m : Moment} (hw : m.writes = []) {s t v : State} {k : Nat} (hleads : Leads k [] [] v t) (hk : k ≤ 1048566)
    (hpass : Passes s t) (hi : s.inflight = none) (ht : s.tasks = []) :
    ∃ t', settle m v = t' ∧ (t' = t ∨ (s.cond = .drain ∧ s.profile.serviceEdge = false ∧ serviceAsserted s = false)) ∧ Resumes t t' := by
  have hrefl : Resumes t t := ⟨rfl, rfl, rfl, rfl, fun _ h => h⟩
  obtain ⟨extra, he, hextra⟩ := hpass.tasks
  rw [ht, List.nil_append] at he
  obtain rfl | ⟨rfl, hc, hq, hedge, ha⟩ := hextra
  · exact ⟨t, hleads.settle_eq hw (hk.trans (by decide)) he, .inl rfl, hrefl⟩
  · have hpend : t.mm.pendings = [] := by
      obtain hsame | ⟨_, _, _, hp, _⟩ := hpass.cond
      · exact nomatch (hq.symm.trans hsame).trans hc
      · exact hp
    obtain ⟨l, hl, t', hresume, hdone, hkept⟩ := leads_resume_kept (hpass.inflight.trans hi) hq he hpend
    refine ⟨t', (hleads.trans hresume).settle_eq hw ?_ hdone, .inr ⟨hc, hedge, ha⟩, hkept⟩
    have : workBound = 1048576 := rfl
    omega

/-! ## HOLD_EXPIRY (R51) -/

theorem Fits.pendings_length {mm : MapMemory} (h : Fits mm) : mm.pendings.length ≤ 128 := h.pendings

theorem exec_holdExpiry_on {m : Moment} {s u : State} {r : PendingRecord} {rest : List PendingRecord} (hon : OnAt m s u)
    (hp : u.mm.pendings = r :: rest) :
    exec (.holdExpiry m) s = .next (if (u.cond = .ready ∨ u.cond = .drain) ∧ r.expiry ≤ u.now then perform m [.rollback (.expiry r.expiry)] u
      else u) := by
  dsimp only [exec, execHoldExpiry]
  rw [whenOn_at hon]
  simp only [hp]

theorem perform_of_rest {m : Moment} {s : State} (ht : s.tasks = []) (ts : List Task) : perform m ts s = settle m (withTasks ts s) := by
  unfold perform
  rw [ht, List.nil_append]

theorem allowedIn_of_works {which : RollbackOf} (h : which ≠ .forced) {c : Condition} (hc : c = .ready ∨ c = .drain) : which.allowedIn c = true := by
  cases which with
  | forced => exact absurd rfl h
  | expiry t => obtain rfl | rfl := hc <;> rfl
  | requester st => obtain rfl | rfl := hc <;> rfl

/-! ## PEER_AGE_EXPIRY (R53, R133) -/

theorem stopOfferTo_withTasks (st : Station) (ts : List Task) (s : State) : stopOfferTo st (withTasks ts s) = withTasks ts (stopOfferTo st s) := by
  unfold stopOfferTo
  show (if s.offer.current.any _ = true then _ else _) = _
  split
  · exact stopOffer_withTasks ts s
  · rfl

/-- What the loan unit does at PEER-LOST, and the judgement after it. -/
theorem leads_lost_tail {fates : List WriteFate} {s : State} (hi : s.inflight = none) (st : Station) (rest : List Task) :
    Leads 3 fates fates (withTasks (.borrowerEvent .peerLost st :: .lenderEvent .peerLost st :: .judgeQuiet :: rest) s)
      (judgeQuiet (withTasks rest (stopOfferTo st (failAskOf st s)))) := by
  have hborrow : Leads 1 fates fates (withTasks (.borrowerEvent .peerLost st :: .lenderEvent .peerLost st :: .judgeQuiet :: rest) s)
      (withTasks (.lenderEvent .peerLost st :: .judgeQuiet :: rest) (failAskOf st s)) :=
    leads_noWrite hi rfl (congrArg noWrite (failAskOf_withTasks st (.lenderEvent .peerLost st :: .judgeQuiet :: rest) s))
  have hi' : (failAskOf st s).inflight = none := by simpa using hi
  have hlend : Leads 1 fates fates (withTasks (.lenderEvent .peerLost st :: .judgeQuiet :: rest) (failAskOf st s))
      (withTasks (.judgeQuiet :: rest) (stopOfferTo st (failAskOf st s))) :=
    leads_noWrite hi' rfl (congrArg noWrite (stopOfferTo_withTasks st (.judgeQuiet :: rest) (failAskOf st s)))
  have hi'' : (stopOfferTo st (failAskOf st s)).inflight = none := (passes_stopOfferTo st _).inflight.trans hi'
  exact (hborrow.trans hlend).trans (leads_noWrite hi'' rfl rfl)

/-- PEER-LOST of a station with `n` or fewer pending records in all, where no resume start can follow. -/
theorem leads_peerLost {s : State} (hi : s.inflight = none) (ht : s.tasks = []) (st : Station) {n : Nat} (hn : s.mm.pendings.length ≤ n)
    (hc : s.cond = .ready ∨ s.cond = .drain) (hs : s.cond = .drain → s.profile.serviceEdge = true ∨ serviceAsserted s = true) :
    ∃ k ≤ 4 * n + 5, ∃ t, Leads k [] [] (withTasks (eventTasks st .peerLost) s) t ∧ Passes s t
      ∧ RollsBack (.requester st) s.roster s.presence s.mm t.mm := by
  have hnext : Leads 1 [] [] (withTasks (eventTasks st .peerLost) s)
      (withTasks (.rollback (.requester st) :: (eventTasks st .peerLost).tail) s) := leads_noWrite hi rfl rfl
  obtain ⟨k, hk, t, hroll, hpass, hrolls⟩ := leads_rollback (.requester st) n (s := withTasks (eventTasks st .peerLost).tail s) hi hn
    (.inl (allowedIn_of_works (which := .requester st) nofun hc))
  obtain ⟨extra, he, hextra⟩ := hpass.tasks
  obtain rfl : extra = [] := by
    obtain h | ⟨_, hd, _, hedge, ha⟩ := hextra
    · exact h
    · obtain h | h := hs hd
      · exact nomatch h.symm.trans hedge
      · exact nomatch h.symm.trans ha
  rw [List.append_nil] at he
  have htail := leads_lost_tail (fates := []) (hpass.inflight.trans hi) st []
  rw [show (.borrowerEvent .peerLost st :: .lenderEvent .peerLost st :: .judgeQuiet :: [] : List Task) = (eventTasks st .peerLost).tail from rfl,
    withTasks_self (ts := (eventTasks st .peerLost).tail) he] at htail
  have hbare : Passes s (withTasks [] t) := by
    have hp := hpass
    exact { hp with tasks := ⟨[], by simp [withTasks, ht], .inl rfl⟩ }
  have hend : Passes (withTasks [] t) (judgeQuiet (withTasks [] (stopOfferTo st (failAskOf st t)))) := by
    refine Passes.trans ?_ (passes_judgeQuiet _)
    rw [← stopOfferTo_withTasks, ← failAskOf_withTasks]
    exact (passes_failAskOf st _).trans (passes_stopOfferTo st _)
  refine ⟨1 + k + 3, by omega, _, (hnext.trans hroll).trans htail, hbare.trans hend, ?_⟩
  have hmm : (judgeQuiet (withTasks [] (stopOfferTo st (failAskOf st t)))).mm = t.mm := by
    rw [judgeQuiet_mm]
    show (stopOfferTo st (failAskOf st t)).mm = t.mm
    unfold stopOfferTo
    split <;> simp
  rw [hmm]
  exact hrolls

theorem rosterOf_set_other (t : Table RosterRecord) {st other : Station} (r : RosterRecord) (h : other ≠ st) :
    rosterOf (tableSet RosterRecord.none t st.toNat r) other = rosterOf t other :=
  tableGet_set_other t r fun hk => h (BitVec.eq_of_toNat_eq hk)

theorem exec_peerAgeExpiry_on {m : Moment} {s u : State} (hon : OnAt m s u) (st : Station) :
    exec (.peerAgeExpiry st m) s
      = .next (if u.cond ≠ .start ∧ (rosterOf u.roster st).state = .present
            ∧ isDue ((rosterOf u.roster st).lastHeard.map (· + 3 * u.profile.presenceInterval * 4000)) u.now = true then
          perform m (eventTasks st .peerLost)
            { u with roster := tableSet RosterRecord.none u.roster st.toNat { rosterOf u.roster st with state := .lost } }
        else u) := by
  dsimp only [exec, execPeerAgeExpiry]
  rw [whenOn_at hon]
  rfl

/-- Settles O50: the loop of `leads_rollback` at a hold's end and at PEER-LOST. -/
theorem recordsRolledBack : Obligations.RecordsRolledBack := by
  refine ⟨fun m s u r rest hrest hw hp hcan hfit hlaw => ⟨fun hno => ?_, fun hle hc => ?_⟩, fun station m s u hrest => ⟨fun hno => ?_, ?_⟩⟩
  · rw [exec_holdExpiry_on hrest.onAt hp, if_neg]
    rintro ⟨hc, hle⟩
    obtain hlt | ⟨hr, hd⟩ := hno
    · exact Nat.not_le.mpr hlt hle
    · exact hc.elim hr hd
  · rw [exec_holdExpiry_on hrest.onAt hp, if_pos ⟨hc, hle⟩, perform_of_rest hrest.tasks]
    obtain ⟨k, hk, t, hleads, hpass, hrolls⟩ := leads_rollback (.expiry r.expiry) 128 hrest.inflight hfit.pendings_length
      (.inl (allowedIn_of_works (which := .expiry r.expiry) nofun hc))
    rw [hrest.tasks] at hleads
    obtain ⟨t', hsettle, hsame, hkept⟩ := settle_of_passes hw hleads (by omega) hpass hrest.inflight hrest.tasks
    have hrolled := hrolls.rolledBack hcan hfit.pendingChunks hlaw.once
    have hentry (v c : Nat) : entryOf t'.mm v c = entryOf t.mm v c := by rw [entryOf, hkept.chunks, entryOf]
    refine ⟨t', congrArg _ hsettle, fun hready => ?_, ?_, fun x hx hexp => ?_, fun v c hlt hno => ?_, ?_, ?_⟩
    · obtain rfl | ⟨hd, _⟩ := hsame
      · obtain hcond | ⟨hd, _⟩ := hpass.cond
        · exact hcond.trans hready
        · exact nomatch hready.symm.trans hd
      · exact nomatch hready.symm.trans hd
    · rw [hkept.pendings, hrolled.pendings]
      rfl
    · rw [hentry]
      exact hrolled.gone x hx (beq_iff_eq.mpr hexp)
    · rw [hentry]
      exact hrolled.kept v c hlt fun x hx ht => hno x hx (beq_iff_eq.mp ht)
    · rw [hkept.trims, hpass.trims]
    · rw [hkept.loans, hpass.loans]
  · rw [exec_peerAgeExpiry_on hrest.onAt, if_neg]
    rintro ⟨_, hpresent, hdue⟩
    obtain hs | hx := hno
    · exact hs hpresent
    · cases hl : (rosterOf u.roster station).lastHeard with
      | none => simp [hl, isDue] at hdue
      | some x =>
        rw [hl] at hdue
        exact Nat.not_le.mpr (hx x hl) (of_decide_eq_true hdue)
  · intro x hw hc hpresent hx hle hcan hfit hlaw
    have hc' : u.cond = .ready ∨ u.cond = .drain := hc.imp_right And.left
    have hstart : u.cond ≠ .start := by obtain h | h := hc' <;> simp [h]
    have hdue : isDue ((rosterOf u.roster station).lastHeard.map (· + 3 * u.profile.presenceInterval * 4000)) u.now = true := by
      rw [hx]
      exact decide_eq_true hle
    rw [exec_peerAgeExpiry_on hrest.onAt, if_pos ⟨hstart, hpresent, hdue⟩]
    let v : State := { u with roster := tableSet RosterRecord.none u.roster station.toNat { rosterOf u.roster station with state := .lost } }
    obtain ⟨k, hk, t, hleads, hpass, hrolls⟩ := leads_peerLost (s := v) hrest.inflight hrest.tasks station hfit.pendings_length hc' (by
      intro hd
      obtain hr | ⟨_, hs⟩ := hc
      · exact nomatch hr.symm.trans hd
      · exact hs)
    obtain ⟨t', hsettle, hsame, -⟩ := settle_of_passes hw hleads (by omega) hpass hrest.inflight hrest.tasks
    obtain rfl : t' = t := by
      obtain h | ⟨hd, hedge, ha⟩ := hsame
      · exact h
      · obtain hr | ⟨_, hs | hs⟩ := hc
        · exact nomatch hr.symm.trans hd
        · exact nomatch hs.symm.trans hedge
        · exact nomatch hs.symm.trans ha
    have hrolled := hrolls.rolledBack hcan hfit.pendingChunks hlaw.once
    have hne : ({ rosterOf u.roster station with state := .lost } : RosterRecord) ≠ RosterRecord.none := by
      intro h
      exact nomatch (congrArg RosterRecord.lastHeard h).symm.trans hx
    refine ⟨t', ?_, fun hready => ?_, ?_, fun st hst => ?_, ?_, fun r hr hreq => ?_, hpass.loans, hpass.trims⟩
    · exact congrArg _ ((perform_of_rest (s := v) hrest.tasks _).trans hsettle)
    · obtain hcond | ⟨hd, _⟩ := hpass.cond
      · exact hcond.trans hready
      · exact nomatch hready.symm.trans hd
    · rw [hpass.roster]
      exact tableGet_set_same_of_ne hne _ _
    · rw [hpass.roster]
      exact rosterOf_set_other u.roster { rosterOf u.roster station with state := .lost } hst
    · rw [hrolled.pendings]
      rfl
    · exact hrolled.gone r hr (beq_iff_eq.mpr hreq)

end Sys2Proof.Machine

/-! The ends of a drain (R163 to R165). -/

namespace Sys2Proof.Machine

/-! ## The drain timer -/

theorem exec_drainTimerExpiry_on {m : Moment} {s u : State} (hon : OnAt m s u) (hc : u.cond = .drain) (he : u.drainEnded = false) {x : Time}
    (hx : u.drainTimer = some x) :
    exec (.drainTimerExpiry m) s
      = .next (if x ≤ u.now then perform m [.rollback .forced, .endForcedDrain] { u with drainTimer := none } else u) := by
  dsimp only [exec, execDrainTimerExpiry]
  rw [whenOn_at hon]
  by_cases hle : x ≤ u.now
  · rw [if_pos ⟨hc, he, isDue_of_le hx hle⟩, if_pos hle]
  · rw [if_neg hle, if_neg fun h => ?_]
    have hlt := isDue_of_lt (timer := u.drainTimer) (now := u.now) fun y hy => Option.some.inj (hx.symm.trans hy) ▸ Nat.not_le.mp hle
    exact Bool.false_ne_true (hlt.symm.trans h.2.2)

/-- The end of a forced drain. -/
def forcedOver (s : State) : State := endDrain (report .drainForced s)

theorem leads_forced_end {fates : List WriteFate} {s : State} (hi : s.inflight = none) (hc : s.cond = .drain) (ht : s.tasks = [.endForcedDrain]) :
    Leads 1 fates fates s (forcedOver (withTasks [] s)) := by
  refine leads_noWrite hi ht ?_
  show noWrite (if s.cond = .drain then _ else _) = _
  rw [if_pos hc]
  rfl

/-- What the end of a drain leaves, whether it leaves the link or falls silent. -/
structure DrainDone (s t : State) : Prop where
  mm : t.mm = s.mm
  inflight : t.inflight = s.inflight
  flags : ∀ f : Flag, s.faults.has f = true → t.faults.has f = true
  tasks : t.tasks = s.tasks ∨ (t.tasks = s.tasks ++ [.resume] ∧ t.cond = .quiet)

theorem endDrain_done {s : State} (hc : s.cond = .drain) : DrainDone s (endDrain s) := by
  cases hp : hasPlace s with
  | true =>
    rw [endDrain_of_place hc hp]
    exact ⟨rfl, rfl, fun _ h => h, .inl rfl⟩
  | false =>
    rw [endDrain_of_no_place hp]
    obtain ⟨v, hv, he⟩ := enterQuiet_eq (drainOver s)
    have hsilent {α : Type} (field : State → α) := congrArg field hv.frame
    refine ⟨enterQuiet_mm .., enterQuiet_inflight .., fun f hf => he ▸ hv.flags f hf, ?_⟩
    rw [enterQuiet_tasks_eq, enterQuiet_cond]
    split
    · exact .inr ⟨rfl, rfl⟩
    · exact .inl (List.append_nil _)

theorem forcedOver_done {s : State} (hc : s.cond = .drain) : DrainDone (report .drainForced s) (forcedOver s) :=
  endDrain_done ((report_cond ..).trans hc)

/-- A forced drain run to its end: the pending records are rolled back and the ranges kept, whatever resume start follows. -/
theorem settle_forced {m : Moment} (hw : m.writes = []) {v : State} (hi : v.inflight = none) (ht : v.tasks = []) (hc : v.cond = .drain)
    (htimer : v.drainTimer = none) (hn : v.mm.pendings.length ≤ 128) :
    ∃ t, perform m [.rollback .forced, .endForcedDrain] v = t ∧ t.mm.pendings = [] ∧ t.mm.trims = v.mm.trims
      ∧ t.faults.has .drainForced = true := by
  obtain ⟨k, hk, r, hroll, hpass, hrolls⟩ := leads_rollback .forced 128 (s := withTasks [.endForcedDrain] v) hi hn
    (.inl (beq_iff_eq.mpr hc))
  have hrc : r.cond = .drain := by
    obtain h | ⟨_, h, _⟩ := hpass.cond
    · exact h.trans hc
    · exact absurd htimer h
  have hrt : r.tasks = [.endForcedDrain] := by
    obtain ⟨extra, he, rfl | ⟨_, _, hq, _⟩⟩ := hpass.tasks
    · simpa using he
    · exact nomatch hrc.symm.trans hq
  have hri : r.inflight = none := hpass.inflight.trans hi
  have hrp : r.mm.pendings = [] := List.eq_nil_iff_forall_not_mem.mpr fun x hx => nomatch (hrolls.none_taken x hx : true = false)
  have hdone := forcedOver_done (s := withTasks [] r) hrc
  have hstart : Leads (k + 1) [] [] (withTasks [.rollback .forced, .endForcedDrain] v) (forcedOver (withTasks [] r)) :=
    hroll.trans (leads_forced_end hri hrc hrt)
  have hreported : (report .drainForced (withTasks [] r)).mm = r.mm := report_mm ..
  have hflag := hdone.flags .drainForced (report_has_self ..)
  have hmm : (forcedOver (withTasks [] r)).mm = r.mm := hdone.mm.trans hreported
  have hbound : workBound = 1048576 := rfl
  rw [perform_of_rest ht]
  obtain htasks | ⟨htasks, hq⟩ := hdone.tasks
  · refine ⟨_, hstart.settle_eq hw (by omega) (htasks.trans (report_tasks ..)), by rw [hmm, hrp], by rw [hmm, hpass.trims]; rfl, hflag⟩
  · have hresume : (forcedOver (withTasks [] r)).tasks = [.resume] := by simpa using htasks
    have hidle : (forcedOver (withTasks [] r)).inflight = none := by rw [hdone.inflight]; simpa using hri
    obtain ⟨l, hl, t, hleads, hend, hkept⟩ := leads_resume_kept hidle hq hresume (by rw [hmm, hrp])
    refine ⟨t, (hstart.trans hleads).settle_eq hw (by omega) hend, by rw [hkept.pendings, hmm, hrp], ?_, hkept.flags _ hflag⟩
    rw [hkept.trims, hmm, hpass.trims]
    rfl

/-- A forced drain with no pending record: its end alone, however a write would end. -/
theorem perform_forced_empty {m : Moment} {v : State} (hi : v.inflight = none) (ht : v.tasks = []) (hc : v.cond = .drain)
    (hp : v.mm.pendings = []) (hend : (forcedOver v).tasks = []) : perform m [.rollback .forced, .endForcedDrain] v = forcedOver v := by
  have hroll : Leads 1 m.writes m.writes (withTasks [.rollback .forced, .endForcedDrain] v) (withTasks [.endForcedDrain] v) :=
    leads_rollback_none (s := withTasks [.endForcedDrain] v) hi (by
      show v.mm.pendings.find? _ = none
      rw [hp, List.find?_nil])
  have hlast := leads_forced_end (fates := m.writes) (s := withTasks [.endForcedDrain] v) hi hc rfl
  rw [withTasks_withTasks, withTasks_self ht] at hlast
  rw [perform_of_rest ht]
  exact (hroll.trans hlast).settle_eq rfl (by decide) hend

theorem length_insertFrame (q : List OutFrame) (f : OutFrame) : (insertFrame q f).length = q.length + 1 := by
  induction q with
  | nil => rfl
  | cons x q ih =>
    unfold insertFrame
    split
    · rfl
    · rw [List.length_cons, ih, List.length_cons]

theorem pushFrame_occupied (f : OutFrame) (s : State) : (pushFrame f s).link.occupied = s.link.occupied + 1 := by
  unfold Link.occupied pushFrame
  simp only [length_insertFrame]
  omega

/-- A report takes one place of the queue or none. -/
theorem report_occupied (f : Flag) (s : State) :
    (report f s).link.occupied = s.link.occupied ∨ (report f s).link.occupied = s.link.occupied + 1 := by
  unfold report judgeAttention
  dsimp only
  split
  · exact offerFrame_getD (P := fun t => t.link.occupied = s.link.occupied ∨ t.link.occupied = s.link.occupied + 1) _ _ _
      (.inr (pushFrame_occupied ..)) (.inl rfl)
  · exact .inl rfl

theorem report_occupied_le (f : Flag) (s : State) : (report f s).link.occupied ≤ s.link.occupied + 1 := by
  have := report_occupied f s
  omega

theorem le_report_occupied (f : Flag) (s : State) : s.link.occupied ≤ (report f s).link.occupied := by
  have := report_occupied f s
  omega

/-- What QUIET leaves where no resume follows, for a station at rest. -/
theorem quiet_silent {s : State} (ht : s.tasks = []) (hs : s.profile.serviceEdge = true ∨ serviceAsserted s = true) :
    (enterQuiet s).tasks = [] ∧ Reported (silenced .quiet s) (enterQuiet s) := by
  refine ⟨?_, enterQuiet_reported hs⟩
  rw [enterQuiet_tasks_eq, ht, List.nil_append]
  refine if_neg fun h => ?_
  obtain hedge | ha := hs
  · exact nomatch hedge.symm.trans h.1
  · exact nomatch ha.symm.trans h.2

theorem forcedOver_of_place {s : State} (hc : s.cond = .drain) (hroom : s.link.occupied + 1 < 32) :
    forcedOver s = pushFrame (buildHail .leaving (drainOver (report .drainForced s))) (drainOver (report .drainForced s)) := by
  refine endDrain_of_place ((report_cond .drainForced s).trans hc) ((hasPlace_iff _).mpr ?_)
  have := report_occupied_le .drainForced s
  omega

theorem forcedOver_of_no_place {s : State} (hfull : 32 ≤ s.link.occupied) (hs : s.profile.serviceEdge = true ∨ serviceAsserted s = true) :
    Reported (silenced .quiet (drainOver (report .drainForced s))) (forcedOver s) ∧ (forcedOver s).tasks = s.tasks := by
  have hplace : hasPlace (report .drainForced s) = false := by
    rw [← Bool.not_eq_true, hasPlace_iff]
    have := le_report_occupied .drainForced s
    omega
  have hover : forcedOver s = enterQuiet (drainOver (report .drainForced s)) := endDrain_of_no_place hplace
  have hprofile : (drainOver (report .drainForced s)).profile = s.profile := report_profile .drainForced s
  have hasserted : serviceAsserted (drainOver (report .drainForced s)) = serviceAsserted s :=
    (congrArg serviceAsserted (report_frame .drainForced s) :)
  have hs' : (drainOver (report .drainForced s)).profile.serviceEdge = true ∨ serviceAsserted (drainOver (report .drainForced s)) = true := by
    rw [hprofile, hasserted]
    exact hs
  rw [hover]
  refine ⟨enterQuiet_reported hs', ?_⟩
  rw [enterQuiet_tasks_eq, if_neg, List.append_nil]
  · exact report_tasks .drainForced s
  · rintro ⟨hedge, ha⟩
    obtain h | h := hs'
    · exact nomatch h.symm.trans hedge
    · exact nomatch h.symm.trans ha

/-! ## HAIL(LEAVING) gone (R164) -/

theorem leavingGone_of_leaving {b : HailBody} {s : State} (hb : b.cond = .leaving) (hc : s.cond = .drain) (he : s.drainEnded = true) :
    leavingGone (.hail b) s = enterQuiet s := if_pos ⟨hb, hc, he⟩

/-- The station right after QUIET was entered and its resume start has run, for valid contents that need no sweep. -/
theorem settle_resumed {m : Moment} (hw : m.writes = []) {s : State} (hi : s.inflight = none) (ht : s.tasks = [])
    (hs : s.profile.serviceEdge = false ∧ serviceAsserted s = false) {h : Header} (hgeo : s.mm.geometry = some (geometryOf s.profile))
    (hh : s.mm.header = some h) (hcheck : h.checkGood = true) (hserial : h.serial = s.profile.serial) (hp : s.mm.pendings = []) :
    settle m (enterQuiet s) = resumed (enterQuiet s) := by
  have htasks : (enterQuiet s).tasks = [.resume] := by
    rw [enterQuiet_tasks_eq, ht, if_pos hs]
    rfl
  have hmm : (enterQuiet s).mm = s.mm := enterQuiet_mm ..
  have hprofile : (enterQuiet s).profile = s.profile := enterQuiet_profile ..
  obtain ⟨k, hk, hleads⟩ := leads_resume_valid (s := enterQuiet s) ((enterQuiet_inflight ..).trans hi) (enterQuiet_cond s) htasks
    (by rw [hmm, hprofile]; exact headerValid_of hgeo hh hcheck hserial) (by rw [hmm]; exact hp)
  exact hleads.settle_eq hw (hk.trans (by decide)) rfl

/-- The eighth failure of HAIL(LEAVING). -/
theorem exec_attemptFailed_leaving {m : Moment} {s u : State} {hand : Hand} {raw : RawFrame} {b : HailBody} (hon : OnAt m s u)
    (hh : u.link.hand = some hand) (hd : hand.driving = some raw) (hc : u.cond = .drain) (he : u.drainEnded = true)
    (hbody : hand.frame.body = .hail b) (hb : b.cond = .leaving) (hn : 7 ≤ hand.retries) :
    exec (.attemptFailed m) s = .next (settle m (enterQuiet (handDropped u))) := by
  have hcond : (handDropped u).cond = .drain := by simpa [handDropped, clearHand] using hc
  have hended : (handDropped u).drainEnded = true := by simpa [handDropped, clearHand] using he
  have hgone : leavingGone (.hail b) (handDropped u) = enterQuiet (handDropped u) := leavingGone_of_leaving hb hcond hended
  rw [exec_attemptFailed_on hon hh hd, failAttempt_of_last (.inr hc) hn, hbody]
  exact congrArg (fun v => Host.Outcome.next (settle m v)) hgone

theorem exec_frameEnded_leaving {m : Moment} {s u : State} {hand : Hand} {raw : RawFrame} {b : HailBody} (hon : OnAt m s u)
    (hh : u.link.hand = some hand) (hd : hand.driving = some raw) (hc : u.cond = .drain) (he : u.drainEnded = true)
    (hbody : hand.frame.body = .hail b) (hb : b.cond = .leaving) :
    exec (.frameEnded m) s = .next (settle m (enterQuiet (clearHand u))) := by
  have hgone : toldEnded (.hail b) (clearHand u) = enterQuiet (clearHand u) := leavingGone_of_leaving (s := clearHand u) hb hc he
  rw [exec_frameEnded_on hon hh hd, hbody, hgone]

/-- What a frame dropped leaves for the entry of QUIET. -/
structure DroppedKeeps (u v : State) : Prop where
  mm : v.mm = u.mm
  now : v.now = u.now
  pending : v.pending = u.pending
  fresh : v.fresh = u.fresh
  own : v.own = u.own
  roster : v.roster = u.roster
  profile : v.profile = u.profile
  profileRead : v.profileRead = u.profileRead
  line : v.serviceLine = u.serviceLine
  pin : v.servicePin = u.servicePin
  lines : v.bayLines = u.bayLines
  inflight : v.inflight = u.inflight
  tasks : v.tasks = u.tasks

theorem handDropped_keeps (u : State) : DroppedKeeps u (handDropped u) := by
  have hsame {α : Type} (field : State → α) := congrArg field (report_frame .frameDropped (clearHand u))
  exact ⟨hsame State.mm, hsame State.now, hsame State.pending, hsame State.fresh, hsame State.own, hsame State.roster, hsame State.profile,
    hsame State.profileRead, hsame State.serviceLine, hsame State.servicePin, hsame State.bayLines, hsame State.inflight, hsame State.tasks⟩

theorem clearHand_keeps (u : State) : DroppedKeeps u (clearHand u) := ⟨rfl, rfl, rfl, rfl, rfl, rfl, rfl, rfl, rfl, rfl, rfl, rfl, rfl⟩

theorem DroppedKeeps.asserted {u v : State} (h : DroppedKeeps u v) : serviceAsserted v = serviceAsserted u := by
  unfold serviceAsserted
  rw [h.pin, h.profile]

/-- QUIET entered after the HAIL(LEAVING) is gone, the service input keeping the station there. -/
theorem settle_leaving_silent {m : Moment} {u v : State} (hk : DroppedKeeps u v) (ht : u.tasks = [])
    (hs : u.profile.serviceEdge = true ∨ serviceAsserted u = true) :
    settle m (enterQuiet v) = enterQuiet v ∧ Reported (silenced .quiet v) (enterQuiet v) := by
  obtain ⟨hnone, hreported⟩ := quiet_silent (s := v) (hk.tasks.trans ht) (by rw [hk.asserted, hk.profile]; exact hs)
  exact ⟨settle_nil hnone, hreported⟩

/-- Settles O58: the drain judged, forced, and left; each end is QUIET, the link, or the resume start. -/
theorem drainEnds : Obligations.DrainEnds := by
  refine ⟨fun s => ?_, fun m s u x hrest hc he hx => ⟨fun hlt => ?_, fun hle hw hn => ?_, fun hle hp hroom => ?_, fun hle hp hfull hs => ?_⟩,
    fun m s u hand raw b hrest hc he hh hd hbody hb hs => ?_, fun m s u hand raw b h hrest hc he hh hd hbody hb hedge ha hw hgeo hhead
      hcheck hserial hn hp hsweep => ?_⟩
  · refine ⟨fun hno => if_neg fun h => hno ⟨h.1, h.2.1, Option.isSome_iff_ne_none.mp h.2.2.1, h.2.2.2⟩, fun ⟨hc, he, ht, hq⟩ hp => ?_,
      fun ⟨hc, he, ht, hq⟩ hp => ?_⟩
    · rw [judgeQuiet_of_quiet hc he ht hq, endDrain_of_place hc hp]
      rfl
    · rw [judgeQuiet_of_quiet hc he ht hq, endDrain_of_no_place hp]
      obtain ⟨v, hv, heq⟩ := enterQuiet_eq (drainOver s)
      obtain ⟨h1, h2, h3, h4, h5, h6, h7, h8, h9⟩ := quiet_fields hv
      have htasks := enterQuiet_tasks_eq (drainOver s)
      rw [heq]
      exact ⟨h1, h2, h3, h4, h5, h6, h7, h8, h9, htasks⟩
  · rw [exec_drainTimerExpiry_on hrest.onAt hc he hx, if_neg (Nat.not_le.mpr hlt)]
  · rw [exec_drainTimerExpiry_on hrest.onAt hc he hx, if_pos hle]
    obtain ⟨t, ht, hpend, htrims, hflag⟩ := settle_forced hw (v := { u with drainTimer := none }) hrest.inflight hrest.tasks hc rfl hn
    exact ⟨t, congrArg _ ht, hpend, htrims, hflag⟩
  · rw [exec_drainTimerExpiry_on hrest.onAt hc he hx, if_pos hle]
    have hover := forcedOver_of_place (s := { u with drainTimer := none }) hc hroom
    rw [perform_forced_empty (v := { u with drainTimer := none }) hrest.inflight hrest.tasks hc hp (by
      rw [hover]
      exact (report_tasks .drainForced { u with drainTimer := none }).trans hrest.tasks), hover]
    obtain ⟨hail, hbuilt, _, hail_cond, _⟩ := hailTimerRuns.2 (drainOver (report .drainForced { u with drainTimer := none })) .leaving
    have hcond := report_cond .drainForced { u with drainTimer := none }
    have hmm := report_mm .drainForced { u with drainTimer := none }
    have hbuffer := report_buffer .drainForced { u with drainTimer := none }
    have hflag := report_has_self .drainForced { u with drainTimer := none }
    exact ⟨_, rfl, hcond.trans hc, rfl, rfl, rfl, hmm, hbuffer, hflag, hail, mem_insertFrame.mpr (.inl hbuilt.symm), hail_cond⟩
  · rw [exec_drainTimerExpiry_on hrest.onAt hc he hx, if_pos hle]
    obtain ⟨hquiet, htasks⟩ := forcedOver_of_no_place (s := { u with drainTimer := none }) hfull hs
    obtain ⟨h1, h2, h3, h4, _, _, _, _, h9⟩ := quiet_fields hquiet
    rw [perform_forced_empty (v := { u with drainTimer := none }) hrest.inflight hrest.tasks hc hp (htasks.trans hrest.tasks)]
    have hmm := report_mm .drainForced { u with drainTimer := none }
    have hflag := report_has_self .drainForced { u with drainTimer := none }
    exact ⟨_, rfl, h1, congrArg State.drainTimer hquiet.frame, h2, h3, h4, h9.trans hmm, hquiet.flags _ hflag⟩
  · intro silent
    have hsilent (v : State) (hk : DroppedKeeps u v) :
        silent (enterQuiet v) ∧ settle m (enterQuiet v) = enterQuiet v ∧ Reported (silenced .quiet v) (enterQuiet v) := by
      obtain ⟨hsettle, hquiet⟩ := settle_leaving_silent (m := m) hk hrest.tasks hs
      obtain ⟨h1, h2, h3, h4, h5, h6, h7, _, h9⟩ := quiet_fields hquiet
      refine ⟨⟨h1, h2, h3, h4, h5, congrArg (·.ask.timer) hquiet.frame, h6, h7, h9.trans hk.mm, ?_, ?_⟩, hsettle, hquiet⟩
      · exact (enterQuiet_roster v).trans hk.roster
      · exact (quiet_silent (hk.tasks.trans hrest.tasks) (by rw [hk.asserted, hk.profile]; exact hs)).1
    refine ⟨?_, fun hn => ?_⟩
    · obtain ⟨hfields, hsettle, _⟩ := hsilent _ (clearHand_keeps u)
      exact ⟨_, by rw [exec_frameEnded_leaving hrest.onAt hh hd hc he hbody hb, hsettle], hfields⟩
    · obtain ⟨hfields, hsettle, hquiet⟩ := hsilent _ (handDropped_keeps u)
      refine ⟨_, by rw [exec_attemptFailed_leaving hrest.onAt hh hd hc he hbody hb hn, hsettle], hfields, hquiet.flags _ ?_, ?_⟩
      · exact report_has_self .frameDropped (clearHand u)
      · rw [hquiet.counts]
        show ((report .frameDropped (clearHand u)).faults.counts.raise .framesDropped).framesDropped = _
        rw [report_counts]
        rfl
  · intro resumedAs
    have hresumed (v : State) (hk : DroppedKeeps u v) :
        resumedAs (resumed (enterQuiet v)) ∧ settle m (enterQuiet v) = resumed (enterQuiet v) := by
      have hsame {α : Type} (field : State → α) := congrArg field (enterQuiet_frame v)
      have hmm : (enterQuiet v).mm = u.mm := (enterQuiet_mm v).trans hk.mm
      refine ⟨?_, settle_resumed hw (hk.inflight.trans hrest.inflight) (hk.tasks.trans hrest.tasks)
        (by rw [hk.asserted, hk.profile]; exact ⟨hedge, ha⟩) (by rw [hk.mm, hk.profile]; exact hgeo) (by rw [hk.mm]; exact hhead) hcheck
        (by rw [hk.profile]; exact hserial) (by rw [hk.mm]; exact hp)⟩
      show resumed (enterQuiet v) = _
      rw [resumed_eq (s := enterQuiet v) (by rw [hmm]; exact hhead) hn (by rw [hmm]; exact hsweep), hmm,
        (hsame State.pending).trans hk.pending, (hsame State.now).trans hk.now, (hsame State.fresh).trans hk.fresh,
        (hsame State.own).trans hk.own, (hsame State.profile).trans hk.profile, (hsame State.profileRead).trans hk.profileRead,
        (hsame State.serviceLine).trans hk.line, (hsame State.bayLines).trans hk.lines]
    refine ⟨?_, fun hn' => ?_⟩
    · obtain ⟨hfields, hsettle⟩ := hresumed _ (clearHand_keeps u)
      exact ⟨_, by rw [exec_frameEnded_leaving hrest.onAt hh hd hc he hbody hb, hsettle], hfields⟩
    · obtain ⟨hfields, hsettle⟩ := hresumed _ (handDropped_keeps u)
      refine ⟨_, by rw [exec_attemptFailed_leaving hrest.onAt hh hd hc he hbody hb hn', hsettle], hfields, ?_⟩
      exact (enterSilence_reported (.inl rfl) (handDropped u)).flags .frameDropped (report_has_self .frameDropped (clearHand u))

end Sys2Proof.Machine

/-! HAIL from another station: its record, the events it raises and what they do (R132, R134 to R137, R139). -/

namespace Sys2Proof.Machine

/-! ## The roster at a HAIL -/

/-- The record of a HAIL's source, its HAIL noted. -/
def hailedRecord (h : HailBody) (now : Time) (state : PeerState) (epoch : Option Epoch) : RosterRecord :=
  { state := state, kind := some h.kind, epoch := epoch, lastHeard := some now }

/-- The station with a HAIL noted, its events not yet taken. -/
def hailed (source : Station) (h : HailBody) (u : State) (state : PeerState) (epoch : Option Epoch) : State :=
  { withHeard source (handsOn u) u with
    roster := tableSet RosterRecord.none (withHeard source (handsOn u) u).roster source.toNat (hailedRecord h u.now state epoch) }

/-- The epoch a HAIL of identity 2 bears. -/
def bornEpoch (h : HailBody) : Epoch := { serial := h.serial, formatCount := h.formatCount }

/-- PEER-PRESENT, where the record was not PRESENT. -/
def appearance (was : PeerState) : List RosterEvent := if was = .present then [] else [.peerPresent]

/-- PEER-LOST, where the record was PRESENT. -/
def disappearance (was : PeerState) : List RosterEvent := if was = .present then [.peerLost] else []

/-- PEER-NEW-EPOCH, where the epoch of the record changes. -/
def renewal (was : Option Epoch) (e : Epoch) : List RosterEvent := if was ≠ none ∧ was ≠ some e then [.peerNewEpoch] else []

theorem renewal_eq (was : Option Epoch) (e : Epoch) : (if was.any (· != e) then [.peerNewEpoch] else []) = renewal was e := by
  unfold renewal
  cases was with
  | none => rfl
  | some x => simp

theorem rosterOf_withHeard_self {source : Station} {acks : Bool} {u : State} (hown : source ≠ u.own) (hb : source ≠ broadcast) :
    rosterOf (withHeard source acks u).roster source = { rosterOf u.roster source with lastHeard := some u.now } := by
  unfold withHeard noteSource
  have hne : ({ rosterOf u.roster source with lastHeard := some u.now } : RosterRecord) ≠ RosterRecord.none :=
    fun h => nomatch congrArg RosterRecord.lastHeard h
  rw [if_neg (not_or.mpr ⟨hb, hown⟩)]
  exact tableGet_set_same_of_ne hne u.roster source.toNat

section hail
variable {source : Station} {h : HailBody} {m : Moment} {s u : State} (hon : OnAt m s u) (hq : h.q ≤ 1000) (hs : u.cond ≠ .start)
  (hown : source ≠ u.own) (hb : source ≠ broadcast)
include hon hq hs hown hb

theorem exec_hail_raised :
    exec (.hail source h m) s
      = .next (perform m ((hailRecord { rosterOf u.roster source with lastHeard := some u.now } h).2.flatMap (eventTasks source))
          { withHeard source (handsOn u) u with
            roster := tableSet RosterRecord.none (withHeard source (handsOn u) u).roster source.toNat
              (hailRecord { rosterOf u.roster source with lastHeard := some u.now } h).1 }) := by
  have hother : ¬ source = (withHeard source (handsOn u) u).own := by rwa [withHeard_own]
  rw [exec_hail_heard hon hq hs, hearHail, if_neg hother, if_neg hb, rosterOf_withHeard_self hown hb]

theorem exec_hail_present (hi : h.identity = 2) (hl : h.cond ≠ .leaving) :
    exec (.hail source h m) s
      = .next (perform m ((appearance (rosterOf u.roster source).state
            ++ renewal (rosterOf u.roster source).epoch (bornEpoch h)).flatMap (eventTasks source))
          (hailed source h u .present (some (bornEpoch h)))) := by
  rw [exec_hail_raised hon hq hs hown hb, ← renewal_eq]
  simp only [hailRecord, hailEpoch, hi, if_true, if_neg hl]
  rfl

theorem exec_hail_leaving (hi : h.identity = 2) (hl : h.cond = .leaving) :
    exec (.hail source h m) s
      = .next (perform m ((disappearance (rosterOf u.roster source).state
            ++ renewal (rosterOf u.roster source).epoch (bornEpoch h)).flatMap (eventTasks source))
          (hailed source h u .lost (some (bornEpoch h)))) := by
  rw [exec_hail_raised hon hq hs hown hb, ← renewal_eq]
  simp only [hailRecord, hailEpoch, hi, if_true, if_pos hl]
  rfl

theorem exec_hail_nameless (hi : h.identity ≠ 2) :
    exec (.hail source h m) s
      = .next (perform m ((disappearance (rosterOf u.roster source).state).flatMap (eventTasks source))
          (hailed source h u .lost (rosterOf u.roster source).epoch)) := by
  rw [exec_hail_raised hon hq hs hown hb]
  simp only [hailRecord, hailEpoch, if_neg hi]
  rfl

end hail

theorem rosterOf_hailed_same (source : Station) (h : HailBody) (u : State) (state : PeerState) (epoch : Option Epoch) :
    rosterOf (hailed source h u state epoch).roster source = hailedRecord h u.now state epoch :=
  tableGet_set_same_of_ne (v := hailedRecord h u.now state epoch) (by simp [hailedRecord, RosterRecord.none]) _ _

theorem rosterOf_hailed_other {source st : Station} (hst : st ≠ source) (h : HailBody) (u : State) (state : PeerState) (epoch : Option Epoch) :
    rosterOf (hailed source h u state epoch).roster st = rosterOf u.roster st := by
  refine (rosterOf_set_other (withHeard source (handsOn u) u).roster _ hst).trans ?_
  unfold withHeard noteSource
  split
  · rfl
  · exact rosterOf_set_other u.roster _ hst

theorem mapMemError_cond (v : State) : (mapMemError v).cond = v.cond ∨ (mapMemError v).cond = .halted := by
  unfold mapMemError
  dsimp only
  split
  · exact .inl (report_cond ..)
  · exact .inl (report_cond ..)
  · exact .inr (enterHalted_cond _)
  · exact .inr (enterHalted_cond _)
  · exact .inr ((queueHail_cond _).trans (enterHalted_cond _))
  · exact .inl (report_cond ..)
  · exact .inl (report_cond ..)

/-! ## What the events of a HAIL never touch -/

/-- The events a roster event calls for, with those that follow their writes. -/
def isRosterTask : Task → Bool
  | .mapEvent _ _ | .borrowerEvent _ _ | .lenderEvent _ _ | .judgeQuiet | .judgeAsk | .rollback _ | .giveback _ _ _ _ | .failAskOf _
  | .emptyLastGrantOf _ | .mapMemError => true
  | _ => false

/-- The station while it takes the events of a HAIL, however its writes end: the roster and the acknowledge slot stand, and no event but
theirs is waiting. -/
structure Undisturbed (u v : State) : Prop where
  roster : v.roster = u.roster
  ackDriven : v.ackDriven = u.ackDriven
  profile : v.profile = u.profile
  pin : v.servicePin = u.servicePin
  stays : v.cond = .drain → u.profile.serviceEdge = true ∨ serviceAsserted u = true
  tasks : ∀ x ∈ v.tasks, isRosterTask x = true
  write : ∀ w, v.inflight = some w → ∀ x ∈ w.onDone ++ (w.goOn ++ w.onFail), isRosterTask x = true

section undisturbed
variable {u v : State}

theorem Undisturbed.passes {t : State} (h : Undisturbed u v) (k : Passes v t) : Undisturbed u t where
  roster := k.roster.trans h.roster
  ackDriven := k.ackDriven.trans h.ackDriven
  profile := k.profile.trans h.profile
  pin := k.pin.trans h.pin
  stays hd := by
    obtain hc | ⟨_, _, hq, _⟩ := k.cond
    · exact h.stays (hc.symm.trans hd)
    · exact nomatch hq.symm.trans hd
  tasks x hx := by
    obtain ⟨extra, he, rfl | ⟨rfl, hd, _, hedge, ha⟩⟩ := k.tasks
    · rw [he, List.append_nil] at hx
      exact h.tasks x hx
    · have hasserted : serviceAsserted v = serviceAsserted u := by
        unfold serviceAsserted
        rw [h.pin, h.profile]
      rw [h.profile] at hedge
      rw [hasserted] at ha
      obtain hs | hs := h.stays (by rw [hd])
      · exact nomatch hs.symm.trans hedge
      · exact nomatch hs.symm.trans ha
  write w hw := h.write w (k.inflight ▸ hw)

theorem Undisturbed.before {ts : List Task} (h : Undisturbed u v) (hts : ∀ x ∈ ts, isRosterTask x = true) :
    Undisturbed u { v with tasks := ts ++ v.tasks } :=
  { h with tasks := fun x hx => (List.mem_append.mp hx).elim (hts x) (h.tasks x) }

theorem mapMemError_undisturbed (h : Undisturbed u v) : Undisturbed u (mapMemError v) := by
  have hsame {α : Type} (field : State → α) := congrArg field (mapMemError_frame v)
  refine ⟨(hsame State.roster).trans h.roster, (hsame State.ackDriven).trans h.ackDriven, (hsame State.profile).trans h.profile,
    (hsame State.servicePin).trans h.pin, fun hd => h.stays ?_, fun x hx => h.tasks x ((hsame State.tasks) ▸ hx),
    fun w hw => h.write w ((hsame State.inflight) ▸ hw)⟩
  obtain hc | hc := mapMemError_cond v
  · rwa [hc] at hd
  · exact nomatch hc.symm.trans hd

/-- What an event of a HAIL leaves: the station undisturbed, and events of a HAIL after its write. -/
def Taking.Undisturbed (u : State) (x : Taking) : Prop :=
  Machine.Undisturbed u x.1 ∧ ∀ w, x.2 = some w → ∀ t ∈ w.onDone ++ (w.goOn ++ w.onFail), isRosterTask t = true

theorem Undisturbed.noWrite (h : Undisturbed u v) : Taking.Undisturbed u (noWrite v) := ⟨h, nofun⟩

theorem Undisturbed.writing (h : Undisturbed u v) {image : MapMemory} {onDone goOn onFail : List Task}
    (hts : ∀ t ∈ onDone ++ (goOn ++ onFail), isRosterTask t = true) :
    Taking.Undisturbed u (writing v image onDone goOn onFail) :=
  ⟨h, fun _ hw => Option.some.inj hw ▸ hts⟩

theorem handbackTasks_roster {reserved : Bool} {hb : Option Handback} : ∀ t ∈ handbackTasks reserved hb, isRosterTask t = true := by
  cases hb with
  | none => exact nofun
  | some x => exact fun t ht => List.mem_singleton.mp ht ▸ rfl

theorem presentTasks_roster {ev : RosterEvent} {st : Station} : ∀ t ∈ presentTasks ev st v, isRosterTask t = true := by
  unfold presentTasks
  split
  · exact fun t ht => List.mem_singleton.mp ht ▸ rfl
  · exact nofun

theorem takeMapEvent_undisturbed (h : Undisturbed u v) (ev : RosterEvent) (st : Station) :
    Taking.Undisturbed u (takeMapEvent ev st v) := by
  have hroll : ∀ t ∈ [Task.rollback (.requester st)], isRosterTask t = true := fun t ht => List.mem_singleton.mp ht ▸ rfl
  cases ev with
  | peerPresent => exact h.noWrite
  | peerLost | peerNewEpoch => exact (h.before hroll).noWrite

theorem takeRollback_undisturbed (h : Undisturbed u v) (which : RollbackOf) : Taking.Undisturbed u (takeRollback which v) := by
  unfold takeRollback
  split
  · split
    · exact h.noWrite
    · refine h.writing fun t ht => ?_
      obtain ht | ht := List.mem_append.mp ht
      · exact handbackTasks_roster t ht
      · simp only [List.singleton_append, List.mem_cons, List.not_mem_nil, or_false] at ht
        obtain rfl | rfl := ht <;> rfl
  · exact h.noWrite

theorem Undisturbed.failedAskOf (h : Undisturbed u v) (ev : RosterEvent) (st : Station) :
    Undisturbed u { (if ev = .peerNewEpoch then failAskOf st v else v) with tasks := presentTasks ev st v ++ v.tasks } := by
  split
  · have hk := (h.passes (passes_failAskOf st v)).before (ts := presentTasks ev st v) presentTasks_roster
    rwa [failAskOf_tasks] at hk
  · exact h.before presentTasks_roster

theorem takeBorrowerEvent_undisturbed (h : Undisturbed u v) (ev : RosterEvent) (st : Station) :
    Taking.Undisturbed u (takeBorrowerEvent ev st v) := by
  unfold takeBorrowerEvent
  split
  · exact (h.passes (passes_failAskOf st v)).noWrite
  · split
    · split
      · split
        · exact (h.failedAskOf ev st).noWrite
        · refine Undisturbed.writing ?_ fun t ht => ?_
          · unfold reportDataLost
            dsimp only
            split
            · exact h.passes (passes_report .dataLost v)
            · exact h
          · simp only [List.singleton_append, List.mem_cons, List.mem_append, List.not_mem_nil, or_false] at ht
            obtain rfl | ht | rfl := ht
            · rfl
            · exact presentTasks_roster t ht
            · rfl
      · exact (h.failedAskOf ev st).noWrite
    · exact h.noWrite

theorem takeLenderEvent_undisturbed (h : Undisturbed u v) (ev : RosterEvent) (st : Station) :
    Taking.Undisturbed u (takeLenderEvent ev st v) := by
  have hended : Undisturbed u (if ev = .peerNewEpoch then stopOfferTo st v else v) := by
    split
    · exact h.passes (passes_stopOfferTo st v)
    · exact h
  have hemptied : Undisturbed u (if ev = .peerNewEpoch then emptyLastGrantOf st (if ev = .peerNewEpoch then stopOfferTo st v else v)
      else if ev = .peerNewEpoch then stopOfferTo st v else v) := by
    split
    · exact (h.passes (passes_stopOfferTo st v)).passes (passes_emptyLastGrantOf st _)
    · exact h
  unfold takeLenderEvent
  split
  · exact (h.passes (passes_stopOfferTo st v)).noWrite
  · dsimp only
    split
    · split
      · refine hended.writing fun t ht => ?_
        simp only [List.singleton_append, List.nil_append, List.mem_cons, List.not_mem_nil, or_false] at ht
        obtain rfl | rfl := ht <;> rfl
      · exact hemptied.noWrite
    · exact hemptied.noWrite

theorem takeTask_undisturbed (h : Undisturbed u v) {t : Task} (ht : isRosterTask t = true) : Taking.Undisturbed u (takeTask t v) := by
  cases t with
  | mapEvent ev st => exact takeMapEvent_undisturbed h ev st
  | borrowerEvent ev st => exact takeBorrowerEvent_undisturbed h ev st
  | lenderEvent ev st => exact takeLenderEvent_undisturbed h ev st
  | rollback which => exact takeRollback_undisturbed h which
  | judgeQuiet => exact (h.passes (passes_judgeQuiet v)).noWrite
  | judgeAsk => exact (h.passes (passes_judgeAsk v)).noWrite
  | giveback reserved lender reason loans =>
    refine Undisturbed.noWrite ?_
    cases reserved with
    | true => exact (h.passes (passes_of_frame (t := releaseOther v) rfl fun _ hf => hf)).passes (passes_sendGiveback lender reason loans _)
    | false => exact h.passes (passes_sendGiveback lender reason loans v)
  | failAskOf st => exact (h.passes (passes_failAskOf st v)).noWrite
  | emptyLastGrantOf st => exact (h.passes (passes_emptyLastGrantOf st v)).noWrite
  | mapMemError => exact (mapMemError_undisturbed h).noWrite
  | _ => exact nomatch ht

theorem judgements_roster {takes : Bool} {before after : State} : ∀ t ∈ judgements takes before after, isRosterTask t = true := by
  intro t ht
  unfold judgements at ht
  obtain ht | ht := List.mem_append.mp ht
  · split at ht
    · exact List.mem_singleton.mp ht ▸ rfl
    · exact nomatch ht
  · split at ht
    · exact List.mem_singleton.mp ht ▸ rfl
    · exact nomatch ht

theorem settle_undisturbed (m : Moment) (h : Undisturbed u v) : Undisturbed u (settle m v) := by
  refine work_keeps (I := Undisturbed u) (fun t rest s s' hs _ ht htake => ?_) (fun t rest s s' w hs hi ht htake => ?_) _ _ _ h
  all_goals
    have hrest : Undisturbed u (withTasks rest s) := { hs with tasks := fun x hx => hs.tasks x (ht ▸ List.mem_cons_of_mem t hx) }
    have htook := takeTask_undisturbed hrest (hs.tasks t (ht ▸ List.mem_cons_self))
    rw [htake] at htook
    obtain ⟨hafter, hwrite⟩ := htook
  · exact hafter
  · have hw := hwrite w rfl
    have hafter : Undisturbed u s' := hafter
    refine ⟨?_, ?_, ?_⟩
    · refine { hafter with tasks := fun x hx => ?_, write := nofun }
      unfold completeWrite at hx
      simp only [List.mem_append] at hx hw
      obtain ((hx | hx) | hx) | hx := hx
      · exact hw x (.inl hx)
      · exact judgements_roster x hx
      · exact hw x (.inr (.inl hx))
      · exact hafter.tasks x hx
    · refine { hafter with tasks := fun x hx => ?_, write := nofun }
      obtain hx | hx := List.mem_append.mp hx
      · exact hw x (List.mem_append_right _ (List.mem_append_right _ hx))
      · exact hafter.tasks x hx
    · exact { hafter with write := fun w' hw' => Option.some.inj hw' ▸ hw }

end undisturbed

/-! ## PEER-PRESENT without another epoch -/

/-- No loan of a station stands under another epoch. -/
def LoansUnder (st : Station) (e : Epoch) (mm : MapMemory) : Prop := ∀ p ∈ mm.loans, p.2.borrower = st → p.2.epoch = e

section appears
variable {st : Station} {e : Epoch} {v : State} (he : (rosterOf v.roster st).epoch = some e)

theorem takeLenderEvent_appears (he : (rosterOf v.roster st).epoch = some e) (hl : LoansUnder st e v.mm) :
    takeLenderEvent .peerPresent st v = noWrite v := by
  have hnone : (v.loanUp && v.mm.loans.any fun p => isOldLoan st e p.2) = false := by
    refine Bool.and_eq_false_imp.mpr fun _ => Bool.eq_false_iff.mpr fun h => ?_
    obtain ⟨p, hp, hold⟩ := List.any_eq_true.mp h
    simp only [isOldLoan, Bool.and_eq_true, beq_iff_eq, bne_iff_ne] at hold
    exact hold.2 (hl p hp hold.1)
  simp [takeLenderEvent, he, hnone]

theorem takeBorrowerEvent_appears (he : (rosterOf v.roster st).epoch = some e) (hup : v.loanUp = true)
    (hk : (peerOf v.mm st).known = none ∨ (peerOf v.mm st).known = some e) :
    takeBorrowerEvent .peerPresent st v = noWrite { v with tasks := presentTasks .peerPresent st v ++ v.tasks } := by
  obtain hk | hk := hk <;> simp [takeBorrowerEvent, he, hk, hup]

/-- PEER-PRESENT of a station that is known under no other epoch has nothing to it but the judgement of R90 (R90, R107, R125). -/
theorem perform_appears (m : Moment) (hi : v.inflight = none) (ht : v.tasks = []) (hup : v.loanUp = true)
    (he : (rosterOf v.roster st).epoch = some e) (hk : (peerOf v.mm st).known = none ∨ (peerOf v.mm st).known = some e)
    (hl : LoansUnder st e v.mm) :
    perform m (eventTasks st .peerPresent) v = if isPresentShelf v.roster st = true then judgeAsk v else v := by
  have hmap : Leads 1 m.writes m.writes (withTasks (eventTasks st .peerPresent) v)
      (withTasks [.borrowerEvent .peerPresent st, .lenderEvent .peerPresent st] v) := leads_noWrite hi rfl rfl
  have hborrow : Leads 1 m.writes m.writes (withTasks [.borrowerEvent .peerPresent st, .lenderEvent .peerPresent st] v)
      (withTasks (presentTasks .peerPresent st v ++ [.lenderEvent .peerPresent st]) v) :=
    leads_noWrite hi rfl (takeBorrowerEvent_appears (v := withTasks [.lenderEvent .peerPresent st] v) he hup hk)
  have hlend {x : State} (hx : Passes v x) (hmm : x.mm = v.mm) :
      Leads 1 m.writes m.writes (withTasks [.lenderEvent .peerPresent st] x) (withTasks [] x) := by
    refine leads_noWrite (hx.inflight.trans hi) rfl (takeLenderEvent_appears (v := withTasks [] x) (e := e) ?_ ?_)
    · exact (congrArg (fun ro => (rosterOf ro st).epoch) hx.roster).trans he
    · show LoansUnder st e x.mm
      rwa [hmm]
  rw [perform_of_rest ht]
  unfold presentTasks at hborrow
  split
  · rename_i hshelf
    rw [if_pos ⟨rfl, hshelf⟩] at hborrow
    have hjudge := does_judgeAsk.leads (fates := m.writes) (rest := [.lenderEvent .peerPresent st]) hi
    have hall := ((hmap.trans hborrow).trans hjudge).trans (hlend (passes_judgeAsk v) (judgeAsk_mm v))
    have htasks : (judgeAsk v).tasks = [] := (judgeAsk_tasks v).trans ht
    rw [hall.settle_eq rfl (by decide) rfl, withTasks_self htasks]
  · rename_i hshelf
    rw [if_neg fun h => hshelf h.2, List.nil_append] at hborrow
    have hall := (hmap.trans hborrow).trans (hlend (.refl v) rfl)
    rw [hall.settle_eq rfl (by decide) rfl, withTasks_self ht]

end appears

/-! ## PEER-LOST without pending records -/

theorem withdraw_occupied_le (test : FrameBody → Bool) (s : State) : (withdraw test s).link.occupied ≤ s.link.occupied := by
  unfold Link.occupied withdraw
  have hqueue := List.length_filter_le (fun f : OutFrame => !test f.body) s.link.queue
  have hhand : (if (s.link.hand.filter fun h => h.driving.isSome || !test h.frame.body).isSome then 1 else 0)
      ≤ if s.link.hand.isSome then 1 else 0 := by
    cases s.link.hand with
    | none => exact Nat.le_refl _
    | some h => cases hd : (h.driving.isSome || !test h.frame.body) <;> simp [Option.filter, hd]
  dsimp only
  omega

theorem stopOfferTo_link (st : Station) (s : State) :
    (stopOfferTo st s).link = s.link ∨ ∃ test, (stopOfferTo st s).link = (withdraw test s).link := by
  unfold stopOfferTo
  split
  · rename_i hany
    obtain ⟨o, ho, _⟩ := (Option.any_eq_true _ _).mp hany
    unfold stopOffer
    split
    · exact .inl rfl
    · cases hd : isDriving (isOfferOf o) s with
      | true => rw [withdrawOffer_driving true ho hd]; exact .inl rfl
      | false => rw [withdrawOffer_not_driving true ho hd]; exact .inr ⟨isOfferOf o, rfl⟩
    · exact .inl rfl
  · exact .inl rfl

theorem failAskOf_link (st : Station) (s : State) : (failAskOf st s).link = s.link := by
  unfold failAskOf
  split
  · exact (congrArg State.link (failAsk_frame s) :)
  · rfl

/-- PEER-LOST of a station without a pending record, where the end of a drain has its place (R100, R107, R117, R126, R163). -/
theorem perform_lost (m : Moment) {v : State} (st : Station) (hi : v.inflight = none) (ht : v.tasks = [])
    (hc : v.cond = .ready ∨ (v.cond = .drain ∧ v.link.occupied < 32)) (hp : ∀ r ∈ v.mm.pendings, r.requester ≠ st) :
    perform m (eventTasks st .peerLost) v = judgeQuiet (stopOfferTo st (failAskOf st v)) := by
  have hnone : v.mm.pendings.find? (RollbackOf.requester st).takes = none :=
    List.find?_eq_none.mpr fun r hr ht => hp r hr (beq_iff_eq.mp ht)
  have hmap : Leads 1 m.writes m.writes (withTasks (eventTasks st .peerLost) v)
      (withTasks (.rollback (.requester st) :: (eventTasks st .peerLost).tail) v) := leads_noWrite hi rfl rfl
  have hroll := leads_rollback_none (fates := m.writes) (s := withTasks (eventTasks st .peerLost).tail v) hi hnone
  have htail := leads_lost_tail (fates := m.writes) hi st []
  have hstopped : Passes v (stopOfferTo st (failAskOf st v)) := (passes_failAskOf st v).trans (passes_stopOfferTo st _)
  have hcond : (stopOfferTo st (failAskOf st v)).cond = v.cond := by
    unfold stopOfferTo
    split <;> simp
  have htasks : (stopOfferTo st (failAskOf st v)).tasks = [] := by
    unfold stopOfferTo
    split <;> simp [ht]
  have hend : (judgeQuiet (stopOfferTo st (failAskOf st v))).tasks = [] := by
    obtain hr | ⟨_, hroom⟩ := hc
    · rw [judgeQuiet_of_cond (by rw [hcond, hr]; decide), htasks]
    · refine judgeQuiet_tasks_of_place ((hasPlace_iff _).mpr ?_) htasks
      obtain hl | ⟨test, hl⟩ := stopOfferTo_link st (failAskOf st v)
      · rwa [hl, failAskOf_link]
      · rw [hl]
        refine Nat.lt_of_le_of_lt (withdraw_occupied_le test _) ?_
        rwa [failAskOf_link]
  rw [perform_of_rest ht]
  rw [withTasks_self htasks] at htail
  exact ((hmap.trans hroll).trans htail).settle_eq rfl (by decide) hend

/-! ## O41 -/

section hailed
variable (source : Station) (h : HailBody) (u : State) (state : PeerState) (epoch : Option Epoch)

/-- A HAIL changes nothing but the roster and the acknowledge slot before its events are taken. -/
theorem hailed_frame : hailed source h u state epoch
    = { u with roster := (hailed source h u state epoch).roster, ackDriven := handsOn u } := by
  unfold hailed
  rw [withHeard_frame source (handsOn u) u]

theorem isPresentShelf_hailed : isPresentShelf (hailed source h u .present epoch).roster source = decide (h.kind = .shelf) := by
  rw [isPresentShelf, isPresent, rosterOf_hailed_same]
  simp [hailedRecord]

end hailed

theorem flatMap_eventTasks_tasks (st : Station) (events : List RosterEvent) : ∀ t ∈ events.flatMap (eventTasks st), isRosterTask t = true := by
  intro t ht
  obtain ⟨ev, -, ht⟩ := List.mem_flatMap.mp ht
  cases ev <;> simp only [eventTasks, reduceCtorEq, if_true, if_false, List.append_nil, List.cons_append, List.nil_append, List.mem_cons,
    List.not_mem_nil, or_false] at ht
  · obtain rfl | rfl | rfl := ht <;> rfl
  all_goals obtain rfl | rfl | rfl | rfl := ht <;> rfl

/-- The events of a HAIL leave the records of the roster as the HAIL left them. -/
theorem perform_hailed_roster (m : Moment) {u : State} (hi : u.inflight = none) (ht : u.tasks = [])
    (hs : u.cond = .drain → u.profile.serviceEdge = true ∨ serviceAsserted u = true) (source : Station) (h : HailBody) (state : PeerState)
    (epoch : Option Epoch) (events : List RosterEvent) {t : State}
    (hrun : perform m (events.flatMap (eventTasks source)) (hailed source h u state epoch) = t) :
    t.ackDriven = handsOn u ∧ (∀ st, st ≠ source → rosterOf t.roster st = rosterOf u.roster st)
      ∧ rosterOf t.roster source = hailedRecord h u.now state epoch := by
  have hframe := hailed_frame source h u state epoch
  have hsame {α : Type} (field : State → α) := congrArg field hframe
  have hstart : Undisturbed (hailed source h u state epoch)
      (withTasks ((hailed source h u state epoch).tasks ++ events.flatMap (eventTasks source)) (hailed source h u state epoch)) := by
    refine ⟨rfl, rfl, rfl, rfl, fun hd => ?_, fun x hx => ?_, fun w hw => ?_⟩
    · have hdrain : u.cond = .drain := (hsame State.cond).symm.trans hd
      rw [hsame State.profile, hsame serviceAsserted]
      exact hs hdrain
    · have hnil : (hailed source h u state epoch).tasks = [] := (hsame State.tasks).trans ht
      rw [hnil, List.nil_append] at hx
      exact flatMap_eventTasks_tasks source events x hx
    · exact nomatch hi.symm.trans ((hsame State.inflight).symm.trans hw)
  have hend := settle_undisturbed m hstart
  subst hrun
  refine ⟨hend.ackDriven.trans (hsame State.ackDriven), fun st hst => ?_, ?_⟩
  · exact (congrArg (fun ro => rosterOf ro st) hend.roster).trans (rosterOf_hailed_other hst h u state epoch)
  · exact (congrArg (fun ro => rosterOf ro source) hend.roster).trans (rosterOf_hailed_same source h u state epoch)

theorem stopOfferTo_of_other {st : Station} {s : State} (h : ∀ o, s.offer.current = some o → o.asker ≠ st) : stopOfferTo st s = s := by
  unfold stopOfferTo
  rw [if_neg]
  intro hany
  obtain ⟨o, ho, hst⟩ := (Option.any_eq_true _ _).mp hany
  exact h o ho (beq_iff_eq.mp hst)

theorem stopOfferTo_of_same {s : State} {o : OpenOffer} (ho : s.offer.current = some o) : stopOfferTo o.asker s = stopOffer s := by
  unfold stopOfferTo
  rw [if_pos (by simp [ho])]

theorem stopOffer_of_open {s : State} (h : s.offer.state = .armed ∨ s.offer.state = .waiting) :
    stopOffer s = { s with offer := OfferMachine.reset } := by
  unfold stopOffer
  obtain h | h := h <;> rw [h] <;> rfl

theorem stopOffer_of_queued {s : State} (h : s.offer.state = .queued) : stopOffer s = withdrawOffer true s := by
  unfold stopOffer
  rw [h]

/-- Settles O41: the record of each kind of HAIL, the events it raises, and PEER-PRESENT and PEER-LOST carried through. -/
theorem hailHeard : Obligations.HailHeard := by
  intro source h m s u hon hq hown hb was e heard run recorded raised renewed
  refine ⟨fun hstart => ?_, fun hs => ⟨exec_hail_present hon hq hs hown hb, exec_hail_leaving hon hq hs hown hb,
    exec_hail_nameless hon hq hs hown hb, fun hrest hstays => ?_, ?_, ?_⟩⟩
  · have hwf : h.wf = true := decide_eq_true hq
    show exec (.hail source h m) s = _
    dsimp only [exec, execHail]
    rw [whenOn_at hon, if_pos hwf, hearHailFrame, hear_of_start hstart]
  · have hr : RestAt m s u := ⟨hrest, hon.2⟩
    have hroster := perform_hailed_roster m hr.inflight hr.tasks hstays source h
    by_cases hi : h.identity = 2
    · by_cases hl : h.cond = .leaving
      · obtain ⟨hack, hother, hself⟩ := hroster .lost (some e) _ rfl
        exact ⟨_, exec_hail_leaving hon hq hs hown hb hi hl, hack, hother, fun _ => by rw [if_pos hl]; exact hself,
          fun hne => absurd hi hne⟩
      · obtain ⟨hack, hother, hself⟩ := hroster .present (some e) _ rfl
        exact ⟨_, exec_hail_present hon hq hs hown hb hi hl, hack, hother, fun _ => by rw [if_neg hl]; exact hself,
          fun hne => absurd hi hne⟩
    · obtain ⟨hack, hother, hself⟩ := hroster .lost was.epoch _ rfl
      exact ⟨_, exec_hail_nameless hon hq hs hown hb hi, hack, hother, fun hi' => absurd hi' hi, fun _ => hself⟩
  · intro hrest hup hi hl hwas hepoch hknown hloans
    have hr : RestAt m s u := ⟨hrest, hon.2⟩
    have hsame {α : Type} (field : State → α) := congrArg field (hailed_frame source h u .present (some e))
    have hrenewed : renewal (rosterOf u.roster source).epoch (bornEpoch h) = [] := if_neg fun hn => hepoch.elim hn.1 hn.2
    have happear : appearance (rosterOf u.roster source).state = [.peerPresent] := if_neg hwas
    have hperform := perform_appears (v := hailed source h u .present (some e)) (st := source) (e := e) m
      ((hsame State.inflight).trans hr.inflight) ((hsame State.tasks).trans hr.tasks) ((hsame State.loanUp).trans hup)
      (congrArg RosterRecord.epoch (rosterOf_hailed_same source h u .present (some e)))
      (by rw [hsame State.mm]; exact hknown) (by rw [hsame State.mm]; exact hloans)
    rw [isPresentShelf_hailed] at hperform
    have hrun : run = .next (if decide (h.kind = .shelf) = true then judgeAsk (recorded .present (some e)) else recorded .present (some e)) := by
      refine (exec_hail_present hon hq hs hown hb hi hl).trans ?_
      rw [hrenewed, happear, List.append_nil, List.flatMap_singleton]
      exact congrArg Host.Outcome.next hperform
    exact ⟨fun hk => by rw [hrun, if_pos (decide_eq_true hk)], fun hk => by rw [hrun, hk]; rfl⟩
  · intro hrest hc hpresent hp epoch hepoch lost failed
    have hr : RestAt m s u := ⟨hrest, hon.2⟩
    have hsame {α : Type} (field : State → α) := congrArg field (hailed_frame source h u .lost epoch)
    have hrun : run = .next (judgeQuiet (stopOfferTo source failed)) := by
      have hlost : disappearance (rosterOf u.roster source).state = [.peerLost] := if_pos hpresent
      have hperform := perform_lost m (v := hailed source h u .lost epoch) source ((hsame State.inflight).trans hr.inflight)
        ((hsame State.tasks).trans hr.tasks) (by rw [hsame State.cond, hsame State.link]; exact hc) (by rw [hsame State.mm]; exact hp)
      have hfailed : failAskOf source (hailed source h u .lost epoch) = failed := by
        unfold failAskOf
        rw [hsame State.ask]
        rfl
      rw [hfailed] at hperform
      obtain ⟨hi, rfl⟩ | ⟨hi, hl, hnone, rfl⟩ := hepoch
      · refine (exec_hail_nameless hon hq hs hown hb hi).trans ?_
        rw [hlost, List.flatMap_singleton]
        exact congrArg Host.Outcome.next hperform
      · refine (exec_hail_leaving hon hq hs hown hb hi hl).trans ?_
        have hrenewed : renewal (rosterOf u.roster source).epoch (bornEpoch h) = [] := hnone
        rw [hlost, hrenewed, List.append_nil, List.flatMap_singleton]
        exact congrArg Host.Outcome.next hperform
    have hoffer : failed.offer = u.offer := by
      show (if _ then failAsk lost else lost).offer = _
      split
      · exact (failAsk_offer lost).trans (hsame State.offer)
      · exact hsame State.offer
    have hhand : failed.link = u.link := by
      show (if _ then failAsk lost else lost).link = _
      split
      · exact (congrArg State.link (failAsk_frame lost)).trans (hsame State.link)
      · exact hsame State.link
    have hdriving (test : FrameBody → Bool) : isDriving test failed = isDriving test u := by rw [isDriving, hhand, isDriving]
    rw [hrun]
    refine ⟨fun hnone => ?_, fun o ho hasker => ?_⟩
    · rw [stopOfferTo_of_other (by rwa [hoffer])]
    · have ho' : failed.offer.current = some o := by rwa [hoffer]
      rw [← hasker, stopOfferTo_of_same ho']
      refine ⟨fun hopen => ?_, fun hq hd => ?_, fun hq hd => ?_⟩
      · rw [stopOffer_of_open (by rwa [hoffer])]
      · rw [stopOffer_of_queued (by rwa [hoffer]), withdrawOffer_driving true ho' (by rwa [hdriving]), hoffer, Bool.or_true]
      · rw [stopOffer_of_queued (by rwa [hoffer]), withdrawOffer_not_driving true ho' (by rwa [hdriving])]

end Sys2Proof.Machine

/-! PEER-NEW-EPOCH over a map memory outside its canonical form: the statement of O42 asks for no law of map memory, and fails there. -/

namespace Sys2Proof.Machine

/-- The epoch by which station 5 is known. -/
def staleEpoch : Epoch := { serial := 50, formatCount := 1 }

/-- The epoch its HAIL then names. -/
def freshEpoch : Epoch := { serial := 50, formatCount := 2 }

/-- A chunk number past every volume: its key in volume 0 is that of chunk 0 of volume 1. -/
def aliasedChunk : Nat := 16777216

/-- Two entries under one key: the lookup finds the LOCAL one, and once it is rolled back the REMOTE one, which is on a loan of station 5
under the new epoch. -/
def aliasedMemory : MapMemory :=
  { MapMemory.blank with
    peers := [(5, { known := some staleEpoch, inUse := 0, spare := 0 })]
    pendings := [{ volume := 0, chunk := aliasedChunk, requester := 5, tag := 0, expiry := 0 },
      { volume := 1, chunk := 0, requester := 5, tag := 0, expiry := 0 }]
    chunks := [(aliasedChunk, { state := .pending 5 0 0, place := .here 0 0, shield := 0 }),
      (aliasedChunk, { state := .pending 5 0 0, place := .remote 5 0 0 0 freshEpoch, shield := 0 })] }

/-- Station 3 in READY, with two pending records of station 5 on that key. -/
def aliasedStation : State :=
  { State.reset with
    powered := true, cond := .ready, own := 3, loanUp := true
    roster := [(5, { state := .lost, kind := some .shelf, epoch := some staleEpoch, lastHeard := some 0 })]
    mm := aliasedMemory }

/-- The HAIL of station 5 after a format. -/
def freshHail : HailBody :=
  { kind := .shelf, identity := 2, serial := 50, formatCount := 2, restartCount := 0, cause := 0, cond := .ready, q := 0 }

/-- An event at time 0 whose writes all complete. -/
def atZero : Moment := { time := 0, writes := [] }

/-- The state a command leaves, and the reset state where it leaves none. -/
def stateLeft : Host.Outcome State Fault Refusal → State
  | .next t => t
  | _ => State.reset

/-- The second rollback finds the REMOTE entry and hands its loan to the spare list. -/
theorem aliased_spare : (peerOf (stateLeft (exec (.hail 5 freshHail atZero) aliasedStation)).mm 5).spare = 1 := by decide

/-- Refutes O42: two pending records of the station on one key of a chunk table that holds it twice. The second rollback puts a loan under the
new epoch on the spare list, after its count was set to 0. -/
theorem not_newEpochTaken : ¬ Obligations.NewEpochTaken := by
  intro h
  have hon : RestAt atZero aliasedStation (advance 0 aliasedStation) := ⟨⟨rfl, rfl, rfl⟩, rfl⟩
  have hplaces : ∀ r ∈ aliasedStation.mm.pendings, r.requester = 5 → ∀ x, entryOf aliasedStation.mm r.volume r.chunk = some x →
      ∀ loan bay grain, x.place ≠ .remote 5 loan bay grain freshEpoch := by
    have hall : ∀ r ∈ aliasedStation.mm.pendings,
        entryOf aliasedStation.mm r.volume r.chunk = some { state := .pending 5 0 0, place := .here 0 0, shield := 0 } := by decide
    intro r hr _ x hx loan bay grain hplace
    obtain rfl := Option.some.inj ((hall r hr).symm.trans hx)
    exact nomatch hplace
  obtain ⟨t, ht, -, hpeer, -⟩ := h 5 freshHail atZero aliasedStation (advance 0 aliasedStation) staleEpoch hon rfl (by decide) (by decide)
    (by decide) rfl rfl rfl (by decide) (by decide) rfl (by decide) (.inl (by decide)) hplaces
  have hspare := aliased_spare
  rw [ht] at hspare
  have hzero : (peerOf t.mm 5).spare = 0 := congrArg PeerCapacity.spare hpeer
  exact absurd (hspare.symm.trans hzero) (by decide)

end Sys2Proof.Machine

/-! WRITE lookups that allocate: where a new entry comes from, and what goes with its answer (R44 to R48). -/

namespace Sys2Proof.Machine

/-! ## Seeking a grain -/

section seek
variable {s : State} {a : Station} {v c tag : Nat} {mm : MapMemory}

theorem seekGrain_of_full_map (h : Config.mapPlaces ≤ mm.chunks.length) :
    seekGrain s a v c tag mm = { mm := mm, rotor := s.rotor, status := .mapFull, place := none, also := [.report .mapFull] } := if_pos h

theorem seekGrain_of_full_list (h : mm.chunks.length < Config.mapPlaces) (hp : Config.pendingPlaces ≤ mm.pendings.length) :
    seekGrain s a v c tag mm = { mm := mm, rotor := s.rotor, status := .held, place := none, also := [] } := by
  rw [seekGrain, if_neg (Nat.not_le.mpr h), if_pos hp]

section room
variable (h : mm.chunks.length < Config.mapPlaces) (hp : mm.pendings.length < Config.pendingPlaces)
include h hp

theorem seekGrain_of_grain {taken : Taken} (ht : taken = takeGrains s.presence 1 mm.freeSets s.rotor) {bay grain : Nat}
    (hg : taken.grains = [(bay, grain)]) :
    seekGrain s a v c tag mm
      = { mm := makeEntry s a v c tag { mm with freeSets := taken.sets } (.here bay grain), rotor := taken.rotor, status := .fresh,
          place := some (.here bay grain), also := [] } := by
  rw [seekGrain, if_neg (Nat.not_le.mpr h), if_neg (Nat.not_le.mpr hp), ← ht]
  simp only [hg]

theorem seekGrain_of_spare (hg : (takeGrains s.presence 1 mm.freeSets s.rotor).grains = []) {sp : Spare} {mm' : MapMemory}
    (hs : takeSpare s.roster mm = some (sp, mm')) :
    seekGrain s a v c tag mm
      = { mm := makeEntry s a v c tag mm' sp.place, rotor := s.rotor, status := .fresh, place := some sp.place, also := [] } := by
  rw [seekGrain, if_neg (Nat.not_le.mpr h), if_neg (Nat.not_le.mpr hp)]
  simp only [hg, hs]

theorem seekGrain_of_none (hg : (takeGrains s.presence 1 mm.freeSets s.rotor).grains = []) (hs : takeSpare s.roster mm = none) :
    seekGrain s a v c tag mm = noGrain s mm := by
  rw [seekGrain, if_neg (Nat.not_le.mpr h), if_neg (Nat.not_le.mpr hp)]
  simp only [hg, hs]

end room

theorem takeSpare_of_front {roster : Table RosterRecord} {front back : List Spare} {sp : Spare} (hl : mm.spares = front ++ sp :: back)
    (hf : ∀ x ∈ front, spareUsable roster x = false) (hs : spareUsable roster sp = true) :
    takeSpare roster mm
      = some (sp, setPeer { mm with spares := front ++ back } sp.lender
          { peerOf mm sp.lender with inUse := (peerOf mm sp.lender).inUse + 1, spare := (peerOf mm sp.lender).spare - 1 }) := by
  have hfront : ∀ x ∈ front, ¬ spareUsable roster x = true := fun x hx => ne_true_of_eq_false (hf x hx)
  have hfind : mm.spares.find? (spareUsable roster) = some sp := by
    rw [hl, List.find?_append, List.find?_eq_none.mpr hfront, Option.none_or, List.find?_cons_of_pos hs]
  have herase : mm.spares.eraseP (spareUsable roster) = front ++ back := by
    rw [hl, List.eraseP_append_right _ hfront, List.eraseP_cons_of_pos hs]
  rw [takeSpare, hfind, herase]

/-- The new entry of an allocation, at a place. -/
def freshEntry (s : State) (a : Station) (v c tag : Nat) (pl : Place) : Entry :=
  { state := .pending a tag (s.now + s.profile.holdTime * Config.millisecond), place := pl, shield := coveringCount s.mm v c }

/-- The pending record of an allocation. -/
def freshRecord (s : State) (a : Station) (v c tag : Nat) : PendingRecord :=
  { volume := v, chunk := c, requester := a, tag := tag, expiry := s.now + s.profile.holdTime * Config.millisecond }

theorem makeEntry_eq (ht : mm.trims = s.mm.trims) (pl : Place) :
    makeEntry s a v c tag mm pl
      = { mm with
          chunks := tablePut mm.chunks (chunkKey v c) (freshEntry s a v c tag pl)
          volumes := tableSet Volume.none mm.volumes v { volumeOf mm v with count := (volumeOf mm v).count + 1 }
          pendings := insertPending mm.pendings (freshRecord s a v c tag) } := by
  have hk : coveringCount mm v c = coveringCount s.mm v c := by rw [coveringCount, ht, coveringCount]
  unfold makeEntry addEntry freshEntry
  rw [hk]
  rfl

theorem makeEntry_of_active (ht : mm.trims = s.mm.trims) (hv : (volumeOf mm v).state = .active) (pl : Place) :
    makeEntry s a v c tag mm pl
      = { mm with
          chunks := tablePut mm.chunks (chunkKey v c) (freshEntry s a v c tag pl)
          volumes := tablePut mm.volumes v { volumeOf mm v with count := (volumeOf mm v).count + 1 }
          pendings := insertPending mm.pendings (freshRecord s a v c tag) } := by
  have hput : ({ volumeOf mm v with count := (volumeOf mm v).count + 1 } : Volume) ≠ Volume.none := by
    intro h
    have hstate : (volumeOf mm v).state = .free := (congrArg Volume.state h :)
    exact nomatch hv.symm.trans hstate
  rw [makeEntry_eq ht, tableSet, if_neg hput]

end seek

section request
variable {m : Moment} {s u : State} {f : RawFrame} {rest : List RawFrame}

/-- A lookup that allocates without an old entry (R44). -/
theorem takeTask_allocates (hc : u.cond = .ready) {v c tag : Nat} (hd : decideWrite u f.source v c tag = .allocates) :
    takeTask (.lookupWrite f.source v c tag) (reserved rest u)
      = if (seekGrain u f.source v c tag u.mm).place.isNone = true then
          answerReserved f.source (placeReply u.own tag (seekGrain u f.source v c tag u.mm).status v c (seekGrain u f.source v c tag u.mm).place)
            (seekGrain u f.source v c tag u.mm).also (reserved rest u)
        else
          (reserved rest u, some { image := (seekGrain u f.source v c tag u.mm).mm, rotor := (seekGrain u f.source v c tag u.mm).rotor
                                   takes := (seekGrain u f.source v c tag u.mm).place.isSome
                                   onDone := (seekGrain u f.source v c tag u.mm).also
                                     ++ [.reply f.source (placeReply u.own tag (seekGrain u f.source v c tag u.mm).status v c
                                          (seekGrain u f.source v c tag u.mm).place)]
                                   goOn := [], onFail := failedRequest f.source tag v c }) := by
  have hd' : decideWrite (reserved rest u) f.source v c tag = .allocates := hd
  have hcond : ¬ (reserved rest u).cond = .drain := fun h => nomatch hc.symm.trans h
  show takeLookupWrite f.source v c tag (reserved rest u) = _
  unfold takeLookupWrite
  rw [hd']
  show allocate f.source v c tag none (reserved rest u) = _
  unfold allocate
  rw [if_neg hcond]
  rfl

/-- A lookup that makes a new entry, carried through: FRESH with the place, and R90 judged. -/
theorem exec_lookupWrite_fresh (h : Takes m s u f rest) (hw : m.writes = []) (hc : u.cond = .ready) {v c tag : Nat}
    (hparse : parseRequest u.fresh f = .lookup true v c tag) (hd : decideWrite u f.source v c tag = .allocates) {mm : MapMemory} {rot : Nat}
    {pl : Place}
    (hgot : seekGrain u f.source v c tag u.mm = { mm := mm, rotor := rot, status := .fresh, place := some pl, also := [] }) :
    exec (.lookupWrite m) s
      = .next (judgeAsk (withAnswer f rest { tag := tag, status := .fresh, volume := v, chunk := c, part := placePart u.own pl }
          { u with mm := mm, rotor := rot })) := by
  have htk := takeTask_allocates (rest := rest) hc hd
  rw [hgot] at htk
  rw [exec_lookupWrite_of_takes h hparse, settle_written_ready h hw hc htk]
  exact congrArg Host.Outcome.next (askJudged_of_takes ..)

/-- Settles O23: a grain of the pool, else the front-most usable spare. -/
theorem writeAllocates : Obligations.WriteAllocates := by
  refine ⟨fun m s u f rest v c tag taken bay grain h hparse hw hc _ hv hsize he hmap hlist ht hg => ?_,
    fun m s u f rest v c tag front sp back h hparse hw hc hv hsize he hmap hlist hg hl hf hs => ?_⟩
  all_goals have hd : decideWrite u f.source v c tag = .allocates := decideWrite_of_no_entry (checkChunk_of_lt_size (by rw [hc]; exact nofun) hv hsize) he
  · rw [exec_lookupWrite_fresh h hw hc hparse hd (seekGrain_of_grain hmap hlist ht hg),
      makeEntry_of_active (mm := { u.mm with freeSets := taken.sets }) rfl hv]
    rfl
  · rw [exec_lookupWrite_fresh h hw hc hparse hd (seekGrain_of_spare hmap hlist hg (takeSpare_of_front hl hf hs)),
      makeEntry_of_active (by exact rfl) (by exact hv)]
    rfl

end request

end Sys2Proof.Machine

/-! What a request does beside its write: the frames it queues, and the place kept for its answer (R34, R47, R149). -/

namespace Sys2Proof.Machine

/-! ## Frames that stay queued -/

/-- Whether a frame is an OFFER: the only kind an event in READY takes out of the queue again. -/
def isOfferBody : FrameBody → Bool
  | .offer .. => true
  | _ => false

theorem isOfferBody_of_isOfferOf {o : OpenOffer} {b : FrameBody} (h : isOfferOf o b = true) : isOfferBody b = true := by
  cases b <;> first | rfl | exact nomatch h

/-- What the sending of frames leaves alone: all but the link, the fault record and the two machines, and every frame but an OFFER that is in
the queue. -/
structure Sends (s t : State) : Prop where
  frame : t = { s with link := t.link, faults := t.faults, attention := t.attention, ask := t.ask, offer := t.offer }
  keeps : ∀ f ∈ s.link.queue, isOfferBody f.body = false → f ∈ t.link.queue

theorem Sends.refl (s : State) : Sends s s := ⟨rfl, fun _ h _ => h⟩

theorem Sends.trans {s t u : State} (h : Sends s t) (k : Sends t u) : Sends s u where
  frame := by rw [k.frame, h.frame]
  keeps f hf ho := k.keeps f (h.keeps f hf ho) ho

theorem sends_pushFrame (f : OutFrame) (s : State) : Sends s (pushFrame f s) := ⟨rfl, fun _ h _ => mem_insertFrame.mpr (.inr h)⟩

theorem sends_offerFrame (f : OutFrame) {s d : State} (h : Sends s d) : Sends s ((offerFrame f s).getD d) :=
  offerFrame_getD (P := Sends s) f s d (sends_pushFrame f s) h

theorem sends_report (f : Flag) (s : State) : Sends s (report f s) where
  frame := by rw [report_frame]
  keeps g hg ho := by
    unfold report
    split
    · exact offerFrame_getD (P := fun t => g ∈ t.link.queue) _ _ _ (mem_insertFrame.mpr (.inr hg)) hg
    · exact hg

theorem sends_countUp (c : Counter) (s : State) : Sends s (countUp c s) := ⟨rfl, fun _ h _ => h⟩

theorem sends_releaseReply (s : State) : Sends s (releaseReply s) := ⟨rfl, fun _ h _ => h⟩

theorem sends_releaseOther (s : State) : Sends s (releaseOther s) := ⟨rfl, fun _ h _ => h⟩

theorem sends_sendGiveback (a : Station) (r : GivebackReason) (ls : List Nat) (s : State) : Sends s (sendGiveback a r ls s) :=
  sends_offerFrame _ (sends_report .givebackUndelivered s)

theorem sends_fillReply (d : Station) (r : Reply) (s : State) : Sends s (fillReply d r s) :=
  (sends_releaseReply s).trans (sends_offerFrame _ (.refl _))

theorem failAsk_link (s : State) : (failAsk s).link = s.link := (congrArg State.link (failAsk_frame s) :)

theorem sends_failAsk (s : State) : Sends s (failAsk s) where
  frame := by rw [failAsk_frame]
  keeps f h _ := by rwa [failAsk_link]

theorem sends_withdrawOffer (later : Bool) (s : State) : Sends s (withdrawOffer later s) where
  frame := by rw [withdrawOffer_frame]
  keeps f h ho := by
    cases hcur : s.offer.current with
    | none => simpa [withdrawOffer, hcur, offerDriving] using h
    | some o =>
      cases hd : isDriving (isOfferOf o) s with
      | true => rwa [withdrawOffer_driving later hcur hd]
      | false =>
        rw [withdrawOffer_not_driving later hcur hd]
        refine List.mem_filter.mpr ⟨h, ?_⟩
        cases hb : isOfferOf o f.body with
        | false => rfl
        | true => exact nomatch (isOfferBody_of_isOfferOf hb).symm.trans ho

theorem sends_yieldOffer (s : State) : Sends s (yieldOffer s) := by
  unfold yieldOffer
  split
  · exact ⟨rfl, fun _ h _ => h⟩
  · exact sends_withdrawOffer false s
  · exact .refl s

theorem sends_startAsk (s : State) : Sends s (startAsk s) := by
  unfold startAsk
  split
  · exact .refl s
  · have hcalling (a : AskMachine) : Sends s { s with ask := a } := ⟨rfl, fun _ h _ => h⟩
    refine Sends.trans ?_ (sends_yieldOffer _)
    split
    · exact (hcalling _).trans (sends_failAsk _)
    · exact (hcalling _).trans (sends_offerFrame _ (sends_failAsk _))

theorem sends_judgeAsk (s : State) : Sends s (judgeAsk s) := by
  unfold judgeAsk
  split
  · exact sends_startAsk s
  · exact .refl s

theorem sends_askJudged (takes : Bool) (before after s : State) : Sends s (askJudged takes before after s) := by
  unfold askJudged
  split
  · exact sends_judgeAsk s
  · exact .refl s

/-! ## The place kept for an answer -/

/-- READY, with a place kept for an answer and the queue within its bounds. -/
structure Room (s : State) : Prop where
  cond : s.cond = .ready
  reserved : 1 ≤ s.link.reservedReplies
  occupied : s.link.occupied ≤ 32
  replies : s.link.replies ≤ 24

theorem countP_insertFrame (p : OutFrame → Bool) (q : List OutFrame) (f : OutFrame) :
    (insertFrame q f).countP p = q.countP p + if p f then 1 else 0 := by
  induction q with
  | nil => simp [insertFrame]
  | cons x q ih =>
    unfold insertFrame
    split
    · rw [List.countP_cons]
    · rw [List.countP_cons, ih, List.countP_cons]
      omega

theorem pushFrame_replies (f : OutFrame) (s : State) :
    (pushFrame f s).link.replies = s.link.replies + if f.isReplyOrAlert then 1 else 0 := by
  unfold Link.replies pushFrame
  simp only [countP_insertFrame]
  omega

section room
variable {s t : State}

theorem Room.offered (h : Room s) {f : OutFrame} (ht : offerFrame f s = some t) : Room t := by
  obtain ⟨-, hplace, hreply, rfl⟩ := offerFrame_some ht
  refine ⟨h.cond, h.reserved, ?_, ?_⟩
  · rw [pushFrame_occupied]
    exact (hasPlace_iff s).mp hplace
  · rw [pushFrame_replies]
    split
    · rename_i hf
      exact ((hasReplyPlace_iff s).mp (hreply hf)).2
    · exact h.replies

theorem Room.offerFrame (h : Room s) (f : OutFrame) {d : State} (hd : Room d) : Room ((Machine.offerFrame f s).getD d) := by
  cases ht : Machine.offerFrame f s with
  | none => exact hd
  | some t => exact h.offered ht

theorem Room.of_link (h : Room s) (hc : t.cond = s.cond) (hl : t.link = s.link) : Room t :=
  ⟨hc.trans h.cond, hl ▸ h.reserved, hl ▸ h.occupied, hl ▸ h.replies⟩

theorem Room.report (h : Room s) (f : Flag) : Room (report f s) := by
  unfold Machine.report
  split
  · have hset : Room { s with faults := s.faults.set f } := h.of_link rfl rfl
    exact (hset.offerFrame _ hset).of_link rfl rfl
  · exact h.of_link rfl rfl

theorem Room.countUp (h : Room s) (c : Counter) : Room (countUp c s) := h.of_link rfl rfl

theorem Room.releaseOther (h : Room s) : Room (releaseOther s) := by
  refine ⟨h.cond, h.reserved, Nat.le_trans ?_ h.occupied, h.replies⟩
  unfold Link.occupied Machine.releaseOther
  dsimp only
  omega

theorem Room.sendGiveback (h : Room s) (a : Station) (r : GivebackReason) (ls : List Nat) : Room (sendGiveback a r ls s) :=
  h.offerFrame _ (h.report .givebackUndelivered)

theorem Room.failAsk (h : Room s) : Room (failAsk s) := h.of_link (failAsk_cond s) (failAsk_link s)

theorem withdraw_replies_le (test : FrameBody → Bool) (s : State) : (withdraw test s).link.replies ≤ s.link.replies := by
  unfold Link.replies withdraw
  have hqueue : (s.link.queue.filter fun f => !test f.body).countP OutFrame.isReplyOrAlert ≤ s.link.queue.countP OutFrame.isReplyOrAlert :=
    List.filter_sublist.countP_le
  have hhand : (if ((s.link.hand.filter fun h => h.driving.isSome || !test h.frame.body).any fun h => h.frame.isReplyOrAlert) then 1 else 0)
      ≤ if (s.link.hand.any fun h => h.frame.isReplyOrAlert) then 1 else 0 := by
    cases s.link.hand with
    | none => exact Nat.le_refl _
    | some h => cases hd : (h.driving.isSome || !test h.frame.body) <;> simp [Option.filter, hd]
  dsimp only
  omega

theorem Room.yieldOffer (h : Room s) : Room (yieldOffer s) := by
  unfold Machine.yieldOffer
  split
  · exact h.of_link rfl rfl
  · cases hcur : s.offer.current with
    | none => exact h.of_link (by simp) (by simp [withdrawOffer, hcur, offerDriving])
    | some o =>
      cases hd : isDriving (isOfferOf o) s with
      | true => exact h.of_link (by simp) (by rw [withdrawOffer_driving false hcur hd])
      | false =>
        rw [withdrawOffer_not_driving false hcur hd]
        exact ⟨h.cond, h.reserved, (withdraw_occupied_le (isOfferOf o) s).trans h.occupied,
          (withdraw_replies_le (isOfferOf o) s).trans h.replies⟩
  · exact h

theorem Room.startAsk (h : Room s) : Room (startAsk s) := by
  unfold Machine.startAsk
  split
  · exact h
  · have hcalling (a : AskMachine) : Room { s with ask := a } := h.of_link rfl rfl
    refine Room.yieldOffer ?_
    split
    · exact (hcalling _).failAsk
    · exact (hcalling _).offerFrame _ (hcalling _).failAsk

/-- The answer goes into the place kept for it. -/
theorem Room.fillReply (h : Room s) (d : Station) (r : Reply) :
    fillReply d r s = pushFrame { dest := d, body := .reply r } (releaseReply s) := by
  have hone : (releaseReply s).link.occupied + 1 = s.link.occupied ∧ (releaseReply s).link.replies + 1 = s.link.replies := by
    have hr := h.reserved
    unfold Link.occupied Link.replies releaseReply
    dsimp only
    omega
  have hplace : hasReplyPlace (releaseReply s) = true := by
    have ho := h.occupied
    have hr := h.replies
    rw [hasReplyPlace_iff]
    omega
  have hlets : refuses (releaseReply s).cond { dest := d, body := .reply r } = false := refuses_of_works _ (.inl h.cond)
  have htaken := (offerFrame_eq_some_iff { dest := d, body := .reply r } (releaseReply s)).mpr
    ⟨hlets, ((hasReplyPlace_iff _).mp hplace).1, fun _ => ((hasReplyPlace_iff _).mp hplace).2⟩
  rw [Machine.fillReply, answer, htaken]
  rfl

theorem Room.answered (h : Room s) (d : Station) (r : Reply) : { dest := d, body := .reply r } ∈ (Machine.fillReply d r s).link.queue := by
  rw [h.fillReply]
  exact mem_insertFrame.mpr (.inl rfl)

end room

theorem room_reserved {m : Moment} {s u : State} {f : RawFrame} {rest : List RawFrame} (h : Takes m s u f rest) (hc : u.cond = .ready) :
    Room (reserved rest u) := by
  obtain ⟨hocc, hrep⟩ := (hasReplyPlace_iff u).mp (takes_place h)
  refine ⟨hc, ?_, ?_, ?_⟩
  all_goals
    unfold reserved reserveReply
  · exact Nat.le_add_left 1 _
  · unfold Link.occupied at *
    dsimp only
    omega
  · unfold Link.replies at *
    dsimp only
    omega

end Sys2Proof.Machine

/-! WRITE lookups that find no grain, and those that dispose of an old entry (R41, R44 to R48, R63). -/

namespace Sys2Proof.Machine

/-! ## What goes with an answer -/

/-- Events that send frames and do `g`, leaving the place kept for the answer. -/
structure Also (ts : List Task) (g : State → State) : Prop where
  does : DoesAll ts g
  sends : ∀ s, Sends s (g s)
  room : ∀ s, Room s → Room (g s)

theorem DoesAll.append {ts us : List Task} {f g : State → State} (h : DoesAll ts f) (k : DoesAll us g) : DoesAll (ts ++ us) (g ∘ f) where
  leads {fates rest s} hi := by
    have hlast := k.leads (fates := fates) (rest := rest) ((h.inflight s).trans hi)
    rw [List.length_append, List.append_assoc]
    exact (h.leads hi).trans hlast
  inflight s := (k.inflight (f s)).trans (h.inflight s)

theorem Also.append {ts us : List Task} {f g : State → State} (h : Also ts f) (k : Also us g) : Also (ts ++ us) (g ∘ f) where
  does := h.does.append k.does
  sends s := (h.sends s).trans (k.sends (f s))
  room s hs := k.room (f s) (h.room s hs)

theorem also_nil : Also [] id := ⟨.nil, .refl, fun _ h => h⟩

theorem also_startAsk : Also [.startAsk] startAsk := ⟨does_startAsk.one, sends_startAsk, fun _ h => h.startAsk⟩

theorem also_report (f : Flag) : Also [.report f] (report f) := ⟨(does_report f).one, sends_report f, fun _ h => h.report f⟩

theorem also_count (c : Counter) : Also [.count c] (countUp c) := ⟨(does_count c).one, sends_countUp c, fun _ h => h.countUp c⟩

/-- NOSPACE reported and counted (R47). -/
def spaceRefused (s : State) : State := countUp .noSpaceAnswers (report .noSpace s)

theorem also_noSpace : Also [.report .noSpace, .count .noSpaceAnswers] spaceRefused := (also_report .noSpace).append (also_count .noSpaceAnswers)

/-- A loan handed back by its GIVEBACK, whose place was reserved. -/
def handedBack (hb : Option Handback) (s : State) : State :=
  match hb with
  | none => s
  | some h => sendGiveback h.lender h.reason [h.loan] (releaseOther s)

theorem also_handback (hb : Option Handback) : Also (handbackTasks true hb) (handedBack hb) := by
  cases hb with
  | none => exact also_nil
  | some h =>
    exact ⟨(does_giveback_reserved h.lender h.reason [h.loan]).one, fun s => (sends_releaseOther s).trans (sends_sendGiveback ..),
      fun _ hs => hs.releaseOther.sendGiveback _ _ _⟩

@[simp] theorem fillReply_ask (d : Station) (r : Reply) (s : State) : (fillReply d r s).ask = s.ask :=
  (congrArg State.ask (fillReply_frame d r s) :)

@[simp] theorem fillReply_offer (d : Station) (r : Reply) (s : State) : (fillReply d r s).offer = s.offer :=
  (congrArg State.offer (fillReply_frame d r s) :)

@[simp] theorem fillReply_faults (d : Station) (r : Reply) (s : State) : (fillReply d r s).faults = s.faults :=
  (congrArg State.faults (fillReply_frame d r s) :)

@[simp] theorem report_faults (f : Flag) (s : State) : (report f s).faults = s.faults.set f := by
  unfold report judgeAttention
  dsimp only
  split
  · exact offerFrame_getD (P := fun t => t.faults = s.faults.set f) _ _ _ rfl rfl
  · rfl

theorem occupied_reserved (rest : List RawFrame) (u : State) : (reserved rest u).link.occupied = u.link.occupied + 1 := by
  unfold Link.occupied reserved reserveReply
  dsimp only
  omega

/-! ## Without a grain (R47) -/

section noGrain
variable {s : State} {mm : MapMemory}

theorem noGrain_of_inFlight (h : askInFlight s = true) :
    noGrain s mm = { mm := mm, rotor := s.rotor, status := .held, place := none, also := [] } := by rw [noGrain, if_pos h]

theorem noGrain_of_idle (h : s.ask.state = .idle) (hp : anyShelfPresent s.roster = true) :
    noGrain s mm = { mm := mm, rotor := s.rotor, status := .held, place := none, also := [.startAsk] } := by
  rw [noGrain, if_neg (by simp [askInFlight, h]), if_pos ⟨h, hp⟩]

theorem noGrain_of_refused (h : s.ask.state = .backoff ∨ (s.ask.state = .idle ∧ anyShelfPresent s.roster = false)) :
    noGrain s mm = { mm := mm, rotor := s.rotor, status := .noSpace, place := none, also := [.report .noSpace, .count .noSpaceAnswers] } := by
  obtain h | ⟨h, hp⟩ := h
  · rw [noGrain, if_neg (by simp [askInFlight, h]), if_neg (by simp [h])]
  · rw [noGrain, if_neg (by simp [askInFlight, h]), if_neg (by simp [hp])]

/-- R47 has an answer for every state of the ask machine. -/
theorem noGrain_cases (s : State) (mm : MapMemory) :
    ∃ status also g, noGrain s mm = { mm := mm, rotor := s.rotor, status := status, place := none, also := also } ∧ Also also g
      ∧ also.length ≤ 2 := by
  unfold noGrain
  split
  · exact ⟨_, _, _, rfl, also_nil, by decide⟩
  · split
    · exact ⟨_, _, _, rfl, also_startAsk, by decide⟩
    · exact ⟨_, _, _, rfl, also_noSpace, by decide⟩

end noGrain

/-- An ask started from IDLE in READY. -/
theorem startAsk_ask {s : State} (hc : s.cond = .ready) (hi : s.ask.state = .idle) :
    (startAsk s).ask.askId = s.ask.askId + 1 ∧ (startAsk s).ask.state ≠ .idle
      ∧ (hasPlace s = true → s.mm.spares.length < 32 → (startAsk s).ask.state = .calling) := by
  have hyield (x : State) : (yieldOffer x).ask = x.ask := (congrArg State.ask (yieldOffer_frame x) :)
  have hfail (x : State) : (failAsk x).ask.askId = x.ask.askId ∧ (failAsk x).ask.state ≠ .idle := ⟨rfl, nofun⟩
  by_cases hroom : s.mm.spares.length < 32
  · cases hp : hasPlace s with
    | true =>
      rw [startAsk_of_place hc hi hroom hp, hyield]
      exact ⟨rfl, nofun, fun _ _ => rfl⟩
    | false =>
      rw [startAsk_of_no_place hc hi hroom hp, hyield]
      exact ⟨(hfail (asking s)).1, (hfail (asking s)).2, nofun⟩
  · have hfull : Config.sparePlaces ≤ s.mm.spares.length := Nat.not_lt.mp hroom
    unfold startAsk
    rw [if_neg (by simp [hc, hi])]
    dsimp only
    rw [if_pos hfull, hyield]
    exact ⟨rfl, nofun, fun _ h => absurd h hroom⟩

section request
variable {m : Moment} {s u : State} {f : RawFrame} {rest : List RawFrame}

/-- A request answered without a write, with what goes with the answer taken before it. -/
theorem settle_answered_also (h : Takes m s u f rest) {t : Task} {r : Reply} {also : List Task} {g : State → State} (hg : Also also g)
    (hlen : also.length ≤ 100) (htk : takeTask t (reserved rest u) = answerReserved f.source r also (reserved rest u)) :
    settle m (beginRequest t { u with buffer := rest }) = fillReply f.source r (g (reserved rest u))
      ∧ Sends (reserved rest u) (fillReply f.source r (g (reserved rest u))) := by
  have hi : (reserved rest u).inflight = none := (takes_infl h :)
  have htasks : (reserved rest u).tasks = [] := (takes_tasks h :)
  have hsends := (hg.sends (reserved rest u)).trans (sends_fillReply f.source r (g (reserved rest u)))
  have hstart : withTasks [] (beginRequest t { u with buffer := rest }) = reserved rest u := withTasks_self htasks
  have htake : Leads 1 m.writes m.writes (beginRequest t { u with buffer := rest })
      (withTasks (also ++ [.reply f.source r]) (reserved rest u)) := by
    refine leads_noWrite (rest := []) hi rfl ?_
    rw [hstart, htk, answerReserved, htasks]
    rfl
  have halso := hg.does.leads (fates := m.writes) (rest := [.reply f.source r]) hi
  have hreply := (does_reply f.source r).leads (fates := m.writes) (rest := []) ((hg.does.inflight (reserved rest u)).trans hi)
  have hend : (fillReply f.source r (g (reserved rest u))).tasks = [] := by
    rw [hsends.frame]
    exact htasks
  rw [withTasks_self hend] at hreply
  exact ⟨((htake.trans halso).trans hreply).settle_eq rfl (by simp only [workBound]; omega) hend, hsends⟩

/-- A WRITE lookup without an old entry, a grain or a spare. -/
theorem exec_lookupWrite_unplaced (h : Takes m s u f rest) (hc : u.cond = .ready) {v c tag : Nat}
    (hparse : parseRequest u.fresh f = .lookup true v c tag) (hd : decideWrite u f.source v c tag = .allocates) {mm : MapMemory}
    {status : Status} {also : List Task} {g : State → State} (hg : Also also g) (hlen : also.length ≤ 100)
    (hgot : seekGrain u f.source v c tag u.mm = { mm := mm, rotor := u.rotor, status := status, place := none, also := also }) :
    exec (.lookupWrite m) s = .next (fillReply f.source (plainReply tag status v c) (g (reserved rest u)))
      ∧ Sends (reserved rest u) (fillReply f.source (plainReply tag status v c) (g (reserved rest u))) := by
  have htk := takeTask_allocates (rest := rest) hc hd
  rw [hgot] at htk
  obtain ⟨hsettle, hsends⟩ := settle_answered_also h (r := plainReply tag status v c) hg hlen htk
  exact ⟨by rw [exec_lookupWrite_of_takes h hparse, hsettle], hsends⟩

end request

/-- Settles O24: the answers of R47 and the two checks before them. -/
theorem writeFindsNoGrain : Obligations.WriteFindsNoGrain := by
  refine ⟨fun m s u f rest v c tag h hparse hc hv hsize he hmap hlist hg hs => ?_,
    fun m s u f rest v c tag h hparse hc hv hsize he => ⟨fun hmap => ?_, fun hmap hlist => ?_⟩⟩
  all_goals have hd : decideWrite u f.source v c tag = .allocates := decideWrite_of_no_entry (checkChunk_of_lt_size (by rw [hc]; exact nofun) hv hsize) he
  · have hgot := seekGrain_of_none (a := f.source) (v := v) (c := c) (tag := tag) hmap hlist hg hs
    obtain ⟨status, also, g, hnone, halso, hlen⟩ := noGrain_cases u u.mm
    obtain ⟨hexec, hsends⟩ := exec_lookupWrite_unplaced h hc hparse hd halso (by omega) (hgot.trans hnone)
    have hsame {α : Type} (field : State → α) := congrArg field hsends.frame
    refine ⟨_, hexec, hsame State.mm, hsame State.rotor, hsame State.buffer, (hsame State.tasks).trans (takes_tasks h :), fun hf => ?_,
      fun hi hp => ?_, fun hno => ?_⟩
    · rw [noGrain_of_inFlight hf] at hnone
      obtain ⟨hexec', -⟩ := exec_lookupWrite_unplaced h hc hparse hd also_nil (by decide) (hgot.trans (noGrain_of_inFlight hf))
      exact (Host.Outcome.next.inj (hexec.symm.trans hexec')).trans (fillReply_reserved h (fun hh => nomatch hc.symm.trans hh) u.mm u.rotor)
    · obtain ⟨hexec', -⟩ := exec_lookupWrite_unplaced h hc hparse hd also_startAsk (by decide) (hgot.trans (noGrain_of_idle hi hp))
      rw [Host.Outcome.next.inj (hexec.symm.trans hexec')]
      obtain ⟨hid, hstate, hcalling⟩ := startAsk_ask (s := reserved rest u) hc hi
      have hask (r : Reply) : (fillReply f.source r (startAsk (reserved rest u))).ask = (startAsk (reserved rest u)).ask := fillReply_ask ..
      rw [hask]
      refine ⟨(room_reserved h hc).startAsk.answered _ _, hid, hstate, fun hocc hroom => hcalling ((hasPlace_iff _).mpr ?_) hroom⟩
      rwa [occupied_reserved]
    · obtain ⟨hexec', -⟩ := exec_lookupWrite_unplaced h hc hparse hd also_noSpace (by decide) (hgot.trans (noGrain_of_refused hno))
      rw [Host.Outcome.next.inj (hexec.symm.trans hexec')]
      have hfaults (r : Reply) : (fillReply f.source r (spaceRefused (reserved rest u))).faults = (spaceRefused (reserved rest u)).faults :=
        fillReply_faults ..
      have hask (r : Reply) : (fillReply f.source r (spaceRefused (reserved rest u))).ask = (spaceRefused (reserved rest u)).ask :=
        fillReply_ask ..
      rw [hfaults, hask]
      refine ⟨((room_reserved h hc).report .noSpace |>.countUp .noSpaceAnswers).answered _ _, report_flags .noSpace (reserved rest u), ?_,
        report_ask .noSpace (reserved rest u)⟩
      show (report .noSpace (reserved rest u)).faults.counts.raise .noSpaceAnswers = _
      rw [report_counts]
      rfl
  · obtain ⟨hexec, hsends⟩ := exec_lookupWrite_unplaced h hc hparse hd (also_report .mapFull) (by decide) (seekGrain_of_full_map hmap)
    refine ⟨_, hexec, ?_, ((room_reserved h hc).report .mapFull).answered _ _, ?_⟩
    · refine hsends.frame.trans ?_
      rw [fillReply_ask, fillReply_offer, report_ask, report_offer]
      rfl
    · rw [fillReply_faults, report_faults]
      rfl
  · obtain ⟨hexec, -⟩ := exec_lookupWrite_unplaced h hc hparse hd also_nil (by decide) (seekGrain_of_full_list hmap hlist)
    rw [hexec]
    exact congrArg Host.Outcome.next (fillReply_reserved h (fun hh => nomatch hc.symm.trans hh) u.mm u.rotor)

/-! ## Map memory with the old entry gone and a new one made -/

theorem tablePut_put {α : Type} (t : Table α) (k : Nat) (a b : α) : tablePut (tablePut t k a) k b = tablePut t k b := by
  induction t with
  | nil => simp [tablePut]
  | cons p t ih =>
    obtain ⟨j, x⟩ := p
    by_cases hlt : k < j
    · simp [tablePut, hlt]
    · by_cases heq : k = j
      · simp [tablePut, heq]
      · simp [tablePut, hlt, heq, ih]

theorem tablePut_of_find {α : Type} {t : Table α} (w : tableWf t) {k : Nat} {x : α} (h : tableFind t k = some x) : tablePut t k x = t := by
  induction t with
  | nil => exact nomatch h
  | cons p t ih =>
    obtain ⟨j, y⟩ := p
    obtain ⟨hlt, w⟩ := tableWf_cons.mp w
    by_cases heq : j = k
    · obtain rfl : y = x := by simpa [tableFind, heq] using h
      simp [tablePut, heq]
    · have hfind : tableFind t k = some x := by simpa [tableFind, heq] using h
      have hjk : j < k := hlt (k, x) (tableFind_mem hfind)
      simp [tablePut, Nat.not_lt.mpr (Nat.le_of_lt hjk), Ne.symm heq, ih w hfind]

theorem volumes_find_of_active {mm : MapMemory} {v : Nat} (hv : (volumeOf mm v).state = .active) :
    tableFind mm.volumes v = some (volumeOf mm v) := by
  unfold volumeOf tableGet at *
  cases hf : tableFind mm.volumes v with
  | none => rw [hf] at hv; exact nomatch hv
  | some x => rfl

/-- What a disposal leaves of map memory, with its GIVEBACK (R41, R63). -/
structure Disposed (mm : MapMemory) (v c : Nat) (d : MapMemory) : Prop where
  chunks : d.chunks = tableErase mm.chunks (chunkKey v c)
  volumes : d.volumes = (removeEntry mm v c).volumes
  loans : d.loans = mm.loans
  trims : d.trims = mm.trims

theorem EntryGone.disposed {mm d : MapMemory} {v c : Nat} {e : Entry} (g : EntryGone mm v c e d) : Disposed mm v c d :=
  ⟨g.chunks, g.volumes, g.loans, g.trims⟩

/-- Map memory with a new entry in the place of an old one. -/
structure Replaced (u : State) (a : Station) (v c tag : Nat) (pl : Place) (d mm : MapMemory) : Prop where
  entry : entryOf mm v c = some (freshEntry u a v c tag pl)
  others : ∀ k, k ≠ chunkKey v c → tableFind mm.chunks k = tableFind u.mm.chunks k
  volumes : mm.volumes = u.mm.volumes
  loans : mm.loans = u.mm.loans
  trims : mm.trims = u.mm.trims
  pendings : mm.pendings = insertPending d.pendings (freshRecord u a v c tag)

theorem Disposed.replaced {u : State} {a : Station} {v c tag : Nat} {d base : MapMemory} (h : Disposed u.mm v c d) (hcan : Canonical u.mm)
    (hv : (volumeOf u.mm v).state = .active) (hcount : 0 < (volumeOf u.mm v).count)
    (hbase : base = { d with freeSets := base.freeSets, spares := base.spares, peers := base.peers }) (pl : Place) :
    Replaced u a v c tag pl d (makeEntry u a v c tag base pl) := by
  have htrims : base.trims = u.mm.trims := by rw [hbase]; exact h.trims
  have hchunks : base.chunks = tableErase u.mm.chunks (chunkKey v c) := by rw [hbase]; exact h.chunks
  have hvols : base.volumes = tableSet Volume.none u.mm.volumes v { volumeOf u.mm v with count := (volumeOf u.mm v).count - 1 } := by
    rw [hbase]
    exact h.volumes
  have hlowered : volumeOf base v = { volumeOf u.mm v with count := (volumeOf u.mm v).count - 1 } := by
    rw [volumeOf, hvols]
    exact tableGet_set_same hcan.volumes.1 _ _
  have hback : ({ volumeOf base v with count := (volumeOf base v).count + 1 } : Volume) = volumeOf u.mm v := by
    rw [hlowered]
    simp [Nat.sub_add_cancel hcount]
  have hne (n : Nat) : ({ volumeOf u.mm v with count := n } : Volume) ≠ Volume.none := by
    intro he
    have hstate : (volumeOf u.mm v).state = .free := (congrArg Volume.state he :)
    exact nomatch hv.symm.trans hstate
  rw [makeEntry_eq htrims]
  refine ⟨?_, fun k hk => ?_, ?_, ?_, htrims, ?_⟩
  · exact tableFind_put_same ..
  · show tableFind (tablePut base.chunks _ _) k = _
    rw [hchunks, tableFind_put_other _ _ hk, tableFind_erase_other _ hk]
  · show tableSet Volume.none base.volumes v { volumeOf base v with count := (volumeOf base v).count + 1 } = _
    rw [hback, hvols, tableSet, tableSet, if_neg (hne (volumeOf u.mm v).count), if_neg (hne ((volumeOf u.mm v).count - 1)), tablePut_put,
      tablePut_of_find hcan.volumes.1 (volumes_find_of_active hv)]
  · show base.loans = _
    rw [hbase]
    exact h.loans
  · show insertPending base.pendings _ = _
    rw [hbase]

theorem length_tableErase_of_some {α : Type} {t : Table α} {k : Nat} {x : α} (h : tableFind t k = some x) :
    t.length = (tableErase t k).length + 1 := by
  rw [(tableErase_perm h).length_eq, List.length_cons]

/-! ## Old entries disposed of (R41, R63) -/

section request
variable {m : Moment} {s u : State} {f : RawFrame} {rest : List RawFrame} {v c tag : Nat} {d : Removal}

/-- The write of a lookup that disposes of an old entry. -/
def replacement (u : State) (a : Station) (v c tag : Nat) (d : Removal) : MapWrite :=
  { image := (seekGrain u a v c tag d.mm).mm, rotor := (seekGrain u a v c tag d.mm).rotor
    takes := (seekGrain u a v c tag d.mm).place.isSome
    onDone := handbackTasks true d.handback ++ (seekGrain u a v c tag d.mm).also
      ++ [.reply a (placeReply u.own tag (seekGrain u a v c tag d.mm).status v c (seekGrain u a v c tag d.mm).place)]
    goOn := [], onFail := releaseTasks d.handback ++ failedRequest a tag v c }

theorem takeTask_replaces (hc : u.cond = .ready) (hd : decideWrite u f.source v c tag = .replaces d) :
    takeTask (.lookupWrite f.source v c tag) (reserved rest u)
      = if (d.handback.isSome && !hasPlace (reserved rest u)) = true then
          answerReserved f.source (plainReply tag .held v c) [] (reserved rest u)
        else (reserveHandback d.handback (reserved rest u), some (replacement u f.source v c tag d)) := by
  have hd' : decideWrite (reserved rest u) f.source v c tag = .replaces d := hd
  have hcond : ¬ (reserved rest u).cond = .drain := fun h => nomatch hc.symm.trans h
  show takeLookupWrite f.source v c tag (reserved rest u) = _
  unfold takeLookupWrite
  rw [hd']
  show allocate f.source v c tag (some d) (reserved rest u) = _
  unfold allocate
  rw [if_neg hcond]
  rfl

theorem hasPlace_reserved : hasPlace (reserved rest u) = true ↔ u.link.occupied + 1 < 32 := by
  rw [hasPlace_iff, occupied_reserved]

theorem reserveOther_occupied (s : State) : (reserveOther s).link.occupied = s.link.occupied + 1 := by
  unfold Link.occupied reserveOther
  dsimp only
  omega

theorem room_handback (h : Takes m s u f rest) (hc : u.cond = .ready) {hb : Option Handback}
    (hp : hb = none ∨ u.link.occupied + 1 < 32) : Room (reserveHandback hb (reserved rest u)) := by
  have hroom := room_reserved h hc
  cases hb with
  | none => exact hroom
  | some x =>
    have hlt : u.link.occupied + 1 < 32 := hp.resolve_left nofun
    refine ⟨hroom.cond, hroom.reserved, ?_, hroom.replies⟩
    show (reserveOther (reserved rest u)).link.occupied ≤ 32
    rw [reserveOther_occupied, occupied_reserved]
    exact hlt

/-- A loan is handed back into the place reserved for it. -/
theorem handback_queued {hb : Handback} (hp : u.link.occupied + 1 < 32) (hc : u.cond = .ready) (mm : MapMemory) (rot : Nat) :
    { dest := hb.lender, body := .giveback hb.reason [hb.loan] }
      ∈ (handedBack (some hb) { reserveHandback (some hb) (reserved rest u) with mm := mm, rotor := rot, inflight := none }).link.queue := by
  have hplace : hasPlace (releaseOther { reserveHandback (some hb) (reserved rest u) with mm := mm, rotor := rot, inflight := none }) = true := by
    refine (hasPlace_iff _).mpr ?_
    exact (occupied_reserved rest u).symm ▸ hp
  have htaken := offerFrame_of_place (f := { dest := hb.lender, body := .giveback hb.reason [hb.loan] })
    (s := releaseOther { reserveHandback (some hb) (reserved rest u) with mm := mm, rotor := rot, inflight := none }) (.inl hc) rfl hplace
  rw [handedBack, sendGiveback, htaken]
  exact mem_insertFrame.mpr (.inl rfl)

/-- The station with an old entry disposed of and the write over, before its frames are queued. -/
def disposal (rest : List RawFrame) (u : State) (a : Station) (v c tag : Nat) (d : Removal) : State :=
  written (replacement u a v c tag d) (reserveHandback d.handback (reserved rest u))

/-- The same with its frames queued, what goes with the answer being `g`. -/
def disposalAnswered (rest : List RawFrame) (u : State) (a : Station) (v c tag : Nat) (d : Removal) (g : State → State) : State :=
  fillReply a (placeReply u.own tag (seekGrain u a v c tag d.mm).status v c (seekGrain u a v c tag d.mm).place)
    (g (handedBack d.handback (disposal rest u a v c tag d)))

/-- And with R90 judged. -/
def disposalOver (rest : List RawFrame) (u : State) (a : Station) (v c tag : Nat) (d : Removal) (g : State → State) : State :=
  askJudged (replacement u a v c tag d).takes (reserveHandback d.handback (reserved rest u)) (disposal rest u a v c tag d)
    (disposalAnswered rest u a v c tag d g)

variable {g : State → State} (hg : Also (seekGrain u f.source v c tag d.mm).also g)
include hg

theorem sends_disposalOver :
    Sends (handedBack d.handback (disposal rest u f.source v c tag d)) (disposalOver rest u f.source v c tag d g) :=
  ((hg.sends _).trans (sends_fillReply ..)).trans (sends_askJudged ..)

/-- A lookup that disposes of an old entry, carried through. -/
theorem exec_lookupWrite_replaces (h : Takes m s u f rest) (hw : m.writes = []) (hc : u.cond = .ready)
    (hparse : parseRequest u.fresh f = .lookup true v c tag) (hd : decideWrite u f.source v c tag = .replaces d)
    (hp : d.handback = none ∨ u.link.occupied + 1 < 32) (hlen : (seekGrain u f.source v c tag d.mm).also.length ≤ 2) :
    exec (.lookupWrite m) s = .next (disposalOver rest u f.source v c tag d g) := by
  have hi : (reserved rest u).inflight = none := (takes_infl h :)
  have htasks : (reserved rest u).tasks = [] := (takes_tasks h :)
  have hstart : withTasks [] (beginRequest (.lookupWrite f.source v c tag) { u with buffer := rest }) = reserved rest u := withTasks_self htasks
  have hroom : ¬ (d.handback.isSome && !hasPlace (reserved rest u)) = true := by
    obtain hn | hlt := hp
    · simp [hn]
    · simp [hasPlace_reserved.mpr hlt]
  have htk := takeTask_replaces (rest := rest) hc hd
  rw [if_neg hroom] at htk
  have hwrite := leads_write (s := beginRequest (.lookupWrite f.source v c tag) { u with buffer := rest }) hi rfl (by rw [hstart]; exact htk)
  have hdone : DoesAll (replacement u f.source v c tag d).onDone (fun x =>
      fillReply f.source (placeReply u.own tag (seekGrain u f.source v c tag d.mm).status v c (seekGrain u f.source v c tag d.mm).place)
        (g (handedBack d.handback x))) :=
    (((also_handback d.handback).append hg).does).append (does_reply _ _).one
  obtain ⟨k, hk, hleads⟩ := leads_completed (fates := []) hdone (reserveHandback d.handback (reserved rest u))
  have hheld : (reserveHandback d.handback (reserved rest u)).tasks = [] := by cases d.handback <;> exact htasks
  have hcond : (reserveHandback d.handback (reserved rest u)).cond = .ready := by cases d.handback <;> exact hc
  have hsame {α : Type} (field : State → α) := congrArg field
    (((also_handback d.handback).sends (disposal rest u f.source v c tag d)).trans (sends_disposalOver hg)).frame
  have hend : (disposalOver rest u f.source v c tag d g).tasks = [] := (hsame State.tasks).trans hheld
  have hready : (disposalOver rest u f.source v c tag d g).cond ≠ .drain := by
    rw [hsame State.cond]
    exact fun hx => nomatch hcond.symm.trans hx
  rw [hheld] at hleads
  have hover : quietJudged (reserveHandback d.handback (reserved rest u)) (disposal rest u f.source v c tag d)
      (withTasks [] (disposalOver rest u f.source v c tag d g)) = disposalOver rest u f.source v c tag d g := by
    rw [withTasks_self hend, quietJudged_of_cond hready]
  have hdisposed : Leads k [] [] (completeWrite (replacement u f.source v c tag d) (reserveHandback d.handback (reserved rest u)))
      (disposalOver rest u f.source v c tag d g) := by
    rw [← hover]
    exact hleads
  have hall := hwrite.trans hdisposed
  have hlong : (replacement u f.source v c tag d).onDone.length ≤ 4 := by
    simp only [replacement, List.length_append, List.length_singleton]
    cases d.handback <;> simp only [handbackTasks, List.length_nil, List.length_singleton] <;> omega
  rw [exec_lookupWrite_of_takes h hparse, hall.settle_eq hw (by simp only [workBound]; omega) hend]

/-- The frames of a disposal: the answer, and the loan it hands back. -/
theorem disposalOver_frames (h : Takes m s u f rest) (hc : u.cond = .ready) (hp : d.handback = none ∨ u.link.occupied + 1 < 32) :
    { dest := f.source, body := .reply (placeReply u.own tag (seekGrain u f.source v c tag d.mm).status v c
        (seekGrain u f.source v c tag d.mm).place) } ∈ (disposalOver rest u f.source v c tag d g).link.queue
      ∧ ∀ hb, d.handback = some hb → { dest := hb.lender, body := .giveback hb.reason [hb.loan] }
          ∈ (disposalOver rest u f.source v c tag d g).link.queue := by
  have hroom : Room (disposal rest u f.source v c tag d) := (room_handback h hc hp).of_link rfl rfl
  constructor
  · have hanswered := (hg.room _ ((also_handback d.handback).room _ hroom)).answered f.source
      (placeReply u.own tag (seekGrain u f.source v c tag d.mm).status v c (seekGrain u f.source v c tag d.mm).place)
    exact (sends_askJudged ..).keeps _ hanswered rfl
  · intro hb hhb
    have hlt : u.link.occupied + 1 < 32 := hp.resolve_left (by rw [hhb]; exact nofun)
    refine (sends_disposalOver hg).keeps _ ?_ rfl
    have hqueued := handback_queued (rest := rest) (hb := hb) hlt hc (replacement u f.source v c tag d).image
      (replacement u f.source v c tag d).rotor
    rw [disposal, hhb]
    exact hqueued

end request

/-! ## The ask machine beside a disposal -/

theorem handedBack_ask (hb : Option Handback) (s : State) : (handedBack hb s).ask = s.ask := by
  cases hb with
  | none => rfl
  | some x =>
    unfold handedBack sendGiveback
    exact offerFrame_getD (P := fun t => t.ask = s.ask) _ _ _ rfl (report_ask .givebackUndelivered (releaseOther s))

/-- R90 starts no ask where one is under way or no shelf station is PRESENT. -/
theorem askJudged_of_settled {takes : Bool} {before after s : State} (h : s.ask.state ≠ .idle ∨ anyShelfPresent s.roster = false) :
    askJudged takes before after s = s := by
  have hjudge : judgeAsk s = s := by
    refine if_neg fun hx => ?_
    obtain ⟨-, -, -, hidle, hshelf⟩ := hx
    obtain hn | hn := h
    · exact hn hidle
    · exact nomatch hn.symm.trans hshelf
  unfold askJudged
  rw [hjudge, ite_self]

theorem ask_cases (u : State) : askInFlight u = true ∨ (u.ask.state = .idle ∧ anyShelfPresent u.roster = true)
    ∨ (u.ask.state = .backoff ∨ (u.ask.state = .idle ∧ anyShelfPresent u.roster = false)) := by
  unfold askInFlight
  cases u.ask.state <;> cases anyShelfPresent u.roster <;> simp

section request
variable {m : Moment} {s u : State} {f : RawFrame} {rest : List RawFrame} {v c tag : Nat} {d : Removal}

/-- A new entry made in the write that disposes of the old one, with its frames (R41, R44, R48, R63). -/
structure MadeAnew (u : State) (a : Station) (v c tag : Nat) (d : Removal) (base : MapMemory) (rot : Nat) (pl : Place) (t : State) : Prop where
  mm : t.mm = makeEntry u a v c tag base pl
  rotor : t.rotor = rot
  replaced : Replaced u a v c tag pl d.mm t.mm
  handback : ∀ hb, d.handback = some hb → { dest := hb.lender, body := .giveback hb.reason [hb.loan] } ∈ t.link.queue
  answer : { dest := a, body := .reply { tag := tag, status := .fresh, volume := v, chunk := c, part := placePart u.own pl } } ∈ t.link.queue

theorem exec_lookupWrite_anew (h : Takes m s u f rest) (hw : m.writes = []) (hc : u.cond = .ready)
    (hparse : parseRequest u.fresh f = .lookup true v c tag) (hd : decideWrite u f.source v c tag = .replaces d)
    (hp : d.handback = none ∨ u.link.occupied + 1 < 32) (hdisp : Disposed u.mm v c d.mm) (hcan : Canonical u.mm)
    (hv : (volumeOf u.mm v).state = .active) (hcount : 0 < (volumeOf u.mm v).count) {base : MapMemory} {rot : Nat} {pl : Place}
    (hbase : base = { d.mm with freeSets := base.freeSets, spares := base.spares, peers := base.peers })
    (hgot : seekGrain u f.source v c tag d.mm
      = { mm := makeEntry u f.source v c tag base pl, rotor := rot, status := .fresh, place := some pl, also := [] }) :
    ∃ t, exec (.lookupWrite m) s = .next t ∧ MadeAnew u f.source v c tag d base rot pl t := by
  have halso : Also (seekGrain u f.source v c tag d.mm).also id := by rw [hgot]; exact also_nil
  have hexec := exec_lookupWrite_replaces halso h hw hc hparse hd hp (by rw [hgot]; exact Nat.zero_le 2)
  obtain ⟨hreply, hback⟩ := disposalOver_frames halso h hc hp
  have hsame {α : Type} (field : State → α) := congrArg field
    (((also_handback d.handback).sends (disposal rest u f.source v c tag d)).trans (sends_disposalOver halso)).frame
  have hmm : (disposalOver rest u f.source v c tag d id).mm = makeEntry u f.source v c tag base pl :=
    (hsame State.mm).trans (congrArg Sought.mm hgot)
  rw [hgot] at hreply
  exact ⟨_, hexec, hmm, (hsame State.rotor).trans (congrArg Sought.rotor hgot), hmm ▸ hdisp.replaced hcan hv hcount hbase pl, hback, hreply⟩

/-- The disposal alone written, and the answer of R47. -/
theorem exec_lookupWrite_disposed (h : Takes m s u f rest) (hw : m.writes = []) (hc : u.cond = .ready)
    (hparse : parseRequest u.fresh f = .lookup true v c tag) (hd : decideWrite u f.source v c tag = .replaces d)
    (hp : d.handback = none ∨ u.link.occupied + 1 < 32) {status : Status} {also : List Task} {g : State → State} (hg : Also also g)
    (hlen : also.length ≤ 2)
    (hgot : seekGrain u f.source v c tag d.mm = { mm := d.mm, rotor := u.rotor, status := status, place := none, also := also }) :
    ∃ t y, exec (.lookupWrite m) s = .next t ∧ t.mm = d.mm ∧ t.rotor = u.rotor
      ∧ { dest := f.source, body := .reply { tag := tag, status := status, volume := v, chunk := c, part := .none } } ∈ t.link.queue
      ∧ y.ask = u.ask ∧ y.cond = .ready ∧ y.roster = u.roster ∧ t.roster = u.roster
      ∧ (((g y).ask.state ≠ .idle ∨ anyShelfPresent u.roster = false) → t.ask = (g y).ask ∧ t.faults = (g y).faults) := by
  have halso : Also (seekGrain u f.source v c tag d.mm).also g := by rw [hgot]; exact hg
  have hexec := exec_lookupWrite_replaces halso h hw hc hparse hd hp (by rw [hgot]; exact hlen)
  obtain ⟨hreply, -⟩ := disposalOver_frames halso h hc hp
  rw [hgot] at hreply
  have hback := (also_handback d.handback).sends (disposal rest u f.source v c tag d)
  have hsame {α : Type} (field : State → α) := congrArg field (hback.trans (sends_disposalOver halso)).frame
  have hbacked {α : Type} (field : State → α) := congrArg field hback.frame
  have hheld {α : Type} (field : State → α) (hx : ∀ x : State, field (reserveOther x) = field x) :
      field (reserveHandback d.handback (reserved rest u)) = field (reserved rest u) := by
    cases d.handback with
    | none => rfl
    | some x => exact hx _
  have hroster : (disposal rest u f.source v c tag d).roster = u.roster := hheld State.roster fun _ => rfl
  refine ⟨_, handedBack d.handback (disposal rest u f.source v c tag d), hexec, ?_, ?_, hreply, ?_, ?_, ?_, ?_, fun hx => ?_⟩
  · exact (hsame State.mm).trans (congrArg Sought.mm hgot)
  · exact (hsame State.rotor).trans (congrArg Sought.rotor hgot)
  · exact (handedBack_ask ..).trans (hheld State.ask fun _ => rfl)
  · exact (hbacked State.cond).trans ((hheld State.cond fun _ => rfl).trans hc)
  · exact (hbacked State.roster).trans hroster
  · exact (hsame State.roster).trans hroster
  · have hanswered : (disposalAnswered rest u f.source v c tag d g).ask
        = (g (handedBack d.handback (disposal rest u f.source v c tag d))).ask := fillReply_ask ..
    have hrost : (disposalAnswered rest u f.source v c tag d g).roster = u.roster :=
      (congrArg State.roster (((hback.trans (hg.sends _)).trans (sends_fillReply ..)).frame)).trans hroster
    have hsettled : disposalOver rest u f.source v c tag d g = disposalAnswered rest u f.source v c tag d g := by
      refine askJudged_of_settled ?_
      rw [hanswered, hrost]
      exact hx
    rw [hsettled]
    exact ⟨hanswered, fillReply_faults ..⟩

end request

/-! ## O26 and O25 -/

theorem oldEntryDisposed_found (roster : Table RosterRecord) (presence : List Bool) (mm : MapMemory) (v c : Nat) (e : Entry) :
    (∀ r t x, e.state = .pending r t x →
      disposeEntry roster presence mm v c e = rollbackChunk roster presence mm v c
        ∧ discardEntry mm v c e = removeEntry (removePending mm v c) v c)
      ∧ ∀ r t, e.state = .mapped r t →
        discardEntry mm v c e = removeEntry mm v c ∧ disposeEntry roster presence mm v c e = freeGrain roster presence (removeEntry mm v c) e.place := by
  constructor
  · intro r t x hs
    simp only [disposeEntry, discardEntry, hs, and_self]
  · intro r t hs
    simp only [disposeEntry, discardEntry, hs, and_self]

section freed
variable {roster : Table RosterRecord} {presence : List Bool} {mm : MapMemory} {lender : Station} {loan bay grain : Nat} {ep : Epoch}

theorem freeGrain_of_lost (h : judgePlace roster presence (.remote lender loan bay grain ep) = .lost) :
    freeGrain roster presence mm (.remote lender loan bay grain ep) = { mm := mm, handback := none } := by
  simp only [freeGrain, h]

theorem freeGrain_of_known (h : judgePlace roster presence (.remote lender loan bay grain ep) ≠ .lost)
    (hk : (peerOf mm lender).known = some ep) :
    freeGrain roster presence mm (.remote lender loan bay grain ep)
      = { mm := lowerInUse mm lender, handback := some { lender := lender, loan := loan, reason := .trimmed } } := by
  unfold freeGrain
  dsimp only
  split
  · rename_i hl
    exact absurd hl h
  · rw [if_pos hk]
  · rfl

theorem freeGrain_of_unknown (h : judgePlace roster presence (.remote lender loan bay grain ep) = .unreachable)
    (hk : (peerOf mm lender).known ≠ some ep) :
    freeGrain roster presence mm (.remote lender loan bay grain ep)
      = { mm := mm, handback := some { lender := lender, loan := loan, reason := .trimmed } } := by
  simp only [freeGrain, h, if_neg hk]

end freed

/-- Settles O26: the write of the disposal with each outcome of the search for a grain. -/
theorem oldEntryDisposed : Obligations.OldEntryDisposed := by
  constructor
  · intro m s u f rest v c tag e d h hparse hw hc hcan hv hcount hsize he hold reply
    have hcheck := checkChunk_of_lt_size (by rw [hc]; exact nofun) hv hsize
    have hd : decideWrite u f.source v c tag = .replaces d := by
      obtain ⟨ht, rfl⟩ | ⟨ht, hl, rfl⟩ := hold
      · exact decideWrite_of_trimmed hcheck he ht
      · exact decideWrite_of_lost hcheck he ht hl
    have hdisp : Disposed u.mm v c d.mm := by
      obtain ⟨ht, rfl⟩ | ⟨ht, hl, rfl⟩ := hold
      · exact (disposeEntry_gone u.roster u.presence he).disposed
      · exact (discardEntry_gone (ro := u.roster) (pr := u.presence) hl).disposed
    have hnothalted (status : Status) : u.cond = .halted → status = .notReady := fun hh => nomatch hc.symm.trans hh
    refine ⟨fun hback hfull => ?_, ?_⟩
    · have hroom : (d.handback.isSome && !hasPlace (reserved rest u)) = true := by
        have hno : hasPlace (reserved rest u) = false := Bool.eq_false_iff.mpr fun hx => by
          have := hasPlace_reserved.mp hx
          omega
        simp [hno, Option.isSome_iff_ne_none.mpr hback]
      have htk := takeTask_replaces (rest := rest) hc hd
      rw [if_pos hroom] at htk
      rw [exec_lookupWrite_of_takes h hparse, takes_answered h _ (plainReply tag .held v c) (hnothalted _) htk]
      rfl
    · intro hp hmap hlist expiry entry made taken
      have hmap' : d.mm.chunks.length < Config.mapPlaces := by
        have := length_tableErase_of_some he
        rw [hdisp.chunks]
        omega
      refine ⟨fun bay grain hg => ?_, ?_, fun hg hs => ?_⟩
      · obtain ⟨t, hexec, ht⟩ := exec_lookupWrite_anew h hw hc hparse hd hp hdisp hcan hv hcount (by exact rfl)
          (seekGrain_of_grain hmap' hlist (taken := taken) rfl hg)
        obtain ⟨hmm, hrot, hr, hb, ha⟩ := ht
        rw [makeEntry_eq (by exact hdisp.trims)] at hmm
        exact ⟨t, ⟨hexec, hr.entry, hr.others, hr.volumes, hr.loans, hr.trims, hr.pendings, hb, ha⟩, by rw [hmm], hrot, by rw [hmm],
          by rw [hmm]⟩
      · intro front sp back hg hl hf hsp p
        obtain ⟨t, hexec, ht⟩ := exec_lookupWrite_anew h hw hc hparse hd hp hdisp hcan hv hcount (by exact rfl)
          (seekGrain_of_spare hmap' hlist hg (takeSpare_of_front hl hf hsp))
        obtain ⟨hmm, hrot, hr, hb, ha⟩ := ht
        rw [makeEntry_eq (by exact hdisp.trims)] at hmm
        exact ⟨t, ⟨hexec, hr.entry, hr.others, hr.volumes, hr.loans, hr.trims, hr.pendings, hb, ha⟩, by rw [hmm]; rfl, hrot,
          by rw [hmm]; rfl, by rw [hmm]; rfl⟩
      · have hgot := seekGrain_of_none (a := f.source) (v := v) (c := c) (tag := tag) hmap' hlist hg hs
        obtain hfl | ⟨hi, hshelf⟩ | hno := ask_cases u
        · obtain ⟨t, y, hexec, hmm, hrot, hreply, hask, -, -, -, hafter⟩ :=
            exec_lookupWrite_disposed h hw hc hparse hd hp also_nil (by decide) (hgot.trans (noGrain_of_inFlight hfl))
          have hbusy : u.ask.state ≠ .idle := fun hx => by simp [askInFlight, hx] at hfl
          refine ⟨t, hexec, hmm, hrot, fun _ => ⟨hreply, (hafter (.inl ?_)).1.trans hask⟩, fun hx => absurd hx hbusy, fun hx => ?_⟩
          · exact fun hx => hbusy (hask ▸ hx)
          · obtain hx | ⟨hx, _⟩ := hx <;> simp [askInFlight, hx] at hfl
        · obtain ⟨t, y, hexec, hmm, hrot, hreply, hask, hcond, hrost, -, hafter⟩ :=
            exec_lookupWrite_disposed h hw hc hparse hd hp also_startAsk (by decide) (hgot.trans (noGrain_of_idle hi hshelf))
          obtain ⟨hid, hstate, -⟩ := startAsk_ask hcond (hask ▸ hi)
          have hend := (hafter (.inl hstate)).1
          refine ⟨t, hexec, hmm, hrot, fun hx => ?_, fun _ _ => ⟨hreply, ?_, ?_⟩, fun hx => ?_⟩
          · simp [askInFlight, hi] at hx
          · rw [hend, hid, hask]
          · rw [hend]
            exact hstate
          · obtain hx | ⟨_, hx⟩ := hx
            · exact nomatch hi.symm.trans hx
            · exact nomatch hshelf.symm.trans hx
        · obtain ⟨t, y, hexec, hmm, hrot, hreply, hask, -, -, -, hafter⟩ :=
            exec_lookupWrite_disposed h hw hc hparse hd hp also_noSpace (by decide) (hgot.trans (noGrain_of_refused hno))
          have hkept : (spaceRefused y).ask = u.ask := (report_ask .noSpace y).trans hask
          obtain ⟨hask', hfaults⟩ := hafter (hno.imp (fun hx => by rw [hkept, hx]; exact nofun) And.right)
          refine ⟨t, hexec, hmm, hrot, fun hx => ?_, fun hx hx' => ?_, fun _ => ⟨hreply, ?_, hask'.trans hkept⟩⟩
          · obtain hn | ⟨hn, _⟩ := hno <;> simp [askInFlight, hn] at hx
          · obtain hn | ⟨_, hn⟩ := hno
            · exact nomatch hx.symm.trans hn
            · exact nomatch hx'.symm.trans hn
          · rw [hfaults]
            exact report_has_self .noSpace y
  · intro roster presence mm v c e rec0 gone
    obtain ⟨hpending, hmapped⟩ := oldEntryDisposed_found roster presence mm v c e
    refine ⟨hpending, fun r t hs => ?_⟩
    obtain ⟨hdiscard, hdispose⟩ := hmapped r t hs
    refine ⟨hdiscard, fun bay grain hpl => ?_, fun lender loan bay grain ep hpl => ?_⟩
    · rw [hdispose, hpl]
      rfl
    · intro p
      rw [hdispose, hpl]
      exact ⟨freeGrain_of_lost, fun hl hk => freeGrain_of_known hl hk, fun hl hk => freeGrain_of_unknown hl hk⟩

/-- Settles O25: the disposals of O26 that hand nothing back and leave the lender's record alone. -/
theorem writeReplacesOldEntry : Obligations.WriteReplacesOldEntry := by
  intro m s u f rest v c tag e r t0 sets taken bay grain h hparse hw hc hcan hv hcount hsize he hs hmap hlist hold ht hg expiry
  obtain ⟨hdiscard, hdispose⟩ := (oldEntryDisposed_found u.roster u.presence u.mm v c e).2 r t0 hs
  have hdisposal := oldEntryDisposed.1 m s u f rest v c tag e { mm := { removeEntry u.mm v c with freeSets := sets }, handback := none } h hparse
    hw hc hcan hv hcount hsize he (by
      obtain ⟨htrim, b, g, hpl, rfl⟩ | ⟨hlive, hl, rfl⟩ := hold
      · exact .inl ⟨htrim, by rw [hdispose, hpl]; rfl⟩
      · exact .inr ⟨hlive, hl, by rw [hdiscard]; rfl⟩)
  obtain ⟨t, ⟨hexec, hentry, hothers, hvols, hloans, htrims, hpend, -, hreply⟩, hsets, hrot, hspares, hpeers⟩ :=
    (hdisposal.2 (.inl rfl) hmap hlist).1 bay grain (by rw [← ht]; exact hg)
  refine ⟨t, hexec, hentry, hothers, ?_, ?_, hvols, hpeers, hspares, hloans, htrims, hpend, hreply⟩
  · rw [hsets, ← ht]
  · rw [hrot, ← ht]

end Sys2Proof.Machine

/-! STATUS, CLEAR and malformed requests (R23, R36, R37, R147, R171, R172). -/

namespace Sys2Proof.Machine

section request
variable {m : Moment} {s u : State} {f : RawFrame} {rest : List RawFrame}

/-- An answer queued at once, whatever else the request has changed. -/
theorem settle_answer {m : Moment} {v : State} {d : Station} {r : Reply} (hp : hasReplyPlace v = true) (hs : servesRequests v)
    (hc : v.cond = .halted → r.status = .notReady) (ht : v.tasks = []) :
    settle m (answer d r v) = pushFrame { dest := d, body := .reply r } v := by
  rw [answer_ok hp hs hc]
  exact settle_nil ht

theorem requestOf_not_malformed {kind : Nat} {p : List Byte} {req : Request} (h : requestOf kind p = some req) (v c tag : Nat) :
    req ≠ .malformed v c tag := by
  rintro rfl
  unfold requestOf at h
  repeat' split at h
  all_goals exact nomatch h

/-- A malformed request names what `malformedRequest` reads in its payload. -/
theorem malformedRequest_of_parse {fresh v c tag : Nat} (h : parseRequest fresh f = .malformed v c tag) :
    malformedRequest fresh f.kind.toNat f.payload = .malformed v c tag := by
  unfold parseRequest at h
  split at h
  · cases hr : requestOf f.kind.toNat f.payload with
    | none => rwa [hr] at h
    | some req =>
      rw [hr] at h
      exact absurd h (requestOf_not_malformed hr v c tag)
  · exact h

theorem bytesAt_of_short {p : List Byte} {pos len : Nat} (h : p.length < pos + len) : bytesAt p pos len = 0 :=
  if_neg (Nat.not_le.mpr h)

theorem recordStatus_of_halted {c : Condition} (h : c = .halted) : recordStatus c = .notReady := if_pos h

theorem refusalStatus_of_halted {c : Condition} (h : c = .halted) : refusalStatus c = .notReady := if_pos h

theorem exec_statusPage0_of_takes (h : Takes m s u f rest) {tag : Nat} (hparse : parseRequest u.fresh f = .pageZero tag) :
    exec (.statusPage0 m) s
      = .next (withAnswer f rest (recordReply u tag (.pageZero (pageZeroOf { u with buffer := rest }))) { u with fresh := u.fresh + 1 }) := by
  refine (takes_run h _ _ (by rw [hparse])).trans (congrArg Host.Outcome.next ?_)
  exact settle_answer (v := { u with buffer := rest, fresh := u.fresh + 1 }) (takes_place h :) (takes_srv h :)
    (fun hc => recordStatus_of_halted hc) (takes_tasks h :)

theorem exec_statusPage1_of_takes (h : Takes m s u f rest) {tag : Nat} (hparse : parseRequest u.fresh f = .pageOne tag) :
    exec (.statusPage1 m) s = .next (withAnswer f rest (recordReply u tag (pageOneOf u)) u) := by
  refine (takes_run h _ _ (by rw [hparse])).trans (congrArg Host.Outcome.next ?_)
  exact settle_answer (v := { u with buffer := rest }) (takes_place h :) (takes_srv h :) (fun hc => recordStatus_of_halted hc) (takes_tasks h :)

/-- The station with flags and counters cleared. -/
def clearedFaults (named : BitVec 13) (zero : Bool) (u : State) : State := judgeAttention { u with faults := u.faults.clear named zero }

theorem exec_clear_of_takes (h : Takes m s u f rest) {named : BitVec 13} {zero : Bool} {tag : Nat}
    (hparse : parseRequest u.fresh f = .clear named zero tag) :
    exec (.clear m) s
      = .next (withAnswer f rest (recordReply u tag (pageOneOf (clearedFaults named zero u))) (clearedFaults named zero u)) := by
  refine (takes_run h _ _ (by rw [hparse])).trans (congrArg Host.Outcome.next ?_)
  exact settle_answer (v := clearedFaults named zero { u with buffer := rest }) (takes_place h :) (takes_srv h :)
    (fun hc => recordStatus_of_halted hc) (takes_tasks h :)

theorem exec_malformedRequest_of_takes (h : Takes m s u f rest) {v c tag : Nat} (hparse : parseRequest u.fresh f = .malformed v c tag) :
    exec (.malformedRequest m) s
      = .next (withAnswer f rest (plainReply tag (refusalStatus u.cond) v c) { u with fresh := u.fresh + 1 }) := by
  refine (takes_run h _ _ (by rw [hparse])).trans (congrArg Host.Outcome.next ?_)
  exact settle_answer (v := { u with buffer := rest, fresh := u.fresh + 1 }) (takes_place h :) (takes_srv h :)
    (fun hc => refusalStatus_of_halted hc) (takes_tasks h :)

theorem exec_unknownAction_of_takes (h : Takes m s u f rest) {v tag : Nat} (hparse : parseRequest u.fresh f = .unknownAction v tag) :
    exec (.malformedRequest m) s
      = .next (withAnswer f rest (volumeReply (volumesRead u) u.mm tag (refusalStatus u.cond) v) u) := by
  refine (takes_run h _ _ (by rw [hparse])).trans (congrArg Host.Outcome.next ?_)
  exact settle_answer (v := { u with buffer := rest }) (takes_place h :) (takes_srv h :)
    (fun hc => refusalStatus_of_halted hc) (takes_tasks h :)

end request

theorem clearedFaults_eq {named : BitVec 13} {zero : Bool} {u : State} (hstart : u.cond ≠ .start) :
    clearedFaults named zero u
      = { u with
          faults := u.faults.clear named zero
          attention := decide (u.faults.flags &&& ~~~named &&& u.faults.enables ≠ 0) } := by
  unfold clearedFaults judgeAttention attentionOf
  rw [decide_eq_true hstart, Bool.true_and]
  rfl

/-- Where the tag of a request stands in the layout of its kind (R155). -/
def tagPlace (kind : Nat) : Nat :=
  if kind = 7 then 5 else if kind = 8 then 4 else if kind = 9 then 8 else if kind = 10 then 6 else if kind = 11 then 1 else 3

/-- The names of a malformed request, by its kind. -/
theorem malformed_named {fresh kind : Nat} {p : List Byte} {v c tag : Nat} (h : malformedRequest fresh kind p = .malformed v c tag) :
    tag = bytesAt p (tagPlace kind) 2
      ∧ (kind = 7 ∨ kind = 8 ∨ kind = 9 → v = namedVolume fresh p ∧ c = namedChunk fresh p)
      ∧ (kind = 10 → v = bytesAt p 1 1 ∧ c = 0)
      ∧ (kind = 11 ∨ kind = 12 → v = 0 ∧ c = 0) := by
  unfold malformedRequest at h
  repeat' split at h
  all_goals
    obtain ⟨rfl, rfl, rfl⟩ := Request.malformed.inj h
    simp_all [tagPlace]

/-- Settles O31: the answer of each command, and what a malformed payload names. -/
theorem statusAndMalformed : Obligations.StatusAndMalformed := by
  refine ⟨fun m s u f rest tag h => ⟨fun hparse => ?_, fun hparse => ?_, fun named zero hparse => ?_⟩,
    fun m s u f rest v c tag h hparse => ?_, fun m s u f rest v tag h hparse => ?_, fun fresh f v c tag hparse hlo hhi => ?_⟩
  · exact ⟨_, exec_statusPage0_of_takes h hparse, rfl, rfl, rfl, rfl, rfl, rfl, rfl, rfl, rfl,
      fun hup => ⟨if_pos hup, if_pos hup⟩, fun hread => ⟨if_pos hread, if_pos hread⟩⟩
  · exact exec_statusPage1_of_takes h hparse
  · have hstart : u.cond ≠ .start := by
      obtain hc | ⟨hc, _⟩ | hc := takes_srv h <;> simp [hc]
    rw [exec_clear_of_takes h hparse, clearedFaults_eq hstart]
    rfl
  · exact exec_malformedRequest_of_takes h hparse
  · have hread : (volumesRead u = true ∧ (volumeOf u.mm v).state = .active)
        = ((u.cond ≠ .halted ∨ u.headerRead = true) ∧ (volumeOf u.mm v).state = .active) := by
      simp [volumesRead]
    rw [exec_unknownAction_of_takes h hparse, volumeReply]
    simp only [hread]
    rfl
  · have hbad := malformedRequest_of_parse hparse
    obtain ⟨htag, hchunk, hvolume, hrecord⟩ := malformed_named hbad
    have hkind (k : Nat) (hk : k < 32) : f.kind = BitVec.ofNat 5 k ↔ f.kind.toNat = k := by
      rw [← BitVec.toNat_inj, BitVec.toNat_ofNat, Nat.mod_eq_of_lt hk]
    have h7 : f.kind = 7 ↔ f.kind.toNat = 7 := hkind 7 (by decide)
    have h8 : f.kind = 8 ↔ f.kind.toNat = 8 := hkind 8 (by decide)
    have h9 : f.kind = 9 ↔ f.kind.toNat = 9 := hkind 9 (by decide)
    have h10 : f.kind = 10 ↔ f.kind.toNat = 10 := hkind 10 (by decide)
    have h11 : f.kind = 11 ↔ f.kind.toNat = 11 := hkind 11 (by decide)
    have h12 : f.kind = 12 ↔ f.kind.toNat = 12 := hkind 12 (by decide)
    simp only [h7, h8, h9, h10, h11, h12]
    refine ⟨fun at_ hat => ?_, fun hk => ?_, fun hk => ?_, fun hk => ?_⟩
    · obtain rfl : at_ = tagPlace f.kind.toNat := hat
      exact ⟨fun _ => htag, fun hshort => htag.trans (bytesAt_of_short hshort)⟩
    · obtain ⟨rfl, rfl⟩ := hchunk hk
      exact ⟨fun h1 => if_pos h1, fun h4 => if_pos h4⟩
    · obtain ⟨rfl, rfl⟩ := hvolume hk
      exact ⟨rfl, fun _ => rfl, fun hshort => bytesAt_of_short hshort⟩
    · exact hrecord hk

end Sys2Proof.Machine

/-! RETURN_STEP: spares handed back (R104). -/

namespace Sys2Proof.Machine

/-- The first `n` members a test picks stand in the shortest front part that holds as many. -/
theorem pickFirst_of_append {α : Type} {test : α → Bool} {n : Nat} {a b : List α}
    (h : a.countP test = min n ((a ++ b).countP test)) :
    pickFirst test n (a ++ b) = (a.filter test, a.filter (fun x => !test x) ++ b) := by
  induction a generalizing n with
  | nil =>
    rw [List.nil_append]
    have hnone : n = 0 ∨ b.countP test = 0 := by
      simp only [List.countP_nil, List.nil_append] at h
      omega
    clear h
    induction b with
    | nil => rfl
    | cons x b ih =>
      cases n with
      | zero => rfl
      | succ k =>
        have hb := hnone.resolve_left (Nat.succ_ne_zero k)
        rw [List.countP_cons] at hb
        have hx : test x = false := Bool.eq_false_iff.mpr fun hx => by simp [hx] at hb
        have hrest := ih (.inr (by omega))
        simp [pickFirst, hx, hrest]
  | cons x a ih =>
    cases n with
    | zero =>
      have hnone : ∀ y ∈ x :: a, ¬ test y = true := List.countP_eq_zero.mp (h.trans (Nat.zero_min _))
      rw [List.filter_eq_nil_iff.mpr hnone, List.filter_eq_self.mpr fun y hy => by simp [hnone y hy]]
      rfl
    | succ k =>
      rw [List.cons_append] at h ⊢
      simp only [List.countP_cons] at h
      cases hx : test x with
      | true =>
        rw [hx, if_pos rfl] at h
        have hrest := ih (n := k) (by omega)
        simp [pickFirst, hx, hrest]
      | false =>
        rw [hx] at h
        have hrest := ih (n := k + 1) (by simpa using h)
        simp [pickFirst, hx, hrest]

/-- The spares a return step takes: usable ones of the lender of the back-most. -/
def goesBack (roster : Table RosterRecord) (sp : Spare) (x : Spare) : Bool := spareUsable roster x && x.lender == sp.lender

section split
variable {roster : Table RosterRecord} {mm : MapMemory} {front back kept tail : List Spare} {sp : Spare}

theorem returnStepOf_none (h : ∀ x ∈ mm.spares, spareUsable roster x = false) : returnStepOf roster mm = none := by
  have hfind : mm.spares.reverse.find? (spareUsable roster) = none :=
    List.find?_eq_none.mpr fun x hx => ne_true_of_eq_false (h x (List.mem_reverse.mp hx))
  rw [returnStepOf, hfind]

theorem returnStepOf_split (hl : mm.spares = front ++ sp :: back) (hs : spareUsable roster sp = true)
    (hb : ∀ x ∈ back, spareUsable roster x = false) (hk : mm.spares = kept ++ tail)
    (hn : tail.countP (goesBack roster sp) = min 8 (mm.spares.countP (goesBack roster sp))) :
    returnStepOf roster mm
      = some { lender := sp.lender, loans := (tail.reverse.filter (goesBack roster sp)).map (·.loan)
               mm := setPeer { mm with spares := kept ++ tail.filter fun x => !goesBack roster sp x } sp.lender
                 { peerOf mm sp.lender with spare := (peerOf mm sp.lender).spare - tail.countP (goesBack roster sp) } } := by
  have hfind : mm.spares.reverse.find? (spareUsable roster) = some sp := by
    have hskip : ∀ x ∈ back.reverse, ¬ spareUsable roster x = true := fun x hx => ne_true_of_eq_false (hb x (List.mem_reverse.mp hx))
    rw [hl, List.reverse_append, List.reverse_cons, List.append_assoc, List.find?_append, List.find?_eq_none.mpr hskip, Option.none_or,
      List.singleton_append, List.find?_cons_of_pos hs]
  have hpick : pickFirst (goesBack roster sp) 8 mm.spares.reverse
      = (tail.reverse.filter (goesBack roster sp), tail.reverse.filter (fun x => !goesBack roster sp x) ++ kept.reverse) := by
    have hcount : tail.reverse.countP (goesBack roster sp) = min 8 ((tail.reverse ++ kept.reverse).countP (goesBack roster sp)) := by
      rw [← List.reverse_append, ← hk, List.countP_reverse, List.countP_reverse, hn]
    rw [hk, List.reverse_append]
    exact pickFirst_of_append hcount
  have hkept : (tail.reverse.filter (fun x => !goesBack roster sp x) ++ kept.reverse).reverse = kept ++ tail.filter fun x => !goesBack roster sp x := by
    rw [List.reverse_append, List.reverse_reverse, ← List.filter_reverse, List.reverse_reverse]
  have hlen : (tail.reverse.filter (goesBack roster sp)).length = tail.countP (goesBack roster sp) := by
    rw [← List.countP_eq_length_filter, List.countP_reverse]
  have hpick' : pickFirst (fun x => spareUsable roster x && x.lender == sp.lender) Config.frameLoans mm.spares.reverse = _ := hpick
  rw [returnStepOf, hfind]
  dsimp only
  rw [hpick']
  dsimp only
  rw [hkept, hlen]

end split

theorem returnDue_iff {u : State} :
    returnDue u = true ↔ (u.cond = .ready ∧ u.flush = true) ∨ (u.cond = .drain ∧ u.drainEnded = false) := by
  simp [returnDue]

theorem exec_returnStep_on {m : Moment} {s u : State} (hon : OnAt m s u) : exec (.returnStep m) s = .next (perform m [.returnStep] u) := by
  dsimp only [exec, execReturnStep]
  rw [whenOn_at hon]

theorem takeReturnStep_of_nothing {s : State} (h : returnDue s = false ∨ hasPlace s = false ∨ returnStepOf s.roster s.mm = none) :
    takeReturnStep s = noWrite s := by
  unfold takeReturnStep
  obtain h | h | h := h
  · rw [h]
    rfl
  · rw [h, Bool.and_false]
    rfl
  · rw [h, ite_self]

theorem takeReturnStep_of_step {s : State} {r : ReturnStep} (hd : returnDue s = true) (hp : hasPlace s = true)
    (hr : returnStepOf s.roster s.mm = some r) :
    takeReturnStep s = writing (reserveOther s) r.mm [.giveback true r.lender .unused r.loans] [] [.releaseOther, .mapMemError] := by
  rw [takeReturnStep, hd, hp, hr]
  rfl

/-- A return step carried through, where the end of a drain has its place. -/
theorem perform_returnStep {m : Moment} {u : State} (hi : u.inflight = none) (ht : u.tasks = []) (hw : m.writes = []) {r : ReturnStep}
    (hd : returnDue u = true) (hp : hasPlace u = true) (hr : returnStepOf u.roster u.mm = some r)
    (hless : r.mm.spares.length ≠ u.mm.spares.length)
    (hplace : u.cond = .ready
      ∨ hasPlace (pushFrame { dest := r.lender, body := .giveback .unused r.loans } { u with mm := r.mm }) = true) :
    perform m [.returnStep] u
      = judgeQuiet (judgeAsk (pushFrame { dest := r.lender, body := .giveback .unused r.loans } { u with mm := r.mm })) := by
  have hworks : u.cond = .ready ∨ u.cond = .drain := (returnDue_iff.mp hd).imp And.left And.left
  let w : MapWrite := { image := r.mm, rotor := u.rotor, takes := false, onDone := [.giveback true r.lender .unused r.loans], goOn := []
                        onFail := [.releaseOther, .mapMemError] }
  have hreleased : releaseOther (written w (reserveOther u)) = { u with mm := r.mm } := by
    show ({ u with mm := r.mm, inflight := none } : State) = { u with mm := r.mm }
    rw [← hi]
  have hsent : sendGiveback r.lender .unused r.loans (releaseOther (written w (reserveOther u)))
      = pushFrame { dest := r.lender, body := .giveback .unused r.loans } { u with mm := r.mm } := by
    have htaken := offerFrame_of_place (f := { dest := r.lender, body := .giveback .unused r.loans }) (s := { u with mm := r.mm }) hworks rfl hp
    rw [hreleased, sendGiveback, htaken]
    rfl
  have hjudged (x : State) : askJudged w.takes (reserveOther u) (written w (reserveOther u)) x = judgeAsk x :=
    if_pos (.inr (.inr (Ne.symm hless)))
  have hquiet (x : State) : quietJudged (reserveOther u) (written w (reserveOther u)) x = judgeQuiet x :=
    if_pos (.inr (.inr fun h => hless (congrArg List.length (show u.mm.spares = r.mm.spares from h)).symm))
  have htasks : (judgeAsk (pushFrame { dest := r.lender, body := .giveback .unused r.loans } { u with mm := r.mm })).tasks = [] :=
    (judgeAsk_tasks _).trans ht
  have hend : (judgeQuiet (judgeAsk (pushFrame { dest := r.lender, body := .giveback .unused r.loans } { u with mm := r.mm }))).tasks = [] := by
    obtain hc | hc := hworks
    · rw [judgeQuiet_of_cond (by rw [judgeAsk_cond]; exact fun h => nomatch hc.symm.trans h), htasks]
    · have hsame := judgeAsk_of_cond (s := pushFrame { dest := r.lender, body := .giveback .unused r.loans } { u with mm := r.mm })
        fun h => nomatch hc.symm.trans h
      rw [hsame] at htasks ⊢
      exact judgeQuiet_tasks_of_place (hplace.resolve_left fun h => nomatch hc.symm.trans h) htasks
  have hdone := perform_completed (m := m) (t := .returnStep) (w := w) hi ht hw (takeReturnStep_of_step hd hp hr)
    (does_giveback_reserved r.lender .unused r.loans).one (Nat.le_of_ble_eq_true rfl) rfl ht
  rw [hsent, hjudged, hquiet, withTasks_self htasks] at hdone
  exact hdone hend

/-- Settles O36: the back-most usable spares of one lender, and what the write calls for. -/
theorem sparesReturned : Obligations.SparesReturned := by
  refine fun m s u hrest hw => ⟨fun hno => ?_, returnDue_iff, ?_⟩
  · have hnone : returnDue u = false ∨ hasPlace u = false ∨ returnStepOf u.roster u.mm = none := hno.imp_right (Or.imp_right returnStepOf_none)
    rw [exec_returnStep_on hrest.onAt, perform_noWrite (t := .returnStep) (s' := u) hrest.inflight hrest.tasks (takeReturnStep_of_nothing hnone)
      hrest.tasks]
  · intro front sp back kept tail hd hp hl hs hb goes
    have hgoes : goes = goesBack u.roster sp := rfl
    clear_value goes
    subst hgoes
    intro hk hn p done hplace
    have hr := returnStepOf_split hl hs hb hk hn
    have hsome : 0 < tail.countP (goesBack u.roster sp) := by
      have hall : 0 < u.mm.spares.countP (goesBack u.roster sp) := by
        refine List.countP_pos_iff.mpr ⟨sp, ?_, ?_⟩
        · rw [hl]
          simp
        · simp [goesBack, hs]
      omega
    have hless : (kept ++ tail.filter fun x => !goesBack u.roster sp x).length ≠ u.mm.spares.length := by
      have hsplit := List.length_eq_countP_add_countP (goesBack u.roster sp) (l := tail)
      have hrest : (tail.filter fun x => !goesBack u.roster sp x).length = tail.countP fun x => ¬ goesBack u.roster sp x = true := by
        rw [← List.countP_eq_length_filter]
        simp
      rw [hk, List.length_append, List.length_append, hrest]
      omega
    rw [exec_returnStep_on hrest.onAt]
    have hperform := perform_returnStep (m := m) hrest.inflight hrest.tasks hw hd hp hr hless hplace
    exact congrArg Host.Outcome.next hperform

end Sys2Proof.Machine

/-! HALTED entered after a failed map memory write (R100, R117, R127, R153, R167). -/

namespace Sys2Proof.Machine

/-! ## Owners told in HALTED -/

/-- What the owners of frames removed in HALTED do, the ask machine being IDLE: flags are set, and a QUEUED offer whose frame goes is over. -/
structure HaltTold (fs : List OutFrame) (s t : State) : Prop where
  frame : t = { s with faults := t.faults, attention := t.attention, offer := t.offer }
  flags : ∀ f : Flag, s.faults.has f = true → t.faults.has f = true
  offer : t.offer = s.offer ∨ (t.offer = OfferMachine.reset ∧ s.offer.state = .queued
    ∧ ∃ o, s.offer.current = some o ∧ ∃ f ∈ fs, isOfferOf o f.body = true)

theorem HaltTold.of_reported {fs : List OutFrame} {s t : State} (h : Reported s t) : HaltTold fs s t where
  frame := by
    have hoffer : t.offer = s.offer := by rw [h.frame]
    rw [hoffer]
    exact h.frame
  flags := h.flags
  offer := .inl (by rw [h.frame])

theorem toldDropped_halted {s : State} (hc : s.cond = .halted) (hi : s.ask.state = .idle) (f : OutFrame) :
    HaltTold [f] s (toldDropped f.body s) := by
  have hsame : HaltTold [f] s s := .of_reported (.refl s)
  have hreport (g : Flag) : HaltTold [f] s (report g s) := .of_reported (report_of_refuses (.inr (.inr hc)) g)
  cases hb : f.body with
  | ask i w =>
    rw [toldDropped, if_neg (fun h => by simp [hi] at h)]
    exact hsame
  | take i n =>
    rw [toldDropped, if_neg (fun h => by simp [hi] at h)]
    exact hsame
  | offer i a n d =>
    rw [toldDropped]
    split
    · rename_i hx
      obtain ⟨hq, hany⟩ := hx
      obtain ⟨o, ho, hof⟩ := (Option.any_eq_true _ _).mp hany
      exact ⟨rfl, fun _ h => h, .inr ⟨rfl, hq, o, ho, f, List.mem_singleton_self f, hb ▸ hof⟩⟩
    · exact hsame
  | grant i rs => exact hreport _
  | giveback r ls => exact hreport _
  | reply r => exact hsame
  | hail h => exact hsame
  | alert g c => exact hsame

theorem toldRemoved_halted {s : State} (hc : s.cond = .halted) (hi : s.ask.state = .idle) (fs : List OutFrame) :
    HaltTold fs s (toldRemoved fs s) := by
  induction fs generalizing s with
  | nil => exact .of_reported (.refl s)
  | cons f fs ih =>
    have hone := toldDropped_halted hc hi f
    have hrest := ih (s := toldDropped f.body s) (by rw [hone.frame]; exact hc) (by rw [hone.frame]; exact hi)
    have hframe {v t : State} (hv : v = { s with faults := v.faults, attention := v.attention, offer := v.offer })
        (ht : t = { v with faults := t.faults, attention := t.attention, offer := t.offer }) :
        t = { s with faults := t.faults, attention := t.attention, offer := t.offer } := by rw [ht, hv]
    refine ⟨hframe hone.frame hrest.frame, fun g hg => hrest.flags g (hone.flags g hg), ?_⟩
    rw [show toldRemoved (f :: fs) s = toldRemoved fs (toldDropped f.body s) from rfl]
    obtain hsame | ⟨hreset, hq, o, ho, g, hg, hof⟩ := hrest.offer
    · obtain hsame' | ⟨hreset, hq, o, ho, g, hg, hof⟩ := hone.offer
      · exact .inl (hsame.trans hsame')
      · exact .inr ⟨hsame.trans hreset, hq, o, ho, g, List.mem_cons.mpr (.inl (List.mem_singleton.mp hg)), hof⟩
    · obtain hsame' | ⟨hreset', _⟩ := hone.offer
      · rw [hsame'] at hq ho
        exact .inr ⟨hreset, hq, o, ho, g, List.mem_cons_of_mem f hg, hof⟩
      · rw [hreset'] at hq
        exact nomatch hq

/-! ## A report and the link -/

theorem report_link (f : Flag) (s : State) :
    (report f s).link = s.link
      ∨ ∃ c, (report f s).link = { s.link with queue := insertFrame s.link.queue { dest := broadcast, body := .alert f c } } := by
  unfold report judgeAttention
  dsimp only
  split
  · exact offerFrame_getD (P := fun t => t.link = s.link
      ∨ ∃ c, t.link = { s.link with queue := insertFrame s.link.queue { dest := broadcast, body := .alert f c } }) _ _ _ (.inr ⟨_, rfl⟩) (.inl rfl)
  · exact .inl rfl

theorem report_hand (f : Flag) (s : State) : (report f s).link.hand = s.link.hand := by
  obtain h | ⟨_, h⟩ := report_link f s <;> rw [h]

theorem mem_report_queue {f : Flag} {s : State} {g : OutFrame} (h : g ∈ (report f s).link.queue) :
    g ∈ s.link.queue ∨ ∃ c, g.body = .alert f c := by
  obtain hl | ⟨c, hl⟩ := report_link f s
  · exact .inl (hl ▸ h)
  · rw [hl] at h
    obtain rfl | h := mem_insertFrame.mp h
    · exact .inr ⟨c, rfl⟩
    · exact .inl h

/-! ## HALTED entered -/

/-- The station with its machines stopped, on its way to HALTED. -/
def haltStopped (s : State) : State :=
  stopOffer { s with cond := .halted, drainTimer := none, drainEnded := false, walkerTimer := none, ask := s.ask.stopped }

/-- The frames that HALTED removes. -/
def haltRemoved (l : Link) : List OutFrame :=
  ((l.hand.filter fun h => !(h.driving.isSome || h.frame.sentInHalted)).map (·.frame)).toList ++ l.queue.filter fun f => !f.sentInHalted

/-- The station in HALTED, the owners of the removed frames not yet told. -/
def haltCleared (s : State) : State :=
  { haltStopped s with
    link := { (haltStopped s).link with
      queue := (haltStopped s).link.queue.filter OutFrame.sentInHalted
      hand := (haltStopped s).link.hand.filter fun h => h.driving.isSome || h.frame.sentInHalted } }

theorem enterHalted_eq (s : State) : enterHalted s = toldRemoved (haltRemoved (haltStopped s).link) (haltCleared s) := rfl

theorem haltStopped_frame (s : State) :
    haltStopped s
      = { s with
          cond := .halted, drainTimer := none, drainEnded := false, walkerTimer := none, ask := s.ask.stopped
          offer := (haltStopped s).offer, link := (haltStopped s).link } := by
  unfold haltStopped
  rw [stopOffer_frame]

theorem enterHalted_told (s : State) : HaltTold (haltRemoved (haltStopped s).link) (haltCleared s) (enterHalted s) := by
  have hframe := haltStopped_frame s
  have hsame {α : Type} (field : State → α) := congrArg field hframe
  refine toldRemoved_halted ?_ ?_ _
  · exact hsame State.cond
  · exact congrArg AskMachine.state (hsame State.ask)

/-- What HALTED leaves of the station (R100, R153, R167). -/
theorem enterHalted_cleared (s : State) :
    enterHalted s
      = { s with
          cond := .halted, drainTimer := none, drainEnded := false, walkerTimer := none, ask := s.ask.stopped
          offer := (enterHalted s).offer, link := (haltCleared s).link, faults := (enterHalted s).faults
          attention := (enterHalted s).attention } := by
  refine (enterHalted_told s).frame.trans ?_
  show ({ haltCleared s with faults := _, attention := _, offer := _ } : State) = _
  unfold haltCleared
  rw [haltStopped_frame]

theorem enterHalted_flags {s : State} {f : Flag} (h : s.faults.has f = true) : (enterHalted s).faults.has f = true := by
  refine (enterHalted_told s).flags f ?_
  have hfaults : (haltStopped s).faults = s.faults := (congrArg State.faults (haltStopped_frame s) :)
  show (haltStopped s).faults.has f = true
  rwa [hfaults]

theorem enterHalted_queue {s : State} {f : OutFrame} (h : f ∈ (enterHalted s).link.queue) : f.sentInHalted = true := by
  rw [enterHalted_cleared] at h
  exact (List.mem_filter.mp h).2

section offer
variable {s : State}

theorem enterHalted_offer_of_stopped (h : (haltStopped s).offer.state ≠ .queued) : (enterHalted s).offer = (haltStopped s).offer := by
  obtain hsame | ⟨_, hq, _⟩ := (enterHalted_told s).offer
  · exact hsame
  · exact absurd hq h

theorem enterHalted_offer_of_idle (h : s.offer.state = .idle) : (enterHalted s).offer = s.offer := by
  have hstop : (haltStopped s).offer = s.offer := by
    unfold haltStopped stopOffer
    simp only [h]
  rw [enterHalted_offer_of_stopped (by rw [hstop, h]; exact nofun), hstop]

theorem enterHalted_offer_of_open (h : s.offer.state = .armed ∨ s.offer.state = .waiting) : (enterHalted s).offer = OfferMachine.reset := by
  have hstop : (haltStopped s).offer = OfferMachine.reset := by
    unfold haltStopped
    rw [stopOffer_of_open (by exact h)]
  rw [enterHalted_offer_of_stopped (by rw [hstop]; exact nofun), hstop]

theorem enterHalted_offer_of_queued (h : s.offer.state = .queued) {o : OpenOffer} (ho : s.offer.current = some o)
    (hd : isDriving (isOfferOf o) s = false) : (enterHalted s).offer = OfferMachine.reset := by
  have hstop : (haltStopped s).offer = OfferMachine.reset := by
    unfold haltStopped
    rw [stopOffer_of_queued (by exact h), withdrawOffer_not_driving (o := o) true (by exact ho) (by exact hd)]
    rfl
  rw [enterHalted_offer_of_stopped (by rw [hstop]; exact nofun), hstop]

/-- An OFFER on the link keeps its offer open to the link's report, where no other frame is that OFFER (R117). -/
theorem enterHalted_offer_of_driving (h : s.offer.state = .queued) {o : OpenOffer} (ho : s.offer.current = some o)
    (hd : isDriving (isOfferOf o) s = true) (hq : ∀ f ∈ s.link.queue, isOfferOf o f.body = false) :
    (enterHalted s).offer = { s.offer with endsAtReport := true } := by
  have hstop : haltStopped s
      = { s with
          cond := .halted, drainTimer := none, drainEnded := false, walkerTimer := none, ask := s.ask.stopped
          offer := { s.offer with endsAtReport := s.offer.endsAtReport || true } } := by
    unfold haltStopped
    rw [stopOffer_of_queued (by exact h), withdrawOffer_driving (o := o) true (by exact ho) (by exact hd)]
  have hoffer : (haltStopped s).offer = { s.offer with endsAtReport := true } := by rw [hstop, Bool.or_true]
  have hlink : (haltStopped s).link = s.link := by rw [hstop]
  obtain hsame | ⟨_, _, o', ho', f, hf, hof⟩ := (enterHalted_told s).offer
  · exact hsame.trans hoffer
  · have hcur : (haltStopped s).offer.current = some o' := ho'
    rw [hoffer] at hcur
    obtain rfl : o = o' := Option.some.inj (ho.symm.trans hcur)
    rw [hlink, haltRemoved] at hf
    obtain hhand | hqueue := List.mem_append.mp hf
    · obtain ⟨k, hk, hdriven⟩ := (Option.any_eq_true _ _).mp hd
      rw [hk] at hhand
      simp only [Bool.and_eq_true] at hdriven
      simp [Option.filter, hdriven.1] at hhand
    · have hno := hq f (List.mem_filter.mp hqueue).1
      exact nomatch hno.symm.trans hof

end offer

/-! ## A failed write by condition (R167) -/

theorem mapMemError_of_start {s : State} (h : s.cond = .start ∨ s.cond = .join) :
    mapMemError s = { report .mapMem s with outcome := .halted } := by
  have hcond : (report .mapMem s).cond = s.cond := report_cond ..
  unfold mapMemError
  dsimp only
  obtain h | h := h <;> rw [hcond, h]

theorem mapMemError_of_stays {s : State} (h : s.cond = .halted ∨ s.cond = .mute) : mapMemError s = report .mapMem s := by
  have hcond : (report .mapMem s).cond = s.cond := report_cond ..
  unfold mapMemError
  dsimp only
  obtain h | h := h <;> rw [hcond, h]

theorem mapMemError_of_works {s : State} (h : s.cond = .ready ∨ s.cond = .drain) : mapMemError s = enterHalted (report .mapMem s) := by
  have hcond : (report .mapMem s).cond = s.cond := report_cond ..
  unfold mapMemError
  dsimp only
  obtain h | h := h <;> rw [hcond, h]

theorem mapMemError_of_quiet {s : State} (h : s.cond = .quiet) :
    mapMemError s = queueHail { enterHalted (report .mapMem s) with
      hailTimer := some (presenceDeadline (enterHalted (report .mapMem s))) } := by
  have hcond : (report .mapMem s).cond = s.cond := report_cond ..
  unfold mapMemError
  dsimp only
  rw [hcond, h]

/-- Where a failed write ends the work of the station. -/
def Stoppable (c : Condition) : Prop := c = .ready ∨ c = .drain ∨ c = .quiet

/-- HALTED is entered, and in QUIET its HAIL queued. -/
theorem mapMemError_entered {s : State} (h : Stoppable s.cond) :
    mapMemError s
        = { enterHalted (report .mapMem s) with hailTimer := (mapMemError s).hailTimer, link := (mapMemError s).link }
      ∧ ∀ f ∈ (mapMemError s).link.queue, f.sentInHalted = true := by
  have hworks (hw : s.cond = .ready ∨ s.cond = .drain) :
      mapMemError s
          = { enterHalted (report .mapMem s) with hailTimer := (mapMemError s).hailTimer, link := (mapMemError s).link }
        ∧ ∀ f ∈ (mapMemError s).link.queue, f.sentInHalted = true := by
    rw [mapMemError_of_works hw]
    exact ⟨rfl, fun f hf => enterHalted_queue hf⟩
  obtain h | h | h := h
  · exact hworks (.inl h)
  · exact hworks (.inr h)
  · rw [mapMemError_of_quiet h]
    constructor
    · rw [queueHail_frame]
    · intro f hf
      unfold queueHail at hf
      have hqueue : f ∈ (enterHalted (report .mapMem s)).link.queue ∨ ∃ b, f.body = .hail b := by
        revert hf
        refine offerFrame_getD (P := fun t => f ∈ t.link.queue → _) _ _ _ (fun hf => ?_) .inl
        obtain rfl | hf := mem_insertFrame.mp hf
        · exact .inr ⟨_, rfl⟩
        · exact .inl hf
      obtain hf | ⟨b, hb⟩ := hqueue
      · exact enterHalted_queue hf
      · exact (sentInHalted_iff f).mpr (.inl ⟨b, hb⟩)

theorem mapMemError_has (s : State) : (mapMemError s).faults.has .mapMem = true := by
  have hreport : (report .mapMem s).faults.has .mapMem = true := report_has_self ..
  have hcases : Stoppable s.cond ∨ (s.cond = .start ∨ s.cond = .join) ∨ (s.cond = .halted ∨ s.cond = .mute) := by
    unfold Stoppable
    cases s.cond <;> simp
  obtain h | h | h := hcases
  · rw [(mapMemError_entered h).1]
    exact enterHalted_flags hreport
  · rw [mapMemError_of_start h]
    exact hreport
  · rw [mapMemError_of_stays h]
    exact hreport

end Sys2Proof.Machine

/-! Failed map memory writes (R12, R28, R55, R60, R73, R109, R128, R167), and a write that stays in progress (R4). -/

namespace Sys2Proof.Machine

/-! ## By condition (R167) -/

theorem isDriving_report (f : Flag) (test : FrameBody → Bool) (s : State) : isDriving test (report f s) = isDriving test s := by
  rw [isDriving, report_hand, isDriving]

section stoppable
variable {s : State} (h : Stoppable s.cond)
include h

theorem mapMemError_stopped :
    (mapMemError s).cond = .halted ∧ (mapMemError s).drainTimer = none ∧ (mapMemError s).walkerTimer = none
      ∧ (mapMemError s).ask = s.ask.stopped ∧ (mapMemError s).offer = (enterHalted (report .mapMem s)).offer := by
  have hentered {α : Type} (field : State → α) := congrArg field (mapMemError_entered h).1
  have hcleared {α : Type} (field : State → α) := congrArg field (enterHalted_cleared (report .mapMem s))
  refine ⟨(hentered State.cond).trans (hcleared State.cond), (hentered State.drainTimer).trans (hcleared State.drainTimer),
    (hentered State.walkerTimer).trans (hcleared State.walkerTimer), ?_, hentered State.offer⟩
  refine ((hentered State.ask).trans (hcleared State.ask)).trans ?_
  show (report .mapMem s).ask.stopped = _
  rw [report_ask]

theorem mapMemError_offers :
    (s.offer.state = .idle → (mapMemError s).offer = s.offer)
      ∧ (s.offer.state = .armed ∨ s.offer.state = .waiting → (mapMemError s).offer = OfferMachine.reset)
      ∧ (s.offer.state = .queued → ∀ o, s.offer.current = some o →
          (isDriving (isOfferOf o) s = false → (mapMemError s).offer = OfferMachine.reset)
          ∧ (isDriving (isOfferOf o) s = true → (∀ f ∈ s.link.queue, isOfferOf o f.body = false) →
              (mapMemError s).offer = { s.offer with endsAtReport := true })) := by
  obtain ⟨-, -, -, -, hoffer⟩ := mapMemError_stopped h
  have hsame : (report .mapMem s).offer = s.offer := report_offer ..
  rw [hoffer]
  refine ⟨fun hi => ?_, fun ho => ?_, fun hq o ho => ⟨fun hd => ?_, fun hd hno => ?_⟩⟩
  · rw [enterHalted_offer_of_idle (by rwa [hsame]), hsame]
  · exact enterHalted_offer_of_open (by rwa [hsame])
  · exact enterHalted_offer_of_queued (o := o) (by rwa [hsame]) (by rwa [hsame]) (by rwa [isDriving_report])
  · rw [enterHalted_offer_of_driving (o := o) (by rwa [hsame]) (by rwa [hsame]) (by rwa [isDriving_report]) fun f hf => ?_, hsame]
    obtain hf | ⟨c, hc⟩ := mem_report_queue hf
    · exact hno f hf
    · rw [hc]
      rfl

end stoppable

theorem mapMemError_hailTimer {s : State} (h : s.cond = .quiet) :
    (mapMemError s).hailTimer = some (s.now + s.profile.presenceInterval * 4000) := by
  have hqueued : (mapMemError s).hailTimer = some (presenceDeadline (enterHalted (report .mapMem s))) := by
    rw [mapMemError_of_quiet h, queueHail_frame]
  have hcleared {α : Type} (field : State → α) := congrArg field (enterHalted_cleared (report .mapMem s))
  have hnow : (enterHalted (report .mapMem s)).now = s.now := (hcleared State.now).trans (report_now ..)
  have hprofile : (enterHalted (report .mapMem s)).profile = s.profile := (hcleared State.profile).trans (report_profile ..)
  rw [hqueued, presenceDeadline, msFromNow, hnow, hprofile]
  rfl

theorem mapMemError_by_condition (s : State) :
    (mapMemError s).faults.has .mapMem = true ∧ (mapMemError s).mm = s.mm
      ∧ (s.cond = .start ∨ s.cond = .join → mapMemError s = { report .mapMem s with outcome := .halted })
      ∧ (s.cond = .halted ∨ s.cond = .mute → mapMemError s = report .mapMem s)
      ∧ (s.cond = .ready ∨ s.cond = .drain ∨ s.cond = .quiet →
          (mapMemError s).cond = .halted ∧ (mapMemError s).drainTimer = none ∧ (mapMemError s).walkerTimer = none
          ∧ (mapMemError s).ask.state = .idle ∧ (mapMemError s).ask.timer = none
          ∧ (mapMemError s).ask.failures = s.ask.failures
          ∧ (s.offer.state = .idle → (mapMemError s).offer = s.offer)
          ∧ (s.offer.state = .armed ∨ s.offer.state = .waiting → (mapMemError s).offer = OfferMachine.reset)
          ∧ (s.offer.state = .queued → ∀ o, s.offer.current = some o →
              (isDriving (isOfferOf o) s = false → (mapMemError s).offer = OfferMachine.reset)
              ∧ (isDriving (isOfferOf o) s = true → (∀ f ∈ s.link.queue, isOfferOf o f.body = false) →
                  (mapMemError s).offer = { s.offer with endsAtReport := true }))
          ∧ ∀ f ∈ (mapMemError s).link.queue, f.sentInHalted = true)
      ∧ (s.cond = .quiet → (mapMemError s).hailTimer = some (s.now + s.profile.presenceInterval * 4000)) := by
  refine ⟨mapMemError_has s, (congrArg State.mm (mapMemError_frame s) :), mapMemError_of_start, mapMemError_of_stays, fun h => ?_,
    mapMemError_hailTimer⟩
  obtain ⟨hcond, hdrain, hwalker, hask, -⟩ := mapMemError_stopped h
  obtain ⟨hidle, hopen, hqueued⟩ := mapMemError_offers h
  exact ⟨hcond, hdrain, hwalker, by rw [hask]; rfl, by rw [hask]; rfl, by rw [hask]; rfl, hidle, hopen, hqueued, (mapMemError_entered h).2⟩

/-! ## A write that stays in progress (R4) -/

section later
variable {m : Moment} {s u : State} {f : RawFrame} {rest : List RawFrame}

theorem exec_mapMemoryWriteCompletion_on {m : Moment} {s u : State} {w : MapWrite} (hon : OnAt m s u) (hw : u.inflight = some w) (ok : Bool) :
    exec (.mapMemoryWriteCompletion ok m) s = .next (settle m (if ok then completeWrite w u else failWrite w u)) := by
  dsimp only [exec, execMapMemoryWriteCompletion]
  rw [whenOn_at hon, hw]

/-- A request whose write stays in progress. -/
theorem settle_staying (h : Takes m s u f rest) {t : Task} {w : MapWrite} {stay : List WriteFate} (hw : m.writes = .staysInProgress :: stay)
    (htk : takeTask t (reserved rest u) = (reserved rest u, some w)) :
    settle m (beginRequest t { u with buffer := rest }) = { reserved rest u with inflight := some w } := by
  have hi : (reserved rest u).inflight = none := (takes_infl h :)
  have htasks : (reserved rest u).tasks = [] := (takes_tasks h :)
  have hstart : withTasks [] (beginRequest t { u with buffer := rest }) = reserved rest u := withTasks_self htasks
  have hstays := leads_stays (fates := stay) (s := beginRequest t { u with buffer := rest }) hi rfl (by rw [hstart]; exact htk)
  exact hstays.settle_busy hw (by decide) rfl

/-- The station with a request's write in progress, at a later time. -/
def waitingAt (rest : List RawFrame) (u : State) (w : MapWrite) (now : Time) : State := { reserved rest u with inflight := some w, now := now }

/-- The write in progress completes: the request is answered, and in READY nothing more follows a write that leaves the pool and the spares
alone. -/
theorem settle_waiting_completed (h : Takes m s u f rest) (hc : u.cond = .ready) {m' : Moment} {w : MapWrite} {r : Reply} {now : Time}
    (hdone : w.onDone = [.reply f.source r]) (hnext : w.goOn = []) (htakes : w.takes = false) (hrot : w.rotor = u.rotor)
    (hsets : w.image.freeSets = u.mm.freeSets) (hspares : w.image.spares = u.mm.spares) :
    settle m' (completeWrite w (waitingAt rest u w now)) = withAnswer f rest r { u with now := now, mm := w.image } := by
  have hi : u.inflight = none := takes_infl h
  have hroom : Room (written w (waitingAt rest u w now)) := (room_reserved h hc).of_link rfl rfl
  have hanswer : fillReply f.source r (written w (waitingAt rest u w now)) = withAnswer f rest r { u with now := now, mm := w.image } := by
    rw [hroom.fillReply]
    show pushFrame _ ({ u with now := now, mm := w.image, rotor := w.rotor, buffer := rest, inflight := none } : State) = _
    rw [hrot, ← hi]
    rfl
  have hreply : DoesAll w.onDone (fillReply f.source r) := by
    rw [hdone]
    exact (does_reply f.source r).one
  have hpresent : presentSets (waitingAt rest u w now) = presentSets (written w (waitingAt rest u w now)) := by
    unfold presentSets written
    rw [hsets]
    rfl
  have hlen : (waitingAt rest u w now).mm.spares.length = (written w (waitingAt rest u w now)).mm.spares.length :=
    congrArg List.length hspares.symm
  have htasks : (waitingAt rest u w now).tasks = [] := (takes_tasks h :)
  have hend : (withAnswer f rest r { u with now := now, mm := w.image }).tasks = [] := (takes_tasks h :)
  obtain ⟨k, hk, hleads⟩ := leads_completed (fates := m'.writes) hreply (waitingAt rest u w now)
  rw [htakes, askJudged_of_same hpresent hlen, hanswer, hnext, htasks, List.append_nil, withTasks_self hend,
    quietJudged_of_cond (s := withAnswer f rest r { u with now := now, mm := w.image }) fun hd => nomatch hc.symm.trans hd] at hleads
  rw [hdone] at hk
  exact hleads.settle_eq rfl (hk.trans (Nat.le_of_ble_eq_true rfl)) hend

/-- The write in progress fails: the station halts. -/
theorem settle_waiting_failed (h : Takes m s u f rest) {m' : Moment} {w : MapWrite} {r : Reply} {now : Time}
    (hfail : w.onFail = [.mapMemError, .reply f.source r]) :
    settle m' (failWrite w (waitingAt rest u w now))
      = fillReply f.source r (mapMemError { waitingAt rest u w now with inflight := none }) := by
  have htasks : (waitingAt rest u w now).tasks = [] := (takes_tasks h :)
  have herror := does_mapMemError.leads (fates := m'.writes) (rest := [.reply f.source r])
    (s := { waitingAt rest u w now with inflight := none }) rfl
  have hreply := (does_reply f.source r).leads (fates := m'.writes) (rest := [])
    (s := mapMemError { waitingAt rest u w now with inflight := none }) (does_mapMemError.inflight _)
  have hend : (fillReply f.source r (mapMemError { waitingAt rest u w now with inflight := none })).tasks = [] := by
    rw [fillReply_tasks, mapMemError_frame]
    exact htasks
  have hstart : failWrite w (waitingAt rest u w now)
      = withTasks [.mapMemError, .reply f.source r] { waitingAt rest u w now with inflight := none } := by
    rw [failWrite, hfail, htasks]
    rfl
  rw [hstart]
  have hall := herror.trans hreply
  rw [withTasks_self hend] at hall
  exact hall.settle_eq rfl (by decide) hend

theorem takes_powered (h : Takes m s u f rest) : u.powered = true := by
  obtain ⟨⟨⟨hp, -, -⟩, rfl⟩, -, -, -⟩ := h
  exact hp

theorem exec_waiting (h : Takes m s u f rest) (w : MapWrite) (ok : Bool) (m' : Moment) :
    exec (.mapMemoryWriteCompletion ok m') { reserved rest u with inflight := some w }
      = .next (settle m' (if ok then completeWrite w (waitingAt rest u w (max u.now m'.time))
          else failWrite w (waitingAt rest u w (max u.now m'.time)))) :=
  exec_mapMemoryWriteCompletion_on (s := { reserved rest u with inflight := some w }) (u := waitingAt rest u w (max u.now m'.time))
    ⟨(takes_powered h :), rfl⟩ rfl ok

/-- Settles O52: the write of a COMMIT, completed or failed at a later command. -/
theorem writeCompletesLater : Obligations.WriteCompletesLater := by
  intro m s u f rest v c tag expiry pl shield stay h hparse hw hc hv hsize he
  have hd := decideCommit_of_owner (checkChunk_of_lt_size (by rw [hc]; exact nofun) hv hsize) he rfl
  have hstay := settle_staying h hw (takeTask_commit hd)
  refine ⟨_, (exec_commit_of_takes h hparse).trans (congrArg Host.Outcome.next hstay), rfl, rfl, rfl, rfl, ?_⟩
  rintro m' t' rfl
  rw [exec_waiting h, exec_waiting h, if_pos rfl, if_neg Bool.false_ne_true]
  refine ⟨?_, _, rfl, ?_⟩
  · rw [settle_waiting_completed h hc rfl rfl rfl rfl rfl rfl]
    rfl
  · rw [settle_waiting_failed h rfl, fillReply_mm, fillReply_cond, fillReply_faults]
    exact ⟨(congrArg State.mm (mapMemError_frame _) :), (mapMemError_stopped (by exact .inl hc)).1, mapMemError_has _⟩

end later

end Sys2Proof.Machine

/-! Requests and events whose map memory write fails in READY (R12, R28, R55, R60, R73, R109, R128). -/

namespace Sys2Proof.Machine

section request
variable {m : Moment} {s u : State} {f : RawFrame} {rest : List RawFrame}

/-- A request whose write fails. -/
theorem settle_failing (h : Takes m s u f rest) (hw : m.writes = [.fails]) {t : Task} {w : MapWrite} {r : Reply}
    (htk : takeTask t (reserved rest u) = (reserved rest u, some w)) (hfail : w.onFail = [.mapMemError, .reply f.source r]) :
    settle m (beginRequest t { u with buffer := rest }) = fillReply f.source r (mapMemError (reserved rest u)) := by
  have hi : (reserved rest u).inflight = none := (takes_infl h :)
  have htasks : (reserved rest u).tasks = [] := (takes_tasks h :)
  have hstart : withTasks [] (beginRequest t { u with buffer := rest }) = reserved rest u := withTasks_self htasks
  have hfails := leads_fails (fates := []) (s := beginRequest t { u with buffer := rest }) hi rfl (by rw [hstart]; exact htk)
  have hfailed : failWrite w (reserved rest u) = withTasks [.mapMemError, .reply f.source r] (reserved rest u) := by
    have hidle : ({ reserved rest u with inflight := none } : State) = reserved rest u := by rw [← hi]
    rw [failWrite, hfail, htasks]
    exact congrArg (withTasks _) hidle
  have herror := does_mapMemError.leads (fates := []) (rest := [.reply f.source r]) hi
  have hreply := (does_reply f.source r).leads (fates := []) (rest := []) ((does_mapMemError.inflight _).trans hi)
  have hend : (fillReply f.source r (mapMemError (reserved rest u))).tasks = [] := by
    rw [fillReply_tasks, mapMemError_frame]
    exact htasks
  rw [hfailed] at hfails
  have hall := (hfails.trans herror).trans hreply
  rw [withTasks_self hend] at hall
  exact hall.settle_eq hw (by decide) hend

/-- The station in HALTED after a failed write, with nothing queued before and no offer open. -/
def bareHalted (v : State) : State :=
  { report .mapMem v with
    cond := .halted, drainTimer := none, drainEnded := false, walkerTimer := none, ask := v.ask.stopped
    link := { v.link with queue := [], hand := none } }

theorem mapMemError_bare {v : State} (hc : v.cond = .ready) (hq : v.link.queue = []) (hh : v.link.hand = none) (ho : v.offer.state = .idle) :
    mapMemError v = bareHalted v := by
  have hoffer : (report .mapMem v).offer.state = .idle := by rw [report_offer, ho]
  have hstop : haltStopped (report .mapMem v)
      = { report .mapMem v with
          cond := .halted, drainTimer := none, drainEnded := false, walkerTimer := none, ask := (report .mapMem v).ask.stopped } := by
    unfold haltStopped stopOffer
    simp only [hoffer]
  have hask : (report .mapMem v).ask = v.ask := report_ask ..
  have hcleared : haltCleared (report .mapMem v) = bareHalted v := by
    unfold haltCleared
    rw [hstop, hask, bareHalted]
    dsimp only
    obtain hl | ⟨c, hl⟩ := report_link .mapMem v
    · rw [hl, hq, hh]
      rfl
    · rw [hl]
      dsimp only
      rw [hq, hh]
      rfl
  have hremoved : toldRemoved (haltRemoved (haltStopped (report .mapMem v)).link) (haltCleared (report .mapMem v))
      = haltCleared (report .mapMem v) := by
    rw [hstop]
    dsimp only
    obtain hl | ⟨c, hl⟩ := report_link .mapMem v
    · rw [hl, haltRemoved, hq, hh]
      rfl
    · rw [hl, haltRemoved]
      dsimp only
      rw [hq, hh]
      rfl
  rw [mapMemError_of_works (.inl hc), enterHalted_eq, hremoved, hcleared]

/-- What is left of a request whose write failed (R28, R55, R60). -/
theorem fillReply_failed (hc : u.cond = .ready) (hq : u.link.queue = []) (hh : u.link.hand = none)
    (hr : u.link.reservedReplies = 0) (hr' : u.link.reservedOthers = 0) (ho : u.offer.state = .idle) (r : Reply) (hs : r.status = .notReady) :
    fillReply f.source r (mapMemError (reserved rest u))
      = pushFrame { dest := f.source, body := .reply r } (releaseReply (bareHalted (reserved rest u))) := by
  rw [mapMemError_bare (v := reserved rest u) hc hq hh ho]
  have hplace : hasReplyPlace (releaseReply (bareHalted (reserved rest u))) = true := by
    refine (hasReplyPlace_iff _).mpr ?_
    show 0 + 0 + (u.link.reservedReplies + 1 - 1) + u.link.reservedOthers < 32 ∧ 0 + 0 + (u.link.reservedReplies + 1 - 1) < 24
    rw [hr, hr']
    decide
  exact answer_ok hplace (.inr (.inr rfl)) fun _ => hs

/-- A failed write of a request, whatever the request was. -/
theorem failed_outcome (h : Takes m s u f rest) (hw : m.writes = [.fails]) (hc : u.cond = .ready) (hq : u.link.queue = [])
    (hh : u.link.hand = none) (hr : u.link.reservedReplies = 0) (hr' : u.link.reservedOthers = 0) (ho : u.offer.state = .idle)
    {cmd : Instr} {t : Task} {w : MapWrite} {v c tag : Nat} (hcmd : exec cmd s = .next (settle m (beginRequest t { u with buffer := rest })))
    (htk : takeTask t (reserved rest u) = (reserved rest u, some w)) (hfail : w.onFail = failedRequest f.source tag v c) :
    ∃ t, exec cmd s = .next t ∧ t.mm = u.mm ∧ t.rotor = u.rotor ∧ t.inflight = none ∧ t.tasks = [] ∧ t.buffer = rest
      ∧ t.cond = .halted ∧ t.faults.flags = u.faults.flags ||| Flag.mapMem.bit ∧ t.faults.counts = u.faults.counts
      ∧ t.walkerTimer = none ∧ t.ask.state = .idle
      ∧ t.link.queue
          = [{ dest := f.source, body := .reply { tag := tag, status := .notReady, volume := v, chunk := c, part := .none } }] := by
  rw [settle_failing h hw htk hfail, fillReply_failed hc hq hh hr hr' ho (plainReply tag .notReady v c) rfl] at hcmd
  have hreport {α : Type} (field : State → α) := congrArg field (report_frame .mapMem (reserved rest u))
  exact ⟨_, hcmd, hreport State.mm, hreport State.rotor, (hreport State.inflight).trans (takes_infl h :),
    (hreport State.tasks).trans (takes_tasks h :), hreport State.buffer, rfl, report_flags .mapMem (reserved rest u),
    report_counts .mapMem (reserved rest u), rfl, rfl, rfl⟩

theorem takeTask_volume {t : Task} {d : State → VolumeDecision} {v tag : Nat} {status : Status} {mm : MapMemory}
    (ht : takeTask t (reserved rest u) = takeVolume f.source v tag (d (reserved rest u)) (reserved rest u))
    (hd : d (reserved rest u) = (status, some mm)) :
    ∃ w, takeTask t (reserved rest u) = (reserved rest u, some w) ∧ w.onFail = failedRequest f.source tag v 0 := by
  rw [ht, hd]
  exact ⟨_, rfl, rfl⟩

theorem seekGrain_placed {a : Station} {v c tag : Nat} (hmap : u.mm.chunks.length < Config.mapPlaces)
    (hlist : u.mm.pendings.length < Config.pendingPlaces) (hg : (takeGrains u.presence 1 u.mm.freeSets u.rotor).grains ≠ []) :
    (seekGrain u a v c tag u.mm).place.isNone = false := by
  rw [seekGrain, if_neg (Nat.not_le.mpr hmap), if_neg (Nat.not_le.mpr hlist)]
  cases hgs : (takeGrains u.presence 1 u.mm.freeSets u.rotor).grains with
  | nil => exact absurd hgs hg
  | cons g gs => simp only [hgs, Option.isNone_some]

end request

theorem requests_fail :
    ∀ cmd req m s u f rest v c tag, Takes m s u f rest → parseRequest u.fresh f = req → m.writes = [.fails] → u.cond = .ready →
      u.link.queue = [] → u.link.hand = none → u.link.reservedReplies = 0 → u.link.reservedOthers = 0 → u.offer.state = .idle →
      ((cmd = .commit m ∧ req = .commit v c tag ∧ (volumeOf u.mm v).state = .active ∧ c < (volumeOf u.mm v).size
          ∧ ∃ e x, entryOf u.mm v c = some e ∧ e.state = .pending f.source tag x)
        ∨ (cmd = .trim m ∧ (∃ n, 0 < n ∧ req = .trim v c n tag) ∧ (volumeOf u.mm v).state = .active ∧ c < (volumeOf u.mm v).size
            ∧ u.mm.trims.length < Config.trimPlaces)
        ∨ (cmd = .volumeDelete m ∧ c = 0 ∧ req = .delete v tag ∧ (volumeOf u.mm v).state = .active
            ∧ u.mm.trims.length < Config.trimPlaces)
        ∨ (cmd = .volumeCreate m ∧ c = 0 ∧ (∃ n, 0 < n ∧ req = .create v n tag) ∧ (volumeOf u.mm v).state = .free)
        ∨ (cmd = .volumeGrow m ∧ c = 0 ∧ (∃ n, (volumeOf u.mm v).size < min n Config.maxVolume ∧ req = .grow v n tag)
            ∧ (volumeOf u.mm v).state = .active)
        ∨ (cmd = .lookupWrite m ∧ req = .lookup true v c tag ∧ (volumeOf u.mm v).state = .active ∧ c < (volumeOf u.mm v).size
            ∧ entryOf u.mm v c = none ∧ u.mm.chunks.length < Config.mapPlaces ∧ u.mm.pendings.length < Config.pendingPlaces
            ∧ (takeGrains u.presence 1 u.mm.freeSets u.rotor).grains ≠ [])) →
      ∃ t, exec cmd s = .next t ∧ t.mm = u.mm ∧ t.rotor = u.rotor ∧ t.inflight = none ∧ t.tasks = [] ∧ t.buffer = rest
        ∧ t.cond = .halted ∧ t.faults.flags = u.faults.flags ||| Flag.mapMem.bit ∧ t.faults.counts = u.faults.counts
        ∧ t.walkerTimer = none ∧ t.ask.state = .idle
        ∧ t.link.queue
            = [{ dest := f.source, body := .reply { tag := tag, status := .notReady, volume := v, chunk := c, part := .none } }] := by
  intro cmd req m s u f rest v c tag h hparse hw hc hq hh hr hr' ho hkind
  have hnothalted : u.cond ≠ .halted := by rw [hc]; exact nofun
  have hcheck (hv : (volumeOf u.mm v).state = .active) (hsize : c < (volumeOf u.mm v).size) := checkChunk_of_lt_size hnothalted hv hsize
  obtain ⟨rfl, rfl, hv, hsize, e, x, he, hs⟩ | ⟨rfl, ⟨n, hn, rfl⟩, hv, hsize, hroom⟩ | ⟨rfl, rfl, rfl, hv, hroom⟩
    | ⟨rfl, rfl, ⟨n, hn, rfl⟩, hv⟩ | ⟨rfl, rfl, ⟨n, hn, rfl⟩, hv⟩ | ⟨rfl, rfl, hv, hsize, he, hmap, hlist, hg⟩ := hkind
  · exact failed_outcome h hw hc hq hh hr hr' ho (exec_commit_of_takes h hparse)
      (takeTask_commit (decideCommit_of_owner (hcheck hv hsize) he hs)) rfl
  · exact failed_outcome h hw hc hq hh hr hr' ho (exec_trim_of_takes h hparse)
      (takeTask_trim (checkTrim_of_room hnothalted (Nat.pos_iff_ne_zero.mp hn) hv hsize hroom)) rfl
  · have hd : decideDelete (reserved rest u) f.source v tag = (.queued, some (deleting u.mm f.source v tag)) := by
      show decideDelete u f.source v tag = _
      simp only [decideDelete, if_neg hnothalted, if_neg (not_not.2 hv), if_neg (Nat.not_le.2 hroom), deleting]
    obtain ⟨w, htk, hfail⟩ := takeTask_volume (f := f) (t := .volumeDelete f.source v tag) (v := v) (tag := tag) (d := fun x => decideDelete x f.source v tag) rfl hd
    exact failed_outcome h hw hc hq hh hr hr' ho (exec_volumeDelete_of_takes h hparse) htk hfail
  · have hd : decideCreate (reserved rest u) v n = (.ok, some (setVolume u.mm v { state := .active, size := clampSize n, count := 0 })) := by
      show decideCreate u v n = _
      simp only [decideCreate, if_neg hnothalted, hv, if_neg (Nat.pos_iff_ne_zero.mp hn)]
    obtain ⟨w, htk, hfail⟩ := takeTask_volume (f := f) (t := .volumeCreate f.source v n tag) (v := v) (tag := tag) (d := fun x => decideCreate x v n) rfl hd
    exact failed_outcome h hw hc hq hh hr hr' ho (exec_volumeCreate_of_takes h hparse) htk hfail
  · have hgrow : (volumeOf u.mm v).size < clampSize n := hn
    have hd : decideGrow (reserved rest u) v n = (.ok, some (setVolume u.mm v { volumeOf u.mm v with size := clampSize n })) := by
      show decideGrow u v n = _
      simp only [decideGrow, if_neg hnothalted, if_neg (not_not.2 hv), if_neg (Nat.not_lt.2 hgrow.le), if_neg hgrow.ne']
    obtain ⟨w, htk, hfail⟩ := takeTask_volume (f := f) (t := .volumeGrow f.source v n tag) (v := v) (tag := tag) (d := fun x => decideGrow x v n) rfl hd
    exact failed_outcome h hw hc hq hh hr hr' ho (exec_volumeGrow_of_takes h hparse) htk hfail
  · have htk := takeTask_allocates (rest := rest) hc (decideWrite_of_no_entry (a := f.source) (tag := tag) (hcheck hv hsize) he)
    rw [seekGrain_placed hmap hlist hg, if_neg Bool.false_ne_true] at htk
    exact failed_outcome h hw hc hq hh hr hr' ho (exec_lookupWrite_of_takes h hparse) htk rfl

/-! ## Events whose write fails (R12, R73, R109, R128) -/

/-- What a failed write leaves (R12, R167). -/
structure AfterFailure (u t : State) : Prop where
  mm : t.mm = u.mm
  rotor : t.rotor = u.rotor
  inflight : t.inflight = none
  cond : t.cond = .halted
  reported : t.faults.has .mapMem = true
  walker : t.walkerTimer = none
  ask : t.ask.state = .idle

theorem AfterFailure.of_frame {u y t : State} (h : AfterFailure u y)
    (hf : t = { y with offer := t.offer, link := t.link, lastGrants := t.lastGrants, tasks := t.tasks }) : AfterFailure u t := by
  have hsame {α : Type} (field : State → α) := congrArg field hf
  refine ⟨(hsame State.mm).trans h.mm, (hsame State.rotor).trans h.rotor, (hsame State.inflight).trans h.inflight,
    (hsame State.cond).trans h.cond, ?_, (hsame State.walkerTimer).trans h.walker, ?_⟩
  · have hfaults : t.faults = y.faults := (hsame State.faults :)
    rw [hfaults]
    exact h.reported
  · have hask : t.ask = y.ask := (hsame State.ask :)
    rw [hask]
    exact h.ask

theorem afterFailure_mapMemError {u y : State} (hmm : y.mm = u.mm) (hrot : y.rotor = u.rotor) (hi : y.inflight = none) (hc : y.cond = .ready) :
    AfterFailure u (mapMemError y) := by
  have hsame {α : Type} (field : State → α) := congrArg field (mapMemError_frame y)
  obtain ⟨hcond, -, hwalker, hask, -⟩ := mapMemError_stopped (s := y) (.inl hc)
  exact ⟨(hsame State.mm).trans hmm, (hsame State.rotor).trans hrot, (hsame State.inflight).trans hi, hcond, mapMemError_has y, hwalker,
    by rw [hask]; rfl⟩

/-- An event whose write fails in READY, with what is released before the station halts. -/
theorem perform_failed {m : Moment} {v s' : State} {t : Task} {w : MapWrite} {pre : List Task} {g : State → State} (hi : v.inflight = none)
    (ht : v.tasks = []) (hw : m.writes = [.fails]) (htk : takeTask t v = (s', some w)) (hfail : w.onFail = pre ++ [.mapMemError])
    (hg : DoesAll pre g) (hlen : pre.length ≤ 100)
    (hkeep : ∀ x, (g x).mm = x.mm ∧ (g x).rotor = x.rotor ∧ (g x).cond = x.cond ∧ (g x).tasks = x.tasks)
    (hmm : s'.mm = v.mm) (hrot : s'.rotor = v.rotor) (hc : s'.cond = .ready) (ht' : s'.tasks = []) :
    AfterFailure v (perform m [t] v) ∧ (perform m [t] v).tasks = [] := by
  have hstart : withTasks [] (withTasks [t] v) = v := by rw [withTasks_withTasks, withTasks_self ht]
  have hfails := leads_fails (fates := []) (t := t) (rest := []) (s := withTasks [t] v) hi rfl (by rw [hstart]; exact htk)
  have hfailed : failWrite w s' = withTasks (pre ++ [.mapMemError]) { s' with inflight := none } := by
    rw [failWrite, hfail, ht', List.append_nil]
    rfl
  rw [hfailed] at hfails
  have hpre := hg.leads (fates := []) (rest := [.mapMemError]) (s := { s' with inflight := none }) rfl
  have herror := does_mapMemError.leads (fates := []) (rest := []) (s := g { s' with inflight := none }) (hg.inflight _)
  obtain ⟨hgmm, hgrot, hgcond, hgtasks⟩ := hkeep { s' with inflight := none }
  have hend : (mapMemError (g { s' with inflight := none })).tasks = [] := by
    rw [mapMemError_frame]
    exact hgtasks.trans ht'
  have hall := (hfails.trans hpre).trans herror
  rw [withTasks_self hend] at hall
  have hperform : perform m [t] v = mapMemError (g { s' with inflight := none }) := by
    rw [perform_of_rest ht]
    exact hall.settle_eq hw (by simp only [workBound]; omega) hend
  rw [hperform]
  exact ⟨afterFailure_mapMemError (hgmm.trans hmm) (hgrot.trans hrot) (hg.inflight _) (hgcond.trans hc), hend⟩

end Sys2Proof.Machine

/-! The events of O30 whose write fails, and O30 itself. -/

namespace Sys2Proof.Machine

theorem reportDataLost_rotor (st : Station) (e : Epoch) (s : State) : (reportDataLost st e s).rotor = s.rotor :=
  (congrArg State.rotor (reportDataLost_frame st e s) :)

theorem reportStale_rotor (n : Nat) (s : State) : (reportStale n s).rotor = s.rotor := (congrArg State.rotor (reportStale_frame n s) :)

theorem endOfferOf_rotor (a : Station) (i : AskId) (s : State) : (endOfferOf a i s).rotor = s.rotor :=
  (congrArg State.rotor (endOfferOf_frame a i s) :)

section events
variable {m : Moment} {s u : State}

theorem exec_walkerPeriod_on (hon : OnAt m s u) :
    exec (.walkerPeriod m) s
      = .next (if walkerWorks u = true ∧ isDue u.walkerTimer u.now = true then
          perform m [.walk u.profile.walkerVisits] { u with walkerTimer := some (u.now + u.profile.walkerPeriod * Config.microsecond) }
        else u) := by
  dsimp only [exec, execWalkerPeriod]
  rw [whenOn_at hon]

theorem exec_grant_heard {source dest : Station} {askId : AskId} {records : List GrantRecord} (hon : OnAt m s u)
    (hwf : wfGrant dest records = true) (hd : dest = u.own) (hacts : actsOnPeers u = true) :
    exec (.grant source dest askId records m) s = .next (perform m [.grantHeard source askId records] (withHeard source true u)) := by
  subst hd
  have hdest : (u.own == u.own) = true := beq_self_eq_true _
  dsimp only [exec, execGrant]
  rw [whenOn_at hon, if_pos hwf, hearGrantFrame, hear_of_not_start (not_start_of_actsOnPeers hacts), acksPeer_eq u.own hacts, hdest,
    withHeard_actsOnPeers, hacts, withHeard_own, hdest]
  rfl

/-- The release of a disposal's place when its write fails. -/
theorem doesAll_release (hb : Option Handback) : ∃ g, DoesAll (releaseTasks hb) g
    ∧ ∀ x, (g x).mm = x.mm ∧ (g x).rotor = x.rotor ∧ (g x).cond = x.cond ∧ (g x).tasks = x.tasks := by
  cases hb with
  | none => exact ⟨id, .nil, fun _ => ⟨rfl, rfl, rfl, rfl⟩⟩
  | some h => exact ⟨releaseOther, does_releaseOther.one, fun _ => ⟨rfl, rfl, rfl, rfl⟩⟩

/-- A walker visit that has its room makes a write (R65, R70). -/
theorem takeWalk_writes {k : Nat} {v : State} (hworks : walkerWorks v = true) (ht : v.mm.trims ≠ []) (hr : hasReplyPlace v = true) :
    ∃ w s' pre, takeWalk (k + 1) v = (s', some w) ∧ w.onFail = pre ++ [.mapMemError] ∧ pre.length ≤ 100
      ∧ (∃ g, DoesAll pre g ∧ ∀ x, (g x).mm = x.mm ∧ (g x).rotor = x.rotor ∧ (g x).cond = x.cond ∧ (g x).tasks = x.tasks)
      ∧ s'.mm = v.mm ∧ s'.rotor = v.rotor ∧ s'.cond = v.cond ∧ s'.tasks = v.tasks := by
  have hplace : hasPlace v = true := (hasPlace_iff v).mpr ((hasReplyPlace_iff v).mp hr).1
  cases hts : v.mm.trims with
  | nil => exact absurd hts ht
  | cons r rest =>
    unfold takeWalk
    simp only [hworks, if_true, hts]
    cases hn : nextEntry v.mm r with
    | none =>
      rw [hr]
      exact ⟨_, _, [.releaseReply], rfl, rfl, by decide, ⟨releaseReply, does_releaseReply.one, fun _ => ⟨rfl, rfl, rfl, rfl⟩⟩, rfl, rfl, rfl, rfl⟩
    | some p =>
      obtain ⟨c, e⟩ := p
      dsimp only
      rw [hplace, Bool.not_true, Bool.and_false]
      refine ⟨_, _, releaseTasks (visitEntry r c e v.mm v).handback, rfl, rfl, ?_, doesAll_release _, ?_⟩
      · cases (visitEntry r c e v.mm v).handback <;> exact Nat.le_of_ble_eq_true rfl
      · cases (visitEntry r c e v.mm v).handback <;> exact ⟨rfl, rfl, rfl, rfl⟩

theorem walker_fails (hrest : RestAt m s u) (hw : m.writes = [.fails]) (hc : u.cond = .ready) (hdue : ∃ x, u.walkerTimer = some x ∧ x ≤ u.now)
    (hv : 1 ≤ u.profile.walkerVisits) (ht : u.mm.trims ≠ []) (hr : hasReplyPlace u = true) :
    ∃ t, exec (.walkerPeriod m) s = .next t ∧ AfterFailure u t ∧ t.tasks = [] := by
  have hworks : walkerWorks u = true := by simp [walkerWorks, hc]
  have hdue' : isDue u.walkerTimer u.now = true := isDue_iff.mpr hdue
  obtain ⟨k, hk⟩ := Nat.exists_eq_add_of_le' hv
  let v : State := { u with walkerTimer := some (u.now + u.profile.walkerPeriod * Config.microsecond) }
  obtain ⟨w, s', pre, htk, hfail, hlen, ⟨g, hg, hkeep⟩, hmm, hrot, hcond, htasks⟩ := takeWalk_writes (k := k) (v := v) hworks ht hr
  obtain ⟨hafter, hend⟩ := perform_failed (t := .walk (k + 1)) (v := v) hrest.inflight hrest.tasks hw htk hfail hg hlen hkeep hmm hrot
    (hcond.trans hc) (htasks.trans hrest.tasks)
  refine ⟨perform m [.walk (k + 1)] v, ?_, ⟨hafter.mm, hafter.rotor, hafter.inflight, hafter.cond, hafter.reported, hafter.walker, hafter.ask⟩,
    hend⟩
  rw [exec_walkerPeriod_on hrest.onAt, if_pos ⟨hworks, hdue'⟩, hk]

theorem AfterFailure.of_heard {source : Station} {acks : Bool} {t : State} (h : AfterFailure (withHeard source acks u) t) : AfterFailure u t :=
  { h with mm := h.mm.trans (withHeard_mm ..), rotor := h.rotor.trans (withHeard_rotor ..) }

theorem take_fails (hrest : RestAt m s u) (hw : m.writes = [.fails]) (hc : u.cond = .ready) {source : Station} {askId : AskId} {count : Byte}
    {o : OpenOffer} (hb : u.own ≠ broadcast) (hstate : u.offer.state = .queued ∨ u.offer.state = .waiting) (ho : u.offer.current = some o)
    (ha : o.asker = source) (hi : o.askId = askId) (hp : hasPlace u = true) (hpres : isPresent u.roster source = true)
    (he : (rosterOf u.roster source).epoch ≠ none)
    (hg : (takeGrains u.presence (grantCount u.figures count.toNat o.n) u.mm.freeSets u.rotor).grains ≠ []) :
    ∃ t, exec (.take source u.own askId count m) s = .next t ∧ AfterFailure u t ∧ t.tasks = [] := by
  have hacts : actsOnPeers u = true := works_of_actsOnPeers.mpr (.inl hc)
  obtain ⟨epoch, he⟩ := Option.ne_none_iff_exists'.mp he
  have hframe {α : Type} (field : State → α) := congrArg field (withHeard_frame source true u)
  have hcount : grantCountFor source count.toNat o (withHeard source true u) = grantCount u.figures count.toNat o.n := by
    rw [grantCountFor, if_pos ⟨by rwa [withHeard_cond], by rwa [isPresent_withHeard]⟩]
    exact congrArg (fun x => grantCount x count.toNat o.n) (hframe State.figures)
  have hgrains : (takeGrains (withHeard source true u).presence (grantCountFor source count.toNat o (withHeard source true u))
      (withHeard source true u).mm.freeSets (withHeard source true u).rotor).grains ≠ [] := by
    rw [hcount, withHeard_mm, withHeard_rotor, (hframe State.presence :)]
    exact hg
  have htk := takeTake_of_grains (s := withHeard source true u) (source := source) (askId := askId) (count := count.toNat) (o := o)
    (by rwa [withHeard_actsOnPeers]) (takeMatches_of (by rwa [withHeard_offer]) (by rwa [withHeard_offer]) ha hi) (by rwa [withHeard_hasPlace])
    (epoch := epoch) rfl hgrains (by rwa [rosterOf_withHeard_epoch])
  have hpre : DoesAll [Task.releaseOther, .endOfferOf source askId] (endOfferOf source askId ∘ releaseOther) :=
    .cons does_releaseOther (does_endOfferOf source askId).one
  obtain ⟨hafter, hend⟩ := perform_failed (t := .takeHeard source askId count.toNat) (pre := [.releaseOther, .endOfferOf source askId])
    ((hframe State.inflight).trans hrest.inflight) ((hframe State.tasks).trans hrest.tasks) hw htk rfl hpre (by simp)
    (fun x => ⟨by simp [releaseOther], by simp [releaseOther, endOfferOf_rotor], by simp [releaseOther], by simp [releaseOther]⟩) rfl rfl
    ((hframe State.cond).trans hc) ((hframe State.tasks).trans hrest.tasks)
  refine ⟨_, ?_, hafter.of_heard, hend⟩
  rw [exec_take_heard hrest.onAt hb hacts, if_pos rfl, beq_self_eq_true]

theorem judgeGrant_joined {mm : MapMemory} {lender : Station} {epoch : Epoch} {spares : List Spare} {r : GrantRecord} (more : List GrantRecord)
    (hp : pairStands { mm with spares := spares } lender r.loan = false) (hroom : spares.length < Config.sparePlaces) :
    (judgeGrant mm lender epoch spares (r :: more)).joined ≠ 0 := by
  rw [judgeGrant, if_neg (ne_true_of_eq_false hp), if_pos hroom]
  exact Nat.succ_ne_zero _

theorem grant_fails (hrest : RestAt m s u) (hw : m.writes = [.fails]) (hc : u.cond = .ready) {source : Station} {askId : AskId} {r : GrantRecord}
    {more : List GrantRecord} (hwf : wfGrant u.own (r :: more) = true) (hs : u.ask.state = .taking) (hl : u.ask.lender = some source)
    (hi : u.ask.askId = askId) (hn : 1 ≤ u.ask.offerCount) (he : (rosterOf u.roster source).epoch ≠ none)
    (hp : pairStands u.mm source r.loan = false) (hroom : u.mm.spares.length < Config.sparePlaces) :
    ∃ t, exec (.grant source u.own askId (r :: more) m) s = .next t ∧ AfterFailure u t ∧ t.tasks = [] := by
  have hacts : actsOnPeers u = true := works_of_actsOnPeers.mpr (.inl hc)
  obtain ⟨epoch, he⟩ := Option.ne_none_iff_exists'.mp he
  obtain ⟨k, hk⟩ := Nat.exists_eq_add_of_le' hn
  have hframe {α : Type} (field : State → α) := congrArg field (withHeard_frame source true u)
  let v := withHeard source true u
  let j := judgeGrant v.mm source epoch v.mm.spares ((r :: more).take v.ask.offerCount)
  have hjoined : j.joined ≠ 0 := by
    have hcount : v.ask.offerCount = k + 1 := (congrArg AskMachine.offerCount (hframe State.ask)).trans hk
    have hmm : v.mm = u.mm := withHeard_mm ..
    simp only [j, hcount, hmm, List.take_succ_cons]
    exact judgeGrant_joined _ hp hroom
  have htk : takeTask (.grantHeard source askId (r :: more)) v
      = (reportDataLost source epoch { v with ask := { v.ask with timer := none } },
          some
            { image := acceptGrant v.mm source epoch j, rotor := v.rotor, takes := true
              onDone := .askSucceeded source askId :: (unusedTasks source j.full
                ++ unusedTasks source (newLoans { v.mm with spares := j.spares } source ((r :: more).drop v.ask.offerCount)))
              goOn := [], onFail := [.mapMemError] }) := by
    have hask : v.ask = u.ask := hframe State.ask
    have hacts' : actsOnPeers v = true := (withHeard_actsOnPeers ..).trans hacts
    have hepoch : (rosterOf v.roster source).epoch = some epoch := (rosterOf_withHeard_epoch ..).trans he
    have hours : v.ask.state = .taking ∧ v.ask.lender = some source ∧ v.ask.askId = askId := by rw [hask]; exact ⟨hs, hl, hi⟩
    change takeGrant source askId (r :: more) v = _
    unfold takeGrant
    rw [if_pos hacts', hepoch]
    dsimp only
    rw [if_pos hours, if_neg hjoined]
  have hrestTasks : v.tasks = [] := (hframe State.tasks).trans hrest.tasks
  obtain ⟨hafter, hend⟩ := perform_failed (t := .grantHeard source askId (r :: more)) (v := v) (pre := []) (g := id)
    ((hframe State.inflight).trans hrest.inflight) hrestTasks hw htk rfl .nil (by simp) (fun _ => ⟨rfl, rfl, rfl, rfl⟩)
    (reportDataLost_mm ..) (reportDataLost_rotor ..)
    ((reportDataLost_cond ..).trans ((withHeard_cond (source := source) (acks := true) (u := u)).trans hc))
    ((reportDataLost_tasks ..).trans hrestTasks)
  exact ⟨_, exec_grant_heard hrest.onAt hwf rfl hacts, hafter.of_heard, hend⟩

theorem judgeGiveback_removes {source : Station} {ls : List Nat} {mm : MapMemory}
    (h : ∃ n ∈ ls, ∃ l, tableFind mm.loans n = some l ∧ l.borrower = source) : (judgeGiveback source mm ls).removed ≠ [] := by
  induction ls with
  | nil => obtain ⟨n, hn, _⟩ := h; exact nomatch hn
  | cons k ls ih =>
    cases hk : isLoanOf source mm.loans k with
    | true =>
      obtain ⟨l, hl, hb⟩ := isLoanOf_iff.mp hk
      rw [judgeGiveback_valid ls hl hb]
      exact List.cons_ne_nil _ _
    | false =>
      rw [judgeGiveback_stale ls hk]
      obtain ⟨n, hn, l, hl, hb⟩ := h
      obtain rfl | hn := List.mem_cons.mp hn
      · exact nomatch hk.symm.trans (isLoanOf_iff.mpr ⟨l, hl, hb⟩)
      · exact ih ⟨n, hn, l, hl, hb⟩

theorem giveback_fails (hrest : RestAt m s u) (hw : m.writes = [.fails]) (hc : u.cond = .ready) {source : Station} {reason : GivebackReason}
    {loans : List Nat} (hwf : wfGiveback u.own loans = true) (h : ∃ n ∈ loans, ∃ l, tableFind u.mm.loans n = some l ∧ l.borrower = source) :
    ∃ t, exec (.giveback source u.own reason loans m) s = .next t ∧ AfterFailure u t ∧ t.tasks = [] := by
  have hacts : actsOnPeers u = true := works_of_actsOnPeers.mpr (.inl hc)
  have hframe {α : Type} (field : State → α) := congrArg field (withHeard_frame source true u)
  let v := withHeard source true u
  let j := judgeGiveback source v.mm loans
  have hremoved : j.removed.isEmpty = false := by
    rw [List.isEmpty_eq_false_iff]
    exact judgeGiveback_removes (by rwa [withHeard_mm])
  have htk : takeTask (.givebackHeard source loans) v
      = writing (reportStale j.stale v) j.mm [.emptyLastGrants j.removed] [] [.mapMemError] :=
    (takeGiveback_of_acts ((withHeard_actsOnPeers ..).trans hacts)).trans (if_neg (ne_true_of_eq_false hremoved))
  have hrestTasks : v.tasks = [] := (hframe State.tasks).trans hrest.tasks
  obtain ⟨hafter, hend⟩ := perform_failed (t := .givebackHeard source loans) (v := v) (pre := []) (g := id)
    ((hframe State.inflight).trans hrest.inflight) hrestTasks hw htk rfl .nil (by simp) (fun _ => ⟨rfl, rfl, rfl, rfl⟩)
    (by simp) (reportStale_rotor ..)
    ((reportStale_cond ..).trans ((withHeard_cond ..).trans hc)) ((reportStale_tasks ..).trans hrestTasks)
  exact ⟨_, exec_giveback_heard hrest.onAt hwf rfl hacts, hafter.of_heard, hend⟩

theorem takeBorrowerEvent_otherEpoch {v : State} {st : Station} {e known : Epoch} (hup : v.loanUp = true)
    (he : (rosterOf v.roster st).epoch = some e) (hk : (peerOf v.mm st).known = some known) (hne : known ≠ e) :
    takeBorrowerEvent .peerNewEpoch st v = writing (reportDataLost st e v) (dropOldSpares v.mm st e) [.failAskOf st]
      (presentTasks .peerNewEpoch st v) [.mapMemError] := by
  simp [takeBorrowerEvent, he, hk, hup, hne]

theorem takeLenderEvent_noLoan {v : State} {st : Station} {e : Epoch} (he : (rosterOf v.roster st).epoch = some e)
    (hl : ∀ p ∈ v.mm.loans, p.2.borrower ≠ st) :
    takeLenderEvent .peerNewEpoch st v = noWrite (emptyLastGrantOf st (stopOfferTo st v)) := by
  have hnone : (v.loanUp && v.mm.loans.any fun p => isOldLoan st e p.2) = false := by
    refine Bool.and_eq_false_imp.mpr fun _ => Bool.eq_false_iff.mpr fun h => ?_
    obtain ⟨p, hp, hold⟩ := List.any_eq_true.mp h
    simp only [isOldLoan, Bool.and_eq_true, beq_iff_eq] at hold
    exact hl p hp hold.1
  simp [takeLenderEvent, he, hnone]

/-- PEER-NEW-EPOCH of a station that lends under the old epoch, has no pending record and no loan, its write failing. -/
theorem newEpoch_fails {v : State} {st : Station} {e known : Epoch} (hi : v.inflight = none) (ht : v.tasks = []) (hw : m.writes = [.fails])
    (hc : v.cond = .ready) (hup : v.loanUp = true) (he : (rosterOf v.roster st).epoch = some e) (hk : (peerOf v.mm st).known = some known)
    (hne : known ≠ e) (hp : ∀ r ∈ v.mm.pendings, r.requester ≠ st) (hl : ∀ p ∈ v.mm.loans, p.2.borrower ≠ st) :
    AfterFailure v (perform m (eventTasks st .peerNewEpoch) v) ∧ (perform m (eventTasks st .peerNewEpoch) v).tasks = [] := by
  have hnone : v.mm.pendings.find? (RollbackOf.requester st).takes = none :=
    List.find?_eq_none.mpr fun r hr ht => hp r hr (beq_iff_eq.mp ht)
  have hmap : Leads 1 m.writes m.writes (withTasks (eventTasks st .peerNewEpoch) v)
      (withTasks (.rollback (.requester st) :: (eventTasks st .peerNewEpoch).tail) v) := leads_noWrite hi rfl rfl
  have hroll := leads_rollback_none (fates := m.writes) (s := withTasks (eventTasks st .peerNewEpoch).tail v) hi hnone
  let x := reportDataLost st e v
  have hlost : reportDataLost st e (withTasks [.lenderEvent .peerNewEpoch st, .judgeQuiet] v)
      = withTasks [.lenderEvent .peerNewEpoch st, .judgeQuiet] x := by
    unfold x reportDataLost
    dsimp only
    rw [report_withTasks]
    exact (apply_ite (withTasks _) _ _ _).symm
  have hborrow : Leads 1 [.fails] [] (withTasks (eventTasks st .peerNewEpoch).tail v)
      (withTasks [.mapMemError, .lenderEvent .peerNewEpoch st, .judgeQuiet] { x with inflight := none }) := by
    have htk := takeBorrowerEvent_otherEpoch (v := withTasks [.lenderEvent .peerNewEpoch st, .judgeQuiet] v) hup he hk hne
    have hfails := leads_fails (fates := []) (t := .borrowerEvent .peerNewEpoch st) (rest := [.lenderEvent .peerNewEpoch st, .judgeQuiet])
      (s := withTasks (eventTasks st .peerNewEpoch).tail v) hi rfl htk
    rw [hlost] at hfails
    exact hfails
  have hxi : ({ x with inflight := none } : State).inflight = none := rfl
  have herror := does_mapMemError.leads (fates := []) (rest := [.lenderEvent .peerNewEpoch st, .judgeQuiet]) hxi
  let y := mapMemError { x with inflight := none }
  have hsame {α : Type} (field : State → α) := congrArg field (mapMemError_frame { x with inflight := none })
  have hymm : y.mm = v.mm := (hsame State.mm).trans (reportDataLost_mm st e v)
  have hyi : y.inflight = none := hsame State.inflight
  have hyt : y.tasks = [] := (hsame State.tasks).trans ((reportDataLost_tasks st e v).trans ht)
  have hafter : AfterFailure v y :=
    afterFailure_mapMemError (reportDataLost_mm ..) (reportDataLost_rotor ..) rfl ((reportDataLost_cond ..).trans hc)
  let z := emptyLastGrantOf st (stopOfferTo st y)
  have hz : z = { y with offer := z.offer, link := z.link, lastGrants := z.lastGrants, tasks := z.tasks } := by
    unfold z
    rw [emptyLastGrantOf_frame, stopOfferTo_frame]
  have hlend : Leads 1 [] [] (withTasks [.lenderEvent .peerNewEpoch st, .judgeQuiet] y) (withTasks [.judgeQuiet] z) := by
    refine leads_noWrite hyi rfl ?_
    have hye : (rosterOf y.roster st).epoch = some e := by
      rw [(hsame State.roster : y.roster = _), (congrArg State.roster (reportDataLost_frame st e v) : x.roster = _)]
      exact he
    have htk := takeLenderEvent_noLoan (v := withTasks [.judgeQuiet] y) hye fun p hp => hl p (hymm ▸ hp)
    rw [stopOfferTo_withTasks] at htk
    exact htk
  have hzt : z.tasks = [] := (emptyLastGrantOf_tasks st _).trans ((stopOfferTo_tasks st y).trans hyt)
  have hzc : z.cond = .halted := (congrArg State.cond hz).trans hafter.cond
  have hquiet : Leads 1 [] [] (withTasks [.judgeQuiet] z) z := by
    refine leads_noWrite ((congrArg State.inflight hz).trans hyi) rfl ?_
    change noWrite (judgeQuiet (withTasks [] z)) = _
    rw [withTasks_self hzt, judgeQuiet_of_cond (by rw [hzc]; decide)]
    rfl
  have hhead := hmap.trans hroll
  rw [hw] at hhead
  have hperform : perform m (eventTasks st .peerNewEpoch) v = z := by
    rw [perform_of_rest ht]
    exact ((((hhead.trans hborrow).trans herror).trans hlend).trans hquiet).settle_eq hw (by decide) hzt
  rw [hperform]
  exact ⟨hafter.of_frame hz, hzt⟩

theorem hail_fails (hrest : RestAt m s u) (hw : m.writes = [.fails]) (hc : u.cond = .ready) {source : Station} {h : HailBody} {was known : Epoch}
    (hq : h.q ≤ 1000) (hown : source ≠ u.own) (hb : source ≠ broadcast) (hi : h.identity = 2) (hl : h.cond ≠ .leaving) (hup : u.loanUp = true)
    (hpres : (rosterOf u.roster source).state = .present) (hwas : (rosterOf u.roster source).epoch = some was) (hnew : was ≠ bornEpoch h)
    (hk : (peerOf u.mm source).known = some known) (hne : known ≠ bornEpoch h) (hp : ∀ r ∈ u.mm.pendings, r.requester ≠ source)
    (hloans : ∀ p ∈ u.mm.loans, p.2.borrower ≠ source) :
    ∃ t, exec (.hail source h m) s = .next t ∧ AfterFailure u t ∧ t.tasks = [] := by
  let v := hailed source h u .present (some (bornEpoch h))
  have hframe {α : Type} (field : State → α) := congrArg field (hailed_frame source h u .present (some (bornEpoch h)))
  have hvmm : v.mm = u.mm := hframe State.mm
  have hepoch : (rosterOf v.roster source).epoch = some (bornEpoch h) := by rw [rosterOf_hailed_same]; rfl
  have hnewEpoch : renewal (some was) (bornEpoch h) = [.peerNewEpoch] := by simp [renewal, hnew]
  have hexec := exec_hail_present hrest.onAt hq (by rw [hc]; decide) hown hb hi hl
  rw [hpres, hwas, appearance, if_pos rfl, hnewEpoch] at hexec
  obtain ⟨hafter, hend⟩ := newEpoch_fails (m := m) (v := v) ((hframe State.inflight).trans hrest.inflight)
    ((hframe State.tasks).trans hrest.tasks) hw ((hframe State.cond).trans hc) ((hframe State.loanUp).trans hup) hepoch
    (by rwa [hvmm]) hne (by rwa [hvmm]) (by rwa [hvmm])
  refine ⟨_, hexec, ?_, ?_⟩
  · rw [List.nil_append, List.flatMap_singleton]
    exact { hafter with mm := hafter.mm.trans hvmm, rotor := hafter.rotor.trans (hframe State.rotor) }
  · rw [List.nil_append, List.flatMap_singleton]
    exact hend

end events

/-- Settles O30: the requests, the other events and the error itself, by condition. -/
theorem mapMemoryFails : Obligations.MapMemoryFails := by
  refine ⟨requests_fail, fun cmd m s u hrest hw hc hcases => ?_, mapMemError_by_condition⟩
  have hfails : ∃ t, exec cmd s = .next t ∧ AfterFailure u t ∧ t.tasks = [] := by
    obtain ⟨rfl, hdue, hv, ht, hr⟩ | ⟨source, askId, count, o, rfl, hb, hs, ho, ha, hi, hp, hpres, he, hg⟩
      | ⟨source, askId, r, more, rfl, hwf, hs, hl, hi, hn, he, hp, hroom⟩ | ⟨source, reason, loans, rfl, hwf, h⟩
      | ⟨source, h, was, known, rfl, hq, hown, hb, hi, hl, hup, hpres, hwas, hnew, hk, hne, hp, hloans⟩ := hcases
    · exact walker_fails hrest hw hc hdue hv ht hr
    · exact take_fails hrest hw hc hb hs ho ha hi hp hpres he hg
    · exact grant_fails hrest hw hc hwf hs hl hi hn he hp hroom
    · exact giveback_fails hrest hw hc hwf h
    · exact hail_fails hrest hw hc hq hown hb hi hl hup hpres hwas hnew hk hne hp hloans
  obtain ⟨t, ht, hafter, htasks⟩ := hfails
  exact ⟨t, ht, hafter.mm, hafter.rotor, hafter.inflight, htasks, hafter.cond, hafter.reported, hafter.walker, hafter.ask⟩

end Sys2Proof.Machine

/-! The walker's period of one visit: the entry it finds, or the end of the range (R64 to R71). -/

namespace Sys2Proof.Machine

/-! ## The entry a visit finds -/

/-- The entry a range is at, given by the chunks before it (R65). -/
theorem nextEntry_of_first {mm : MapMemory} {r : TrimRange} {c : Nat} {e : Entry} (hw : tableWf mm.chunks) (hfrom : r.cursor ≤ c)
    (hto : c ≤ r.last) (he : entryOf mm r.volume c = some e) (hbefore : ∀ b, r.cursor ≤ b → b < c → entryOf mm r.volume b = none) :
    nextEntry mm r = some (c, e) := by
  have hmem : (chunkKey r.volume c, e) ∈ mm.chunks := tableFind_mem he
  have htest : (decide (chunkKey r.volume r.cursor ≤ chunkKey r.volume c) && decide (chunkKey r.volume c ≤ chunkKey r.volume r.last)) = true := by
    rw [Bool.and_eq_true]
    constructor <;> refine decide_eq_true ?_ <;> unfold chunkKey <;> omega
  unfold nextEntry
  cases hp : mm.chunks.find? fun p => chunkKey r.volume r.cursor ≤ p.1 && p.1 ≤ chunkKey r.volume r.last with
  | none => exact absurd htest (List.find?_eq_none.mp hp _ hmem)
  | some p =>
    have hrange : chunkKey r.volume r.cursor ≤ p.1 ∧ p.1 ≤ chunkKey r.volume r.last := by simpa using List.find?_some hp
    have hle : p.1 ≤ chunkKey r.volume c := find_first_lt hw hp hmem htest
    have hfound : tableFind mm.chunks p.1 = some p.2 := tableFind_of_mem hw (List.mem_of_find?_eq_some hp)
    obtain ⟨b, hb⟩ : ∃ b, p.1 = chunkKey r.volume b := ⟨p.1 - chunkKey r.volume 0, by unfold chunkKey at hrange ⊢; omega⟩
    have hcursor : r.cursor ≤ b ∧ b ≤ c := by unfold chunkKey at hrange hle hb; omega
    have hentry : entryOf mm r.volume b = some p.2 := by rwa [entryOf, ← hb]
    obtain hlt | rfl := Nat.lt_or_eq_of_le hcursor.2
    · exact nomatch (hbefore b hcursor.1 hlt).symm.trans hentry
    · have hkey : p.1 - chunkKey r.volume 0 = b := by unfold chunkKey at hb ⊢; omega
      rw [Option.map_some, hkey, Option.some.inj (hentry.symm.trans he)]

theorem nextEntry_of_none {mm : MapMemory} {r : TrimRange} (h : ∀ b, r.cursor ≤ b → b ≤ r.last → entryOf mm r.volume b = none) :
    nextEntry mm r = none := by
  unfold nextEntry
  refine Option.map_eq_none_iff.mpr (List.find?_eq_none.mpr fun p hp ht => ?_)
  have hrange : chunkKey r.volume r.cursor ≤ p.1 ∧ p.1 ≤ chunkKey r.volume r.last := by simpa using ht
  unfold chunkKey at hrange
  have hnone := h (p.1 - chunkKey r.volume 0) (by unfold chunkKey; omega) (by unfold chunkKey; omega)
  exact tableFind_none.mp hnone p hp (by unfold chunkKey; omega)

/-! ## A visit -/

section visit
variable {m : Moment} {v : State} {r : TrimRange} {rest : List TrimRange} {c : Nat} {e : Entry}

theorem takeWalk_entry {left : Nat} (hworks : walkerWorks v = true) (ht : v.mm.trims = r :: rest) (hn : nextEntry v.mm r = some (c, e))
    (hroom : (visitEntry r c e v.mm v).handback = none ∨ hasPlace v = true) :
    takeWalk (left + 1) v
      = writing (reserveHandback (visitEntry r c e v.mm v).handback v) (visitEntry r c e v.mm v).mm
          (handbackTasks true (visitEntry r c e v.mm v).handback) [.walk left]
          (releaseTasks (visitEntry r c e v.mm v).handback ++ [.mapMemError]) := by
  have hgo : ((visitEntry r c e v.mm v).handback.isSome && !hasPlace v) = false := by
    obtain h | h := hroom <;> rw [h]
    · rfl
    · exact Bool.and_false _
  unfold takeWalk
  simp only [hworks, if_true, ht, hn, hgo, Bool.false_eq_true, if_false]

theorem takeWalk_no_place {left : Nat} (hworks : walkerWorks v = true) (ht : v.mm.trims = r :: rest) (hn : nextEntry v.mm r = some (c, e))
    (hb : (visitEntry r c e v.mm v).handback ≠ none) (hp : hasPlace v = false) : takeWalk (left + 1) v = noWrite v := by
  have hgo : ((visitEntry r c e v.mm v).handback.isSome && !hasPlace v) = true := by
    rw [hp, Option.isSome_iff_ne_none.mpr hb]
    rfl
  unfold takeWalk
  simp only [hworks, if_true, ht, hn, hgo]

/-- The station after a disposal's write, its loan handed back. -/
def visited (d : Removal) (v : State) : State := handedBack d.handback { reserveHandback d.handback v with mm := d.mm }

/-- A change of map memory written at rest. -/
theorem written_at_rest {w : MapWrite} (hi : v.inflight = none) (hrot : w.rotor = v.rotor) : written w v = { v with mm := w.image } := by
  unfold written
  rw [hrot, ← hi]

theorem handedBack_mm (hb : Option Handback) (s : State) : (handedBack hb s).mm = s.mm := by
  cases hb with
  | none => rfl
  | some x => exact (sendGiveback_mm ..)

theorem handedBack_tasks (hb : Option Handback) (s : State) : (handedBack hb s).tasks = s.tasks := by
  cases hb with
  | none => rfl
  | some x => exact (sendGiveback_tasks ..)

/-- The station after a visit to an entry: the handback sent, R90 judged. -/
def afterVisit (d : Removal) (v : State) : State := askJudged false v { v with mm := d.mm } (visited d v)

theorem afterVisit_mm (d : Removal) (v : State) : (afterVisit d v).mm = d.mm := (askJudged_mm ..).trans (handedBack_mm ..)

theorem afterVisit_tasks (d : Removal) (v : State) : (afterVisit d v).tasks = v.tasks := by
  refine (askJudged_tasks ..).trans ((handedBack_tasks ..).trans ?_)
  cases d.handback <;> rfl

theorem afterVisit_inflight (d : Removal) (v : State) : (afterVisit d v).inflight = v.inflight := by
  refine (askJudged_inflight ..).trans (((also_handback d.handback).does.inflight _).trans ?_)
  cases d.handback <;> rfl

/-- A visit's write completed; the range still there keeps a drain from its end. -/
theorem leads_visit {d : Removal} {left : Nat} (hi : v.inflight = none) (htasks : v.tasks = [])
    (htk : takeTask (.walk (left + 1)) v = writing (reserveHandback d.handback v) d.mm (handbackTasks true d.handback) [.walk left]
      (releaseTasks d.handback ++ [.mapMemError])) (htrims : d.mm.trims ≠ []) :
    ∃ k ≤ 4, Leads k [] [] (withTasks [.walk (left + 1)] v) (withTasks [.walk left] (afterVisit d v)) := by
  let s' := reserveHandback d.handback v
  let w : MapWrite :=
    { image := d.mm, rotor := s'.rotor, takes := false, onDone := handbackTasks true d.handback, goOn := [.walk left]
      onFail := releaseTasks d.handback ++ [.mapMemError] }
  obtain ⟨hsi, hst, hsp, hsm⟩ : s'.inflight = none ∧ s'.tasks = [] ∧ s'.presence = v.presence ∧ s'.mm = v.mm := by
    unfold s' reserveHandback
    split <;> exact ⟨hi, htasks, rfl, rfl⟩
  have hwritten : written w s' = { s' with mm := d.mm } := written_at_rest hsi rfl
  have hstart : withTasks [] (withTasks [.walk (left + 1)] v) = v := by rw [withTasks_withTasks, withTasks_self htasks]
  have hwrite : Leads 1 [] [] (withTasks [.walk (left + 1)] v) (completeWrite w s') :=
    leads_write (rest := []) hi rfl (by rw [hstart]; exact htk)
  obtain ⟨k, hk, hdone⟩ := leads_completed (fates := []) (w := w) (also_handback d.handback).does s'
  have hlen : w.onDone.length ≤ 1 := by
    unfold w handbackTasks
    cases d.handback <;> exact Nat.le_of_ble_eq_true rfl
  have hjudged : askJudged false s' (written w s') (visited d v) = afterVisit d v := by
    unfold afterVisit askJudged presentSets
    rw [hwritten]
    simp only [hsp, hsm]
  have hfull : (withTasks (w.goOn ++ s'.tasks) (askJudged w.takes s' (written w s') (handedBack d.handback (written w s'))))
      = withTasks [.walk left] (afterVisit d v) := by
    have hvisited : visited d v = handedBack d.handback (written w s') := by rw [hwritten]; rfl
    rw [← hjudged, hst, hvisited]
    rfl
  have hleft : (afterVisit d v).mm.trims ≠ [] := by rwa [afterVisit_mm]
  rw [hfull, quietJudged_of_trims (s := withTasks [.walk left] _) hleft] at hdone
  exact ⟨1 + k, by omega, hwrite.trans hdone⟩

theorem leads_walk_over {x : State} (hi : x.inflight = none) (ht : x.tasks = []) : Leads 1 [] [] (withTasks [.walk 0] x) x := by
  have hover : Leads 1 [] [] (withTasks [.walk 0] x) (withTasks [] x) := leads_noWrite hi rfl rfl
  rwa [withTasks_self ht] at hover

theorem perform_visit {d : Removal} (hi : v.inflight = none) (htasks : v.tasks = []) (hw : m.writes = [])
    (htk : takeTask (.walk 1) v = writing (reserveHandback d.handback v) d.mm (handbackTasks true d.handback) [.walk 0]
      (releaseTasks d.handback ++ [.mapMemError])) (htrims : d.mm.trims ≠ []) :
    perform m [.walk 1] v = afterVisit d v := by
  obtain ⟨k, hk, hvisit⟩ := leads_visit hi htasks htk htrims
  have hend : (afterVisit d v).tasks = [] := (afterVisit_tasks d v).trans htasks
  have hover := leads_walk_over ((afterVisit_inflight d v).trans hi) hend
  rw [perform_of_rest htasks]
  exact (hvisit.trans hover).settle_eq hw (by simp only [workBound]; omega) hend

/-- The walker's timer restarted (R64). -/
def walkTimed (u : State) : State := { u with walkerTimer := some (u.now + u.profile.walkerPeriod * 4) }

theorem exec_walkerPeriod_one {s u : State} {x : Time} (hrest : RestAt m s u) (hworks : walkerWorks u = true) (hx : u.walkerTimer = some x)
    (hdue : x ≤ u.now) (hone : u.profile.walkerVisits = 1) : exec (.walkerPeriod m) s = .next (perform m [.walk 1] (walkTimed u)) := by
  rw [exec_walkerPeriod_on hrest.onAt, if_pos ⟨hworks, isDue_iff.mpr ⟨x, hx, hdue⟩⟩, hone]
  rfl

/-- A period whose one visit is not made. -/
theorem perform_walk_idle (hi : v.inflight = none) (ht : v.tasks = []) {n : Nat}
    (htk : takeWalk n v = noWrite v) : perform m [.walk n] v = v := perform_noWrite hi ht htk ht

end visit

/-! ## The period of one visit to an entry -/

section period
variable {m : Moment} {s u : State} {r : TrimRange} {rest : List TrimRange} {c : Nat} {e : Entry} {x : Time} (hrest : RestAt m s u)
  (hw : m.writes = []) (hworks : walkerWorks u = true) (hx : u.walkerTimer = some x) (hdue : x ≤ u.now) (hone : u.profile.walkerVisits = 1)
  (ht : u.mm.trims = r :: rest) (hn : nextEntry u.mm r = some (c, e))
include hrest hw hworks hx hdue hone ht hn

theorem exec_visit {d : Removal} (hd : visitEntry r c e u.mm u = d) (htrims : d.mm.trims ≠ []) (hroom : d.handback = none ∨ hasPlace u = true) :
    exec (.walkerPeriod m) s = .next (askJudged false u { u with mm := d.mm } (visited d (walkTimed u))) := by
  subst hd
  rw [exec_walkerPeriod_one hrest hworks hx hdue hone,
    perform_visit (v := walkTimed u) (d := visitEntry r c e u.mm u) hrest.inflight hrest.tasks hw
      (takeWalk_entry (v := walkTimed u) hworks ht hn hroom) htrims]
  rfl

omit hw in
theorem exec_visit_no_place (hb : (visitEntry r c e u.mm u).handback ≠ none) (hp : hasPlace u = false) :
    exec (.walkerPeriod m) s = .next (walkTimed u) := by
  rw [exec_walkerPeriod_one hrest hworks hx hdue hone,
    perform_walk_idle (v := walkTimed u) hrest.inflight hrest.tasks (takeWalk_no_place (v := walkTimed u) hworks ht hn hb hp)]

end period

/-! ## What a visit does, by the entry's state and place -/

section disposals
variable {mm : MapMemory} {s : State} {r : TrimRange} {rest : List TrimRange} {c : Nat} {e : Entry}

/-- The trim queue with the head range past a chunk (R65). -/
def rangeMoved (r : TrimRange) (rest : List TrimRange) (c : Nat) : List TrimRange := { r with cursor := c + 1 } :: rest

theorem moveCursor_of_head (ht : mm.trims = r :: rest) : moveCursor mm c = { mm with trims := rangeMoved r rest c } := by
  unfold moveCursor
  rw [ht]
  rfl

theorem visitEntry_shielded (ht : mm.trims = r :: rest) (ho : r.origin = .trim) (hs : 0 < e.shield) :
    visitEntry r c e mm s
      = { mm := { putEntry mm r.volume c { e with shield := e.shield - 1 } with trims := rangeMoved r rest c }, handback := none } := by
  unfold visitEntry
  rw [if_pos ⟨ho, hs⟩, moveCursor_of_head (r := r) (rest := rest) (by exact ht)]

theorem visitEntry_open {d : Removal} (ho : r.origin = .delete ∨ e.shield = 0) (hd : disposeEntry s.roster s.presence mm r.volume c e = d)
    (ht : d.mm.trims = r :: rest) :
    visitEntry r c e mm s = { mm := { d.mm with trims := rangeMoved r rest c }, handback := d.handback } := by
  have hnot : ¬ (r.origin = .trim ∧ 0 < e.shield) := by
    rintro ⟨ht, hs⟩
    obtain h | h := ho
    · exact nomatch ht.symm.trans h
    · omega
  unfold visitEntry
  rw [if_neg hnot, hd, ← moveCursor_of_head ht]

theorem rollbackGrain_trims (ro : Table RosterRecord) (pr : List Bool) (mm : MapMemory) (p : Place) :
    (rollbackGrain ro pr mm p).mm.trims = mm.trims := by
  unfold rollbackGrain
  cases p with
  | here bay grain => rfl
  | remote l n b g ep =>
    dsimp only
    split
    · rfl
    · split <;> rfl

theorem rollbackChunk_trims (ro : Table RosterRecord) (pr : List Bool) (mm : MapMemory) (v c : Nat) :
    (rollbackChunk ro pr mm v c).mm.trims = mm.trims := by
  unfold rollbackChunk
  cases entryOf mm v c with
  | none => rfl
  | some e => exact rollbackGrain_trims ..

end disposals

theorem walkerWorks_iff (s : State) : walkerWorks s = true ↔ s.cond = .ready ∨ (s.cond = .drain ∧ s.drainEnded = false) := by
  simp [walkerWorks]

theorem handedBack_cond (hb : Option Handback) (s : State) : (handedBack hb s).cond = s.cond := by
  cases hb with
  | none => rfl
  | some x => exact (sendGiveback_cond ..)

/-- A loan handed back with a place for its GIVEBACK. -/
theorem visited_of_place {u : State} {mm : MapMemory} {h : Handback} (hc : u.cond = .ready ∨ u.cond = .drain) (hp : hasPlace u = true) :
    visited { mm := mm, handback := some h } u
      = pushFrame { dest := h.lender, body := .giveback h.reason [h.loan] } { u with mm := mm } := by
  have hp' : hasPlace { u with mm := mm } = true := hp
  have hrel : releaseOther { reserveOther u with mm := mm } = { u with mm := mm } := rfl
  show sendGiveback h.lender h.reason [h.loan] (releaseOther { reserveOther u with mm := mm }) = _
  rw [hrel, sendGiveback, offerFrame_of_place (s := { u with mm := mm }) hc rfl hp']
  rfl

theorem askJudged_cases (takes : Bool) (before after s : State) : askJudged takes before after s = s ∨ askJudged takes before after s = judgeAsk s := by
  unfold askJudged
  split
  · exact .inr rfl
  · exact .inl rfl

/-- A MAPPED REMOTE entry under its lender's known epoch, handed back. -/
theorem disposeEntry_known {u : State} {r : TrimRange} {c : Nat} {e : Entry} (hm : ∃ st t, e.state = .mapped st t) {lender : Station} {loan bay grain : Nat} {ep : Epoch}
    (hp : e.place = .remote lender loan bay grain ep) (hl : u.judge e.place ≠ .lost) (hk : (peerOf u.mm lender).known = some ep) :
    disposeEntry u.roster u.presence u.mm r.volume c e
      = { mm := lowerInUse (removeEntry u.mm r.volume c) lender, handback := some { lender := lender, loan := loan, reason := .trimmed } } := by
  obtain ⟨st, t, hm⟩ := hm
  rw [hp] at hl
  unfold disposeEntry
  rw [hm, hp]
  exact freeGrain_of_known hl hk

section period
variable {m : Moment} {s u : State} {r : TrimRange} {rest : List TrimRange} {c : Nat} {e : Entry} {x : Time} (hrest : RestAt m s u)
  (hw : m.writes = []) (hworks : walkerWorks u = true) (hx : u.walkerTimer = some x) (hdue : x ≤ u.now) (hone : u.profile.walkerVisits = 1)
  (ht : u.mm.trims = r :: rest) (hn : nextEntry u.mm r = some (c, e))
include hrest hw hworks hx hdue hone ht hn

theorem exec_visit_shielded (ho : r.origin = .trim) (hs : 0 < e.shield) :
    exec (.walkerPeriod m) s
      = .next { walkTimed u with mm := { putEntry u.mm r.volume c { e with shield := e.shield - 1 } with trims := rangeMoved r rest c } } := by
  have hexec := exec_visit hrest hw hworks hx hdue hone ht hn (visitEntry_shielded ht ho hs) (List.cons_ne_nil _ _) (.inl rfl)
  exact hexec.trans (congrArg Host.Outcome.next ((askJudged_of_same (by exact rfl) (by exact rfl)).trans rfl))

section opened
variable (ho : r.origin = .delete ∨ e.shield = 0)
include ho

/-- A visit that disposes of the entry. -/
theorem exec_visit_open {d : Removal} (hd : disposeEntry u.roster u.presence u.mm r.volume c e = d) (htrims : d.mm.trims = u.mm.trims)
    (hroom : d.handback = none ∨ hasPlace u = true) :
    exec (.walkerPeriod m) s
      = .next (askJudged false u { u with mm := { d.mm with trims := rangeMoved r rest c } }
          (visited { mm := { d.mm with trims := rangeMoved r rest c }, handback := d.handback } (walkTimed u))) :=
  exec_visit hrest hw hworks hx hdue hone ht hn (visitEntry_open ho hd (htrims.trans ht)) (List.cons_ne_nil _ _) hroom

omit hw in
theorem exec_visit_open_no_place {d : Removal} (hd : disposeEntry u.roster u.presence u.mm r.volume c e = d) (htrims : d.mm.trims = u.mm.trims)
    (hb : d.handback ≠ none) (hp : hasPlace u = false) : exec (.walkerPeriod m) s = .next (walkTimed u) := by
  refine exec_visit_no_place hrest hworks hx hdue hone ht hn ?_ hp
  rw [visitEntry_open ho hd (htrims.trans ht)]
  exact hb

/-- The walker at a MAPPED entry with nothing to hand back and no grain freed. -/
theorem exec_visit_mapped_lost (hm : ∃ st t, e.state = .mapped st t) {lender : Station} {loan bay grain : Nat} {ep : Epoch}
    (hp : e.place = .remote lender loan bay grain ep) (hl : u.judge e.place = .lost) :
    exec (.walkerPeriod m) s = .next { walkTimed u with mm := { removeEntry u.mm r.volume c with trims := rangeMoved r rest c } } := by
  obtain ⟨st, t, hm⟩ := hm
  have hd : disposeEntry u.roster u.presence u.mm r.volume c e = { mm := removeEntry u.mm r.volume c, handback := none } := by
    rw [hp] at hl
    unfold disposeEntry
    rw [hm, hp]
    exact freeGrain_of_lost hl
  have hexec := exec_visit_open hrest hw hworks hx hdue hone ht hn ho hd rfl (.inl rfl)
  exact hexec.trans (congrArg Host.Outcome.next ((askJudged_of_same (by exact rfl) (by exact rfl)).trans rfl))

theorem exec_visit_mapped_here (hm : ∃ st t, e.state = .mapped st t) {bay grain : Nat} (hp : e.place = .here bay grain) :
    ∃ t, exec (.walkerPeriod m) s = .next t
      ∧ (t = { walkTimed u with mm := { removeEntry u.mm r.volume c with trims := rangeMoved r rest c, freeSets := giveGrain u.mm.freeSets bay grain } }
        ∨ t = judgeAsk { walkTimed u with
            mm := { removeEntry u.mm r.volume c with trims := rangeMoved r rest c, freeSets := giveGrain u.mm.freeSets bay grain } }) := by
  obtain ⟨st, t, hm⟩ := hm
  have hd : disposeEntry u.roster u.presence u.mm r.volume c e
      = { mm := { removeEntry u.mm r.volume c with freeSets := giveGrain u.mm.freeSets bay grain }, handback := none } := by
    unfold disposeEntry
    rw [hm, hp]
    rfl
  exact ⟨_, exec_visit_open hrest hw hworks hx hdue hone ht hn ho hd rfl (.inl rfl), askJudged_cases ..⟩

theorem exec_visit_mapped_known (hm : ∃ st t, e.state = .mapped st t) {lender : Station} {loan bay grain : Nat} {ep : Epoch}
    (hp : e.place = .remote lender loan bay grain ep) (hl : u.judge e.place ≠ .lost) (hk : (peerOf u.mm lender).known = some ep) :
    (hasPlace u = true →
        exec (.walkerPeriod m) s
          = .next (pushFrame { dest := lender, body := .giveback .trimmed [loan] }
              { walkTimed u with mm := { lowerInUse (removeEntry u.mm r.volume c) lender with trims := rangeMoved r rest c } }))
      ∧ (hasPlace u = false → exec (.walkerPeriod m) s = .next (walkTimed u)) := by
  have hd := disposeEntry_known (r := r) (c := c) hm hp hl hk
  refine ⟨fun hplace => ?_, exec_visit_open_no_place hrest hworks hx hdue hone ht hn ho hd rfl (by simp)⟩
  have hexec := exec_visit_open hrest hw hworks hx hdue hone ht hn ho hd rfl (.inr hplace)
  have hc : u.cond = .ready ∨ u.cond = .drain := ((walkerWorks_iff u).mp hworks).imp_right And.left
  have hsent := visited_of_place (u := walkTimed u) (mm := { lowerInUse (removeEntry u.mm r.volume c) lender with trims := rangeMoved r rest c })
    (h := { lender := lender, loan := loan, reason := .trimmed }) hc hplace
  exact hexec.trans (congrArg Host.Outcome.next ((askJudged_of_same (by exact rfl) (by exact rfl)).trans hsent))

theorem exec_visit_pending (hm : ∃ st t ex, e.state = .pending st t ex) {d : Removal} (hd : rollbackChunk u.roster u.presence u.mm r.volume c = d) :
    (d.handback = none ∨ hasPlace u = true →
        ∃ t, exec (.walkerPeriod m) s = .next t ∧ t.mm = { d.mm with trims := rangeMoved r rest c } ∧ t.cond = u.cond)
      ∧ (d.handback ≠ none → hasPlace u = false → exec (.walkerPeriod m) s = .next (walkTimed u)) := by
  obtain ⟨st, t, ex, hm⟩ := hm
  have hdispose : disposeEntry u.roster u.presence u.mm r.volume c e = d := by
    unfold disposeEntry
    rw [hm]
    exact hd
  have htrims : d.mm.trims = u.mm.trims := hd ▸ rollbackChunk_trims ..
  refine ⟨fun hroom => ?_, exec_visit_open_no_place hrest hworks hx hdue hone ht hn ho hdispose htrims⟩
  refine ⟨_, exec_visit_open hrest hw hworks hx hdue hone ht hn ho hdispose htrims hroom, ?_, ?_⟩
  · exact (askJudged_mm ..).trans (handedBack_mm ..)
  · refine (askJudged_cond ..).trans ((handedBack_cond ..).trans ?_)
    cases d.handback <;> rfl

end opened

end period

/-! ## The end of a range -/

theorem offerFrame_reply_of_place {f : OutFrame} {s : State} (hc : s.cond = .ready ∨ s.cond = .drain) (hf : f.isReplyOrAlert = true)
    (hp : hasReplyPlace s = true) : offerFrame f s = some (pushFrame f s) := by
  unfold offerFrame
  rw [refuses_of_works f hc, if_neg Bool.false_ne_true, hf, if_pos rfl, if_pos hp]

section range
variable {m : Moment} {v : State} {r : TrimRange} {rest : List TrimRange}

/-- TRIMMED, for the requester of a range (R70). -/
def trimmedFrame (r : TrimRange) (chunk : Nat) : OutFrame :=
  { dest := r.requester, body := .reply { tag := r.tag, status := .trimmed, volume := r.volume, chunk := chunk, part := .none } }

/-- The REPLY of a range goes into its place. -/
theorem fillReply_trimmed (hc : v.cond = .ready ∨ v.cond = .drain) (hp : hasReplyPlace v = true) (mm : MapMemory) (chunk : Nat) :
    fillReply r.requester (plainReply r.tag .trimmed r.volume chunk) { reserveReply v with mm := mm }
      = pushFrame (trimmedFrame r chunk) { v with mm := mm } := by
  have hp' : hasReplyPlace { v with mm := mm } = true := hp
  have hrel : releaseReply { reserveReply v with mm := mm } = { v with mm := mm } := rfl
  have hoffer := offerFrame_reply_of_place (f := trimmedFrame r chunk) (s := { v with mm := mm }) hc rfl hp'
  unfold fillReply
  rw [hrel]
  exact congrArg (Option.getD · _) hoffer

/-- The station with its range ended and TRIMMED queued, the quiet condition not yet judged. -/
def rangeEnded (r : TrimRange) (chunk : Nat) (mm : MapMemory) (v : State) : State := pushFrame (trimmedFrame r chunk) { v with mm := mm }

/-- What follows the end of a range: the quiet condition, then the visits left, then what the end of a drain brings. -/
theorem leads_range_over {before after y : State} {left : Nat} (hf : presentSets before = presentSets after)
    (hs : before.mm.spares = after.mm.spares) (ht : before.mm.trims ≠ after.mm.trims) (hi : y.inflight = none) (htasks : y.tasks = []) :
    ∃ k ≤ 2, Leads k [] [] (withTasks (judgements false before after ++ [.walk left]) y)
      (withTasks (.walk left :: (judgeQuiet y).tasks) (judgeQuiet y)) := by
  obtain ⟨k, hk, hleads⟩ := leads_judgements (fates := []) false before after [.walk left] hi
  have hquiet := judgeQuiet_withTasks_append [.walk left] y
  rw [htasks, List.append_nil] at hquiet
  rw [askJudged_of_same hf (congrArg List.length hs), quietJudged, if_pos (.inr (.inl ht)), hquiet] at hleads
  exact ⟨k, hk, hleads⟩

theorem takeWalk_end {left : Nat} (hworks : walkerWorks v = true) (ht : v.mm.trims = r :: rest) (hn : nextEntry v.mm r = none)
    (hp : hasReplyPlace v = true) :
    takeWalk (left + 1) v
      = writing (reserveReply v) { v.mm with trims := rest } (rangeEndTasks r) [.walk left] [.releaseReply, .mapMemError] := by
  unfold takeWalk
  simp only [hworks, if_true, ht, hn, hp]

theorem takeWalk_end_no_place {left : Nat} (hworks : walkerWorks v = true) (ht : v.mm.trims = r :: rest) (hn : nextEntry v.mm r = none)
    (hp : hasReplyPlace v = false) : takeWalk (left + 1) v = noWrite v := by
  unfold takeWalk
  simp only [hworks, if_true, ht, hn, hp, Bool.false_eq_true, if_false]

theorem takeWalk_no_range {left : Nat} (ht : v.mm.trims = []) : takeWalk (left + 1) v = noWrite v := by
  unfold takeWalk
  simp only [ht, ite_self]

/-- A write after which nothing calls for a judgement. -/
theorem judgements_nil {before after : State} (hf : presentSets before = presentSets after) (hp : before.mm.pendings = after.mm.pendings)
    (ht : before.mm.trims = after.mm.trims) (hs : before.mm.spares = after.mm.spares) : judgements false before after = [] := by
  simp [judgements, hf, hp, ht, hs]

/-- The write that makes the volume of a DELETE range FREE (R27). -/
theorem leads_freeVolume {x : State} (hi : x.inflight = none) (js : List Task) :
    Leads 1 [] [] (withTasks (.freeVolume r :: js) x)
      (withTasks (.reply r.requester (plainReply r.tag .trimmed r.volume 0) :: js)
        { x with mm := { x.mm with volumes := tableErase x.mm.volumes r.volume } }) := by
  let w : MapWrite :=
    { image := setVolume x.mm r.volume Volume.none, rotor := x.rotor, takes := false
      onDone := [.reply r.requester (plainReply r.tag .trimmed r.volume 0)], goOn := [], onFail := [.releaseReply, .mapMemError] }
  have hwrite : Leads 1 [] [] (withTasks (.freeVolume r :: js) x) (completeWrite w (withTasks js x)) := leads_write hi rfl rfl
  have hvols : setVolume x.mm r.volume Volume.none = { x.mm with volumes := tableErase x.mm.volumes r.volume } := by
    unfold setVolume tableSet
    rw [if_pos rfl]
  have hwritten : written w (withTasks js x) = withTasks js { x with mm := { x.mm with volumes := tableErase x.mm.volumes r.volume } } := by
    rw [written_at_rest (v := withTasks js x) hi rfl, ← hvols]
    rfl
  have hnone : judgements w.takes (withTasks js x) (written w (withTasks js x)) = [] := by
    rw [hwritten]
    exact judgements_nil rfl rfl rfl rfl
  rw [completeWrite_eq, hnone, hwritten] at hwrite
  exact hwrite

theorem judgeQuiet_rangeEnded_tasks (hroom : v.cond = .ready ∨ v.link.occupied + 1 < 32) (htasks : v.tasks = []) (chunk : Nat) (mm : MapMemory) :
    (judgeQuiet (rangeEnded r chunk mm v)).tasks = [] := by
  obtain hc | hroom := hroom
  · rw [judgeQuiet_of_cond (s := rangeEnded r chunk mm v) (fun h => nomatch h.symm.trans hc)]
    exact htasks
  · refine judgeQuiet_tasks_of_place ((hasPlace_iff _).mpr ?_) htasks
    rw [rangeEnded, pushFrame_occupied]
    exact hroom

section ended
variable (hi : v.inflight = none) (htasks : v.tasks = []) (hworks : walkerWorks v = true) (ht : v.mm.trims = r :: rest)
  (hn : nextEntry v.mm r = none) (hp : hasReplyPlace v = true)
include hi htasks hworks ht hn hp

/-- The first write of a range's end takes the range out of the queue. -/
theorem leads_range_out (left : Nat) :
    Leads 1 [] [] (withTasks [.walk (left + 1)] v)
      (withTasks (rangeEndTasks r ++ (judgements false v { v with mm := { v.mm with trims := rest } } ++ [.walk left]))
        { reserveReply v with mm := { v.mm with trims := rest } }) := by
  have hstart : withTasks [] (withTasks [.walk (left + 1)] v) = v := by rw [withTasks_withTasks, withTasks_self htasks]
  have htk := takeWalk_end (left := left) hworks ht hn hp
  have hwrite := leads_write (t := .walk (left + 1)) (rest := []) (s := withTasks [.walk (left + 1)] v) hi rfl (by rw [hstart]; exact htk)
  have hout : written { image := { v.mm with trims := rest }, rotor := v.rotor, takes := false, onDone := rangeEndTasks r, goOn := [.walk left]
                        onFail := [.releaseReply, .mapMemError] } (reserveReply v)
      = { reserveReply v with mm := { v.mm with trims := rest } } := written_at_rest (v := reserveReply v) hi rfl
  rw [completeWrite_eq] at hwrite
  have hrest : (reserveReply v).tasks = [] := htasks
  rw [hrest, List.append_nil] at hwrite
  rw [← hout]
  exact hwrite

/-- The station after the visit that ends a range, before the quiet condition is judged. -/
def rangeDone (r : TrimRange) (rest : List TrimRange) (v : State) : State :=
  if r.origin = .trim then rangeEnded r r.first { v.mm with trims := rest } v
  else rangeEnded r 0 { v.mm with trims := rest, volumes := tableErase v.mm.volumes r.volume } v

theorem leads_range_done (left : Nat) :
    ∃ k ≤ 5, Leads k [] [] (withTasks [.walk (left + 1)] v)
      (withTasks (.walk left :: (judgeQuiet (rangeDone r rest v)).tasks) (judgeQuiet (rangeDone r rest v))) := by
  have hc : v.cond = .ready ∨ v.cond = .drain := ((walkerWorks_iff v).mp hworks).imp_right And.left
  have hout := leads_range_out hi htasks hworks ht hn hp left
  let x : State := { reserveReply v with mm := { v.mm with trims := rest } }
  let js := judgements false v { v with mm := { v.mm with trims := rest } } ++ [.walk left]
  have hchanged : v.mm.trims ≠ rest := ne_of_eq_of_ne ht (List.cons_ne_self _ _)
  have hjudged {y : State} (hyi : y.inflight = none) (hyt : y.tasks = []) :
      ∃ k ≤ 2, Leads k [] [] (withTasks js y) (withTasks (.walk left :: (judgeQuiet y).tasks) (judgeQuiet y)) :=
    leads_range_over (before := v) (after := { v with mm := { v.mm with trims := rest } }) rfl rfl hchanged hyi hyt
  unfold rangeDone rangeEndTasks at *
  cases ho : r.origin with
  | trim =>
    rw [ho] at hout
    rw [if_pos rfl]
    have hreply := (does_reply r.requester (plainReply r.tag .trimmed r.volume r.first)).leads (fates := []) (rest := js) (s := x) hi
    rw [fillReply_trimmed hc hp] at hreply
    obtain ⟨k, hk, hover⟩ := hjudged (y := rangeEnded r r.first { v.mm with trims := rest } v) hi htasks
    exact ⟨1 + 1 + k, by omega, (hout.trans hreply).trans hover⟩
  | delete =>
    rw [ho] at hout
    rw [if_neg (by simp)]
    let freed : MapMemory := { v.mm with trims := rest, volumes := tableErase v.mm.volumes r.volume }
    have hfree := leads_freeVolume (r := r) (x := x) hi js
    have hreply := (does_reply r.requester (plainReply r.tag .trimmed r.volume 0)).leads (fates := []) (rest := js)
      (s := { reserveReply v with mm := freed }) hi
    rw [fillReply_trimmed hc hp] at hreply
    obtain ⟨k, hk, hover⟩ := hjudged (y := rangeEnded r 0 freed v) hi htasks
    exact ⟨1 + 1 + 1 + k, by omega, ((hout.trans hfree).trans hreply).trans hover⟩

/-- A period of one visit that ends a range, with room for HAIL(LEAVING) should it end the drain. -/
theorem perform_range_done (hw : m.writes = []) (hroom : v.cond = .ready ∨ v.link.occupied + 1 < 32) :
    perform m [.walk 1] v = judgeQuiet (rangeDone r rest v) := by
  obtain ⟨k, hk, hdone⟩ := leads_range_done hi htasks hworks ht hn hp 0
  have hyi : (rangeDone r rest v).inflight = none := by unfold rangeDone; split <;> exact hi
  have hend : (judgeQuiet (rangeDone r rest v)).tasks = [] := by
    unfold rangeDone
    split <;> exact judgeQuiet_rangeEnded_tasks hroom htasks _ _
  have hover := leads_walk_over ((passes_judgeQuiet _).inflight.trans hyi) hend
  rw [hend] at hdone
  rw [perform_of_rest htasks]
  exact (hdone.trans hover).settle_eq hw (by simp only [workBound]; omega) hend

end ended

end range

/-- Settles O48: an entry by its state and place, or the end of the range. -/
theorem walkerWorks_holds : Obligations.WalkerWorks := by
  constructor
  · intro m s u r rest c e x hrest hw hworks hx hdue hone ht _ hwf hfrom hto he hbefore
    have hn := nextEntry_of_first hwf hfrom hto he hbefore
    refine ⟨exec_visit_shielded hrest hw hworks hx hdue hone ht hn, fun ho hm => ⟨fun bay grain hp => ?_, fun lender loan bay grain ep hp => ?_⟩,
      fun ho hm => ?_⟩
    · exact exec_visit_mapped_here hrest hw hworks hx hdue hone ht hn ho hm hp
    · exact ⟨exec_visit_mapped_lost hrest hw hworks hx hdue hone ht hn ho hm hp,
        exec_visit_mapped_known hrest hw hworks hx hdue hone ht hn ho hm hp⟩
    · exact exec_visit_pending hrest hw hworks hx hdue hone ht hn ho hm rfl
  · intro m s u x hrest hw hx hdue
    have hexec := exec_walkerPeriod_on hrest.onAt
    refine ⟨walkerWorks_iff u, fun hno => ?_, fun hworks ht => ?_, fun r rest hworks hone ht _ hnone =>
      ⟨fun hp => ?_, fun hp hroom => ⟨fun ho => ?_, fun ho => ?_⟩⟩⟩
    · rw [hexec, if_neg (by simp [hno])]
    · have hidle : takeWalk u.profile.walkerVisits (walkTimed u) = noWrite (walkTimed u) := by
        cases u.profile.walkerVisits with
        | zero => rfl
        | succ k => exact takeWalk_no_range ht
      rw [hexec, if_pos ⟨hworks, isDue_iff.mpr ⟨x, hx, hdue⟩⟩]
      exact congrArg Host.Outcome.next (perform_walk_idle (v := walkTimed u) hrest.inflight hrest.tasks hidle)
    · rw [exec_walkerPeriod_one hrest hworks hx hdue hone,
        perform_walk_idle (v := walkTimed u) hrest.inflight hrest.tasks (takeWalk_end_no_place hworks ht (nextEntry_of_none hnone) hp)]
      rfl
    · rw [exec_walkerPeriod_one hrest hworks hx hdue hone,
        perform_range_done (v := walkTimed u) hrest.inflight hrest.tasks hworks ht (nextEntry_of_none hnone) hp hw hroom, rangeDone, if_pos ho]
      rfl
    · rw [exec_walkerPeriod_one hrest hworks hx hdue hone,
        perform_range_done (v := walkTimed u) hrest.inflight hrest.tasks hworks ht (nextEntry_of_none hnone) hp hw hroom, rangeDone,
        if_neg (by simp [ho])]
      rfl

end Sys2Proof.Machine

/-! A walker period of several visits (R64): each visit as a function of the station, indifferent to how many visits a period makes. -/

namespace Sys2Proof.Machine

/-! ## The number of visits a period makes -/

/-- A station whose walker makes another number of visits a period. -/
def withVisits (n : Nat) (s : State) : State := { s with profile := { s.profile with walkerVisits := n } }

theorem withVisits_withVisits (n k : Nat) (s : State) : withVisits n (withVisits k s) = withVisits n s := rfl

theorem withVisits_self {s : State} {n : Nat} (h : s.profile.walkerVisits = n) : withVisits n s = s := by
  subst h
  rfl

/-- An operation that no station of another number of visits makes otherwise. -/
def IgnoresVisits (g : State → State) : Prop := ∀ n s, g (withVisits n s) = withVisits n (g s)

theorem offered_withVisits {d : State → State} (hd : IgnoresVisits d) (f : OutFrame) (n : Nat) (s : State) :
    (offerFrame f (withVisits n s)).getD (d (withVisits n s)) = withVisits n ((offerFrame f s).getD (d s)) := by
  have hoffer : offerFrame f (withVisits n s) = (offerFrame f s).map (withVisits n) := by
    unfold offerFrame
    show (if refuses s.cond f = true then _ else if f.isReplyOrAlert = true then if hasReplyPlace s = true then _ else _
      else if hasPlace s = true then _ else _) = _
    repeat' split
    all_goals rfl
  rw [hoffer, hd]
  cases offerFrame f s <;> rfl

theorem report_withVisits (f : Flag) : IgnoresVisits (report f) := by
  intro n s
  have hoffer := offered_withVisits (d := id) (fun _ _ => rfl) { dest := broadcast, body := .alert f s.cond.code } n { s with faults := s.faults.set f }
  unfold report
  dsimp only
  split
  · rw [if_pos (by assumption)]
    exact congrArg judgeAttention hoffer
  · rw [if_neg (by assumption)]
    rfl

theorem sendGiveback_withVisits (a : Station) (r : GivebackReason) (ls : List Nat) : IgnoresVisits (sendGiveback a r ls) := fun n s =>
  offered_withVisits (report_withVisits .givebackUndelivered) _ n s

theorem withdrawOffer_withVisits (later : Bool) : IgnoresVisits (withdrawOffer later) := by
  intro n s
  unfold withdrawOffer
  rw [show offerDriving (withVisits n s) = offerDriving s from rfl, show (withVisits n s).offer = s.offer from rfl]
  repeat' split
  all_goals rfl

theorem yieldOffer_withVisits : IgnoresVisits yieldOffer := by
  intro n s
  unfold yieldOffer
  rw [show (withVisits n s).offer = s.offer from rfl]
  split
  · rfl
  · exact withdrawOffer_withVisits false n s
  · rfl

theorem startAsk_withVisits : IgnoresVisits startAsk := by
  intro n s
  unfold startAsk
  rw [show (withVisits n s).cond = s.cond from rfl, show (withVisits n s).ask = s.ask from rfl, show (withVisits n s).mm = s.mm from rfl]
  split
  · rfl
  · dsimp only
    rw [← yieldOffer_withVisits]
    congr 1
    split
    · rfl
    · exact offered_withVisits (d := failAsk) (fun _ _ => rfl) _ n { s with
        ask := { s.ask with
          state := .calling, askId := s.ask.askId + 1,
          wanted := ownWanted s.profile.maxLoan s.profile.spareTarget s.mm.spares.length, timer := none, lender := none,
          offerCount := 0 } }

theorem judgeAsk_withVisits : IgnoresVisits judgeAsk := by
  intro n s
  by_cases h : s.cond = .ready ∧ s.short = true ∧ s.mm.spares.length < s.profile.spareTarget ∧ s.ask.state = .idle
      ∧ anyShelfPresent s.roster = true
  · have h' : judgeAsk s = startAsk s := if_pos h
    rw [h', ← startAsk_withVisits]
    exact if_pos h
  · have h' : judgeAsk s = s := if_neg h
    rw [h']
    exact if_neg h

theorem toldDropped_withVisits (b : FrameBody) : IgnoresVisits (toldDropped b) := by
  intro n s
  unfold toldDropped
  rw [show (withVisits n s).ask = s.ask from rfl, show (withVisits n s).offer = s.offer from rfl,
    show grantAccepted (withVisits n s) = grantAccepted s from rfl]
  cases b with
  | ask | take | offer => dsimp only; split <;> rfl
  | grant | giveback => exact report_withVisits _ _ _
  | reply | hail | alert => rfl

theorem toldRemoved_withVisits (fs : List OutFrame) : IgnoresVisits (toldRemoved fs) := by
  intro n s
  unfold toldRemoved
  induction fs generalizing s with
  | nil => rfl
  | cons f fs ih => rw [List.foldl_cons, List.foldl_cons, toldDropped_withVisits, ih]

theorem enterQuiet_withVisits : IgnoresVisits enterQuiet := by
  intro n s
  have hsame (v : State) : enterQuiet v = withTasks (enterQuiet v).tasks (toldRemoved v.link.frames (silenced .quiet v)) := rfl
  rw [hsame, hsame s, enterQuiet_tasks_eq, enterQuiet_tasks_eq, show silenced .quiet (withVisits n s) = withVisits n (silenced .quiet s) from rfl,
    toldRemoved_withVisits]
  rfl

theorem judgeQuiet_withVisits : IgnoresVisits judgeQuiet := by
  intro n s
  by_cases h : s.cond = .drain ∧ s.drainEnded = false ∧ s.drainTimer.isSome = true ∧ quietCondition s = true
  · have hend : endDrain (withVisits n s) = withVisits n (endDrain s) := by
      rw [endDrain_eq, endDrain_eq]
      exact offered_withVisits enterQuiet_withVisits (buildHail .leaving (drainOver s)) n (drainOver s)
    have h' : judgeQuiet s = endDrain s := if_pos h
    rw [h', ← hend]
    exact if_pos h
  · have h' : judgeQuiet s = s := if_neg h
    rw [h']
    exact if_neg h

theorem resumeStart_withVisits : IgnoresVisits resumeStart := by
  intro n s
  rw [resumeStart_eq, resumeStart_eq]
  cases hv : headerValid s.profile s.mm with
  | true =>
    rw [checkHeader_of_valid (s := resumeBlank s) hv, checkHeader_of_valid (s := resumeBlank (withVisits n s)) hv]
    rfl
  | false =>
    rw [checkHeader_of_not_valid (s := resumeBlank s) hv, checkHeader_of_not_valid (s := resumeBlank (withVisits n s)) hv,
      show resumeBlank (withVisits n s) = withVisits n (resumeBlank s) from rfl, report_withVisits]
    rfl

theorem askJudged_withVisits (takes : Bool) (before after : State) : IgnoresVisits (askJudged takes before after) := by
  intro n s
  unfold askJudged
  split
  · exact judgeAsk_withVisits n s
  · rfl

theorem handedBack_withVisits (hb : Option Handback) : IgnoresVisits (handedBack hb) := by
  intro n s
  cases hb with
  | none => rfl
  | some h => exact sendGiveback_withVisits _ _ _ n (releaseOther s)

theorem afterVisit_withVisits (d : Removal) : IgnoresVisits (afterVisit d) := by
  intro n s
  have hvisited : visited d (withVisits n s) = withVisits n (visited d s) := by
    unfold visited
    cases d.handback with
    | none => exact handedBack_withVisits none n { s with mm := d.mm }
    | some h => exact handedBack_withVisits (some h) n { reserveOther s with mm := d.mm }
  unfold afterVisit
  rw [hvisited, ← askJudged_withVisits]
  rfl

/-! ## One visit -/

theorem freeGrain_trims (ro : Table RosterRecord) (pr : List Bool) (mm : MapMemory) (p : Place) : (freeGrain ro pr mm p).mm.trims = mm.trims := by
  cases p with
  | here bay grain => rfl
  | remote l n b g ep =>
    unfold freeGrain
    dsimp only
    split
    · rfl
    · dsimp only
      split <;> rfl
    · rfl

theorem visitEntry_trims {mm : MapMemory} {s : State} {r : TrimRange} {rest : List TrimRange} {c : Nat} {e : Entry} (ht : mm.trims = r :: rest) :
    (visitEntry r c e mm s).mm.trims = rangeMoved r rest c := by
  unfold visitEntry
  split
  · exact congrArg MapMemory.trims (moveCursor_of_head (mm := putEntry mm r.volume c _) ht)
  · have hd : (disposeEntry s.roster s.presence mm r.volume c e).mm.trims = r :: rest := by
      rw [← ht]
      unfold disposeEntry
      split
      · exact rollbackChunk_trims ..
      · exact freeGrain_trims ..
    exact congrArg MapMemory.trims (moveCursor_of_head hd)

theorem nextEntry_cursor_le {mm : MapMemory} {r : TrimRange} {c : Nat} {e : Entry} (h : nextEntry mm r = some (c, e)) : r.cursor ≤ c := by
  unfold nextEntry at h
  obtain ⟨p, hp, hpe⟩ := Option.map_eq_some_iff.mp h
  have hrange : chunkKey r.volume r.cursor ≤ p.1 ∧ p.1 ≤ chunkKey r.volume r.last := by simpa using List.find?_some hp
  obtain ⟨hc, -⟩ := Prod.mk.inj hpe
  unfold chunkKey at hrange hc
  omega

/-- The station after a visit that is made, `none` where none is (R65, R70). -/
def visitMade (v : State) : Option State :=
  match v.mm.trims with
  | [] => none
  | r :: rest =>
    match nextEntry v.mm r with
    | some (c, e) =>
      let d := visitEntry r c e v.mm v
      if d.handback.isSome && !hasPlace v then none else some (afterVisit d v)
    | none => if hasReplyPlace v then some (judgeQuiet (rangeDone r rest v)) else none

theorem visitMade_withVisits (n : Nat) (v : State) : visitMade (withVisits n v) = (visitMade v).map (withVisits n) := by
  unfold visitMade
  rw [show (withVisits n v).mm = v.mm from rfl]
  split
  · rfl
  · split
    · dsimp only
      split
      · rw [if_pos (by assumption)]
        rfl
      · rw [if_neg (by assumption)]
        exact congrArg some (afterVisit_withVisits _ n v)
    · rename_i r rest _ _ _
      have hdone : rangeDone r rest (withVisits n v) = withVisits n (rangeDone r rest v) := by
        unfold rangeDone
        split <;> rfl
      split
      · rw [if_pos (by assumption), hdone, judgeQuiet_withVisits]
        rfl
      · rw [if_neg (by assumption)]
        rfl

theorem takeWalk_of_not_made {v : State} (left : Nat) (h : visitMade v = none) : takeWalk (left + 1) v = noWrite v := by
  cases hworks : walkerWorks v with
  | false =>
    unfold takeWalk
    simp [hworks]
  | true =>
    unfold visitMade at h
    split at h
    · rename_i ht
      exact takeWalk_no_range ht
    · rename_i r rest ht
      split at h
      · rename_i c e hn
        dsimp only at h
        split at h
        · rename_i hgo
          obtain ⟨hb, hp⟩ := Bool.and_eq_true_iff.mp hgo
          exact takeWalk_no_place hworks ht hn (Option.isSome_iff_ne_none.mp hb) (Bool.not_eq_true' _ ▸ hp)
        · exact nomatch h
      · rename_i hn
        split at h
        · exact nomatch h
        · rename_i hp
          exact takeWalk_end_no_place hworks ht hn (Bool.eq_false_iff.mpr hp)

theorem leads_visit_made {v z : State} (left : Nat) (hi : v.inflight = none) (ht : v.tasks = []) (hworks : walkerWorks v = true)
    (h : visitMade v = some z) :
    ∃ k ≤ 5, Leads k [] [] (withTasks [.walk (left + 1)] v) (withTasks (.walk left :: z.tasks) z) := by
  unfold visitMade at h
  split at h
  · exact nomatch h
  · rename_i r rest htrims
    split at h
    · rename_i c e hn
      dsimp only at h
      split at h
      · exact nomatch h
      · rename_i hgo
        obtain rfl := Option.some.inj h
        have hroom : (visitEntry r c e v.mm v).handback = none ∨ hasPlace v = true := by
          cases hb : (visitEntry r c e v.mm v).handback with
          | none => exact .inl rfl
          | some x => exact .inr (by simpa [hb] using hgo)
        have hleft : (visitEntry r c e v.mm v).mm.trims ≠ [] := by
          rw [visitEntry_trims htrims]
          exact List.cons_ne_nil _ _
        obtain ⟨k, hk, hleads⟩ := leads_visit (left := left) hi ht (takeWalk_entry hworks htrims hn hroom) hleft
        rw [(afterVisit_tasks _ v).trans ht]
        exact ⟨k, by omega, hleads⟩
    · rename_i hn
      split at h
      · rename_i hp
        obtain rfl := Option.some.inj h
        exact leads_range_done hi ht hworks htrims hn hp left
      · exact nomatch h

theorem judgeQuiet_of_works {y : State} (h : walkerWorks (judgeQuiet y) = true) : judgeQuiet y = y := by
  by_cases hq : y.cond = .drain ∧ y.drainEnded = false ∧ y.drainTimer.isSome = true ∧ quietCondition y = true
  · have hover : walkerWorks (endDrain y) = false := by
      rw [endDrain_eq]
      refine offerFrame_getD (P := fun t => walkerWorks t = false) _ _ _ ?_ ?_
      · simp [walkerWorks, pushFrame, drainOver, hq.1]
      · simp [walkerWorks]
    have hend : judgeQuiet y = endDrain y := if_pos hq
    rw [hend, hover] at h
    exact nomatch h
  · exact if_neg hq

theorem afterVisit_timers (d : Removal) (v : State) :
    (afterVisit d v).walkerTimer = v.walkerTimer ∧ (afterVisit d v).now = v.now ∧ (afterVisit d v).powered = v.powered
      ∧ (afterVisit d v).profile = v.profile := by
  have hsends : Sends { reserveHandback d.handback v with mm := d.mm } (afterVisit d v) :=
    ((also_handback d.handback).sends _).trans (sends_askJudged ..)
  have hsame {α : Type} (field : State → α) := congrArg field hsends.frame
  obtain ⟨h1, h2, h3, h4⟩ : (reserveHandback d.handback v).walkerTimer = v.walkerTimer ∧ (reserveHandback d.handback v).now = v.now
      ∧ (reserveHandback d.handback v).powered = v.powered ∧ (reserveHandback d.handback v).profile = v.profile := by
    unfold reserveHandback
    split <;> exact ⟨rfl, rfl, rfl, rfl⟩
  exact ⟨(hsame State.walkerTimer).trans h1, (hsame State.now).trans h2, (hsame State.powered).trans h3, (hsame State.profile).trans h4⟩

theorem rangeDone_frame (r : TrimRange) (rest : List TrimRange) (v : State) :
    (rangeDone r rest v).inflight = v.inflight ∧ (rangeDone r rest v).tasks = v.tasks ∧ (rangeDone r rest v).mm.trims = rest
      ∧ (rangeDone r rest v).walkerTimer = v.walkerTimer ∧ (rangeDone r rest v).now = v.now ∧ (rangeDone r rest v).powered = v.powered
      ∧ (rangeDone r rest v).profile = v.profile := by
  unfold rangeDone
  split <;> exact ⟨rfl, rfl, rfl, rfl, rfl, rfl, rfl⟩

/-- What a visit that is made leaves of the station. -/
structure AfterMade (v z : State) : Prop where
  inflight : z.inflight = v.inflight
  trims : z.mm.trims ≠ v.mm.trims
  tasks : z.tasks = [] ∨ (z.tasks = [.resume] ∧ z.cond = .quiet ∧ z.mm.pendings = [])
  works : walkerWorks z = true → z.tasks = [] ∧ z.walkerTimer = v.walkerTimer ∧ z.now = v.now ∧ z.powered = v.powered
    ∧ z.profile = v.profile

theorem afterMade_of {v z : State} (ht : v.tasks = []) (h : visitMade v = some z) : AfterMade v z := by
  unfold visitMade at h
  split at h
  · exact nomatch h
  · rename_i r rest htrims
    split at h
    · rename_i c e hn
      dsimp only at h
      split at h
      · exact nomatch h
      · obtain rfl := Option.some.inj h
        have htasks := (afterVisit_tasks (visitEntry r c e v.mm v) v).trans ht
        refine ⟨afterVisit_inflight _ v, ?_, .inl htasks, fun _ => ⟨htasks, ?_⟩⟩
        · rw [afterVisit_mm, visitEntry_trims htrims, htrims]
          intro hsame
          have hcursor : c + 1 = r.cursor := congrArg TrimRange.cursor (List.cons.inj hsame).1
          have := nextEntry_cursor_le hn
          omega
        · exact afterVisit_timers _ v
    · split at h
      · obtain rfl := Option.some.inj h
        obtain ⟨hyi, hyt, hym, hyw, hyn, hyp, hyr⟩ := rangeDone_frame r rest v
        have hpass := passes_judgeQuiet (rangeDone r rest v)
        refine ⟨hpass.inflight.trans hyi, ?_, ?_, fun hworks => ?_⟩
        · rw [hpass.trims, hym, htrims]
          exact (List.cons_ne_self _ _).symm
        · obtain ⟨extra, he, hextra⟩ := hpass.tasks
          rw [hyt, ht, List.nil_append] at he
          obtain rfl | ⟨rfl, hdrain, hquiet, -⟩ := hextra
          · exact .inl he
          · obtain hsame | ⟨-, -, -, hp, -⟩ := hpass.cond
            · exact nomatch hquiet.symm.trans (hsame.trans hdrain)
            · exact .inr ⟨he, hquiet, hp⟩
        · rw [judgeQuiet_of_works hworks]
          exact ⟨hyt.trans ht, hyw, hyn, hyp, hyr⟩
      · exact nomatch h

/-! ## The visits of a period -/

/-- What is left to do once the walker has stopped: the resume start of a drain that ended in QUIET. -/
def restAfter (z : State) : State := if z.tasks = [] then z else if headerValid z.profile z.mm = true then resumed z else resumeStart z

theorem restAfter_withVisits : IgnoresVisits restAfter := by
  intro n z
  unfold restAfter
  show (if z.tasks = [] then _ else if headerValid z.profile z.mm = true then _ else _) = _
  split
  · rfl
  · split
    · rfl
    · exact resumeStart_withVisits n z

theorem resumeStart_join {z : State} (hv : headerValid z.profile z.mm = false) : (resumeStart z).cond = .join ∧ (resumeStart z).tasks = [] := by
  rw [resumeStart_eq, checkHeader_of_not_valid (s := resumeBlank z) hv]
  exact ⟨rfl, report_tasks .mapMem (resumeBlank z)⟩

theorem leads_restAfter {v z : State} (hz : AfterMade v z) (hi : v.inflight = none) :
    ∃ k ≤ 10, Leads k [] [] z (restAfter z) ∧ (restAfter z).tasks = [] := by
  unfold restAfter
  obtain ht | ⟨ht, hquiet, hp⟩ := hz.tasks
  · rw [if_pos ht]
    exact ⟨0, Nat.zero_le _, .refl _ _, ht⟩
  · have hzi := hz.inflight.trans hi
    rw [if_neg (by simp [ht])]
    cases hv : headerValid z.profile z.mm with
    | true =>
      rw [if_pos rfl]
      obtain ⟨k, hk, hleads⟩ := leads_resume_valid hzi hquiet ht hv hp
      exact ⟨k, hk, hleads, rfl⟩
    | false =>
      rw [if_neg Bool.false_ne_true]
      exact ⟨1, by omega, leads_resume hzi hquiet ht, (resumeStart_join hv).2⟩

theorem walkerWorks_restAfter {z : State} (h : walkerWorks z = false) : walkerWorks (restAfter z) = false := by
  unfold restAfter
  split
  · exact h
  · cases hv : headerValid z.profile z.mm with
    | true => rfl
    | false =>
      rw [if_neg Bool.false_ne_true]
      unfold walkerWorks
      rw [(resumeStart_join hv).1]
      rfl

/-- The station after a number of visits, each at the head range as the one before left it. -/
def walkRun : Nat → State → State
  | 0, v => v
  | n + 1, v =>
    match visitMade v with
    | none => v
    | some z => if walkerWorks z then walkRun n z else restAfter z

theorem walkRun_of_not_made {v : State} (n : Nat) (h : visitMade v = none) : walkRun (n + 1) v = v := by
  unfold walkRun
  rw [h]

theorem walkRun_of_works {v z : State} (n : Nat) (h : visitMade v = some z) (hz : walkerWorks z = true) : walkRun (n + 1) v = walkRun n z := by
  conv_lhs => unfold walkRun
  rw [h]
  exact if_pos hz

theorem walkRun_of_stopped {v z : State} (n : Nat) (h : visitMade v = some z) (hz : walkerWorks z = false) : walkRun (n + 1) v = restAfter z := by
  conv_lhs => unfold walkRun
  rw [h]
  exact if_neg (ne_true_of_eq_false hz)

theorem walkRun_withVisits (k : Nat) : IgnoresVisits (walkRun k) := by
  intro n v
  induction k generalizing v with
  | zero => rfl
  | succ k ih =>
    have hmade := visitMade_withVisits n v
    cases h : visitMade v with
    | none =>
      rw [h] at hmade
      rw [walkRun_of_not_made k h, walkRun_of_not_made k hmade]
    | some z =>
      rw [h] at hmade
      cases hz : walkerWorks z with
      | true => rw [walkRun_of_works k h hz, walkRun_of_works k hmade hz, ih]
      | false => rw [walkRun_of_stopped k h hz, walkRun_of_stopped k hmade hz, restAfter_withVisits]

theorem takeWalk_of_stopped (n : Nat) {z : State} (h : walkerWorks z = false) : takeWalk n z = noWrite z := by
  cases n with
  | zero => rfl
  | succ n =>
    unfold takeWalk
    simp [h]

theorem leads_walkRun (n : Nat) {v : State} (hi : v.inflight = none) (ht : v.tasks = []) (hworks : walkerWorks v = true) :
    ∃ k ≤ 5 * n + 20, Leads k [] [] (withTasks [.walk n] v) (walkRun n v) ∧ (walkRun n v).tasks = [] := by
  induction n generalizing v with
  | zero => exact ⟨1, by omega, leads_walk_over hi ht, ht⟩
  | succ n ih =>
    cases h : visitMade v with
    | none =>
      rw [walkRun_of_not_made n h]
      have hidle : Leads 1 [] [] (withTasks [.walk (n + 1)] v) v :=
        leads_noWrite (rest := []) hi rfl (by rw [withTasks_withTasks, withTasks_self ht]; exact takeWalk_of_not_made n h)
      exact ⟨1, by omega, hidle, ht⟩
    | some z =>
      have hz := afterMade_of ht h
      obtain ⟨k, hk, hmade⟩ := leads_visit_made n hi ht hworks h
      cases hw : walkerWorks z with
      | true =>
        obtain ⟨hzt, -⟩ := hz.works hw
        rw [walkRun_of_works n h hw]
        obtain ⟨l, hl, hrun, hend⟩ := ih (hz.inflight.trans hi) hzt hw
        rw [hzt] at hmade
        exact ⟨k + l, by omega, hmade.trans hrun, hend⟩
      | false =>
        rw [walkRun_of_stopped n h hw]
        have hskip : Leads 1 [] [] (withTasks (.walk n :: z.tasks) z) z :=
          leads_noWrite (rest := z.tasks) (hz.inflight.trans hi) rfl (by rw [withTasks_withTasks, withTasks_self rfl]; exact takeWalk_of_stopped n hw)
        obtain ⟨l, hl, hrest, hend⟩ := leads_restAfter hz hi
        exact ⟨k + 1 + l, by omega, (hmade.trans hskip).trans hrest, hend⟩

/-! ## O49 -/

/-- A period of several visits, made by a station at rest. -/
theorem exec_walkerPeriod_run {m : Moment} {s u : State} {x : Time} {n : Nat} (hrest : RestAt m s u) (hw : m.writes = [])
    (hworks : walkerWorks u = true) (hx : u.walkerTimer = some x) (hdue : x ≤ u.now) (hn : u.profile.walkerVisits = n) (hle : n ≤ 64) :
    exec (.walkerPeriod m) s = .next (walkRun n (walkTimed u)) := by
  obtain ⟨k, hk, hrun, hend⟩ := leads_walkRun n (v := walkTimed u) hrest.inflight hrest.tasks hworks
  rw [exec_walkerPeriod_on hrest.onAt, if_pos ⟨hworks, isDue_iff.mpr ⟨x, hx, hdue⟩⟩, hn]
  refine congrArg Host.Outcome.next ?_
  refine (perform_of_rest (s := walkTimed u) hrest.tasks [.walk n]).trans ?_
  exact hrun.settle_eq hw (by simp only [workBound]; omega) hend

/-- Settles O49: the visits of a period as one function of the station, unrolled by its first visit. -/
theorem walkerPeriodVisits : Obligations.WalkerPeriodVisits := by
  intro m s u x k hrest hw hworks hx hdue hvisits hk visits t ht
  have hsame : visits = withVisits := rfl
  clear_value visits
  subst hsame
  let v := walkTimed u
  obtain ⟨⟨hpow, hinfl, htasks⟩, hu⟩ := hrest
  have hall : exec (.walkerPeriod m) s = .next (walkRun (k + 1) v) :=
    exec_walkerPeriod_run ⟨⟨hpow, hinfl, htasks⟩, hu⟩ hw hworks hx hdue hvisits (by omega)
  have hone : RestAt m (withVisits 1 s) (withVisits 1 u) := ⟨⟨hpow, hinfl, htasks⟩, congrArg (withVisits 1) hu⟩
  have hfirst : t = withVisits 1 (walkRun 1 v) := by
    have hexec := exec_walkerPeriod_run (n := 1) hone hw hworks hx hdue rfl (by omega)
    rw [← walkRun_withVisits]
    exact Host.Outcome.next.inj (ht.symm.trans hexec)
  have hkept (n : Nat) : withVisits (k + 1) (walkRun n v) = walkRun n v := by
    rw [← walkRun_withVisits, withVisits_self (s := v) hvisits]
  have hvi : v.inflight = none := (congrArg State.inflight hu).trans hinfl
  have hvt : v.tasks = [] := (congrArg State.tasks hu).trans htasks
  have htmm : t.mm = (walkRun 1 v).mm := by rw [hfirst]; rfl
  have htworks : walkerWorks t = walkerWorks (walkRun 1 v) := by rw [hfirst]; rfl
  have hback : withVisits (k + 1) t = walkRun 1 v := by
    rw [hfirst, withVisits_withVisits]
    exact hkept 1
  rw [hall, hback]
  cases h : visitMade v with
  | none =>
    have hstill : walkRun 1 v = v := walkRun_of_not_made 0 h
    rw [walkRun_of_not_made k h, hstill]
    exact ⟨fun _ => rfl, fun hne => absurd (by rw [htmm, hstill]; rfl) hne⟩
  | some z =>
    have hz := afterMade_of hvt h
    cases hzw : walkerWorks z with
    | false =>
      have hstopped : walkRun 1 v = restAfter z := walkRun_of_stopped 0 h hzw
      have hno : walkerWorks t = false := by rw [htworks, hstopped, walkerWorks_restAfter hzw]
      rw [walkRun_of_stopped k h hzw, hstopped]
      exact ⟨fun _ => rfl, fun _ hyes => nomatch hno.symm.trans hyes⟩
    | true =>
      have hrun : walkRun 1 v = z := walkRun_of_works 0 h hzw
      have hyes : walkerWorks t = true := by rw [htworks, hrun, hzw]
      have hmoved : t.mm.trims ≠ u.mm.trims := by
        rw [htmm, hrun]
        exact hz.trims
      rw [walkRun_of_works k h hzw]
      refine ⟨fun hor => hor.elim (fun hstill => absurd hstill hmoved) (fun hno => nomatch hyes.symm.trans hno), fun _ _ w hwexec => ?_⟩
      obtain ⟨hzt, htimer, hnow, hpower, hprofile⟩ := hz.works hzw
      let again : State := withVisits k { t with walkerTimer := some u.now }
      have hagain : again = { withVisits k z with walkerTimer := some u.now } := by
        unfold again
        rw [hfirst, hrun]
        rfl
      have hnext : walkTimed again = withVisits k z := by
        have hsame : some (z.now + z.profile.walkerPeriod * 4) = z.walkerTimer := by rw [htimer, hnow, hprofile]; rfl
        rw [hagain]
        show { withVisits k z with walkerTimer := some (z.now + z.profile.walkerPeriod * 4) } = withVisits k z
        rw [hsame]
        rfl
      have hrest : RestAt m again again := by
        have hpast : again.now = max again.now m.time := by
          have hunow : u.now = max s.now m.time := congrArg State.now hu
          rw [hagain]
          show z.now = max z.now m.time
          rw [hnow, show v.now = u.now from rfl, hunow, max_assoc, max_self]
        refine ⟨⟨?_, ?_, ?_⟩, ?_⟩
        · rw [hagain]
          exact hpower.trans ((congrArg State.powered hu).trans hpow)
        · rw [hagain]
          exact hz.inflight.trans hvi
        · rw [hagain]
          exact hzt
        · unfold advance
          rw [← hpast]
      have hexec := exec_walkerPeriod_run (n := k) hrest hw (by rw [hagain]; exact hzw) (x := u.now) (by rw [hagain]) (by rw [hagain]; exact hnow.ge)
        (by rw [hagain]; rfl) (by omega)
      rw [hnext, walkRun_withVisits] at hexec
      have hleft : exec (.walkerPeriod m) again = .next w := hwexec
      have hw' : w = withVisits k (walkRun k z) := Host.Outcome.next.inj (hleft.symm.trans hexec)
      have hfull := hkept (k + 1)
      rw [walkRun_of_works k h hzw] at hfull
      show Host.Outcome.next (walkRun k z) = .next (withVisits (k + 1) w)
      rw [hw', withVisits_withVisits, hfull]

end Sys2Proof.Machine

/-! GRANT heard: what joins the spare list, what is handed back, and how the ask ends (R96, R97, R99). -/

namespace Sys2Proof.Machine

/-! ## The records of a GRANT, judged -/

section judged
variable {mm : MapMemory} {lender : Station} {epoch : Epoch}

theorem judgeGrant_stands {spares : List Spare} {r : GrantRecord} (more : List GrantRecord)
    (h : pairStands { mm with spares := spares } lender r.loan = true) :
    judgeGrant mm lender epoch spares (r :: more) = judgeGrant mm lender epoch spares more := by
  rw [judgeGrant, if_pos h]

/-- The spare a record of a GRANT becomes. -/
def spareOf (lender : Station) (epoch : Epoch) (r : GrantRecord) : Spare :=
  { lender := lender, loan := r.loan, bay := r.bay, grain := r.grain, epoch := epoch }

theorem judgeGrant_joins {spares : List Spare} {r : GrantRecord} (more : List GrantRecord)
    (h : pairStands { mm with spares := spares } lender r.loan = false) (hroom : spares.length < Config.sparePlaces) :
    judgeGrant mm lender epoch spares (r :: more)
      = { judgeGrant mm lender epoch (spares ++ [spareOf lender epoch r]) more with
          joined := (judgeGrant mm lender epoch (spares ++ [spareOf lender epoch r]) more).joined + 1 } := by
  rw [judgeGrant, if_neg (ne_true_of_eq_false h), if_pos hroom]
  rfl

theorem judgeGrant_finds_full {spares : List Spare} {r : GrantRecord} (more : List GrantRecord)
    (h : pairStands { mm with spares := spares } lender r.loan = false) (hroom : ¬ spares.length < Config.sparePlaces) :
    judgeGrant mm lender epoch spares (r :: more)
      = { judgeGrant mm lender epoch spares more with full := r.loan :: (judgeGrant mm lender epoch spares more).full } := by
  rw [judgeGrant, if_neg (ne_true_of_eq_false h), if_neg hroom]

/-- Another loan's spare at the back changes nothing about a pair. -/
theorem pairStands_append_other {spares : List Spare} {sp : Spare} {loan : Nat} (h : sp.loan ≠ loan) :
    pairStands { mm with spares := spares ++ [sp] } lender loan = pairStands { mm with spares := spares } lender loan := by
  have hother : ([sp].any fun s => s.lender == lender && s.loan == loan) = false := by simp [h]
  unfold pairStands
  dsimp only
  rw [List.any_append, hother, Bool.or_false]

/-- What is judged when each loan is named once (R96): the new records in order, as many as there is room for. -/
theorem judgeGrant_of_nodup {given : List GrantRecord} (hnd : (given.map (·.loan)).Nodup) (spares : List Spare) :
    let news := given.filter fun r => !pairStands { mm with spares := spares } lender r.loan
    let room := 32 - spares.length
    (judgeGrant mm lender epoch spares given).spares = spares ++ (news.take room).map (spareOf lender epoch)
      ∧ (judgeGrant mm lender epoch spares given).joined = (news.take room).length
      ∧ (judgeGrant mm lender epoch spares given).full = (news.drop room).map (·.loan) := by
  induction given generalizing spares with
  | nil => simp [judgeGrant]
  | cons r more ih =>
    obtain ⟨hnew, hnd⟩ := List.nodup_cons.mp hnd
    intro news room
    cases h : pairStands { mm with spares := spares } lender r.loan with
    | true =>
      rw [judgeGrant_stands more h, show news = more.filter _ from List.filter_cons_of_neg (by simp [h])]
      exact ih hnd spares
    | false =>
      have hnews : news = r :: more.filter fun r => !pairStands { mm with spares := spares } lender r.loan :=
        List.filter_cons_of_pos (by simp [h])
      by_cases hroom : spares.length < 32
      · have hsame : (more.filter fun x => !pairStands { mm with spares := spares ++ [spareOf lender epoch r] } lender x.loan)
            = more.filter fun x => !pairStands { mm with spares := spares } lender x.loan := by
          refine List.filter_congr fun x hx => ?_
          rw [pairStands_append_other]
          exact fun heq => hnew (List.mem_map.mpr ⟨x, hx, heq.symm⟩)
        obtain ⟨hs, hj, hf⟩ := ih hnd (spares ++ [spareOf lender epoch r])
        rw [hsame] at hs hj hf
        have hleft : room = (32 - (spares ++ [spareOf lender epoch r]).length) + 1 := by
          simp only [room, List.length_append, List.length_singleton]
          omega
        rw [judgeGrant_joins more h hroom, hnews, hleft, List.take_succ_cons, List.drop_succ_cons]
        exact ⟨by rw [hs]; simp, by simp only [hj, List.length_cons], hf⟩
      · obtain ⟨hs, hj, hf⟩ := ih hnd spares
        have hnone : room = 0 := by simp only [room]; omega
        have hnone' : 32 - spares.length = 0 := hnone
        rw [hnone'] at hs hj hf
        rw [judgeGrant_finds_full more h hroom, hnews, hnone]
        exact ⟨hs, hj, by rw [hf]; rfl⟩

/-- A record that joins is one whose loan did not stand. -/
theorem judgeGrant_joined_new (given : List GrantRecord) (spares : List Spare) :
    (∀ x ∈ spares, x ∈ (judgeGrant mm lender epoch spares given).spares)
      ∧ (0 < (judgeGrant mm lender epoch spares given).joined →
          ∃ x ∈ (judgeGrant mm lender epoch spares given).spares, x ∉ spares ∧ x.lender = lender ∧ x.epoch = epoch) := by
  induction given generalizing spares with
  | nil => exact ⟨fun _ h => h, fun h => absurd h (Nat.lt_irrefl 0)⟩
  | cons r more ih =>
    cases h : pairStands { mm with spares := spares } lender r.loan with
    | true =>
      rw [judgeGrant_stands more h]
      exact ih spares
    | false =>
      by_cases hroom : spares.length < 32
      · rw [judgeGrant_joins more h hroom]
        obtain ⟨hkept, -⟩ := ih (spares ++ [spareOf lender epoch r])
        refine ⟨fun x hx => hkept x (List.mem_append_left _ hx), fun _ => ⟨spareOf lender epoch r, hkept _ (by simp), fun hmem => ?_, rfl, rfl⟩⟩
        have hstands : pairStands { mm with spares := spares } lender r.loan = true := by
          unfold pairStands
          rw [Bool.or_eq_true]
          exact .inl (List.any_eq_true.mpr ⟨_, hmem, by simp [spareOf]⟩)
        exact nomatch h.symm.trans hstands
      · rw [judgeGrant_finds_full more h hroom]
        exact ih spares

end judged

/-! ## What is handed back unused -/

/-- Loans handed back in one GIVEBACK(UNUSED), if there are any. -/
def handUnused (lender : Station) (loans : List Nat) (x : State) : State := if loans = [] then x else sendGiveback lender .unused loans x

theorem does_unused (lender : Station) (loans : List Nat) : DoesAll (unusedTasks lender loans) (handUnused lender loans) := by
  unfold unusedTasks
  cases loans with
  | nil => exact .nil
  | cons n ls => exact (does_giveback lender .unused (n :: ls)).one

/-- The same, by the place it finds (R99, R151). -/
theorem handUnused_of_works {x : State} (hc : x.cond = .ready ∨ x.cond = .drain) (lender : Station) (loans : List Nat) :
    handUnused lender loans x
      = if loans = [] then x
        else if hasPlace x = true then pushFrame { dest := lender, body := .giveback .unused loans } x
        else report .givebackUndelivered x := by
  unfold handUnused sendGiveback
  cases hp : hasPlace x with
  | true => rw [offerFrame_of_place hc rfl hp]; rfl
  | false => rw [offerFrame_of_no_place _ hp]; rfl

@[simp] theorem handUnused_cond (lender : Station) (loans : List Nat) (x : State) : (handUnused lender loans x).cond = x.cond := by
  unfold handUnused
  split <;> simp

@[simp] theorem handUnused_tasks (lender : Station) (loans : List Nat) (x : State) : (handUnused lender loans x).tasks = x.tasks := by
  unfold handUnused
  split <;> simp

@[simp] theorem handUnused_mm (lender : Station) (loans : List Nat) (x : State) : (handUnused lender loans x).mm = x.mm := by
  unfold handUnused
  split <;> simp

theorem report_with_ask (f : Flag) (a : AskMachine) (s : State) : report f { s with ask := a } = { report f s with ask := a } := by
  have hoffer (g : OutFrame) (r : FaultRecord) :
      offerFrame g { s with ask := a, faults := r } = (offerFrame g { s with faults := r }).map fun u => { u with ask := a } := by
    unfold offerFrame hasReplyPlace hasPlace
    dsimp only
    repeat' split
    all_goals rfl
  unfold report
  dsimp only
  rw [hoffer]
  split
  · cases offerFrame { dest := broadcast, body := .alert f s.cond.code } { s with faults := s.faults.set f } <;> rfl
  · rfl

/-! ## The events -/

/-- The record of the asked lender once its GRANT is accepted (R96, R108). -/
def lenderAfter (p : PeerCapacity) (epoch : Epoch) (joined : Nat) : PeerCapacity :=
  if p.known ≠ none ∧ p.known ≠ some epoch then { known := some epoch, inUse := 0, spare := joined }
  else { known := some epoch, inUse := p.inUse, spare := p.spare + joined }

/-- The spare list once a GRANT is accepted (R96, R108). -/
def sparesAfter (p : PeerCapacity) (lender : Station) (epoch : Epoch) (spares : List Spare) : List Spare :=
  if p.known ≠ none ∧ p.known ≠ some epoch then spares.filter (fun x => !(x.lender == lender && x.epoch != epoch)) else spares

theorem setPeer_setPeer {mm : MapMemory} {st : Station} {p q : PeerCapacity} (hp : p.known ≠ none) (hq : q.known ≠ none) :
    setPeer (setPeer mm st p) st q = setPeer mm st q := by
  have hne {x : PeerCapacity} (hx : x.known ≠ none) : x ≠ PeerCapacity.none := fun h => hx (by rw [h]; rfl)
  unfold setPeer tableSet
  simp only [if_neg (hne hp), if_neg (hne hq), tablePut_put]

theorem acceptGrant_eq (mm : MapMemory) (lender : Station) (epoch : Epoch) (j : GrantJudged) :
    acceptGrant mm lender epoch j
      = setPeer { mm with spares := sparesAfter (peerOf mm lender) lender epoch j.spares } lender (lenderAfter (peerOf mm lender) epoch j.joined) := by
  unfold acceptGrant sparesAfter lenderAfter
  dsimp only
  split
  · have hpeer : peerOf (dropOldSpares { mm with spares := j.spares } lender epoch) lender = { known := some epoch, inUse := 0, spare := 0 } :=
      tableGet_set_same_of_ne (d := PeerCapacity.none) (v := { known := some epoch, inUse := 0, spare := 0 }) (by simp [PeerCapacity.none])
        mm.peers lender.toNat
    rw [hpeer, dropOldSpares, setPeer_setPeer (by simp) (by simp), Nat.zero_add]
  · rfl

/-- The ask machine once its ask has ended well (R96). -/
def askWon (lender : Station) (askId : AskId) (a : AskMachine) : AskMachine :=
  { a with
    state := .idle, failures := 0, timer := none, lender := none, offerCount := 0, wanted := 0, lastAccepted := some (lender, askId) }

section events
variable {m : Moment} {v : State} {source : Station} {askId : AskId} {records : List GrantRecord} {epoch : Epoch}

/-- A GRANT from the asked lender for the current ask. -/
structure Asked (v : State) (source : Station) (askId : AskId) : Prop where
  state : v.ask.state = .taking
  lender : v.ask.lender = some source
  askId : v.ask.askId = askId

/-- The records of the GRANT, judged as far as the offer count goes (R96). -/
def grantJudged (v : State) (source : Station) (epoch : Epoch) (records : List GrantRecord) : GrantJudged :=
  judgeGrant v.mm source epoch v.mm.spares (records.take v.ask.offerCount)

/-- The new loans beyond the offer count. -/
def loansBeyond (v : State) (source : Station) (epoch : Epoch) (records : List GrantRecord) : List Nat :=
  newLoans { v.mm with spares := (grantJudged v source epoch records).spares } source (records.drop v.ask.offerCount)

/-- What the GRANT hands back: what found the list full, then what is beyond the offer count (R96). -/
def grantHanded (v : State) (source : Station) (epoch : Epoch) (records : List GrantRecord) (x : State) : State :=
  handUnused source (loansBeyond v source epoch records) (handUnused source (grantJudged v source epoch records).full x)

/-- The events of that. -/
def grantHandedTasks (v : State) (source : Station) (epoch : Epoch) (records : List GrantRecord) : List Task :=
  unusedTasks source (grantJudged v source epoch records).full ++ unusedTasks source (loansBeyond v source epoch records)

theorem does_grantHanded : DoesAll (grantHandedTasks v source epoch records) (grantHanded v source epoch records) :=
  (does_unused _ _).append (does_unused _ _)

theorem length_grantHandedTasks_le : (grantHandedTasks v source epoch records).length ≤ 2 := by
  have hlen (loans : List Nat) : (unusedTasks source loans).length ≤ 1 := by
    unfold unusedTasks
    split <;> simp
  have hfull := hlen (grantJudged v source epoch records).full
  have hbeyond := hlen (loansBeyond v source epoch records)
  rw [grantHandedTasks, List.length_append]
  omega

theorem takeGrant_asked (hacts : actsOnPeers v = true) (ha : Asked v source askId) (he : (rosterOf v.roster source).epoch = some epoch) :
    takeGrant source askId records v
      = if (grantJudged v source epoch records).joined = 0 then
          noWrite { failAsk v with tasks := grantHandedTasks v source epoch records ++ v.tasks }
        else
          (reportDataLost source epoch { v with ask := { v.ask with timer := none } },
            some
              { image := acceptGrant v.mm source epoch (grantJudged v source epoch records), rotor := v.rotor, takes := true
                onDone := .askSucceeded source askId :: grantHandedTasks v source epoch records
                goOn := [], onFail := [.mapMemError] }) := by
  unfold takeGrant
  rw [if_pos hacts, he]
  exact if_pos ⟨ha.state, ha.lender, ha.askId⟩

theorem takeGrant_not_asked (hacts : actsOnPeers v = true) (ha : ¬ (Asked v source askId ∧ (rosterOf v.roster source).epoch ≠ none)) :
    takeGrant source askId records v = takeStaleGrant source askId records v := by
  unfold takeGrant
  rw [if_pos hacts]
  cases he : (rosterOf v.roster source).epoch with
  | none => rfl
  | some e => exact if_neg fun h => ha ⟨⟨h.1, h.2.1, h.2.2⟩, by rw [he]; simp⟩

/-- An event that makes no write and brings others with it. -/
theorem perform_brings {t : Task} {x : State} {us : List Task} {g : State → State} (hi : v.inflight = none) (ht : v.tasks = [])
    (htk : takeTask t v = noWrite { x with tasks := us ++ v.tasks }) (hxi : x.inflight = none) (hg : DoesAll us g) (hlen : us.length ≤ 100)
    (hend : (g x).tasks = []) : perform m [t] v = g x := by
  have hstart : withTasks [] (withTasks [t] v) = v := by rw [withTasks_withTasks, withTasks_self ht]
  have htake : Leads 1 m.writes m.writes (withTasks [t] v) (withTasks (us ++ []) x) := by
    refine leads_noWrite (rest := []) hi rfl ?_
    rw [hstart, htk, ht]
    rfl
  have hdone := hg.leads (fates := m.writes) (rest := []) hxi
  rw [withTasks_self hend] at hdone
  rw [perform_of_rest ht]
  exact (htake.trans hdone).settle_eq rfl (by simp only [workBound]; omega) hend

section performed
variable (hi : v.inflight = none) (ht : v.tasks = []) (hacts : actsOnPeers v = true)
include hi ht hacts

theorem perform_grant_lost (ha : Asked v source askId) (he : (rosterOf v.roster source).epoch = some epoch)
    (hj : (grantJudged v source epoch records).joined = 0) :
    perform m [.grantHeard source askId records] v = grantHanded v source epoch records (failAsk v) := by
  have htk := takeGrant_asked (records := records) hacts ha he
  rw [if_pos hj] at htk
  refine perform_brings hi ht htk ((failAsk_inflight v).trans hi) does_grantHanded ?_ ?_
  · have := length_grantHandedTasks_le (v := v) (source := source) (epoch := epoch) (records := records)
    omega
  · rw [grantHanded, handUnused_tasks, handUnused_tasks, failAsk_tasks, ht]

theorem perform_grant_stale (ha : ¬ (Asked v source askId ∧ (rosterOf v.roster source).epoch ≠ none)) :
    perform m [.grantHeard source askId records] v
      = if v.ask.lastAccepted = some (source, askId) then v else handUnused source (newLoans v.mm source records) v := by
  have htk := takeGrant_not_asked (records := records) hacts ha
  unfold takeStaleGrant at htk
  split
  · rename_i hlast
    rw [if_pos hlast] at htk
    exact perform_noWrite hi ht htk ht
  · rename_i hlast
    rw [if_neg hlast] at htk
    refine perform_brings hi ht htk hi (does_unused _ _) ?_ ?_
    · unfold unusedTasks
      split <;> simp
    · rw [handUnused_tasks, ht]

/-- The station once its ask has ended well, and what is not kept handed back. -/
def grantWon (source : Station) (askId : AskId) (epoch : Epoch) (records : List GrantRecord) (v : State) : State :=
  grantHanded v source epoch records
    { reportDataLost source epoch v with
      mm := acceptGrant v.mm source epoch (grantJudged v source epoch records), ask := askWon source askId v.ask }

theorem perform_grant_won (hw : m.writes = []) (ha : Asked v source askId) (he : (rosterOf v.roster source).epoch = some epoch)
    (hj : 0 < (grantJudged v source epoch records).joined)
    (hroom : v.cond = .ready ∨ hasPlace (grantWon source askId epoch records v) = true) :
    perform m [.grantHeard source askId records] v = judgeQuiet (judgeAsk (grantWon source askId epoch records v)) := by
  have htk := takeGrant_asked (records := records) hacts ha he
  rw [if_neg (Nat.ne_of_gt hj)] at htk
  have hsmm : (reportDataLost source epoch { v with ask := { v.ask with timer := none } }).mm = v.mm := reportDataLost_mm ..
  have hst : (reportDataLost source epoch { v with ask := { v.ask with timer := none } }).tasks = [] := (reportDataLost_tasks ..).trans ht
  have hsi : (reportDataLost source epoch { v with ask := { v.ask with timer := none } }).inflight = none := (reportDataLost_inflight ..).trans hi
  have hsr : v.rotor = (reportDataLost source epoch { v with ask := { v.ask with timer := none } }).rotor :=
    (reportDataLost_rotor source epoch { v with ask := { v.ask with timer := none } }).symm
  have hlost : reportDataLost source epoch { v with ask := { v.ask with timer := none } }
      = { reportDataLost source epoch v with ask := { v.ask with timer := none } } := by
    unfold reportDataLost
    dsimp only
    split
    · exact report_with_ask ..
    · rfl
  generalize reportDataLost source epoch { v with ask := { v.ask with timer := none } } = s' at htk hsmm hst hsi hsr hlost
  obtain ⟨w, himage, hwrot, hwtakes, hwdone, hwon, htk⟩ : ∃ w : MapWrite,
      w.image = acceptGrant v.mm source epoch (grantJudged v source epoch records) ∧ w.rotor = v.rotor ∧ w.takes = true
      ∧ w.onDone = .askSucceeded source askId :: grantHandedTasks v source epoch records ∧ w.goOn = []
      ∧ takeTask (.grantHeard source askId records) v = (s', some w) := ⟨_, rfl, rfl, rfl, rfl, rfl, htk⟩
  have hwritten : written w s' = { s' with mm := w.image } := written_at_rest hsi (hwrot.trans hsr)
  have hdone : (grantHanded v source epoch records ∘ askSucceeded source askId) (written w s') = grantWon source askId epoch records v := by
    rw [hwritten, himage, hlost]
    rfl
  have hwtasks : (grantWon source askId epoch records v).tasks = [] := by
    rw [grantWon, grantHanded, handUnused_tasks, handUnused_tasks]
    exact (reportDataLost_tasks ..).trans ht
  have hwcond : (grantWon source askId epoch records v).cond = v.cond := by
    rw [grantWon, grantHanded, handUnused_cond, handUnused_cond]
    exact reportDataLost_cond ..
  have hjt : (judgeAsk (grantWon source askId epoch records v)).tasks = [] := (judgeAsk_tasks _).trans hwtasks
  have hspares : s'.mm.spares ≠ w.image.spares := by
    rw [hsmm, himage]
    obtain ⟨x, hx, hnew, hl, hep⟩ := (judgeGrant_joined_new (records.take v.ask.offerCount) v.mm.spares).2 hj
    intro hsame
    refine hnew ?_
    rw [hsame, acceptGrant_eq]
    show x ∈ sparesAfter _ _ _ _
    unfold sparesAfter
    split
    · exact List.mem_filter.mpr ⟨hx, by simp [hep]⟩
    · exact hx
  have hquiet (y : State) : quietJudged s' (written w s') y = judgeQuiet y := if_pos (.inr (.inr hspares))
  have hjudged : quietJudged s' (written w s') (withTasks [] (askJudged w.takes s' (written w s')
      ((grantHanded v source epoch records ∘ askSucceeded source askId) (written w s'))))
        = judgeQuiet (judgeAsk (grantWon source askId epoch records v)) := by
    rw [hquiet, hdone, hwtakes, askJudged_of_takes, withTasks_self hjt]
  have hend : (judgeQuiet (judgeAsk (grantWon source askId epoch records v))).tasks = [] := by
    obtain hc | hp := hroom
    · rw [judgeQuiet_of_cond (by rw [judgeAsk_cond, hwcond, hc]; decide), hjt]
    · by_cases hc : v.cond = .ready
      · rw [judgeQuiet_of_cond (by rw [judgeAsk_cond, hwcond, hc]; decide), hjt]
      · rw [judgeAsk_of_cond (by rwa [hwcond])]
        exact judgeQuiet_tasks_of_place hp hwtasks
  have hlen : w.onDone.length ≤ 100 := by
    have := length_grantHandedTasks_le (v := v) (source := source) (epoch := epoch) (records := records)
    rw [hwdone, List.length_cons]
    omega
  have hdoes : DoesAll w.onDone (grantHanded v source epoch records ∘ askSucceeded source askId) :=
    hwdone ▸ DoesAll.cons (does_askSucceeded source askId) does_grantHanded
  exact (perform_completed hi ht hw htk hdoes hlen hwon hst (hjudged ▸ hend)).trans hjudged

end performed

end events

/-- The station a GRANT is heard by, with map memory and the ask machine as they were. -/
theorem withHeard_judged (source : Station) (epoch : Epoch) (records : List GrantRecord) (u : State) :
    grantJudged (withHeard source true u) source epoch records = judgeGrant u.mm source epoch u.mm.spares (records.take u.ask.offerCount)
      ∧ loansBeyond (withHeard source true u) source epoch records
        = newLoans { u.mm with spares := (judgeGrant u.mm source epoch u.mm.spares (records.take u.ask.offerCount)).spares } source
            (records.drop u.ask.offerCount) := by
  unfold loansBeyond grantJudged
  rw [withHeard_mm, withHeard_ask]
  exact ⟨rfl, rfl⟩

/-- Settles O35: the three ends of a GRANT, and the records judged. -/
theorem grantHeard : Obligations.GrantHeard := by
  refine ⟨?_, fun mm lender epoch => ⟨fun given hnd => judgeGrant_of_nodup hnd mm.spares, fun spares r more h => judgeGrant_stands more h⟩⟩
  intro source dest askId records m s u hrest hw hwf hd hacts heard back asked
  have hexec := exec_grant_heard (source := source) (askId := askId) hrest.onAt hwf hd hacts
  have hframe {α : Type} (field : State → α) := congrArg field (withHeard_frame source true u)
  have hi : heard.inflight = none := (hframe State.inflight).trans hrest.inflight
  have ht : heard.tasks = [] := (hframe State.tasks).trans hrest.tasks
  have hacts' : actsOnPeers heard = true := (withHeard_actsOnPeers ..).trans hacts
  have hworks : heard.cond = .ready ∨ heard.cond = .drain := works_of_actsOnPeers.mp hacts'
  have hmm : heard.mm = u.mm := withHeard_mm ..
  have hask : heard.ask = u.ask := withHeard_ask ..
  have hback (loans : List Nat) {x : State} (hx : x.cond = heard.cond) : back loans x = handUnused source loans x :=
    (handUnused_of_works (by rwa [hx]) source loans).symm
  rw [hexec]
  refine ⟨?_, ?_⟩
  · intro hasked epoch he j beyond p older mm' told done
    have ha : Asked heard source askId := by
      obtain ⟨hs, hl, hid, -⟩ := hasked
      exact ⟨by rwa [hask], by rwa [hask], by rwa [hask]⟩
    have he' : (rosterOf heard.roster source).epoch = some epoch := (rosterOf_withHeard_epoch _ _ _ _).trans he
    obtain ⟨hj, hb⟩ := withHeard_judged source epoch records u
    have hbb {x : State} (hx : x.cond = heard.cond) : back beyond (back j.full x) = grantHanded heard source epoch records x := by
      rw [hback j.full hx, hback beyond ((handUnused_cond ..).trans hx), grantHanded, hj, hb]
      rfl
    have hdone : done = grantWon source askId epoch records heard := by
      have htold : reportDataLost source epoch heard = told := by
        unfold reportDataLost
        rw [hmm]
        exact if_congr and_assoc.symm rfl rfl
      have hwrit : acceptGrant heard.mm source epoch (grantJudged heard source epoch records) = mm' := by
        rw [acceptGrant_eq, hj, hmm]
        rfl
      have htc : told.cond = heard.cond := by rw [← htold]; exact reportDataLost_cond ..
      unfold grantWon
      rw [htold, hwrit, hask]
      exact hbb htc
    refine ⟨fun hnone => ?_, fun hjoined hroom => ?_⟩
    · rw [perform_grant_lost hi ht hacts' ha he' (by rw [hj]; exact hnone), ← hbb (failAsk_cond heard)]
    · rw [hdone] at hroom ⊢
      have hc : u.cond = heard.cond := (withHeard_cond ..).symm
      rw [hc] at hroom
      rw [perform_grant_won hi ht hacts' hw ha he' (by rw [hj]; exact hjoined) hroom]
  · intro hnot news
    have hstale := perform_grant_stale (m := m) (records := records) hi ht hacts' (source := source) (askId := askId) (by
      rintro ⟨⟨hs, hl, hid⟩, he⟩
      rw [hask] at hs hl hid
      rw [rosterOf_withHeard_epoch] at he
      exact hnot ⟨hs, hl, hid, he⟩)
    rw [hstale, hback news rfl, hask, hmm]
    rfl

end Sys2Proof.Machine

/-! Full starts: what every stage of a start keeps, and the starts that end in HALTED (R157 to R160, R167). -/

namespace Sys2Proof.Machine

/-! ## The station during a start -/

/-- A station in START: everything as `blankStart` sets it but for what a start goes on to set. -/
structure Starting (m : Moment) (s : State) (pins : StartPins) (x : State) : Prop where
  frame : x = { blankStart x.cause pins (advance m.time s) with
    profile := x.profile, profileRead := x.profileRead, headerRead := x.headerRead, poolUp := x.poolUp, loanUp := x.loanUp, mm := x.mm,
    presence := x.presence, link := { Link.reset with queue := x.link.queue }, faults := x.faults, attention := x.attention, tasks := x.tasks }
  counts : x.faults.counts = Counts.zero

section starting
variable {m : Moment} {s x y : State} {pins : StartPins}

/-- What a step of a start may change. -/
structure StartStep (x y : State) : Prop where
  frame : y = { x with
    profile := y.profile, profileRead := y.profileRead, headerRead := y.headerRead, poolUp := y.poolUp, loanUp := y.loanUp, mm := y.mm,
    presence := y.presence, link := { x.link with queue := y.link.queue }, faults := y.faults, attention := y.attention, tasks := y.tasks,
    cause := y.cause }
  counts : y.faults.counts = x.faults.counts

theorem Starting.step (h : Starting m s pins x) (k : StartStep x y) : Starting m s pins y where
  frame := by rw [k.frame, h.frame]; rfl
  counts := k.counts.trans h.counts

theorem Starting.cond (h : Starting m s pins x) : x.cond = .start := (congrArg State.cond h.frame :)

theorem Starting.inflight (h : Starting m s pins x) : x.inflight = none := (congrArg State.inflight h.frame :)

theorem Starting.roster (h : Starting m s pins x) : x.roster = [] := (congrArg State.roster h.frame :)

theorem starting_blank (m : Moment) (s : State) (pins : StartPins) (cause : RestartCause) (mm : MapMemory) :
    Starting m s pins (blankStart cause pins { advance m.time s with mm := mm }) := ⟨rfl, rfl⟩

theorem startStep_report (f : Flag) (x : State) : StartStep x (report f x) where
  frame := by
    obtain hl | ⟨c, hl⟩ := report_link f x
    · rw [report_frame, hl]
    · rw [report_frame, hl]
  counts := report_counts f x

theorem startStep_sendGiveback (a : Station) (r : GivebackReason) (ls : List Nat) (x : State) : StartStep x (sendGiveback a r ls x) :=
  offerFrame_getD (P := StartStep x) _ _ _ ⟨rfl, rfl⟩ (startStep_report .givebackUndelivered x)

/-- JOIN entered from a start with nothing left to take. -/
theorem Starting.joined (h : Starting m s pins x) (ht : x.tasks = []) (o : StartOutcome) : StartedAfresh m s pins (enterJoin o x) := by
  have hsame {α : Type} (field : State → α) := congrArg field h.frame
  exact {
    on := hsame State.powered
    queue := hsame State.pending
    now := hsame State.now
    cond := rfl
    own := hsame State.own
    joinTimer := rfl
    otherTimers := ⟨hsame State.drainTimer, hsame State.hailTimer, hsame State.walkerTimer⟩
    pins := ⟨hsame State.bayLines, hsame State.serviceLine, hsame State.serviceLine⟩
    rotor := hsame State.rotor
    roster := hsame State.roster
    ask := hsame State.ask
    offer := hsame State.offer
    lastGrants := hsame State.lastGrants
    link := ⟨hsame (·.link.hand), hsame (·.link.reservedReplies), hsame (·.link.reservedOthers)⟩
    buffer := hsame State.buffer
    counts := h.counts
    attention := rfl
    rest := ⟨h.inflight, ht⟩ }

end starting

/-! ## A full start to its first write -/

theorem exec_fullStart {cmd : Instr} {cause : RestartCause} {pins : StartPins} {rom : Option ProfileRom} {takes : Bool} {m : Moment} {s : State}
    (h : (cmd = .powerOn pins rom takes m ∧ cause = .power)
      ∨ ∃ lowFor, 40 ≤ lowFor ∧ s.powered = true ∧ cmd = .resetPin lowFor pins rom takes m ∧ cause = .pin) :
    exec cmd s = .next (settle m (fullStart cause pins rom { advance m.time s with mm := settleMemory takes s })) := by
  obtain ⟨rfl, rfl⟩ | ⟨lowFor, hlow, hpow, rfl, rfl⟩ := h
  · rfl
  · dsimp only [exec, execResetPin]
    have hheld : Config.resetHold ≤ lowFor := hlow
    rw [whenOn_at (u := advance m.time s) ⟨hpow, rfl⟩, if_pos hheld]
    rfl

theorem fullStart_of_no_profile {cause : RestartCause} {pins : StartPins} {rom : Option ProfileRom} (b : State)
    (h : ∀ r, rom = some r → romSumGood r.contents = false) :
    fullStart cause pins rom b = enterJoin .halted (report .profileAbsent (reportClamped (decide (pins.strap = 15)) (blankStart cause pins b))) := by
  have hnone : (rom.filter fun r => romSumGood r.contents) = none := by
    cases rom with
    | none => rfl
    | some r => simp [Option.filter, h r rfl]
  unfold fullStart
  rw [hnone]

/-- A start with the profile values in place. -/
def profileTaken (cause : RestartCause) (pins : StartPins) (r : ProfileRom) (b : State) : State :=
  { blankStart cause pins b with
    profile := clampProfile r.values
    profileRead := true
    faults := { (blankStart cause pins b).faults with enables := (clampProfile r.values).alertEnables } }

/-- A start with its profile read, before the header is checked or the format begins. -/
def profiled (cause : RestartCause) (pins : StartPins) (r : ProfileRom) (b : State) : State :=
  reportClamped (decide (pins.strap = 15) || profileClamped r.values) (profileTaken cause pins r b)

theorem fullStart_of_profile {cause : RestartCause} {pins : StartPins} {r : ProfileRom} (b : State) (h : romSumGood r.contents = true) :
    fullStart cause pins (some r) b
      = if pins.formatHeld then
          { profiled cause pins r b with cause := .format, tasks := [.formatHeader, .formatContents, .raisePool, .startDone] }
        else checkHeader (profiled cause pins r b) := by
  unfold fullStart
  rw [show ((some r).filter fun r => romSumGood r.contents) = some r by simp [Option.filter, h]]
  rfl

section profiled
variable {m : Moment} {s : State} {pins : StartPins} {cause : RestartCause} {r : ProfileRom} {mm : MapMemory}

theorem startStep_reportClamped (b : Bool) (x : State) : StartStep x (reportClamped b x) := by
  unfold reportClamped
  split
  · exact startStep_report .profileClamped x
  · exact ⟨rfl, rfl⟩

theorem starting_profiled : Starting m s pins (profiled cause pins r { advance m.time s with mm := mm }) :=
  ((starting_blank m s pins cause mm).step (y := profileTaken cause pins r { advance m.time s with mm := mm }) ⟨rfl, rfl⟩).step
    (startStep_reportClamped _ _)

/-- What the reading of the profile sets. -/
theorem profiled_fields (b : State) :
    (profiled cause pins r b).cause = cause ∧ (profiled cause pins r b).profile = clampProfile r.values
      ∧ (profiled cause pins r b).profileRead = true ∧ (profiled cause pins r b).headerRead = false ∧ (profiled cause pins r b).poolUp = false
      ∧ (profiled cause pins r b).loanUp = false ∧ (profiled cause pins r b).mm = b.mm ∧ (profiled cause pins r b).presence = []
      ∧ (profiled cause pins r b).tasks = [] := by
  have hkeep (c : Bool) (x : State) : reportClamped c x = { x with
      link := (reportClamped c x).link, faults := (reportClamped c x).faults, attention := (reportClamped c x).attention } := by
    unfold reportClamped
    split
    · exact report_frame ..
    · rfl
  unfold profiled
  rw [hkeep]
  exact ⟨rfl, rfl, rfl, rfl, rfl, rfl, rfl, rfl, rfl⟩

theorem profiled_faults (b : State) :
    (profiled cause pins r b).faults.flags
        = (if pins.strap = 15 ∨ profileClamped r.values = true then Flag.profileClamped.bit else 0)
      ∧ (profiled cause pins r b).faults.enables = (clampProfile r.values).alertEnables := by
  unfold profiled reportClamped
  split
  · rename_i h
    rw [if_pos (by simpa using h)]
    exact ⟨by rw [report_flags]; simp [profileTaken, blankStart, State.reset, FaultRecord.reset], report_enables ..⟩
  · rename_i h
    rw [if_neg (by simpa using h)]
    exact ⟨rfl, rfl⟩

end profiled

/-! ## Starts without a profile -/

/-- A report in START whose ALERT is queued (R169). -/
theorem report_link_in_start {f : Flag} {x : State} (hc : x.cond = .start) (hnew : x.faults.has f = false) (hen : x.faults.enabled f = true)
    (hp : hasReplyPlace x = true) :
    (report f x).link = { x.link with queue := insertFrame x.link.queue { dest := broadcast, body := .alert f 5 } } := by
  have hoffer : offerFrame { dest := broadcast, body := .alert f x.cond.code } { x with faults := x.faults.set f }
      = some (pushFrame { dest := broadcast, body := .alert f x.cond.code } { x with faults := x.faults.set f }) := by
    have hp' : hasReplyPlace { x with faults := x.faults.set f } = true := hp
    have hrefuses : refuses x.cond { dest := broadcast, body := .alert f x.cond.code } = false := by rw [hc]; rfl
    have hkind : ({ dest := broadcast, body := .alert f x.cond.code } : OutFrame).isReplyOrAlert = true := rfl
    unfold offerFrame
    rw [hrefuses, if_neg Bool.false_ne_true, hkind, if_pos rfl, if_pos hp']
  have hnews : (!x.faults.has f && x.faults.enabled f) = true := by rw [hnew, hen]; rfl
  unfold report
  dsimp only
  rw [if_pos hnews, hoffer, hc]
  rfl

/-- A start without a profile leaves its flag, and that of a strap of 15 (R17, R157). -/
theorem absent_report {pins : StartPins} {b x : State} (hc : b.cond = .start) (hf : b.faults = FaultRecord.reset) (hl : b.link = Link.reset)
    (hx : x = report .profileAbsent (reportClamped (decide (pins.strap = 15)) b)) :
    x.faults.flags = (if pins.strap = 15 then Flag.profileAbsent.bit ||| Flag.profileClamped.bit else Flag.profileAbsent.bit)
      ∧ x.faults.enables = BitVec.allOnes 13
      ∧ x.link.queue = (if pins.strap = 15 then [{ dest := broadcast, body := .alert .profileClamped 5 }] else [])
          ++ [{ dest := broadcast, body := .alert .profileAbsent 5 }] := by
  have hplace {y : State} {q : List OutFrame} (hq : y.link = { Link.reset with queue := q }) (hlen : q.length ≤ 1) : hasReplyPlace y = true := by
    have hcount := q.countP_le_length (p := OutFrame.isReplyOrAlert)
    rw [hasReplyPlace_iff, hq]
    simp only [Link.occupied, Link.replies, Link.reset, Option.isSome_none, Option.any_none, Bool.false_eq_true, if_false]
    omega
  subst hx
  unfold reportClamped
  by_cases h : pins.strap = 15
  · have hlink := report_link_in_start (f := .profileClamped) hc (by rw [hf]; rfl) (by rw [hf]; rfl) (hplace (q := []) hl (by simp))
    have hlast := report_link_in_start (f := .profileAbsent) (x := report .profileClamped b) ((report_cond ..).trans hc)
      (by rw [report_faults, hf]; rfl) (by rw [report_faults, hf]; rfl) (hplace (q := [{ dest := broadcast, body := .alert .profileClamped 5 }])
        (by rw [hlink, hl]; rfl) (by simp))
    rw [decide_eq_true h, if_pos rfl, if_pos h, if_pos h, hlast, hlink, report_faults, report_faults, hf, hl]
    exact ⟨rfl, rfl, rfl⟩
  · have hlast := report_link_in_start (f := .profileAbsent) hc (by rw [hf]; rfl) (by rw [hf]; rfl) (hplace (q := []) hl (by simp))
    rw [decide_eq_false h, if_neg Bool.false_ne_true, if_neg h, if_neg h, hlast, report_faults, hf, hl]
    exact ⟨rfl, rfl, rfl⟩

theorem start_without_profile {cmd : Instr} {cause : RestartCause} {pins : StartPins} {rom : Option ProfileRom} {takes : Bool} {m : Moment}
    {s : State}
    (hcmd : (cmd = .powerOn pins rom takes m ∧ cause = .power)
      ∨ ∃ lowFor, 40 ≤ lowFor ∧ s.powered = true ∧ cmd = .resetPin lowFor pins rom takes m ∧ cause = .pin)
    (hrom : ∀ r, rom = some r → romSumGood r.contents = false) :
    ∃ t, exec cmd s = .next t ∧ StartedAfresh m s pins t ∧ t.cause = cause ∧ t.outcome = .halted
      ∧ t.profile = Profile.absent ∧ t.profileRead = false ∧ t.headerRead = false ∧ t.poolUp = false ∧ t.loanUp = false
      ∧ t.mm = settleMemory takes s ∧ t.p = 0 ∧ t.f = 0
      ∧ t.faults.flags = (if pins.strap = 15 then Flag.profileAbsent.bit ||| Flag.profileClamped.bit else Flag.profileAbsent.bit)
      ∧ t.faults.enables = BitVec.allOnes 13 ∧ t.attention = true ∧ t.joinTimer = some (t.now + 400000)
      ∧ t.link.queue = (if pins.strap = 15 then [{ dest := broadcast, body := .alert .profileClamped 5 }] else [])
          ++ [{ dest := broadcast, body := .alert .profileAbsent 5 }] := by
  let b : State := { advance m.time s with mm := settleMemory takes s }
  obtain ⟨x, hx⟩ : ∃ x, x = report .profileAbsent (reportClamped (decide (pins.strap = 15)) (blankStart cause pins b)) := ⟨_, rfl⟩
  obtain ⟨hflags, henables, hqueue⟩ := absent_report rfl rfl rfl hx
  have hexec := exec_fullStart hcmd
  rw [fullStart_of_no_profile _ hrom, ← hx] at hexec
  have hkept : x = { blankStart cause pins b with link := x.link, faults := x.faults, attention := x.attention } := by
    rw [hx, report_frame]
    unfold reportClamped
    split
    · rw [report_frame]
    · rfl
  have hstart : Starting m s pins x := by
    rw [hx]
    exact ((starting_blank m s pins cause _).step (startStep_reportClamped _ _)).step (startStep_report _ _)
  have hsame {α : Type} (field : State → α) := congrArg field hkept
  have hxt : x.tasks = [] := hsame State.tasks
  rw [settle_idle m (s := enterJoin .halted x) fun _ => hxt] at hexec
  have hpool : x.poolUp = false := hsame State.poolUp
  refine ⟨_, hexec, hstart.joined hxt .halted, hsame State.cause, rfl, hsame State.profile, hsame State.profileRead, hsame State.headerRead,
    hpool, hsame State.loanUp, hsame State.mm, ?_, ?_, hflags, henables, ?_, ?_, hqueue⟩
  · show State.p x = 0
    unfold State.p
    rw [hpool]
    rfl
  · show State.f x = 0
    unfold State.f
    rw [hpool]
    rfl
  · show attentionOf .join x.faults = true
    unfold attentionOf
    rw [hflags, henables]
    split <;> decide
  · show some (presenceDeadline x) = some (x.now + 400000)
    have hprofile : x.profile = Profile.absent := hsame State.profile
    unfold presenceDeadline
    rw [hprofile]
    rfl

end Sys2Proof.Machine

/-! Starts whose header is not valid or whose writes fail (R158, R160, R167), and O54. -/

namespace Sys2Proof.Machine

/-! ## A start that fails -/

/-- JOIN entered with the outcome HALTED after MAPMEM. -/
def startHalted (x : State) : State := enterJoin .halted (report .mapMem (withTasks [] x))

section halted
variable {m : Moment} {s x : State} {pins : StartPins}

theorem startHalted_tasks (x : State) : (startHalted x).tasks = [] := report_tasks .mapMem (withTasks [] x)

theorem Starting.startHalted (h : Starting m s pins x) : StartedAfresh m s pins (startHalted x) :=
  ((h.step (y := withTasks [] x) ⟨rfl, rfl⟩).step (startStep_report .mapMem _)).joined (startHalted_tasks x) .halted

/-- What a start that fails leaves of the station. -/
theorem startHalted_fields (x : State) :
    (Machine.startHalted x).outcome = .halted ∧ (Machine.startHalted x).cause = x.cause ∧ (Machine.startHalted x).profile = x.profile
      ∧ (Machine.startHalted x).profileRead = x.profileRead ∧ (Machine.startHalted x).headerRead = x.headerRead
      ∧ (Machine.startHalted x).poolUp = x.poolUp ∧ (Machine.startHalted x).loanUp = x.loanUp ∧ (Machine.startHalted x).mm = x.mm
      ∧ (Machine.startHalted x).presence = x.presence := by
  unfold Machine.startHalted
  rw [report_frame]
  exact ⟨rfl, rfl, rfl, rfl, rfl, rfl, rfl, rfl, rfl⟩

theorem startHalted_flags (x : State) : (Machine.startHalted x).faults.flags = x.faults.flags ||| Flag.mapMem.bit := report_flags ..

theorem startHalted_has (x : State) : (Machine.startHalted x).faults.has .mapMem = true := report_has_self ..

end halted

/-! ## Stages whose write completes or fails -/

section stages
variable {x : State} {t : Task} {rest : List Task} {w : MapWrite} {fates : List WriteFate}

theorem leads_startFailed (hi : x.inflight = none) (hc : x.cond = .start) :
    Leads 1 fates fates (withTasks (.startFailed :: rest) x) (startHalted x) := by
  refine leads_noWrite hi rfl ?_
  show noWrite (if x.cond = .start then _ else _) = _
  rw [if_pos hc]
  rfl

/-- A write of a start that fails. -/
theorem leads_start_write_fails (hi : x.inflight = none) (hc : x.cond = .start)
    (htk : takeTask t (withTasks rest x) = (withTasks rest x, some w)) (hfail : w.onFail = [.startFailed]) :
    Leads 2 (.fails :: fates) fates (withTasks (t :: rest) x) (startHalted x) := by
  have hfails := leads_fails (fates := fates) (s := withTasks (t :: rest) x) hi rfl (by rw [withTasks_withTasks]; exact htk)
  have hafter : failWrite w (withTasks rest x) = withTasks (.startFailed :: rest) x := by
    have hsame : (withTasks rest x).inflight = none := hi
    unfold failWrite
    rw [hfail, ← hsame]
    rfl
  rw [hafter] at hfails
  exact hfails.trans (leads_startFailed hi hc)

/-- A write of a start that completes, whatever the fates of those after it. -/
theorem leads_start_completes (hi : x.inflight = none) (hc : x.cond = .start)
    (htk : takeTask t (withTasks rest x) = (withTasks rest x, some w)) (hdone : w.onDone = []) (hgo : w.goOn = []) (hrot : w.rotor = x.rotor) :
    ∃ k ≤ 3, Leads k (.completes :: fates) fates (withTasks (t :: rest) x) (withTasks rest { x with mm := w.image }) := by
  obtain ⟨k, hk, hleads⟩ := leads_completed (fates := fates) (w := w) (hdone ▸ DoesAll.nil) (withTasks rest x)
  rw [hdone, List.length_nil] at hk
  have hwritten : written w (withTasks rest x) = withTasks rest { x with mm := w.image } := written_at_rest (v := withTasks rest x) hi hrot
  have hdrain : (withTasks (w.goOn ++ (withTasks rest x).tasks) (askJudged w.takes (withTasks rest x) (written w (withTasks rest x))
      (written w (withTasks rest x)))).cond ≠ .drain := by
    simp [withTasks, written, hc]
  have hready : (written w (withTasks rest x)).cond ≠ .ready := by simp [written, withTasks, hc]
  rw [id, quietJudged_of_cond hdrain, askJudged_of_cond hready, hgo, hwritten] at hleads
  have hcompletes : Leads 1 (.completes :: fates) fates (withTasks (t :: rest) x) (completeWrite w (withTasks rest x)) := fun n hn => by
    obtain ⟨n, rfl⟩ := Nat.exists_eq_add_of_le' hn
    exact work_completes hi rfl (by rw [withTasks_withTasks]; exact htk)
  exact ⟨1 + k, by omega, hcompletes.trans hleads⟩

theorem leads_raisePool (hi : x.inflight = none) (hc : x.cond = .start) :
    Leads 1 fates fates (withTasks (.raisePool :: rest) x) (withTasks rest (raisePool x)) := by
  refine leads_noWrite hi rfl ?_
  show noWrite (if x.cond = .start then _ else _) = _
  rw [if_pos hc]
  rfl

theorem leads_startDone (hi : x.inflight = none) (hc : x.cond = .start) :
    Leads 1 fates fates (withTasks [.startDone] x) (endStart (withTasks [] x)) := by
  refine leads_noWrite hi rfl ?_
  show noWrite (if x.cond = .start then _ else _) = _
  rw [if_pos hc]
  rfl

end stages

/-! ## O54 -/

section contents
variable {m : Moment} {s : State} {pins : StartPins} {cause : RestartCause} {r : ProfileRom} {takes : Bool}

/-- The station of a start with its header found valid. -/
def headerFound (cause : RestartCause) (pins : StartPins) (r : ProfileRom) (takes : Bool) (m : Moment) (s : State) : State :=
  { profiled cause pins r { advance m.time s with mm := settleMemory takes s } with headerRead := true }

theorem starting_headerFound : Starting m s pins (headerFound cause pins r takes m s) := starting_profiled.step ⟨rfl, rfl⟩

theorem headerFound_fields :
    (headerFound cause pins r takes m s).cause = cause ∧ (headerFound cause pins r takes m s).profile = clampProfile r.values
      ∧ (headerFound cause pins r takes m s).profileRead = true ∧ (headerFound cause pins r takes m s).headerRead = true
      ∧ (headerFound cause pins r takes m s).poolUp = false ∧ (headerFound cause pins r takes m s).loanUp = false
      ∧ (headerFound cause pins r takes m s).mm = settleMemory takes s ∧ (headerFound cause pins r takes m s).presence = []
      ∧ (headerFound cause pins r takes m s).tasks = [] := by
  obtain ⟨h1, h2, h3, -, h5, h6, h7, h8, h9⟩ := profiled_fields (cause := cause) (pins := pins) (r := r) { advance m.time s with mm := settleMemory takes s }
  exact ⟨h1, h2, h3, rfl, h5, h6, h7, h8, h9⟩

theorem fullStart_of_valid (hsum : romSumGood r.contents = true) (hformat : pins.formatHeld = false)
    (hv : headerValid (clampProfile r.values) (settleMemory takes s) = true) :
    fullStart cause pins (some r) { advance m.time s with mm := settleMemory takes s } = withTasks startStages (headerFound cause pins r takes m s) := by
  obtain ⟨-, hp, -, -, -, -, hmm, -⟩ := profiled_fields (cause := cause) (pins := pins) (r := r) { advance m.time s with mm := settleMemory takes s }
  rw [fullStart_of_profile _ hsum, hformat, if_neg Bool.false_ne_true, checkHeader_of_valid (by rw [hp, hmm]; exact hv)]
  rfl

theorem start_header_not_valid {cmd : Instr}
    (hcmd : (cmd = .powerOn pins (some r) takes m ∧ cause = .power)
      ∨ ∃ lowFor, 40 ≤ lowFor ∧ s.powered = true ∧ cmd = .resetPin lowFor pins (some r) takes m ∧ cause = .pin)
    (hsum : romSumGood r.contents = true) (hformat : pins.formatHeld = false)
    (hv : headerValid (clampProfile r.values) (settleMemory takes s) = false) :
    exec cmd s = .next (startHalted (profiled cause pins r { advance m.time s with mm := settleMemory takes s })) := by
  obtain ⟨-, hp, -, -, -, -, hmm, -, ht⟩ :=
    profiled_fields (cause := cause) (pins := pins) (r := r) { advance m.time s with mm := settleMemory takes s }
  have hexec := exec_fullStart hcmd
  rw [fullStart_of_profile _ hsum, hformat, if_neg Bool.false_ne_true, checkHeader_of_not_valid (by rw [hp, hmm]; exact hv)] at hexec
  have hhalted : enterJoin .halted (report .mapMem (profiled cause pins r { advance m.time s with mm := settleMemory takes s }))
      = startHalted (profiled cause pins r { advance m.time s with mm := settleMemory takes s }) := by
    unfold startHalted
    rw [withTasks_self ht]
  rw [hhalted, settle_idle m fun _ => startHalted_tasks _] at hexec
  exact hexec

theorem headerValid_eq_false {p : Profile} {mm : MapMemory}
    (h : mm.geometry ≠ some (geometryOf p) ∨ ∀ h, mm.header = some h → h.checkGood = false ∨ h.serial ≠ p.serial) : headerValid p mm = false := by
  unfold headerValid
  obtain hg | hh := h
  · rw [decide_eq_false hg, Bool.and_false]
  · have hnone : mm.header.any (fun h => h.checkGood && h.serial == p.serial) = false := by
      cases hm : mm.header with
      | none => rfl
      | some x =>
        obtain hx | hx := hh x hm
        · simp [hx]
        · simp [hx]
    rw [hnone, Bool.false_and]

/-- The first write of a start fails. -/
theorem leads_first_write_fails (hw : m.writes = [.fails]) :
    settle m (withTasks startStages (headerFound cause pins r takes m s)) = startHalted (headerFound cause pins r takes m s) := by
  have hstart : Starting m s pins (headerFound cause pins r takes m s) := starting_headerFound
  have hfails := leads_start_write_fails (fates := []) (t := .raiseRestartCount) (rest := startStages.tail) hstart.inflight hstart.cond rfl rfl
  exact hfails.settle_eq hw (by decide) (startHalted_tasks _)

/-- The station of a start with its pool set up. -/
def poolRaised (cause : RestartCause) (pins : StartPins) (r : ProfileRom) (takes : Bool) (m : Moment) (s : State) : State :=
  raisePool { headerFound cause pins r takes m s with mm := restartCounted (settleMemory takes s) }

theorem starting_poolRaised : Starting m s pins (poolRaised cause pins r takes m s) := by
  have hstart : Starting m s pins (headerFound cause pins r takes m s) := starting_headerFound
  have hrotor : (headerFound cause pins r takes m s).rotor = 0 := congrArg State.rotor hstart.frame
  refine hstart.step ⟨?_, rfl⟩
  unfold poolRaised raisePool
  rw [← hrotor]

/-- The stages to the pool: the restart count written, the pool set up. -/
theorem leads_poolRaised {fates : List WriteFate} :
    ∃ k ≤ 4, Leads k (.completes :: fates) fates (withTasks startStages (headerFound cause pins r takes m s))
      (withTasks [.startRollback [], .sweepRetiring, .startDone] (poolRaised cause pins r takes m s)) := by
  have hstart : Starting m s pins (headerFound cause pins r takes m s) := starting_headerFound
  obtain ⟨-, -, -, -, -, -, hmm, -⟩ := headerFound_fields (cause := cause) (pins := pins) (r := r) (takes := takes) (m := m) (s := s)
  obtain ⟨k, hk, hcount⟩ := leads_start_completes (fates := fates) (t := .raiseRestartCount) (rest := startStages.tail)
    (w := { image := restartCounted (headerFound cause pins r takes m s).mm, rotor := (headerFound cause pins r takes m s).rotor, takes := false
            onDone := [], goOn := [], onFail := [.startFailed] }) hstart.inflight hstart.cond rfl rfl rfl rfl
  have hpool := leads_raisePool (fates := fates) (rest := [.startRollback [], .sweepRetiring, .startDone])
    (x := { headerFound cause pins r takes m s with mm := restartCounted (headerFound cause pins r takes m s).mm }) hstart.inflight hstart.cond
  have hall := hcount.trans hpool
  rw [hmm] at hall
  exact ⟨k + 1, by omega, hall⟩

theorem poolRaised_fields :
    (poolRaised cause pins r takes m s).cause = cause ∧ (poolRaised cause pins r takes m s).profile = clampProfile r.values
      ∧ (poolRaised cause pins r takes m s).profileRead = true ∧ (poolRaised cause pins r takes m s).headerRead = true
      ∧ (poolRaised cause pins r takes m s).poolUp = true ∧ (poolRaised cause pins r takes m s).loanUp = false
      ∧ (poolRaised cause pins r takes m s).mm = restartCounted (settleMemory takes s)
      ∧ (poolRaised cause pins r takes m s).presence = (List.range (clampProfile r.values).bayCount).map fun b => !pins.bayLines.getLsbD b := by
  obtain ⟨h1, h2, h3, -, -, h6, -⟩ := headerFound_fields (cause := cause) (pins := pins) (r := r) (takes := takes) (m := m) (s := s)
  have hstart : Starting m s pins (headerFound cause pins r takes m s) := starting_headerFound
  have hlines : (headerFound cause pins r takes m s).bayLines = pins.bayLines := (congrArg State.bayLines hstart.frame :)
  refine ⟨h1, h2, h3, rfl, rfl, h6, rfl, ?_⟩
  show presenceFrom (headerFound cause pins r takes m s).bayLines (headerFound cause pins r takes m s).profile.bayCount = _
  rw [hlines, h2]
  rfl

/-- The first write of the rollback fails, the restart count's having completed. -/
theorem leads_rollback_write_fails (hw : m.writes = [.completes, .fails]) {rec : PendingRecord} {more : List PendingRecord}
    (hp : (settleMemory takes s).pendings = rec :: more) :
    settle m (withTasks startStages (headerFound cause pins r takes m s)) = startHalted (poolRaised cause pins r takes m s) := by
  have hstart : Starting m s pins (poolRaised cause pins r takes m s) := starting_poolRaised
  obtain ⟨k, hk, hpool⟩ := leads_poolRaised (cause := cause) (pins := pins) (r := r) (takes := takes) (m := m) (s := s) (fates := [.fails])
  obtain ⟨w, htk, hfail⟩ : ∃ w, takeTask (.startRollback []) (withTasks [.sweepRetiring, .startDone] (poolRaised cause pins r takes m s))
      = (withTasks [.sweepRetiring, .startDone] (poolRaised cause pins r takes m s), some w) ∧ w.onFail = [.startFailed] := by
    have hpend : (withTasks [.sweepRetiring, .startDone] (poolRaised cause pins r takes m s)).mm.pendings = rec :: more := hp
    simp only [takeTask, takeStartRollback, hpend]
    exact ⟨_, rfl, rfl⟩
  have hfails := leads_start_write_fails (fates := []) hstart.inflight hstart.cond htk hfail
  exact (hpool.trans hfails).settle_eq hw (by simp only [workBound]; omega) (startHalted_tasks _)

end contents

theorem restartCounted_of_header {mm : MapMemory} {h : Header} (hh : mm.header = some h) (hc : h.restartCount ≤ 65535) :
    restartCounted mm = { mm with header := some { h with restartCount := min 65535 (h.restartCount + 1) } } := by
  unfold restartCounted
  rw [hh, Option.map_some, saturate_eq hc]

/-- Settles O54: the four starts that end in HALTED. -/
theorem startWithoutContents : Obligations.StartWithoutContents := by
  refine ⟨fun cmd cause pins rom takes m s hcmd hrom => start_without_profile hcmd hrom, ?_, ?_, ?_⟩
  · intro cmd cause pins r takes m s hcmd hsum hformat p mm hnot
    obtain ⟨h1, h2, h3, h4, h5, h6, h7, -, -⟩ := profiled_fields (cause := cause) (pins := pins) (r := r) { advance m.time s with mm := mm }
    obtain ⟨hflags, -⟩ := profiled_faults (cause := cause) (pins := pins) (r := r) { advance m.time s with mm := mm }
    obtain ⟨k1, k2, k3, k4, k5, k6, k7, k8, -⟩ := startHalted_fields (profiled cause pins r { advance m.time s with mm := mm })
    refine ⟨_, start_header_not_valid hcmd hsum hformat (headerValid_eq_false hnot), starting_profiled.startHalted, k2.trans h1, k1,
      k3.trans h2, k4.trans h3, k5.trans h4, k6.trans h5, k7.trans h6, k8.trans h7, ?_⟩
    rw [startHalted_flags, hflags]
    split <;> simp
  · intro pins r takes m s h hsum hformat hw p mm hgeo hheader hgood hserial
    have hv : headerValid p mm = true := headerValid_of hgeo hheader hgood hserial
    have hexec := exec_fullStart (cmd := .powerOn pins (some r) takes m) (cause := .power) (s := s) (.inl ⟨rfl, rfl⟩)
    rw [fullStart_of_valid hsum hformat hv, leads_first_write_fails hw] at hexec
    obtain ⟨-, -, -, h4, h5, h6, h7, h8, -⟩ := headerFound_fields (cause := .power) (pins := pins) (r := r) (takes := takes) (m := m) (s := s)
    obtain ⟨k1, -, -, -, k5, k6, k7, k8, k9⟩ := startHalted_fields (headerFound .power pins r takes m s)
    have hpool : (startHalted (headerFound .power pins r takes m s)).poolUp = false := k6.trans h5
    have hzero (x : Nat) : (if (startHalted (headerFound .power pins r takes m s)).poolUp then x else 0) = 0 := by rw [hpool]; rfl
    refine ⟨_, hexec, starting_headerFound.startHalted, k1, k8.trans h7, k7.trans h6, k5.trans h4, startHalted_has _, hzero _, hzero _, hzero _, ?_,
      k9.trans h8⟩
    exact if_pos (hzero _)
  · intro pins r takes m s h rec more hsum hformat hw p mm hgeo hheader hgood hserial hcount hpend presence
    have hv : headerValid p mm = true := headerValid_of hgeo hheader hgood hserial
    have hexec := exec_fullStart (cmd := .powerOn pins (some r) takes m) (cause := .power) (s := s) (.inl ⟨rfl, rfl⟩)
    rw [fullStart_of_valid hsum hformat hv, leads_rollback_write_fails hw hpend] at hexec
    obtain ⟨-, -, -, h4, h5, h6, h7, h8⟩ := poolRaised_fields (cause := .power) (pins := pins) (r := r) (takes := takes) (m := m) (s := s)
    obtain ⟨k1, -, -, -, k5, k6, k7, k8, k9⟩ := startHalted_fields (poolRaised .power pins r takes m s)
    have hpool : (startHalted (poolRaised .power pins r takes m s)).poolUp = true := k6.trans h5
    have hsets : (startHalted (poolRaised .power pins r takes m s)).mm.freeSets = mm.freeSets := by
      rw [k8, h7]
      rfl
    have hstart : StartedAfresh m s pins (startHalted (poolRaised .power pins r takes m s)) := starting_poolRaised.startHalted
    refine ⟨_, hexec, hstart, k1, k8.trans (h7.trans (restartCounted_of_header hheader hcount)), k7.trans h6, k5.trans h4, hpool,
      startHalted_has _, k9.trans h8, hstart.rotor, ?_, ?_⟩
    · unfold State.p
      rw [hpool, hsets, k9.trans h8]
      rfl
    · unfold State.f
      rw [hpool, hsets, k9.trans h8]
      rfl

end Sys2Proof.Machine

/-! The start that formats (R16, R159), and O55. -/

namespace Sys2Proof.Machine

/-- A write of a start that completes where every write does. -/
theorem leads_start_written {x : State} {t : Task} {rest : List Task} {w : MapWrite} (hi : x.inflight = none) (hc : x.cond = .start)
    (htk : takeTask t (withTasks rest x) = (withTasks rest x, some w)) (hdone : w.onDone = []) (hrot : w.rotor = x.rotor) :
    ∃ k ≤ 3, Leads k [] [] (withTasks (t :: rest) x) (withTasks (w.goOn ++ rest) { x with mm := w.image }) := by
  obtain ⟨k, hk, hleads⟩ := leads_start_write (fates := []) (s := withTasks (t :: rest) x) (t := t) (rest := rest) (s' := withTasks rest x) (w := w)
    rfl hi rfl (by rw [withTasks_withTasks]; exact htk) hdone hc
  rw [written_at_rest (v := withTasks rest x) hi hrot] at hleads
  exact ⟨k, hk, hleads⟩

section format
variable {m : Moment} {s : State} {pins : StartPins} {cause : RestartCause} {r : ProfileRom} {takes : Bool}

/-- The station of a start that formats, nothing written yet. -/
def formatBegun (cause : RestartCause) (pins : StartPins) (r : ProfileRom) (takes : Bool) (m : Moment) (s : State) : State :=
  { profiled cause pins r { advance m.time s with mm := settleMemory takes s } with cause := .format }

/-- The header a format writes (R159). -/
def formatHeader (p : Profile) (mm : MapMemory) : Header :=
  { serial := p.serial, formatCount := nextFormatCount mm, restartCount := 0, checkGood := true }

theorem starting_formatBegun (mm : MapMemory) : Starting m s pins { formatBegun cause pins r takes m s with mm := mm } :=
  starting_profiled.step (y := { formatBegun cause pins r takes m s with mm := mm }) ⟨rfl, rfl⟩

theorem formatBegun_fields :
    (formatBegun cause pins r takes m s).cause = .format ∧ (formatBegun cause pins r takes m s).profile = clampProfile r.values
      ∧ (formatBegun cause pins r takes m s).profileRead = true ∧ (formatBegun cause pins r takes m s).headerRead = false
      ∧ (formatBegun cause pins r takes m s).poolUp = false ∧ (formatBegun cause pins r takes m s).loanUp = false
      ∧ (formatBegun cause pins r takes m s).mm = settleMemory takes s
      ∧ (formatBegun cause pins r takes m s).faults.flags
        = (if pins.strap = 15 ∨ profileClamped r.values = true then Flag.profileClamped.bit else 0)
      ∧ (formatBegun cause pins r takes m s).faults.enables = (clampProfile r.values).alertEnables := by
  obtain ⟨-, h2, h3, h4, h5, h6, h7, -⟩ := profiled_fields (cause := cause) (pins := pins) (r := r) { advance m.time s with mm := settleMemory takes s }
  obtain ⟨hflags, henables⟩ := profiled_faults (cause := cause) (pins := pins) (r := r) { advance m.time s with mm := settleMemory takes s }
  exact ⟨rfl, h2, h3, h4, h5, h6, h7, hflags, henables⟩

theorem exec_format {cmd : Instr}
    (hcmd : cmd = .powerOn pins (some r) takes m
      ∨ ∃ lowFor, 40 ≤ lowFor ∧ s.powered = true ∧ cmd = .resetPin lowFor pins (some r) takes m)
    (hsum : romSumGood r.contents = true) (hformat : pins.formatHeld = true) :
    ∃ cause, exec cmd s
      = .next (settle m (withTasks [.formatHeader, .formatContents, .raisePool, .startDone] (formatBegun cause pins r takes m s))) := by
  obtain ⟨cause, hcause⟩ : ∃ cause, (cmd = .powerOn pins (some r) takes m ∧ cause = .power)
      ∨ ∃ lowFor, 40 ≤ lowFor ∧ s.powered = true ∧ cmd = .resetPin lowFor pins (some r) takes m ∧ cause = RestartCause.pin := by
    obtain h | ⟨lowFor, hlow, hpow, h⟩ := hcmd
    · exact ⟨.power, .inl ⟨h, rfl⟩⟩
    · exact ⟨.pin, .inr ⟨lowFor, hlow, hpow, h, rfl⟩⟩
  have hexec := exec_fullStart hcause
  rw [fullStart_of_profile _ hsum, hformat, if_pos rfl] at hexec
  exact ⟨cause, hexec⟩

/-- The station a format leaves. -/
def formatted (cause : RestartCause) (pins : StartPins) (r : ProfileRom) (takes : Bool) (m : Moment) (s : State) : State :=
  endStart (withTasks [] (raisePool { formatBegun cause pins r takes m s with
    mm := formatContents { settleMemory takes s with header := some (formatHeader (clampProfile r.values) (settleMemory takes s)) }
      (clampProfile r.values) }))

theorem settle_format (hw : m.writes = []) :
    settle m (withTasks [.formatHeader, .formatContents, .raisePool, .startDone] (formatBegun cause pins r takes m s))
      = formatted cause pins r takes m s := by
  obtain ⟨-, hp, -, -, -, -, hmm, -⟩ := formatBegun_fields (cause := cause) (pins := pins) (r := r) (takes := takes) (m := m) (s := s)
  obtain ⟨x, hx⟩ : ∃ x, x = formatBegun cause pins r takes m s := ⟨_, rfl⟩
  have hstart (mm : MapMemory) : Starting m s pins { x with mm := mm } := hx ▸ starting_formatBegun mm
  have hx0 : Starting m s pins x := hstart x.mm
  obtain ⟨k, hk, hheader⟩ := leads_start_written (t := .formatHeader) (rest := [.formatContents, .raisePool, .startDone]) hx0.inflight hx0.cond
    rfl rfl rfl
  let mm1 : MapMemory := { x.mm with header := some (formatHeader x.profile x.mm) }
  obtain ⟨l, hl, hcontents⟩ := leads_start_written (x := { x with mm := mm1 }) (t := .formatContents) (rest := [.raisePool, .startDone])
    (hstart mm1).inflight (hstart mm1).cond rfl rfl rfl
  let mm2 : MapMemory := formatContents mm1 x.profile
  have hpool := leads_raisePool (fates := []) (rest := [.startDone]) (hstart mm2).inflight (hstart mm2).cond
  have hdone := leads_startDone (fates := []) (x := raisePool { x with mm := mm2 }) (hstart mm2).inflight (hstart mm2).cond
  have hall := ((hheader.trans hcontents).trans hpool).trans hdone
  rw [← hx, hall.settle_eq hw (by simp only [workBound]; omega) rfl, formatted, ← hx]
  have hxp : x.profile = clampProfile r.values := hx ▸ hp
  have hxm : x.mm = settleMemory takes s := hx ▸ hmm
  have hsame : mm2 = formatContents { settleMemory takes s with header := some (formatHeader (clampProfile r.values) (settleMemory takes s)) }
      (clampProfile r.values) := by
    unfold mm2 mm1
    rw [hxm, hxp]
  exact congrArg (fun mm => endStart (withTasks [] (raisePool { x with mm := mm }))) hsame

theorem settle_format_fails (hw : m.writes = [.completes, .fails]) :
    settle m (withTasks [.formatHeader, .formatContents, .raisePool, .startDone] (formatBegun cause pins r takes m s))
      = startHalted { formatBegun cause pins r takes m s with
          headerRead := false
          mm := { settleMemory takes s with header := some (formatHeader (clampProfile r.values) (settleMemory takes s)) } } := by
  obtain ⟨-, hp, -, -, -, -, hmm, -⟩ := formatBegun_fields (cause := cause) (pins := pins) (r := r) (takes := takes) (m := m) (s := s)
  obtain ⟨x, hx⟩ : ∃ x, x = formatBegun cause pins r takes m s := ⟨_, rfl⟩
  have hstart (mm : MapMemory) : Starting m s pins { x with mm := mm } := hx ▸ starting_formatBegun mm
  have hx0 : Starting m s pins x := hstart x.mm
  obtain ⟨k, hk, hheader⟩ := leads_start_completes (fates := [.fails]) (t := .formatHeader) (rest := [.formatContents, .raisePool, .startDone])
    hx0.inflight hx0.cond rfl rfl rfl rfl
  let mm1 : MapMemory := { x.mm with header := some (formatHeader x.profile x.mm) }
  have hfails := leads_fails (fates := []) (t := .formatContents) (rest := [.raisePool, .startDone])
    (s := withTasks [.formatContents, .raisePool, .startDone] { x with mm := mm1 }) hx0.inflight rfl rfl
  have hover : Leads 1 [] [] (withTasks [.formatFailed, .raisePool, .startDone] { x with mm := mm1 })
      (startHalted { x with headerRead := false, mm := mm1 }) := by
    refine leads_noWrite hx0.inflight rfl ?_
    show noWrite (if x.cond = .start then _ else _) = _
    rw [if_pos hx0.cond]
    rfl
  have hafter : failWrite { image := formatContents mm1 x.profile, rotor := x.rotor, takes := false, onDone := [], goOn := [], onFail := [.formatFailed] }
      (withTasks [.raisePool, .startDone] { x with mm := mm1 }) = withTasks [.formatFailed, .raisePool, .startDone] { x with mm := mm1 } := by
    unfold failWrite
    rw [← hx0.inflight]
    rfl
  have hall := (hheader.trans hfails).trans (hafter ▸ hover)
  rw [← hx, hall.settle_eq hw (by simp only [workBound]; omega) (startHalted_tasks _)]
  have hxp : x.profile = clampProfile r.values := hx ▸ hp
  have hxm : x.mm = settleMemory takes s := hx ▸ hmm
  have hsame : mm1 = { settleMemory takes s with header := some (formatHeader (clampProfile r.values) (settleMemory takes s)) } := by
    unfold mm1
    rw [hxm, hxp]
  exact congrArg (fun mm => startHalted { x with headerRead := false, mm := mm }) hsame

end format

/-- Settles O55: the two writes of a format, both made or the second failing. -/
theorem startFormats : Obligations.StartFormats := by
  constructor
  · intro cmd pins r takes m s hcmd hsum hformat hw p old
    obtain ⟨cause, hexec⟩ := exec_format hcmd hsum hformat
    rw [settle_format hw] at hexec
    obtain ⟨h1, h2, h3, -, -, -, -, hflags, henables⟩ :=
      formatBegun_fields (cause := cause) (pins := pins) (r := r) (takes := takes) (m := m) (s := s)
    have hstart : Starting m s pins (formatBegun cause pins r takes m s) := starting_formatBegun _
    have hlines : (formatBegun cause pins r takes m s).bayLines = pins.bayLines := (congrArg State.bayLines hstart.frame :)
    have hrotor : (formatBegun cause pins r takes m s).rotor = 0 := (congrArg State.rotor hstart.frame :)
    have hafresh : StartedAfresh m s pins (formatted cause pins r takes m s) := by
      refine (hstart.step (y := { withTasks [] (raisePool { formatBegun cause pins r takes m s with
        mm := formatContents { settleMemory takes s with header := some (formatHeader (clampProfile r.values) (settleMemory takes s)) }
          (clampProfile r.values) }) with loanUp := true }) ⟨?_, rfl⟩).joined rfl .ready
      unfold raisePool withTasks
      rw [← hrotor]
    refine ⟨formatted cause pins r takes m s, nextFormatCount (settleMemory takes s), hexec, hafresh, h1, rfl, h2, h3, rfl, rfl, rfl,
      fun h hh hgood => ?_, fun hnone => ?_, rfl, hflags, henables, ?_⟩
    · have hheader : (settleMemory takes s).header = some h := hh
      simp [nextFormatCount, hheader, hgood]
    · unfold nextFormatCount
      cases hh : (settleMemory takes s).header with
      | none => rfl
      | some h => simp [hnone h hh]
    · show presenceFrom (formatBegun cause pins r takes m s).bayLines (formatBegun cause pins r takes m s).profile.bayCount = _
      rw [hlines, h2]
      rfl
  · intro pins r takes m s hsum hformat hw p mm
    obtain ⟨cause, hexec⟩ := exec_format (s := s) (m := m) (takes := takes) (.inl rfl) hsum hformat
    rw [settle_format_fails hw] at hexec
    obtain ⟨h1, -, -, -, h5, h6, -⟩ := formatBegun_fields (cause := cause) (pins := pins) (r := r) (takes := takes) (m := m) (s := s)
    have hstart : Starting m s pins (formatBegun cause pins r takes m s) := starting_formatBegun _
    let x : State := { formatBegun cause pins r takes m s with
      headerRead := false
      mm := { settleMemory takes s with header := some (formatHeader (clampProfile r.values) (settleMemory takes s)) } }
    obtain ⟨k1, k2, -, -, -, k6, k7, k8, -⟩ := startHalted_fields x
    have hzero (n : Nat) : (if (startHalted x).poolUp then n else 0) = 0 := by rw [k6, show x.poolUp = false from h5]; rfl
    exact ⟨_, formatHeader (clampProfile r.values) (settleMemory takes s), hexec, (hstart.step (y := x) ⟨rfl, rfl⟩).startHalted, k2.trans h1, k1, k8,
      rfl, rfl, startHalted_has x, k7.trans h6, hzero _, hzero _⟩

end Sys2Proof.Machine

/-! The start over valid contents (R56, R160): the rollback of every pending record, its handbacks, the sweep; and O56. -/

namespace Sys2Proof.Machine

/-! ## The frames of the start's rollback -/

/-- How many loans stand to be handed back. -/
def gathered (acc : List (Station × List Nat)) : Nat := (acc.map fun p => p.2.length).sum

theorem gathered_gatherLoan (acc : List (Station × List Nat)) (x : Station × Nat) : gathered (gatherLoan acc x) = gathered acc + 1 := by
  induction acc with
  | nil => rfl
  | cons p acc ih =>
    obtain ⟨st, ls⟩ := p
    unfold gatherLoan
    split
    · simp only [gathered, List.map_cons, List.sum_cons, List.length_append, List.length_singleton]
      omega
    · simp only [gathered, List.map_cons, List.sum_cons] at ih ⊢
      omega

theorem gathered_foldl (hs : List (Station × Nat)) (acc : List (Station × List Nat)) :
    gathered (hs.foldl gatherLoan acc) = gathered acc + hs.length := by
  induction hs generalizing acc with
  | nil => rfl
  | cons x hs ih =>
    rw [List.foldl_cons, ih, gathered_gatherLoan, List.length_cons]
    omega

theorem length_cutEights_le (n : Nat) (l : List Nat) : (cutEights n l).length ≤ n := by
  induction n generalizing l with
  | zero => exact Nat.le_refl 0
  | succ n ih =>
    unfold cutEights
    split
    · exact Nat.zero_le _
    · exact Nat.succ_le_succ (ih _)

theorem length_handbackFrames_le (hs : List (Station × Nat)) : (handbackFrames hs).length ≤ hs.length := by
  have hflat (acc : List (Station × List Nat)) :
      (acc.flatMap fun p => (cutEights p.2.length p.2).map fun ls => Task.giveback false p.1 .rollback ls).length ≤ gathered acc := by
    induction acc with
    | nil => exact Nat.le_refl 0
    | cons p acc ih =>
      have hp := length_cutEights_le p.2.length p.2
      simp only [List.flatMap_cons, List.length_append, List.length_map, gathered, List.map_cons, List.sum_cons] at ih ⊢
      omega
  have htotal := gathered_foldl hs []
  have hsum : gathered (hs.foldl gatherLoan []) ≤ hs.length := by
    rw [htotal]
    exact (Nat.zero_add _).le
  exact (hflat _).trans hsum

/-- What only frames and reports change. -/
def OnlySends (x y : State) : Prop := y = { x with link := y.link, faults := y.faults, attention := y.attention }

theorem doesAll_givebacks {ts : List Task} (h : ∀ t ∈ ts, ∃ a r ls, t = .giveback false a r ls) :
    ∃ g, DoesAll ts g ∧ ∀ x, OnlySends x (g x) ∧ ∀ m s pins, Starting m s pins x → Starting m s pins (g x) := by
  induction ts with
  | nil => exact ⟨id, .nil, fun _ => ⟨rfl, fun _ _ _ h => h⟩⟩
  | cons t ts ih =>
    obtain ⟨a, r, ls, rfl⟩ := h t List.mem_cons_self
    obtain ⟨g, hg, hkeep⟩ := ih fun t ht => h t (List.mem_cons_of_mem _ ht)
    refine ⟨_, .cons (does_giveback a r ls) hg, fun x => ?_⟩
    obtain ⟨hsends, hstart⟩ := hkeep (sendGiveback a r ls x)
    refine ⟨?_, fun m s pins hx => hstart m s pins (hx.step (startStep_sendGiveback a r ls x))⟩
    have hfirst : OnlySends x (sendGiveback a r ls x) := sendGiveback_frame a r ls x
    unfold OnlySends at *
    show g (sendGiveback a r ls x) = { x with
      link := (g (sendGiveback a r ls x)).link, faults := (g (sendGiveback a r ls x)).faults, attention := (g (sendGiveback a r ls x)).attention }
    rw [hsends, hfirst]

theorem handbackFrames_givebacks (hs : List (Station × Nat)) : ∀ t ∈ handbackFrames hs, ∃ a r ls, t = .giveback false a r ls := by
  intro t ht
  obtain ⟨p, -, ht⟩ := List.mem_flatMap.mp ht
  obtain ⟨ls, -, rfl⟩ := List.mem_map.mp ht
  exact ⟨_, _, _, rfl⟩

/-! ## The rollback -/

/-- What a rollback leaves alone. -/
theorem RollsBack.keeps {which : RollbackOf} {ro : Table RosterRecord} {pr : List Bool} {mm mm' : MapMemory} (h : RollsBack which ro pr mm mm') :
    mm'.header = mm.header ∧ mm'.geometry = mm.geometry ∧ mm'.trims = mm.trims ∧ mm'.loans = mm.loans := by
  induction h with
  | done _ => exact ⟨rfl, rfl, rfl, rfl⟩
  | @next mm mm' r _ _ ih =>
    obtain ⟨hh, hg, ht, hl⟩ := ih
    obtain ⟨kh, kg⟩ := rollbackChunk_header (mm := mm) ro pr r.volume r.chunk
    obtain ⟨-, kt, kl⟩ := rollbackChunk_kept ro pr mm r.volume r.chunk
    exact ⟨hh.trans kh, hg.trans kg, ht.trans kt, hl.trans kl⟩

/-- The records of a start, rolled back one after another, their handbacks gathered (R56). -/
theorem leads_startRollback (n : Nat) {x : State} (hi : x.inflight = none) (hc : x.cond = .start) (hn : x.mm.pendings.length ≤ n)
    (hs : List (Station × Nat)) (rest : List Task) :
    ∃ k ≤ 3 * n + 1, ∃ hs' mm', Leads k [] [] (withTasks (.startRollback hs :: rest) x) (withTasks (handbackFrames hs' ++ rest) { x with mm := mm' })
      ∧ hs'.length ≤ hs.length + n ∧ RollsBack .forced x.roster x.presence x.mm mm' := by
  induction n generalizing x hs with
  | zero =>
    have hnone : x.mm.pendings = [] := List.length_eq_zero_iff.mp (Nat.le_zero.mp hn)
    refine ⟨1, by omega, hs, x.mm, leads_noWrite hi rfl ?_, by omega, .done (by rw [hnone]; rfl)⟩
    simp only [takeTask, takeStartRollback, withTasks, hnone]
    rfl
  | succ n ih =>
    cases hp : x.mm.pendings with
    | nil =>
      refine ⟨1, by omega, hs, x.mm, leads_noWrite hi rfl ?_, by omega, .done (by rw [hp]; rfl)⟩
      simp only [takeTask, takeStartRollback, withTasks, hp]
      rfl
    | cons r more =>
      let d := rollbackChunk x.roster x.presence x.mm r.volume r.chunk
      let hs1 := hs ++ (d.handback.map fun h => (h.lender, h.loan)).toList
      have htk : takeTask (.startRollback hs) (withTasks rest x)
          = (withTasks rest x, some { image := d.mm, rotor := x.rotor, takes := false, onDone := [], goOn := [.startRollback hs1]
                                      onFail := [.startFailed] }) := by
        simp only [takeTask, takeStartRollback, withTasks, hp]
        rfl
      obtain ⟨k, hk, hone⟩ := leads_start_written hi hc htk rfl rfl
      have hpend : d.mm.pendings = (removePending x.mm r.volume r.chunk).pendings := (rollbackChunk_kept ..).1
      have hless := length_removePending_lt (mm := x.mm) (r := r) (by rw [hp]; exact List.mem_cons_self)
      have hlen : hs1.length ≤ hs.length + 1 := by
        unfold hs1
        cases d.handback <;> simp
      obtain ⟨l, hl, hs', mm', hrest, hs'len, hrolls⟩ := ih (x := { x with mm := d.mm }) hi hc
        (by show d.mm.pendings.length ≤ n; rw [hpend]; omega) hs1
      refine ⟨k + l, by omega, hs', mm', hone.trans hrest, by omega, .next (r := r) (by rw [hp]; rfl) hrolls⟩

/-! ## The stages over valid contents -/

section contents
variable {m : Moment} {s : State} {pins : StartPins} {cause : RestartCause} {r : ProfileRom} {takes : Bool}

/-- The stages, all their writes completing: what is left of the pool's station is what frames, the rollback and the sweep change. -/
theorem settle_stages (hw : m.writes = []) (hn : (settleMemory takes s).pendings.length ≤ 128) :
    ∃ y mm', settle m (withTasks startStages (headerFound cause pins r takes m s)) = endStart (withTasks [] { y with mm := sweepVolumes mm' })
      ∧ OnlySends { poolRaised cause pins r takes m s with mm := mm' } y ∧ Starting m s pins y
      ∧ RollsBack .forced (poolRaised cause pins r takes m s).roster (poolRaised cause pins r takes m s).presence
          (restartCounted (settleMemory takes s)) mm' := by
  have hfound : Starting m s pins (headerFound cause pins r takes m s) := starting_headerFound
  have hstart : Starting m s pins (poolRaised cause pins r takes m s) := starting_poolRaised
  obtain ⟨-, -, -, -, -, -, hmm, -, -⟩ := headerFound_fields (cause := cause) (pins := pins) (r := r) (takes := takes) (m := m) (s := s)
  obtain ⟨k, hk, hpool⟩ := leads_stages_pool (s := withTasks startStages (headerFound cause pins r takes m s)) hfound.inflight hfound.cond rfl
  have hraised : withTasks [.startRollback [], .sweepRetiring, .startDone]
      (raisePool { withTasks startStages (headerFound cause pins r takes m s) with
        mm := restartCounted (withTasks startStages (headerFound cause pins r takes m s)).mm })
      = withTasks [.startRollback [], .sweepRetiring, .startDone] (poolRaised cause pins r takes m s) := by
    show withTasks _ (raisePool { headerFound cause pins r takes m s with mm := restartCounted (headerFound cause pins r takes m s).mm }) = _
    rw [hmm]
    rfl
  rw [hraised] at hpool
  obtain ⟨l, hl, hs', mm', hroll, hlen, hrolls⟩ := leads_startRollback 128 hstart.inflight hstart.cond hn [] [.sweepRetiring, .startDone]
  obtain ⟨g, hg, hkeep⟩ := doesAll_givebacks (handbackFrames_givebacks hs')
  obtain ⟨hsends, hgstart⟩ := hkeep { poolRaised cause pins r takes m s with mm := mm' }
  have hframes := hg.leads (fates := []) (rest := [.sweepRetiring, .startDone]) (s := { poolRaised cause pins r takes m s with mm := mm' })
    hstart.inflight
  obtain ⟨y, hy⟩ : ∃ y, y = g { poolRaised cause pins r takes m s with mm := mm' } := ⟨_, rfl⟩
  rw [← hy] at hframes hsends hgstart
  have hystart : Starting m s pins y := hgstart m s pins (hstart.step ⟨rfl, rfl⟩)
  have hymm : y.mm = mm' := (congrArg State.mm hsends :)
  obtain ⟨j, hj, hend⟩ := leads_stages_end (s := withTasks [.sweepRetiring, .startDone] y) hystart.inflight hystart.cond rfl
  have hcount : (handbackFrames hs').length ≤ 128 := (length_handbackFrames_le hs').trans (by simpa using hlen)
  refine ⟨y, mm', ?_, hsends, hystart, hrolls⟩
  have hall := ((hpool.trans hroll).trans hframes).trans hend
  rw [hall.settle_eq hw (by simp only [workBound]; omega) rfl]
  show endStart (withTasks [] { y with mm := sweepVolumes y.mm }) = _
  rw [hymm]

end contents

theorem sweepVolumes_swept (mm : MapMemory) :
    ∀ q ∈ (sweepVolumes mm).volumes, q.2.state = .retiring → ∃ x ∈ mm.trims, x.volume = q.1 ∧ x.origin = .delete := by
  intro q hq hret
  obtain ⟨-, hkeep⟩ := List.mem_filter.mp hq
  rw [hret] at hkeep
  have hany : (mm.trims.any fun r => r.volume == q.1 && decide (r.origin = .delete)) = true := by simpa using hkeep
  obtain ⟨x, hx, hxq⟩ := List.any_eq_true.mp hany
  simp only [Bool.and_eq_true, beq_iff_eq, decide_eq_true_eq] at hxq
  exact ⟨x, hx, hxq⟩

theorem start_keeps_contents {cmd : Instr} {cause : RestartCause} {pins : StartPins} {r : ProfileRom} {takes : Bool} {m : Moment} {s : State}
    {h : Header}
    (hcmd : (cmd = .powerOn pins (some r) takes m ∧ cause = .power)
      ∨ ∃ lowFor, 40 ≤ lowFor ∧ s.powered = true ∧ cmd = .resetPin lowFor pins (some r) takes m ∧ cause = .pin)
    (hsum : romSumGood r.contents = true) (hformat : pins.formatHeld = false) (hw : m.writes = [])
    (hgeo : (settleMemory takes s).geometry = some (geometryOf (clampProfile r.values))) (hheader : (settleMemory takes s).header = some h)
    (hgood : h.checkGood = true) (hserial : h.serial = (clampProfile r.values).serial) (hcount : h.restartCount ≤ 65535)
    (hcan : Canonical (settleMemory takes s)) (hfits : Fits (settleMemory takes s)) (hlaw : PendingLaw (settleMemory takes s)) :
    ∃ t, exec cmd s = .next t ∧ StartedAfresh m s pins t ∧ t.cause = cause ∧ t.outcome = .ready ∧ t.profile = clampProfile r.values
      ∧ t.profileRead = true ∧ t.headerRead = true ∧ t.poolUp = true ∧ t.loanUp = true
      ∧ t.mm.header = some { h with restartCount := min 65535 (h.restartCount + 1) }
      ∧ t.mm.geometry = (settleMemory takes s).geometry ∧ t.mm.trims = (settleMemory takes s).trims ∧ t.mm.loans = (settleMemory takes s).loans
      ∧ t.mm.pendings = []
      ∧ (∀ v c, c < 16777216 →
          entryOf t.mm v c
            = (if (settleMemory takes s).pendings.any (fun x => x.volume == v && x.chunk == c) then none else entryOf (settleMemory takes s) v c))
      ∧ (∀ q ∈ t.mm.volumes, q.2.state = .retiring → ∃ x ∈ t.mm.trims, x.volume = q.1 ∧ x.origin = .delete)
      ∧ t.presence = (List.range (clampProfile r.values).bayCount).map fun b => !pins.bayLines.getLsbD b := by
  let mm := settleMemory takes s
  have hexec := exec_fullStart hcmd
  rw [fullStart_of_valid hsum hformat (headerValid_of hgeo hheader hgood hserial)] at hexec
  obtain ⟨y, mm', hsettle, hsends, hystart, hrolls⟩ := settle_stages (cause := cause) (pins := pins) (r := r) (m := m) hw hfits.pendings
  rw [hsettle] at hexec
  obtain ⟨h1, h2, h3, h4, h5, -, -, h8⟩ := poolRaised_fields (cause := cause) (pins := pins) (r := r) (takes := takes) (m := m) (s := s)
  have hsame {α : Type} (field : State → α) := congrArg field hsends
  have hcan' : Canonical (restartCounted mm) := ⟨hcan.volumes, hcan.chunks, hcan.loans, hcan.peers, hcan.freeSets⟩
  have hrolled := hrolls.rolledBack hcan' hfits.pendingChunks hlaw.once
  obtain ⟨khead, kgeo, ktrims, kloans⟩ := hrolls.keeps
  have hcounted := restartCounted_of_header hheader hcount
  have hafresh : StartedAfresh m s pins (endStart (withTasks [] { y with mm := sweepVolumes mm' })) :=
    (hystart.step (y := { withTasks [] { y with mm := sweepVolumes mm' } with loanUp := true }) ⟨rfl, rfl⟩).joined rfl .ready
  refine ⟨_, hexec, hafresh, (hsame State.cause).trans h1, rfl, (hsame State.profile).trans h2, (hsame State.profileRead).trans h3,
    (hsame State.headerRead).trans h4, (hsame State.poolUp).trans h5, rfl, ?_, kgeo, ktrims, kloans, ?_, fun v c hlt => ?_, ?_,
    (hsame State.presence).trans h8⟩
  · exact khead.trans (congrArg MapMemory.header hcounted)
  · refine hrolled.pendings.trans (List.filter_eq_nil_iff.mpr fun x _ => ?_)
    simp [RollbackOf.takes]
  · show entryOf mm' v c = _
    split
    · rename_i hany
      obtain ⟨x, hx, hxv⟩ := List.any_eq_true.mp hany
      simp only [Bool.and_eq_true, beq_iff_eq] at hxv
      obtain ⟨rfl, rfl⟩ := hxv
      exact hrolled.gone x hx rfl
    · rename_i hnone
      refine (hrolled.kept v c hlt fun x hx _ hxv => hnone (List.any_eq_true.mpr ⟨x, hx, ?_⟩)).trans rfl
      simp [hxv.1, hxv.2]
  · exact sweepVolumes_swept mm'

/-! ## The profile values (R1, R51, R64, R75, R88, R133, R157) -/

/-- The nearest value within a range. -/
theorem clampNat_spec {lo hi : Nat} (h : lo ≤ hi) (x : Nat) :
    (x < lo → clampNat lo hi x = lo) ∧ (hi < x → clampNat lo hi x = hi) ∧ (lo ≤ x → x ≤ hi → clampNat lo hi x = x) := by
  unfold clampNat
  refine ⟨fun hx => if_pos hx, fun hx => ?_, fun hlo hhi => ?_⟩
  · rw [if_neg (by omega), if_pos hx]
  · rw [if_neg (by omega), if_neg (by omega)]

theorem getD_map_range {f : Nat → Nat} {n b : Nat} (h : b < n) : ((List.range n).map f).getD b 0 = f b := by
  rw [List.getD_eq_getElem?_getD, List.getElem?_map, List.getElem?_range h]
  rfl

/-- PROFILE-CLAMPED is called for where a value that is read was changed. -/
theorem profileClamped_iff (p : Profile) :
    profileClamped p = true ↔ clampProfile p ≠ { p with grainCounts := (clampProfile p).grainCounts }
      ∨ ∃ b, b < (clampProfile p).bayCount ∧ (clampProfile p).grainCounts.getD b 0 ≠ p.grainCounts.getD b 0 := by
  let q := clampProfile p
  have hlen : q.grainCounts.length = q.bayCount := by simp [q, clampProfile]
  have hread : q.grainCounts = (List.range q.bayCount).map (fun b => p.grainCounts.getD b 0)
      ↔ ∀ b, b < q.bayCount → q.grainCounts.getD b 0 = p.grainCounts.getD b 0 := by
    refine ⟨fun h b hb => ?_, fun h => List.ext_getElem (by simp [hlen]) fun b hb hb' => ?_⟩
    · rw [h, getD_map_range hb]
    · have hcount := h b (by omega)
      rw [List.getD_eq_getElem?_getD, List.getElem?_eq_getElem hb] at hcount
      simpa using hcount
  have hsplit : q = { p with grainCounts := (List.range q.bayCount).map fun b => p.grainCounts.getD b 0 }
      ↔ q = { p with grainCounts := q.grainCounts } ∧ q.grainCounts = (List.range q.bayCount).map fun b => p.grainCounts.getD b 0 := by
    refine ⟨fun h => ?_, fun h => h.1.trans (by rw [← h.2])⟩
    have hcounts := congrArg Profile.grainCounts h
    exact ⟨h.trans (by rw [hcounts]), hcounts⟩
  unfold profileClamped
  rw [decide_eq_true_iff]
  show ¬ q = _ ↔ ¬ q = _ ∨ _
  rw [hsplit, hread, not_and_or]
  simp only [not_forall, exists_prop, ne_eq]
  rfl

/-- Settles O56: the stages over valid contents, and the clamping of the profile. -/
theorem startKeepsContents : Obligations.StartKeepsContents := by
  refine ⟨?_, ?_⟩
  · intro cmd cause pins r takes m s h hcmd hsum hformat hw p mm hgeo hheader hgood hserial hcount hcan hfits hlaw
    exact start_keeps_contents hcmd hsum hformat hw hgeo hheader hgood hserial hcount hcan hfits hlaw
  intro p q kept
  have hkept {lo hi : Nat} (h : lo ≤ hi) (x : Nat) : kept lo hi x (clampNat lo hi x) := clampNat_spec h x
  refine ⟨hkept (by decide) _, by simp [q, clampProfile], fun b hb => ?_, hkept (by decide) _, hkept (by decide) _, hkept (by decide) _,
    hkept (by decide) _, hkept (by decide) _, hkept (by decide) _, hkept (by decide) _, hkept (by decide) _, hkept (by decide) _,
    hkept (by decide) _, hkept (by decide) _, hkept (by decide) _, hkept (by decide) _, hkept (by decide) _, rfl, rfl, rfl, rfl,
    profileClamped_iff p⟩
  have hcount : q.grainCounts.getD b 0 = clampNat 1 1048576 (p.grainCounts.getD b 0) :=
    getD_map_range (f := fun b => clampNat 1 Config.maxGrains (p.grainCounts.getD b 0)) hb
  rw [hcount]
  exact hkept (by decide) _

end Sys2Proof.Machine

/-! The laws of the link, of the fault record and of the two machines, through each operation the blocks share (R89, R111, R113, R148 to R150,
R156, R169, R170). -/

namespace Sys2Proof.Machine

/-! ## The laws by the structures they speak of -/

/-- The bounds and the order of the outbound queue. -/
structure LinkLaw (l : Link) : Prop where
  places : l.occupied ≤ 32
  replies : l.replies ≤ 24
  order : l.queue.Pairwise fun a b => a.rank ≤ b.rank
  retries : ∀ h, l.hand = some h → h.retries ≤ 7

/-- The ask machine's timer and its count of failures. -/
structure AskLaw (a : AskMachine) : Prop where
  idle : a.state = .idle → a.timer = none
  backoff : a.state = .backoff → a.timer ≠ none
  failures : a.failures ≤ 255

/-- The offer machine's offer and timer. -/
structure OfferLaw (o : OfferMachine) : Prop where
  idle : o.state = .idle ↔ o.current = none
  idleTimer : o.state = .idle → o.timer = none
  armed : o.state = .armed → o.timer ≠ none
  queued : o.state = .queued → o.timer = none
  waiting : o.state = .waiting → o.timer ≠ none
  offered : ∀ x, o.current = some x → 1 ≤ x.n ∧ x.n ≤ 8 ∧ x.d ≤ 31

/-- No offer is ARMED while an ask is in flight. -/
def ApartLaw (s : State) : Prop := s.offer.state = .armed → askInFlight s = false

theorem queueLaw_iff (s : State) : QueueLaw s ↔ LinkLaw s.link ∧ s.buffer.length ≤ Config.bufferPlaces := by
  refine ⟨fun h => ⟨⟨h.places, h.replies, h.order, h.retries⟩, h.buffer⟩, fun ⟨h, hb⟩ => ?_⟩
  exact ⟨h.places, h.replies, h.order, h.retries, hb⟩

theorem machineLaw_iff (s : State) : MachineLaw s ↔ AskLaw s.ask ∧ OfferLaw s.offer ∧ ApartLaw s := by
  refine ⟨fun h => ⟨⟨h.askIdle, h.askBackoff, h.askFailures⟩, ?_, h.apart⟩, fun ⟨ha, ho, hapart⟩ => ?_⟩
  · exact ⟨h.offerIdle, h.offerIdleTimer, h.offerArmed, h.offerQueued, h.offerWaiting, h.offered⟩
  · exact ⟨ha.idle, ha.backoff, ha.failures, ho.idle, ho.idleTimer, ho.armed, ho.queued, ho.waiting, ho.offered, hapart⟩

/-! ## What a change keeps -/

/-- From `s` to `t` none of the laws is lost, but for what holds between the two machines. -/
structure Kept (s t : State) : Prop where
  silent : SilentLaw s → SilentLaw t
  attention : AttentionLaw s → AttentionLaw t
  counters : CounterLaw s → CounterLaw t
  link : LinkLaw s.link → LinkLaw t.link
  buffer : s.buffer.length ≤ Config.bufferPlaces → t.buffer.length ≤ Config.bufferPlaces
  ask : AskLaw s.ask → AskLaw t.ask
  offer : OfferLaw s.offer → OfferLaw t.offer

/-- From `s` to `t` none of the laws is lost. -/
structure Orderly (s t : State) : Prop extends Kept s t where
  apart : ApartLaw s → ApartLaw t

theorem Kept.trans {s t u : State} (h : Kept s t) (k : Kept t u) : Kept s u where
  silent x := k.silent (h.silent x)
  attention x := k.attention (h.attention x)
  counters x := k.counters (h.counters x)
  link x := k.link (h.link x)
  buffer x := k.buffer (h.buffer x)
  ask x := k.ask (h.ask x)
  offer x := k.offer (h.offer x)

theorem Orderly.trans {s t u : State} (h : Orderly s t) (k : Orderly t u) : Orderly s u where
  toKept := h.toKept.trans k.toKept
  apart x := k.apart (h.apart x)

/-- A change of fields that no law here reads. -/
structure Beside (s t : State) : Prop where
  cond : t.cond = s.cond := by rfl
  attention : t.attention = s.attention := by rfl
  faults : t.faults = s.faults := by rfl
  link : t.link = s.link := by rfl
  buffer : t.buffer = s.buffer := by rfl
  ask : t.ask = s.ask := by rfl
  offer : t.offer = s.offer := by rfl

section kinds
variable {s t : State}

theorem SilentLaw.of_same (h : SilentLaw s) (hc : t.cond = s.cond) (hl : t.link.hand = s.link.hand) : SilentLaw t :=
  fun hsilent x hx => h (hc ▸ hsilent) x (hl ▸ hx)

theorem ApartLaw.of_same (h : ApartLaw s) (ha : t.ask = s.ask) (ho : t.offer = s.offer) : ApartLaw t := fun harmed => by
  unfold askInFlight
  rw [ha]
  exact h (ho ▸ harmed)

theorem Beside.orderly (h : Beside s t) : Orderly s t where
  silent hs := hs.of_same h.cond (congrArg Link.hand h.link)
  attention ha := h.attention.trans (ha.trans (by rw [h.cond, h.faults]))
  counters hc := by unfold CounterLaw; rw [h.faults]; exact hc
  link hl := h.link ▸ hl
  buffer hb := h.buffer ▸ hb
  ask ha := h.ask ▸ ha
  offer ho := h.offer ▸ ho
  apart ha := ha.of_same h.ask h.offer

theorem Orderly.refl (s : State) : Orderly s s := Beside.orderly {}

/-- A change of the link that begins no attempt. -/
theorem orderly_link {l : Link} (hlaw : LinkLaw s.link → LinkLaw l)
    (hhand : ∀ h, l.hand = some h → h.driving = none ∨ s.link.hand = some h) : Orderly s { s with link := l } where
  silent hs hc x hx := (hhand x hx).elim id (hs hc x)
  attention ha := ha
  counters hc := hc
  link := hlaw
  buffer hb := hb
  ask ha := ha
  offer ho := ho
  apart ha := ha

/-- A change of the ask machine that does not begin an ask. -/
theorem orderly_ask {a : AskMachine} (hlaw : AskLaw s.ask → AskLaw a)
    (hflight : askInFlight { s with ask := a } = true → askInFlight s = true) : Orderly s { s with ask := a } where
  silent hs := hs
  attention ha := ha
  counters hc := hc
  link hl := hl
  buffer hb := hb
  ask := hlaw
  offer ho := ho
  apart ha harmed := by
    have hnot := ha harmed
    cases h : askInFlight { s with ask := a } with
    | false => rfl
    | true => exact absurd (hflight h) (by rw [hnot]; exact nofun)

/-- A change of the ask machine alone, whatever the offer. -/
theorem kept_ask {a : AskMachine} (hlaw : AskLaw s.ask → AskLaw a) : Kept s { s with ask := a } where
  silent hs := hs
  attention ha := ha
  counters hc := hc
  link hl := hl
  buffer hb := hb
  ask := hlaw
  offer ho := ho

/-- A change of the offer machine. -/
theorem orderly_offer {o : OfferMachine} (hlaw : OfferLaw s.offer → OfferLaw o)
    (hapart : o.state = .armed → s.offer.state = .armed ∨ askInFlight s = false) : Orderly s { s with offer := o } where
  silent hs := hs
  attention ha := ha
  counters hc := hc
  link hl := hl
  buffer hb := hb
  ask ha := ha
  offer := hlaw
  apart ha harmed := (hapart harmed).elim ha id

/-- A change of the fault record: its counters stay in their range, and ATTENTION is judged. -/
theorem orderly_faults {r : FaultRecord} (hcounts : CounterLaw s → CounterLaw { s with faults := r }) :
    Orderly s (judgeAttention { s with faults := r }) where
  silent hs := hs
  attention _ := rfl
  counters := hcounts
  link hl := hl
  buffer hb := hb
  ask ha := ha
  offer ho := ho
  apart ha := ha

/-- A change of the buffer. -/
theorem orderly_buffer {b : List RawFrame} (h : s.buffer.length ≤ Config.bufferPlaces → b.length ≤ Config.bufferPlaces) : Orderly s { s with buffer := b } where
  silent hs := hs
  attention ha := ha
  counters hc := hc
  link hl := hl
  buffer := h
  ask ha := ha
  offer ho := ho
  apart ha := ha

/-- A change of condition: out of START at a judgement of ATTENTION alone, and into a silent one from a silent one alone. -/
theorem orderly_cond {c : Condition} (hstart : s.cond ≠ .start) (hc : c ≠ .start) (hsilent : isSilent c → isSilent s.cond) :
    Orderly s { s with cond := c } where
  silent hs hnow := hs (hsilent hnow)
  attention ha := by
    refine (ha : s.attention = _).trans ?_
    simp [attentionOf, hstart, hc]
  counters hc := hc
  link hl := hl
  buffer hb := hb
  ask ha := ha
  offer ho := ho
  apart ha := ha

end kinds

/-! ## The laws of the machines, by cases -/

theorem AskLaw.stopped {a : AskMachine} (h : AskLaw a) : AskLaw a.stopped := ⟨fun _ => rfl, nofun, h.failures⟩

/-- An ask in flight answers for its failures alone. -/
theorem AskLaw.of_flight {a b : AskMachine} (h : AskLaw a) (hi : b.state ≠ .idle) (hb : b.state ≠ .backoff) (hf : b.failures = a.failures) :
    AskLaw b := ⟨fun hs => absurd hs hi, fun hs => absurd hs hb, hf ▸ h.failures⟩

theorem offerLaw_reset : OfferLaw OfferMachine.reset := ⟨⟨fun _ => rfl, fun _ => rfl⟩, fun _ => rfl, nofun, nofun, nofun, nofun⟩

/-! ## The link -/

/-- A queue with frames gone, the hand as it was or empty, and no more places reserved. -/
theorem LinkLaw.of_less {l l' : Link} (h : LinkLaw l) (hq : l'.queue.Sublist l.queue) (hh : l'.hand = l.hand ∨ l'.hand = none)
    (hr : l'.reservedReplies ≤ l.reservedReplies) (ho : l'.reservedOthers ≤ l.reservedOthers) : LinkLaw l' := by
  have hhand (p : OutFrame → Bool) : (if l'.hand.any fun x => p x.frame then 1 else 0) ≤ if l.hand.any fun x => p x.frame then 1 else 0 := by
    obtain heq | hnone := hh
    · rw [heq]
    · rw [hnone]
      exact Nat.zero_le _
  have hsome : (if l'.hand.isSome then 1 else 0) ≤ if l.hand.isSome then 1 else 0 := by
    obtain heq | hnone := hh
    · rw [heq]
    · rw [hnone]
      exact Nat.zero_le _
  have hlength := hq.length_le
  have hcount := hq.countP_le (p := OutFrame.isReplyOrAlert)
  have hreply := hhand OutFrame.isReplyOrAlert
  obtain ⟨hplaces, hreplies, horder, hretries⟩ := h
  unfold Link.occupied at hplaces
  unfold Link.replies at hreplies
  refine ⟨?_, ?_, horder.sublist hq, fun x hx => ?_⟩
  · unfold Link.occupied
    omega
  · unfold Link.replies
    omega
  · obtain heq | hnone := hh
    · exact hretries x (heq ▸ hx)
    · exact nomatch hnone ▸ hx

theorem pairwise_insertFrame {q : List OutFrame} (f : OutFrame) (h : q.Pairwise fun a b => a.rank ≤ b.rank) :
    (insertFrame q f).Pairwise fun a b => a.rank ≤ b.rank := by
  induction q with
  | nil => exact List.pairwise_singleton _ _
  | cons x q ih =>
    obtain ⟨hx, hq⟩ := List.pairwise_cons.mp h
    unfold insertFrame
    split
    · rename_i hlt
      refine List.pairwise_cons.mpr ⟨fun y hy => ?_, h⟩
      obtain rfl | hy := List.mem_cons.mp hy
      · exact hlt.le
      · exact hlt.le.trans (hx y hy)
    · rename_i hge
      refine List.pairwise_cons.mpr ⟨fun y hy => ?_, ih hq⟩
      obtain rfl | hy := mem_insertFrame.mp hy
      · exact Nat.le_of_not_lt hge
      · exact hx y hy

/-- A frame joins where there is a place for it. -/
theorem orderly_pushFrame {f : OutFrame} {s : State} (hplace : hasPlace s = true) (hreply : f.isReplyOrAlert = true → hasReplyPlace s = true) :
    Orderly s (pushFrame f s) := by
  refine orderly_link (fun h => ⟨?_, ?_, pairwise_insertFrame f h.order, h.retries⟩) fun x hx => .inr hx
  · exact (pushFrame_occupied f s).trans_le ((hasPlace_iff s).mp hplace)
  · refine (pushFrame_replies f s).trans_le ?_
    split
    · rename_i hf
      exact ((hasReplyPlace_iff s).mp (hreply hf)).2
    · exact h.replies

theorem orderly_offered {f : OutFrame} {s t : State} (h : offerFrame f s = some t) : Orderly s t := by
  obtain ⟨-, hplace, hreply, rfl⟩ := offerFrame_some h
  exact orderly_pushFrame hplace hreply

theorem orderly_offerFrame (f : OutFrame) {s u d : State} (h : Orderly u s) (hd : Orderly u d) : Orderly u ((offerFrame f s).getD d) := by
  cases hf : offerFrame f s with
  | none => exact hd
  | some t => exact h.trans (orderly_offered hf)

theorem kept_offerFrame (f : OutFrame) {s u d : State} (h : Kept u s) (hd : Kept u d) : Kept u ((offerFrame f s).getD d) := by
  cases hf : offerFrame f s with
  | none => exact hd
  | some t => exact h.trans (orderly_offered hf).toKept

theorem orderly_answer (a : Station) (r : Reply) (s : State) : Orderly s (answer a r s) := orderly_offerFrame _ (.refl s) (.refl s)

theorem orderly_queueHail (s : State) : Orderly s (queueHail s) := orderly_offerFrame _ (.refl s) (.refl s)

theorem orderly_releaseReply (s : State) : Orderly s (releaseReply s) :=
  orderly_link (fun h => h.of_less (.refl _) (.inl rfl) (Nat.sub_le _ _) (Nat.le_refl _)) fun _ hx => .inr hx

theorem orderly_releaseOther (s : State) : Orderly s (releaseOther s) :=
  orderly_link (fun h => h.of_less (.refl _) (.inl rfl) (Nat.le_refl _) (Nat.sub_le _ _)) fun _ hx => .inr hx

theorem orderly_fillReply (a : Station) (r : Reply) (s : State) : Orderly s (fillReply a r s) :=
  (orderly_releaseReply s).trans (orderly_answer a r _)

theorem orderly_reserveReply {s : State} (hroom : hasReplyPlace s = true) : Orderly s (reserveReply s) := by
  obtain ⟨hplace, hreply⟩ := (hasReplyPlace_iff s).mp hroom
  unfold Link.occupied at hplace
  unfold Link.replies at hreply
  refine orderly_link (fun h => ⟨?_, ?_, h.order, h.retries⟩) fun _ hx => .inr hx
  · unfold Link.occupied
    dsimp only
    omega
  · unfold Link.replies
    dsimp only
    omega

theorem orderly_reserveOther {s : State} (hroom : hasPlace s = true) : Orderly s (reserveOther s) := by
  have hplace := (hasPlace_iff s).mp hroom
  unfold Link.occupied at hplace
  refine orderly_link (fun h => ⟨?_, h.replies, h.order, h.retries⟩) fun _ hx => .inr hx
  unfold Link.occupied
  dsimp only
  omega

theorem filter_or_none {α : Type} (o : Option α) (p : α → Bool) : o.filter p = o ∨ o.filter p = none := by
  cases o with
  | none => exact .inr rfl
  | some x => cases hp : p x <;> simp [Option.filter, hp]

/-- Frames taken out of the queue and out of hand. -/
theorem orderly_filtered (p : OutFrame → Bool) (q : Hand → Bool) (s : State) :
    Orderly s { s with link := { s.link with queue := s.link.queue.filter p, hand := s.link.hand.filter q } } := by
  refine orderly_link (fun h => h.of_less List.filter_sublist (filter_or_none _ _) (Nat.le_refl _) (Nat.le_refl _)) fun x hx => .inr ?_
  exact (Option.filter_eq_some_iff.mp hx).1

theorem orderly_withdraw (test : FrameBody → Bool) (s : State) : Orderly s (withdraw test s) := orderly_filtered _ _ s

theorem orderly_clearHand (s : State) : Orderly s (clearHand s) :=
  orderly_link (fun h => h.of_less (.refl _) (.inr rfl) (Nat.le_refl _) (Nat.le_refl _)) nofun

/-- The frame in hand as it is, but for its attempts. -/
theorem LinkLaw.of_hand {l : Link} {h h' : Hand} (hl : LinkLaw l) (hh : l.hand = some h) (hf : h'.frame = h.frame) (hr : h'.retries ≤ 7) :
    LinkLaw { l with hand := some h' } := by
  obtain ⟨hplaces, hreplies, horder, -⟩ := hl
  unfold Link.occupied at hplaces
  unfold Link.replies at hreplies
  rw [hh] at hplaces hreplies
  refine ⟨hplaces, ?_, horder, fun x hx => ?_⟩
  · unfold Link.replies
    simp only [Option.any_some, hf] at hreplies ⊢
    exact hreplies
  · cases hx
    exact hr

/-- The frame in hand between two attempts. -/
theorem orderly_hand {s : State} {h h' : Hand} (hh : s.link.hand = some h) (hf : h'.frame = h.frame)
    (hr : h.retries ≤ 7 → h'.retries ≤ 7) (hd : h'.driving = none) : Orderly s { s with link := { s.link with hand := some h' } } := by
  refine orderly_link (fun hl => hl.of_hand hh hf (hr (hl.retries h hh))) fun x hx => .inl ?_
  cases hx
  exact hd

/-! ## Reports and counters -/

theorem saturate_le {n : Nat} (h : n ≤ 65535) : saturate n ≤ 65535 := by
  unfold saturate
  split
  · rename_i hlt
    exact hlt
  · exact h

theorem orderly_report (f : Flag) (s : State) : Orderly s (report f s) := by
  have hset : Orderly s (judgeAttention { s with faults := s.faults.set f }) := orderly_faults id
  unfold report
  dsimp only
  split
  · cases hframe : offerFrame { dest := broadcast, body := .alert f s.cond.code } { s with faults := s.faults.set f } with
    | none => exact hset
    | some t =>
      obtain ⟨-, hplace, hreply, rfl⟩ := offerFrame_some hframe
      have hpush : Orderly s (pushFrame { dest := broadcast, body := .alert f s.cond.code } s) := orderly_pushFrame hplace hreply
      exact hpush.trans (orderly_faults (r := s.faults.set f) id)
  · exact hset

theorem orderly_countUp (c : Counter) (s : State) : Orderly s (countUp c s) where
  silent hs := hs
  attention ha := ha
  counters h := by
    obtain ⟨hf, hg, ha, hn⟩ := h
    cases c with
    | framesDropped => exact ⟨saturate_le hf, hg, ha, hn⟩
    | staleGivebacks => exact ⟨hf, saturate_le hg, ha, hn⟩
    | askFailures => exact ⟨hf, hg, saturate_le ha, hn⟩
    | noSpaceAnswers => exact ⟨hf, hg, ha, saturate_le hn⟩
  link hl := hl
  buffer hb := hb
  ask ha := ha
  offer ho := ho
  apart ha := ha

theorem orderly_sendGiveback (a : Station) (r : GivebackReason) (ls : List Nat) (s : State) : Orderly s (sendGiveback a r ls s) :=
  orderly_offerFrame _ (.refl s) (orderly_report _ s)

/-! ## The offer machine's ends -/

theorem orderly_endOffer (s : State) : Orderly s (endOffer s) := orderly_offer (fun _ => offerLaw_reset) nofun

/-- A mark on the open offer that leaves its state and its timer. -/
theorem orderly_endsAtReport (b : Bool) (s : State) : Orderly s { s with offer := { s.offer with endsAtReport := b } } :=
  orderly_offer (fun h => ⟨h.idle, h.idleTimer, h.armed, h.queued, h.waiting, h.offered⟩) .inl

theorem orderly_withdrawOffer (b : Bool) (s : State) : Orderly s (withdrawOffer b s) := by
  unfold withdrawOffer
  split
  · exact orderly_endsAtReport _ s
  · split
    · exact (orderly_withdraw _ s).trans (orderly_endOffer _)
    · exact orderly_endOffer s

theorem orderly_yieldOffer (s : State) : Orderly s (yieldOffer s) := by
  unfold yieldOffer
  split
  · exact orderly_endOffer s
  · exact orderly_withdrawOffer false s
  · exact .refl s

theorem orderly_stopOffer (s : State) : Orderly s (stopOffer s) := by
  unfold stopOffer
  split
  · exact .refl s
  · exact orderly_withdrawOffer true s
  · exact orderly_endOffer s

theorem withdrawOffer_not_armed (b : Bool) {s : State} (h : s.offer.state ≠ .armed) : (withdrawOffer b s).offer.state ≠ .armed := by
  unfold withdrawOffer
  split
  · exact h
  · split
    · exact nofun
    · exact nofun

/-- An offer that has yielded is not ARMED (R117). -/
theorem yieldOffer_not_armed (s : State) : (yieldOffer s).offer.state ≠ .armed := by
  unfold yieldOffer
  split
  · exact nofun
  · rename_i hqueued
    exact withdrawOffer_not_armed false (by rw [hqueued]; exact nofun)
  · rename_i harmed _
    exact harmed

/-! ## The ask machine -/

/-- An ask that has failed backs off, and is not in flight. -/
theorem orderly_failAsk (s : State) : Orderly s (failAsk s) := by
  unfold failAsk
  dsimp only
  refine Orderly.trans (orderly_ask ?_ ?_) (orderly_countUp .askFailures _)
  · refine fun h => ⟨nofun, nofun, ?_⟩
    dsimp only
    split
    · rename_i hlt
      exact hlt
    · exact h.failures
  · exact fun h => nomatch h

theorem orderly_startAsk (s : State) : Orderly s (startAsk s) := by
  unfold startAsk
  dsimp only
  split
  · exact .refl s
  · obtain ⟨a, hcall⟩ : ∃ a : AskMachine, a = { s.ask with
        state := .calling, askId := s.ask.askId + 1, wanted := ownWanted s.profile.maxLoan s.profile.spareTarget s.mm.spares.length
        timer := none, lender := none, offerCount := 0 } := ⟨_, rfl⟩
    rw [← hcall]
    have hcalling : Kept s { s with ask := a } := kept_ask fun h => by
      rw [hcall]
      exact h.of_flight nofun nofun rfl
    refine ⟨Kept.trans ?_ (orderly_yieldOffer _).toKept, fun _ harmed => absurd harmed (yieldOffer_not_armed _)⟩
    have hfail := hcalling.trans (orderly_failAsk { s with ask := a }).toKept
    split
    · exact hfail
    · exact kept_offerFrame _ hcalling hfail

theorem orderly_judgeAsk (s : State) : Orderly s (judgeAsk s) := by
  unfold judgeAsk
  split
  · exact orderly_startAsk s
  · exact .refl s

theorem orderly_stopAsk (s : State) : Orderly s { s with ask := s.ask.stopped } := orderly_ask AskLaw.stopped nofun

/-! ## Owners of frames -/

theorem orderly_toldDropped (b : FrameBody) (s : State) : Orderly s (toldDropped b s) := by
  cases b with
  | ask i w =>
    dsimp only [toldDropped]
    split
    · exact orderly_failAsk s
    · exact .refl s
  | take i n =>
    dsimp only [toldDropped]
    split
    · exact orderly_failAsk s
    · exact .refl s
  | offer i a n d =>
    dsimp only [toldDropped]
    split
    · exact orderly_endOffer s
    · exact .refl s
  | grant i rs => exact orderly_report _ s
  | giveback r ls => exact orderly_report _ s
  | reply r => exact .refl s
  | hail h => exact .refl s
  | alert f c => exact .refl s

theorem orderly_toldRemoved (fs : List OutFrame) (s : State) : Orderly s (toldRemoved fs s) := by
  unfold toldRemoved
  induction fs generalizing s with
  | nil => exact .refl s
  | cons f fs ih => exact (orderly_toldDropped f.body s).trans (ih _)

/-! ## Conditions -/

/-- QUIET and MUTE: whatever stood on the link and in the machines is gone. -/
theorem orderly_enterSilence {c : Condition} (hc : c ≠ .start) {s : State} (hs : s.cond ≠ .start) : Orderly s (enterSilence c s) := by
  refine Orderly.trans ?_ (orderly_toldRemoved _ _)
  refine ⟨⟨fun _ _ => nofun, fun ha => (ha : s.attention = _).trans ?_, id, fun hl => ?_, fun _ => Nat.zero_le _, AskLaw.stopped,
    fun _ => offerLaw_reset⟩, fun _ => nofun⟩
  · simp [attentionOf, hc, hs]
  · exact hl.of_less (List.nil_sublist _) (.inr rfl) (Nat.le_refl _) (Nat.le_refl _)

theorem orderly_enterQuiet {s : State} (hs : s.cond ≠ .start) : Orderly s (enterQuiet s) :=
  (orderly_enterSilence (c := .quiet) nofun hs).trans (Beside.orderly {})

theorem orderly_duplicateHeard {s : State} (hs : s.cond ≠ .start) : Orderly s (duplicateHeard s) := by
  have hreport := orderly_report .duplicate s
  unfold duplicateHeard
  dsimp only
  split
  · exact hreport
  · exact hreport.trans (orderly_enterSilence (c := .mute) nofun (by simpa using hs))

theorem orderly_enterHalted {s : State} (hs : s.cond ≠ .start) : Orderly s (enterHalted s) := by
  have hcond : Orderly s { s with cond := .halted } := orderly_cond hs nofun (by rintro (h | h | h | h) <;> cases h)
  have hstopped := hcond.trans (orderly_stopAsk { s with cond := .halted })
  have htimers : Orderly s { s with cond := .halted, drainTimer := none, drainEnded := false, walkerTimer := none, ask := s.ask.stopped } :=
    hstopped.trans (Beside.orderly {})
  exact ((htimers.trans (orderly_stopOffer _)).trans (orderly_filtered _ _ _)).trans (orderly_toldRemoved _ _)

theorem orderly_mapMemError (s : State) : Orderly s (mapMemError s) := by
  have hreport := orderly_report .mapMem s
  unfold mapMemError
  dsimp only
  have halted (hs : (report .mapMem s).cond ≠ .start) : Orderly s (enterHalted (report .mapMem s)) := hreport.trans (orderly_enterHalted hs)
  cases hc : (report .mapMem s).cond <;> dsimp only
  case start => exact hreport.trans (Beside.orderly { cond := hc.symm })
  case join => exact hreport.trans (Beside.orderly { cond := hc.symm })
  case ready => exact halted (by rw [hc]; exact nofun)
  case drain => exact halted (by rw [hc]; exact nofun)
  case quiet => exact ((halted (by rw [hc]; exact nofun)).trans (Beside.orderly {})).trans (orderly_queueHail _)
  case halted => exact hreport
  case mute => exact hreport

theorem orderly_endDrain {s : State} (hs : s.cond ≠ .start) : Orderly s (endDrain s) := by
  have hended : Orderly s { s with drainEnded := true, drainTimer := none, walkerTimer := none } := Beside.orderly {}
  unfold endDrain
  dsimp only
  split
  · rename_i t ht
    exact hended.trans (orderly_offered ht)
  · exact hended.trans (orderly_enterQuiet hs)

theorem orderly_judgeQuiet (s : State) : Orderly s (judgeQuiet s) := by
  unfold judgeQuiet
  split
  · rename_i h
    exact orderly_endDrain (by rw [h.1]; exact nofun)
  · exact .refl s

theorem orderly_enterDrain {s : State} (hs : s.cond ≠ .start) : Orderly s (enterDrain s) := by
  have hcond : Orderly s { s with cond := .drain } := orderly_cond hs nofun (by rintro (h | h | h | h) <;> cases h)
  have htimers : Orderly s
      { s with cond := .drain, drainEnded := false, drainTimer := some (s.now + s.profile.drainLimit * Config.second) } :=
    hcond.trans (Beside.orderly {})
  exact (htimers.trans (orderly_yieldOffer _)).trans (orderly_judgeQuiet _)

theorem orderly_judgeService {s : State} (hs : s.cond ≠ .start) : Orderly s (judgeService s) := by
  unfold judgeService
  split
  · exact orderly_enterDrain hs
  · exact .refl s

/-! ## Starts -/

/-- START is over: JOIN is as silent as START, and ATTENTION is judged. -/
theorem orderly_enterJoin (o : StartOutcome) {s : State} (hs : s.cond = .start) : Orderly s (enterJoin o s) where
  silent h _ := h (.inl hs)
  attention _ := rfl
  counters h := h
  link h := h
  buffer h := h
  ask h := h
  offer h := h
  apart h := h

theorem orderly_failStart {s : State} (hs : s.cond = .start) : Orderly s (failStart s) := by
  have hnone : Orderly s { s with tasks := [] } := Beside.orderly {}
  exact (hnone.trans (orderly_report .mapMem _)).trans (orderly_enterJoin .halted (by simpa using hs))

theorem orderly_endStart {s : State} (hs : s.cond = .start) : Orderly s (endStart s) := by
  have hup : Orderly s { s with loanUp := true } := Beside.orderly {}
  exact hup.trans (orderly_enterJoin .ready hs)

theorem orderly_checkHeader {s : State} (hs : s.cond = .start) : Orderly s (checkHeader s) := by
  unfold checkHeader
  split
  · exact Beside.orderly {}
  · exact (orderly_report .mapMem s).trans (orderly_enterJoin .halted (by simpa using hs))

theorem orderly_reportClamped (b : Bool) (s : State) : Orderly s (reportClamped b s) := by
  unfold reportClamped
  split
  · exact orderly_report _ s
  · exact .refl s

@[simp] theorem reportClamped_cond (b : Bool) (s : State) : (reportClamped b s).cond = s.cond := by
  unfold reportClamped
  split
  · exact report_cond _ s
  · rfl

/-- A state that holds the laws keeps them, wherever it comes from. -/
theorem orderly_of_holds {s t : State} (hsilent : SilentLaw t) (hatt : AttentionLaw t) (hcount : CounterLaw s → CounterLaw t)
    (hlink : t.link = Link.reset) (hbuffer : t.buffer = []) (hask : t.ask = AskMachine.reset) (hoffer : t.offer = OfferMachine.reset) :
    Orderly s t where
  silent _ := hsilent
  attention _ := hatt
  counters := hcount
  link _ := hlink ▸ ⟨Nat.zero_le _, Nat.zero_le _, List.Pairwise.nil, nofun⟩
  buffer _ := hbuffer ▸ Nat.zero_le _
  ask _ := hask ▸ ⟨fun _ => rfl, nofun, Nat.zero_le _⟩
  offer _ := hoffer ▸ offerLaw_reset
  apart _ harmed := by
    rw [hoffer] at harmed
    cases harmed

theorem counterLaw_reset {s : State} (h : s.faults.counts = Counts.zero) : CounterLaw s := by
  unfold CounterLaw
  rw [h]
  exact ⟨Nat.zero_le _, Nat.zero_le _, Nat.zero_le _, Nat.zero_le _⟩

theorem orderly_resumeStart (s : State) : Orderly s (resumeStart s) := by
  unfold resumeStart
  refine Orderly.trans ?_ (orderly_checkHeader ?_)
  · exact orderly_of_holds (fun _ => nofun) rfl id rfl rfl rfl rfl
  · rfl

theorem orderly_fullStart (cause : RestartCause) (pins : StartPins) (rom : Option ProfileRom) (s : State) :
    Orderly s (fullStart cause pins rom s) := by
  have hblank : Orderly s (blankStart cause pins s) :=
    orderly_of_holds (fun _ => nofun) rfl (fun _ => counterLaw_reset rfl) rfl rfl rfl rfl
  unfold fullStart
  dsimp only
  split
  · exact ((hblank.trans (orderly_reportClamped _ _)).trans (orderly_report _ _)).trans (orderly_enterJoin .halted (by simp; rfl))
  · rename_i r _
    have hprofile : Orderly s { blankStart cause pins s with
        profile := clampProfile r.values, profileRead := true
        faults := { (blankStart cause pins s).faults with enables := (clampProfile r.values).alertEnables } } :=
      orderly_of_holds (fun _ => nofun) rfl (fun _ => counterLaw_reset rfl) rfl rfl rfl rfl
    have hread := hprofile.trans (orderly_reportClamped (decide (pins.strap = 15) || profileClamped r.values) _)
    split
    · exact hread.trans (Beside.orderly {})
    · exact hread.trans (orderly_checkHeader (by simp; rfl))

end Sys2Proof.Machine

/-! The laws of the link, of the fault record, of the two machines and of the roster, through every event and every command (O4, O5). -/

namespace Sys2Proof.Machine

/-! ## The loan unit -/

/-- The offer of an ASK lies in its ranges (R81, R82). -/
theorem orderly_judgeOffer (a : Station) (i : AskId) (w : Nat) (s : State) : Orderly s (judgeOffer a i w s) := by
  unfold judgeOffer
  dsimp only
  split
  · rename_i h
    obtain ⟨-, hflight, -, -, hn⟩ := h
    have hcount : offerCount s.figures w ≤ 8 := by
      unfold offerCount
      split
      · exact Nat.zero_le _
      · rw [clampWanted_eq]
        split_ifs <;> omega
    have hdelay : offerDelay s.figures ≤ 31 := by
      unfold offerDelay
      omega
    refine orderly_offer (fun _ => ⟨⟨nofun, nofun⟩, nofun, fun _ => nofun, nofun, nofun, fun x hx => ?_⟩) fun _ => .inr hflight
    cases hx
    exact ⟨hn, hcount, hdelay⟩
  · exact .refl s

theorem orderly_hearAsk (a : Station) (i : AskId) (w : Nat) (s : State) : Orderly s (hearAsk a i w s) := by
  unfold hearAsk
  split
  · exact orderly_judgeOffer a i w s
  · split
    · exact .refl s
    · have hended : Orderly s (if s.offer.state = .queued then withdrawOffer true s else endOffer s) := by
        split
        · exact orderly_withdrawOffer true s
        · exact orderly_endOffer s
      dsimp only
      generalize (if s.offer.state = .queued then withdrawOffer true s else endOffer s) = ended at hended ⊢
      split
      · exact hended.trans (orderly_judgeOffer a i w _)
      · exact hended

theorem orderly_takeOffer (a : Station) (n : Nat) {s : State} (hflight : askInFlight s = true) : Orderly s (takeOffer a n s) := by
  unfold takeOffer
  dsimp only
  have htaking : Orderly s { s with
      ask := { s.ask with state := .taking, lender := some a, offerCount := min n Config.frameLoans, timer := none } } :=
    orderly_ask (fun h => h.of_flight nofun nofun rfl) fun _ => hflight
  exact orderly_offerFrame _ htaking (htaking.trans (orderly_failAsk _))

theorem orderly_rivalOffer (a : Station) (i : AskId) (b : Station) (s : State) : Orderly s (rivalOffer a i b s) := by
  unfold rivalOffer
  split
  · split
    · exact orderly_endOffer s
    · exact orderly_withdrawOffer false s
    · exact .refl s
  · exact .refl s

theorem orderly_hearOffer (a : Station) (i : AskId) (b : Station) (n : Nat) (s : State) : Orderly s (hearOffer a i b n s) := by
  unfold hearOffer
  split
  · rename_i h
    have hcalling : s.ask.state = .calling := by
      unfold offerMatches at h
      simp only [Bool.and_eq_true, decide_eq_true_eq] at h
      exact h.1.1.1.1.1
    exact (orderly_takeOffer a n (by simp [askInFlight, hcalling])).trans (orderly_rivalOffer a i b _)
  · exact orderly_rivalOffer a i b s

theorem orderly_hearTakeElsewhere (a : Station) (i : AskId) (s : State) : Orderly s (hearTakeElsewhere a i s) := by
  unfold hearTakeElsewhere
  split
  · exact orderly_endOffer s
  · exact .refl s

theorem orderly_endOfferOf (a : Station) (i : AskId) (s : State) : Orderly s (endOfferOf a i s) := by
  unfold endOfferOf
  split
  · exact orderly_endOffer s
  · exact .refl s

theorem orderly_setLastGrant (a : Station) (i : AskId) (rs : List GrantRecord) (s : State) : Orderly s (setLastGrant a i rs s) :=
  Beside.orderly {}

theorem orderly_sendGranted (a : Station) (i : AskId) (rs : List GrantRecord) (s : State) : Orderly s (sendGranted a i rs s) := by
  have hrelease := orderly_releaseOther s
  exact ((orderly_offerFrame _ hrelease (hrelease.trans (orderly_report _ _))).trans (orderly_setLastGrant a i rs _)).trans
    (orderly_endOfferOf a i _)

theorem orderly_askSucceeded (a : Station) (i : AskId) (s : State) : Orderly s (askSucceeded a i s) :=
  orderly_ask (fun _ => ⟨fun _ => rfl, nofun, Nat.zero_le _⟩) fun h => nomatch h

theorem orderly_reportStale (n : Nat) (s : State) : Orderly s (reportStale n s) := by
  induction n generalizing s with
  | zero => exact .refl s
  | succ n ih => exact ((orderly_report .staleGiveback s).trans (orderly_countUp _ _)).trans (ih _)

theorem orderly_reportDataLost (a : Station) (e : Epoch) (s : State) : Orderly s (reportDataLost a e s) := by
  unfold reportDataLost
  dsimp only
  split
  · exact orderly_report _ s
  · exact .refl s

theorem orderly_failAskOf (a : Station) (s : State) : Orderly s (failAskOf a s) := by
  unfold failAskOf
  split
  · exact orderly_failAsk s
  · exact .refl s

theorem orderly_stopOfferTo (a : Station) (s : State) : Orderly s (stopOfferTo a s) := by
  unfold stopOfferTo
  split
  · exact orderly_stopOffer s
  · exact .refl s

/-! ## Events -/

theorem orderly_reserveHandback {h : Option Handback} {s : State} (hroom : ¬ (h.isSome && !hasPlace s) = true) :
    Orderly s (reserveHandback h s) := by
  unfold reserveHandback
  split
  · rename_i hsome
    exact orderly_reserveOther (by simpa [hsome] using hroom)
  · exact .refl s

theorem orderly_allocate (a : Station) (v c tag : Nat) (old : Option Removal) (s : State) : Orderly s (allocate a v c tag old s).1 := by
  unfold allocate
  dsimp only
  split
  · exact Beside.orderly {}
  · split
    · exact Beside.orderly {}
    · rename_i hroom
      split
      · exact Beside.orderly {}
      · exact orderly_reserveHandback hroom

theorem orderly_takeVolume (a : Station) (v tag : Nat) (d : VolumeDecision) (s : State) : Orderly s (takeVolume a v tag d s).1 := by
  unfold takeVolume
  split
  · exact Beside.orderly {}
  · exact .refl s

theorem orderly_takeTake (a : Station) (i : AskId) (n : Nat) (s : State) : Orderly s (takeTake a i n s).1 := by
  simp only [takeTake, noWrite]
  split
  · split
    · split
      · rename_i hplace
        split
        · exact orderly_reserveOther hplace
        · exact ((orderly_pushFrame (f := { dest := a, body := .grant i [] }) hplace nofun).trans (orderly_setLastGrant a i [] _)).trans (orderly_endOffer _)
      · exact orderly_endOffer s
    · split
      · split
        · exact orderly_offerFrame _ (.refl s) (.refl s)
        · exact .refl s
      · exact .refl s
  · exact .refl s

theorem orderly_takeGrant (a : Station) (i : AskId) (rs : List GrantRecord) (s : State) : Orderly s (takeGrant a i rs s).1 := by
  have hstale : Orderly s (takeStaleGrant a i rs s).1 := by
    unfold takeStaleGrant
    split
    · exact .refl s
    · exact Beside.orderly {}
  simp only [takeGrant, noWrite]
  split
  · split
    · split
      · rename_i htaking
        split
        · exact (orderly_failAsk s).trans (Beside.orderly {})
        · have hwait : Orderly s { s with ask := { s.ask with timer := none } } :=
            orderly_ask (fun h => h.of_flight (by rw [htaking.1]; exact nofun) (by rw [htaking.1]; exact nofun) rfl) id
          exact hwait.trans (orderly_reportDataLost _ _ _)
      · exact hstale
    · exact hstale
  · exact .refl s

theorem orderly_takeWalk (n : Nat) (s : State) : Orderly s (takeWalk n s).1 := by
  unfold takeWalk
  split
  · exact .refl s
  · split
    · split
      · exact .refl s
      · split
        · dsimp only
          split
          · exact .refl s
          · rename_i hroom
            exact orderly_reserveHandback hroom
        · split
          · rename_i hroom
            exact orderly_reserveReply hroom
          · exact .refl s
    · exact .refl s

theorem orderly_takeBorrowerEvent (ev : RosterEvent) (a : Station) (s : State) : Orderly s (takeBorrowerEvent ev a s).1 := by
  have hended (ts : List Task) : Orderly s { (if ev = .peerNewEpoch then failAskOf a s else s) with tasks := ts } := by
    split
    · exact (orderly_failAskOf a s).trans (Beside.orderly {})
    · exact Beside.orderly {}
  simp only [takeBorrowerEvent, noWrite, writing]
  split
  · exact orderly_failAskOf a s
  · split
    · split
      · split
        · exact hended _
        · exact orderly_reportDataLost _ _ s
      · exact hended _
    · exact .refl s

theorem orderly_takeLenderEvent (ev : RosterEvent) (a : Station) (s : State) : Orderly s (takeLenderEvent ev a s).1 := by
  have hended : Orderly s (if ev = .peerNewEpoch then stopOfferTo a s else s) := by
    split
    · exact orderly_stopOfferTo a s
    · exact .refl s
  have hemptied : Orderly s (if ev = .peerNewEpoch then emptyLastGrantOf a (if ev = .peerNewEpoch then stopOfferTo a s else s)
      else if ev = .peerNewEpoch then stopOfferTo a s else s) := by
    by_cases hev : ev = .peerNewEpoch
    · simp only [if_pos hev] at hended ⊢
      exact hended.trans (Beside.orderly {})
    · rwa [if_neg hev]
  simp only [takeLenderEvent, noWrite, writing]
  split
  · exact orderly_stopOfferTo a s
  · split
    · split
      · exact hended
      · exact hemptied
    · exact hemptied

/-- No event loses a law. -/
theorem orderly_takeTask (t : Task) (s : State) : Orderly s (takeTask t s).1 := by
  cases t with
  | reply a r => exact orderly_fillReply a r s
  | releaseReply => exact orderly_releaseReply s
  | releaseOther => exact orderly_releaseOther s
  | giveback reserved a r ls =>
    simp only [takeTask, noWrite]
    split
    · exact (orderly_releaseOther s).trans (orderly_sendGiveback a r ls _)
    · exact orderly_sendGiveback a r ls s
  | report f => exact orderly_report f s
  | count c => exact orderly_countUp c s
  | mapMemError => exact orderly_mapMemError s
  | startAsk => exact orderly_startAsk s
  | judgeAsk => exact orderly_judgeAsk s
  | askSucceeded a i => exact orderly_askSucceeded a i s
  | failAskOf a => exact orderly_failAskOf a s
  | granted a i rs => exact orderly_sendGranted a i rs s
  | endOfferOf a i => exact orderly_endOfferOf a i s
  | emptyLastGrants ls => exact Beside.orderly {}
  | emptyLastGrantOf a => exact Beside.orderly {}
  | takeHeard a i n => exact orderly_takeTake a i n s
  | grantHeard a i rs => exact orderly_takeGrant a i rs s
  | givebackHeard a ls =>
    simp only [takeTask, takeGiveback, writing, noWrite]
    split
    · split
      · exact orderly_reportStale _ s
      · exact orderly_reportStale _ s
    · exact .refl s
  | returnStep =>
    simp only [takeTask, takeReturnStep, writing, noWrite]
    split
    · rename_i hdue
      split
      · exact .refl s
      · exact orderly_reserveOther (Bool.and_eq_true _ _ ▸ hdue).2
    · exact .refl s
  | borrowerEvent ev a => exact orderly_takeBorrowerEvent ev a s
  | lenderEvent ev a => exact orderly_takeLenderEvent ev a s
  | lookupWrite a v c tag =>
    simp only [takeTask, takeLookupWrite]
    split
    · exact Beside.orderly {}
    · exact orderly_allocate a v c tag _ s
    · exact orderly_allocate a v c tag _ s
  | commit a v c tag =>
    simp only [takeTask, takeCommit]
    split
    · exact Beside.orderly {}
    · exact .refl s
  | trim a v f n tag =>
    simp only [takeTask, takeTrim]
    split
    · exact Beside.orderly {}
    · exact .refl s
  | volumeCreate a v n tag => exact orderly_takeVolume a v tag _ s
  | volumeDelete a v tag => exact orderly_takeVolume a v tag _ s
  | volumeGrow a v n tag => exact orderly_takeVolume a v tag _ s
  | mapEvent ev a => cases ev <;> exact Beside.orderly {}
  | rollback which =>
    simp only [takeTask, takeRollback]
    split
    · split
      · exact .refl s
      · exact .refl s
    · exact .refl s
  | walk n => exact orderly_takeWalk n s
  | freeVolume r => exact .refl s
  | judgeQuiet => exact orderly_judgeQuiet s
  | endForcedDrain =>
    simp only [takeTask, noWrite]
    split
    · rename_i hdrain
      exact (orderly_report .drainForced s).trans (orderly_endDrain (by rw [report_cond, hdrain]; exact nofun))
    · exact .refl s
  | resume =>
    simp only [takeTask, noWrite]
    split
    · exact orderly_resumeStart s
    · exact .refl s
  | formatHeader => exact .refl s
  | formatContents => exact .refl s
  | formatFailed =>
    simp only [takeTask, noWrite]
    split
    · rename_i hstart
      have hread : Orderly s { s with headerRead := false } := Beside.orderly {}
      exact hread.trans (orderly_failStart hstart)
    · exact .refl s
  | raiseRestartCount => exact .refl s
  | raisePool =>
    simp only [takeTask, noWrite]
    split
    · exact Beside.orderly {}
    · exact .refl s
  | startRollback hs =>
    simp only [takeTask, takeStartRollback]
    split
    · exact Beside.orderly {}
    · exact .refl s
  | sweepRetiring =>
    simp only [takeTask, takeSweep]
    split
    · exact .refl s
    · exact .refl s
  | startDone =>
    simp only [takeTask, noWrite]
    split
    · rename_i hstart
      exact orderly_endStart hstart
    · exact .refl s
  | startFailed =>
    simp only [takeTask, noWrite]
    split
    · rename_i hstart
      exact orderly_failStart hstart
    · exact .refl s

/-- No law is lost while events are taken. -/
theorem orderly_work (n : Nat) (fates : List WriteFate) (s : State) : Orderly s (work n fates s) := by
  refine work_keeps (I := Orderly s) ?_ ?_ n fates s (.refl s)
  · intro t rest u u' hu _ _ htaken
    have hrest : Orderly u (withTasks rest u) := Beside.orderly {}
    have htask := orderly_takeTask t (withTasks rest u)
    rw [htaken] at htask
    exact hu.trans (hrest.trans htask)
  · intro t rest u u' w hu _ _ htaken
    have hrest : Orderly u (withTasks rest u) := Beside.orderly {}
    have htask := orderly_takeTask t (withTasks rest u)
    rw [htaken] at htask
    have hthere := hu.trans (hrest.trans htask)
    exact ⟨hthere.trans (Beside.orderly {}), hthere.trans (Beside.orderly {}), hthere.trans (Beside.orderly {})⟩

theorem orderly_settle (m : Moment) (s : State) : Orderly s (settle m s) := orderly_work _ _ s

theorem orderly_perform (m : Moment) (ts : List Task) (s : State) : Orderly s (perform m ts s) := by
  have hadd : Orderly s (withTasks (s.tasks ++ ts) s) := Beside.orderly {}
  exact hadd.trans (orderly_settle m _)

/-! ## Frames heard -/

/-- A frame is handed on outside START alone. -/
theorem orderly_hear {a : Station} {acks : Bool} {f : State → State} {s : State} (hf : ∀ u, u.cond ≠ .start → Orderly u (f u)) :
    Orderly s (hear a acks f s) := by
  unfold hear
  split
  · exact Beside.orderly {}
  · rename_i hcond
    have hacks : Orderly s { s with ackDriven := acks } := Beside.orderly {}
    have hnote (u : State) : Orderly u (noteSource a u) := by
      unfold noteSource
      split
      · exact .refl u
      · exact Beside.orderly {}
    refine (hacks.trans (hnote _)).trans (hf _ ?_)
    unfold noteSource
    split
    · exact hcond
    · exact hcond

theorem orderly_hearMalformed (a dest : Station) (s : State) : Orderly s (hearMalformed a dest s) := orderly_hear fun u _ => .refl u

theorem orderly_hearAskFrame (a : Station) (i : AskId) (w : Nat) (s : State) : Orderly s (hearAskFrame a i w s) :=
  orderly_hear fun u _ => by
    split
    · exact orderly_hearAsk a i w u
    · exact .refl u

theorem orderly_hearOfferFrame (a : Station) (i : AskId) (b : Station) (n : Nat) (s : State) : Orderly s (hearOfferFrame a i b n s) :=
  orderly_hear fun u _ => by
    split
    · exact orderly_hearOffer a i b n u
    · exact .refl u

theorem orderly_hearTakeFrame (a dest : Station) (i : AskId) (n : Nat) (m : Moment) (s : State) :
    Orderly s (hearTakeFrame a dest i n m s) :=
  orderly_hear fun u _ => by
    split
    · split
      · exact orderly_perform m _ u
      · exact orderly_hearTakeElsewhere a i u
    · exact .refl u

theorem orderly_hearGrantFrame (a dest : Station) (i : AskId) (rs : List GrantRecord) (m : Moment) (s : State) :
    Orderly s (hearGrantFrame a dest i rs m s) :=
  orderly_hear fun u _ => by
    split
    · exact orderly_perform m _ u
    · exact .refl u

theorem orderly_hearGivebackFrame (a dest : Station) (ls : List Nat) (m : Moment) (s : State) :
    Orderly s (hearGivebackFrame a dest ls m s) :=
  orderly_hear fun u _ => by
    split
    · exact orderly_perform m _ u
    · exact .refl u

theorem orderly_hearHailFrame (a : Station) (h : HailBody) (m : Moment) (s : State) : Orderly s (hearHailFrame a h m s) :=
  orderly_hear fun u hu => by
    unfold hearHail
    split
    · split
      · exact orderly_duplicateHeard hu
      · exact .refl u
    · split
      · exact .refl u
      · have hmoved : Orderly u { u with
            roster := tableSet RosterRecord.none u.roster a.toNat (hailRecord (rosterOf u.roster a) h).1 } := Beside.orderly {}
        exact hmoved.trans (orderly_perform m _ _)

theorem orderly_hearRequester (f : RawFrame) (s : State) : Orderly s (hearRequester f s) := by
  unfold hearRequester
  split
  · exact orderly_hearMalformed _ _ s
  · refine orderly_hear fun u _ => ?_
    split
    · rename_i htakes
      refine orderly_buffer fun _ => ?_
      have hroom : u.buffer.length < Config.bufferPlaces := by
        unfold bufferTakes at htakes
        simp only [Bool.and_eq_true, decide_eq_true_eq] at htakes
        exact htakes.2
      rw [List.length_append]
      exact hroom
    · exact .refl u

theorem orderly_hearRaw (f : RawFrame) (m : Moment) (s : State) : Orderly s (hearRaw f m s) := by
  unfold hearRaw
  split
  · exact Beside.orderly {}
  · split
    · exact orderly_hearRequester f s
    · split
      · exact orderly_hearAskFrame _ _ _ s
      · exact orderly_hearOfferFrame _ _ _ _ s
      · exact orderly_hearTakeFrame _ _ _ _ m s
      · exact orderly_hearGrantFrame _ _ _ _ m s
      · exact orderly_hearGivebackFrame _ _ _ m s
      · exact orderly_hearHailFrame _ _ m s
      · exact orderly_hear fun u _ => .refl u
      · exact orderly_hearMalformed _ _ s

/-! ## Attempts -/

theorem orderly_withAttempt {f : Hand → State → State} {s : State} (hf : ∀ h, s.link.hand = some h → Orderly s (f h s)) :
    Orderly s (withAttempt f s) := by
  unfold withAttempt
  split
  · rename_i h hh
    split
    · exact hf h hh
    · exact .refl s
  · exact .refl s

/-- An attempt begins in a condition that transmits alone. -/
theorem orderly_driven {s : State} {l : Link} (hs : transmits s = true) (hlaw : LinkLaw s.link → LinkLaw l) :
    Orderly s { s with link := l } where
  silent _ hsilent := by
    unfold transmits at hs
    obtain h | h | h | h := hsilent <;> exact absurd hs (by rw [show s.cond = _ from h]; decide)
  attention ha := ha
  counters hc := hc
  link := hlaw
  buffer hb := hb
  ask ha := ha
  offer ho := ho
  apart ha := ha

/-- The front frame becomes the frame in hand, in one place as before (R150). -/
theorem LinkLaw.of_front {l : Link} (hl : LinkLaw l) {f : OutFrame} {rest : List OutFrame} (hh : l.hand = none) (hq : l.queue = f :: rest)
    {h : Hand} (hf : h.frame = f) (hr : h.retries = 0) : LinkLaw { l with queue := rest, hand := some h } := by
  obtain ⟨hplaces, hreplies, horder, -⟩ := hl
  unfold Link.occupied at hplaces
  unfold Link.replies at hreplies
  rw [hh, hq] at hplaces hreplies
  rw [hq] at horder
  refine ⟨?_, ?_, (List.pairwise_cons.mp horder).2, fun x hx => ?_⟩
  · unfold Link.occupied
    simp only [List.length_cons, Option.isSome_none, Option.isSome_some, if_true, Bool.false_eq_true, if_false] at hplaces ⊢
    omega
  · unfold Link.replies
    simp only [List.countP_cons, Option.any_none, Option.any_some, hf] at hreplies ⊢
    omega
  · cases hx
    exact hr.trans_le (Nat.zero_le _)

theorem orderly_beginAttempt {s : State} (hs : transmits s = true) : Orderly s (beginAttempt s) := by
  unfold beginAttempt
  split
  · rename_i h hh
    split
    · exact orderly_driven hs fun hl => hl.of_hand hh rfl (hl.retries h hh)
    · exact .refl s
  · rename_i hh
    split
    · exact .refl s
    · rename_i f rest hq
      split
      · exact orderly_driven hs fun hl => hl.of_front hh hq rfl rfl
      · exact .refl s

theorem orderly_leavingGone (b : FrameBody) (s : State) : Orderly s (leavingGone b s) := by
  unfold leavingGone
  split
  · split
    · rename_i h
      exact orderly_enterQuiet (by rw [h.2.1]; exact nofun)
    · exact .refl s
  · exact .refl s

theorem orderly_toldEnded (b : FrameBody) (s : State) : Orderly s (toldEnded b s) := by
  unfold toldEnded
  split
  · split
    · rename_i h
      exact orderly_ask (fun ha => ha.of_flight (by rw [h.1]; exact nofun) (by rw [h.1]; exact nofun) rfl) id
    · exact .refl s
  · split
    · rename_i h
      exact orderly_ask (fun ha => ha.of_flight (by rw [h.1]; exact nofun) (by rw [h.1]; exact nofun) rfl) id
    · exact .refl s
  · split
    · rename_i h
      split
      · exact orderly_endOffer s
      · refine orderly_offer (fun ho => ⟨⟨nofun, fun hnone => ?_⟩, nofun, nofun, nofun, fun _ => nofun, ho.offered⟩) nofun
        have hopen := h.2
        rw [show s.offer.current = none from hnone] at hopen
        exact nomatch hopen
    · exact .refl s
  · exact orderly_leavingGone b s

theorem orderly_dropFrame (h : Hand) (s : State) : Orderly s (dropFrame h s) :=
  ((((orderly_clearHand s).trans (orderly_report _ _)).trans (orderly_countUp _ _)).trans (orderly_toldDropped _ _)).trans
    (orderly_leavingGone _ _)

theorem orderly_failAttempt {h : Hand} {s : State} (hh : s.link.hand = some h) : Orderly s (failAttempt h s) := by
  unfold failAttempt
  split
  · exact (orderly_clearHand s).trans (orderly_toldDropped _ _)
  · split
    · rename_i hlt
      exact orderly_hand hh rfl (fun _ => hlt) rfl
    · exact orderly_dropFrame h s

theorem orderly_loseArbitration {h : Hand} {s : State} (hh : s.link.hand = some h) : Orderly s (loseArbitration h s) := by
  unfold loseArbitration
  split
  · exact (orderly_clearHand s).trans (orderly_toldDropped _ _)
  · exact orderly_hand hh rfl id rfl

/-! ## Requests -/

/-- A request is taken with room for its REPLY (R34). -/
theorem orderly_takeRequest {handle : Station → Request → State → Option State} {m : Moment} {s : State}
    (hh : ∀ a r u v, hasReplyPlace u = true → handle a r u = some v → Orderly u v) : Orderly s (takeRequest handle m s) := by
  unfold takeRequest
  split
  · rename_i hcan
    have hroom : hasReplyPlace s = true := by
      unfold canTake at hcan
      simp only [Bool.and_eq_true] at hcan
      exact hcan.1.2
    split
    · exact .refl s
    · rename_i f rest hbuffer
      split
      · rename_i v hv
        have hpop : Orderly s { s with buffer := rest } := orderly_buffer fun h => by
          rw [hbuffer] at h
          exact Nat.le_of_succ_le h
        exact (hpop.trans (hh _ _ _ _ hroom hv)).trans (orderly_settle m v)
      · exact .refl s
  · exact .refl s

theorem orderly_begun {t : Task} {u v : State} (hroom : hasReplyPlace u = true) (h : some (beginRequest t u) = some v) : Orderly u v := by
  cases h
  exact (orderly_reserveReply hroom).trans (Beside.orderly {})

theorem orderly_answered {a : Station} {r : Reply} {u v : State} (h : some (answer a r u) = some v) : Orderly u v := by
  cases h
  exact orderly_answer a r u

/-! ## Commands -/

theorem orderly_changeBay (bay : Nat) (p : Bool) (m : Moment) (s : State) : Orderly s (changeBay bay p m s) := by
  unfold changeBay
  split
  · have hbay : Orderly s { s with presence := s.presence.set bay p } := Beside.orderly {}
    exact (hbay.trans (orderly_report _ _)).trans (orderly_perform m _ _)
  · exact .refl s

theorem orderly_whenOn {m : Moment} {f : State → State} {s t : State} (hf : ∀ u, Orderly u (f u)) (h : whenOn m f s = .next t) :
    Orderly s t := by
  unfold whenOn at h
  cases h
  split
  · have hadvance : Orderly s (advance m.time s) := Beside.orderly {}
    exact hadvance.trans (hf _)
  · exact .refl s

/-- No law is lost with the supply: every structure is empty and every machine idle. -/
theorem orderly_powerLoss (takes : Bool) (s : State) :
    Orderly s { State.reset with powered := false, pending := s.pending, now := s.now, fresh := s.fresh, mm := settleMemory takes s } :=
  orderly_of_holds (fun _ => nofun) rfl (fun _ => counterLaw_reset rfl) rfl rfl rfl rfl

theorem orderly_joinTimerExpiry {m : Moment} {s t : State} (h : execJoinTimerExpiry m s = .next t) : Orderly s t := by
  unfold execJoinTimerExpiry at h
  refine orderly_whenOn (fun u => ?_) h
  split
  · rename_i hjoin
    have hnot : u.cond ≠ .start := by
      rw [hjoin.1]
      exact nofun
    dsimp only
    split
    · have hready : Orderly u { u with cond := .ready } := orderly_cond hnot nofun (by rintro (h | h | h | h) <;> cases h)
      have htimers : Orderly u { u with
          joinTimer := none, hailTimer := some (presenceDeadline u), cond := .ready
          walkerTimer := some (u.now + u.profile.walkerPeriod * Config.microsecond) } := hready.trans (Beside.orderly {})
      refine (((htimers.trans (orderly_queueHail _)).trans (orderly_judgeAsk _)).trans (orderly_judgeService ?_)).trans
        (orderly_settle m _)
      simp
    · have htimers : Orderly u { u with joinTimer := none, hailTimer := some (presenceDeadline u) } := Beside.orderly {}
      exact ((htimers.trans (orderly_enterHalted hnot)).trans (orderly_queueHail _)).trans (orderly_settle m _)
  · exact .refl u

theorem orderly_offerTimerExpiry {m : Moment} {s t : State} (h : execOfferTimerExpiry m s = .next t) : Orderly s t := by
  unfold execOfferTimerExpiry at h
  refine orderly_whenOn (fun u => ?_) h
  split
  · exact .refl u
  · rename_i o hopen
    split
    · split
      · rename_i v hv
        refine (orderly_offered hv).trans (orderly_offer (fun ho => ⟨⟨nofun, fun hnone => ?_⟩, nofun, nofun, fun _ => rfl, nofun, ho.offered⟩) nofun)
        rw [(offerFrame_some hv).2.2.2] at hnone
        exact nomatch hopen.symm.trans hnone
      · exact orderly_endOffer u
    · exact .refl u

theorem orderly_restarted (cause : RestartCause) (pins : StartPins) (rom : Option ProfileRom) (m : Moment) (mm : MapMemory) (s : State) :
    Orderly s (settle m (fullStart cause pins rom { s with mm := mm })) := by
  have hmemory : Orderly s { s with mm := mm } := Beside.orderly {}
  exact (hmemory.trans (orderly_fullStart cause pins rom _)).trans (orderly_settle m _)

theorem orderly_powerOn {pins : StartPins} {rom : Option ProfileRom} {takes : Bool} {m : Moment} {s t : State}
    (h : execPowerOn pins rom takes m s = .next t) : Orderly s t := by
  have hadvance : Orderly s (advance m.time s) := Beside.orderly {}
  have hstart := hadvance.trans (orderly_restarted .power pins rom m (settleMemory takes s) (advance m.time s))
  unfold execPowerOn at h
  injection h with h
  rwa [h] at hstart

theorem orderly_resetPin {lowFor : Time} {pins : StartPins} {rom : Option ProfileRom} {takes : Bool} {m : Moment} {s t : State}
    (h : execResetPin lowFor pins rom takes m s = .next t) : Orderly s t := by
  unfold execResetPin at h
  refine orderly_whenOn (fun u => ?_) h
  split
  · exact orderly_restarted .pin pins rom m _ u
  · exact .refl u

/-- No command loses a law. -/
theorem orderly_exec {c : Instr} {s t : State} (h : exec c s = .next t) : Orderly s t := by
  cases c with
  | powerOn pins rom takes m => exact orderly_powerOn h
  | resetPin lowFor pins rom takes m => exact orderly_resetPin h
  | bayAbsent bay heldFor m =>
    dsimp only [exec, execBayAbsent] at h
    refine orderly_whenOn (fun u => ?_) h
    have htell : Orderly u (tellLine bay true u) := Beside.orderly {}
    split
    · exact htell.trans (orderly_changeBay _ _ m _)
    · exact htell
  | bayPresent bay heldFor m =>
    dsimp only [exec, execBayPresent] at h
    refine orderly_whenOn (fun u => ?_) h
    have htell : Orderly u (tellLine bay false u) := Beside.orderly {}
    split
    · exact htell.trans (orderly_changeBay _ _ m _)
    · exact htell
  | serviceAsserted heldFor m =>
    dsimp only [exec, execServiceAsserted] at h
    refine orderly_whenOn (fun u => ?_) h
    have hpin : Orderly u { tellService u.profile.serviceActiveHigh u with servicePin := u.profile.serviceActiveHigh } := Beside.orderly {}
    split
    · split
      · rename_i hready
        exact (hpin.trans (orderly_enterDrain (by rw [hready]; exact nofun))).trans (orderly_settle m _)
      · exact hpin
    · exact Beside.orderly {}
  | serviceReleased heldFor lines m =>
    dsimp only [exec, execServiceReleased] at h
    refine orderly_whenOn (fun u => ?_) h
    split
    · split
      · have hpin : Orderly u { tellService (!u.profile.serviceActiveHigh) u with
            servicePin := !u.profile.serviceActiveHigh, bayLines := lines } := Beside.orderly {}
        exact hpin.trans (orderly_perform m _ _)
      · exact Beside.orderly {}
    · exact Beside.orderly {}
  | requestFrameReceived f m =>
    dsimp only [exec, execRequestFrameReceived] at h
    refine orderly_whenOn (fun u => ?_) h
    split
    · exact Beside.orderly {}
    · split
      · exact orderly_hearRequester f u
      · exact .refl u
  | lookupRead m =>
    dsimp only [exec, execLookupRead] at h
    refine orderly_whenOn (fun _ => orderly_takeRequest fun a r u v _ hv => ?_) h
    split at hv
    · exact orderly_answered hv
    · cases hv
  | lookupWrite m =>
    dsimp only [exec, execLookupWrite] at h
    refine orderly_whenOn (fun _ => orderly_takeRequest fun a r u v hroom hv => ?_) h
    split at hv
    · exact orderly_begun hroom hv
    · cases hv
  | commit m =>
    dsimp only [exec, execCommit] at h
    refine orderly_whenOn (fun _ => orderly_takeRequest fun a r u v hroom hv => ?_) h
    split at hv
    · exact orderly_begun hroom hv
    · cases hv
  | trim m =>
    dsimp only [exec, execTrim] at h
    refine orderly_whenOn (fun _ => orderly_takeRequest fun a r u v hroom hv => ?_) h
    split at hv
    · exact orderly_begun hroom hv
    · cases hv
  | volumeCreate m =>
    dsimp only [exec, execVolumeCreate] at h
    refine orderly_whenOn (fun _ => orderly_takeRequest fun a r u v hroom hv => ?_) h
    split at hv
    · exact orderly_begun hroom hv
    · cases hv
  | volumeDelete m =>
    dsimp only [exec, execVolumeDelete] at h
    refine orderly_whenOn (fun _ => orderly_takeRequest fun a r u v hroom hv => ?_) h
    split at hv
    · exact orderly_begun hroom hv
    · cases hv
  | volumeGrow m =>
    dsimp only [exec, execVolumeGrow] at h
    refine orderly_whenOn (fun _ => orderly_takeRequest fun a r u v hroom hv => ?_) h
    split at hv
    · exact orderly_begun hroom hv
    · cases hv
  | statusPage0 m =>
    dsimp only [exec, execStatusPage0] at h
    refine orderly_whenOn (fun _ => orderly_takeRequest fun a r u v _ hv => ?_) h
    split at hv
    · have huse : Orderly u (useFresh u) := Beside.orderly {}
      exact huse.trans (orderly_answered hv)
    · cases hv
  | statusPage1 m =>
    dsimp only [exec, execStatusPage1] at h
    refine orderly_whenOn (fun _ => orderly_takeRequest fun a r u v _ hv => ?_) h
    split at hv
    · exact orderly_answered hv
    · cases hv
  | clear m =>
    dsimp only [exec, execClear] at h
    refine orderly_whenOn (fun _ => orderly_takeRequest fun a r u v _ hv => ?_) h
    split at hv
    · rename_i named zero tag
      have hclear : Orderly u (judgeAttention { u with faults := u.faults.clear named zero }) := orderly_faults fun hcount => by
        cases zero with
        | true => exact counterLaw_reset rfl
        | false => exact hcount
      exact hclear.trans (orderly_answered hv)
    · cases hv
  | ask a i w m => exact orderly_whenOn (fun u => orderly_hearAskFrame _ _ _ u) h
  | offer a i b n d m =>
    dsimp only [exec, execOffer] at h
    refine orderly_whenOn (fun u => ?_) h
    split
    · exact orderly_hearOfferFrame _ _ _ _ u
    · exact orderly_hearMalformed _ _ u
  | take a d i n m =>
    dsimp only [exec, execTake] at h
    refine orderly_whenOn (fun u => ?_) h
    split
    · exact orderly_hearTakeFrame _ _ _ _ m u
    · exact orderly_hearMalformed _ _ u
  | grant a d i rs m =>
    dsimp only [exec, execGrant] at h
    refine orderly_whenOn (fun u => ?_) h
    split
    · exact orderly_hearGrantFrame _ _ _ _ m u
    · exact orderly_hearMalformed _ _ u
  | giveback a d r ls m =>
    dsimp only [exec, execGiveback] at h
    refine orderly_whenOn (fun u => ?_) h
    split
    · exact orderly_hearGivebackFrame _ _ _ m u
    · exact orderly_hearMalformed _ _ u
  | hail a b m =>
    dsimp only [exec, execHail] at h
    refine orderly_whenOn (fun u => ?_) h
    split
    · exact orderly_hearHailFrame _ _ m u
    · exact orderly_hearMalformed _ _ u
  | frameHeard f m => exact orderly_whenOn (fun u => orderly_hearRaw f m u) h
  | attemptStart m =>
    dsimp only [exec, execAttemptStart] at h
    refine orderly_whenOn (fun u => ?_) h
    split
    · rename_i htransmits
      exact orderly_beginAttempt htransmits
    · exact .refl u
  | arbitrationLost m => exact orderly_whenOn (fun u => orderly_withAttempt fun _ hh => orderly_loseArbitration hh) h
  | frameEnded m =>
    dsimp only [exec, execFrameEnded] at h
    exact orderly_whenOn (fun u => orderly_withAttempt fun _ _ =>
      ((orderly_clearHand u).trans (orderly_toldEnded _ _)).trans (orderly_settle m _)) h
  | attemptFailed m =>
    dsimp only [exec, execAttemptFailed] at h
    exact orderly_whenOn (fun u => orderly_withAttempt fun _ hh => (orderly_failAttempt hh).trans (orderly_settle m _)) h
  | holdExpiry m =>
    dsimp only [exec, execHoldExpiry] at h
    refine orderly_whenOn (fun u => ?_) h
    split
    · exact .refl u
    · split
      · exact orderly_perform m _ u
      · exact .refl u
  | walkerPeriod m =>
    dsimp only [exec, execWalkerPeriod] at h
    refine orderly_whenOn (fun u => ?_) h
    split
    · have htimer : Orderly u { u with walkerTimer := some (u.now + u.profile.walkerPeriod * Config.microsecond) } := Beside.orderly {}
      exact htimer.trans (orderly_perform m _ _)
    · exact .refl u
  | offerWindowExpiry m =>
    dsimp only [exec, execOfferWindowExpiry] at h
    refine orderly_whenOn (fun u => ?_) h
    split
    · exact orderly_failAsk u
    · exact .refl u
  | grantWaitExpiry m =>
    dsimp only [exec, execGrantWaitExpiry] at h
    refine orderly_whenOn (fun u => ?_) h
    split
    · exact orderly_failAsk u
    · exact .refl u
  | backoffExpiry m =>
    dsimp only [exec, execBackoffExpiry] at h
    refine orderly_whenOn (fun u => ?_) h
    split
    · have hidle : Orderly u { u with ask := { u.ask with state := .idle, timer := none } } :=
        orderly_ask (fun ha => ⟨fun _ => rfl, nofun, ha.failures⟩) fun hf => nomatch hf
      exact hidle.trans (orderly_perform m _ _)
    · exact .refl u
  | offerTimerExpiry m => exact orderly_offerTimerExpiry h
  | takeWaitExpiry m =>
    dsimp only [exec, execTakeWaitExpiry] at h
    refine orderly_whenOn (fun u => ?_) h
    split
    · exact orderly_endOffer u
    · exact .refl u
  | returnStep m => exact orderly_whenOn (fun u => orderly_perform m _ u) h
  | peerAgeExpiry a m =>
    dsimp only [exec, execPeerAgeExpiry] at h
    refine orderly_whenOn (fun u => ?_) h
    split
    · have hlost : Orderly u { u with
          roster := tableSet RosterRecord.none u.roster a.toNat { rosterOf u.roster a with state := .lost } } := Beside.orderly {}
      exact hlost.trans (orderly_perform m _ _)
    · exact .refl u
  | hailTimerExpiry m =>
    dsimp only [exec, execHailTimerExpiry] at h
    refine orderly_whenOn (fun u => ?_) h
    split
    · have htimer : Orderly u { u with hailTimer := some (presenceDeadline u) } := Beside.orderly {}
      split
      · exact htimer
      · exact htimer.trans (orderly_queueHail _)
    · exact .refl u
  | joinTimerExpiry m => exact orderly_joinTimerExpiry h
  | drainTimerExpiry m =>
    dsimp only [exec, execDrainTimerExpiry] at h
    refine orderly_whenOn (fun u => ?_) h
    split
    · have hoff : Orderly u { u with drainTimer := none } := Beside.orderly {}
      exact hoff.trans (orderly_perform m _ _)
    · exact .refl u
  | powerLoss takes =>
    cases h
    exact orderly_powerLoss takes s
  | malformedRequest m =>
    dsimp only [exec, execMalformedRequest] at h
    refine orderly_whenOn (fun _ => orderly_takeRequest fun a r u v _ hv => ?_) h
    split at hv
    · have huse : Orderly u (useFresh u) := Beside.orderly {}
      exact huse.trans (orderly_answered hv)
    · exact orderly_answered hv
    · cases hv
  | mapMemoryWriteCompletion ok m =>
    dsimp only [exec, execMapMemoryWriteCompletion] at h
    refine orderly_whenOn (fun u => ?_) h
    split
    · exact .refl u
    · rename_i w _
      have hended : Orderly u (if ok then completeWrite w u else failWrite w u) := by
        split
        · exact Beside.orderly {}
        · exact Beside.orderly {}
      exact hended.trans (orderly_settle m _)

/-- No step loses a law. -/
theorem orderly_step {s t : State} (h : step s = .next t) : Orderly s t := by
  obtain hidle | ⟨c, rest, -, hcmd⟩ := step_cases s
  · rw [hidle] at h
    cases h
    exact .refl s
  · rw [hcmd] at h
    have hpop : Orderly s { s with pending := rest } := Beside.orderly {}
    exact hpop.trans (orderly_exec h)

/-- Settles O4: no operation loses one of the laws. -/
theorem linkAndFaultsKept : Obligations.LinkAndFaultsKept := by
  refine ⟨fun s t hs h => (orderly_step h).silent hs, fun s t hs h => (orderly_step h).attention hs,
    fun s t hs h => (orderly_step h).counters hs, fun s t hs h => ?_⟩
  obtain ⟨hlink, hbuffer⟩ := (queueLaw_iff s).mp hs
  exact (queueLaw_iff t).mpr ⟨(orderly_step h).link hlink, (orderly_step h).buffer hbuffer⟩

/-! ## The roster -/

theorem work_rosterLaw (n : Nat) (fates : List WriteFate) {s : State} (h : RosterLaw s) : RosterLaw (work n fates s) := by
  refine work_keeps (I := RosterLaw) ?_ ?_ n fates s h
  · intro t rest u u' hu _ _ htaken
    have hroster := (takeTask_taken t (withTasks rest u)).roster (hu.of_roster rfl)
    rwa [htaken] at hroster
  · intro t rest u u' w hu _ _ htaken
    have hroster := (takeTask_taken t (withTasks rest u)).roster (hu.of_roster rfl)
    rw [htaken] at hroster
    exact ⟨hroster.of_roster rfl, hroster.of_roster rfl, hroster.of_roster rfl⟩

/-- Every shape of a command keeps the law of the roster. -/
theorem rosterLaw_step {s t : State} (hs : RosterLaw s) (h : step s = .next t) : RosterLaw t := by
  obtain hidle | ⟨c, rest, -, hcmd⟩ := step_cases s
  · rw [hidle] at h
    cases h
    exact hs
  · have hold : RosterLaw { s with pending := rest } := hs.of_roster rfl
    obtain ⟨t', he, hshape⟩ := exec_shape c { s with pending := rest }
    obtain rfl : t' = t := by
      rw [hcmd, he] at h
      cases h
      rfl
    cases hshape with
    | runs _ hruns =>
      obtain hgentle | ⟨m, u, hgentle, rfl⟩ := hruns
      · exact hgentle.roster hold
      · exact work_rosterLaw _ _ (hgentle.roster hold)
    | writeEnded m w ok _ =>
      refine work_rosterLaw _ _ ?_
      split
      · exact hold.of_roster rfl
      · exact hold.of_roster rfl
    | started m cause pins rom takes _ => exact work_rosterLaw _ _ (.of_empty (fullStart_cond_roster cause pins rom _).2)
    | supplyLost takes => exact .of_empty rfl

/-- Settles O5: no operation loses the law of the machines; every shape of a command keeps the roster's. -/
theorem machinesAndRosterKept : Obligations.MachinesAndRosterKept := by
  refine ⟨fun s t hs h => ?_, fun s t hs h => rosterLaw_step hs h⟩
  obtain ⟨hask, hoffer, hapart⟩ := (machineLaw_iff s).mp hs
  have hstep := orderly_step h
  exact (machineLaw_iff t).mpr ⟨hstep.ask hask, hstep.offer hoffer, hstep.apart hapart⟩

end Sys2Proof.Machine
